-- ==== Sys2Proof/Word.lean ====
section
/-!
DEFINITION. The words of the machine and the keyed lists that hold what the package has many of.
-/

namespace Sys2Proof

abbrev Byte := BitVec 8
abbrev Word := BitVec 32
abbrev DWord := BitVec 64

/-- Keyed storage: pairs of a key and a value, in rising key order. A key that is not listed stands for the default
value that the reader names. -/
abbrev AMap (α : Type) := List (Nat × α)

def amGet? {α : Type} : AMap α → Nat → Option α
  | [], _ => none
  | (k, v) :: m, i => if k = i then some v else amGet? m i

def amGet {α : Type} (m : AMap α) (i : Nat) (d : α) : α := (amGet? m i).getD d

def amPut {α : Type} : AMap α → Nat → α → AMap α
  | [], i, x => [(i, x)]
  | (k, v) :: m, i, x =>
    if k = i then (i, x) :: m
    else if i < k then (i, x) :: (k, v) :: m
    else (k, v) :: amPut m i x

def amDel {α : Type} : AMap α → Nat → AMap α
  | [], _ => []
  | (k, v) :: m, i => if k = i then amDel m i else (k, v) :: amDel m i

/-- Replaces the value under a key that is listed or not by a function of it. -/
def amUpd {α : Type} (m : AMap α) (i : Nat) (d : α) (f : α → α) : AMap α := amPut m i (f (amGet m i d))

theorem amGet?_amPut_same {α : Type} (m : AMap α) (i : Nat) (x : α) : amGet? (amPut m i x) i = some x := by
  induction m with
  | nil => simp [amPut, amGet?]
  | cons p m ih =>
    obtain ⟨k, v⟩ := p
    unfold amPut
    split
    · simp [amGet?]
    · split
      · simp [amGet?]
      · rename_i hk _
        simp [amGet?, hk, ih]

theorem amGet?_amPut_other {α : Type} (m : AMap α) (i j : Nat) (x : α) (h : j ≠ i) :
    amGet? (amPut m i x) j = amGet? m j := by
  induction m with
  | nil => simp [amPut, amGet?, Ne.symm h]
  | cons p m ih =>
    obtain ⟨k, v⟩ := p
    unfold amPut
    split
    · rename_i hk
      subst hk
      simp [amGet?, Ne.symm h]
    · split
      · simp [amGet?, Ne.symm h]
      · simp [amGet?, ih]

@[simp] theorem amGet_amPut_same {α : Type} (m : AMap α) (i : Nat) (x d : α) : amGet (amPut m i x) i d = x := by
  simp [amGet, amGet?_amPut_same]

theorem amGet_amPut_other {α : Type} (m : AMap α) (i j : Nat) (x d : α) (h : j ≠ i) :
    amGet (amPut m i x) j d = amGet m j d := by
  simp [amGet, amGet?_amPut_other m i j x h]

end Sys2Proof
end

