-- ==== Sys2Proof/Syntax.lean ====
section
/-!
DEFINITION. Syntax: the tokens, the places they go to, and Instr, one constructor for each row of the opcode table:
the S-words (R36 to R42), the E-words (R47 to R52), and the steps that are not words of a program (arrivals, timeouts,
completions, packets, mailbox commands, messages of the host, debugger commands).
-/

namespace Sys2Proof

/-! ## Fields of S-words -/

/-- The guard of an S-word (R37): it holds when p(p) XOR neg is 1. -/
structure Guard where
  p : BitVec 3
  neg : Bool
  deriving DecidableEq, Repr, Inhabited

/-- The guard that always holds (R37). -/
def Guard.always : Guard := ⟨0, false⟩

/-- CMP conditions (R129), in fn order. -/
inductive Cond
  | eq | ne | lt | ge | ltn | gen | bits | nbits
  deriving DecidableEq, Repr, Inhabited

/-- CMPI conditions (R130), in the order of d[4:3]. -/
inductive CondI
  | eq | ne | lt | ge
  deriving DecidableEq, Repr, Inhabited

/-- Atomic operations (R42), coded 0 to 9. -/
inductive AmoOp
  | add | min | max | minn | maxn | and | or | xor | xchg | cas
  deriving DecidableEq, Repr, Inhabited

/-- FENCE kinds (R42). -/
inductive FenceKind
  | acquire | release | full
  deriving DecidableEq, Repr, Inhabited

/-- FENCE scopes (R42, R208). -/
inductive Scope
  | cell | fold | pasture | package | system
  deriving DecidableEq, Repr, Inhabited

/-- COLL operations (R314). -/
inductive CollOp
  | bcast | reduce | allreduce
  deriving DecidableEq, Repr, Inhabited

abbrev RegNum := BitVec 5
abbrev PredNum := BitVec 3

/-! ## Fields of E-words -/

/-- Element types (R47), in code order. -/
inductive Ty
  | f32 | f64 | bf16x2 | f16x2 | f8e4x4 | f8e5x4 | i32 | i8x4
  deriving DecidableEq, Repr, Inhabited

/-- A consumer (R47): a slot code and a field, 00 left, 01 right, 10 predicate, 11 none. -/
structure Consumer where
  slot : BitVec 7
  fld : BitVec 2
  deriving DecidableEq, Repr, Inhabited

/-- The ordinary E-word (R47) without its op7. -/
structure EW where
  ty : Ty
  md : BitVec 4
  c0 : Consumer
  c1 : Consumer
  deriving DecidableEq, Repr, Inhabited

/-- The matrix E-word (R49) without its op7. -/
structure MatW where
  ty : Ty
  md : BitVec 4
  ringA : BitVec 3
  ringB : BitVec 3
  acc : BitVec 6
  tyB : Ty
  ac : Bool
  tb : Bool
  em : Bool
  deriving DecidableEq, Repr, Inhabited

/-- The tile E-word (R49) without its op7. -/
structure TileW where
  ty : Ty
  md : BitVec 4
  src : BitVec 6
  dst : BitVec 6
  tyD : Ty
  deriving DecidableEq, Repr, Inhabited

/-! ## Tokens and the places they go to -/

/-- The three networks (R14). -/
inductive Net
  | vector | scalar | control
  deriving DecidableEq, Repr, Inhabited

/-- The operand fields of a slot. -/
inductive Fld
  | l | r | p
  deriving DecidableEq, Repr, Inhabited

/-- A span end that is open (R62): 0xFF_FFFF_FFFF, greater than every finite bound. -/
def openHi : Nat := 2 ^ 40 - 1

/-- A token (R55 to R57). A scalar token keeps its 64-bit payload in the low bits of payload and uses bit 0 of valid
and reset; a control token keeps its value in bit 0 of payload. tag is [9:6] tag space, [5:0] tag. `cnum` is the commit
number of a commit token (R286) and `cause` the error cause that an error flag stands for (R373); the layouts of R55 to
R57 have no field for either. -/
structure Token where
  net : Net := .vector
  kind : BitVec 4 := 0
  payload : BitVec 512 := 0
  valid : BitVec 16 := 0
  reset : BitVec 16 := 0
  lo : Nat := 0
  hi : Nat := 0
  tag : Nat := 0
  seq : Nat := 0
  ctx : Nat := 0
  route : Nat := 0
  cls : Nat := 0
  err : Bool := false
  exc : Bool := false
  close : Bool := false
  commit : Bool := false
  sat : Bool := false
  abort : Bool := false
  residue : BitVec 32 := 0
  parity : Bool := false
  cnum : Nat := 0
  cause : Nat := 0
  pages : List Nat := []
  deriving DecidableEq, Repr, Inhabited

/-- A configured part of the package: one entry of a cell's configuration cache (R10, R273), or a memory node (R12).
Cells and slices are numbered 0 to 383 (pasture × 96 + column of its kind × 12 + row, R6, R9). -/
inductive Loc
  | cell (idx : Nat) (entry : Nat)
  | node (idx : Nat)
  deriving DecidableEq, Repr, Inhabited

/-- Where a token goes. -/
inductive Dest
  | field (u : Loc) (slot : Nat) (f : Fld)      -- a slot field
  | trigger (u : Loc) (cls : Nat)               -- the handler bound to a route class (R271)
  | sink (pad : Nat) (sink : Nat)               -- a sink (R88)
  | join (pad : Nat) (join : Nat) (side : Bool) -- an input of a router adder (R192)
  | root (pad : Nat) (barrier : Nat) (member : Nat) -- the root of a paddock barrier (R310)
  | wave (pad : Nat) (u : Loc)                  -- a unit that takes its paddock's waves: configuration-complete (R33), abort mark (R277)
  | nowhere                                     -- a port that no route leaves
  deriving DecidableEq, Repr, Inhabited

/-- A route as the placement lays it: its id (R55) and its class (R15). -/
structure Route where
  id : Nat := 0
  cls : Nat := 0
  deriving DecidableEq, Repr, Inhabited

/-- A token as a switch box receives it (R53, R370): the input it came in by (0 N, 1 E, 2 S, 3 W, 4 to 7 local, 8 the router adder, 9 beside
the fabric), where its route ends, the hop CRC that came with it, its place in the hop buffer of the output that sent it, the route id that the
configuration records, how often it has been resent, and the permit that it holds (R268). -/
structure Hop where
  tok : Token
  ends : List Dest
  crc : BitVec 32
  sentAs : Option (Nat × Nat) := none
  routeWant : Nat := 0
  resends : Nat := 0
  site : Nat := 0
  inp : Nat := 9
  permit : Option Nat := none
  deriving DecidableEq, Repr, Inhabited

/-- A message fragment as its path delivers it (R379): its 8-byte header, its data and its CRC-32C; `injected` says that an injection turned it
into an erasure (R389). -/
structure Fragment where
  bytes : List Byte
  injected : Bool := false
  deriving DecidableEq, Repr, Inhabited

/-- What a paddock fault records (R278, R279). -/
structure FaultRec where
  code : Nat := 0
  ctx : Nat := 0
  cell : Nat := 0xFFFF
  slot : Nat := 0
  fld : Nat := 3
  tag : Nat := 0
  seq : Nat := 0
  seqLast : Nat := 0
  cause : Nat := 0
  aux : DWord := 0
  more : Nat := 0
  deriving DecidableEq, Repr, Inhabited

/-- A detected fault as it is reported (R373): the cause, the paddock it touched, the cell it was found at, and whether an
ERRMASK bit made it (R388), and what the rule of a cause adds. -/
structure ErrRep where
  cause : Nat
  pad : Nat
  cell : Option Nat := none
  injected : Bool := false
  commitScope : Bool := false    -- the firing scope has not absorbed it (R374)
  sealRead : Option Nat := none    -- the seal of a block whose CRC fails (R103)
  word : Option DWord := none    -- the address of the S-word whose check fails (R134)
  site : Option Nat := none      -- the site of a slice, or of a memory link at its slice column, that reports to the drover
  reg : Option Nat := none       -- the register concerned: 0 to 31 s0 to s31, 32 to 39 p0 to p7 (R134)
  deriving DecidableEq, Repr, Inhabited

/-- Final statuses of a packet (R280, R323). -/
inductive PktStatus
  | complete | faulted | aborted | abortedByPredecessor
  deriving DecidableEq, Repr, Inhabited

/-- Debugger breakpoints (R201, R329). -/
inductive BreakPoint
  | token (u : Loc) (slot : Nat) (f : Fld)
  | firing (u : Loc) (slot : Nat)
  | port (u : Loc) (n : Nat)             -- a token leaves by an output port (R258)
  | packet (q : Nat) (i : Option Nat)
  deriving DecidableEq, Repr, Inhabited

/-- What one scrub of a memory line finds (R372). -/
inductive ScrubFinding
  | clean | single | uncorrectable
  deriving DecidableEq, Repr, Inhabited

/-- What the outside gives with a step that is not a word of a program and has no operands of its own in Instr: the host, a
debugger, the service processor or a link. Each such step says which fields it reads. -/
structure Arg where
  link : Nat := 0
  path : Nat := 0
  cell : Nat := 0                -- a cell, a core, a die
  ctx : Nat := 0
  va : Nat := 0
  frame : Nat := 0
  addr : Nat := 0
  len : Nat := 0
  bytes : List Byte := []
  code : Nat := 0
  flag : Bool := false
  failed : List Nat := []
  pad : Option Nat := none
  loc : Loc := .cell 0 0
  slot : Nat := 0
  brk : BreakPoint := .packet 0 none
  finding : ScrubFinding := .clean
  deriving DecidableEq, Repr, Inhabited

/-- A recorded tree (R16): over the folds of a paddock for COLL (R314), over the RSEND slots of a reduction (R192). -/
inductive FoldTree
  | leaf (i : Nat)
  | node (a b : FoldTree)
  deriving DecidableEq, Repr, Inhabited

/-- One constructor for each row of the opcode table. -/
inductive Instr
  -- ALU family (R123)
  | add (d a b : RegNum) (g : Guard)
  | sub (d a b : RegNum) (g : Guard)
  | and (d a b : RegNum) (g : Guard)
  | or (d a b : RegNum) (g : Guard)
  | xor (d a b : RegNum) (g : Guard)
  | andn (d a b : RegNum) (g : Guard)
  | shl (d a b : RegNum) (g : Guard)
  | shr (d a b : RegNum) (g : Guard)
  | sra (d a b : RegNum) (g : Guard)
  | rol (d a b : RegNum) (g : Guard)
  | ror (d a b : RegNum) (g : Guard)
  | min (d a b : RegNum) (g : Guard)
  | max (d a b : RegNum) (g : Guard)
  | minn (d a b : RegNum) (g : Guard)
  | maxn (d a b : RegNum) (g : Guard)
  | sel (d a b : RegNum) (g : Guard)
  | clz (d a : RegNum) (g : Guard)
  | ctz (d a : RegNum) (g : Guard)
  | popc (d a : RegNum) (g : Guard)
  | sext8 (d a : RegNum) (g : Guard)
  | sext16 (d a : RegNum) (g : Guard)
  | sext32 (d a : RegNum) (g : Guard)
  | zext8 (d a : RegNum) (g : Guard)
  | zext16 (d a : RegNum) (g : Guard)
  | zext32 (d a : RegNum) (g : Guard)
  | mov (d a : RegNum) (g : Guard)
  | abs (d a : RegNum) (g : Guard)
  | neg (d a : RegNum) (g : Guard)
  | addw (d a b : RegNum) (g : Guard)
  | subw (d a b : RegNum) (g : Guard)
  -- Multiply and divide (R125, R126)
  | mul (d a b : RegNum) (g : Guard)
  | mulh (d a b : RegNum) (g : Guard)
  | mulhn (d a b : RegNum) (g : Guard)
  | div (d a b : RegNum) (g : Guard)
  | divn (d a b : RegNum) (g : Guard)
  | rem (d a b : RegNum) (g : Guard)
  | remn (d a b : RegNum) (g : Guard)
  | mulw (d a b : RegNum) (g : Guard)
  -- Compares and predicates (R129 to R131)
  | cmp (c : Cond) (pd : PredNum) (a b : RegNum) (g : Guard)
  | cmpi (c : CondI) (pd : PredNum) (a : RegNum) (imm : BitVec 12) (g : Guard)
  | pand (pd pa pb : PredNum) (g : Guard)
  | por (pd pa pb : PredNum) (g : Guard)
  | pxor (pd pa pb : PredNum) (g : Guard)
  | pandn (pd pa pb : PredNum) (g : Guard)
  | pnot (pd pa : PredNum) (g : Guard)
  | pmov (pd pa : PredNum) (g : Guard)
  | pset (pd : PredNum) (g : Guard)
  | pclr (pd : PredNum) (g : Guard)
  -- Immediate forms and constants (R127, R128)
  | addi (d a : RegNum) (imm : BitVec 12) (g : Guard)
  | andi (d a : RegNum) (imm : BitVec 12) (g : Guard)
  | ori (d a : RegNum) (imm : BitVec 12) (g : Guard)
  | xori (d a : RegNum) (imm : BitVec 12) (g : Guard)
  | shli (d a : RegNum) (imm : BitVec 12) (g : Guard)
  | shri (d a : RegNum) (imm : BitVec 12) (g : Guard)
  | srai (d a : RegNum) (imm : BitVec 12) (g : Guard)
  | muli (d a : RegNum) (imm : BitVec 12) (g : Guard)
  | li (d : RegNum) (imm : BitVec 21)
  | lui (d : RegNum) (imm : BitVec 21)
  | luih (d : RegNum) (imm : BitVec 21)
  -- Loads and stores (R229 to R231), atomics (R233), FENCE (R214)
  | ldl (d a : RegNum) (sz : BitVec 2) (off : BitVec 10) (g : Guard)
  | stl (d a : RegNum) (sz : BitVec 2) (off : BitVec 10) (g : Guard)
  | ldf (d a : RegNum) (sz : BitVec 2) (off : BitVec 10) (g : Guard)
  | stf (d a : RegNum) (sz : BitVec 2) (off : BitVec 10) (g : Guard)
  | lds (d a : RegNum) (sz : BitVec 2) (off : BitVec 10) (g : Guard)
  | sts (d a : RegNum) (sz : BitVec 2) (off : BitVec 10) (g : Guard)
  | amof (op : AmoOp) (d a : RegNum) (dbl : Bool) (off : BitVec 6) (g : Guard)
  | amos (op : AmoOp) (d a : RegNum) (dbl : Bool) (off : BitVec 6) (g : Guard)
  | fence (k : FenceKind) (spaces : BitVec 5) (sc : Scope) (g : Guard)
  -- Control flow (R301, R302)
  | br (off : BitVec 22) (g : Guard)
  | jal (d : RegNum) (off : BitVec 21)
  | jr (d a : RegNum) (g : Guard)
  | loopn (a : RegNum) (len : BitVec 12) (g : Guard)
  -- Circular buffers (R306, R307)
  | advp (b : BitVec 4) (count : BitVec 8) (g : Guard)
  | advc (b : BitVec 4) (count : BitVec 8) (g : Guard)
  | cbrd (d a : RegNum) (sz : BitVec 2) (b : BitVec 4) (slot : BitVec 6) (g : Guard)
  | cbwr (d a : RegNum) (sz : BitVec 2) (b : BitVec 4) (slot : BitVec 6) (g : Guard)
  -- Channels, bindings, masks, tags (R308 to R311)
  | send (cls : BitVec 3) (a b : RegNum) (g : Guard)
  | bind (cls : BitVec 3) (h : BitVec 4) (g : Guard)
  | hmask (m : BitVec 8) (g : Guard)
  | hunmask (m : BitVec 8) (g : Guard)
  | taga (d : RegNum) (space : BitVec 4) (g : Guard)
  | tagf (d : RegNum) (space : BitVec 4) (g : Guard)
  -- Engines, signals, tile table (R313 to R317)
  | cpy (q : BitVec 4) (a b : RegNum) (clr : Bool) (g : Guard)
  | gath (q : BitVec 4) (a b : RegNum) (g : Guard)
  | scat (q : BitVec 4) (a b : RegNum) (g : Guard)
  | coll (q : BitVec 4) (a b : RegNum) (op : CollOp) (g : Guard)
  | qfence (q : BitVec 4) (m : BitVec 8) (g : Guard)
  | siginc (q : BitVec 4) (a b : RegNum) (g : Guard)
  | sigdec (q : BitVec 4) (a b : RegNum) (g : Guard)
  | sigset (q : BitVec 4) (a b : RegNum) (g : Guard)
  | tset (a b : RegNum) (g : Guard)
  | tqry (a b : RegNum) (g : Guard)
  -- Launch words, special registers, ends (R303, R304, R318 to R322, R351, R352)
  | cfgld (entry : BitVec 4) (a b : RegNum) (row : BitVec 4) (g : Guard)
  | seed (k : BitVec 4) (a : RegNum) (g : Guard)
  | enq (q : BitVec 4) (a b : RegNum) (g : Guard)
  | commit (a : RegNum) (g : Guard)
  | mfs (d : RegNum) (idx : BitVec 12) (g : Guard)
  | mts (idx : BitVec 12) (a : RegNum) (g : Guard)
  | sysc (d : RegNum) (svc : BitVec 12) (g : Guard)
  | trap (d : RegNum) (code : BitVec 12) (g : Guard)
  | brk (code : BitVec 12) (g : Guard)
  | fin (g : Guard)
  | ckpt (g : Guard)
  | halt (g : Guard)
  -- Floating-point element operations (R150 to R153)
  | vadd (e : EW)
  | vsub (e : EW)
  | vmul (e : EW)
  | vmac (e : EW)
  | vfmak (e : EW)
  | vmin (e : EW)
  | vmax (e : EW)
  | vabs (e : EW)
  | vneg (e : EW)
  | vrcp (e : EW)
  | vrsq (e : EW)
  | vsqrt (e : EW)
  | vdiv (e : EW)
  | vexp2 (e : EW)
  | vlog2 (e : EW)
  | vtanh (e : EW)
  | vsig (e : EW)
  | vcvt (e : EW)
  | vround (e : EW)
  | vclass (e : EW)
  -- Integer element operations (R154 to R156)
  | viadd (e : EW)
  | visub (e : EW)
  | vimul (e : EW)
  | vimac (e : EW)
  | vshl (e : EW)
  | vshr (e : EW)
  | vsra (e : EW)
  | vand (e : EW)
  | vor (e : EW)
  | vxor (e : EW)
  | vimin (e : EW)
  | vimax (e : EW)
  | vclz (e : EW)
  | vpopc (e : EW)
  | viabs (e : EW)
  | vmulh (e : EW)
  -- Compare, steer and lane operations (R157 to R164)
  | vcmp (e : EW)
  | vsel (e : EW)
  | steer (e : EW)
  | merge (e : EW)
  | compact (e : EW)
  | expand (e : EW)
  | vmask (e : EW)
  | vany (e : EW)
  | vperm (e : EW)
  | vbcast (e : EW)
  | vrev (e : EW)
  | vextr (e : EW)
  | vins (e : EW)
  | zip (e : EW)
  | unzip (e : EW)
  | vlshift (e : EW)
  -- Reductions, scans, recurrences (R191 to R198)
  | vred (e : EW)
  | rsend (e : EW)
  | scan (e : EW)
  | lrec (e : EW)
  | ema (e : EW)
  | fir (e : EW)
  | segset (e : EW)
  | carry (e : EW)
  -- Span operations (R165 to R169)
  | span (e : EW)
  | split (e : EW)
  | delay (e : EW)
  | window (e : EW)
  | close (e : EW)
  | spanq (e : EW)
  | coalesce (e : EW)
  -- Matrix and tile operations (R181 to R190)
  | mma (m : MatW)
  | mmab (m : MatW)
  | mmaw (m : MatW)
  | bmm4 (e : EW)
  | tclr (t : TileW)
  | tcvt (t : TileW)
  | ttrn (t : TileW)
  | trow (e : EW)
  | tfill (t : TileW)
  -- TEAR, MUSTER, node operations, control-network operations (R170, R239 to R252, R356)
  | tear (e : EW)
  | muster (e : EW)
  | astr (e : EW)
  | ldn (e : EW)
  | stn (e : EW)
  | updn (e : EW)
  | ldsc (e : EW)
  | stsc (e : EW)
  | sbar (e : EW)
  | xlate (e : EW)
  | gate (e : EW)
  | cand (e : EW)
  | cor (e : EW)
  -- Tokens, commits and sinks (R33, R79 to R88, R286 to R288, R384)
  | tokenArrival (u : Loc) (slot : Nat) (f : Fld) (t : Token)
  | overflowReinject (pad : Nat) (u : Loc) (slot : Nat)
  | commitTokenArrival (u : Loc) (slot : Nat) (f : Fld) (t : Token)
  | seedTokenInject (pad : Nat) (seed : Nat)
  | sinkRecord (pad : Nat) (sink : Nat) (t : Token)
  | commitComplete (pad : Nat)
  | externalPublish (pad : Nat)
  | configCompleteWave (pad : Nat) (u : Loc)
  -- Actors (R134, R262, R271, R303, R310)
  | triggerArrival (u : Loc) (cls : Nat) (t : Token)
  | handlerSelect (cell : Nat)
  | finPortRelease (cell : Nat)
  | firingRerun (cell : Nat)
  | streamBarrierArrival (pad : Nat) (barrier : Nat) (member : Nat) (gen : Nat)
  -- Networks (R192, R277, R370)
  | reductionJoin (pad : Nat) (join : Nat) (side : Bool) (t : Token)
  | switchTokenCheck (h : Hop)
  | abortMark (pad : Nat) (u : Loc)
  -- Configuration cache, tiles, timeouts (R253, R267, R273, R275)
  | configFetchDone (cell : Nat)
  | tileSwapDone (u : Loc) (tile : Nat)
  | cfgMiss (cell : Nat)
  | tagsExhausted (u : Loc) (h : Nat)
  | musterTimeout (u : Loc) (slot : Nat)
  -- Paging (R292, R358 to R360)
  | pageResponseSuccess (prg : Nat)
  | pageResponseFailure (prg : Nat)
  | pageFaultTimeout (node : Nat)
  | atsInvalidation (ctx : Nat) (base len : Nat)
  -- Memory nodes, slices and engines (R218 to R224, R241, R268, R320)
  | scRingToken (pad : Nat) (node : Nat)
  | nodeStoreVisible (node : Nat) (slot : Nat)
  | sliceReply (cell : Nat) (slice : Nat)
  | engineOpStart (fold q : Nat)
  | engineOpComplete (fold q : Nat)
  | enqAppend (fold q : Nat)
  -- Queues, the drover and packets (R280 to R285, R290, R399 to R401)
  | queueDoorbell (q : Nat) (wr : Nat)
  | queueRearm (q : Nat)
  | queuePrioWrite (q : Nat) (prio : Nat)
  | paddockQuiesced (pad : Nat)
  | launchStart (q i : Nat)
  | barrierPacketStart (q i : Nat)
  | barrierReading (q i : Nat)
  | signalPacketStart (q i : Nat)
  | copyPacketStart (q i : Nat)
  | fencePacketStart (q i : Nat)
  | packetComplete (q i : Nat) (st : PktStatus)
  -- Faults, tests, messages and service (R276, R361 to R392)
  | paddockFault (pad : Nat) (f : FaultRec)
  | errorReport (r : ErrRep)
  | testInterval (cell : Nat)
  | testDone (cell : Nat) (passed : Bool)
  | fragmentReceive (src dst : Nat) (path : Nat) (f : Fragment)
  | decodeAck (src dst : Nat) (id : Nat)
  | spoolTimeout (src dst : Nat) (id : Nat)
  | replayRequest (src dst : Nat) (id : Nat) (attempt : Nat)
  | pathRecalibrated (link : Nat) (path : Nat)
  -- Steps that take their operands from State.arg (see Arg)
  -- The drover and the service processor (R284, R361 to R363, R368, R372, R391, R404 to R407)
  | droverSelection
  | selectionPassTick
  | memoryScrub
  | migrationStart
  | migrationCopyDone
  | evict
  | heartbeatTimeout
  | powerGood
  | bringupTimeout
  | thermalThrottle
  | thermalRestore
  -- Host attachment (R398, R402, R403)
  | hostBar2Read
  | hostBar2Write
  | registerWrite
  | ctxCreate
  | ctxKill
  | queueBind
  | invalidate
  | mint
  | fwLoad
  | logRead
  | healthRead
  | fwActivate
  | configSet
  | countersRead
  | mailboxBadCode
  -- Attestation (R365, R397)
  | getVersion
  | getCapabilities
  | negotiateAlgorithms
  | getDigests
  | getCertificate
  | challenge
  | getMeasurements
  | keyExchange
  | finish
  | keyUpdate
  | heartbeat
  | endSession
  | ideKm
  -- Injection and the debugger (R201, R304, R329, R336, R388 to R392)
  | errmaskTest
  | errmaskHop
  | errmaskRoute
  | errmaskStore
  | errmaskMatrix
  | errmaskVector
  | errmaskPred
  | errmaskScalar
  | brkPoint
  | stepFiring
  | resume
  | injectSwap
  | injectPreempt
  | injectDrop
  | moduleReplace
  | coreRestart
  | recalibrationStart
  deriving DecidableEq, Repr, Inhabited

/-- A step that is under way, with what comes with it. -/
structure Event where
  instr : Instr
  arg : Arg := {}
  deriving DecidableEq, Repr, Inhabited

end Sys2Proof
end

