-- ==== Sys2Proof/Config.lean ====
section
/-!
DEFINITION. What is fixed for the machine: the configuration values of R29, sizes and limits, and the free values that the
spec leaves open.
-/

namespace Sys2Proof

/-! ## Configuration values (R29, R403) -/

/-- Default of a package configuration value, by the index of CONFIG_SET (R403): 0 TAG_WAIT, 1 T_CFG, 2 T_FAULT,
3 T_MUSTER, 4 T_SPOOL, 5 TEST_T, 6 T_HB in milliseconds. -/
def Config.default : Nat → Nat
  | 0 => 100000
  | 1 => 20000
  | 2 => 1000000
  | 3 => 200000
  | 4 => 50000
  | 5 => 50000000
  | _ => 10

/-- Lowest and highest legal value (R29). -/
def Config.range : Nat → Nat × Nat
  | 0 => (1000, 2 ^ 32 - 1)
  | 1 => (5000, 2 ^ 32 - 1)
  | 2 => (10000, 2 ^ 32 - 1)
  | 3 => (1000, 2 ^ 32 - 1)
  | 4 => (5000, 2 ^ 32 - 1)
  | 5 => (1000000, 2 ^ 32 - 1)
  | _ => (1, 1000)

def Config.fmaxDefault : Nat := 4096
def Config.commitDefault : Nat := 64

/-! ## Sizes -/

/-- Bytes of a cell's L (R204). -/
def Config.lSize : Nat := 0x180000
/-- Bytes of F that user firings reach, and all of F (R229). -/
def Config.fUser : Nat := 0xFF0000
def Config.fSize : Nat := 0x1000000
/-- Code-store bytes (R298). -/
def Config.codeSize : Nat := 0x4000

/-- Memory links of the package, 16 for each pasture, and the most bytes of the modules behind one (R17): the M that BAR2 covers (R398). -/
def Config.memLinks : Nat := 64
def Config.moduleMax : Nat := 2 ^ 38
def Config.mSize : Nat := Config.memLinks * Config.moduleMax

/-! ## The mapper (R23) -/

/-- What the mapper chooses for a graph object (R16, R23, R53, R138, R251, R269, R286, R296, R297, R310, R343). Lists by unit follow the
object's units; `wires` follow the consumers that name another unit, in the order of their records. -/
structure Placement where
  folds : List Nat                         -- folds of the paddock
  sites : List Nat                         -- by unit: its cell, or its slice
  wires : List (Nat × Route)               -- output port and route
  chanRoutes : List Route                  -- by CHAN record; a trigger channel's class is its record's
  seedRoutes : List Route                  -- by SEED record; a triggering seed's class is its record's
  sinkRoutes : List Route                  -- by SINK record
  tearRoutes : List Route                  -- by destination, over all TEAR records
  bufBases : List Nat                      -- by BUFFER record
  lwins : List (Nat × Nat)                 -- by unit
  fwins : List (Nat × Nat)
  images : List (Nat × Nat × List Byte)    -- unit, tile: contents of state and plain tiles
  loops : List (Nat × Nat × Fld)           -- fields that are loop back edges
  trees : List FoldTree                    -- by reduction, over its RSEND slots in record order
  joinSites : List Nat                     -- switch boxes of the router adders, over all trees
  joinRoutes : List Nat
  collTree : FoldTree
  scRing : List Nat                        -- SC-mode nodes, as units
  permits : List (Nat × List Nat)          -- fold × 512 + slice to the sizes of its pools
  switches : List (Nat × BitVec 16)        -- switch words by site
  wave : Route                             -- the broadcast tree of the waves (R277)
  bars : List (Nat × Nat × Route × Route)  -- barrier, the site of its root, the trees to the root and back (R310)
  deriving DecidableEq, Repr, Inhabited

/-- The mapper's choice for a graph object, a grid-health map, the folds that other paddocks hold, and the tree shapes that the handle records,
where one is minted already (R16, R23); none when it finds no place. The spec gives no algorithm (notes/assumptions/16.md). -/
opaque Config.mapper : (image : List Byte) → (retired busy : List Nat) → (shapes : Option (List FoldTree × FoldTree)) → Option Placement

/-- The memory link behind which a 64 KiB frame of M stands: the spec gives no map (notes/assumptions/21.md). -/
opaque Config.frameLink : Nat → Nat

/-- Bytes of a node's log of held stores: firmware allocates it, and the spec gives no size (R384; notes/assumptions/132.md). -/
opaque Config.heldLog : Nat

/-! ## Free values -/

/-- A value that the spec leaves open, drawn afresh each time a step needs one (State.freeCtr counts them;
notes/assumptions/6.md). -/
opaque Config.freeWord : Nat → BitVec 64

/-- The keyed check of a configuration handle (R345): a key that the spec does not give, over bits [63:16]. -/
opaque Config.handleCheck : BitVec 48 → BitVec 16

/-- SHA-256 (R23, R365) of a thing that is measured, named by what it covers; the digest's algorithm is not part of the spec. -/
opaque Config.digest : List Nat → BitVec 256

/-- The device's SPDM certificate chain (R365): its bytes are not part of the spec. -/
opaque Config.certificate : List Byte

/-- An ECDSA P-256 signature of the device over what a digest covers (R365): the device's key is not part of the spec. -/
opaque Config.signature : BitVec 256 → BitVec 512

/-- What a firmware image says of itself (R366, R367): version, security version number, the handover format that it writes, the formats that it
supports; none where it is malformed. The spec does not give the image's layout. -/
opaque Config.imageFields : List Byte → Option (BitVec 64 × Nat × Nat × List Nat)

/-- Whether a firmware image's signature verifies (R366): the vendor key is not part of the spec. -/
opaque Config.signatureOk : List Byte → Bool

end Sys2Proof
end

