-- ==== Sys2Proof/Machine/Bits.lean ====
section
/-!
DEFINITION. Bit fields, sign extension, byte order, residues and CRC.
-/

namespace Sys2Proof.Machine

/-- Bits [hi:lo] of a number. -/
def bitsOf (x hi lo : Nat) : Nat := x / 2 ^ lo % 2 ^ (hi - lo + 1)

/-- Bit i of a number. -/
def bitOf (x i : Nat) : Bool := x / 2 ^ i % 2 == 1

/-- Bit n − 1 of x extended into all higher bits (R122 notation). -/
def sextFrom (n : Nat) (x : DWord) : DWord := (x.setWidth n).signExtend 64

def zextFrom (n : Nat) (x : DWord) : DWord := (x.setWidth n).setWidth 64

/-- Mod-3 residue of a number of any width (R115). -/
def residue3 (x : Nat) : BitVec 2 := BitVec.ofNat 2 (x % 3)

/-- n bytes of a number, little-endian. -/
def toBytes : Nat → Nat → List Byte
  | 0, _ => []
  | n + 1, x => BitVec.ofNat 8 x :: toBytes n (x / 256)

/-- A list of bytes read little-endian. -/
def ofBytes : List Byte → Nat
  | [] => 0
  | b :: bs => b.toNat + 256 * ofBytes bs

/-- A signed reading of the low n bits. -/
def asInt (n x : Nat) : Int := if x % 2 ^ n < 2 ^ (n - 1) then (x % 2 ^ n : Nat) else (x % 2 ^ n : Nat) - (2 ^ n : Nat)

/-- The low n bits of an integer. -/
def ofInt (n : Nat) (v : Int) : Nat := (v % (2 ^ n : Nat)).toNat

/-- Number of set bits among the low n. -/
def popCount : Nat → Nat → Nat
  | 0, _ => 0
  | n + 1, x => x % 2 + popCount n (x / 2)

/-- Zero bits below the lowest set bit among the low n. -/
def trailZeros : Nat → Nat → Nat
  | 0, _ => 0
  | n + 1, x => if x % 2 = 1 then 0 else 1 + trailZeros n (x / 2)

/-- Zero bits above the highest set bit of the low n. -/
def leadZeros (n x : Nat) : Nat := if x % 2 ^ n = 0 then n else n - 1 - (x % 2 ^ n).log2

/-- One step of CRC-32C on one bit of the register. -/
def crcBit (c : BitVec 32) : BitVec 32 := if c.getLsbD 0 then (c >>> 1) ^^^ 0x82F63B78#32 else c >>> 1

def crcByte (c : BitVec 32) (b : Byte) : BitVec 32 :=
  crcBit (crcBit (crcBit (crcBit (crcBit (crcBit (crcBit (crcBit (c ^^^ b.setWidth 32))))))))

/-- CRC-32C, reflected, initial value and final inversion all ones (R100). -/
def crc32c (bs : List Byte) : BitVec 32 := ~~~ (bs.foldl crcByte 0xFFFFFFFF#32)

/-- Elements of a list at the given positions. -/
def nthD {α : Type} (l : List α) (i : Nat) (d : α) : α := (l[i]?).getD d

def setNth {α : Type} (l : List α) (i : Nat) (x : α) : List α := l.set i x

/-- The lists of a list of lists, with a predicate on elements counted. -/
def countIf {α : Type} (p : α → Bool) (l : List α) : Nat := (l.filter p).length

end Sys2Proof.Machine
end

