-- ==== Sys2Proof/Machine/State.lean ====
section
/-!
DEFINITION. The machine state: everything the spec gives the package, as plain data, and the state after reset.
Sites: cells and slices are numbered 0 to 383 as pasture × 96 + column × 12 + row (R6, R9). Cores are numbered 0 to 383
for the cells' sequencers, 384 to 415 for the shepherds of folds 0 to 31, 416 for the drover (R10, R11, R22).
-/

namespace Sys2Proof.Machine

/-! ## Why a step can stop -/

/-- Why the machine stops. -/
inductive Fault
  /-- Raised by an event that names a unit, link, queue or site the package does not have (R8 to R12, R18, R19, R280).
  No instruction of a program raises it. Safe: the spec gives such an event no effect because it cannot occur. -/
  | noSuchUnit
  deriving DecidableEq, Repr, Inhabited

/-- Why an instruction has no meaning. -/
inductive Refusal
  /-- Raised by exec's arm of an instruction that has no meaning yet. Safe: nothing is proved of it. -/
  | notModelled (mnemonic : String)
  deriving DecidableEq, Repr, Inhabited

/-! ## Memory -/

/-- A memory: cells in strictly rising address order, none of them equal to what an unlisted address reads as. -/
abbrev Memory := List Host.Cell

/-- What a byte that nothing has written reads as. R342 gives L, F and S bytes as zero whenever they pass to a context;
for M, H and the code stores the spec states no contents after power-on (DESIGN CHOICE, notes/assumptions/2.md). -/
def Memory.blankByte : Byte := 0

/-- The address spaces (R204); C is the code store of a core (R298). -/
inductive Space
  | l | f | s | m | h | c
  deriving DecidableEq, Repr, Inhabited

/-- Marks on 64-byte lines (R372): a single-bit error, an uncorrectable error, the poison mark. -/
inductive LineMark
  | single | uncorrectable | poison
  deriving DecidableEq, Repr, Inhabited

/-! ## Sequencers -/

/-- A scalar register with the residue it carries (R133). -/
structure RegCell where
  val : DWord := 0
  res : BitVec 2 := 0
  deriving DecidableEq, Repr, Inhabited

/-- Trap causes (R46). -/
inductive Cause
  | illegalOpcode | reservedField | misaligned | spaceBounds | privilege | breakpt | trapWord | firingLimit
  | storeBufferFull | tagInvalid | bufferUnderrun | bufferOverrun | engineFull
  deriving DecidableEq, Repr, Inhabited

/-- An active LOOPN body (R302). -/
structure LoopFrame where
  start : DWord
  stop : DWord
  remaining : Nat
  deriving DecidableEq, Repr, Inhabited

/-- An engine address (R312), its fields. `space` is 0 L, 1 F, 2 S, 3 M, 4 H, 5 tile. -/
structure EngAddr where
  space : Nat := 0
  fold : Nat := 0
  row : Nat := 0
  addr : Nat := 0
  deriving DecidableEq, Repr, Inhabited

/-- What an engine command does (R313 to R316, R320) and the copy of a COPY packet or a migration (R280, R361). -/
inductive EngOp
  | cpy (src dst : EngAddr) (len : Nat) (lo width : Nat) (clr : Bool)
  | gath (src list dst : EngAddr) (count esize : Nat)
  | scat (src dst list : EngAddr) (count esize : Nat)
  | coll (op : CollOp) (src dst : EngAddr) (len root : Nat)
  | sig (op : Nat) (addr : EngAddr) (v : DWord)
  | enq (pkt : EngAddr) (queue : Nat)
  deriving DecidableEq, Repr, Inhabited

/-- Held effects of a firing (R211, R303), in program order. -/
inductive Held
  | store (sp : Space) (addr : Nat) (bytes : List Byte)
  | release (spaces : BitVec 5) (sc : Scope)
  | advp (b n : Nat)
  | advc (b n : Nat)
  | tagFree (space tag : Nat)
  | bind (cls h : Nat)
  | mask (m : BitVec 8)
  | unmask (m : BitVec 8)
  | tset (tile sel : Nat) (v : DWord)
  | excClear
  | engine (q : Nat) (op : EngOp)
  | qfence (q : Nat) (queues : List Nat)
  | engFence
  | send (chan : Nat) (t : Token)
  | seed (k : Nat) (t : Token)
  | commitOn (chans : DWord)
  | log (v : DWord)
  | prefault (va : Nat)
  | pbar (n : Nat)
  | ckpt
  deriving DecidableEq, Repr, Inhabited

/-- The firing that a sequencer runs, and what it has held so far (R37, R43, R211, R262, R299). -/
structure Firing where
  entry : Nat := 0               -- configuration-cache entry it belongs to
  pad : Nat := 0
  ctx : Nat := 0
  handler : Nat := 0
  prio : Nat := 0
  trigger : Option Token := none
  tag : Nat := 0
  seq : Nat := 0
  spanLo : Nat := 0
  spanHi : Nat := openHi
  startLo : Nat := 0             -- start values, kept for a re-run (R374)
  startHi : Nat := openHi
  s1 : DWord := 0
  s2 : DWord := 0
  s3 : DWord := 0
  issued : Nat := 0
  fmax : Nat := 4096
  loops : List LoopFrame := []
  held : List Held := []         -- oldest first
  granted : List (Nat × Nat) := []  -- tags granted at selection: (space, tag)
  taken : List (Nat × Nat) := []    -- those TAGA has taken
  take : AMap Nat := []          -- take counts by handle (R261)
  give : AMap Nat := []
  engd : AMap Nat := []          -- engine demand by queue
  atomicAt : Option Nat := none  -- code address of an atomic that has performed (R215)
  reruns : Nat := 0
  trapHandler : Bool := false
  deriving DecidableEq, Repr, Inhabited

/-- A core: its registers, its running firing, its trap registers, its injection mask (R43, R46, R349, R388). -/
structure CoreSt where
  running : Bool := false
  halted : Bool := false         -- HALT on a firmware core (R304)
  finWait : Bool := false        -- a FIN that waits for room in its output ports (R303)
  failed : Bool := false         -- ended on a scalar check failure and waits for the re-run (R134)
  pc : DWord := 0
  regs : AMap RegCell := []
  preds : AMap (Bool × Bool) := []
  firing : Firing := {}
  trapCause : AMap DWord := []   -- by context: TRAPCAUSE and TRAPPC of the last trap of a firing of it on the core (R46, R339)
  trapPc : AMap DWord := []
  errmask : DWord := 0
  ctxSel : Nat := 0
  hbeat : DWord := 0
  selections : Nat := 0          -- selections made (R262)
  deriving DecidableEq, Repr, Inhabited

/-! ## Configurations -/

/-- A circular buffer as configured (R296). -/
structure BufConf where
  sp : Space := .l
  base : Nat := 0
  slots : Nat := 1
  name : Nat := 0                -- the paddock-wide name
  deriving DecidableEq, Repr, Inhabited

/-- A channel (R297). -/
structure ChanConf where
  data : Bool := false
  cls : Nat := 0
  dest : Dest := .nowhere
  route : Route := {}
  deriving DecidableEq, Repr, Inhabited

/-- Carried state of an actor (R321). -/
inductive Carried
  | buf (b : Nat)
  | lrange (addr bytes : Nat)
  | frange (addr bytes : Nat)
  deriving DecidableEq, Repr, Inhabited

/-- A handler-table entry: an actor's entry address and declarations (R261, R298). -/
structure HandlerConf where
  entryPc : DWord := 0
  prio : Nat := 0
  cls : Option Nat := none
  trap : Option Nat := none
  isTrap : Bool := false
  take : AMap Nat := []
  give : AMap Nat := []
  tagd : Option (Nat × Nat) := none   -- space, count
  inner : Option Nat := none
  engd : AMap Nat := []
  carried : List Carried := []
  deriving DecidableEq, Repr, Inhabited

/-- A window of a memory node (R236). -/
structure Window where
  sp : Space := .m
  base : Nat := 0
  extent : Nat := 0
  endpoint : Nat := 0
  upd : Option Nat := none       -- 0 ws 1 wn 2 ss 3 sn 4 rne 5 rtz 6 rdn 7 rup
  described : Bool := false
  evict : Bool := false
  deriving DecidableEq, Repr, Inhabited

/-- Tile states (R174). -/
inductive TileState
  | empty | filling | ready | draining
  deriving DecidableEq, Repr, Inhabited

/-- Tile roles (R171). -/
inductive TileRole
  | op | acc | state | plain
  deriving DecidableEq, Repr, Inhabited

/-- A tile-table entry (R173), with what the tile's state needs beside it: rows written, the tag of the last
firing, a TSET that waits for EMPTY (R317), the copy of a swapped-out tile (R275), and the error cause. -/
structure Tile where
  st : TileState := .empty
  err : Bool := false
  exc : Bool := false
  sat : Bool := false
  role : TileRole := .op
  ty : Ty := .f32
  alt : Bool := false
  tb : Bool := false
  ring : Nat := 0
  pos : Nat := 0
  base : Nat := 0
  kcount : Nat := 0
  kdone : Nat := 0
  lo : Nat := 0
  seq : Nat := 0
  hi : Nat := openHi
  c0 : Consumer := ⟨0, 3⟩
  c1 : Consumer := ⟨0, 3⟩
  rows : Nat := 0
  tag : Nat := 0
  close : Bool := false
  pendingSet : List (Nat × DWord) := []
  swapped : Option (List Byte) := none
  cause : Nat := 0
  deriving DecidableEq, Repr, Inhabited

/-- The modes of a memory node (R222). -/
inductive NodeMode
  | stream | random | ordered | sc
  deriving DecidableEq, Repr, Inhabited

/-- One unit of a placed configuration: a cell or a memory node (R135, R235, R294). -/
structure UnitConf where
  mode : NodeMode := .random
  slots : AMap (Word × Word) := []         -- E-word and header by slot code
  consts : AMap (BitVec 16 × BitVec 512) := []
  tiles : AMap Tile := []
  images : AMap (List Byte) := []          -- contents that the configuration writes to state and plain tiles (R171)
  rings : AMap (List Nat) := []
  tags : AMap Nat := []                    -- size of each declared tag space
  bufs : AMap BufConf := []
  chans : AMap ChanConf := []
  actors : AMap HandlerConf := []
  code : List Word := []
  barriers : AMap Nat := []                -- barrier to class
  carriedTiles : List Nat := []
  tear : List Dest := []                   -- the steer table (R247)
  tearRoutes : List Route := []
  muster : AMap Nat := []                  -- route id of a return stream to its destination number (R251)
  ports : AMap (List Dest) := []           -- output port to the places its route ends at
  portRoute : AMap Route := []
  windows : AMap Window := []
  fed : List (Nat × Fld × Net) := []       -- slot fields a network feeds
  physFed : List Nat := []                 -- slots whose l an XLATE slot of another unit feeds (R237)
  loopFed : List (Nat × Fld) := []         -- fields marked as loop back edges (R286)
  tainted : Bool := false
  lwin : Nat × Nat := (0, 0x180000)        -- L window (R343)
  fwin : Nat × Nat := (0, 0xFF0000)        -- F window
  deriving DecidableEq, Repr, Inhabited

/-- A seed (R87, R319, R324). -/
structure SeedConf where
  dest : Dest := .nowhere
  endpoint : Nat := 0
  loc : Bool := false                      -- local (R319)
  ofCell : Nat := 0
  number : Nat := 0
  cls : Option Nat := none
  tsp : Nat := 0
  route : Route := {}
  deriving DecidableEq, Repr, Inhabited

/-- A sink (R88). -/
structure SinkConf where
  cell : Nat := 0
  port : Nat := 0
  endpoint : Nat := 0
  ext : Bool := false
  deriving DecidableEq, Repr, Inhabited

/-- One join of a reduction tree (R192): where its result goes. -/
structure JoinConf where
  site : Nat := 0
  dest : Dest := .nowhere
  route : Nat := 0
  deriving DecidableEq, Repr, Inhabited

/-- The tree of a paddock barrier (R310): the site of its root, the routes up and down. -/
structure BarConf where
  root : Nat := 0
  up : Route := {}
  down : Route := {}
  deriving DecidableEq, Repr, Inhabited

/-- A placed configuration, as a handle names it (R16, R23, R345). -/
structure Conf where
  folds : List Nat := []
  fmax : Nat := 4096
  commitN : Nat := 64
  units : List (Loc × UnitConf) := []
  seeds : List SeedConf := []
  sinks : List SinkConf := []
  joins : List JoinConf := []
  collTree : FoldTree := .leaf 0
  scRing : List Nat := []                  -- SC-mode nodes in ring order (R224)
  members : AMap (List Nat) := []          -- barrier to its member units (positions in units)
  bars : AMap BarConf := []                -- barrier to its tree
  wave : Route := {}                       -- the broadcast tree of the configuration-complete wave and of abort marks (R277)
  slices : List Nat := []                  -- slices the configuration names (R229)
  permits : AMap (List Nat) := []          -- fold × 512 + slice to its pools (R269)
  switches : List (Nat × BitVec 16) := []  -- switch words by site (R53)
  grid : List Nat := []                    -- the retired cells of the grid-health map that it is placed for (R23)
  deriving DecidableEq, Repr, Inhabited

/-! ## Configured units at run time -/

/-- One stream of one operand field (R64, R67): the rows that hold its tokens, its frontier and its close point. -/
structure FieldSt where
  rows : List Token := []                  -- held tokens, oldest first
  frontier : Nat := 0
  firstLo : Option Nat := none             -- lo of the first token that entered
  lastSeq : Nat := 0
  closed : Option Nat := none
  broken : Bool := false                   -- a token has broken R64: no later token enters (R65)
  spent : Option (Nat × Nat) := none       -- MUSTER's l: the span of the last token that a claim has met or passed (R252)
  succ : Option Token := none              -- the entered token behind the held ones that R80(2) has discarded: it still ends their gap
  deriving DecidableEq, Repr, Inhabited

/-- A result that waits until its close flag is decided (R76): `basis` is the time that every input frontier must pass for the
flag to be clear (0: it is clear already). The last row of an accumulator names its tile (R174). -/
structure HeldOut where
  tok : Token
  basis : Nat := 0
  lastRow : Option Nat := none
  deriving DecidableEq, Repr, Inhabited

/-- One output stream of a slot (R74, R76). -/
structure OutSt where
  next : Nat := 0                          -- next sequence number
  held : List HeldOut := []
  lastHi : Option Nat := none              -- hi of the last result that left
  closed : Bool := false
  deriving DecidableEq, Repr, Inhabited

/-- Slot state of one tag (R147): accumulators by lane, the pending window or token, the closed bit. -/
structure AccSt where
  payload : BitVec 512 := 0
  valid : BitVec 16 := 0                   -- lanes that are not empty
  window : Option Nat := none              -- pending window number (R167)
  flags : Bool × Bool × Bool := (false, false, false)  -- error, exception, sat of the pending window
  lastHi : Nat := 0
  pending : Option Token := none           -- COALESCE's pending token (R168)
  closedBit : Bool := false
  tainted : Bool := false
  cause : Nat := 0                         -- why it is tainted
  errWins : List Nat := []                 -- WINDOW: numbers of windows that an error-flagged token fell into (R143, R167)
  deriving DecidableEq, Repr, Inhabited

/-- A slot at run time. Streams are keyed by field, tag and return stream (see fkey in Ops). -/
structure SlotSt where
  fields : AMap FieldSt := []
  doneTo : AMap Nat := []                  -- by tag: firings below this time are taken
  outs : AMap OutSt := []                  -- by tag and consumer stream
  acc : AMap AccSt := []                   -- by tag
  commits : AMap Nat := []                 -- by field: commits that have arrived
  aligned : Nat := 0                       -- commits this slot has aligned
  commitMark : List Nat := []              -- consumers whose next data token carries the commit flag (R287)
  sentLast : AMap (Nat × Nat) := []        -- by consumer: tag and seq of the last data token sent
  drops : Nat := 0                         -- TEAR's drop counter
  bars : AMap (List Nat) := []             -- by tag: lo of SBAR triggers taken (R223)
  deriving DecidableEq, Repr, Inhabited

/-- A ring at run time (R177 to R179). -/
structure RingSt where
  head : Nat := 0
  tail : Nat := 0
  seq : Nat := 0
  waiting : List Token := []               -- tile tokens that have not entered, and commits behind them
  closed : AMap Nat := []                  -- close point by tag
  deriving DecidableEq, Repr, Inhabited

/-- A tag space (R265, R266): the allocated tags, and the outer tags that have reserved it whole. -/
structure TagSt where
  alloc : List Nat := []
  holders : List (Nat × Nat) := []
  deriving DecidableEq, Repr, Inhabited

/-- Pointers of a circular buffer, modulo 2^32 (R307). -/
structure BufSt where
  prod : Nat := 0
  cons : Nat := 0
  deriving DecidableEq, Repr, Inhabited

/-- A trap that waits for its handler (R300): cause, pc, handler index, tag, seq, span. -/
structure TrapInfo where
  cause : DWord
  pc : DWord
  handler : Nat
  tag : Nat
  seq : Nat
  lo : Nat
  hi : Nat
  deriving DecidableEq, Repr, Inhabited

/-- An actor at run time (R262, R267, R321). -/
structure ActorSt where
  passes : Nat := 0
  lastSel : Option Nat := none
  traps : List TrapInfo := []
  commits : Nat := 0
  deriving DecidableEq, Repr, Inhabited

/-- What has become of one copy of a row (R248): placed at a destination and a time, under the rank whose weight it took (R395). -/
inductive CopySt
  | none
  | placed (dest lo rank : Nat) (weight : Word)
  | held (dest : Nat)
  | dropped
  deriving DecidableEq, Repr, Inhabited

/-- A row of TEAR whose record has not left (R250): its number, its span, tag and flags, its copies. -/
structure TearRec where
  id : Nat
  tok : Token
  copies : List CopySt
  deriving DecidableEq, Repr, Inhabited

/-- A TEAR firing as gweuf lists it (R395): the row's copies, and the sequence number of its muster record. -/
structure TearStep where
  copies : List CopySt
  seq : Nat
  deriving DecidableEq, Repr, Inhabited

/-- A copy held under HOLD (R248): the row it belongs to, k, the row token, the weight. -/
structure HeldCopy where
  id : Nat
  k : Nat
  tok : Token
  weight : Word
  deriving DecidableEq, Repr, Inhabited

/-- TEAR's placement state of one tag (R248, R249): the open batch, slots used and copies held by destination, rows whose record
waits, one more than the last batch ended. -/
structure TearSt where
  batch : Option Nat := none
  used : AMap Nat := []
  held : AMap (List HeldCopy) := []
  recs : List TearRec := []
  nextId : Nat := 0
  got : Bool := false                      -- the open batch has received a row
  ended : Nat := 0
  closed : Bool := false
  deriving DecidableEq, Repr, Inhabited

/-- One record in the muster table (R251, R252), the state of each claim, and the tokens it has met. -/
structure MusterRec where
  tok : Token
  met : List (Option Token) := []
  decided : List Bool := []
  deriving DecidableEq, Repr, Inhabited

/-- An update of an element of a page marked external, which waits for its gate (R222, R384): how it updates, and its operand. -/
structure HeldUpd where
  sp : Space
  addr : Nat
  upd : Nat
  v : Nat
  deriving DecidableEq, Repr, Inhabited

/-- Stores of one node firing (R241): the bytes that are not yet visible, the bytes held for in-field test (R384) with the
commit they belong to, and the completion token. -/
structure NodeStore where
  slot : Nat
  writes : List (Space × Nat × List Byte)
  held : List (Space × Nat × List Byte) := []
  completion : Token
  visible : Bool := false                  -- the writes have been performed
  commit : Nat := 0
  scPos : Nat := 0                         -- its place in the paddock's SC order, from 1 (R224); 0 for any other store
  ups : List HeldUpd := []                 -- updates held for in-field test, in the order of their lanes
  order : Nat := 0                         -- its place among the stores of its node
  pages : List Nat := []                   -- the 64 KiB pages of M that it was translated by, where it knows them (R355)
  deriving DecidableEq, Repr, Inhabited

/-- An access of a node that waits for a page (R292, R358, R361). -/
structure Withheld where
  slot : Nat
  tag : Nat
  va : Nat
  prg : Option Nat
  migrating : Bool := false
  deriving DecidableEq, Repr, Inhabited

/-- One update of an UPDN firing (R258): its lane, the index, the operand, the earlier lane of the firing that it waited for, the value read
and the value written. -/
structure UpdRec where
  lane : Nat
  index : Nat
  operand : Nat
  after : Option Nat := none
  old : Nat
  new : Nat
  deriving DecidableEq, Repr, Inhabited

/-- A configured unit: one configuration of a cell, or a memory node. -/
structure UnitSt where
  live : Bool := false
  slotNo : Option Nat := none              -- the cache entry of its cell that holds it; none while it is swapped out (R273)
  pad : Nat := 0
  ctx : Nat := 0
  handle : DWord := 0
  conf : UnitConf := {}
  waved : Bool := false                    -- the configuration-complete wave has passed (R33)
  stopped : Bool := false                  -- no firing is admitted any more (R276, R277)
  slots : AMap SlotSt := []
  tiles : AMap Tile := []
  rings : AMap RingSt := []
  tags : AMap TagSt := []
  actors : AMap ActorSt := []
  bound : AMap Nat := []                   -- route class to handler (R272)
  masked : BitVec 8 := 0
  pending : List (Nat × Token) := []       -- pending triggers with their classes, in the order of their arrival (R271)
  arrivals : AMap Nat := []                -- arrivals at each barrier (R310)
  chanSeq : AMap Nat := []                 -- next number by channel × 1024 + tag (R308)
  chanLast : AMap (Nat × Nat) := []        -- tag and sequence number last sent by channel (R286, R321)
  chanMark : List Nat := []                -- channels whose next data token carries the commit flag (R287)
  tear : AMap TearSt := []
  muster : List MusterRec := []
  stores : List NodeStore := []
  storeNo : Nat := 0                       -- stores of the node so far
  withheld : List Withheld := []
  scBudget : Nat := 0
  outFull : Bool := false                  -- an output port has no room (R303)
  saved : List (Nat × List Byte) := []     -- its tiles' bytes, while it is swapped out (R274)
  evictMarks : AMap Nat := []              -- marks of its evict windows that the evictor has read (R238, R244)
  tearSteps : AMap TearStep := []          -- by slot: the last TEAR firing, as gweuf lists it (R395)
  updates : AMap (List UpdRec) := []       -- by slot: the updates of its last UPDN firing, as gweuf lists them (R258)
  parked : List (Nat × Nat) := []          -- slots and tags whose next firing waits for a tile, an update or a page (R175)
  deriving DecidableEq, Repr, Inhabited

/-- A cell beyond its configurations: the miss buffer and the in-field test (R273, R383, R387). -/
structure CellSt where
  miss : List (Token × Dest) := []
  lru : List Nat := []                     -- its configurations, the least recently used first
  testing : Bool := false
  testedAfter : Nat := 0                   -- number of the test that passed last
  testBegan : Nat := 0
  transients : Nat := 0
  injectedCnt : Nat := 0
  qdeps : AMap (List Nat) := []            -- commands that a QFENCE made queue q wait for (R220)
  engDeps : List Nat := []                 -- commands that an M or H FENCE made all later ones wait for (R214)
  fireCnt : AMap DWord := []               -- FIRECNT by context (R349)
  excRec : AMap DWord := []                -- EXCREC by context (R349)
  deriving DecidableEq, Repr, Inhabited

/-- A command in an engine queue (R217 to R220, R264). -/
structure EngCmd where
  id : Nat
  op : EngOp
  cell : Nat := 0
  entry : Nat := 0
  pad : Nat := 0
  ctx : Nat := 0
  handler : Nat := 0
  deps : List Nat := []
  started : Bool := false                  -- it has started; a COLL or an ENQ may still wait
  done : Bool := false                     -- performed, or ended without effect; its completion is on the way
  commit : Nat := 0                        -- the commit that its firing belongs to (R384)
  failed : Bool := false                   -- a COPY packet's translation fault
  pkt : Option (Nat × Nat) := none         -- the COPY packet it serves
  deriving DecidableEq, Repr, Inhabited

/-- A group of S stores of one firing to one slice that has not arrived (R212, R268). -/
structure SGroup where
  cell : Nat
  slice : Nat
  pad : Nat
  stores : List (Nat × List Byte)
  deriving DecidableEq, Repr, Inhabited

/-! ## Paddocks -/

/-- Phases of a paddock: what happens when it has quiesced. -/
inductive PadPhase
  | loading | running
  | faulting                               -- R276
  | preempting                             -- R290
  | parking                                -- R292, R322
  | retiring                               -- R386
  | replaying                              -- R375
  | killing                                -- R347
  | parked                                 -- waits to be placed again
  deriving DecidableEq, Repr, Inhabited

/-- A sink's record (R88). -/
structure Record where
  seq : Nat
  tok : Token
  deriving DecidableEq, Repr, Inhabited

/-- A sink at run time: its write log by commit interval, the log held for in-field test (R384), the commits it has
aligned. -/
structure SinkSt where
  log : List (Nat × Record) := []          -- commit number of the interval's end, record
  held : List (Nat × Record) := []         -- complete, not yet tested (external sinks)
  aligned : Nat := 0
  closed : Option Nat := none              -- the commit that covers its close
  base : Nat := 0
  extent : Nat := 0
  host : Bool := false
  deriving DecidableEq, Repr, Inhabited

/-- A seed at run time (R286, R324): tokens sent, which is the record that it reads next, data tokens sent, commits emitted, the sequence number at each commit. -/
structure SeedSt where
  next : Nat := 0
  sent : Nat := 0
  commits : Nat := 0
  marks : AMap (Nat × Nat × Nat) := []     -- commit to (next number, data tokens sent, tag of the last)
  closed : Bool := false
  markNext : Bool := false
  base : Nat := 0
  extent : Nat := 0
  host : Bool := false
  lastTag : Nat := 0
  lastSeq : Nat := 0
  replay : List (Nat × Token) := []        -- its replay window: tokens sent, with their places in the stream (R288, R289)
  deriving DecidableEq, Repr, Inhabited

/-- One waiting entry of an overflow queue (R82): where it goes, and how many commits stood before it on its field. -/
structure OvEntry where
  u : Loc
  slot : Nat
  f : Fld
  epoch : Nat
  tok : Token
  deriving DecidableEq, Repr, Inhabited

/-- A slot's part of a commit snapshot (R286). -/
structure SnapSlot where
  commit : Nat
  u : Loc
  slot : Nat
  st : SlotSt
  overflow : List OvEntry
  tiles : List (Nat × Tile × List Byte) := []
  rings : List (Nat × RingSt) := []
  tear : AMap TearSt := []
  muster : List MusterRec := []
  stores : List NodeStore := []            -- visible stores whose completion tokens wait (R384)
  deriving DecidableEq, Repr, Inhabited

/-- An actor's part of a commit snapshot (R321). -/
structure SnapActor where
  commit : Nat
  u : Loc
  handler : Nat
  bufs : List (Nat × BufSt)
  ranges : List (Space × Nat × List Byte)
  arrivals : AMap Nat
  chanSeq : AMap Nat := []
  chanLast : AMap (Nat × Nat) := []
  chanMark : List Nat := []
  tags : AMap TagSt := []
  bound : AMap Nat := []
  masked : BitVec 8 := 0
  deriving DecidableEq, Repr, Inhabited

/-- A router adder at run time (R192): packets that wait on each side, and the close points. -/
structure JoinSt where
  wait : List (Bool × Token) := []         -- side (true: B), packet
  closes : AMap Nat := []                  -- close point by 2 × tag + side
  next : AMap Nat := []                    -- by tag: one more than the last sequence number delivered
  commits : Nat × Nat := (0, 0)            -- commits that have arrived on each side
  marks : AMap (AMap Nat) := []            -- 2 × commit + side: that side's close points when the commit arrived on it
  nexts : AMap (AMap Nat) := []            -- by commit: `next` when it passed
  deriving DecidableEq, Repr, Inhabited

/-- A page for which a seed, a sink or an engine command waits: its address, whether the access stores, and what a denial records of the access (R358, R359). -/
structure PageWait where
  va : Nat
  write : Bool := false
  denial : FaultRec := {}
  deriving DecidableEq, Repr, Inhabited

/-- A resident or parked paddock. -/
structure Pad where
  ctx : Nat := 0
  handle : DWord := 0
  conf : Conf := {}
  queue : Nat := 0
  pkt : Nat := 0
  phase : PadPhase := .loading
  waveLeft : List Loc := []
  markedAt : List Nat := []                -- sites of the switch boxes that an abort mark of it has passed (R277)
  seeds : AMap SeedSt := []
  sinks : AMap SinkSt := []
  eps : List (Nat × Nat) := []             -- endpoint table: pointer, extent word (R324, R360)
  faultAddr : Nat := 0
  commit : Nat := 0                        -- last complete commit
  tested : Nat := 0                        -- tested commit (R384)
  kept : Nat := 0                          -- lowest commit whose snapshots are still held (R288, R385)
  testAt : AMap (Nat × List Nat) := []     -- commit to the number of tests begun when it completed, and the cells that it has run on
  snaps : List SnapSlot := []
  snapActors : List SnapActor := []
  overflow : List OvEntry := []
  fault : Option FaultRec := none
  joins : AMap JoinSt := []
  bufs : AMap BufSt := []                  -- circular-buffer pointers by buffer name (R296, R307)
  roots : AMap (List (Nat × Nat)) := []    -- barrier to (member, generation) held at its root (R310)
  arrSnaps : AMap (List (Loc × AMap Nat)) := []  -- arrivals of every unit at each complete commit
  permits : AMap Nat := []                 -- permits in use by 4 × (fold × 512 + slice) + pool (R268, R269)
  replays : Nat := 0                       -- replays of the current commit interval (R375)
  transient : Bool := false                -- some report since the last commit has a transient cause
  reports : List ErrRep := []
  sites : AMap Nat := []                   -- by cause: the first site that reported it in the last commit interval that had it (R377)
  suspects : List Nat := []                -- cells that reports of the current commit interval name (R375)
  ckpt : Bool := false                     -- CKPT asked for parking (R322)
  inM : Bool := false                      -- CKPT has parked it: its snapshots stand in M in its context (R322)
  ringPos : Nat := 0                       -- SC ring position (R224)
  scCount : Nat := 0                       -- STSCs performed (R224)
  stop : Bool := false                     -- gweuf has stopped it (R201)
  stepTo : Option (Loc × Nat) := none      -- gweuf steps to the next firing of this slot
  passedFire : List (Loc × Nat × Nat × Nat) := []  -- firings (slot, tag, lo) at which it has stopped and which compute when it goes on
  passed : List BreakPoint := []           -- breakpoints at which it has stopped and which it passes when it goes on
  preemptNext : Bool := false              -- inject preempt waits (R336)
  waits : AMap PageWait := []              -- accesses of its seeds, sinks and engine commands that wait for a page, by who waits (R358, R361; seedWait, engWait in Range)
  waitPage : Option Nat := none            -- the page for which it is parked (R292)
  waitWrite : Bool := false                -- the access that waits for it stores (R358)
  waitDenial : FaultRec := {}              -- what a denial of that page records (R359)
  deferred : List Event := []              -- what waits while gweuf has stopped it (R201, R304)
  timers : AMap Nat := []                  -- configuration values in force at admission (R29)
  deriving DecidableEq, Repr, Inhabited

/-! ## Contexts, handles, queues -/

/-- States of a context (R340). -/
inductive CtxState
  | free | live | killing
  deriving DecidableEq, Repr, Inhabited

/-- A log-ring entry (R377). -/
structure LogEntry where
  kind : Nat
  data : DWord := 0
  cause : Nat := 0
  site : Nat := 0
  endpoint : Nat := 0
  tag : Nat := 0
  seq : Nat := 0
  lo : Nat := 0
  hi : Nat := 0
  deriving DecidableEq, Repr, Inhabited

/-- A context entry (R340), its log ring (R377) and its stale-response counter (R359). -/
structure Ctx where
  st : CtxState := .free
  gen : Nat := 0
  root : Nat := 0
  pasid : Nat := 0
  share : Bool := false
  log : List LogEntry := []
  logDropped : Nat := 0                    -- since the previous LOG_READ
  logDroppedAll : Nat := 0
  stale : Nat := 0
  deriving DecidableEq, Repr, Inhabited

/-- A configuration handle's table entry (R345). -/
structure Handle where
  ctx : Nat
  gen : Nat
  live : Bool
  conf : Conf
  image : List Byte := []                  -- the graph object, for a new placement (R23)
  place : Placement := default             -- the placement it was minted for
  deriving DecidableEq, Repr, Inhabited

/-- States of a launch queue (R399). -/
inductive QueueState
  | disabled | armed | aborted
  deriving DecidableEq, Repr, Inhabited

/-- What updates a signal (R329): a packet of a queue, an operation of an engine queue, the host through BAR2. -/
inductive SigWriter
  | packet (q i : Nat)
  | engine (fold q id : Nat)
  | host
  deriving DecidableEq, Repr, Inhabited

/-- A reading of a BARRIER (R329): the values returned, and the update that prompted it (which signal, by whom); none at the start. -/
structure Reading where
  values : List (Option Nat)
  after : Option (Nat × SigWriter) := none
  deriving DecidableEq, Repr, Inhabited

/-- A packet at run time (R280 to R282). -/
structure Pkt where
  started : Bool := false
  status : Option PktStatus := none
  decided : Bool := false                  -- a reading has decided its status, which is on its way (R282)
  signals : List EngAddr := []             -- the signals that a started BARRIER waits on
  pending : List (Option (Nat × SigWriter)) := [] -- readings to be taken: the first, and one for each update since
  readings : List Reading := []
  denied : Bool := false                   -- the host has refused a page that the packet waits for
  deriving DecidableEq, Repr, Inhabited

/-- A launch queue (R281 to R285, R399 to R401). -/
structure Queue where
  owner : Option Nat := none
  st : QueueState := .disabled
  ring : Nat := 0
  lg : Nat := 0
  prio : Nat := 0
  wr : Nat := 0
  rd : Nat := 0
  pkts : AMap Pkt := []
  passes : Nat := 0                        -- passed over at selections (aging)
  blocked : Nat := 0                       -- passes over it only for folds of lower priority (R285)
  lastSel : Option Nat := none
  rearm : Option Nat := none               -- a rearm write has arrived: wr at that moment (R401)
  ignored : Nat := 0                       -- doorbell writes ignored
  deriving DecidableEq, Repr, Inhabited

/-- A recorded page request (R358): `va` is the page's address, `denial` what a denial records of the access that waits (R359). -/
structure PageReq where
  ctx : Nat
  gen : Nat
  va : Nat
  node : Nat
  pad : Option Nat := none                 -- the paddock whose seed, sink or engine command waits
  pkt : Option (Nat × Nat) := none         -- the packet that waits
  write : Bool := false
  denial : FaultRec := {}
  deriving DecidableEq, Repr, Inhabited

/-! ## Messages between pastures, firmware, host -/

/-- A message in a replay window (R381): its bytes, the token that they carry as the next pasture's switch box is to receive it. -/
structure Msg where
  id : Nat
  bytes : List Byte
  hop : Hop
  k : Nat := 4                             -- its code: data fragments, parity fragments
  m : Nat := 1
  deriving DecidableEq, Repr, Inhabited

/-- A spool entry (R381, R382). -/
structure SpoolEntry where
  frags : List (Nat × List Byte) := []     -- index, bytes
  k : Nat := 4
  m : Nat := 1
  net : Net := .vector                     -- the kind of its token, as the fragments say it
  attempt : Nat := 0
  msg : Option Msg := none                 -- decoded, waiting for lower ids
  lost : Bool := false
  deriving DecidableEq, Repr, Inhabited

/-- An entry of a spool that has decoded, as gweuf lists it (R395): its id, the attempt, its code's data fragments, the fragments received, and the
kind and the destinations of its token. -/
structure Decoded where
  id : Nat
  attempt : Nat
  k : Nat
  got : List Nat
  net : Net
  ends : List Dest
  deriving DecidableEq, Repr, Inhabited

/-- One direction of a bridge, keyed by 4 × sender + receiver, or a tether, keyed by 100 + its number: the sender's CODERATE
register (R380), id counter and replay window; the receiver's spool; counters; paths out of use. -/
structure LinkSt where
  coderate : Word := 0x0000FF14
  wantM : Nat := 1                         -- m to be restored (R390)
  nextId : Nat := 0
  window : List Msg := []
  spool : AMap SpoolEntry := []
  outId : Nat := 0                         -- lowest id that has not left the spool
  erasures : Nat := 0
  late : Nat := 0
  losses : Nat := 0
  frags : AMap (Nat × List Nat) := []      -- by path: fragments counted, and which of the last 2^20 were erasures (R391)
  away : List Nat := []                    -- paths that are being recalibrated
  dropNext : List Nat := []                -- inject drop (R389)
  recent : List Decoded := []              -- the last 8 entries of the spool that have decoded (R395)
  since : Nat × Nat × Nat := (0, 0, 0)     -- erasures, late and losses when the last launch began (R395)
  down : Bool := false
  deriving DecidableEq, Repr, Inhabited

/-- A firmware slot (R366). -/
structure FwSlot where
  verified : Bool := false
  version : DWord := 0
  svn : Nat := 0
  image : List Byte := []                  -- its bytes, for the measurements
  writes : Nat := 1                        -- format version of the handover structure it writes (R367)
  accepts : List Nat := [1]                -- format versions it supports
  deriving DecidableEq, Repr, Inhabited

/-- A live update in progress (R367, R368): whether the new image has started, the cores that have not written HBEAT yet, the
slot of the old image. -/
structure Update where
  started : Bool
  waiting : List Nat
  oldSlot : Nat
  deriving DecidableEq, Repr, Inhabited

/-- SPDM requests (R365). -/
inductive SpdmReq
  | version | capabilities | algorithms | digests | certificate | challenge | measurements (i : Nat)
  | keyExchange | finish | keyUpdate | heartbeat | endSession | ideKm
  deriving DecidableEq, Repr, Inhabited

/-- SPDM responses: accepted, with the SHA-256 digests and the further bytes that it carries, or an error. -/
inductive SpdmResp
  | ok (r : SpdmReq) (digests : List (BitVec 256)) (bytes : List Byte)
  | error (r : SpdmReq)
  deriving DecidableEq, Repr, Inhabited

/-- The attestation state of one PCI Express link (R365, R397). -/
structure SpdmSt where
  negotiated : Nat := 0                    -- 1 version, 2 capabilities, 3 algorithms
  session : Option Nat := none             -- an open session and the generation of its keys
  finished : Bool := false
  ideKeyed : Bool := false
  last : Option SpdmResp := none
  deriving DecidableEq, Repr, Inhabited

/-- The mailbox (R402): 256 bytes, and the command that is pending. -/
structure Mailbox where
  bytes : Memory := []
  pending : Option Nat := none
  msix : List Nat := []                    -- vectors raised, oldest first
  deriving DecidableEq, Repr, Inhabited

/-- A page migration in progress (R361). -/
structure Migration where
  ctx : Nat
  va : Nat
  size : Nat
  leafAt : Nat
  oldFrame : Nat
  newFrame : Nat
  deriving DecidableEq, Repr, Inhabited

/-- Who moves next, where the outside chooses it. -/
inductive Turn
  | event (k : Nat)
  | core (c : Nat)
  | slot (u : Loc) (slot tag : Nat)
  deriving DecidableEq, Repr, Inhabited

/-- What a HOST_BAR2_READ answers (R398). -/
structure ReadReply where
  link : Nat
  bytes : List Byte
  poisoned : Bool
  deriving DecidableEq, Repr, Inhabited

/-! ## The state -/

structure State where
  /-- STATUS (R398): 0 booting, 1 ready, 2 failed bring-up. -/
  status : Nat
  /-- What is under way, in the order in which it takes effect: tokens on links, completions, inputs from outside. -/
  events : List Event
  /-- What came with the event that is being taken. -/
  arg : Arg
  /-- Slots and tags that have a determined firing (R73), in the order in which they became determined (R264). -/
  ready : List (Loc × Nat × Nat)
  /-- The outside's choice of who moves next; where it is empty, the step takes events, then cores, then slots. -/
  schedule : List Turn
  /-- The core that runs the S-word, and the unit, slot and tag that run the E-word, of the current step. -/
  curCore : Nat
  curLoc : Loc
  curSlot : Nat
  curTag : Nat
  cores : AMap CoreSt
  units : AMap UnitSt
  cells : AMap CellSt
  engines : AMap (List EngCmd)
  engNext : Nat
  groups : List SGroup
  memC : Memory
  memL : Memory
  memF : Memory
  memS : Memory
  memM : Memory
  memH : Memory
  marks : List (Space × Nat × LineMark)
  /-- The context that last held a resource, as 64 × generation + number (R342): a 64 KiB unit of a cell's L or of a fold's F, a slice (keys of ownL, ownF, ownS). -/
  owners : AMap Nat
  pads : AMap Pad
  padNext : Nat
  ctxs : AMap Ctx
  handles : AMap Handle
  handleNext : Nat
  queues : AMap Queue
  selections : Nat
  prgs : AMap PageReq
  prgNext : Nat
  /-- 4 KiB pages that the host refuses to translate (R360): 2 × context for every access, 2 × context + 1 for writes; page. -/
  ats : List (Nat × Nat)
  /-- Pages that the evictor has freed, as it reports them to the host (R363): context, virtual address. -/
  evicted : List (Nat × Nat)
  migrations : List Migration
  links : AMap LinkSt
  retired : List Nat
  bmcRetired : List Nat
  tests : Nat
  fw : AMap FwSlot
  fwSlot : Nat
  bmcSlot : Nat
  fuseMinSvn : Nat
  update : Option Update
  mailbox : Mailbox
  spdm : AMap SpdmSt
  config : AMap Nat
  clocks : AMap Nat
  breaks : List BreakPoint
  droverStop : Bool
  reads : List ReadReply
  corrected : Nat
  /-- What last wrote each signal (R329): space and place. -/
  sigWriters : List ((Space × Nat) × SigWriter)
  /-- The mapper's placements, under the SHA-256 of the graph object and the grid-health map (R23). -/
  placed : List (BitVec 256 × Placement)
  /-- Memory links out of use while their module is replaced (R392). -/
  memLinksOut : List Nat
  /-- The injection masks that firmware holds in space C (R388), equal to ERRMASK: of slice i under i, of memory link n under 1000 + n, of a bridge's
  direction or a tether under 2000 + its link's key. -/
  masks : AMap DWord
  /-- The hop buffers of the switch boxes' outputs (R370), by site, network and output: how many tokens have been sent, the last 8 of them. -/
  hopBufs : AMap (Nat × List Token)
  freeCtr : Nat
  deriving DecidableEq, Repr, Inhabited

/-- The machine right after reset: power is good and bring-up is about to start (R404); nothing is configured, no
context is live, every memory is blank, every configuration value is at its default (R29). -/
def State.reset : State where
  status := 0
  events := [⟨.powerGood, { flag := true }⟩]
  arg := {}
  ready := []
  schedule := []
  curCore := 0
  curLoc := .cell 0 0
  curSlot := 0
  curTag := 0
  cores := []
  units := []
  cells := []
  engines := []
  engNext := 0
  groups := []
  memC := []
  memL := []
  memF := []
  memS := []
  memM := []
  memH := []
  marks := []
  owners := []
  pads := []
  padNext := 0
  ctxs := []
  handles := []
  handleNext := 0
  queues := []
  selections := 0
  prgs := []
  prgNext := 0
  ats := []
  evicted := []
  migrations := []
  links := []
  retired := []
  bmcRetired := []
  tests := 0
  fw := [(0, { verified := true })]
  fwSlot := 0
  bmcSlot := 0
  fuseMinSvn := 0
  update := none
  mailbox := {}
  spdm := []
  config := []
  clocks := []
  breaks := []
  droverStop := false
  reads := []
  corrected := 0
  sigWriters := []
  placed := []
  memLinksOut := []
  masks := []
  hopBufs := []
  freeCtr := 0

end Sys2Proof.Machine
end

