-- ==== Sys2Proof/Machine/Ops.lean ====
section
/-!
DEFINITION. The named operations over state that every family shares: cores and their registers, memories, events, the
issue and the end of an S-word, taking a trap and a scalar check failure, paddock faults.
-/

namespace Sys2Proof

/-! ## Places -/

/-- The key of a configured unit: even for a cell's configuration, odd for a node. -/
def Loc.key : Loc → Nat
  | .cell i e => 2 * (i + 384 * e)
  | .node i => 2 * i + 1

def Loc.ofKey (n : Nat) : Loc := if n % 2 = 0 then .cell (n / 2 % 384) (n / 2 / 384) else .node (n / 2)

/-- Whether a key is that of a cell's configuration. -/
def isCellKey (n : Nat) : Bool := n % 2 == 0

/-- The cell or slice number of a unit. -/
def Loc.idx : Loc → Nat
  | .cell i _ => i
  | .node i => i

/-- The cell or slice number of a unit, by its key. -/
def idxOf (key : Nat) : Nat := (Loc.ofKey key).idx

/-- Pasture and fold of a cell or slice number (R9). -/
def pastureOf (i : Nat) : Nat := i / 96
def foldOf (i : Nat) : Nat := i / 12
def rowOf (i : Nat) : Nat := i % 12

/-- The site of a cell in the layout of fault-record bytes 9 and 8 (R279): pasture, x, y. -/
def cellSite (i : Nat) : Nat := i / 96 * 2 ^ 14 + (2 * (i / 12 % 8) + 1) * 2 ^ 8 + i % 12
def sliceSite (i : Nat) : Nat := i / 96 * 2 ^ 14 + 2 * (i / 12 % 8) * 2 ^ 8 + i % 12
def Loc.site : Loc → Nat
  | .cell i _ => cellSite i
  | .node i => sliceSite i

/-- The site where a memory link attaches (R17): link n of a pasture at the north end of column x(2n), or for n from 8 on at the south end of
column x(2(n − 8)). Links are numbered 16 × pasture + n. -/
def memLinkSite (n : Nat) : Nat := n / 16 * 2 ^ 14 + 2 * (n % 8) * 2 ^ 8 + (if n % 16 < 8 then 0 else 11)

/-- The site of a core. A shepherd stands at the south end of its column (R11), the drover beside the fabric of pasture 0
(R22); row 11 and site 0 for them are the model's (notes/assumptions/11.md). -/
def coreSite (c : Nat) : Nat :=
  if c < 384 then cellSite c else if c < 416 then cellSite ((c - 384) * 12 + 11) else 0

/-- The token at a switch box is an abort mark (R58, R277). -/
def Hop.isMark (h : Hop) : Bool :=
  h.tok.net == .control && h.tok.kind == 4 && h.ends.any fun d =>
    match d with
    | .wave _ _ => true
    | _ => false

/-- An abort mark of a paddock (R277), at a switch box or at a unit. -/
def Instr.marks (pad : Nat) : Instr → Bool
  | .abortMark p _ => p == pad
  | .switchTokenCheck h => h.isMark && h.ends.any fun d =>
      match d with
      | .wave p _ => p == pad
      | _ => false
  | _ => false

/-- A fault of a paddock on its way to the drover (R276). -/
def Instr.faults (pad : Nat) : Instr → Bool
  | .paddockFault p _ => p == pad
  | _ => false

end Sys2Proof

namespace Sys2Proof.Machine

/-- What a step answers. -/
abbrev Out := Host.Outcome State Fault Refusal

/-! ## Records by key -/

def State.coreOf (s : State) (c : Nat) : CoreSt := amGet s.cores c {}
def State.core (s : State) : CoreSt := s.coreOf s.curCore
def State.setCoreOf (s : State) (c : Nat) (k : CoreSt) : State := { s with cores := amPut s.cores c k }
def State.setCore (s : State) (k : CoreSt) : State := s.setCoreOf s.curCore k
def State.getU (s : State) (n : Nat) : UnitSt := amGet s.units n {}
def State.setU (s : State) (n : Nat) (u : UnitSt) : State := { s with units := amPut s.units n u }
def State.updU (s : State) (n : Nat) (f : UnitSt → UnitSt) : State := s.setU n (f (s.getU n))
/-- A store enters the node's list, behind all before it. -/
def UnitSt.addStore (u : UnitSt) (x : NodeStore) : UnitSt :=
  { u with stores := u.stores ++ [{ x with order := u.storeNo + 1 }], storeNo := u.storeNo + 1 }
/-- Something of a store is held for in-field test (R384). -/
def NodeStore.gatedPart (x : NodeStore) : Bool := !(x.held.isEmpty && x.ups.isEmpty)
def State.getPad (s : State) (p : Nat) : Pad := amGet s.pads p {}
def State.setPad (s : State) (p : Nat) (x : Pad) : State := { s with pads := amPut s.pads p x }
def State.updPad (s : State) (p : Nat) (f : Pad → Pad) : State :=
  match amGet? s.pads p with
  | some x => s.setPad p (f x)
  | none => s
def State.getCell (s : State) (c : Nat) : CellSt := amGet s.cells c {}
def State.setCell (s : State) (c : Nat) (x : CellSt) : State := { s with cells := amPut s.cells c x }

/-- Firmware privilege: shepherds and the drover (R348). -/
def isFirmware (c : Nat) : Bool := 384 ≤ c

/-- The fold of a cell's sequencer or of a shepherd. -/
def coreFold (c : Nat) : Nat := if c < 384 then foldOf c else c - 384

/-- The configured unit that a cell's running firing belongs to. A firmware core runs for no configuration; its key names a unit
that is never configured. -/
def State.curUnitKey (s : State) : Nat :=
  if isFirmware s.curCore then 2 * (1000 + s.curCore) + 1 else Loc.key (.cell s.curCore s.core.firing.entry)
def State.curUnit (s : State) : UnitSt := s.getU s.curUnitKey

/-! ## Events -/

def State.post (s : State) (i : Instr) (a : Arg := {}) : State := { s with events := s.events ++ [⟨i, a⟩] }
/-- Posts an event unless the same one is under way. -/
def State.postOnce (s : State) (i : Instr) : State := if s.events.any fun x => x.instr == i then s else s.post i
/-- Puts an event ahead of all others: it keeps its place in its stream. -/
def State.postFront (s : State) (i : Instr) (a : Arg := {}) : State := { s with events := ⟨i, a⟩ :: s.events }
def State.postAll (s : State) (l : List Event) : State := { s with events := s.events ++ l }

/-- A fresh free value (notes/assumptions/6.md): the counter that names it, and the state with the counter advanced. -/
def State.fresh (s : State) : Nat × State := (s.freeCtr, { s with freeCtr := s.freeCtr + 1 })

/-- A unit reports a paddock fault (R276): the shepherds take it as the event PADDOCK_FAULT. -/
def State.raise (s : State) (pad : Nat) (f : FaultRec) : State := s.post (.paddockFault pad f)

/-- gweuf stops the paddock when a token reaches a place (R201); the token waits, and passes when the paddock goes on. -/
def State.tokenBreak (s : State) (pad : Nat) (b : BreakPoint) : Bool :=
  s.breaks.contains b && !(s.getPad pad).passed.contains b

/-- A paddock stops at a breakpoint, which it passes when it goes on. -/
def State.stopAt (s : State) (pad : Nat) (b : BreakPoint) : State :=
  s.updPad pad fun p => { p with stop := true, stepTo := none, passed := p.passed ++ [b] }

/-- A paddock stops at a breakpoint for a token, whose step comes first when it goes on. -/
def State.stopToken (s : State) (pad : Nat) (b : BreakPoint) (i : Instr) : State :=
  (s.stopAt pad b).updPad pad fun p => { p with deferred := Event.mk i {} :: p.deferred }

/-- A detected fault is reported (R373). -/
def State.report (s : State) (r : ErrRep) : State := s.post (.errorReport r)

/-! ## Memories -/

def Memory.get (m : Memory) (a : Nat) : Byte := amGet m a Memory.blankByte

def Memory.set (m : Memory) (a : Nat) (b : Byte) : Memory :=
  if b = Memory.blankByte then amDel m a else amPut m a b

def Memory.read (m : Memory) : Nat → Nat → List Byte
  | _, 0 => []
  | a, n + 1 => m.get a :: Memory.read m (a + 1) n

def Memory.write (m : Memory) : Nat → List Byte → Memory
  | _, [] => m
  | a, b :: bs => Memory.write (m.set a b) (a + 1) bs

/-- Strictly rising addresses from `lo` on, no entry that reads as blank. -/
def Memory.wfFrom : Nat → Memory → Bool
  | _, [] => true
  | lo, (a, b) :: m => decide (lo ≤ a) && decide (b ≠ Memory.blankByte) && Memory.wfFrom (a + 1) m

/-- The canonical form of a memory. -/
def Memory.wf (m : Memory) : Bool := Memory.wfFrom 0 m

def State.mem (s : State) : Space → Memory
  | .l => s.memL
  | .f => s.memF
  | .s => s.memS
  | .m => s.memM
  | .h => s.memH
  | .c => s.memC

def State.setMem (s : State) (sp : Space) (m : Memory) : State :=
  match sp with
  | .l => { s with memL := m }
  | .f => { s with memF := m }
  | .s => { s with memS := m }
  | .m => { s with memM := m }
  | .h => { s with memH := m }
  | .c => { s with memC := m }

def State.readMem (s : State) (sp : Space) (a n : Nat) : List Byte := (s.mem sp).read a n
def State.writeMem (s : State) (sp : Space) (a : Nat) (bs : List Byte) : State := s.setMem sp ((s.mem sp).write a bs)

/-- Where byte `off` of a cell's L, of a fold's F, of a core's code store stands. -/
def lAddr (cell off : Nat) : Nat := cell * 2 ^ 21 + off
def fAddr (fold off : Nat) : Nat := fold * 2 ^ 24 + off
def cAddr (core off : Nat) : Nat := core * 2 ^ 14 + off

/-- The slice number that an S address names: pasture × 96 + slice (R204). -/
def sliceOfAddr (a : Nat) : Nat := a / 2 ^ 30 % 4 * 96 + a / 2 ^ 22 % 256

/-- The S address of a byte of a slice. -/
def sliceAddr (slice off : Nat) : Nat := slice / 96 * 2 ^ 30 + slice % 96 * 2 ^ 22 + off

/-! ## Marks on 64-byte lines (R372) -/

def State.markOf (s : State) (sp : Space) (line : Nat) : Option LineMark :=
  (s.marks.find? fun m => m.1 == sp && m.2.1 == line).map (·.2.2)

def State.clearMark (s : State) (sp : Space) (line : Nat) : State :=
  { s with marks := s.marks.filter fun m => !(m.1 == sp && m.2.1 == line) }

def State.setMark (s : State) (sp : Space) (line : Nat) (k : LineMark) : State :=
  { s with marks := (sp, line, k) :: (s.clearMark sp line).marks }

/-- What the reads of one line by a storing unit give (R372): a single-bit error is corrected and counted; an
uncorrectable line is re-read, fails again and is poisoned; a poisoned line stays so. Answers the cause that the read
reports (0x06 MEM_ECC, 0x08 POISON). -/
def State.checkLine (s : State) (sp : Space) (line : Nat) : State × Option Nat :=
  match s.markOf sp line with
  | none => (s, none)
  | some .single => ({ s.clearMark sp line with corrected := s.corrected + 1 }, none)
  | some .uncorrectable => (s.setMark sp line .poison, some 0x06)
  | some .poison => (s, some 0x08)

/-- The lines of a range, first to last. -/
def linesOf (a n : Nat) : List Nat := (List.range ((a + n - 1) / 64 + 1 - a / 64)).map (· + a / 64)

/-- Takes an armed injection of a slice, a memory link, a bridge or a tether (R388; notes/assumptions/105.md). -/
def State.takeMask (s : State) (unit bit : Nat) : State × Bool :=
  let m := amGet s.masks unit 0
  if m.getLsbD bit then ({ s with masks := amPut s.masks unit (m &&& ~~~ BitVec.ofNat 64 (2 ^ bit)) }, true) else (s, false)

/-- A read of a line by a slice, or over a memory link as frames with a link CRC-32C each (R371): an armed injection makes the unit's next check
fail once. The re-read, or the frame sent again, absorbs it, and it is reported as injected (R388). -/
def State.spendLine (s : State) (sp : Space) (line : Nat) : State :=
  let fail (s : State) (unit bit cause site : Nat) : State :=
    match s.takeMask unit bit with
    | (s, true) => s.report { cause := cause, pad := 0, site := some site, injected := true }
    | (s, false) => s
  match sp with
  | .s => let i := sliceOfAddr (64 * line); fail s i 5 0x06 (sliceSite i)
  | .m => let n := Config.frameLink (line / 1024); fail (fail s (1000 + n) 7 0x04 (memLinkSite n)) (1000 + n) 5 0x06 (memLinkSite n)
  | _ => s

def State.spendMasks (s : State) (sp : Space) (a n : Nat) : State :=
  if s.masks.isEmpty then s else (linesOf a n).foldl (fun s l => s.spendLine sp l) s

/-- Reads a range with the checks of its storing unit; the cause is that of the first line that fails. -/
def State.checkedRead (s : State) (sp : Space) (a n : Nat) : State × List Byte × Option Nat :=
  let s := s.spendMasks sp a n
  let (s', c) := (linesOf a n).foldl (init := (s, none)) fun (acc : State × Option Nat) line =>
    let (s', c) := acc.1.checkLine sp line
    (s', acc.2.or c)
  (s', s'.readMem sp a n, c)

/-- A write as a storing unit performs it: a whole 64-byte line clears its mark (R372). -/
def State.storeMem (s : State) (sp : Space) (a : Nat) (bs : List Byte) : State :=
  let whole := (linesOf a bs.length).filter fun line => decide (a ≤ 64 * line ∧ 64 * line + 64 ≤ a + bs.length)
  (whole.foldl (fun s line => s.clearMark sp line) s).writeMem sp a bs

/-! ## Registers (R43, R120, R133) -/

/-- s0 reads zero. -/
def CoreSt.reg (k : CoreSt) (r : RegNum) : DWord := if r = 0 then 0 else (amGet k.regs r.toNat {}).val

/-- The residue of a register agrees with its bits; s0 carries residue 0. -/
def CoreSt.regOk (k : CoreSt) (r : RegNum) : Bool :=
  if r = 0 then true
  else
    let c := amGet k.regs r.toNat {}
    c.res == residue3 c.val.toNat

/-- A write to s0 is discarded. -/
def CoreSt.setReg (k : CoreSt) (r : RegNum) (v : DWord) : CoreSt :=
  if r = 0 then k else { k with regs := amPut k.regs r.toNat ⟨v, residue3 v.toNat⟩ }

/-- p0 reads true. -/
def CoreSt.pred (k : CoreSt) (p : PredNum) : Bool := if p = 0 then true else (amGet k.preds p.toNat (false, false)).1

def CoreSt.predOk (k : CoreSt) (p : PredNum) : Bool :=
  if p = 0 then true
  else
    let c := amGet k.preds p.toNat (false, false)
    c.1 == c.2

/-- A write to p0 is discarded; both copies are written. -/
def CoreSt.setPred (k : CoreSt) (p : PredNum) (v : Bool) : CoreSt :=
  if p = 0 then k else { k with preds := amPut k.preds p.toNat (v, v) }

/-- The guard holds when p(g) XOR gn is 1 (R37). -/
def CoreSt.guard (k : CoreSt) (g : Guard) : Bool := xor (k.pred g.p) g.neg

/-! ## Trap causes (R46) -/

def Cause.code : Cause → Nat
  | .illegalOpcode => 0x01
  | .reservedField => 0x02
  | .misaligned => 0x03
  | .spaceBounds => 0x04
  | .privilege => 0x05
  | .breakpt => 0x06
  | .trapWord => 0x07
  | .firingLimit => 0x08
  | .storeBufferFull => 0x09
  | .tagInvalid => 0x0A
  | .bufferUnderrun => 0x0B
  | .bufferOverrun => 0x0C
  | .engineFull => 0x0D

/-- TRAPCAUSE: the cause in bits [7:0], the BRK or TRAP code in bits [27:16], all other bits zero (R46). -/
def trapCauseWord (c : Cause) (code : BitVec 12) : DWord := BitVec.ofNat 64 (c.code + code.toNat * 2 ^ 16)

/-! ## The end of a firing -/

/-- A firing has ended: no value in an s or p register survives (R43), its reservations are released with it (R263), and the
sequencer is free for the next selection (R262). -/
def CoreSt.endFiring (k : CoreSt) : CoreSt :=
  { k with running := false, finWait := false, failed := false, regs := [], preds := [], firing := {} }

/-- No engine command that the paddock's firings issued is left. -/
def State.quietEngines (s : State) (pad : Nat) : Bool := s.engines.all fun (_, q) => q.all fun e => e.pad != pad || e.pkt.isSome

/-- A paddock that is being stopped has quiesced when its abort marks have been taken, no firing of its units runs or waits for
its re-run, and no engine command that its firings issued is left (R276, R277, R290). -/
def State.quiet (s : State) (pad : Nat) : Bool :=
  (s.events.all fun x => !x.instr.marks pad) &&
  (s.cores.all fun (c, k) => isFirmware c || !(k.running || k.failed) || k.firing.pad != pad) &&
    s.quietEngines pad

def PadPhase.stopping : PadPhase → Bool
  | .faulting | .preempting | .parking | .retiring | .replaying | .killing => true
  | _ => false

/-- Posts PADDOCK_QUIESCED when a stopping paddock has nothing left in flight. -/
def State.checkQuiet (s : State) (pad : Nat) : State :=
  match amGet? s.pads pad with
  | some p => if p.phase.stopping && s.quiet pad && s.events.all fun x => x.instr != .paddockQuiesced pad then
      s.post (.paddockQuiesced pad) else s
  | none => s

/-- The current core's firing ends; what was committed or dropped has been done by the caller. -/
def State.endFiring (s : State) : State :=
  let k := s.core
  let s := s.setCore k.endFiring
  -- entries of engine queues that the firing had reserved are free for every handler of the fold (R262, R264)
  let freed := if k.firing.engd.isEmpty then [s.curCore] else s.curCore :: ((List.range 12).map (12 * foldOf s.curCore + ·)).filter (· != s.curCore)
  if isFirmware s.curCore then s else (s.checkQuiet k.firing.pad).postAll (freed.map fun c => Event.mk (.handlerSelect c) {})

/-! ## Taking a trap (R46, R300, R305) -/

/-- The fault record of a trap that no handler takes (R278, R279). -/
def trapFault (k : CoreSt) (core : Nat) (cause pc : DWord) : FaultRec :=
  { code := 0x01, ctx := k.firing.ctx, cell := coreSite core, slot := k.firing.handler, fld := 3, tag := k.firing.tag,
    seq := k.firing.seq, cause := cause.toNat % 2 ^ 32, aux := pc }

/-- The trap handler that the actor of a firing names; a trap handler has none (R300). -/
def UnitSt.trapHandler (u : UnitSt) (f : Firing) : Option Nat :=
  if f.trapHandler then none else (amGet u.conf.actors f.handler {}).trap

/-- Whether gweuf has a firing breakpoint on the cell (R304). -/
def State.breaksFiring (s : State) (cell : Nat) : Bool :=
  s.breaks.any fun b =>
    match b with
    | .firing (.cell i _) _ => i == cell
    | _ => false

/-- A trap at the word at the current pc: the firing ends without effect, everything it holds is dropped, TRAPCAUSE and TRAPPC
are set, and the actor's trap handler becomes runnable; without one the paddock faults with TRAP_UNHANDLED. On a firmware core
no actor and no paddock stand behind the firing, and the core only ends it (notes/assumptions/12.md).
TRAPCAUSE and TRAPPC are kept by context (R339; notes/assumptions/101.md). -/
def State.takeTrap (s : State) (c : Cause) (code : BitVec 12) : State :=
  let k := s.core
  let cause := trapCauseWord c code
  let s1 := s.setCore
    { k with trapCause := amPut k.trapCause k.firing.ctx cause, trapPc := amPut k.trapPc k.firing.ctx k.pc }
  if isFirmware s.curCore then s1.endFiring
  else
    let f := k.firing
    let stop := c == .breakpt && s.breaksFiring s.curCore
    let s2 :=
      match (s.curUnit).trapHandler f with
      | some h =>
        s1.updU s.curUnitKey fun u =>
          { u with
            actors := amUpd u.actors h {} fun a =>
              { a with traps := a.traps ++ [TrapInfo.mk cause k.pc f.handler f.tag f.seq f.spanLo f.spanHi] } }
      | none =>
        if stop then
          s1.updPad f.pad fun p =>
            { p with deferred := p.deferred ++ [Event.mk (.paddockFault f.pad (trapFault k s.curCore cause k.pc)) {}] }
        else s1.raise f.pad (trapFault k s.curCore cause k.pc)
    let s3 := if stop then s2.updPad f.pad fun p => { p with stop := true } else s2
    s3.endFiring

/-! ## Scalar check failures (R134, R374) -/

/-- The firing ends without effect and the failure is reported, with the word's address and the register concerned (0 to 31 s0 to s31, 32 to
39 p0 to p7). It waits for its re-run, or, when an atomic of it has performed, the paddock faults with ATOMIC_REPLAY. After two re-runs the
failure moves to commit scope. A shepherd's or the drover's own core has no paddock and no shepherd above it; it is treated alike, as paddock
0's firing that starts at address 0 (notes/assumptions/90.md). -/
def State.scalarFail (s : State) (injected : Bool) (reg : Option Nat) : State :=
  let k := s.core
  let f := k.firing
  let cell := if isFirmware s.curCore then none else some s.curCore
  let rep : ErrRep := { cause := 0x02, pad := f.pad, cell := cell, site := some (coreSite s.curCore), injected := injected, word := some k.pc, reg := reg }
  match f.atomicAt with
  | some a =>
    let s := (s.report rep).raise f.pad
      { code := 0x0B, ctx := f.ctx, cell := coreSite s.curCore, slot := f.handler, fld := 3, tag := f.tag, seq := f.seq,
        aux := BitVec.ofNat 64 a }
    s.endFiring
  | none =>
    if f.reruns < 2 then
      let s := s.report rep
      let s := s.setCore
        { k with running := false, failed := true, regs := [], preds := [],
                 firing := { f with held := [], taken := [], loops := [], issued := 0 } }
      s.post (.firingRerun s.curCore)
    else
      (s.report { rep with commitScope := true }).endFiring

/-- A load whose bytes fail their check (R230, R374): the firing ends without effect and the paddock with LOAD_POISON. -/
def State.loadPoison (s : State) (addr : Nat) (cause : Nat) : State :=
  let f := s.core.firing
  let cell := if isFirmware s.curCore then none else some s.curCore
  let s := s.report { cause := cause, pad := f.pad, cell := cell, site := some (coreSite s.curCore) }
  let s :=
    if isFirmware s.curCore then s
    else s.raise f.pad
      { code := 0x15, ctx := f.ctx, cell := coreSite s.curCore, slot := f.handler, fld := 3, tag := f.tag, seq := f.seq,
        aux := BitVec.ofNat 64 addr }
  s.endFiring

/-! ## S-words (R37, R38, R302) -/

/-- After a word that completes at `pc` without a taken branch: the innermost body that ends there runs again or is done,
and then the body around it is looked at. -/
def loopBack (pc : DWord) : List LoopFrame → DWord × List LoopFrame
  | [] => (pc, [])
  | f :: fs =>
    if f.stop = pc then
      if 1 < f.remaining then (f.start, { f with remaining := f.remaining - 1 } :: fs) else loopBack pc fs
    else (pc, f :: fs)

/-- A word has completed: the pc moves to the next word, or to the start of a body whose last word this was. -/
def CoreSt.retire (k : CoreSt) : CoreSt :=
  let (pc, loops) := loopBack (k.pc + 4) k.firing.loops
  { k with pc := pc, firing := { k.firing with loops := loops } }

/-- A taken branch pops every body that does not contain the target (R302). -/
def CoreSt.jump (k : CoreSt) (target : DWord) : CoreSt :=
  { k with
    pc := target
    firing := { k.firing with
      loops := k.firing.loops.dropWhile fun f => !(decide (f.start.toNat ≤ target.toNat) && decide (target.toNat < f.stop.toNat)) } }

/-- How a word that executes ends. -/
inductive WordEnd
  | done (s : State)                       -- completed, registers written; the pc moves on
  | jumped (s : State)                     -- completed with a taken branch; the pc is set
  | trap (c : Cause) (code : BitVec 12)    -- trapped; nothing of the word stands
  | mismatch (d : RegNum)                  -- the result for a register differs from its prediction, or from its second computation (R133)
  | poison (addr cause : Nat) (s : State)  -- a load whose bytes fail their check
  | over (s : State)                       -- the firing has ended, or the core waits at this word

/-- The word completes and the pc moves on. -/
def State.retire (s : State) : State := s.setCore s.core.retire

def State.finishWord (s : State) : WordEnd → State
  | .done s' => s'.retire
  | .jumped s' => s'
  | .trap c code => s.takeTrap c code
  | .mismatch d => s.scalarFail false (some d.toNat)
  | .poison a c s' => s'.loadPoison a c
  | .over s' => s'

/-- A source check of a word: it holds, or it fails at a register, by injection or by itself. -/
inductive Check
  | ok
  | bad (injected : Bool) (reg : Option Nat)
  deriving DecidableEq, Repr, Inhabited

/-- The predicate check of a word that reads these predicates (R133, R388 bit 2), and the state with an armed injection taken. -/
def State.checkPreds (s : State) (ps : List PredNum) : State × Check :=
  let k := s.core
  match ps.find? fun p => p != 0 with
  | none => (s, .ok)
  | some p =>
    if k.errmask.getLsbD 2 then (s.setCore { k with errmask := k.errmask &&& ~~~ 4 }, .bad true (some (32 + p.toNat)))
    else
      match ps.find? fun p => !k.predOk p with
      | some p => (s, .bad false (some (32 + p.toNat)))
      | none => (s, .ok)

/-- The residue check of a word (R133, R388 bit 1). A word that reads no register checks its own result, which is right.
A failure that ERRMASK makes names the word's first source register, or none where it has none (notes/assumptions/113.md); of several that fail
the first in operand order is named (notes/assumptions/124.md). -/
def State.checkRegs (s : State) (rs : List RegNum) : State × Check :=
  let k := s.core
  if k.errmask.getLsbD 1 then (s.setCore { k with errmask := k.errmask &&& ~~~ 2 }, .bad true (rs.head?.map (·.toNat)))
  else
    match rs.find? fun r => !k.regOk r with
    | some r => (s, .bad false (some r.toNat))
    | none => (s, .ok)

/-- Runs an issued S-word: guard, source checks, then the word itself (R37, R38 steps 4 and 5, R133). `scalar` says that the
word has a scalar result or source that the residue check covers. Where several sources fail, the report names the first: the guard, then the
predicates, then the registers in operand order (notes/assumptions/124.md). -/
def runWord (s : State) (g : Guard) (rs : List RegNum) (ps : List PredNum) (scalar : Bool) (body : State → WordEnd) :
    State :=
  match s.checkPreds [g.p] with
  | (s, .bad inj r) => s.scalarFail inj r
  | (s, .ok) =>
    if !s.core.guard g then s.retire
    else
      match s.checkPreds ps with
      | (s, .bad inj r) => s.scalarFail inj r
      | (s, .ok) =>
        match if scalar then s.checkRegs rs else (s, .ok) with
        | (s, .bad inj r) => s.scalarFail inj r
        | (s, .ok) => s.finishWord (body s)

/-- A word that only computes registers or predicates from registers and predicates. -/
def runReg (s : State) (g : Guard) (rs : List RegNum) (ps : List PredNum) (scalar : Bool) (f : CoreSt → CoreSt) : Out :=
  .next (runWord s g rs ps scalar fun s => .done (s.setCore (f s.core)))

/-- A word that writes one register with a result that the scalar unit checks (R133). -/
def runChecked (s : State) (g : Guard) (rs : List RegNum) (d : RegNum) (v : CoreSt → DWord) (ok : CoreSt → Bool) : Out :=
  .next (runWord s g rs [] true fun s => if ok s.core then .done (s.setCore (s.core.setReg d (v s.core))) else .mismatch d)

/-- While gweuf has stopped a paddock, no token of it moves and no timeout of its cells advances (R201): the event waits until the paddock goes on. -/
def State.whileRunning (s : State) (pad : Nat) (i : Instr) (body : State → Out) : Out :=
  if (s.getPad pad).stop then .next (s.updPad pad fun p => { p with deferred := p.deferred ++ [Event.mk i s.arg] }) else body s

/-! ## Fetch and issue -/

/-- The word at the current core's pc. -/
def State.fetchWord (s : State) : Word :=
  BitVec.ofNat 32 (ofBytes (s.readMem .c (cAddr s.curCore (s.core.pc.toNat)) 4))

/-- The core issues a word: it counts towards FMAX (R38). -/
def State.countIssue (s : State) : State :=
  let k := s.core
  s.setCore { k with firing := { k.firing with issued := k.firing.issued + 1 } }

/-! ## Timers and configuration values -/

/-- A package configuration value in force (R29). -/
def State.cfgVal (s : State) (i : Nat) : Nat := amGet s.config i (Config.default i)

end Sys2Proof.Machine
end

