-- ==== Sys2Proof/Machine/Operands.lean ====
section
/-!
DEFINITION. Operand forms of S-words: memory addresses and the bytes they may reach (R229, R343), loads merged with held
stores (R210), groups of S stores in flight (R212, R268), engine addresses (R312).
-/

namespace Sys2Proof.Machine

/-! ## Legal bytes (R229, R343) -/

/-- Ranges [a, a + n) and [b, b + m) have a byte in common. -/
def overlap (a n b m : Nat) : Bool := a < b + m && b < a + n

/-- Bytes of L that a tile takes (R171). -/
def Tile.size (t : Tile) : Nat := if t.ty == .f64 && (t.role == .acc || t.role == .state) then 2048 else 1024

def BufConf.size (b : BufConf) : Nat := b.slots * 64

/-- The configurations of a cell, swapped-out ones included: their tiles and buffers keep their place. -/
def State.entriesOf (s : State) (cell : Nat) : List UnitSt :=
  (s.units.filter fun (key, u) => isCellKey key && idxOf key == cell && u.live).map (·.2)

def State.tilesClear (s : State) (cell a n : Nat) : Bool :=
  (s.entriesOf cell).all fun u => u.tiles.all fun (_, t) => !overlap a n (t.base * 1024) t.size

def State.lBufsClear (s : State) (cell a n : Nat) : Bool :=
  (s.entriesOf cell).all fun u => u.conf.bufs.all fun (_, b) => b.sp != .l || !overlap a n b.base b.size

/-- f buffers that a paddock places in a fold. -/
def State.fBufsClear (s : State) (fold pad a n : Nat) : Bool :=
  s.units.all fun (key, u) =>
    !(u.live && isCellKey key && foldOf (idxOf key) == fold && u.pad == pad) ||
      u.conf.bufs.all fun (_, b) => b.sp != .f || !overlap a n b.base b.size

/-- Legal bytes of L for a plain access of a cell's firing. -/
def State.lLegal (s : State) (a n : Nat) : Bool :=
  let w := s.curUnit.conf.lwin
  w.1 ≤ a && a + n ≤ w.2 && a + n ≤ Config.lSize && s.tilesClear s.curCore a n && s.lBufsClear s.curCore a n

/-- Legal bytes of F for a plain access. A shepherd reaches the top 64 KiB too. -/
def State.fLegal (s : State) (a n : Nat) : Bool :=
  if isFirmware s.curCore then a + n ≤ Config.fSize
  else
    let w := s.curUnit.conf.fwin
    w.1 ≤ a && a + n ≤ w.2 && a + n ≤ Config.fUser && s.fBufsClear (coreFold s.curCore) s.core.firing.pad a n

/-- The configuration names the pair of a fold and a slice: the fold has permits for it (R21, R269). -/
def Conf.namesPair (c : Conf) (fold slice : Nat) : Bool := (amGet? c.permits (fold * 512 + slice)).isSome

/-- Legal bytes of S: the paddock's configuration names the slice with the cell's fold. To a slice that it does not name with it the fold
issues no request (R21; notes/assumptions/89.md). -/
def State.sLegal (s : State) (a : Nat) : Bool :=
  let c := (s.getPad s.core.firing.pad).conf
  a < 2 ^ 32 && a / 2 ^ 22 % 256 ≤ 95 && c.slices.contains (sliceOfAddr a) && c.namesPair (coreFold s.curCore) (sliceOfAddr a)

/-- Where n bytes at ea stand in the memory of a space, if the firing may reach them. A shepherd has no L, the drover neither L
nor F, and firmware cores run for no paddock, so they reach no slice by these words (notes/assumptions/13.md). -/
def State.spaceAddr (s : State) (sp : Space) (ea n : Nat) : Option Nat :=
  match sp with
  | .l => if !isFirmware s.curCore && s.lLegal ea n then some (lAddr s.curCore ea) else none
  | .f => if s.curCore < 416 && s.fLegal ea n then some (fAddr (coreFold s.curCore) ea) else none
  | .s => if !isFirmware s.curCore && s.sLegal ea then some ea else none
  | _ => none

/-! ## Loads and the firing's own held stores (R210) -/

/-- The byte that the youngest held store gives an address. -/
def heldByte (sp : Space) (a : Nat) : List Held → Option Byte
  | [] => none
  | h :: hs =>
    match heldByte sp a hs with
    | some b => some b
    | none =>
      match h with
      | .store sp' b bs => if sp' == sp && b ≤ a && a < b + bs.length then bs[a - b]? else none
      | _ => none

/-- Bytes of memory with the firing's own held stores over them. -/
def mergeHeld (sp : Space) (held : List Held) : Nat → List Byte → List Byte
  | _, [] => []
  | a, b :: bs => (heldByte sp a held).getD b :: mergeHeld sp held (a + 1) bs

/-- Entries of the store buffer: stores, CBWR, SEND, SEED and COMMIT each take one (R305). -/
def Held.entry : Held → Bool
  | .store .. | .send .. | .seed .. | .commitOn .. => true
  | _ => false

def Firing.full (f : Firing) : Bool := 256 ≤ countIf Held.entry f.held

/-- Adds a held effect to the running firing. -/
def State.hold (s : State) (h : Held) : State :=
  let k := s.core
  s.setCore { k with firing := { k.firing with held := k.firing.held ++ [h] } }

/-! ## Groups of S stores in flight (R212, R268, R269) -/

def pairKey (fold slice : Nat) : Nat := fold * 512 + slice
def permitKey (fold slice pool : Nat) : Nat := pairKey fold slice * 4 + pool

/-- Permits of a pool: none where the configuration does not name the pair (R21, R269). -/
def Conf.poolSize (c : Conf) (k : Nat) : Nat := nthD (amGet c.permits (k / 4) []) (k % 4) 0

def State.takePermit (s : State) (pad k : Nat) : State := s.updPad pad fun p => { p with permits := amUpd p.permits k 0 (· + 1) }
def State.returnPermit (s : State) (pad k : Nat) : State := s.updPad pad fun p => { p with permits := amUpd p.permits k 0 (· - 1) }

/-- A permit of the pool is free. -/
def State.permitFree (s : State) (pad k : Nat) : Bool :=
  let p := s.getPad pad
  amGet p.permits k 0 < p.conf.poolSize k

/-- A group arrives at its slice, on another pasture too in one step (notes/assumptions/104.md), and its acknowledgment returns the permit. -/
def State.deliverGroup (s : State) (g : SGroup) : State :=
  let s := g.stores.foldl (fun s (a, bs) => s.storeMem .s a bs) s
  s.returnPermit g.pad (permitKey (foldOf g.cell) g.slice 0)

/-- Delivers the groups that p names, oldest first; the others stay in flight. -/
def State.deliver (s : State) (p : SGroup → Bool) : State :=
  let s1 := (s.groups.filter p).foldl State.deliverGroup s
  { s1 with groups := s.groups.filter fun g => !p g }

/-- Pool 0 of a cell's fold and a slice has no permit free, and no group that would return one is in flight: tokens on routes hold them all. -/
def State.sliceFull (s : State) (pad cell slice : Nat) : Bool :=
  !s.permitFree pad (permitKey (foldOf cell) slice 0) && !(s.groups.any fun x => foldOf x.cell == foldOf cell && x.slice == slice)

/-- A request to a slice waits for a permit of pool 0 (R232, R268, R269): where none is free the oldest group of the fold to that slice arrives
first, and its reply returns one. -/
def State.sliceRequest (s : State) (pad cell slice : Nat) : State :=
  if s.permitFree pad (permitKey (foldOf cell) slice 0) then s
  else
    match s.groups.find? fun x => foldOf x.cell == foldOf cell && x.slice == slice with
    | some old => s.deliver fun x => x.cell == old.cell && x.slice == old.slice
    | none => s

/-- Storing units that a scope covers (R208, R209): the slices of the cell's pasture, or all of them. -/
def scopeSlice (sc : Scope) (cell slice : Nat) : Bool :=
  match sc with
  | .cell | .fold => false
  | .pasture => pastureOf cell == slice / 96
  | .package | .system => true

/-! ## Engine addresses (R312) -/

/-- An engine address in an engine command: a reserved space, a bit outside the fields, or a fold makes it illegal. -/
def parseEng (v : DWord) : Option EngAddr :=
  let x := v.toNat
  let a := x % 2 ^ 56
  if bitsOf x 60 56 != 0 then none
  else
    match bitsOf x 63 61 with
    | 0 => if bitsOf a 51 21 == 0 && bitsOf a 55 52 ≤ 11 then some ⟨0, 0, bitsOf a 55 52, bitsOf a 20 0⟩ else none
    | 1 => if bitsOf a 55 24 == 0 then some ⟨1, 0, 0, a⟩ else none
    | 2 => if bitsOf a 55 32 == 0 then some ⟨2, 0, 0, a⟩ else none
    | 3 => some ⟨3, 0, 0, a⟩
    | 4 => if bitsOf a 55 54 == 0 then some ⟨4, 0, bitsOf a 53 48, bitsOf a 47 0⟩ else none
    | 5 => if bitsOf a 51 6 == 0 && bitsOf a 55 52 ≤ 11 then some ⟨5, 0, bitsOf a 55 52, bitsOf a 5 0⟩ else none
    | _ => none

/-- An engine address in a queue packet: F carries its fold (R312, R324). -/
def parsePktAddr (v : DWord) : Option EngAddr :=
  let x := v.toNat
  let a := x % 2 ^ 56
  match bitsOf x 63 61 with
  | 1 => if bitsOf a 55 24 == 0 then some ⟨1, bitsOf x 60 56, 0, a⟩ else none
  | 2 => if bitsOf x 60 56 == 0 && bitsOf a 55 32 == 0 then some ⟨2, 0, 0, a⟩ else none
  | 3 => if bitsOf x 60 56 == 0 then some ⟨3, 0, 0, a⟩ else none
  | _ => none

/-- The register value of an engine address. -/
def EngAddr.word (e : EngAddr) : DWord :=
  BitVec.ofNat 64 (e.space * 2 ^ 61 + e.fold * 2 ^ 56 +
    (match e.space with
     | 0 | 5 => e.row * 2 ^ 52 + e.addr
     | 4 => e.row * 2 ^ 48 + e.addr
     | _ => e.addr))

/-- The configuration that a context holds on a cell, for its windows (R343). -/
def State.ctxEntry (s : State) (cell ctx : Nat) : Option UnitSt := (s.entriesOf cell).find? fun u => u.ctx == ctx

/-- Whether n bytes at an engine address lie in the legal bytes of their space (R229, R312, R343). M ranges are translated when
the engine performs them. Where the context holds no configuration on the row's cell it holds no window there (notes/assumptions/94.md), and
a slice that is not named with the fold gets no request (R21). Buffers are reached by engine commands, tiles are not. -/
def State.engInBounds (s : State) (cell entry ctx pad : Nat) (e : EngAddr) (n : Nat) : Bool :=
  let conf := (s.getU (Loc.key (.cell cell entry))).conf
  match e.space with
  | 0 =>
    let target := foldOf cell * 12 + e.row
    match s.ctxEntry target ctx with
    | some u => u.conf.lwin.1 ≤ e.addr && e.addr + n ≤ u.conf.lwin.2 && e.addr + n ≤ Config.lSize && s.tilesClear target e.addr n
    | none => false
  | 1 => conf.fwin.1 ≤ e.addr && e.addr + n ≤ conf.fwin.2 && e.addr + n ≤ Config.fUser
  | 2 =>
    e.addr + n ≤ 2 ^ 32 &&
      (n == 0 || ((List.range (sliceOfAddr (e.addr + n - 1) + 1 - sliceOfAddr e.addr)).all fun i =>
        (s.getPad pad).conf.slices.contains (sliceOfAddr e.addr + i) && (s.getPad pad).conf.namesPair (foldOf cell) (sliceOfAddr e.addr + i)) && bitsOf e.addr 29 22 ≤ 95 &&
          bitsOf (e.addr + n - 1) 29 22 ≤ 95 && e.addr / 2 ^ 30 == (e.addr + n - 1) / 2 ^ 30)
  | 4 =>
    match (s.getPad pad).eps[e.row]? with
    | some (_, ext) => bitOf ext 63 && e.addr + n ≤ ext % 2 ^ 48
    | none => false
  | _ => true

end Sys2Proof.Machine
end

