-- ==== Sys2Proof/Machine/Walk.lean ====
section
/-!
DEFINITION. Translation of M addresses (R353, R354) and page requests (R358).
-/

namespace Sys2Proof.Machine

/-- Fields of an entry (R353). -/
def pteAddr (e : Nat) : Nat := bitsOf e 51 8 * 256
def pteValid (e : Nat) : Bool := bitOf e 0
def pteLeaf (e : Nat) : Bool := bitOf e 1
def pteWrite (e : Nat) : Bool := bitOf e 2
def pteDescribed (e : Nat) : Bool := bitOf e 3
def pteExternal (e : Nat) : Bool := bitOf e 4
def pteMigrating (e : Nat) : Bool := bitOf e 5
def ptePoisoned (e : Nat) : Bool := bitOf e 6

/-- What a walk finds. -/
inductive WalkResult
  | leaf (phys entry entryAt pageSize : Nat)
  | notValid
  | malformed
  | lineError (cause : Nat)    -- the line of an entry fails its check
  deriving DecidableEq, Repr, Inhabited

/-- One level of the walk: the lowest index bit, the number of index bits, whether a leaf is legal here, the alignment of the
table below (0 where a table entry is malformed). -/
structure WalkLevel where
  shift : Nat
  bits : Nat
  leafOk : Bool
  nextAlign : Nat
  deriving DecidableEq, Repr, Inhabited

def walkLevels : List WalkLevel :=
  [⟨43, 13, false, 2 ^ 16⟩, ⟨30, 13, true, 2 ^ 12⟩, ⟨21, 9, true, 2 ^ 8⟩, ⟨16, 5, true, 0⟩]

/-- The walk from a table through the levels that are left. Entry lines take the checks of R372. -/
def walkFrom : List WalkLevel → State → Nat → Nat → State × WalkResult
  | [], s, _, _ => (s, .malformed)
  | l :: ls, s, table, va =>
    let at' := table + 8 * (va / 2 ^ l.shift % 2 ^ l.bits)
    let (s, bs, c) := s.checkedRead .m at' 8
    match c with
    | some c => (s, .lineError c)
    | none =>
      let e := ofBytes bs
      if bitsOf e 63 52 != 0 || bitOf e 7 then (s, .malformed)
      else if !pteValid e then (s, .notValid)
      else if pteLeaf e then
        if l.leafOk && pteAddr e % 2 ^ l.shift == 0 then (s, .leaf (pteAddr e + va % 2 ^ l.shift) e at' (2 ^ l.shift))
        else (s, .malformed)
      else if bitsOf e 6 2 != 0 || l.nextAlign == 0 || pteAddr e % l.nextAlign != 0 then (s, .malformed)
      else walkFrom ls s (pteAddr e) va

/-- Walks a 56-bit virtual address in a context. -/
def State.walk (s : State) (ctx va : Nat) : State × WalkResult := walkFrom walkLevels s (amGet s.ctxs ctx {}).root va

/-- The frames that the leaves below a table map: address, size, entry. -/
def leavesFrom (s : State) : List WalkLevel → Nat → List (Nat × Nat × Nat)
  | [], _ => []
  | l :: ls, table =>
    (List.range (2 ^ l.bits)).flatMap fun i =>
      let e := ofBytes (s.readMem .m (table + 8 * i) 8)
      if !pteValid e then []
      else if pteLeaf e then (if l.leafOk then [(pteAddr e, 2 ^ l.shift, e)] else [])
      else leavesFrom s ls (pteAddr e)

/-- The site of the memory link behind which an address of M stands. -/
def frameSite (pa : Nat) : Nat := memLinkSite (Config.frameLink (pa / 65536))

/-- Some page of a context that is not free stands in a frame behind a memory link. -/
def State.linkMapped (s : State) (link : Nat) : Bool :=
  s.ctxs.any fun (_, c) => c.st != .free && (leavesFrom s walkLevels c.root).any fun (a, n, _) =>
    (List.range (n / 65536)).any fun i => Config.frameLink (a / 65536 + i) == link

/-- A physical address lies in a page that holds described blocks (R353): the leaf of some context that maps it says so
(notes/assumptions/120.md). -/
def State.isDescribed (s : State) (pa : Nat) : Bool :=
  s.ctxs.any fun (_, c) => c.st != .free && (leavesFrom s walkLevels c.root).any fun (a, n, e) => pteDescribed e && a ≤ pa && pa < a + n

/-- The address of the page that an address lies in: the smallest page that a leaf maps, 64 KiB (R353), since an entry that is not valid gives
no size (notes/assumptions/93.md). -/
def pageOf (va : Nat) : Nat := va / 65536 * 65536

/-- Sends a page request, when one of the 512 indices is free (R358); answers its index. -/
def State.pageRequest (s : State) (r : PageReq) : State × Option Nat :=
  if s.prgs.length < 512 then
    ({ s with prgs := amPut s.prgs s.prgNext { r with va := pageOf r.va }, prgNext := s.prgNext + 1 }, some s.prgNext)
  else (s, none)

/-- SYSC PREFAULT (R352): translates and asks for the page if it is not mapped; waits for nothing and reports nothing. -/
def State.prefault (s : State) (ctx va : Nat) : State :=
  if va < 2 ^ 56 then
    let (s', r) := s.walk ctx va
    match r with
    | .notValid => (s'.pageRequest { ctx := ctx, gen := (amGet s.ctxs ctx {}).gen, va := va, node := 0xFFFF }).1
    | _ => s'
  else s

end Sys2Proof.Machine
end

