-- ==== Sys2Proof/Machine/Tokens.lean ====
section
/-!
DEFINITION. Sending tokens: consumers, ports, channels, sources and their commit tokens (R47, R55 to R59, R286, R287, R308,
R319, R321, R324), stream barriers (R310).
-/

namespace Sys2Proof

/-! ## Token kinds (R58) -/

def Token.isData (t : Token) : Bool := t.net != .control && t.kind == 0
def Token.isPred (t : Token) : Bool := t.net == .control && t.kind == 0
def Token.isCommit (t : Token) : Bool := t.net == .control && t.kind == 1
def Token.isFault (t : Token) : Bool := t.net != .control && t.kind == 3
/-- A token that only closes its stream: kind 0x4, or a control token of kind 0x5 (R67). -/
def Token.isClose (t : Token) : Bool := if t.net == .control then t.kind == 5 else t.kind == 4

def Fld.ofCode (f : BitVec 2) : Fld :=
  match f.toNat with
  | 0 => .l
  | 1 => .r
  | _ => .p

def Fld.code : Fld → Nat
  | .l => 0
  | .r => 1
  | .p => 2

/-- Mod-3 residues of the lanes of a vector payload, or of the 64-bit payload of a scalar token (R55, R56). -/
def laneResidues (net : Net) (payload : BitVec 512) : BitVec 32 :=
  match net with
  | .vector =>
    BitVec.ofNat 32 ((List.range 16).foldl (fun acc i =>
      acc + (Machine.residue3 (payload.toNat / 2 ^ (32 * i) % 2 ^ 32)).toNat * 4 ^ i) 0)
  | .scalar => (Machine.residue3 (payload.toNat % 2 ^ 64)).setWidth 32
  | .control => 0

def b2n (b : Bool) : Nat := if b then 1 else 0

/-- Bits [207:192] of a vector sideband, [147:132] of a scalar one (R55, R56). -/
def Token.flagBits (t : Token) : Nat :=
  b2n t.err * 2 ^ 15 + b2n t.exc * 2 ^ 14 + b2n t.close * 2 ^ 13 + b2n t.commit * 2 ^ 12 + b2n t.sat * 2 ^ 11 +
    b2n t.abort * 2 ^ 10 + t.cls % 8 * 2 ^ 7 + t.kind.toNat * 2 ^ 3

/-- A control token's bits [138:1] (R57). -/
def Token.controlBits (t : Token) : Nat :=
  (t.payload.toNat % 2) * 2 ^ 137 + t.kind.toNat * 2 ^ 133 + b2n t.err * 2 ^ 132 + t.cls % 8 * 2 ^ 129 + t.lo % 2 ^ 40 * 2 ^ 88 +
    t.hi % 2 ^ 40 * 2 ^ 48 + t.tag % 2 ^ 10 * 2 ^ 38 + t.seq % 2 ^ 24 * 2 ^ 14 + t.ctx % 64 * 2 ^ 8 + t.route % 256

/-- Even parity over bits [138:1]. -/
def Token.parityBit (t : Token) : Bool := Machine.popCount 138 t.controlBits % 2 == 1

/-- The bits of a token: payload in the low bits, the sideband above it (R55 to R57, R378). -/
def Token.bits (t : Token) : Nat :=
  match t.net with
  | .vector =>
    t.payload.toNat + 2 ^ 512 *
      (t.flagBits * 2 ^ 192 + t.valid.toNat * 2 ^ 176 + t.reset.toNat * 2 ^ 160 + t.lo % 2 ^ 40 * 2 ^ 120 +
        t.hi % 2 ^ 40 * 2 ^ 80 + t.tag % 2 ^ 10 * 2 ^ 70 + t.seq % 2 ^ 24 * 2 ^ 46 + t.ctx % 64 * 2 ^ 40 +
        t.route % 256 * 2 ^ 32 + t.residue.toNat)
  | .scalar =>
    t.payload.toNat % 2 ^ 64 + 2 ^ 64 *
      (t.flagBits * 2 ^ 132 + t.valid.toNat % 2 * 2 ^ 131 + t.reset.toNat % 2 * 2 ^ 130 + t.lo % 2 ^ 40 * 2 ^ 90 +
        t.hi % 2 ^ 40 * 2 ^ 50 + t.tag % 2 ^ 10 * 2 ^ 40 + t.seq % 2 ^ 24 * 2 ^ 16 + t.ctx % 64 * 2 ^ 10 +
        t.route % 256 * 2 ^ 2 + t.residue.toNat % 4)
  | .control => t.controlBits * 2 + b2n t.parity

/-- The flags of a sideband, over a token that has the other fields. -/
def Token.withFlags (t : Token) (x : Nat) : Token :=
  { t with
    err := Machine.bitOf x 15, exc := Machine.bitOf x 14, close := Machine.bitOf x 13, commit := Machine.bitOf x 12, sat := Machine.bitOf x 11
    abort := Machine.bitOf x 10, cls := Machine.bitsOf x 9 7, kind := BitVec.ofNat 4 (Machine.bitsOf x 6 3) }

/-- The token of a network that has these bits. -/
def Token.ofBits (net : Net) (n : Nat) : Token :=
  match net with
  | .vector =>
    let x := n / 2 ^ 512
    Token.withFlags
      { net := net, payload := BitVec.ofNat 512 n, valid := BitVec.ofNat 16 (x / 2 ^ 176), reset := BitVec.ofNat 16 (x / 2 ^ 160)
        lo := Machine.bitsOf x 159 120, hi := Machine.bitsOf x 119 80, tag := Machine.bitsOf x 79 70, seq := Machine.bitsOf x 69 46
        ctx := Machine.bitsOf x 45 40, route := Machine.bitsOf x 39 32, residue := BitVec.ofNat 32 x } (x / 2 ^ 192)
  | .scalar =>
    let x := n / 2 ^ 64
    Token.withFlags
      { net := net, payload := BitVec.ofNat 512 (n % 2 ^ 64), valid := BitVec.ofNat 16 (x / 2 ^ 131 % 2), reset := BitVec.ofNat 16 (x / 2 ^ 130 % 2)
        lo := Machine.bitsOf x 129 90, hi := Machine.bitsOf x 89 50, tag := Machine.bitsOf x 49 40, seq := Machine.bitsOf x 39 16
        ctx := Machine.bitsOf x 15 10, route := Machine.bitsOf x 9 2, residue := BitVec.ofNat 32 (x % 4) } (x / 2 ^ 132)
  | .control =>
    { net := net, payload := BitVec.ofNat 512 (n / 2 ^ 138 % 2), kind := BitVec.ofNat 4 (Machine.bitsOf n 137 134), err := Machine.bitOf n 133
      cls := Machine.bitsOf n 132 130, lo := Machine.bitsOf n 128 89, hi := Machine.bitsOf n 88 49, tag := Machine.bitsOf n 48 39
      seq := Machine.bitsOf n 38 15, ctx := Machine.bitsOf n 14 9, route := Machine.bitsOf n 8 1, parity := Machine.bitOf n 0 }

/-- A token with the check fields of its network formed from its bits. -/
def Token.sealed (t : Token) : Token :=
  { t with residue := laneResidues t.net t.payload, parity := if t.net == .control then t.parityBit else false }

/-! ## The hop CRC (R370) -/

/-- Bytes of a token on a link: 720, 212 or 139 bits (R55 to R57), padded to whole bytes. -/
def tokenBytes (t : Token) : List Byte :=
  Machine.toBytes (match t.net with
    | .vector => 90
    | .scalar => 27
    | .control => 18) t.bits

/-- The CRC-32C over a token as it is sent on a link. -/
def hopCrc (t : Token) : BitVec 32 := Machine.crc32c (tokenBytes t)

/-- What the first check of R370 finds. -/
def Hop.crcOk (h : Hop) : Bool := h.crc == hopCrc h.tok

end Sys2Proof

namespace Sys2Proof.Machine

/-- The control token of a commit (R57, R286): number, and the tag and sequence number of the last data token before it. -/
def commitToken (ctx c tag seq : Nat) : Token :=
  { net := .control, kind := 1, payload := 1, ctx := ctx, tag := tag, seq := seq, cnum := c }

/-! ## Switch words (R15, R53) -/

/-- The code of a network in a switch word. -/
def netCode : Net → Nat
  | .scalar => 0
  | .vector => 1
  | .control => 2

def swNet (w : BitVec 16) : Nat := bitsOf w.toNat 15 14
def swOut (w : BitVec 16) : Nat := bitsOf w.toNat 13 11
def swIn (w : BitVec 16) : Nat := bitsOf w.toNat 10 7
def swCls (w : BitVec 16) : Nat := bitsOf w.toNat 6 4
def swFork (w : BitVec 16) : Bool := bitOf w.toNat 3
def swJoin (w : BitVec 16) : Bool := bitOf w.toNat 2
def swPool (w : BitVec 16) : Nat := bitsOf w.toNat 1 0

/-- The words of a switch box that a class selects on a network. -/
def boxWords (ws : List (Nat × BitVec 16)) (site : Nat) (net : Net) (cls : Nat) : List (BitVec 16) :=
  (ws.filter fun x => x.1 == site && swNet x.2 == netCode net && swCls x.2 == cls).map (·.2)

/-- The words that a token takes which comes in by an input: those that route the input, and with a fork the other outputs of the class
that hold a word with fk set. -/
def takenWords (ws : List (Nat × BitVec 16)) (site : Nat) (net : Net) (cls inp : Nat) : List (BitVec 16) :=
  let all := boxWords ws site net cls
  if all.any fun w => swIn w == inp && swFork w then all.filter fun w => swIn w == inp || swFork w
  else all.filter fun w => swIn w == inp

/-- A word of the class table binds a route class at the site to a local link. -/
def bindsLink (ws : List (Nat × BitVec 16)) (site cls out : Nat) : Bool :=
  ws.any fun x => x.1 == site && swNet x.2 == 3 && swCls x.2 == cls && swOut x.2 == out

/-- Pasture, column x and row y of a site. -/
def sitePasture (site : Nat) : Nat := site / 2 ^ 14
def siteX (site : Nat) : Nat := site / 2 ^ 8 % 64
def siteY (site : Nat) : Nat := site % 16
def siteOf (d x y : Nat) : Nat := d * 2 ^ 14 + x * 2 ^ 8 + y

/-- Slice columns hold the router adders (R8, R12). -/
def hasAdder (site : Nat) : Bool := siteX site % 2 == 0

/-- The switch box at the other end of output N, E, S or W (R8, R14). At the edge of a pasture that is the facing box of the pasture beyond
the bridge (R7, R18; notes/assumptions/88.md). -/
def neighbour (site out : Nat) : Option Nat :=
  let (d, x, y) := (sitePasture site, siteX site, siteY site)
  match out with
  | 0 => if 0 < y then some (siteOf d x (y - 1)) else if 2 ≤ d then some (siteOf (d - 2) x 11) else none
  | 1 => if x < 15 then some (siteOf d (x + 1) y) else if d % 2 == 0 then some (siteOf (d + 1) 0 y) else none
  | 2 => if y < 11 then some (siteOf d x (y + 1)) else if d < 2 then some (siteOf (d + 2) x 0) else none
  | 3 => if 0 < x then some (siteOf d (x - 1) y) else if d % 2 == 1 then some (siteOf (d - 1) 15 y) else none
  | _ => none

/-- The input of the neighbour that an output leads to. -/
def facing (out : Nat) : Nat := (out + 2) % 4

/-- Boxes on the way, with their inputs. -/
def walkSteps (ws : List (Nat × BitVec 16)) (net : Net) (cls : Nat) : Nat → Nat → Nat → List (Nat × Nat)
  | 0, _, _ => []
  | n + 1, site, inp =>
    (site, inp) :: (takenWords ws site net cls inp).flatMap fun w =>
      if swJoin w || 4 ≤ swOut w then []
      else
        match neighbour site (swOut w) with
        | none => []
        | some next => walkSteps ws net cls n next (facing (swOut w))

/-- Boxes of a network of the package: no walk without a circle is longer. -/
def boxCount : Nat := 768

/-- The bridges on the way, as pairs of pastures. -/
def walkBridges (ws : List (Nat × BitVec 16)) (net : Net) (cls site inp : Nat) : List (Nat × Nat) :=
  (walkSteps ws net cls boxCount site inp).flatMap fun (x, i) =>
    (takenWords ws x net cls i).filterMap fun w =>
      if swJoin w then none
      else (neighbour x (swOut w)).bind fun next => if sitePasture next == sitePasture x then none else some (sitePasture x, sitePasture next)

/-- The local input by which output port n of a unit enters its switch box (R53). -/
def portInput (n : Nat) : Nat := 4 + n % 4

/-! ## Ways out -/

/-- The check fields of a token that leaves a slot, for a field of its cell or for a route: a control token's parity covers its route and class;
lanes keep the residues they carry (R148, R254). -/
def Token.leaving (t : Token) : Token := if t.net == .control then t.sealed else t

/-- A token enters the fabric on a route, at a switch box and by an input of it (R75, R370). A port that no route leaves sends nothing. -/
def State.emit (s : State) (site inp : Nat) (ends : List Dest) (r : Route) (t : Token) : State :=
  let ends := ends.filter fun d => d != .nowhere
  if ends.isEmpty then s
  else
    let t := Token.leaving { t with route := r.id, cls := r.cls }
    s.post (.switchTokenCheck { tok := t, ends := ends, crc := hopCrc t, routeWant := r.id, site := site, inp := inp })

/-- The step that a token takes where its route ends. -/
def arrivalAt (d : Dest) (t : Token) : Option Instr :=
  match d with
  | .field u slot f => some (if t.isCommit then .commitTokenArrival u slot f t else .tokenArrival u slot f t)
  | .trigger u c => some (.triggerArrival u c t)
  | .sink p k => some (.sinkRecord p k t)
  | .join p j side => some (.reductionJoin p j side t)
  | .root p b m => some (.streamBarrierArrival p b m t.seq)
  | .wave p u => some (if t.kind == 4 then .abortMark p u else .configCompleteWave p u)
  | .nowhere => none

/-- A token leaves by an output port, on every branch of its route. -/
def State.emitPort (s : State) (loc : Loc) (u : UnitConf) (port : Nat) (t : Token) : State :=
  s.emit loc.site (portInput port) (amGet u.ports port []) (amGet u.portRoute port {}) t

/-- A token goes to a consumer: a slot field of the same unit, or an output port (R47). -/
def State.emitConsumer (s : State) (loc : Loc) (u : UnitConf) (c : Consumer) (t : Token) : State :=
  if c.fld = 3 then s
  else if c.slot.toNat < 0x70 then
    match arrivalAt (.field loc c.slot.toNat (Fld.ofCode c.fld)) (Token.leaving t) with
    | some i => s.post i
    | none => s
  else s.emitPort loc u (c.slot.toNat - 0x70) t

/-! ## Channels (R308, R321) -/

/-- A channel's token leaves by the local link of its number modulo 4: the output port that the mapper assigns it is not recorded
(notes/assumptions/88.md). -/
def State.emitChan (s : State) (key n : Nat) (ch : ChanConf) (t : Token) : State :=
  s.emit (Loc.ofKey key).site (portInput n) [ch.dest] ch.route t

/-- The token that a SEND holds (R308). -/
def sendToken (f : Firing) (ch : ChanConf) (tag : Nat) (v : DWord) : Token :=
  Token.sealed
    { net := .scalar, kind := if ch.data then 0 else 2, payload := v.setWidth 512, valid := 1, lo := f.spanLo,
      hi := f.spanHi, tag := tag, ctx := f.ctx, cls := ch.cls }

/-- A held SEND leaves at FIN: it takes the next number of its channel and tag, and a data token after a commit carries the
commit flag (R287). -/
def State.sendChannel (s : State) (key chan : Nat) (t : Token) : State :=
  let u := s.getU key
  let ch := amGet u.conf.chans chan {}
  let n := amGet u.chanSeq (chan * 1024 + t.tag) 0
  let mark := ch.data && u.chanMark.contains chan
  let u := { u with
    chanSeq := amPut u.chanSeq (chan * 1024 + t.tag) ((n + 1) % 2 ^ 24)
    chanLast := if ch.data then amPut u.chanLast chan (t.tag, n) else u.chanLast
    chanMark := if ch.data then u.chanMark.filter (· != chan) else u.chanMark }
  (s.setU key u).emitChan key chan ch { t with seq := n, commit := mark }

/-- Channels that a COMMIT word names (R321). -/
def chansOf (v : DWord) : List Nat := (List.range 64).filter fun i => v.getLsbD i

/-- A COMMIT at FIN: a commit token on every named channel. -/
def State.commitChannels (s : State) (key handler : Nat) (v : DWord) : State :=
  let u := s.getU key
  let a := amGet u.actors handler {}
  let c := a.commits + 1
  let s := (chansOf v).foldl (fun s n =>
    let ch := amGet u.conf.chans n {}
    let (tag, seq) := amGet u.chanLast n (0, 0)
    s.emitChan key n ch (commitToken u.ctx c tag seq)) s
  let u := { u with
    actors := amPut u.actors handler { a with commits := c }
    chanMark := chansOf v ++ u.chanMark.filter fun n => !(chansOf v).contains n }
  s.setU key u

/-! ## Records (R88, R324) -/

/-- The 96 bytes that a sink writes for a token. -/
def recordBytes (t : Token) : List Byte :=
  toBytes 64 t.payload.toNat ++ toBytes 2 t.valid.toNat ++ toBytes 2 t.reset.toNat ++ toBytes 5 t.lo ++ toBytes 5 t.hi ++
    toBytes 3 t.seq ++ toBytes 2 t.tag ++
      [BitVec.ofNat 8 (b2n t.exc + 2 * b2n t.close + 4 * b2n t.sat + 8 * b2n t.commit)] ++ toBytes 12 0

/-- Bytes [hi:lo] of a record. -/
def recField (r : List Byte) (lo n : Nat) : Nat := ofBytes ((r.drop lo).take n)

/-- A record that only closes its stream (R324). -/
def recIsClose (r : List Byte) : Bool := recField r 64 2 == 0 && recField r 68 5 == recField r 73 5 && bitOf (recField r 83 1) 1

/-- Whether a record's span is one that a token may have (R319, R324). -/
def recSpanOk (r : List Byte) : Bool := recIsClose r || (recField r 68 5 < recField r 73 5 && recField r 68 5 ≤ 2 ^ 40 - 2)

/-- The token of a record: payload, masks, span, tag and flags come from it; the sequence number does not. -/
def recToken (r : List Byte) : Token :=
  let flags := recField r 83 1
  Token.sealed
    { kind := if recIsClose r then 4 else 0
      payload := BitVec.ofNat 512 (recField r 0 64)
      valid := BitVec.ofNat 16 (recField r 64 2)
      reset := BitVec.ofNat 16 (recField r 66 2)
      lo := recField r 68 5
      hi := recField r 73 5
      tag := recField r 81 2 % 1024
      exc := bitOf flags 0
      close := bitOf flags 1 && !recIsClose r
      sat := bitOf flags 2 }

/-! ## Sources (R286, R287, R319, R324) -/

def Conf.seed (c : Conf) (k : Nat) : SeedConf := (c.seeds[k]?).getD {}

/-- The switch box of a seed's port, where its tokens enter the fabric (R33, R138; notes/assumptions/88.md). -/
def SeedConf.site (c : SeedConf) : Nat :=
  match c.dest with
  | .field u _ _ | .trigger u _ => u.site
  | _ => 0

/-- A source sends a token of its stream and the commit tokens that follow it: after every COMMIT_N data tokens and at its
close; a close by itself is covered by a further commit. Its replay window keeps the token (R288). Numbers go on at 0 behind 2^24 − 1
(notes/assumptions/106.md). -/
def State.sourceSend (s : State) (pad k : Nat) (t : Token) : State :=
  let p := s.getPad pad
  let sc := p.conf.seed k
  let st := amGet p.seeds k {}
  let data := t.isData || t.kind == 2
  let t := { t with seq := st.next % 2 ^ 24, ctx := p.ctx, commit := data && st.markNext }
  let sent := if data then st.sent + 1 else st.sent
  let closes := t.close || t.isClose
  let group := data && sent % p.conf.commitN == 0
  let lastTag := if data then t.tag else st.lastTag
  let lastSeq := if data then t.seq else st.lastSeq
  let commits := if group || closes then st.commits + 1 else st.commits
  let st := { st with
    next := st.next + 1
    sent := sent
    commits := commits
    marks := if group || closes then amPut st.marks commits (st.next + 1, sent, lastTag) else st.marks
    closed := closes
    markNext := if group || closes then true else if data then false else st.markNext
    lastTag := lastTag
    lastSeq := lastSeq
    replay := st.replay ++ [(st.next, t)] }
  let s := (s.setPad pad { p with seeds := amPut p.seeds k st }).emit sc.site 9 [sc.dest] sc.route t
  if group || closes then s.emit sc.site 9 [sc.dest] sc.route (commitToken p.ctx commits lastTag lastSeq) else s

/-! ## Log ring (R352, R377) -/

/-- A new entry; a full ring drops and counts it. -/
def State.logAppend (s : State) (ctx : Nat) (e : LogEntry) : State :=
  let c := amGet s.ctxs ctx {}
  let c := if c.log.length < 4096 then { c with log := c.log ++ [e] }
    else { c with logDropped := c.logDropped + 1, logDroppedAll := c.logDroppedAll + 1 }
  { s with ctxs := amPut s.ctxs ctx c }

/-! ## Paddock barriers (R310) -/

/-- The place of a unit in its paddock's list. -/
def Pad.unitIndex (p : Pad) (loc : Loc) : Nat := p.conf.units.findIdx fun x => x.1 == loc

/-- An arrival at FIN sends a stream barrier up the tree, with the count of earlier arrivals as its generation, modulo 2^24 as a token holds it
(R57; notes/assumptions/106.md). -/
def State.arrive (s : State) (key n : Nat) : State :=
  let u := s.getU key
  let p := s.getPad u.pad
  let g := amGet u.arrivals n 0
  let s := s.setU key { u with arrivals := amPut u.arrivals n ((g + 1) % 2 ^ 24) }
  let loc := Loc.ofKey key
  s.emit loc.site (portInput n) [.root u.pad n (p.unitIndex loc)] (amGet p.conf.bars n {}).up
    { net := .control, kind := 3, payload := 1, tag := n, seq := g, ctx := u.ctx }

/-! ## Waves (R33, R277) -/

/-- The units of a paddock to which the broadcast tree leads from a fold's shepherd: it enters at the south end of its column, by input S. -/
def Conf.waveEnds (c : Conf) (fold : Nat) : List Loc :=
  let steps := walkSteps c.switches .control c.wave.cls boxCount (coreSite (384 + fold)) 2
  (c.units.map (·.1)).filter fun u => steps.any fun (x, i) =>
    x == u.site && (takenWords c.switches x .control c.wave.cls i).any fun w => !swJoin w && decide (4 ≤ swOut w)

/-- The shepherd of a fold sends a control token on the broadcast tree to units of its paddock. -/
def State.sendWave (s : State) (pad : Nat) (kind : BitVec 4) (fold : Nat) (to' : List Loc) : State :=
  let p := s.getPad pad
  s.emit (coreSite (384 + fold)) 2 (to'.map fun u => .wave pad u) p.conf.wave { net := .control, kind := kind, payload := 1, ctx := p.ctx }

/-- The shepherd of each fold sends a wave. -/
def State.sendWaves (s : State) (pad : Nat) (kind : BitVec 4) : State :=
  let c := (s.getPad pad).conf
  c.folds.foldl (fun s f => s.sendWave pad kind f (c.waveEnds f)) s

/-- The shepherds of a paddock send abort marks (R277). A replay sends none (notes/assumptions/67.md). -/
def State.abortMarks (s : State) (pad : Nat) : State := (s.sendWaves pad 4).checkQuiet pad

/-- A paddock that is being stopped is stopped for another reason. A replay has sent no abort marks yet. -/
def State.stopFor (s : State) (pad : Nat) (phase : PadPhase) : State :=
  let p := s.getPad pad
  let s' := s.setPad pad { p with phase := phase }
  if p.phase == .replaying then s'.abortMarks pad else s'.checkQuiet pad

end Sys2Proof.Machine
end

