-- ==== Sys2Proof/Machine/Fin.lean ====
section
/-!
DEFINITION. What a firing's FIN commits, in the order of R303, R211 and R310.
-/

namespace Sys2Proof.Machine

/-! ## 1. Stores -/

/-- A group leaves for its slice with a permit of pool 0 (R232, R268, R269). -/
def State.sendGroup (s : State) (g : SGroup) : State :=
  let s := (s.sliceRequest g.pad g.cell g.slice).takePermit g.pad (permitKey (foldOf g.cell) g.slice 0)
  { s with groups := s.groups ++ [g] }.post (.sliceReply g.cell g.slice)

/-- Adds a store to the groups being collected, one group for each slice. -/
def addToGroups (cell pad a : Nat) (bs : List Byte) : List SGroup → List SGroup
  | [] => [⟨cell, sliceOfAddr a, pad, [(a, bs)]⟩]
  | g :: gs => if g.slice = sliceOfAddr a then { g with stores := g.stores ++ [(a, bs)] } :: gs
      else g :: addToGroups cell pad a bs gs

/-- Commits held stores, oldest first: L and F stores at once, S stores into groups, one for each slice (R212); before a store that follows a
release over S, the groups of the slices in its scope arrive. A release whose scope has no slice of a group splits none. -/
def State.commitStores (cell pad : Nat) : List Held → List SGroup → State → State
  | [], gs, s => gs.foldl State.sendGroup s
  | .store .s a bs :: hs, gs, s => State.commitStores cell pad hs (addToGroups cell pad a bs gs) s
  | .store sp a bs :: hs, gs, s => State.commitStores cell pad hs gs (s.storeMem sp a bs)
  | .release spaces sc :: hs, gs, s =>
    if spaces.getLsbD 2 && hs.any fun h => match h with | .store .. => true | _ => false then
      let s := (gs.filter fun g => scopeSlice sc cell g.slice).foldl State.sendGroup s
      State.commitStores cell pad hs (gs.filter fun g => !scopeSlice sc cell g.slice) (s.deliver fun x => x.cell == cell && scopeSlice sc x.cell x.slice)
    else State.commitStores cell pad hs gs s
  | _ :: hs, gs, s => State.commitStores cell pad hs gs s

/-! ## 2. Buffer advances, tag operations, bindings, masks, tile entries -/

/-- Cells of a paddock that declare a buffer name. -/
def State.bufCells (s : State) (pad name : Nat) : List Nat :=
  (s.units.filter fun (key, u) => isCellKey key && u.live && u.pad == pad && u.conf.bufs.any fun (_, b) => b.name == name).map
    fun (key, _) => idxOf key

/-- Moves a pointer modulo 2³²; the cells that use the buffer look for runnable handlers. -/
def State.advance (s : State) (key b : Nat) (f : BufSt → BufSt) : State :=
  let u := s.getU key
  let name := (amGet u.conf.bufs b {}).name
  let s := s.updPad u.pad fun p => { p with bufs := amUpd p.bufs name {} f }
  (s.bufCells u.pad name).foldl (fun s c => s.post (.handlerSelect c)) s

/-- Allocates the tags that a firing took; with an inner space, each reserves the whole inner pool (R266). -/
def takeTags (u : UnitSt) (f : Firing) : UnitSt :=
  let inner := (amGet u.conf.actors f.handler {}).inner
  f.taken.foldl (fun u (sp, tag) =>
    let tags := amUpd u.tags sp {} fun t => { t with alloc := t.alloc ++ [tag] }
    let tags := match inner with
      | some m => amUpd tags m {} fun t => { t with holders := t.holders ++ [(sp, tag)] }
      | none => tags
    { u with tags := tags }) u

/-- Frees a tag, and its reservations of inner pools. -/
def freeTag (u : UnitSt) (sp tag : Nat) : UnitSt :=
  { u with
    tags := (amUpd u.tags sp {} fun t => { t with alloc := t.alloc.filter (· != tag) }).map fun (k, t) =>
      (k, { t with holders := t.holders.filter (· != (sp, tag)) }) }

/-- Writes word `sel` of a tile entry (R317): kcount of W0, or c0 and c1 of W2, of an acc tile; lo or hi of a plain tile. -/
def Tile.setWord (t : Tile) (sel : Nat) (v : DWord) : Tile :=
  match t.role, sel with
  | .acc, 0 => { t with kcount := bitsOf v.toNat 32 21 }
  | .acc, _ => { t with
      c0 := ⟨v.extractLsb' 17 7, v.extractLsb' 15 2⟩
      c1 := ⟨v.extractLsb' 8 7, v.extractLsb' 6 2⟩ }
  | .plain, 1 => { t with lo := bitsOf v.toNat 63 24 }
  | .plain, _ => { t with hi := bitsOf v.toNat 63 24 }
  | _, _ => t

/-- TSET at FIN: an acc tile that is not EMPTY takes the write when it next goes EMPTY. -/
def Tile.tset (t : Tile) (sel : Nat) (v : DWord) : Tile :=
  if t.role == .acc && t.st != .empty then { t with pendingSet := t.pendingSet ++ [(sel, v)] } else t.setWord sel v

/-- One effect of step 2. -/
def State.commitControl (s : State) (key : Nat) (f : Firing) : Held → State
  | .advp b n => s.advance key b fun p => { p with prod := (p.prod + n) % 2 ^ 32 }
  | .advc b n => s.advance key b fun p => { p with cons := (p.cons + n) % 2 ^ 32 }
  | .tagFree sp tag => s.updU key fun u => freeTag u sp tag
  | .bind c h => s.updU key fun u => { u with bound := amPut u.bound c h }
  | .mask m => s.updU key fun u => { u with masked := u.masked ||| m }
  | .unmask m => s.updU key fun u => { u with masked := u.masked &&& ~~~ m }
  | .tset t sel v => s.updU key fun u => { u with tiles := amUpd u.tiles t {} fun x => x.tset sel v }
  | .excClear =>
    let c := s.getCell (idxOf key)
    s.setCell (idxOf key) { c with excRec := amPut c.excRec f.ctx 0 }
  | _ => s

/-! ## 3. Engine commands -/

def queueKey (fold q : Nat) : Nat := fold * 16 + q

/-- Commands that a cell has issued to a queue of its fold and that have not completed. -/
def State.outstanding (s : State) (cell q : Nat) : List Nat :=
  ((amGet s.engines (queueKey (foldOf cell) q) []).filter fun e => e.cell == cell && e.pkt.isNone).map (·.id)

/-- A command enters its queue (R217), behind what QFENCE and M or H fences name for it (R214, R220). -/
def State.enqueue (s : State) (cell : Nat) (q : Nat) (c : EngCmd) : State :=
  let x := s.getCell cell
  let c := { c with id := s.engNext, cell := cell, deps := amGet x.qdeps q [] ++ x.engDeps }
  { s with
    engines := amUpd s.engines (queueKey (foldOf cell) q) [] (· ++ [c])
    engNext := s.engNext + 1 }.post (.engineOpStart (foldOf cell) q)

/-- One effect of step 3. -/
def State.commitEngine (s : State) (key : Nat) (f : Firing) : Held → State
  | .engine q op =>
    let commit := max ((amGet (s.getU key).actors f.handler {}).commits + 1) ((s.getPad f.pad).commit + 1)
    s.enqueue (idxOf key) q { id := 0, op := op, entry := f.entry, pad := f.pad, ctx := f.ctx, handler := f.handler, commit := commit }
  | .qfence q qs =>
    let cell := idxOf key
    let x := s.getCell cell
    let ids := qs.flatMap fun n => s.outstanding cell n
    s.setCell cell { x with qdeps := amPut x.qdeps q ((amGet x.qdeps q [] ++ ids).eraseDups) }
  | .engFence =>
    let cell := idxOf key
    let x := s.getCell cell
    s.setCell cell { x with engDeps := (List.range 16).flatMap fun n => s.outstanding cell n }
  | _ => s

/-! ## 4. Tokens, 5. arrivals and services -/

/-- What COMMIT records as the actor's snapshot (R321): its buffers' slots and pointers, its ranges, its cell's arrivals. -/
def State.snapshotActor (s : State) (key handler c : Nat) : SnapActor :=
  let u := s.getU key
  let p := s.getPad u.pad
  let cell := idxOf key
  let place (sp : Space) (a : Nat) : Nat := if sp == .l then lAddr cell a else fAddr (foldOf cell) a
  let carried := (amGet u.conf.actors handler {}).carried
  { commit := c, u := Loc.ofKey key, handler := handler
    bufs := carried.filterMap fun x =>
      match x with
      | .buf b => let n := (amGet u.conf.bufs b {}).name; some (n, amGet p.bufs n {})
      | _ => none
    ranges := carried.map fun x =>
      match x with
      | .buf b => let b := amGet u.conf.bufs b {}; (b.sp, place b.sp b.base, s.readMem b.sp (place b.sp b.base) b.size)
      | .lrange a n => (.l, place .l a, s.readMem .l (place .l a) n)
      | .frange a n => (.f, place .f a, s.readMem .f (place .f a) n)
    arrivals := u.arrivals, chanSeq := u.chanSeq, chanLast := u.chanLast, chanMark := u.chanMark, tags := u.tags
    bound := u.bound, masked := u.masked }

/-- One effect of step 4. -/
def State.commitTokens (s : State) (key : Nat) (f : Firing) : Held → State
  | .send ch t => s.sendChannel key ch t
  | .seed k t => s.sourceSend f.pad k t
  | .commitOn v =>
    let s := s.commitChannels key f.handler v
    let c := (amGet (s.getU key).actors f.handler {}).commits
    let x := s.snapshotActor key f.handler c
    s.updPad f.pad fun p => { p with snapActors := p.snapActors ++ [x] }
  | _ => s

/-- One effect after the tokens. -/
def State.commitServices (s : State) (key : Nat) (f : Firing) : Held → State
  | .pbar n => s.arrive key n
  | .log v => s.logAppend f.ctx { kind := 1, data := v, site := cellSite (idxOf key) }
  | .prefault va => s.prefault f.ctx va
  | .ckpt => s.updPad f.pad fun p => { p with ckpt := true }
  | _ => s

/-! ## FIN -/

/-- The firing commits and ends; FIRECNT counts it (R349). A firmware core holds nothing but stores. -/
def State.finCommit (s : State) : State :=
  let f := s.core.firing
  let cell := s.curCore
  let key := s.curUnitKey
  let s := State.commitStores cell f.pad f.held [] s
  if isFirmware cell then s.endFiring else
  let s := s.updU key fun u => takeTags u f
  let s := f.held.foldl (fun s h => s.commitControl key f h) s
  let s := f.held.foldl (fun s h => s.commitEngine key f h) s
  let s := f.held.foldl (fun s h => s.commitTokens key f h) s
  let s := f.held.foldl (fun s h => s.commitServices key f h) s
  let c := s.getCell cell
  (s.setCell cell { c with fireCnt := amUpd c.fireCnt f.ctx 0 (· + 1) }).endFiring

/-- Whether a held effect sends a token. -/
def Held.sends : Held → Bool
  | .send .. | .seed .. | .commitOn .. | .pbar .. => true
  | _ => false

/-- A FIN waits: its tokens find no room in the output ports (R303), or its stores no permit (R232). -/
def State.finWaits (s : State) : Bool :=
  let f := s.core.firing
  !isFirmware s.curCore && ((s.curUnit.outFull && f.held.any Held.sends) || f.held.any fun h =>
    match h with
    | .store .s a _ => s.sliceFull f.pad s.curCore (sliceOfAddr a)
    | _ => false)

/-- FIN; while it waits, its sequencer starts no other firing. The outside makes room in output ports; permits come back inside the package, and
it is looked at again. -/
def State.fin (s : State) : State :=
  if s.finWaits then
    let s' := s.setCore { s.core with finWait := true }
    if s.curUnit.outFull then s' else s'.post (.finPortRelease s.curCore)
  else s.finCommit

end Sys2Proof.Machine
end

