-- ==== Sys2Proof/Machine/LoadStore.lean ====
section
/-!
DEFINITION. Loads and stores of a firing (R229 to R232).
-/

namespace Sys2Proof.Machine

/-- Bytes of an access of size code sz. -/
def szBytes (sz : BitVec 2) : Nat := 2 ^ sz.toNat

/-- The address of a load or store (R229). -/
def memEa (base : DWord) (sz : BitVec 2) (off : BitVec 10) : DWord :=
  base + off.signExtend 64 * BitVec.ofNat 64 (szBytes sz)

/-- The address checks of R229, in their order; `ok` gets the address in the memory of the space. -/
def withAddr (s : State) (sp : Space) (ea : DWord) (n : Nat) (ok : Nat → WordEnd) : WordEnd :=
  if ea.toNat % n ≠ 0 then .trap .misaligned 0
  else
    match s.spaceAddr sp ea.toNat n with
    | none => .trap .spaceBounds 0
    | some a => ok a

/-- A firing sees what its cell committed to a slice at earlier FINs (R216); its request takes a permit, which the reply returns (R232). -/
def State.settleSlice (s : State) (sp : Space) (a : Nat) : State :=
  if sp == .s then
    (s.deliver fun g => g.cell == s.curCore && g.slice == sliceOfAddr a).sliceRequest s.core.firing.pad s.curCore (sliceOfAddr a)
  else s

/-- A load from S or an atomic there at address ea finds no permit that it can wait for: the firing waits without trapping (R232). -/
def State.waitsPermit (s : State) (ea : DWord) (n : Nat) : Bool :=
  match if ea.toNat % n == 0 then s.spaceAddr .s ea.toNat n else none with
  | some a => s.sliceFull s.core.firing.pad s.curCore (sliceOfAddr a)
  | none => false

/-- An armed store injection is spent on a read of L; the re-read absorbs it (R388). -/
def State.spendStoreInjection (s : State) (sp : Space) : State :=
  if sp == .l && s.core.errmask.getLsbD 5 then
    let k := s.core
    let s := s.setCore { k with errmask := k.errmask &&& ~~~ 32 }
    let c := s.getCell s.curCore
    s.setCell s.curCore { c with injectedCnt := c.injectedCnt + 1 }
  else s

/-- The bytes that a load of the running firing returns (R210), with the checks of the storing unit (R230): a load whose bytes
all come from held stores reads no memory. -/
def loadBytes (s : State) (sp : Space) (a n : Nat) : State × List Byte × Option Nat :=
  let held := s.core.firing.held
  let s := s.settleSlice sp a
  if (List.range n).all fun i => (heldByte sp (a + i) held).isSome then
    (s, mergeHeld sp held a (List.replicate n 0), none)
  else
    let (s, bs, c) := (s.spendStoreInjection sp).checkedRead sp a n
    (s, mergeHeld sp held a bs, c)

/-- The load of n bytes at memory address a into d, zero-extended. -/
def loadInto (s : State) (sp : Space) (d : RegNum) (ea : DWord) (a n : Nat) : WordEnd :=
  let (s, bs, c) := loadBytes s sp a n
  match c with
  | some c => .poison ea.toNat c s
  | none => .done (s.setCore (s.core.setReg d (BitVec.ofNat 64 (ofBytes bs))))

/-- A held store of the low n bytes of a value; the 257th entry traps (R231). -/
def holdStore (s : State) (sp : Space) (a n : Nat) (v : DWord) : WordEnd :=
  if s.core.firing.full then .trap .storeBufferFull 0
  else .done (s.hold (.store sp a (toBytes n v.toNat)))

def loadWord (s : State) (sp : Space) (d a : RegNum) (sz : BitVec 2) (off : BitVec 10) (g : Guard) : Out :=
  .next (runWord s g [a] [] true fun s =>
    let ea := memEa (s.core.reg a) sz off
    withAddr s sp ea (szBytes sz) fun x => loadInto s sp d ea x (szBytes sz))

def storeWord (s : State) (sp : Space) (d a : RegNum) (sz : BitVec 2) (off : BitVec 10) (g : Guard) : Out :=
  .next (runWord s g [a, d] [] true fun s =>
    let ea := memEa (s.core.reg a) sz off
    withAddr s sp ea (szBytes sz) fun x => holdStore s sp x (szBytes sz) (s.core.reg d))

def execLdl (d a : RegNum) (sz : BitVec 2) (off : BitVec 10) (g : Guard) (s : State) : Out := loadWord s .l d a sz off g
def execStl (d a : RegNum) (sz : BitVec 2) (off : BitVec 10) (g : Guard) (s : State) : Out := storeWord s .l d a sz off g
def execLdf (d a : RegNum) (sz : BitVec 2) (off : BitVec 10) (g : Guard) (s : State) : Out := loadWord s .f d a sz off g
def execStf (d a : RegNum) (sz : BitVec 2) (off : BitVec 10) (g : Guard) (s : State) : Out := storeWord s .f d a sz off g
def execLds (d a : RegNum) (sz : BitVec 2) (off : BitVec 10) (g : Guard) (s : State) : Out := loadWord s .s d a sz off g
def execSts (d a : RegNum) (sz : BitVec 2) (off : BitVec 10) (g : Guard) (s : State) : Out := storeWord s .s d a sz off g

end Sys2Proof.Machine
end

