-- ==== Sys2Proof/Machine/Launch.lean ====
section
/-!
DEFINITION. SEED and COMMIT (R319, R321).
-/

namespace Sys2Proof.Machine

/-- The place in a configuration of local seed k of a cell (R319). -/
def localSeed (c : Conf) (cell k : Nat) : Option Nat :=
  c.seeds.findIdx? fun x => x.loc && x.ofCell == cell && x.number == k

/-- A token of an input-port seed is a route-class packet of its class (R87). -/
def asSeedToken (sc : SeedConf) (t : Token) : Token :=
  match sc.cls with
  | some c => { t with kind := if t.kind == 0 then 2 else t.kind, cls := c }
  | none => t

/-- SEED reads its record at issue and holds the token for FIN. -/
def seedBody (s : State) (seed : Nat) (sc : SeedConf) (v : DWord) : WordEnd :=
  match parseEng v with
  | none => .trap .reservedField 0
  | some e =>
    if !(e.space == 1 || (e.space == 0 && e.row == rowOf s.curCore)) then .trap .reservedField 0
    else if e.addr % 32 ≠ 0 then .trap .misaligned 0
    else
      let sp : Space := if e.space == 0 then .l else .f
      match s.spaceAddr sp e.addr 96 with
      | none => .trap .spaceBounds 0
      | some a =>
        let (s, r, c) := loadBytes s sp a 96
        match c with
        | some c => .poison e.addr c s
        | none =>
          if bitOf (recField r 83 1) 3 || !recSpanOk r then .trap .reservedField 0
          else if s.core.firing.full then .trap .storeBufferFull 0
          else .done (s.hold (.seed seed (asSeedToken sc (recToken r))))

def execSeed (k : BitVec 4) (a : RegNum) (g : Guard) (s : State) : Out :=
  .next (runWord s g [a] [] true fun s =>
    let conf := (s.getPad s.core.firing.pad).conf
    match (if isFirmware s.curCore then none else localSeed conf s.curCore k.toNat) with
    | none => .trap .reservedField 0
    | some i => seedBody s i (conf.seed i) (s.core.reg a))

/-- COMMIT: every channel named must be a declared data channel. -/
def execCommit (a : RegNum) (g : Guard) (s : State) : Out :=
  .next (runWord s g [a] [] true fun s =>
    let v := s.core.reg a
    let ok := (chansOf v).all fun n =>
      match amGet? s.curUnit.conf.chans n with
      | some c => c.data
      | none => false
    if !ok then .trap .reservedField 0
    else if s.core.firing.full then .trap .storeBufferFull 0
    else .done (s.hold (.commitOn v)))

end Sys2Proof.Machine
end

