-- ==== Sys2Proof/Decode.lean ====
section
/-!
DEFINITION. Decoding of S-words (R36 to R42) and E-words (R47 to R52), and their encoder. A word that is no instruction is
rejected by name. The decoder of E-words reads the layout: operation code, rsvd bits and fixed fields; whether ty, md and
consumers are legal is CFGLD's check (R48) and stands in WellFormed.
-/

namespace Sys2Proof

/-- Why a word is no instruction (R38, R60). -/
inductive DecodeError
  | illegalOpcode                       -- reserved major opcode
  | reservedField (privileged : Bool)   -- reserved field; the word is HALT or a privileged MTS or not
  | unassigned                          -- E-word operation code that is not in the map (R52)
  | empty                               -- the zero word: EMPTY, a slot without an operation (R48, R52)
  | layout                              -- E-word with a rsvd bit set or a fixed field of another value
  deriving DecidableEq, Repr, Inhabited

/-! ## Codes -/

def Ty.code : Ty → BitVec 3
  | .f32 => 0
  | .f64 => 1
  | .bf16x2 => 2
  | .f16x2 => 3
  | .f8e4x4 => 4
  | .f8e5x4 => 5
  | .i32 => 6
  | .i8x4 => 7

def Ty.ofCode (b : BitVec 3) : Ty :=
  match b.toNat with
  | 0 => .f32
  | 1 => .f64
  | 2 => .bf16x2
  | 3 => .f16x2
  | 4 => .f8e4x4
  | 5 => .f8e5x4
  | 6 => .i32
  | _ => .i8x4

def Cond.code : Cond → BitVec 3
  | .eq => 0
  | .ne => 1
  | .lt => 2
  | .ge => 3
  | .ltn => 4
  | .gen => 5
  | .bits => 6
  | .nbits => 7

def Cond.ofCode (b : BitVec 3) : Cond :=
  match b.toNat with
  | 0 => .eq
  | 1 => .ne
  | 2 => .lt
  | 3 => .ge
  | 4 => .ltn
  | 5 => .gen
  | 6 => .bits
  | _ => .nbits

def CondI.code : CondI → BitVec 2
  | .eq => 0
  | .ne => 1
  | .lt => 2
  | .ge => 3

def CondI.ofCode (b : BitVec 2) : CondI :=
  match b.toNat with
  | 0 => .eq
  | 1 => .ne
  | 2 => .lt
  | _ => .ge

def AmoOp.code : AmoOp → BitVec 4
  | .add => 0
  | .min => 1
  | .max => 2
  | .minn => 3
  | .maxn => 4
  | .and => 5
  | .or => 6
  | .xor => 7
  | .xchg => 8
  | .cas => 9

def AmoOp.ofCode (b : BitVec 4) : Option AmoOp :=
  match b.toNat with
  | 0 => some .add
  | 1 => some .min
  | 2 => some .max
  | 3 => some .minn
  | 4 => some .maxn
  | 5 => some .and
  | 6 => some .or
  | 7 => some .xor
  | 8 => some .xchg
  | 9 => some .cas
  | _ => none

def FenceKind.code : FenceKind → BitVec 2
  | .acquire => 0
  | .release => 1
  | .full => 2

def FenceKind.ofCode (b : BitVec 2) : Option FenceKind :=
  match b.toNat with
  | 0 => some .acquire
  | 1 => some .release
  | 2 => some .full
  | _ => none

def Scope.code : Scope → BitVec 3
  | .cell => 0
  | .fold => 1
  | .pasture => 2
  | .package => 3
  | .system => 4

def Scope.ofCode (b : BitVec 3) : Option Scope :=
  match b.toNat with
  | 0 => some .cell
  | 1 => some .fold
  | 2 => some .pasture
  | 3 => some .package
  | 4 => some .system
  | _ => none

def CollOp.code : CollOp → BitVec 2
  | .bcast => 0
  | .reduce => 1
  | .allreduce => 2

def CollOp.ofCode (b : BitVec 2) : Option CollOp :=
  match b.toNat with
  | 0 => some .bcast
  | 1 => some .reduce
  | 2 => some .allreduce
  | _ => none

/-! ## Special-register indices and fixed bits -/

/-- MFS: the indices that name a register on some core (R349). -/
def mfsAssigned (idx : BitVec 12) : Bool := idx.toNat ≤ 0x00D || (0x800 ≤ idx.toNat && idx.toNat ≤ 0x805)

/-- MTS: the indices that name a register that some core may write (R349). -/
def mtsAssigned (idx : BitVec 12) : Bool :=
  idx == 0x005 || idx == 0x006 || idx == 0x00B || idx == 0x00C || idx == 0x800 || idx == 0x801 || idx == 0x802 ||
    idx == 0x805

/-- An MTS is privileged at a privileged index and at ERRMASK (R349). -/
def mtsPrivileged (idx : BitVec 12) : Bool := 0x800 ≤ idx.toNat || idx == 0x00B

/-- The bits that an E-word's operation fixes (R47 to R49 and the entries of the operations). -/
def Instr.layout : Instr → Bool
  | .vmin e => e.md &&& 13 == 0
  | .vmax e => e.md &&& 13 == 0
  | .vabs e => e.md &&& 13 == 0
  | .vneg e => e.md &&& 13 == 0
  | .vclass e => e.md == 0
  | .vshl e => e.md &&& 12 == 0
  | .vshr e => e.md &&& 12 == 0
  | .vsra e => e.md &&& 12 == 0
  | .vand e => e.md &&& 12 == 0
  | .vor e => e.md &&& 12 == 0
  | .vxor e => e.md &&& 12 == 0
  | .vclz e => e.md &&& 12 == 0
  | .vpopc e => e.md &&& 12 == 0
  | .vsel e => e.md &&& 14 == 0
  | .steer e => e.md &&& 14 == 0
  | .merge e => e.md &&& 14 == 0
  | .compact e => e.md &&& 14 == 0
  | .expand e => e.md &&& 14 == 0
  | .vmask e => e.md &&& 14 == 0
  | .vany e => e.md == 0
  | .vperm e => e.md &&& 14 == 0
  | .vrev e => e.md &&& 14 == 0
  | .zip e => e.md &&& 14 == 0
  | .unzip e => e.md &&& 14 == 0
  | .rsend e => e.ty == .f32 && e.md == 0 && e.c1 == ⟨0, 3⟩
  | .lrec e => e.md &&& 13 == 0
  | .ema e => e.md &&& 13 == 0
  | .fir e => e.md &&& 1 == 0
  | .segset e => e.md == 0
  | .carry e => e.md &&& 12 == 0
  | .span e => e.md == 0
  | .split e => e.md == 0
  | .delay e => e.md == 0
  | .close e => e.md == 0
  | .spanq e => e.md == 0
  | .coalesce e => e.md == 0
  | .mmab m => m.ty == .f32 && m.md &&& 13 == 1 && m.tyB == .f32 && m.tb == false
  | .mmaw m => m.md &&& 13 == 0 && m.tyB == .i8x4
  | .bmm4 e => e.ty == .f32
  | .tclr t => t.md &&& 14 == 0 && t.src == 0
  | .ttrn t => t.md &&& 14 == 0
  | .trow e => e.c0 == ⟨0, 3⟩ && e.c1 == ⟨0, 3⟩
  | .tfill t => t.md &&& 14 == 0 && t.src == 0
  | .tear e => e.md == 0 && e.c1 == ⟨0, 3⟩
  | .muster e => e.md &&& 1 == 0
  | .astr e => e.ty == .i32 && e.md == 0
  | .sbar e => e.md == 0
  | .xlate e => e.ty == .i32 && e.md &&& 1 == 0
  | .gate e => e.md &&& 14 == 0
  | .cand e => e.ty == .f32 && e.md == 0
  | .cor e => e.ty == .f32 && e.md == 0
  | _ => true

/-! ## Fields -/

abbrev fld (w : Word) (lo len : Nat) : BitVec len := w.extractLsb' lo len

/-- Guard of RR words. -/
def guardRR (w : Word) : Guard := ⟨fld w 8 3, fld w 7 1 = 1⟩
/-- Guard of RI and MEM words. -/
def guardRI (w : Word) : Guard := ⟨fld w 13 3, fld w 12 1 = 1⟩
/-- Guard of BR words. -/
def guardBR (w : Word) : Guard := ⟨fld w 23 3, fld w 22 1 = 1⟩
/-- Guard of ENG words. -/
def guardENG (w : Word) : Guard := ⟨fld w 9 3, fld w 8 1 = 1⟩

/-- A word whose rsvd fields must be zero. -/
def rsvdZero (ok : Bool) (i : Instr) : Except DecodeError Instr :=
  if ok then .ok i else .error (.reservedField false)

/-! ## S-words -/

/-- ALU family (R41, R123). -/
def decodeAlu (w : Word) : Except DecodeError Instr :=
  let d := fld w 21 5
  let a := fld w 16 5
  let b := fld w 11 5
  let g := guardRR w
  match (fld w 0 7).toNat with
  | 0 => .ok (.add d a b g)
  | 1 => .ok (.sub d a b g)
  | 2 => .ok (.and d a b g)
  | 3 => .ok (.or d a b g)
  | 4 => .ok (.xor d a b g)
  | 5 => .ok (.andn d a b g)
  | 6 => .ok (.shl d a b g)
  | 7 => .ok (.shr d a b g)
  | 8 => .ok (.sra d a b g)
  | 9 => .ok (.rol d a b g)
  | 10 => .ok (.ror d a b g)
  | 11 => .ok (.min d a b g)
  | 12 => .ok (.max d a b g)
  | 13 => .ok (.minn d a b g)
  | 14 => .ok (.maxn d a b g)
  | 15 => .ok (.sel d a b g)
  | 16 => rsvdZero (b == 0) (.clz d a g)
  | 17 => rsvdZero (b == 0) (.ctz d a g)
  | 18 => rsvdZero (b == 0) (.popc d a g)
  | 19 => rsvdZero (b == 0) (.sext8 d a g)
  | 20 => rsvdZero (b == 0) (.sext16 d a g)
  | 21 => rsvdZero (b == 0) (.sext32 d a g)
  | 22 => rsvdZero (b == 0) (.zext8 d a g)
  | 23 => rsvdZero (b == 0) (.zext16 d a g)
  | 24 => rsvdZero (b == 0) (.zext32 d a g)
  | 25 => rsvdZero (b == 0) (.mov d a g)
  | 26 => rsvdZero (b == 0) (.abs d a g)
  | 27 => rsvdZero (b == 0) (.neg d a g)
  | 28 => .ok (.addw d a b g)
  | 29 => .ok (.subw d a b g)
  | _ => .error (.reservedField false)

/-- MULDIV family (R41, R125). -/
def decodeMulDiv (w : Word) : Except DecodeError Instr :=
  let d := fld w 21 5
  let a := fld w 16 5
  let b := fld w 11 5
  let g := guardRR w
  match (fld w 0 7).toNat with
  | 0 => .ok (.mul d a b g)
  | 1 => .ok (.mulh d a b g)
  | 2 => .ok (.mulhn d a b g)
  | 3 => .ok (.div d a b g)
  | 4 => .ok (.divn d a b g)
  | 5 => .ok (.rem d a b g)
  | 6 => .ok (.remn d a b g)
  | 7 => .ok (.mulw d a b g)
  | _ => .error (.reservedField false)

/-- CMP (R129). -/
def decodeCmp (w : Word) : Except DecodeError Instr :=
  if fld w 24 2 = 0 ∧ fld w 3 4 = 0 then
    .ok (.cmp (Cond.ofCode (fld w 0 3)) (fld w 21 3) (fld w 16 5) (fld w 11 5) (guardRR w))
  else .error (.reservedField false)

/-- PRED family (R131). -/
def decodePred (w : Word) : Except DecodeError Instr :=
  let d := fld w 21 3
  let a := fld w 16 3
  let b := fld w 11 3
  let g := guardRR w
  let dz := fld w 24 2 == 0
  let az := fld w 19 2 == 0
  let bz := fld w 14 2 == 0
  match (fld w 0 7).toNat with
  | 0 => rsvdZero (dz && az && bz) (.pand d a b g)
  | 1 => rsvdZero (dz && az && bz) (.por d a b g)
  | 2 => rsvdZero (dz && az && bz) (.pxor d a b g)
  | 3 => rsvdZero (dz && az && bz) (.pandn d a b g)
  | 4 => rsvdZero (dz && az && fld w 11 5 == 0) (.pnot d a g)
  | 5 => rsvdZero (dz && az && fld w 11 5 == 0) (.pmov d a g)
  | 6 => rsvdZero (dz && fld w 11 10 == 0) (.pset d g)
  | 7 => rsvdZero (dz && fld w 11 10 == 0) (.pclr d g)
  | _ => .error (.reservedField false)

/-- An atomic (R42, R233): sz 00 and 01, operations 10 to 15 and a CAS with d = s31 are reserved. -/
def decodeAmo (w : Word) (k : AmoOp → RegNum → RegNum → Bool → BitVec 6 → Guard → Instr) : Except DecodeError Instr :=
  match AmoOp.ofCode (fld w 6 4) with
  | none => .error (.reservedField false)
  | some op =>
    rsvdZero (fld w 11 1 == 1 && !(op == .cas && fld w 21 5 == 31))
      (k op (fld w 21 5) (fld w 16 5) (fld w 10 1 == 1) (fld w 0 6) (guardRI w))

/-- FENCE (R42). -/
def decodeFence (w : Word) : Except DecodeError Instr :=
  match FenceKind.ofCode (fld w 5 2), Scope.ofCode (fld w 7 3) with
  | some k, some sc =>
    rsvdZero (fld w 16 10 == 0 && fld w 10 2 == 0) (.fence k (fld w 0 5) sc (guardRI w))
  | _, _ => .error (.reservedField false)

/-- COLL (R314). -/
def decodeColl (w : Word) : Except DecodeError Instr :=
  match CollOp.ofCode (fld w 0 2) with
  | some op => rsvdZero (fld w 2 6 == 0) (.coll (fld w 22 4) (fld w 17 5) (fld w 12 5) op (guardENG w))
  | none => .error (.reservedField false)

/-- SIGOP (R42, R316). -/
def decodeSigop (w : Word) : Except DecodeError Instr :=
  let q := fld w 22 4
  let a := fld w 17 5
  let b := fld w 12 5
  let g := guardENG w
  match (fld w 0 8).toNat with
  | 0 => .ok (.siginc q a b g)
  | 1 => .ok (.sigdec q a b g)
  | 2 => .ok (.sigset q a b g)
  | _ => .error (.reservedField false)

/-- MTS (R349, R351): a rsvd d or an index without a writable register is reserved, and the word is privileged or not. -/
def decodeMts (w : Word) : Except DecodeError Instr :=
  let idx := fld w 0 12
  if fld w 21 5 = 0 ∧ mtsAssigned idx = true then .ok (.mts idx (fld w 16 5) (guardRI w))
  else .error (.reservedField (mtsPrivileged idx))

/-- Decodes an S-word (R36 to R42). -/
def decodeS (w : Word) : Except DecodeError Instr :=
  let d := fld w 21 5
  let a := fld w 16 5
  let imm := fld w 0 12
  let gi := guardRI w
  let q := fld w 22 4
  let ea := fld w 17 5
  let eb := fld w 12 5
  let ge := guardENG w
  let sz := fld w 10 2
  let off := fld w 0 10
  match (fld w 26 6).toNat with
  | 0x00 => decodeAlu w
  | 0x01 => decodeMulDiv w
  | 0x02 => decodeCmp w
  | 0x03 => decodePred w
  | 0x04 => .ok (.addi d a imm gi)
  | 0x05 => .ok (.andi d a imm gi)
  | 0x06 => .ok (.ori d a imm gi)
  | 0x07 => .ok (.xori d a imm gi)
  | 0x08 => .ok (.shli d a imm gi)
  | 0x09 => .ok (.shri d a imm gi)
  | 0x0A => .ok (.srai d a imm gi)
  | 0x0B => .ok (.cmpi (CondI.ofCode (fld w 24 2)) (fld w 21 3) a imm gi)
  | 0x0C => .ok (.li d (fld w 0 21))
  | 0x0D => .ok (.lui d (fld w 0 21))
  | 0x0E => .ok (.luih d (fld w 0 21))
  | 0x0F => .ok (.muli d a imm gi)
  | 0x10 => .ok (.ldl d a sz off gi)
  | 0x11 => .ok (.stl d a sz off gi)
  | 0x12 => .ok (.ldf d a sz off gi)
  | 0x13 => .ok (.stf d a sz off gi)
  | 0x14 => .ok (.lds d a sz off gi)
  | 0x15 => .ok (.sts d a sz off gi)
  | 0x16 => decodeAmo w .amof
  | 0x17 => decodeAmo w .amos
  | 0x18 => decodeFence w
  | 0x1C => .ok (.br (fld w 0 22) (guardBR w))
  | 0x1D => .ok (.jal d (fld w 0 21))
  | 0x1E => rsvdZero (fld w 11 5 == 0 && fld w 0 7 == 0) (.jr d a (guardRR w))
  | 0x1F => rsvdZero (d == 0 && BitVec.slt 0 imm) (.loopn a imm gi)
  | 0x20 => rsvdZero (fld w 12 10 == 0 && fld w 0 8 != 0) (.advp q (fld w 0 8) ge)
  | 0x21 => rsvdZero (fld w 12 10 == 0 && fld w 0 8 != 0) (.advc q (fld w 0 8) ge)
  | 0x22 => .ok (.cbrd d a sz (fld w 6 4) (fld w 0 6) gi)
  | 0x23 => .ok (.cbwr d a sz (fld w 6 4) (fld w 0 6) gi)
  | 0x24 => rsvdZero (fld w 25 1 == 0 && fld w 0 8 == 0) (.send (fld w 22 3) ea eb ge)
  | 0x25 => rsvdZero (fld w 25 1 == 0 && fld w 21 1 == 0 && fld w 12 5 == 0 && fld w 0 8 == 0)
      (.bind (fld w 22 3) (fld w 17 4) ge)
  | 0x26 => rsvdZero (fld w 12 14 == 0) (.hmask (fld w 0 8) ge)
  | 0x27 => rsvdZero (fld w 12 14 == 0) (.hunmask (fld w 0 8) ge)
  | 0x28 => rsvdZero (a == 0 && fld w 4 8 == 0) (.taga d (fld w 0 4) gi)
  | 0x29 => rsvdZero (a == 0 && fld w 4 8 == 0) (.tagf d (fld w 0 4) gi)
  | 0x2A => rsvdZero (fld w 1 7 == 0) (.cpy q ea eb (fld w 0 1 == 1) ge)
  | 0x2B => rsvdZero (fld w 0 8 == 0) (.gath q ea eb ge)
  | 0x2C => rsvdZero (fld w 0 8 == 0) (.scat q ea eb ge)
  | 0x2D => decodeColl w
  | 0x2E => rsvdZero (fld w 12 10 == 0) (.qfence q (fld w 0 8) ge)
  | 0x2F => decodeSigop w
  | 0x30 => rsvdZero (q == 0 && fld w 0 8 == 0) (.tset ea eb ge)
  | 0x31 => rsvdZero (q == 0 && fld w 0 8 == 0) (.tqry ea eb ge)
  | 0x34 => rsvdZero (fld w 4 4 == 0) (.cfgld q ea eb (fld w 0 4) ge)
  | 0x35 => rsvdZero (fld w 12 5 == 0 && fld w 0 8 == 0) (.seed q ea ge)
  | 0x36 => rsvdZero (fld w 0 8 == 0) (.enq q ea eb ge)
  | 0x37 => rsvdZero (q == 0 && fld w 12 5 == 0 && fld w 0 8 == 0) (.commit ea ge)
  | 0x38 => rsvdZero (a == 0 && mfsAssigned imm) (.mfs d imm gi)
  | 0x39 => decodeMts w
  | 0x3A => rsvdZero (a == 0) (.sysc d imm gi)
  | 0x3B => rsvdZero (a == 0) (.trap d imm gi)
  | 0x3C => rsvdZero (fld w 16 10 == 0) (.brk imm gi)
  | 0x3D => rsvdZero (fld w 16 10 == 0 && imm == 0) (.fin gi)
  | 0x3E => rsvdZero (fld w 16 10 == 0 && imm == 0) (.ckpt gi)
  | 0x3F => if fld w 16 10 = 0 ∧ imm = 0 then .ok (.halt gi) else .error (.reservedField true)
  | _ => .error .illegalOpcode

/-! ## E-words -/

/-- A consumer field (R47). -/
def Consumer.ofCode (b : BitVec 9) : Consumer := ⟨b.extractLsb' 2 7, b.extractLsb' 0 2⟩

/-- The ordinary layout (R47). -/
def ewOf (w : Word) : EW := ⟨Ty.ofCode (fld w 22 3), fld w 18 4, Consumer.ofCode (fld w 9 9), Consumer.ofCode (fld w 0 9)⟩

/-- The matrix layout (R49). -/
def matOf (w : Word) : MatW :=
  ⟨Ty.ofCode (fld w 22 3), fld w 18 4, fld w 15 3, fld w 12 3, fld w 6 6, Ty.ofCode (fld w 3 3), fld w 2 1 == 1,
    fld w 1 1 == 1, fld w 0 1 == 1⟩

/-- The tile layout (R49). -/
def tileOf (w : Word) : TileW := ⟨Ty.ofCode (fld w 22 3), fld w 18 4, fld w 12 6, fld w 6 6, Ty.ofCode (fld w 3 3)⟩

/-- An E-word is an instruction when the bits that its operation fixes have their values. -/
def layoutOk (i : Instr) : Except DecodeError Instr := if i.layout then .ok i else .error .layout

/-- Decodes an E-word (R47 to R52). -/
def decodeE (w : Word) : Except DecodeError Instr :=
  match (fld w 25 7).toNat with
  | 0x00 => .error (if w == 0 then .empty else .unassigned)
  | 0x01 => layoutOk (.vadd (ewOf w))
  | 0x02 => layoutOk (.vsub (ewOf w))
  | 0x03 => layoutOk (.vmul (ewOf w))
  | 0x04 => layoutOk (.vmac (ewOf w))
  | 0x05 => layoutOk (.vfmak (ewOf w))
  | 0x06 => layoutOk (.vmin (ewOf w))
  | 0x07 => layoutOk (.vmax (ewOf w))
  | 0x08 => layoutOk (.vabs (ewOf w))
  | 0x09 => layoutOk (.vneg (ewOf w))
  | 0x0A => layoutOk (.vrcp (ewOf w))
  | 0x0B => layoutOk (.vrsq (ewOf w))
  | 0x0C => layoutOk (.vsqrt (ewOf w))
  | 0x0D => layoutOk (.vdiv (ewOf w))
  | 0x0E => layoutOk (.vexp2 (ewOf w))
  | 0x0F => layoutOk (.vlog2 (ewOf w))
  | 0x10 => layoutOk (.vtanh (ewOf w))
  | 0x11 => layoutOk (.vsig (ewOf w))
  | 0x12 => layoutOk (.vcvt (ewOf w))
  | 0x13 => layoutOk (.vround (ewOf w))
  | 0x14 => layoutOk (.vclass (ewOf w))
  | 0x20 => layoutOk (.viadd (ewOf w))
  | 0x21 => layoutOk (.visub (ewOf w))
  | 0x22 => layoutOk (.vimul (ewOf w))
  | 0x23 => layoutOk (.vimac (ewOf w))
  | 0x24 => layoutOk (.vshl (ewOf w))
  | 0x25 => layoutOk (.vshr (ewOf w))
  | 0x26 => layoutOk (.vsra (ewOf w))
  | 0x27 => layoutOk (.vand (ewOf w))
  | 0x28 => layoutOk (.vor (ewOf w))
  | 0x29 => layoutOk (.vxor (ewOf w))
  | 0x2A => layoutOk (.vimin (ewOf w))
  | 0x2B => layoutOk (.vimax (ewOf w))
  | 0x2C => layoutOk (.vclz (ewOf w))
  | 0x2D => layoutOk (.vpopc (ewOf w))
  | 0x2E => layoutOk (.viabs (ewOf w))
  | 0x2F => layoutOk (.vmulh (ewOf w))
  | 0x30 => layoutOk (.vcmp (ewOf w))
  | 0x31 => layoutOk (.vsel (ewOf w))
  | 0x32 => layoutOk (.steer (ewOf w))
  | 0x33 => layoutOk (.merge (ewOf w))
  | 0x34 => layoutOk (.compact (ewOf w))
  | 0x35 => layoutOk (.expand (ewOf w))
  | 0x36 => layoutOk (.vmask (ewOf w))
  | 0x37 => layoutOk (.vany (ewOf w))
  | 0x38 => layoutOk (.vperm (ewOf w))
  | 0x39 => layoutOk (.vbcast (ewOf w))
  | 0x3A => layoutOk (.vrev (ewOf w))
  | 0x3B => layoutOk (.vextr (ewOf w))
  | 0x3C => layoutOk (.vins (ewOf w))
  | 0x3D => layoutOk (.zip (ewOf w))
  | 0x3E => layoutOk (.unzip (ewOf w))
  | 0x3F => layoutOk (.vlshift (ewOf w))
  | 0x40 => layoutOk (.vred (ewOf w))
  | 0x41 => layoutOk (.rsend (ewOf w))
  | 0x42 => layoutOk (.scan (ewOf w))
  | 0x43 => layoutOk (.lrec (ewOf w))
  | 0x44 => layoutOk (.ema (ewOf w))
  | 0x45 => layoutOk (.fir (ewOf w))
  | 0x46 => layoutOk (.segset (ewOf w))
  | 0x47 => layoutOk (.carry (ewOf w))
  | 0x48 => layoutOk (.span (ewOf w))
  | 0x49 => layoutOk (.split (ewOf w))
  | 0x4A => layoutOk (.delay (ewOf w))
  | 0x4B => layoutOk (.window (ewOf w))
  | 0x4C => layoutOk (.close (ewOf w))
  | 0x4D => layoutOk (.spanq (ewOf w))
  | 0x4E => layoutOk (.coalesce (ewOf w))
  | 0x50 => layoutOk (.mma (matOf w))
  | 0x51 => layoutOk (.mmab (matOf w))
  | 0x52 => layoutOk (.mmaw (matOf w))
  | 0x53 => layoutOk (.bmm4 (ewOf w))
  | 0x54 => if fld w 0 3 = 0 then layoutOk (.tclr (tileOf w)) else .error .layout
  | 0x55 => if fld w 0 3 = 0 then layoutOk (.tcvt (tileOf w)) else .error .layout
  | 0x56 => if fld w 0 3 = 0 then layoutOk (.ttrn (tileOf w)) else .error .layout
  | 0x57 => layoutOk (.trow (ewOf w))
  | 0x58 => if fld w 0 3 = 0 then layoutOk (.tfill (tileOf w)) else .error .layout
  | 0x60 => layoutOk (.tear (ewOf w))
  | 0x61 => layoutOk (.muster (ewOf w))
  | 0x68 => layoutOk (.astr (ewOf w))
  | 0x69 => layoutOk (.ldn (ewOf w))
  | 0x6A => layoutOk (.stn (ewOf w))
  | 0x6B => layoutOk (.updn (ewOf w))
  | 0x6C => layoutOk (.ldsc (ewOf w))
  | 0x6D => layoutOk (.stsc (ewOf w))
  | 0x6E => layoutOk (.sbar (ewOf w))
  | 0x6F => layoutOk (.xlate (ewOf w))
  | 0x70 => layoutOk (.gate (ewOf w))
  | 0x71 => layoutOk (.cand (ewOf w))
  | 0x72 => layoutOk (.cor (ewOf w))
  | _ => .error .unassigned

/-! ## Either kind of word -/

/-- A 32-bit word read as an S-word, and, where it is none, as an E-word (notes/assumptions/1.md: the two kinds of word share their bit
patterns, and only the store they stand in tells them apart). -/
def decodeWord (w : Word) : Except DecodeError Instr :=
  match decodeS w with
  | .ok i => .ok i
  | .error _ => decodeE w

/-- Words are stored little-endian (R34). -/
def wordOfBytes : List Byte → Option (Word × List Byte)
  | b0 :: b1 :: b2 :: b3 :: rest => some (b3 ++ b2 ++ b1 ++ b0, rest)
  | _ => none

def bytesOfWord (w : Word) : List Byte :=
  [w.extractLsb' 0 8, w.extractLsb' 8 8, w.extractLsb' 16 8, w.extractLsb' 24 8]

/-- Decodes the first word of a list of bytes; answers the bytes after it. -/
def decode (bs : List Byte) : Option (Except DecodeError Instr × List Byte) :=
  match wordOfBytes bs with
  | some (w, rest) => some (decodeWord w, rest)
  | none => none

def decodeTableWord (nbits w : Nat) : Option Instr :=
  match decode (bytesOfWord (BitVec.ofNat 32 (w % 2 ^ nbits))) with
  | some (.ok i, _) => some i
  | _ => none

/-! ## The encoder -/

def encGuard (g : Guard) : BitVec 4 := g.p ++ BitVec.ofBool g.neg

def encRR (op : BitVec 6) (d a b : BitVec 5) (g : Guard) (fn : BitVec 7) : Word :=
  op ++ d ++ a ++ b ++ encGuard g ++ fn
def encRI (op : BitVec 6) (d a : BitVec 5) (g : Guard) (imm : BitVec 12) : Word :=
  op ++ d ++ a ++ encGuard g ++ imm
def encLI (op : BitVec 6) (d : BitVec 5) (imm : BitVec 21) : Word := op ++ d ++ imm
def encBR (op : BitVec 6) (g : Guard) (off : BitVec 22) : Word := op ++ encGuard g ++ off
def encMEM (op : BitVec 6) (d a : BitVec 5) (g : Guard) (sz : BitVec 2) (off : BitVec 10) : Word :=
  op ++ d ++ a ++ encGuard g ++ sz ++ off
def encENG (op : BitVec 6) (q : BitVec 4) (a b : BitVec 5) (g : Guard) (fn : BitVec 8) : Word :=
  op ++ q ++ a ++ b ++ encGuard g ++ fn
def encConsumer (c : Consumer) : BitVec 9 := c.slot ++ c.fld
def encEW (op : BitVec 7) (e : EW) : Word := op ++ e.ty.code ++ e.md ++ encConsumer e.c0 ++ encConsumer e.c1
def encMat (op : BitVec 7) (m : MatW) : Word :=
  op ++ m.ty.code ++ m.md ++ m.ringA ++ m.ringB ++ m.acc ++ m.tyB.code ++ BitVec.ofBool m.ac ++ BitVec.ofBool m.tb ++
    BitVec.ofBool m.em
def encTile (op : BitVec 7) (t : TileW) : Word := op ++ t.ty.code ++ t.md ++ t.src ++ t.dst ++ t.tyD.code ++ (0 : BitVec 3)

/-- A predicate number in a register field. -/
def pField (p : PredNum) : BitVec 5 := (0 : BitVec 2) ++ p

/-- The word of an S-word. -/
def encodeS : Instr → Option Word
  | .add d a b g => some (encRR 0 d a b g 0)
  | .sub d a b g => some (encRR 0 d a b g 1)
  | .and d a b g => some (encRR 0 d a b g 2)
  | .or d a b g => some (encRR 0 d a b g 3)
  | .xor d a b g => some (encRR 0 d a b g 4)
  | .andn d a b g => some (encRR 0 d a b g 5)
  | .shl d a b g => some (encRR 0 d a b g 6)
  | .shr d a b g => some (encRR 0 d a b g 7)
  | .sra d a b g => some (encRR 0 d a b g 8)
  | .rol d a b g => some (encRR 0 d a b g 9)
  | .ror d a b g => some (encRR 0 d a b g 10)
  | .min d a b g => some (encRR 0 d a b g 11)
  | .max d a b g => some (encRR 0 d a b g 12)
  | .minn d a b g => some (encRR 0 d a b g 13)
  | .maxn d a b g => some (encRR 0 d a b g 14)
  | .sel d a b g => some (encRR 0 d a b g 15)
  | .clz d a g => some (encRR 0 d a 0 g 16)
  | .ctz d a g => some (encRR 0 d a 0 g 17)
  | .popc d a g => some (encRR 0 d a 0 g 18)
  | .sext8 d a g => some (encRR 0 d a 0 g 19)
  | .sext16 d a g => some (encRR 0 d a 0 g 20)
  | .sext32 d a g => some (encRR 0 d a 0 g 21)
  | .zext8 d a g => some (encRR 0 d a 0 g 22)
  | .zext16 d a g => some (encRR 0 d a 0 g 23)
  | .zext32 d a g => some (encRR 0 d a 0 g 24)
  | .mov d a g => some (encRR 0 d a 0 g 25)
  | .abs d a g => some (encRR 0 d a 0 g 26)
  | .neg d a g => some (encRR 0 d a 0 g 27)
  | .addw d a b g => some (encRR 0 d a b g 28)
  | .subw d a b g => some (encRR 0 d a b g 29)
  | .mul d a b g => some (encRR 1 d a b g 0)
  | .mulh d a b g => some (encRR 1 d a b g 1)
  | .mulhn d a b g => some (encRR 1 d a b g 2)
  | .div d a b g => some (encRR 1 d a b g 3)
  | .divn d a b g => some (encRR 1 d a b g 4)
  | .rem d a b g => some (encRR 1 d a b g 5)
  | .remn d a b g => some (encRR 1 d a b g 6)
  | .mulw d a b g => some (encRR 1 d a b g 7)
  | .cmp c pd a b g => some (encRR 2 (pField pd) a b g ((0 : BitVec 4) ++ c.code))
  | .cmpi c pd a imm g => some (encRI 0x0B (c.code ++ pd) a g imm)
  | .pand pd pa pb g => some (encRR 3 (pField pd) (pField pa) (pField pb) g 0)
  | .por pd pa pb g => some (encRR 3 (pField pd) (pField pa) (pField pb) g 1)
  | .pxor pd pa pb g => some (encRR 3 (pField pd) (pField pa) (pField pb) g 2)
  | .pandn pd pa pb g => some (encRR 3 (pField pd) (pField pa) (pField pb) g 3)
  | .pnot pd pa g => some (encRR 3 (pField pd) (pField pa) 0 g 4)
  | .pmov pd pa g => some (encRR 3 (pField pd) (pField pa) 0 g 5)
  | .pset pd g => some (encRR 3 (pField pd) 0 0 g 6)
  | .pclr pd g => some (encRR 3 (pField pd) 0 0 g 7)
  | .addi d a imm g => some (encRI 0x04 d a g imm)
  | .andi d a imm g => some (encRI 0x05 d a g imm)
  | .ori d a imm g => some (encRI 0x06 d a g imm)
  | .xori d a imm g => some (encRI 0x07 d a g imm)
  | .shli d a imm g => some (encRI 0x08 d a g imm)
  | .shri d a imm g => some (encRI 0x09 d a g imm)
  | .srai d a imm g => some (encRI 0x0A d a g imm)
  | .muli d a imm g => some (encRI 0x0F d a g imm)
  | .li d imm => some (encLI 0x0C d imm)
  | .lui d imm => some (encLI 0x0D d imm)
  | .luih d imm => some (encLI 0x0E d imm)
  | .ldl d a sz off g => some (encMEM 0x10 d a g sz off)
  | .stl d a sz off g => some (encMEM 0x11 d a g sz off)
  | .ldf d a sz off g => some (encMEM 0x12 d a g sz off)
  | .stf d a sz off g => some (encMEM 0x13 d a g sz off)
  | .lds d a sz off g => some (encMEM 0x14 d a g sz off)
  | .sts d a sz off g => some (encMEM 0x15 d a g sz off)
  | .amof op d a dbl off g => some (encMEM 0x16 d a g ((1 : BitVec 1) ++ BitVec.ofBool dbl) (op.code ++ off))
  | .amos op d a dbl off g => some (encMEM 0x17 d a g ((1 : BitVec 1) ++ BitVec.ofBool dbl) (op.code ++ off))
  | .fence k sp sc g => some (encRI 0x18 0 0 g ((0 : BitVec 2) ++ sc.code ++ k.code ++ sp))
  | .br off g => some (encBR 0x1C g off)
  | .jal d off => some (encLI 0x1D d off)
  | .jr d a g => some (encRR 0x1E d a 0 g 0)
  | .loopn a len g => some (encRI 0x1F 0 a g len)
  | .advp b n g => some (encENG 0x20 b 0 0 g n)
  | .advc b n g => some (encENG 0x21 b 0 0 g n)
  | .cbrd d a sz b slot g => some (encMEM 0x22 d a g sz (b ++ slot))
  | .cbwr d a sz b slot g => some (encMEM 0x23 d a g sz (b ++ slot))
  | .send c a b g => some (encENG 0x24 ((0 : BitVec 1) ++ c) a b g 0)
  | .bind c h g => some (encENG 0x25 ((0 : BitVec 1) ++ c) ((0 : BitVec 1) ++ h) 0 g 0)
  | .hmask m g => some (encENG 0x26 0 0 0 g m)
  | .hunmask m g => some (encENG 0x27 0 0 0 g m)
  | .taga d sp g => some (encRI 0x28 d 0 g ((0 : BitVec 8) ++ sp))
  | .tagf d sp g => some (encRI 0x29 d 0 g ((0 : BitVec 8) ++ sp))
  | .cpy q a b clr g => some (encENG 0x2A q a b g ((0 : BitVec 7) ++ BitVec.ofBool clr))
  | .gath q a b g => some (encENG 0x2B q a b g 0)
  | .scat q a b g => some (encENG 0x2C q a b g 0)
  | .coll q a b op g => some (encENG 0x2D q a b g ((0 : BitVec 6) ++ op.code))
  | .qfence q m g => some (encENG 0x2E q 0 0 g m)
  | .siginc q a b g => some (encENG 0x2F q a b g 0)
  | .sigdec q a b g => some (encENG 0x2F q a b g 1)
  | .sigset q a b g => some (encENG 0x2F q a b g 2)
  | .tset a b g => some (encENG 0x30 0 a b g 0)
  | .tqry a b g => some (encENG 0x31 0 a b g 0)
  | .cfgld e a b row g => some (encENG 0x34 e a b g ((0 : BitVec 4) ++ row))
  | .seed k a g => some (encENG 0x35 k a 0 g 0)
  | .enq q a b g => some (encENG 0x36 q a b g 0)
  | .commit a g => some (encENG 0x37 0 a 0 g 0)
  | .mfs d idx g => some (encRI 0x38 d 0 g idx)
  | .mts idx a g => some (encRI 0x39 0 a g idx)
  | .sysc d svc g => some (encRI 0x3A d 0 g svc)
  | .trap d code g => some (encRI 0x3B d 0 g code)
  | .brk code g => some (encRI 0x3C 0 0 g code)
  | .fin g => some (encRI 0x3D 0 0 g 0)
  | .ckpt g => some (encRI 0x3E 0 0 g 0)
  | .halt g => some (encRI 0x3F 0 0 g 0)
  | _ => none

/-- The word of an E-word. -/
def encodeE : Instr → Option Word
  | .vadd e => some (encEW 0x01 e)
  | .vsub e => some (encEW 0x02 e)
  | .vmul e => some (encEW 0x03 e)
  | .vmac e => some (encEW 0x04 e)
  | .vfmak e => some (encEW 0x05 e)
  | .vmin e => some (encEW 0x06 e)
  | .vmax e => some (encEW 0x07 e)
  | .vabs e => some (encEW 0x08 e)
  | .vneg e => some (encEW 0x09 e)
  | .vrcp e => some (encEW 0x0A e)
  | .vrsq e => some (encEW 0x0B e)
  | .vsqrt e => some (encEW 0x0C e)
  | .vdiv e => some (encEW 0x0D e)
  | .vexp2 e => some (encEW 0x0E e)
  | .vlog2 e => some (encEW 0x0F e)
  | .vtanh e => some (encEW 0x10 e)
  | .vsig e => some (encEW 0x11 e)
  | .vcvt e => some (encEW 0x12 e)
  | .vround e => some (encEW 0x13 e)
  | .vclass e => some (encEW 0x14 e)
  | .viadd e => some (encEW 0x20 e)
  | .visub e => some (encEW 0x21 e)
  | .vimul e => some (encEW 0x22 e)
  | .vimac e => some (encEW 0x23 e)
  | .vshl e => some (encEW 0x24 e)
  | .vshr e => some (encEW 0x25 e)
  | .vsra e => some (encEW 0x26 e)
  | .vand e => some (encEW 0x27 e)
  | .vor e => some (encEW 0x28 e)
  | .vxor e => some (encEW 0x29 e)
  | .vimin e => some (encEW 0x2A e)
  | .vimax e => some (encEW 0x2B e)
  | .vclz e => some (encEW 0x2C e)
  | .vpopc e => some (encEW 0x2D e)
  | .viabs e => some (encEW 0x2E e)
  | .vmulh e => some (encEW 0x2F e)
  | .vcmp e => some (encEW 0x30 e)
  | .vsel e => some (encEW 0x31 e)
  | .steer e => some (encEW 0x32 e)
  | .merge e => some (encEW 0x33 e)
  | .compact e => some (encEW 0x34 e)
  | .expand e => some (encEW 0x35 e)
  | .vmask e => some (encEW 0x36 e)
  | .vany e => some (encEW 0x37 e)
  | .vperm e => some (encEW 0x38 e)
  | .vbcast e => some (encEW 0x39 e)
  | .vrev e => some (encEW 0x3A e)
  | .vextr e => some (encEW 0x3B e)
  | .vins e => some (encEW 0x3C e)
  | .zip e => some (encEW 0x3D e)
  | .unzip e => some (encEW 0x3E e)
  | .vlshift e => some (encEW 0x3F e)
  | .vred e => some (encEW 0x40 e)
  | .rsend e => some (encEW 0x41 e)
  | .scan e => some (encEW 0x42 e)
  | .lrec e => some (encEW 0x43 e)
  | .ema e => some (encEW 0x44 e)
  | .fir e => some (encEW 0x45 e)
  | .segset e => some (encEW 0x46 e)
  | .carry e => some (encEW 0x47 e)
  | .span e => some (encEW 0x48 e)
  | .split e => some (encEW 0x49 e)
  | .delay e => some (encEW 0x4A e)
  | .window e => some (encEW 0x4B e)
  | .close e => some (encEW 0x4C e)
  | .spanq e => some (encEW 0x4D e)
  | .coalesce e => some (encEW 0x4E e)
  | .mma m => some (encMat 0x50 m)
  | .mmab m => some (encMat 0x51 m)
  | .mmaw m => some (encMat 0x52 m)
  | .bmm4 e => some (encEW 0x53 e)
  | .tclr t => some (encTile 0x54 t)
  | .tcvt t => some (encTile 0x55 t)
  | .ttrn t => some (encTile 0x56 t)
  | .trow e => some (encEW 0x57 e)
  | .tfill t => some (encTile 0x58 t)
  | .tear e => some (encEW 0x60 e)
  | .muster e => some (encEW 0x61 e)
  | .astr e => some (encEW 0x68 e)
  | .ldn e => some (encEW 0x69 e)
  | .stn e => some (encEW 0x6A e)
  | .updn e => some (encEW 0x6B e)
  | .ldsc e => some (encEW 0x6C e)
  | .stsc e => some (encEW 0x6D e)
  | .sbar e => some (encEW 0x6E e)
  | .xlate e => some (encEW 0x6F e)
  | .gate e => some (encEW 0x70 e)
  | .cand e => some (encEW 0x71 e)
  | .cor e => some (encEW 0x72 e)
  | _ => none

/-- The word of an instruction; a step that is no word of a program has none. -/
def encode (i : Instr) : Option Word := (encodeS i).or (encodeE i)

end Sys2Proof
end

