-- ==== Sys2Proof/Machine/Float.lean ====
section
/-!
DEFINITION. Floating-point formats, exact values and rounding (R89 to R96), TW8 weights (R99). A value is exact until one
`round` takes it to a format; a non-zero `rest` says that the exact magnitude lies strictly between m and m + 1 units.
-/

namespace Sys2Proof.Machine

/-! ## Formats -/

/-- A floating-point format: fraction bits, exponent bits, whether it has infinities and the NaN codes of R90. -/
structure Fmt where
  w : Nat
  eb : Nat
  inf : Bool
  deriving DecidableEq, Repr, Inhabited

def Fmt.f64 : Fmt := ⟨52, 11, true⟩
def Fmt.f32 : Fmt := ⟨23, 8, true⟩
def Fmt.bf16 : Fmt := ⟨7, 8, true⟩
def Fmt.f16 : Fmt := ⟨10, 5, true⟩
def Fmt.f8e4 : Fmt := ⟨3, 4, false⟩
def Fmt.f8e5 : Fmt := ⟨2, 5, true⟩

def Fmt.bias (f : Fmt) : Nat := 2 ^ (f.eb - 1) - 1
def Fmt.width (f : Fmt) : Nat := f.w + f.eb + 1
/-- Sign bit of a code. -/
def Fmt.signBit (f : Fmt) : Nat := 2 ^ (f.w + f.eb)
/-- The code of +∞, one past the largest exponent code; in f8e4 the NaN code. -/
def Fmt.infCode (f : Fmt) : Nat := (2 ^ f.eb - 1) * 2 ^ f.w
def Fmt.maxCode (f : Fmt) : Nat := if f.inf then f.infCode - 1 else 2 ^ (f.w + f.eb) - 2
def Fmt.nanCode (f : Fmt) : Nat := if f.inf then f.infCode + 2 ^ (f.w - 1) else 2 ^ (f.w + f.eb) - 1

/-- The code of 1. -/
def oneCode (f : Fmt) : Nat := f.bias * 2 ^ f.w

/-- Rounding modes (R92), in md.rm order. -/
inductive RM
  | rne | rtz | rdn | rup
  deriving DecidableEq, Repr, Inhabited

/-- An exact value. -/
inductive FV
  | nan
  | inf (neg : Bool)
  | fin (neg : Bool) (m : Nat) (e : Int) (rest : Bool)
  deriving DecidableEq, Repr, Inhabited

def FV.zero (neg : Bool) : FV := .fin neg 0 0 false
def FV.one : FV := .fin false 1 0 false

def FV.isNan : FV → Bool
  | .nan => true
  | _ => false
def FV.isInf : FV → Bool
  | .inf _ => true
  | _ => false
def FV.isZero : FV → Bool
  | .fin _ 0 _ false => true
  | _ => false
def FV.isNeg : FV → Bool
  | .inf n => n
  | .fin n _ _ _ => n
  | .nan => false
def FV.negate : FV → FV
  | .inf n => .inf !n
  | .fin n m e r => .fin (!n) m e r
  | .nan => .nan

/-- The value of a code (R90). -/
def Fmt.decode (f : Fmt) (code : Nat) : FV :=
  let neg := code / f.signBit % 2 == 1
  let body := code % f.signBit
  let exp := body / 2 ^ f.w
  let frac := body % 2 ^ f.w
  if f.inf && exp == 2 ^ f.eb - 1 then (if frac == 0 then .inf neg else .nan)
  else if !f.inf && body == f.nanCode then .nan
  else if exp == 0 then .fin neg frac (1 - (f.bias : Int) - f.w) false
  else .fin neg (2 ^ f.w + frac) ((exp : Int) - f.bias - f.w) false

/-- Whether a code is subnormal: a non-zero code with a zero exponent field. -/
def Fmt.subnormal (f : Fmt) (code : Nat) : Bool :=
  let body := code % f.signBit
  body != 0 && body < 2 ^ f.w

/-- md.ftz on an input: a subnormal code becomes a zero of its sign (R94). -/
def Fmt.flush (f : Fmt) (ftz : Bool) (code : Nat) : Nat :=
  if ftz && f.subnormal code then code / f.signBit % 2 * f.signBit else code % (2 * f.signBit)

/-! ## Rounding -/

/-- Whether the truncated magnitude is raised by one unit. `half` compares the dropped part with half a unit. -/
def roundUp (rm : RM) (neg odd : Bool) (half : Ordering) (inexact : Bool) : Bool :=
  match rm with
  | .rne => half == .gt || (half == .eq && odd)
  | .rtz => false
  | .rdn => neg && inexact
  | .rup => !neg && inexact

/-- The overflowing result of a mode and sign (R93). -/
def Fmt.overflowCode (f : Fmt) (rm : RM) (neg : Bool) : Nat :=
  let toInf := match rm with
    | .rne => true
    | .rtz => false
    | .rdn => neg
    | .rup => !neg
  if f.inf && toInf then f.infCode else f.maxCode

/-- Rounds a finite magnitude m × 2^e (with a rest below one unit of e, if any); answers the code without sign and whether
it overflowed. -/
def Fmt.roundMag (f : Fmt) (rm : RM) (neg : Bool) (m : Nat) (e : Int) (rest : Bool) : Nat × Bool :=
  if m == 0 && !rest then (0, false)
  else
    -- four more bits below, so that a rest is always below half a unit of what is dropped or kept
    let m := m * 16 + (if rest then 1 else 0)
    let e := e - 4
    let top : Int := (m.log2 : Int) + e
    let q := max (top - f.w) (1 - (f.bias : Int) - f.w)
    let sh := q - e
    let (n, half, inexact) :=
      if sh ≤ 0 then (m * 2 ^ (-sh).toNat, Ordering.lt, false)
      else
        let u := 2 ^ sh.toNat
        (m / u, compare (2 * (m % u)) u, m % u != 0)
    let n := if roundUp rm neg (n % 2 == 1) half inexact then n + 1 else n
    let code := ((q + f.w + f.bias - 1) * (2 ^ f.w : Nat)).toNat + n
    if f.maxCode < code then (f.overflowCode rm neg, true) else (code, false)

/-- round(x, type, mode) of R92, with the FTZ of results (R94): the code, and whether the step raises a condition
(overflow, or an infinity into f8e4). -/
def Fmt.round (f : Fmt) (rm : RM) (ftz : Bool) (x : FV) : Nat × Bool :=
  match x with
  | .nan => (f.nanCode, false)
  | .inf neg => if f.inf then (f.infCode + b2 neg * f.signBit, false) else (f.nanCode, true)
  | .fin neg m e rest =>
    let (c, o) := f.roundMag rm neg m e rest
    let c := if ftz && f.subnormal c then 0 else c
    (c + b2 neg * f.signBit, o)
where b2 (b : Bool) : Nat := if b then 1 else 0

/-! ## Exact arithmetic: a value and whether the step is invalid (R96) -/

/-- Signed integer of a finite value in units of 2^e0, e0 at most its exponent. -/
def finInt (neg : Bool) (m : Nat) (e e0 : Int) : Int :=
  let v : Int := (m * 2 ^ (e - e0).toNat : Nat)
  if neg then -v else v

/-- Sum of exact values. A zero sum of operands of opposite sign is +0, under RDN −0 (R92). -/
def FV.add (rm : RM) (x y : FV) : FV × Bool :=
  match x, y with
  | .nan, _ => (.nan, false)
  | _, .nan => (.nan, false)
  | .inf a, .inf b => if a == b then (.inf a, false) else (.nan, true)
  | .inf a, _ => (.inf a, false)
  | _, .inf b => (.inf b, false)
  | .fin a m e r, .fin b n d t =>
    if m == 0 && !r && n == 0 && !t then (.zero (if a == b then a else rm == .rdn), false)
    else if m == 0 && !r then (.fin b n d t, false)
    else if n == 0 && !t then (.fin a m e r, false)
    else
      let e0 := min e d
      let s := finInt a m e e0 + finInt b n d e0
      if s == 0 then (.zero (rm == .rdn), false) else (.fin (s < 0) s.natAbs e0 (r || t), false)

def FV.mul (x y : FV) : FV × Bool :=
  match x, y with
  | .nan, _ => (.nan, false)
  | _, .nan => (.nan, false)
  | .inf a, y => if y.isZero then (.nan, true) else (.inf (xor a y.isNeg), false)
  | x, .inf b => if x.isZero then (.nan, true) else (.inf (xor x.isNeg b), false)
  | .fin a m e _, .fin b n d _ => (.fin (xor a b) (m * n) (e + d) false, false)

/-- a × b + c before its one rounding; a NaN operand raises nothing (R95, R96). -/
def FV.fma (rm : RM) (a b c : FV) : FV × Bool :=
  let (p, i) := a.mul b
  let (s, j) := p.add rm c
  (s, (i && !c.isNan) || j)

/-- Quotient: division of a finite non-zero value by zero is divide-by-zero; both kinds answer true. -/
def FV.div (x y : FV) : FV × Bool :=
  match x, y with
  | .nan, _ => (.nan, false)
  | _, .nan => (.nan, false)
  | .inf _, .inf _ => (.nan, true)
  | .inf a, y => (.inf (xor a y.isNeg), false)
  | x, .inf b => (.zero (xor x.isNeg b), false)
  | .fin a m e _, .fin b n d _ =>
    if n == 0 then (if m == 0 then (.nan, true) else (.inf (xor a b), true))
    else if m == 0 then (.zero (xor a b), false)
    else
      let k : Nat := 70 + n.log2
      (.fin (xor a b) (m * 2 ^ k / n) (e - d - k) (m * 2 ^ k % n != 0), false)

/-- Floor of the square root, by bits from the top. -/
def isqrtFrom : Nat → Nat → Nat → Nat
  | 0, _, r => r
  | k + 1, x, r => if (r + 2 ^ k) * (r + 2 ^ k) ≤ x then isqrtFrom k x (r + 2 ^ k) else isqrtFrom k x r

def isqrt (x : Nat) : Nat := isqrtFrom (x.log2 / 2 + 1) x 0

/-- Square root; of a value below −0 it is invalid. -/
def FV.sqrt (x : FV) : FV × Bool :=
  match x with
  | .nan => (.nan, false)
  | .inf true => (.nan, true)
  | .inf false => (.inf false, false)
  | .fin neg m e _ =>
    if m == 0 then (.zero neg, false)
    else if neg then (.nan, true)
    else
      -- an even exponent and at least 140 bits
      let k : Nat := 140 + (if (e - 140) % 2 == 0 then 0 else 1)
      let x := m * 2 ^ k
      (.fin false (isqrt x) ((e - k) / 2) (isqrt x * isqrt x != x), false)

/-- Comparison of exact values; none when a NaN takes part. Zeros are equal whatever their signs. -/
def FV.cmp (x y : FV) : Option Ordering :=
  match x, y with
  | .nan, _ => none
  | _, .nan => none
  | .inf a, .inf b => some (if a == b then .eq else if a then .lt else .gt)
  | .inf a, _ => some (if a then .lt else .gt)
  | _, .inf b => some (if b then .gt else .lt)
  | .fin a m e _, .fin b n d _ => some (compare (finInt a m e (min e d)) (finInt b n d (min e d)))

/-! ## TW8 weights (R99) -/

/-- One term: a zero for shift 7, otherwise ± 2^−shift, in units of 2^−6. -/
def tw8Term (neg : Bool) (sh : Nat) : Int := if sh == 7 then 0 else if neg then -(2 ^ (6 - sh) : Nat) else (2 ^ (6 - sh) : Nat)

/-- The value of a weight. One of value 0 is +0 whatever its terms (notes/assumptions/97.md). -/
def tw8Value (code : Nat) : FV :=
  let v := tw8Term (bitOf code 7) (bitsOf code 6 4) + tw8Term (bitOf code 3) (bitsOf code 2 0)
  .fin (v < 0) v.natAbs (-6) false

end Sys2Proof.Machine
end

