-- ==== Sys2Proof/Machine/Lane.lean ====
section
/-!
DEFINITION. Elements of vector payloads (R47, R91), lane-wise effects (R144), integer modes (R98), interpolation (R70).
-/

namespace Sys2Proof.Machine

/-! ## Elements -/

/-- Width of an element in bits. -/
def elWidth (ty : Ty) (alt : Bool) : Nat :=
  match ty with
  | .f64 => 64
  | .f32 => 32
  | .i32 => if alt then 16 else 32
  | .bf16x2 | .f16x2 => 16
  | .f8e4x4 | .f8e5x4 | .i8x4 => 8

/-- The floating-point format of a type; integer types have none and answer f32's. -/
def fmtOf : Ty → Fmt
  | .f64 => .f64
  | .bf16x2 => .bf16
  | .f16x2 => .f16
  | .f8e4x4 => .f8e4
  | .f8e5x4 => .f8e5
  | _ => .f32

def isFloatTy : Ty → Bool
  | .i32 | .i8x4 => false
  | _ => true

/-- md's fields (R47). -/
def mdRm (md : BitVec 4) : Nat := md.toNat / 4
def mdFtz (md : BitVec 4) : Bool := md.getLsbD 1
def mdAlt (md : BitVec 4) : Bool := md.getLsbD 0
def RM.ofCode (n : Nat) : RM :=
  match n with
  | 0 => .rne
  | 1 => .rtz
  | 2 => .rdn
  | _ => .rup
def mdRM (md : BitVec 4) : RM := RM.ofCode (mdRm md)

/-- Elements lie one above another in a payload, f64 over a lane pair. -/
def elAt (w : Nat) (p : BitVec 512) (e : Nat) : Nat := p.toNat / 2 ^ (w * e) % 2 ^ w
def elCount (w : Nat) : Nat := 512 / w
def laneAt (p : BitVec 512) (i : Nat) : Nat := elAt 32 p i
/-- A packed lane's valid bit covers its elements; an f64 element needs both lanes of its pair. -/
def elValid (w : Nat) (v : BitVec 16) (e : Nat) : Bool :=
  if w == 64 then v.getLsbD (2 * e) && v.getLsbD (2 * e + 1) else v.getLsbD (e * w / 32)
/-- An f64 element's reset bit is that of the low lane. -/
def elReset (w : Nat) (r : BitVec 16) (e : Nat) : Bool := if w == 64 then r.getLsbD (2 * e) else r.getLsbD (e * w / 32)
def packEls (w : Nat) (l : List Nat) : BitVec 512 := BitVec.ofNat 512 (l.foldr (fun x acc => x % 2 ^ w + 2 ^ w * acc) 0)
/-- Bits of a mask from a predicate on lanes. -/
def maskOf (f : Nat → Bool) : BitVec 16 := BitVec.ofNat 16 ((List.range 16).foldr (fun i acc => b2n (f i) + 2 * acc) 0)

/-- The element that holds lane i. -/
def elOfLane (w i : Nat) : Nat := if w == 64 then i / 2 else i * 32 / w

/-- Validity of a result: both lanes of an f64 pair get the element's. -/
def pairValid (w : Nat) (v : BitVec 16) : BitVec 16 := if w == 64 then maskOf fun i => elValid 64 v (i / 2) else v
/-- Reset bits of a formed result. -/
def pairReset (w : Nat) (r : BitVec 16) : BitVec 16 := if w == 64 then maskOf fun i => elReset 64 r (i / 2) else r

/-- One computed element: its bits, and the conditions it raised. -/
structure El where
  bits : Nat
  exc : Bool := false
  sat : Bool := false
  deriving DecidableEq, Repr, Inhabited

/-- What an operation gives for the payload of its result. -/
structure LaneRes where
  payload : BitVec 512 := 0
  valid : BitVec 16 := 0
  reset : BitVec 16 := 0
  exc : Bool := false
  sat : Bool := false
  deriving DecidableEq, Repr, Inhabited

/-- A lane-wise effect (R144): elements of valid lanes are computed, invalid lanes hold zero and raise nothing. -/
def lanewise (w : Nat) (valid reset : BitVec 16) (f : Nat → El) : LaneRes :=
  let v := pairValid w valid
  let es := (List.range (elCount w)).map fun e => if elValid w v e then f e else { bits := 0 }
  { payload := packEls w (es.map (·.bits)), valid := v, reset := pairReset w reset
    exc := es.any (·.exc), sat := es.any (·.sat) }

/-! ## Floating-point elements -/

def roundEl (f : Fmt) (rm : RM) (ftz : Bool) (x : FV × Bool) : El :=
  let (c, o) := f.round rm ftz x.1
  { bits := c, exc := x.2 || o }

def readEl (f : Fmt) (ftz : Bool) (code : Nat) : FV := f.decode (f.flush ftz code)

/-! ## Integer elements (R98) -/

/-- An element as the mode reads it: signed under 00 and 10, unsigned under 01 and 11. -/
def readInt (mode w x : Nat) : Int := if mode % 2 == 0 then asInt w x else (x % 2 ^ w : Nat)

/-- mode(x): wraps, or clamps and sets sat. -/
def modeEl (mode w : Nat) (x : Int) : El :=
  let lo : Int := if mode % 2 == 0 then -(2 ^ (w - 1) : Nat) else 0
  let hi : Int := if mode % 2 == 0 then (2 ^ (w - 1) : Nat) - 1 else (2 ^ w : Nat) - 1
  if mode < 2 then { bits := ofInt w x }
  else if x < lo then { bits := ofInt w lo, sat := true }
  else if hi < x then { bits := ofInt w hi, sat := true }
  else { bits := ofInt w x }

/-! ## Interpolation (R70) -/

/-- A half of a whole number. -/
def halfOf (n : Int) : FV := .fin (n < 0) n.natAbs (-1) false

/-- One element between P and N for a firing over [lo, hi). -/
def interpEl (ty : Ty) (lo hi : Nat) (p n : Token) (pv nv : Nat) : El :=
  let f := fmtOf ty
  let wt : Fmt := if ty == .f64 then .f64 else .f32
  let rnd (x : FV × Bool) : FV × Bool := let (c, o) := wt.round .rne false x.1; (wt.decode c, x.2 || o)
  let mid : Int := (p.lo + p.hi : Nat)
  let nmid2 : Int := if n.hi == openHi then (2 * n.lo : Nat) else (n.lo + n.hi : Nat)
  let (dc, e0) := rnd (halfOf ((lo + hi : Nat) - mid), false)
  let (dn, e1) := rnd (halfOf (nmid2 - mid), false)
  let vp := f.decode pv
  let (t, e2) := rnd ((f.decode nv).add .rne vp.negate)
  let (u, e3) := rnd (t.mul dc)
  let (w, e4) := rnd (u.div dn)
  let (x, e5) := rnd (vp.add .rne w)
  let (c, e6) := f.round .rne false x
  { bits := c, exc := e0 || e1 || e2 || e3 || e4 || e5 || e6 }

/-- The value of an INTERP segment for a firing over [lo, hi). -/
def interpToken (ty : Ty) (lo hi : Nat) (p n : Token) : Token :=
  let w := elWidth ty false
  -- the one valid bit of a scalar token covers its 64 bits (R56)
  let v := p.valid &&& n.valid
  let v := if p.net == .scalar then (if v.getLsbD 0 then 3 else 0) else v
  let r := lanewise w v p.reset fun e => interpEl ty lo hi p n (elAt w p.payload e) (elAt w n.payload e)
  { p with
    payload := r.payload
    valid := if p.net == .scalar then r.valid &&& 1 else r.valid
    reset := p.reset
    err := p.err || n.err
    exc := p.exc || n.exc || r.exc
    sat := p.sat || n.sat
    cause := if p.err then p.cause else n.cause
    residue := laneResidues p.net r.payload }

end Sys2Proof.Machine
end

