-- ==== Sys2Proof/Machine/Slot.lean ====
section
/-!
DEFINITION. The slot engine: headers (R50), network fields (R141, R142), segments and gap rules (R68, R69), the firing rule
(R72 to R74), and the pure parts of the matching store (R77 to R80).
-/

namespace Sys2Proof

/-! ## What an operation reads -/

/-- Operations whose csel 11 names a length or parameter register and feeds no field (R142). -/
def Instr.hasParam : Instr → Bool
  | .bmm4 _ | .scan _ | .lrec _ | .ema _ | .fir _ | .carry _ | .tear _ => true
  | _ => false

/-- Whether the operation reads field r. Every E-word reads l. -/
def Instr.readsR : Instr → Bool
  | .vadd _ | .vsub _ | .vmul _ | .vmac _ | .vfmak _ | .vmin _ | .vmax _ | .vdiv _
  | .viadd _ | .visub _ | .vimul _ | .vimac _ | .vshl _ | .vshr _ | .vsra _ | .vand _ | .vor _ | .vxor _
  | .vimin _ | .vimax _ | .vmulh _ | .vcmp _ | .vsel _ | .steer _ | .merge _ | .compact _ | .expand _ | .vmask _
  | .vperm _ | .vins _ | .zip _ | .unzip _ | .vlshift _ | .lrec _ | .segset _
  | .span _ | .split _ | .delay _ | .window _ | .close _ | .mma _ | .mmab _ | .mmaw _ | .bmm4 _
  | .tear _ | .muster _ | .astr _ | .stn _ | .updn _ | .stsc _ | .sbar _ | .cand _ | .cor _ => true
  | _ => false

/-- VSEL alone takes p as an operand. -/
def Instr.readsP : Instr → Bool
  | .vsel _ => true
  | _ => false

/-- Matrix operations, which rings feed (R178). -/
def Instr.isMatrix : Instr → Bool
  | .mma _ | .mmab _ | .mmaw _ => true
  | _ => false

/-- Two-output operations (R145). -/
def Instr.twoOut : Instr → Bool
  | .steer _ | .compact _ | .expand _ | .zip _ | .unzip _ => true
  | _ => false

/-- Operations that keep slot state (R147). -/
def Instr.keepsState : Instr → Bool
  | .vmac _ | .vfmak _ | .vimac _ | .window _ | .coalesce _ | .close _ => true
  | _ => false

end Sys2Proof

namespace Sys2Proof.Machine

/-! ## Slot headers (R50) -/

structure Hdr where
  gapL : Nat
  gapR : Nat
  gapP : Nat
  csel : Nat
  kreg : Nat
  tsp : Nat
  net : Nat
  dep : Nat
  acc : Bool
  stype : Ty
  deriving DecidableEq, Repr, Inhabited

def Hdr.ofWord (w : Word) : Hdr :=
  let x := w.toNat
  { gapL := bitsOf x 31 30, gapR := bitsOf x 29 28, gapP := bitsOf x 27 26, csel := bitsOf x 25 24, kreg := bitsOf x 23 19,
    tsp := bitsOf x 18 15, net := bitsOf x 14 13, dep := bitsOf x 12 11, acc := bitOf x 10, stype := Ty.ofCode (w.extractLsb' 7 3) }

def Hdr.gap (h : Hdr) : Fld → Nat
  | .l => h.gapL
  | .r => h.gapR
  | .p => h.gapP

/-- The operation and the header of a configured slot. -/
def UnitConf.slotAt (c : UnitConf) (slot : Nat) : Option (Instr × Hdr) :=
  match amGet? c.slots slot with
  | some (w, h) =>
    match decodeE w with
    | .ok i => some (i, Hdr.ofWord h)
    | .error _ => none
  | none => none

/-- A constant register as a vector token; one that is not declared holds zero and no valid lane (R136). -/
def UnitConf.constTok (c : UnitConf) (k : Nat) : Token :=
  let (v, p) := amGet c.consts k (0, 0)
  Token.sealed { payload := p, valid := v, lo := 0, hi := openHi }

/-! ## Network fields -/

/-- Whether a network feeds the predicate of a slot. -/
def UnitConf.pFed (c : UnitConf) (slot : Nat) : Bool := c.fed.any fun x => x.1 == slot && x.2.1 == .p

/-- The fields of a slot that take tokens (R77, R141, R142). -/
def netFields (c : UnitConf) (slot : Nat) (i : Instr) (h : Hdr) : List Fld :=
  (if h.csel == 1 then [] else [.l]) ++ (if i.readsR && h.csel != 2 then [.r] else []) ++
    (if i.readsP then (if h.csel == 3 then [] else [.p]) else if c.pFed slot then [.p] else [])

/-- A constant that gates the slot (R142). -/
def constGate (i : Instr) (h : Hdr) : Bool := h.csel == 3 && !i.hasParam && !i.readsP

/-- The key of a stream: its field, its tag, and for MUSTER's l its return stream. -/
def fkey (f : Fld) (tag stream : Nat) : Nat := (stream * 1024 + tag) * 4 + f.code
def fkeyFld (k : Nat) : Nat := k % 4
def fkeyTag (k : Nat) : Nat := k / 4 % 1024
def fkeyStream (k : Nat) : Nat := k / 4096

def SlotSt.field (st : SlotSt) (f : Fld) (tag : Nat) : FieldSt := amGet st.fields (fkey f tag 0) {}

/-- Tags under which a token or a close has reached the slot. -/
def SlotSt.tagsSeen (st : SlotSt) : List Nat := (st.fields.map fun x => fkeyTag x.1).eraseDups

/-- A field's frontier; open once its stream has closed (R67). -/
def FieldSt.front (f : FieldSt) : Nat := if f.closed.isSome then openHi else f.frontier

/-! ## Segments (R68, R69, R160) -/

inductive SegVal
  | real (t : Token)
  | hold (t : Token)
  | interp (p n : Token)
  | empty
  deriving DecidableEq, Repr, Inhabited

structure Seg where
  lo : Nat
  hi : Nat
  val : SegVal
  deriving DecidableEq, Repr, Inhabited

def Seg.real (s : Seg) : Bool :=
  match s.val with
  | .real _ => true
  | _ => false

/-- The tokens that a segment uses. -/
def Seg.tokens (s : Seg) : List Token :=
  match s.val with
  | .real t | .hold t => [t]
  | .interp p n => [p, n]
  | .empty => []

/-- How a gap is filled: nothing, the predecessor held, interpolation, or MERGE's empty segment. -/
inductive Fill
  | none | hold | interp | empty
  deriving DecidableEq, Repr, Inhabited

/-- MERGE's own fields take empty segments (R160); the p that gates it follows its gap rule. -/
def fillOf (i : Instr) (f : Fld) (gap : Nat) : Fill :=
  match i, f with
  | .merge _, .l | .merge _, .r => .empty
  | _, _ => if gap == 0 then .hold else if gap == 1 then .interp else .none

/-- Rows in span order with the inner gaps between them. -/
def rowSegs (fill : Fill) : List Token → List Seg
  | [] => []
  | [t] => [⟨t.lo, t.hi, .real t⟩]
  | t :: n :: rest =>
    let gap :=
      if t.hi < n.lo then
        match fill with
        | .none => []
        | .hold => [⟨t.hi, n.lo, .hold t⟩]
        | .interp => [⟨t.hi, n.lo, .interp t n⟩]
        | .empty => [⟨t.hi, n.lo, .empty⟩]
      else []
    ⟨t.lo, t.hi, .real t⟩ :: gap ++ rowSegs fill (n :: rest)

/-- Held tokens of a field, and behind them the entered one that R80(2) has discarded: it still ends the gap before it. -/
def FieldSt.withSucc (f : FieldSt) (rows : List Token) : List Token :=
  match f.succ with
  | some n => rows.filter (fun t => decide (t.lo < n.lo)) ++ [n]
  | none => rows

/-- The tokens that cut a field's time line (R72, R73). -/
def FieldSt.line (f : FieldSt) : List Token := f.withSucc f.rows

/-- The determined segments of a field (R73). A field of MERGE that closes without a token is one empty segment up to its
close point. -/
def FieldSt.segs (f : FieldSt) (fill : Fill) : List Seg :=
  let lead :=
    if fill == .empty then
      match f.firstLo, f.closed with
      | some lo, _ => if 0 < lo then [⟨0, lo, .empty⟩] else []
      | none, some c => if 0 < c then [⟨0, c, .empty⟩] else []
      | none, none => []
    else []
  let trail :=
    match f.closed, f.line.getLast? with
    | some c, some p =>
      if p.hi < c then
        match fill with
        | .hold => [⟨p.hi, c, .hold p⟩]
        | .empty => [⟨p.hi, c, .empty⟩]
        | _ => []
      else []
    | _, _ => []
  lead ++ rowSegs fill f.line ++ trail

/-! ## Firings (R72, R74) -/

/-- A choice of one segment for each network field, with its intersection. -/
structure Choice where
  lo : Nat := 0
  hi : Nat := openHi
  real : Bool := false
  segs : List (Fld × Seg) := []
  deriving DecidableEq, Repr, Inhabited

/-- Every choice whose segments overlap, for the fields given. -/
def choices : List (Fld × List Seg) → List Choice
  | [] => [{}]
  | (f, ss) :: rest =>
    (choices rest).flatMap fun c => ss.filterMap fun g =>
      let lo := max g.lo c.lo
      let hi := min g.hi c.hi
      if lo < hi then some { lo := lo, hi := hi, real := g.real || c.real, segs := (f, g) :: c.segs } else none

/-- The choice with the least intersection lo. -/
def leastChoice : List Choice → Option Choice
  | [] => none
  | c :: cs =>
    match leastChoice cs with
    | none => some c
    | some d => if c.lo ≤ d.lo then some c else some d

/-- Everything the slot engine needs of a slot. -/
structure SlotEnv where
  key : Nat
  loc : Loc
  slot : Nat
  conf : UnitConf
  instr : Instr
  hdr : Hdr
  nets : List Fld
  deriving DecidableEq, Repr, Inhabited

def State.slotEnv (s : State) (key slot : Nat) : Option SlotEnv :=
  let u := s.getU key
  match u.conf.slotAt slot with
  | some (i, h) => some ⟨key, Loc.ofKey key, slot, u.conf, i, h, netFields u.conf slot i h⟩
  | none => none

def State.slotSt (s : State) (key slot : Nat) : SlotSt := amGet (s.getU key).slots slot {}
def State.setSlot (s : State) (key slot : Nat) (st : SlotSt) : State :=
  s.updU key fun u => { u with slots := amPut u.slots slot st }
def State.updSlot (s : State) (key slot : Nat) (f : SlotSt → SlotSt) : State :=
  s.updU key fun u => { u with slots := amUpd u.slots slot {} f }

/-- The next firing of a tag: the least intersection not yet taken, of determined segments, one of them a real token. -/
def SlotEnv.next (e : SlotEnv) (st : SlotSt) (tag : Nat) : Option Choice :=
  let done := amGet st.doneTo tag 0
  leastChoice ((choices (e.nets.map fun f => (f, (st.field f tag).segs (fillOf e.instr f (e.hdr.gap f))))).filter
    fun c => c.real && decide (done ≤ c.lo))

/-! ## Discards (R80) -/

/-- e(T) for a row and the rows behind it; none while T must be kept. -/
def endOf (fill : Fill) (f : FieldSt) (t : Token) (succ : List Token) : Option Nat :=
  match fill with
  | .none => some t.hi
  | .interp =>
    match succ with
    | n :: _ => some n.lo
    | [] => if f.closed.isSome then some t.hi else none
  | _ =>
    match succ with
    | n :: _ => some n.lo
    | [] => f.closed

/-- Splits the rows of one stream into those that stay and those that are discarded: `minFront` is the least frontier of the
other network fields, `minClose` the least close point among those that have closed. The successor of a row is the next one
that entered, held or not. -/
def keepRows (fill : Fill) (f : FieldSt) (minFront : Nat) (minClose : Option Nat) : List Token → List Token × List Token
  | [] => ([], [])
  | t :: ts =>
    let (keep, gone) := keepRows fill f minFront minClose ts
    let one := match endOf fill f t (f.withSucc ts) with
      | some x => decide (x ≤ minFront)
      | none => false
    let two := match minClose with
      | some c => decide (c ≤ t.lo)
      | none => false
    if one || two then (keep, t :: gone) else (t :: keep, gone)

/-- The earlier of two tokens that may end a gap. -/
def earlier (a b : Option Token) : Option Token :=
  match a, b with
  | some x, some y => if x.lo ≤ y.lo then some x else some y
  | a, b => a.or b

/-- The token that ends the gap behind the last row that stays: the first one behind it, among those that are discarded now and the one known
before. A token that is discarded later ends no gap that an earlier one has ended (R61, R68). -/
def succOf (keep gone : List Token) (old : Option Token) : Option Token :=
  match keep.getLast? with
  | none => none
  | some k => earlier (old.filter fun t => decide (k.hi ≤ t.lo)) (gone.find? fun t => decide (k.hi ≤ t.lo))

def minClosed (l : List FieldSt) : Option Nat := (l.filterMap (·.closed)).min?

/-- Discards the rows of one field of a tag; answers what was discarded. -/
def SlotEnv.discardField (e : SlotEnv) (st : SlotSt) (tag : Nat) (f : Fld) : SlotSt × List Token :=
  let others := (e.nets.filter (· != f)).map fun g => st.field g tag
  let minFront := (others.map FieldSt.front).foldl min openHi
  let x := st.field f tag
  let (keep, gone) := keepRows (fillOf e.instr f (e.hdr.gap f)) x minFront (minClosed others) x.rows
  if gone.isEmpty then (st, [])
  else ({ st with fields := amPut st.fields (fkey f tag 0) { x with rows := keep, succ := succOf keep gone x.succ } }, gone)

/-! ## Close points (R76) -/

/-- The fields that bound the close point: all of them, and for a matrix slot those that its rings feed (R183). -/
def SlotEnv.closeFields (e : SlotEnv) : List Fld := if e.instr.isMatrix then e.nets.filter (· != .p) else e.nets

/-- C of a tag, once every field that bounds it has closed: the least close point, when no field may still bring a firing below
it. -/
def SlotEnv.closePoint (e : SlotEnv) (st : SlotSt) (tag : Nat) : Option Nat :=
  match minClosed (e.closeFields.map fun f => st.field f tag) with
  | some c => if e.nets.all fun f => decide (c ≤ (st.field f tag).front) then some c else none
  | none => none

/-- The least frontier of the fields that bound the close point: no close can come below it. -/
def SlotEnv.boundFront (e : SlotEnv) (st : SlotSt) (tag : Nat) : Nat :=
  (e.closeFields.map fun f => (st.field f tag).front).foldl min openHi

/-- The least frontier of a tag's network fields. -/
def SlotEnv.minFront (e : SlotEnv) (st : SlotSt) (tag : Nat) : Nat :=
  (e.nets.map fun f => (st.field f tag).front).foldl min openHi

end Sys2Proof.Machine
end

