-- ==== Sys2Proof/Machine/TileMem.lean ====
section
/-!
DEFINITION. Tiles (R171 to R175), rings and tile tokens (R177 to R179), emission of accumulators (R183).
-/

namespace Sys2Proof.Machine

/-! ## Waiting firings (R175) -/

/-- Something that firings of a unit may wait for has changed: they are looked at again, at the places where they became determined. -/
def State.wake (s : State) (key : Nat) : State := s.updU key fun u => { u with parked := [] }

/-- A slot has no determined firing under a tag any more. -/
def State.unready (s : State) (loc : Loc) (slot tag : Nat) : State :=
  let s := { s with ready := s.ready.filter fun r => r != (loc, slot, tag) }
  if (s.getU loc.key).parked.contains (slot, tag) then
    s.updU loc.key fun u => { u with parked := u.parked.filter (· != (slot, tag)) }
  else s

/-- The carried tile that the firings of a slot need: a chained recurrence slot's state tile, FIR's taps, the tile of a CARRY, TCLR or TCVT. An
unchained SCAN, LREC or EMA touches no tile (R193). -/
def UnitConf.needsTile (c : UnitConf) (slot : Nat) : Option Nat :=
  match c.slotAt slot with
  | some (.scan _, h) | some (.lrec _, h) | some (.ema _, h) =>
    let k := laneAt (c.constTok h.kreg).payload 0
    if bitOf k 8 then some (k % 64) else none
  | some (.fir _, h) | some (.carry _, h) => some ((c.constTok h.kreg).payload.toNat % 64)
  | some (.tclr t, _) => some t.dst.toNat
  | some (.tcvt t, _) | some (.ttrn t, _) => some t.src.toNat
  | _ => none

/-- The shepherd swaps a tile in for the first firing that waits on it (R336): the tile is FILLING until its copy is done (R174).
None is swapped in while gweuf has stopped the paddock. -/
def State.askSwapIn (s : State) (key slot : Nat) : State :=
  match (s.getU key).conf.needsTile slot with
  | none => s
  | some n =>
    let t := amGet (s.getU key).tiles n {}
    if t.swapped.isSome && t.st == .empty && !(s.getPad (s.getU key).pad).stop then
      (s.updU key fun u => { u with tiles := amPut u.tiles n { t with st := .filling } }).post (.tileSwapDone (Loc.ofKey key) n)
    else s

/-- n firings of a slot are determined under a tag: each has its place, those that are new behind all others (R264). -/
def State.markReady (s : State) (key slot tag n : Nat) : State :=
  let r := (Loc.ofKey key, slot, tag)
  { s with ready := s.ready ++ List.replicate (n - countIf (· == r) s.ready) r }

/-- The oldest determined firing of a slot under a tag is taken; the others keep their places. -/
def State.takeReady (s : State) (loc : Loc) (slot tag : Nat) : State :=
  { s with ready := s.ready.erase (loc, slot, tag) }.updU loc.key fun u => { u with parked := u.parked.filter (· != (slot, tag)) }

/-- A firing that cannot go on now waits with its tokens in its rows; it keeps its place among the determined firings (R264). -/
def State.park (s : State) (key slot tag : Nat) : State :=
  ((s.markReady key slot tag 1).updU key fun u => { u with parked := u.parked.filter (· != (slot, tag)) ++ [(slot, tag)] }).askSwapIn key slot

/-! ## Tiles -/

def UnitSt.tile (u : UnitSt) (n : Nat) : Tile := amGet u.tiles n {}
def State.tile (s : State) (key n : Nat) : Tile := (s.getU key).tile n
def State.setTile (s : State) (key n : Nat) (t : Tile) : State :=
  (s.updU key fun u => { u with tiles := amPut u.tiles n t }).wake key

/-- Where byte 0 of a tile stands in the package's L. -/
def tileAddr (cell : Nat) (t : Tile) : Nat := lAddr cell (t.base * 1024)

def State.tileBytes (s : State) (key : Nat) (t : Tile) (off n : Nat) : List Byte :=
  s.readMem .l (tileAddr (idxOf key) t + off) n
def State.setTileBytes (s : State) (key : Nat) (t : Tile) (off : Nat) (bs : List Byte) : State :=
  s.storeMem .l (tileAddr (idxOf key) t + off) bs

def zeroBytes (n : Nat) : List Byte := List.replicate n 0

/-- Bytes 48 to 63 of the rows of an op or plain tile read as zero, but for described ones, whose blocks fill them (R171, R172). -/
def State.padTile (s : State) (cell : Nat) (t : Tile) : State :=
  if (t.role == .op || t.role == .plain) && !(t.alt && t.ty == .f32) then
    (List.range 16).foldl (fun s i => s.writeMem .l (tileAddr cell t + 64 * i + 48) (zeroBytes 16)) s
  else s

/-- A tile goes EMPTY: no firing has been applied since (R173); writes of TSET that waited for it are made (R317). -/
def Tile.emptied (t : Tile) : Tile :=
  t.pendingSet.foldl (fun t (sel, v) => t.setWord sel v)
    { t with st := .empty, rows := 0, kdone := 0, close := false, pendingSet := [] }

/-- The first write to an op tile: its payload is cleared (R174), and with it the stickies (notes/assumptions/98.md). -/
def State.openOpTile (s : State) (key n lo tag : Nat) : State :=
  let t := s.tile key n
  (s.setTileBytes key t 0 (zeroBytes 1024)).setTile key n
    { t with st := .filling, lo := lo, tag := tag, rows := 0, err := false, exc := false, sat := false, close := false, cause := 0 }

/-- The first firing into an accumulator: every element reads zero, the stickies are clear (R174), also where the firing's
accumulate bit is set and R108 names no clearing (notes/assumptions/98.md). -/
def State.openAcc (s : State) (key n lo : Nat) : State :=
  let t := s.tile key n
  (s.setTileBytes key t 0 (zeroBytes t.size)).setTile key n
    { t with st := .filling, lo := lo, kdone := 0, rows := 0, err := false, exc := false, sat := false, cause := 0 }

/-! ## Layouts (R172) -/

/-- Payload byte p of an op or plain tile stands at this offset. -/
def payOff (p : Nat) : Nat := p / 48 * 64 + p % 48

/-- Payload byte at which element (m, k) of an A-shaped tile starts. -/
def aOff (w m k : Nat) : Nat := 48 * m + k * w
/-- Payload byte at which element (k, n) of a B-shaped tile starts. -/
def bOff (tb : Bool) (w k n : Nat) : Nat := if tb then 16 * k * w + n * w else 48 * n + k * w

/-- Element of w bytes at a payload byte; an element never crosses a row of 48 bytes. -/
def elemIn (bs : List Byte) (w p : Nat) : Nat := ofBytes ((bs.drop (payOff p)).take w)

/-! ## Rings (R177 to R179) -/

def UnitSt.ring (u : UnitSt) (r : Nat) : RingSt := amGet u.rings r {}
def State.updRing (s : State) (key r : Nat) (f : RingSt → RingSt) : State :=
  s.updU key fun u => { u with rings := amUpd u.rings r {} f }

/-- The tile at a ring position. -/
def UnitConf.ringTile (c : UnitConf) (r pos : Nat) : Nat :=
  let l := amGet c.rings r []
  nthD l (pos % l.length) 0

/-- The tile at a ring's tail. -/
def State.tailTile (s : State) (key r : Nat) : Nat := (s.getU key).conf.ringTile r ((s.getU key).ring r).tail

/-- The slot and field that read a ring: ring A feeds l, ring B feeds r. A slot that names one ring as both has it feed l alone
(notes/assumptions/115.md). -/
def UnitConf.ringReader (c : UnitConf) (r : Nat) : Option (Nat × Fld) :=
  c.slots.findSome? fun (slot, w, _) =>
    match decodeE w with
    | .ok (.mma m) | .ok (.mmab m) | .ok (.mmaw m) =>
      if m.ringA.toNat == r then some (slot, .l) else if m.ringB.toNat == r then some (slot, .r) else none
    | _ => none

/-- The tail tile's write completes: it goes READY and the ring issues its tile token. The token's cnum is the count of tiles written
before it, of which seq holds the low 24 bits. -/
def State.completeTail (s : State) (key r hi : Nat) : State :=
  let n := s.tailTile key r
  let t := s.tile key n
  let g := (s.getU key).ring r
  let tok : Token :=
    { lo := t.lo, hi := hi, tag := t.tag, seq := g.seq, ctx := (s.getU key).ctx, err := t.err, exc := t.exc, sat := t.sat,
      cause := t.cause, valid := 0xFFFF, cnum := g.tail }
  (s.setTile key n { t with st := .ready, hi := hi, seq := g.seq }).updRing key r fun g =>
    { g with tail := g.tail + 1, seq := (g.seq + 1) % 2 ^ 24, waiting := g.waiting ++ [tok] }

/-! ## Fields: entering a token (R64, R65, R67) -/

/-- The record of a fault at a slot field (R65). -/
def fieldFault (s : State) (key slot : Nat) (f : Fld) (code : Nat) (t : Token) (last : Nat) : FaultRec :=
  { code := code, ctx := (s.getU key).ctx, cell := (Loc.ofKey key).site, slot := slot, fld := f.code, tag := t.tag,
    seq := t.seq, seqLast := last }

/-- Sequence number of the last token entered on a stream of a field (R279). -/
def State.lastOn (s : State) (key slot : Nat) (f : Fld) (tag : Nat) (stream : Nat := 0) : Nat :=
  (amGet (s.slotSt key slot).fields (fkey f tag stream) {}).lastSeq

/-- The record of a fault that a firing raises at a field of its slot. -/
def SlotEnv.fault (s : State) (e : SlotEnv) (f : Fld) (code tag : Nat) (t : Token) (aux : Nat) (stream : Nat := 0) : FaultRec :=
  { fieldFault s e.key e.slot f code { t with tag := tag } (s.lastOn e.key e.slot f tag stream) with aux := BitVec.ofNat 64 aux }

/-- A token takes a row, or closes its stream. One that breaks R64 raises SPAN_ORDER, and no later token of the stream
enters. -/
def State.enter (s : State) (key slot : Nat) (f : Fld) (stream : Nat) (t : Token) : State :=
  let st := s.slotSt key slot
  let k := fkey f t.tag stream
  let x := amGet st.fields k {}
  let put (y : FieldSt) : State := s.setSlot key slot { st with fields := amPut st.fields k y }
  if x.broken then s
  else if x.closed.isSome || t.lo < x.frontier then
    (put { x with broken := true }).raise (s.getU key).pad (fieldFault s key slot f 0x02 t x.lastSeq)
  else if t.isClose then put { x with closed := some t.lo }
  else
    put { x with
      rows := x.rows ++ [t]
      frontier := t.hi
      firstLo := x.firstLo.or (some t.lo)
      lastSeq := t.seq
      closed := if t.close then some t.hi else none }

/-- Tile tokens of a ring enter their reader's rows in sequence order while rows are free; a commit behind them arrives in its
place, and tokens behind a commit that is not aligned wait (R178, R286). In a paddock that gweuf has stopped none enters, and one that
reaches a breakpoint stops its paddock (R201). A tile token of another tag space does not enter and raises TAG_INVALID (R66). -/
def State.feedRing (s : State) (key r slot : Nat) (f : Fld) (dep : Nat) : Nat → State
  | 0 => s
  | n + 1 =>
    let pad := (s.getU key).pad
    let b : BreakPoint := .token (Loc.ofKey key) slot f
    if (s.getPad pad).stop then s else
    let g := (s.getU key).ring r
    let st := s.slotSt key slot
    match g.waiting with
    | [] =>
      g.closed.foldl (fun s (tag, c) =>
        let x := (s.slotSt key slot).field f tag
        if x.closed.isSome || x.broken then s
        else s.updSlot key slot fun st => { st with fields := amPut st.fields (fkey f tag 0) { x with closed := some c } }) s
    | t :: ts =>
      let arrived := amGet st.commits f.code 0
      if t.isCommit then
        let s := s.updSlot key slot fun st => { st with commits := amUpd st.commits f.code 0 (· + 1) }
        (s.updRing key r fun g => { g with waiting := ts }).feedRing key r slot f dep n
      else if s.tokenBreak pad b then s.stopAt pad b
      else if st.aligned < arrived || dep < (st.field f t.tag).rows.length then s
      else
        let s := s.updPad pad fun p => { p with passed := p.passed.filter (· != b) }
        let s := s.updRing key r fun g => { g with waiting := ts }
        let tsp := (((s.getU key).conf.slotAt slot).map fun x => x.2.tsp).getD 0
        (if t.tag / 64 == tsp then s.enter key slot f 0 t
          else s.raise pad (fieldFault s key slot f 0x03 t (st.field f t.tag).lastSeq)).feedRing key r slot f dep n

/-- A discarded tile token empties its tile and moves the ring's head (R174). -/
def State.dropTile (s : State) (key r : Nat) (t : Token) : State :=
  let n := (s.getU key).conf.ringTile r t.cnum
  (s.setTile key n (s.tile key n).emptied).updRing key r fun g => { g with head := g.head + 1 }

/-! ## Emission of an accumulator (R183) -/

/-- The row tokens of an accumulator, or none when its span does not divide. Token j holds the 64 bytes from 64 × j on. -/
def State.accRows (s : State) (key n : Nat) : Option (List HeldOut) :=
  let t := s.tile key n
  let nr := t.size / 64
  let q := (t.hi - t.lo) / nr
  if q == 0 || t.hi == openHi then none
  else
    some <| (List.range nr).map fun j =>
      let last := j + 1 == nr
      { tok := Token.sealed
          { payload := BitVec.ofNat 512 (ofBytes (s.tileBytes key t (64 * j) 64)), valid := 0xFFFF, lo := t.lo + j * q,
            hi := if last then t.hi else t.lo + (j + 1) * q, tag := t.tag, ctx := (s.getU key).ctx, err := t.err,
            exc := t.exc, sat := t.sat, cause := t.cause }
        basis := if last then t.hi else 0
        lastRow := if last then some n else none }

end Sys2Proof.Machine
end

