-- ==== Sys2Proof/Machine/TearPlace.lean ====
section
/-!
DEFINITION. TEAR's placement: capacities by batch, held copies, pad rows and muster records (R246, R248 to R250).
-/

namespace Sys2Proof.Machine

/-- A 40-bit quantity in lanes k and k + 1 (R165). -/
def q40 (p : BitVec 512) (k : Nat) : Nat := laneAt p k + laneAt p (k + 1) % 256 * 2 ^ 32

/-- TEAR's parameter register (R246). -/
structure TearParam where
  k : Nat
  policy : Nat
  pad : Bool
  w : Nat
  d : Nat
  cap : List Nat
  deriving DecidableEq, Repr, Inhabited

def tearParamOf (p : BitVec 512) : TearParam :=
  { k := laneAt p 0 % 8, policy := bitsOf (laneAt p 0) 5 4, pad := bitOf (laneAt p 0) 8, w := q40 p 1, d := laneAt p 3
    cap := (List.range 16).map fun j => elAt 8 p (16 + j) }

def SlotEnv.tearParam (e : SlotEnv) : TearParam := tearParamOf (e.conf.constTok e.hdr.kreg).payload

/-- What TEAR puts out: output streams and results. -/
abbrev TearOuts := List (Nat × HeldOut)

def TearSt.usedAt (x : TearSt) (j : Nat) : Nat := amGet x.used j 0
def TearSt.heldAt (x : TearSt) (j : Nat) : List HeldCopy := amGet x.held j []

/-- Records what became of copy k of a row. -/
def TearSt.note (x : TearSt) (id k : Nat) (c : CopySt) : TearSt :=
  { x with recs := x.recs.map fun r => if r.id == id then { r with copies := r.copies.set k c } else r }

/-- place(k, j, w), under the rank that w is of: the next slot of the open batch at destination j. A copy never takes the row's close or commit flag. -/
def TearSt.place (x : TearSt) (id k j rank : Nat) (row : Token) (w : Word) : TearSt × TearOuts :=
  let lo := 16 * x.batch.getD 0 + x.usedAt j
  let copy := { row with lo := lo, hi := lo + 1, close := false, commit := false }
  ({ x with used := amUpd x.used j 0 (· + 1) }.note id k (.placed j lo rank w), [(2 + j, { tok := copy, basis := lo + 1 })])

/-- The end of the open batch at one destination: pad rows, then the next batch with the oldest held copies (R249). -/
def tearEndAt (p : TearParam) (tag ctx : Nat) (acc : TearSt × TearOuts) (j : Nat) : TearSt × TearOuts :=
  let (x, outs) := acc
  let b := x.batch.getD 0
  let cap := nthD p.cap j 0
  let pads : TearOuts :=
    if p.pad then
      (List.range (cap - x.usedAt j)).map fun i =>
        let lo := 16 * b + x.usedAt j + i
        (2 + j, { tok := Token.sealed { lo := lo, hi := lo + 1, tag := tag, ctx := ctx }, basis := lo + 1 })
    else []
  let held := x.heldAt j
  let now := held.take cap
  let x := { x with used := amPut x.used j 0, held := amPut x.held j (held.drop cap), batch := some (b + 1) }
  let (x, placed) := now.foldl (fun (x, o) c =>
    let (x, o') := TearSt.place x c.id c.k j c.k c.tok c.weight
    (x, o ++ o')) (x, ([] : TearOuts))
  ({ x with batch := some b }, outs ++ pads ++ placed)

/-- The open batch ends at every destination in turn, and the next one is open. -/
def tearEnd (p : TearParam) (tag ctx : Nat) (x : TearSt) : TearSt × TearOuts :=
  let b := x.batch.getD 0
  let (x, outs) := (List.range p.d).foldl (tearEndAt p tag ctx) (x, [])
  ({ x with batch := some (b + 1), ended := b + 1, got := false }, outs)

/-- Whether the open batch has received a row or a held copy. -/
def TearSt.begun (x : TearSt) : Bool := x.got || x.used.any fun u => u.2 != 0

def TearSt.heldCount (x : TearSt) : Nat := x.held.foldl (fun n h => n + h.2.length) 0

/-- Ends batches before batch b; a batch that has received nothing is skipped. -/
def tearUntil (p : TearParam) (tag ctx b : Nat) : Nat → TearSt → TearSt × TearOuts
  | 0, x => ({ x with batch := some b }, [])
  | n + 1, x =>
    match x.batch with
    | none => ({ x with batch := some b }, [])
    | some cur =>
      if b ≤ cur then (x, [])
      else if !x.begun then ({ x with batch := some b }, [])
      else
        let (x, o) := tearEnd p tag ctx x
        let (x, o') := tearUntil p tag ctx b n x
        (x, o ++ o')

/-- Records that are complete leave in the order of their rows (R250). -/
def tearRecord (r : TearRec) : Token :=
  let lanes := (List.range 16).map fun i =>
    if i < 4 then
      match nthD r.copies i .none with
      | .placed d .. => some d
      | _ => none
    else if i < 8 then
      match nthD r.copies (i - 4) .none with
      | .placed _ _ _ w => some w.toNat
      | _ => none
    else
      match nthD r.copies ((i - 8) / 2) .none with
      | .placed _ lo .. => some (if i % 2 == 0 then lo % 2 ^ 32 else lo / 2 ^ 32)
      | _ => none
  Token.sealed
    { r.tok with
      payload := packEls 32 (lanes.map fun l => l.getD 0)
      valid := maskOf fun i => (nthD lanes i none).isSome
      reset := 0 }

def CopySt.waits : CopySt → Bool
  | .held _ => true
  | _ => false

def tearRecords (x : TearSt) : TearSt × TearOuts :=
  let done := x.recs.takeWhile fun r => !r.copies.any CopySt.waits
  ({ x with recs := x.recs.drop done.length }, done.map fun r => (0, { tok := tearRecord r, basis := r.tok.hi }))

/-- The input of a tag has closed: every batch that has received a row or a held copy ends (R249). -/
def tearCloseFrom (p : TearParam) (tag ctx : Nat) : Nat → TearSt → TearSt × TearOuts
  | 0, x => (x, [])
  | n + 1, x =>
    if x.begun || x.heldCount != 0 then
      let (x, o) := tearEnd p tag ctx x
      let (x, o') := tearCloseFrom p tag ctx n x
      (x, o ++ o')
    else (x, [])

def tearClose (p : TearParam) (tag ctx : Nat) (x : TearSt) : TearSt × TearOuts :=
  if x.closed then (x, [])
  else
    let (x, o) := tearCloseFrom p tag ctx (x.heldCount + 2) x
    let (x, o') := tearRecords x
    ({ x with closed := true }, o ++ o')

/-- Copy k of the row being placed may go to the destination of rank m (R248): its lanes are valid, its index names a
destination, and no copy of the row is placed or held there. -/
def tearUsable (p : TearParam) (r : Token) (copies : List CopySt) (m : Nat) : Bool :=
  let j := laneAt r.payload m
  r.valid.getLsbD m && r.valid.getLsbD (4 + m) && j < p.d &&
    copies.all fun c =>
      match c with
      | .placed d .. => d != j
      | .held d => d != j
      | _ => true

/-- One copy of a row. Answers the state, what is put out, the copies so far, and whether the copy was dropped. -/
def tearCopy (p : TearParam) (row r : Token) (id : Nat) (acc : TearSt × TearOuts × Nat) (k : Nat) : TearSt × TearOuts × Nat :=
  let (x, outs, drops) := acc
  let copies := match x.recs.find? fun y => y.id == id with
    | some y => y.copies
    | none => []
  let weight (m : Nat) : Word := BitVec.ofNat 32 (laneAt r.payload (4 + m))
  if !tearUsable p r copies k then (x, outs, drops)
  else
    let j := laneAt r.payload k
    let free (j : Nat) : Bool := x.usedAt j < nthD p.cap j 0
    let go (m : Nat) : TearSt × TearOuts × Nat :=
      let (x, o) := x.place id k (laneAt r.payload m) m row (weight m)
      (x, outs ++ o, drops)
    if free j then go k
    else if p.policy == 1 && (x.heldAt j).length < 16 then
      ({ x with held := amUpd x.held j [] (· ++ [HeldCopy.mk id k row (weight k)]) }.note id k (.held j), outs, drops)
    else
      let alt := if p.policy == 2 then
          (List.range 4).find? fun m => p.k ≤ m && tearUsable p r copies m && free (laneAt r.payload m)
        else none
      match alt with
      | some m => go m
      | none => (x.note id k .dropped, outs, drops + 1)

/-- A row and its routing token: batches before its own end, its copies are placed, its record waits. -/
def tearPlaced (p : TearParam) (ctx : Nat) (x : TearSt) (row r out : Token) : TearSt × TearOuts × Nat :=
  let b := out.lo / p.w
  let (x, o1) := tearUntil p out.tag ctx b (b - x.batch.getD 0 + 1) x
  let id := x.nextId
  let x := { x with got := true, nextId := id + 1, recs := x.recs ++ [TearRec.mk id out (List.replicate 4 .none)] }
  let (x, o2, drops) := (List.range p.k).foldl (tearCopy p row r id) (x, [], 0)
  (x, o1 ++ o2, drops)

/-- After it, complete records leave. -/
def tearRow (p : TearParam) (ctx : Nat) (x : TearSt) (row r out : Token) : TearSt × TearOuts × Nat :=
  let (x, o, drops) := tearPlaced p ctx x row r out
  let (x, o') := tearRecords x
  (x, o ++ o', drops)

end Sys2Proof.Machine
end

