-- ==== Sys2Proof/Machine/SlotRun.lean ====
section
/-!
DEFINITION. What a slot does after a token has entered or a firing has been taken: discards, results and their close flags
(R74 to R76, R145, R146), commits (R286, R287), re-injection (R82, R83), the muster table's claims (R252).
-/

namespace Sys2Proof.Machine

/-! ## Consumers -/

/-- The consumers of an E-word; an emitting accumulator's stand in its tile entry. -/
def SlotEnv.consumers (e : SlotEnv) (u : UnitSt) : Consumer × Consumer :=
  let none' : Consumer := ⟨0, 3⟩
  match e.instr with
  | .mma m | .mmab m | .mmaw m => if m.em then ((u.tile m.acc.toNat).c0, (u.tile m.acc.toNat).c1) else (none', none')
  | .tclr _ | .tcvt _ | .ttrn _ | .tfill _ => (none', none')
  | _ =>
    match e.conf.slots.find? fun x => x.1 == e.slot with
    | some (_, w, _) => (Consumer.ofCode (w.extractLsb' 9 9), Consumer.ofCode (w.extractLsb' 0 9))
    | none => (none', none')

/-- Where a result goes: consumer 0 or 1 of the E-word, or a destination of the steer table, numbered from 2. -/
inductive Sink
  | cons (k : Nat) (c : Consumer)
  | steer (k : Nat) (d : Dest) (route : Route)
  deriving DecidableEq, Repr, Inhabited

def Sink.num : Sink → Nat
  | .cons k _ => k
  | .steer k _ _ => k

/-- The sinks of an output stream: stream 0 goes to both consumers, but for two-output operations; stream 2 + j of TEAR goes to
destination j. -/
def SlotEnv.sinks (e : SlotEnv) (u : UnitSt) (stream : Nat) : List Sink :=
  let (c0, c1) := e.consumers u
  let one (k : Nat) (c : Consumer) : List Sink := if c.fld = 3 then [] else [.cons k c]
  if e.instr.twoOut then (if stream == 0 then one 0 c0 else one 1 c1)
  else if stream == 0 then one 0 c0 ++ one 1 c1
  else
    match e.conf.tear[stream - 2]? with
    | some d => [.steer stream d (nthD e.conf.tearRoutes (stream - 2) {})]
    | none => []

/-- Where a sink's tokens go. -/
def SlotEnv.destsOf (e : SlotEnv) (k : Sink) : List Dest :=
  match k with
  | .cons _ c => if c.slot.toNat < 0x70 then [Dest.field e.loc c.slot.toNat (Fld.ofCode c.fld)] else amGet e.conf.ports (c.slot.toNat - 0x70) []
  | .steer _ d _ => [d]

/-- Output streams of the operation. -/
def SlotEnv.streams (e : SlotEnv) : List Nat :=
  if e.instr.twoOut then [0, 1]
  else
    match e.instr with
    | .tear _ => 0 :: (List.range e.conf.tear.length).map (· + 2)
    | _ => [0]

def outKey (tag stream : Nat) : Nat := tag * 32 + stream

/-! ## Sending a result (R146, R287) -/

/-- The predicate token of a vector result. -/
def controlOf (t : Token) : Token :=
  let v := (List.range 16).any fun i => t.valid.getLsbD i && laneAt t.payload i != 0
  { net := .control, kind := 0, payload := if v then 1 else 0, lo := t.lo, hi := t.hi, tag := t.tag, seq := t.seq, ctx := t.ctx,
    err := t.err, cause := t.cause }

/-- A consumer that takes control results (R146): every consumer when the slot's network is control; with both networks, a predicate
field of the cell. The field p of VSEL takes vector tokens (R141). -/
def takesControl (e : SlotEnv) : Sink → Bool
  | .cons _ c =>
    let selP := match e.conf.slotAt c.slot.toNat with
      | some (i, _) => i.readsP
      | none => false
    e.hdr.net == 2 || (e.hdr.net == 3 && c.fld == 2 && c.slot.toNat < 0x70 && !selP)
  | .steer _ _ _ => false

/-- Sends a token to a destination of the steer table: a slot field of the same cell, or a route, which leaves by the local link of the
destination's number modulo 4 (notes/assumptions/88.md). -/
def State.emitSteer (s : State) (e : SlotEnv) (k : Nat) (d : Dest) (r : Route) (t : Token) : State :=
  let far := s.emit e.loc.site (portInput (k - 2)) [d] r t
  match d with
  | .field u _ _ =>
    if u == e.loc then
      match arrivalAt d (Token.leaving { t with route := 256 + e.slot }) with
      | some i => s.post i
      | none => s
    else far
  | _ => far

/-- Sends a token to one sink. One that stays in the cell crosses no switch box; its route names its sender, for MUSTER (R251). -/
def State.emitSink (s : State) (e : SlotEnv) (k : Sink) (t : Token) : State :=
  match k with
  | .cons _ c => s.emitConsumer e.loc e.conf c (if c.slot.toNat < 0x70 then { t with route := 256 + e.slot } else t)
  | .steer k d r => s.emitSteer e k d r t

/-- One result to one sink: as data or as a predicate, with the close flag where a vector or scalar token carries it, and a
control close behind a predicate that ends its stream. -/
def State.sendResult (s : State) (e : SlotEnv) (t : Token) (close : Bool) (k : Sink) : State :=
  let st := s.slotSt e.key e.slot
  let ctl := takesControl e k
  let mark := st.commitMark.contains k.num && !ctl
  let out :=
    if ctl then (if t.net == .control then t else controlOf t)
    else { t with close := close, commit := mark }
  let s := s.setSlot e.key e.slot
    { st with
      commitMark := if mark then st.commitMark.filter (· != k.num) else st.commitMark
      sentLast := amPut st.sentLast k.num (t.tag, t.seq) }
  let s := s.emitSink e k out
  if ctl && close then
    s.emitSink e k
      { net := .control, kind := 5, payload := 1, lo := t.hi, hi := t.hi, tag := t.tag, seq := (t.seq + 1) % 2 ^ 24, ctx := t.ctx }
  else s

/-- A token that only closes an output stream. -/
def State.sendClose (s : State) (e : SlotEnv) (tag seq c : Nat) (k : Sink) : State :=
  let ctx := (s.getU e.key).ctx
  if takesControl e k then
    s.emitSink e k { net := .control, kind := 5, payload := 1, lo := c, hi := c, tag := tag, seq := seq, ctx := ctx }
  else
    s.emitSink e k { net := if e.hdr.net == 1 then .scalar else .vector, kind := 4, lo := c, hi := c, tag := tag, seq := seq, ctx := ctx }

/-! ## Output close points (R76, R169, R249) -/

def SlotEnv.constR (e : SlotEnv) : BitVec 512 := (e.conf.constTok e.hdr.kreg).payload

/-- The hi of the last result of a stream, sent or held. -/
def OutSt.last (o : OutSt) : Option Nat :=
  match o.held.getLast? with
  | some h => some h.tok.hi
  | none => o.lastHi

/-- The fields of MUSTER that lie on its own time line: the records, and a predicate that gates it (R142, R251). -/
def SlotEnv.musterFields (e : SlotEnv) : List Fld := if e.nets.contains .p then [.r, .p] else [.r]

/-- C of MUSTER's output (R76): the least close point of its fields, once no record below it is left. -/
def SlotEnv.musterClose (e : SlotEnv) (u : UnitSt) (st : SlotSt) (tag : Nat) : Option Nat :=
  let fs := e.musterFields.map fun f => st.field f tag
  match minClosed fs with
  | some c => if (fs.all fun x => decide (c ≤ x.front)) && !(u.muster.any fun r => r.tok.tag == tag && decide (r.tok.lo < c)) then some c else none
  | none => none

/-- The close point of the output stream of a tag, once it is known. DELAY's is C + d, however large (R169; notes/assumptions/99.md). -/
def SlotEnv.outClose (e : SlotEnv) (u : UnitSt) (st : SlotSt) (tag stream : Nat) : Option Nat :=
  let c := e.closePoint st tag
  let last := (amGet st.outs (outKey tag stream) {}).last
  match e.instr with
  | .span _ => c.map fun _ => last.getD 0
  | .delay _ => c.map fun c => if c == openHi then c else c + q40 e.constR 0
  | .window _ => c.map fun c => max c (last.getD 0)
  | .close _ =>
    let k := q40 e.constR 0
    match c with
    | some c => some (min c k)
    | none => if k ≤ e.minFront st tag then some k else none
  | .muster _ => e.musterClose u st tag
  | .tear _ =>
    let x := amGet u.tear tag {}
    if !x.closed then none else if stream == 0 then c else some (16 * x.ended)
  | .mma m | .mmab m | .mmaw m =>
    -- rows of an accumulator that ring A's close is still to complete come before the close (R174, R183)
    let t := u.tile m.acc.toNat
    if m.em && t.st == .filling && t.tag == tag && (st.field .l tag).closed.isNone then none else c
  | _ => c

/-! ## Results that wait (R76) -/

/-- Whether the close flag of the first held result is decided, and what it is. -/
def decideClose (o : OutSt) (h : HeldOut) (known : Option Nat) (front : Nat) : Option Bool :=
  if 1 < o.held.length then some false
  else
    match known with
    | some d => some (h.tok.hi == d)
    | none => if h.basis < front then some false else none

/-- EXCREC of a cell names the last result with the exception flag that it emitted in a context (R349). -/
def State.noteExc (s : State) (e : SlotEnv) (t : Token) : State :=
  match e.loc with
  | .node _ => s
  | .cell i _ =>
    let c := s.getCell i
    s.setCell i { c with excRec := amPut c.excRec t.ctx (BitVec.ofNat 64 (2 ^ 63 + e.slot * 2 ^ 24 + t.seq)) }

/-- Sends the held results of one output stream whose flags are decided. -/
def State.release (s : State) (e : SlotEnv) (tag stream : Nat) (known : Option Nat) (front : Nat) : Nat → State
  | 0 => s
  | n + 1 =>
    let st := s.slotSt e.key e.slot
    let o := amGet st.outs (outKey tag stream) {}
    match o.held with
    | [] => s
    | h :: rest =>
      match decideClose o h known front with
      | none => s
      | some close =>
        let s := s.setSlot e.key e.slot
          { st with outs := amPut st.outs (outKey tag stream) { o with held := rest, lastHi := some h.tok.hi, closed := o.closed || close } }
        let s := (e.sinks (s.getU e.key) stream).foldl (fun s k => s.sendResult e h.tok close k) s
        let s := if h.tok.exc then s.noteExc e h.tok else s
        let s :=
          match h.lastRow with
          | some n => s.setTile e.key n (s.tile e.key n).emptied
          | none => s
        s.release e tag stream known front n

/-- Puts a result behind those of its stream, with the next sequence number (R74); behind 2^24 − 1 comes 0 (notes/assumptions/106.md). -/
def State.pushOut (s : State) (e : SlotEnv) (stream : Nat) (h : HeldOut) : State :=
  s.updSlot e.key e.slot fun st =>
    let k := outKey h.tok.tag stream
    let o := amGet st.outs k {}
    if o.closed then st
    else { st with outs := amPut st.outs k { o with next := (o.next + 1) % 2 ^ 24, held := o.held ++ [{ h with tok := { h.tok with seq := o.next } }] } }

/-- The next sequence number of a result stream is given away before the result is formed (R258). -/
def State.numberOut (s : State) (e : SlotEnv) (tag stream : Nat) : State × Nat :=
  let k := outKey tag stream
  let n := (amGet (s.slotSt e.key e.slot).outs k {}).next
  (s.updSlot e.key e.slot fun st => { st with outs := amUpd st.outs k {} fun o => { o with next := (n + 1) % 2 ^ 24 } }, n)

/-- Puts a result that has its number behind those of its stream. -/
def State.queueOut (s : State) (e : SlotEnv) (stream : Nat) (h : HeldOut) : State :=
  s.updSlot e.key e.slot fun st => { st with outs := amUpd st.outs (outKey h.tok.tag stream) {} fun o => { o with held := o.held ++ [h] } }

/-- Closes an output stream at its close point, by a token of its own unless its last result ended there. -/
def State.closeOut (s : State) (e : SlotEnv) (tag stream d : Nat) : State :=
  let st := s.slotSt e.key e.slot
  let o := amGet st.outs (outKey tag stream) {}
  if o.closed || !o.held.isEmpty then s
  else
    let s := s.setSlot e.key e.slot
      { st with outs := amPut st.outs (outKey tag stream) { o with closed := true, next := (o.next + 1) % 2 ^ 24 } }
    (e.sinks (s.getU e.key) stream).foldl (fun s k => s.sendClose e tag o.next d k) s

/-! ## What a close sends first -/

/-- The token of a pending window (R167). -/
def windowTok (a : AccSt) (w tag ctx : Nat) : Token :=
  let q := a.window.getD 0
  let (err, exc, sat) := a.flags
  Token.sealed
    { payload := a.payload, valid := a.valid, lo := q * w, hi := q * w + w, tag := tag, ctx := ctx, err := err || a.errWins.contains q,
      exc := exc, sat := sat, cause := a.cause }

/-- Emits a window, or raises SPAN_LIMIT when its end cannot be written (R166): the record names the token that ends the window, and the
last token entered where the close ends it. -/
def State.pushWindow (s : State) (e : SlotEnv) (tag basis : Nat) (via : Option Token) (a : AccSt) : State :=
  let t := windowTok a (q40 e.constR 0) tag (s.getU e.key).ctx
  let last := ((s.slotSt e.key e.slot).field .l tag).lastSeq
  if 2 ^ 40 - 2 < t.hi then
    s.raise (s.getU e.key).pad (fieldFault s e.key e.slot .l 0x04 { t with seq := (via.map (·.seq)).getD last } last)
  else s.pushOut e 0 { tok := t, basis := basis }

/-- The writer of a ring: an operation that fills its tail. -/
def SlotEnv.writes (e : SlotEnv) : Option Nat :=
  match e.instr with
  | .trow x => some (x.md.toNat / 2)
  | .tcvt t | .ttrn t | .tfill t => (e.conf.rings.find? fun r => r.2.contains t.dst.toNat).map (·.1)
  | _ => none

/-- The accumulator that a matrix slot feeds. -/
def SlotEnv.acc (e : SlotEnv) : Option (Nat × Bool) :=
  match e.instr with
  | .mma m | .mmab m | .mmaw m => some (m.acc.toNat, m.em)
  | _ => none

/-- An accumulator that has gone READY: with the emit bit set its rows are put out, or SPAN_LIMIT is raised (R183). -/
def State.emitAcc (s : State) (e : SlotEnv) (n : Nat) (em : Bool) : State :=
  if !em then s
  else
    match s.accRows e.key n with
    | some rows =>
      let t := s.tile e.key n
      rows.foldl (fun s h => s.pushOut e 0 h) (s.setTile e.key n { t with st := .draining })
    | none =>
      let t := s.tile e.key n
      s.raise (s.getU e.key).pad
        (e.fault s .l 0x04 t.tag { lo := t.lo, seq := (t.kdone + 2 ^ 24 - 1) % 2 ^ 24 } 0)

/-- When every firing below the close point of a tag has been taken: pending windows and tokens are emitted (R167, R168), a
FILLING accumulator goes READY if it is ring A's stream that has closed (R174), a ring that the slot writes completes its FILLING tile
and closes (R179), at the least close point of l and a gate (notes/assumptions/117.md). -/
def State.flush (s : State) (e : SlotEnv) (tag : Nat) : State :=
  let st := s.slotSt e.key e.slot
  match e.closePoint st tag with
  | none => s
  | some c =>
    let a := amGet st.acc tag {}
    match e.instr with
    | .window _ =>
      if a.window.isSome then
        (s.setSlot e.key e.slot { st with acc := amPut st.acc tag {} }).pushWindow e tag openHi none a
      else s
    | .coalesce _ =>
      match a.pending with
      | some t =>
        (s.setSlot e.key e.slot { st with acc := amPut st.acc tag { a with pending := none } }).pushOut e 0
          { tok := t, basis := openHi }
      | none => s
    | .tear _ =>
      let (x, outs) := tearClose e.tearParam tag (s.getU e.key).ctx (amGet (s.getU e.key).tear tag {})
      outs.foldl (fun s (stream, h) => s.pushOut e stream h)
        (s.updU e.key fun u => { u with tear := amPut u.tear tag x })
    | _ =>
      match e.acc, e.writes with
      | some (n, em), _ =>
        let t := s.tile e.key n
        if t.st == .filling && t.tag == tag && (st.field .l tag).closed.isSome then
          (s.setTile e.key n { t with st := .ready }).emitAcc e n em
        else s
      | none, some r =>
        let n := s.tailTile e.key r
        let t := s.tile e.key n
        if (amGet? ((s.getU e.key).ring r).closed tag).isSome then s
        else
          let s := if t.st == .filling && t.tag == tag then s.completeTail e.key r c else s
          -- the token of the last tile carries the close flag when it ends at the close point
          let s := s.updRing e.key r fun g =>
            { g with
              closed := amPut g.closed tag c
              waiting := g.waiting.map fun t => if t.tag == tag && t.hi == c && !t.isCommit then { t with close := true } else t }
          let prev := e.conf.ringTile r (((s.getU e.key).ring r).tail + (amGet e.conf.rings r []).length - 1)
          let p := s.tile e.key prev
          if p.st == .ready && p.hi == c then s.setTile e.key prev { p with close := true } else s
      | none, none => s

/-! ## MUSTER's claims (R252) -/

/-- The claims of a record: choice, destination, span lo. -/
def musterClaims (t : Token) : List (Nat × Nat × Nat) :=
  ((List.range 4).filter fun k => t.valid.getLsbD k).map fun k => (k, laneAt t.payload k, q40 t.payload (8 + 2 * k))

/-- Looks at the pending claims of the oldest record of a tag: met, missed, or MUSTER_SPAN, also where the token that overlaps a claim has been met
by an earlier one. -/
def State.musterClaim (s : State) (e : SlotEnv) (tag : Nat) : State :=
  let u := s.getU e.key
  match u.muster.find? fun r => r.tok.tag == tag with
  | none => s
  | some r =>
    (musterClaims r.tok).foldl (fun s (k, j, sk) =>
      let u := s.getU e.key
      let cur := (u.muster.find? fun x => x.tok.tag == tag).getD r
      if nthD cur.decided k true then s
      else
        let st := amGet u.slots e.slot {}
        let key := fkey .l tag j
        let x := amGet st.fields key {}
        let put (new : MusterRec) (y : FieldSt) : State :=
          s.setU e.key
            { u with
              muster := u.muster.map fun z => if z == cur then new else z
              slots := amPut u.slots e.slot { st with fields := amPut st.fields key y } }
        let decide' (m : Option Token) (y : FieldSt) : State :=
          put { cur with met := cur.met.set k m, decided := cur.decided.set k true } y
        match x.rows.find? fun t => t.lo == sk with
        | some t => decide' (some t) { x with rows := x.rows.filter fun y => sk < y.lo, spent := some (t.lo, t.hi) }
        | none =>
          let taken := (x.rows.map fun t => (t.lo, t.hi)) ++ x.spent.toList
          if x.broken then s
          else if taken.any fun t => t.1 != sk && decide (t.1 < sk + 1 ∧ sk < t.2) then
            (put cur { x with broken := true }).raise u.pad (e.fault s .l 0x09 r.tok.tag r.tok (j * 2 ^ 40 + k) j)
          else if sk < x.front then decide' none x else s) s

/-- The record whose claims are all decided, if the oldest of the tag is one. -/
def UnitSt.musterNext (u : UnitSt) (tag : Nat) : Option MusterRec :=
  match u.muster.find? fun r => r.tok.tag == tag with
  | some r => if r.decided.all id then some r else none
  | none => none

/-- The next firing on a record whose claims are decided, at `done` or later: the record's span, or its intersection with a segment of the
predicate that gates the slot (R72, R142). -/
def SlotEnv.musterChoice (e : SlotEnv) (st : SlotSt) (r : MusterRec) (done : Nat) : Option Choice :=
  let seg : Seg := ⟨r.tok.lo, r.tok.hi, .real r.tok⟩
  if e.nets.contains .p then
    leastChoice ((choices [(.r, [seg]), (.p, (st.field .p r.tok.tag).segs (fillOf e.instr .p e.hdr.gapP))]).filter fun c => decide (done ≤ c.lo))
  else some { lo := r.tok.lo, hi := r.tok.hi, real := true, segs := [(.r, seg)] }

/-- MUSTER's next firing of a tag, with its record. -/
def SlotEnv.musterFire (e : SlotEnv) (u : UnitSt) (tag : Nat) : Option (MusterRec × Choice) :=
  let st := amGet u.slots e.slot {}
  (u.musterNext tag).bind fun r => (e.musterChoice st r (amGet st.doneTo tag 0)).map fun c => (r, c)

/-- Once time `done` of a record is past, nothing more of it can fire. -/
def SlotEnv.musterOver (e : SlotEnv) (st : SlotSt) (r : MusterRec) (done : Nat) : Bool :=
  !e.nets.contains .p || (decide (r.tok.hi ≤ (st.field .p r.tok.tag).front) && (e.musterChoice st r done).isNone)

/-- A record of a gated MUSTER that no further firing can use leaves its table; else the rows of the predicate that every record still to come
lies behind are discarded (R80). None where nothing leaves. -/
def State.musterPass (s : State) (e : SlotEnv) (tag : Nat) : Option State :=
  let u := s.getU e.key
  let st := amGet u.slots e.slot {}
  match u.musterNext tag with
  | some r =>
    if e.nets.contains .p && e.musterOver st r (amGet st.doneTo tag 0) then
      some (s.updU e.key fun u => { u with muster := u.muster.filter (· != r) })
    else none
  | none => none

def State.gateDiscards (s : State) (e : SlotEnv) (tag : Nat) : State :=
  let st := s.slotSt e.key e.slot
  if !e.nets.contains .p then s
  else
    let x := st.field .p tag
    let r := st.field .r tag
    let (bound, close) := match (s.getU e.key).muster.find? fun r => r.tok.tag == tag with
      | some r => (max r.tok.lo (amGet st.doneTo tag 0), none)
      | none => (r.front, r.closed)
    let (keep, gone) := keepRows (fillOf e.instr .p e.hdr.gapP) x bound close x.rows
    if gone.isEmpty then s
    else s.setSlot e.key e.slot { st with fields := amPut st.fields (fkey .p tag 0) { x with rows := keep, succ := succOf keep gone x.succ } }

/-- Once the record stream of a tag has closed and no record is left, the tokens that no claim has taken leave (R252). -/
def State.musterDrain (s : State) (e : SlotEnv) (tag : Nat) : State :=
  let u := s.getU e.key
  let st := s.slotSt e.key e.slot
  if (st.field .r tag).closed.isSome && !(u.muster.any fun r => r.tok.tag == tag) then
    s.setSlot e.key e.slot
      { st with fields := st.fields.map fun (k, x) => if fkeyFld k == 0 && fkeyTag k == tag then (k, { x with rows := [] }) else (k, x) }
  else s

/-! ## Settling a tag -/

/-- Whether a tag has a firing that can be taken. -/
def State.determined (s : State) (e : SlotEnv) (tag : Nat) : Bool :=
  match e.instr with
  | .muster _ => (e.musterFire (s.getU e.key) tag).isSome
  | _ => (e.next (s.slotSt e.key e.slot) tag).isSome

/-- Firings of a slot that are determined under a tag, one behind the other. -/
def SlotEnv.nextCount (e : SlotEnv) (tag : Nat) : Nat → SlotSt → Nat
  | 0, _ => 0
  | n + 1, st =>
    match e.next st tag with
    | some c => e.nextCount tag n { st with doneTo := amPut st.doneTo tag c.hi } + 1
    | none => 0

/-- The same of MUSTER, whose records leave their table as they are done with. -/
def SlotEnv.musterCount (e : SlotEnv) (tag : Nat) : Nat → UnitSt → Nat
  | 0, _ => 0
  | n + 1, u =>
    match e.musterFire u tag with
    | some (r, c) =>
      let st := amGet u.slots e.slot {}
      let st := { st with doneTo := amPut st.doneTo tag c.hi }
      e.musterCount tag n { u with
        slots := amPut u.slots e.slot st, muster := if e.musterOver st r c.hi then u.muster.filter (· != r) else u.muster } + 1
    | none => 0

def State.firings (s : State) (e : SlotEnv) (tag : Nat) : Nat :=
  match e.instr with
  | .muster _ => e.musterCount tag 256 (s.getU e.key)
  | _ => e.nextCount tag 256 (s.slotSt e.key e.slot)

/-- Stores of a slot under a tag whose completion tokens have not left (R241). -/
def State.storesOut (s : State) (e : SlotEnv) (tag : Nat) : Bool :=
  (s.getU e.key).stores.any fun x => x.slot == e.slot && x.completion.tag == tag

/-- The rings of a matrix slot. -/
def SlotEnv.rings (e : SlotEnv) : List (Nat × Fld) :=
  match e.instr with
  | .mma m | .mmab m | .mmaw m => [(m.ringA.toNat, .l), (m.ringB.toNat, .r)]
  | _ => []

/-- Discards of one tag (R80); a discarded tile token empties its tile. -/
def State.discards (s : State) (e : SlotEnv) (tag : Nat) : State :=
  e.nets.foldl (fun s f =>
    let (st, gone) := e.discardField (s.slotSt e.key e.slot) tag f
    let s := s.setSlot e.key e.slot st
    match e.rings.find? fun r => r.2 == f with
    | some (r, _) => gone.foldl (fun s t => s.dropTile e.key r t) s
    | none => s) s

/-- Tile tokens that wait enter the rows that are free. -/
def State.feed (s : State) (e : SlotEnv) : State :=
  e.rings.foldl (fun s (r, f) => s.feedRing e.key r e.slot f e.hdr.dep 20) s

/-- Rows of a tag: firings that have become determined are announced; when none is, rows are discarded and tile tokens that wait
may enter, as often as a ring has tiles. -/
def State.settleRows (s : State) (e : SlotEnv) (tag : Nat) : Nat → State
  | 0 => s
  | n + 1 =>
    let s := match e.instr with
      | .muster _ => (s.musterClaim e tag).musterDrain e tag
      | _ => s
    if s.determined e tag then s.markReady e.key e.slot tag (s.firings e tag)
    else
      match e.instr with
      | .muster _ =>
        match s.musterPass e tag with
        | some s => s.settleRows e tag n
        | none => (s.unready e.loc e.slot tag).gateDiscards e tag
      | _ =>
        let s := ((s.unready e.loc e.slot tag).discards e tag).feed e
        if e.rings.isEmpty then s else s.settleRows e tag n

/-- Results and closes of a tag. -/
def State.settleOut (s : State) (e : SlotEnv) (tag : Nat) : State :=
  let idle := !s.determined e tag
  let s := if idle then s.flush e tag else s
  let s := e.streams.foldl (fun s stream =>
    let st := s.slotSt e.key e.slot
    let known := if idle && !s.storesOut e tag then e.outClose (s.getU e.key) st tag stream else none
    let front := match e.instr with
      | .muster _ => (e.musterFields.map fun f => (st.field f tag).front).foldl min openHi
      | .tear _ => if stream == 0 then e.minFront st tag else
          match (amGet (s.getU e.key).tear tag {}).batch with
          | some b => 16 * (b + 1)
          | none => 0
      | _ => e.boundFront st tag
    let s := s.release e tag stream known front 4096
    match known with
    | some d => s.closeOut e tag stream d
    | none => s) s
  -- the slot state of a tag is emptied when its output closes; CLOSE's bit stays until its input closes (R147)
  let st := s.slotSt e.key e.slot
  if e.instr.keepsState && (amGet st.outs (outKey tag 0) {}).closed && (e.closePoint st tag).isSome then
    s.setSlot e.key e.slot { st with acc := amDel st.acc tag }
  else s

/-! ## Re-injection (R82, R83) -/

/-- The return stream that a token belongs to: MUSTER's l has one for each destination (R251); a token of a sender that no line declares joins
stream 0 (notes/assumptions/129.md). -/
def SlotEnv.streamOf (e : SlotEnv) (f : Fld) (t : Token) : Nat :=
  match e.instr, f with
  | .muster _, .l => amGet e.conf.muster t.route 0
  | _, _ => 0

/-- Whether a field has a free row for a tag (R77): a tag past the size of its space indexes none (notes/assumptions/100.md); records of MUSTER take entries of its table (R251). -/
def State.rowFree (s : State) (e : SlotEnv) (f : Fld) (tag stream : Nat) : Bool :=
  match e.instr, f with
  | .muster _, .r => (s.getU e.key).muster.length < 64
  | _, _ => tag % 64 < amGet e.conf.tags e.hdr.tsp 1 && (amGet (s.slotSt e.key e.slot).fields (fkey f tag stream) {}).rows.length ≤ e.hdr.dep

def OvEntry.sameStream (e : SlotEnv) (x y : OvEntry) : Bool :=
  x.u == y.u && x.slot == y.slot && x.f == y.f && x.tok.tag == y.tok.tag && e.streamOf x.f x.tok == e.streamOf y.f y.tok

/-- Entries of the overflow queue that could enter now: each the first of its stream, of a commit that is aligned, a token with a
free row or a close. -/
def State.reinjectable (s : State) (e : SlotEnv) : List OvEntry :=
  let q := ((s.getPad (s.getU e.key).pad).overflow.filter fun x => x.u == e.loc && x.slot == e.slot)
  let st := s.slotSt e.key e.slot
  q.filter fun x =>
    (q.find? fun y => y.sameStream e x) == some x && x.epoch ≤ st.aligned &&
      (x.tok.isClose || s.rowFree e x.f x.tok.tag (e.streamOf x.f x.tok))

/-- Lowest tag first, then lowest lo. -/
def firstEntry : List OvEntry → Option OvEntry
  | [] => none
  | x :: xs =>
    match firstEntry xs with
    | none => some x
    | some y => if x.tok.tag < y.tok.tag || (x.tok.tag == y.tok.tag && x.tok.lo ≤ y.tok.lo) then some x else some y

/-- Asks for a re-injection when one can take place: it goes ahead of the tokens that are arriving (R81, R83). -/
def State.askReinject (s : State) (e : SlotEnv) : State :=
  let pad := (s.getU e.key).pad
  let i : Instr := .overflowReinject pad e.loc e.slot
  if (s.reinjectable e).isEmpty || s.events.any fun x => x.instr == i then s else s.postFront i

/-! ## Commits (R286) -/

/-- Fields that take part in alignment. -/
def SlotEnv.alignFields (e : SlotEnv) : List Fld := e.nets.filter fun f => !e.conf.loopFed.contains (e.slot, f)

/-- The key under which arrivals of commits are counted: by field, and by return stream for MUSTER's l. -/
def commitKey (f : Fld) (stream : Nat) : Nat := stream * 4 + f.code

def SlotEnv.commitKeys (e : SlotEnv) : List Nat :=
  e.alignFields.flatMap fun f =>
    match e.instr, f with
    | .muster _, .l => ((e.conf.muster.map (·.2)).eraseDups).map fun j => commitKey .l j
    | _, f => [commitKey f 0]

/-- The next commit can be aligned: it has arrived on every field, and what it covers has been done. -/
def State.canAlign (s : State) (e : SlotEnv) : Bool :=
  let st := s.slotSt e.key e.slot
  let u := s.getU e.key
  !e.commitKeys.isEmpty && (e.commitKeys.all fun k => decide (st.aligned < amGet st.commits k 0)) &&
    (s.ready.all fun r => !(r.1 == e.loc && r.2.1 == e.slot)) && (u.parked.all fun r => r.1 != e.slot) &&
    (s.reinjectable e).isEmpty && (u.stores.all fun x => x.slot != e.slot || x.visible)

/-- The tiles that a slot writes, owns or reads: a state tile, an accumulator, the tiles of its rings, a plain source. -/
def UnitConf.tilesOf (c : UnitConf) (slot : Nat) : List Nat :=
  let ring (r : Nat) : List Nat := amGet c.rings r []
  let ringOf (n : Nat) : List Nat := ((c.rings.find? fun r => r.2.contains n).map (·.2)).getD []
  match c.slotAt slot with
  | some (.scan _, h) | some (.lrec _, h) | some (.ema _, h) | some (.fir _, h) => [(c.constTok h.kreg).payload.toNat % 64]
  | some (.mma m, _) | some (.mmab m, _) | some (.mmaw m, _) => m.acc.toNat :: (ring m.ringA.toNat ++ ring m.ringB.toNat)
  | some (.tcvt t, _) | some (.ttrn t, _) => t.src.toNat :: ringOf t.dst.toNat
  | some (.tfill t, _) => ringOf t.dst.toNat
  | some (.trow x, _) => ring (x.md.toNat / 2)
  | _ => []

/-- The carried tiles in a slot's snapshot (R286): its own, and in the snapshot of the unit's first slot those that no slot names, which
engines alone reach. -/
def SlotEnv.carried (e : SlotEnv) : List Nat :=
  let first := (e.conf.slots.head?).any fun x => x.1 == e.slot
  let named := e.conf.slots.flatMap fun x => e.conf.tilesOf x.1
  e.conf.carriedTiles.filter fun n => (e.conf.tilesOf e.slot).contains n || (first && !named.contains n)

/-- A slot's snapshot of a commit: what came before it. Tokens behind the commit are sent again after a rollback (R289). -/
def State.slotSnap (s : State) (e : SlotEnv) (c : Nat) : SnapSlot :=
  let u := s.getU e.key
  let st := s.slotSt e.key e.slot
  { commit := c, u := e.loc, slot := e.slot, st := { st with commits := st.commits.map fun (k, n) => (k, min n c) }
    overflow := (s.getPad u.pad).overflow.filter fun x => x.u == e.loc && x.slot == e.slot && x.epoch < c
    tiles := e.carried.map fun n => let t := u.tile n; (n, t, s.tileBytes e.key t 0 t.size)
    rings := ((e.rings.map (·.1)) ++ e.writes.toList).map fun r => (r, u.ring r)
    tear := match e.instr with
      | .tear _ => u.tear
      | _ => []
    muster := match e.instr with
      | .muster _ => u.muster
      | _ => []
    stores := u.stores.filter fun x => x.slot == e.slot }

/-- Sends commit c to one sink. -/
def State.sendCommit (s : State) (e : SlotEnv) (c : Nat) (k : Sink) : State :=
  let st := s.slotSt e.key e.slot
  let (tag, seq) := amGet st.sentLast k.num (0, 0)
  let s := s.setSlot e.key e.slot { st with commitMark := k.num :: st.commitMark.filter (· != k.num) }
  s.emitSink e k (commitToken (s.getU e.key).ctx c tag seq)

/-- Every sink has aligned the commit after the last complete one; in a paddock without sinks some snapshot of it has been taken. -/
def Pad.allAligned (p : Pad) : Bool :=
  (p.sinks.all fun x => decide (p.commit < x.2.aligned)) &&
    (!p.sinks.isEmpty || (p.snaps.any fun x => decide (p.commit < x.commit)) || p.snapActors.any fun x => decide (p.commit < x.commit))

/-- A commit may have become complete (R288). -/
def State.askCommit (s : State) (pad : Nat) : State :=
  let i : Instr := .commitComplete pad
  if (s.getPad pad).allAligned && s.events.all fun x => x.instr != i then s.post i else s

/-- Aligns the next commit: the snapshot, then one commit token to every sink, and into the ring that the slot writes. -/
def State.align (s : State) (e : SlotEnv) : State :=
  let c := (s.slotSt e.key e.slot).aligned + 1
  let s := s.updSlot e.key e.slot fun st => { st with aligned := c }
  let snap := s.slotSnap e c
  let s := s.updPad (s.getU e.key).pad fun p => { p with snaps := p.snaps ++ [snap] }
  let u := s.getU e.key
  let s := (e.streams.flatMap fun st => e.sinks u st).foldl (fun s k => s.sendCommit e c k) s
  let s := match e.writes with
    | some r => s.updRing e.key r fun g => { g with waiting := g.waiting ++ [commitToken u.ctx c 0 0] }
    | none => s
  s.askCommit u.pad

/-! ## Settling a slot -/

/-- One slot: its tags, its re-injections, and commits while they can be aligned. -/
def State.settleSlot (s : State) (e : SlotEnv) : Nat → State
  | 0 => s
  | n + 1 =>
    let s := s.feed e
    let tags := (s.slotSt e.key e.slot).tagsSeen
    let s := tags.foldl (fun s tag => (s.settleRows e tag 20).settleOut e tag) s
    let s := s.askReinject e
    if s.canAlign e then (s.align e).settleSlot e n else s

/-- Settles a slot, and after it the reader of the ring that it writes. -/
def State.settle (s : State) (key slot : Nat) : State :=
  match s.slotEnv key slot with
  | none => s
  | some e =>
    let s := s.settleSlot e 64
    match e.writes with
    | some r =>
      match e.conf.ringReader r with
      | some (rs, _) =>
        match s.slotEnv key rs with
        | some re => s.settleSlot re 64
        | none => s
      | none => s
    | none => s

/-- Settles every slot of a unit: its paddock goes on. -/
def State.settleUnit (s : State) (key : Nat) : State :=
  ((s.getU key).conf.slots.map (·.1)).foldl (fun s slot => s.settle key slot) (s.wake key)

end Sys2Proof.Machine
end

