-- ==== Sys2Proof/WellFormed.lean ====
section
/-!
DEFINITION. Well-formed instructions: no reserved content in an S-word (R37 to R42, R302, R307, R349), and in an E-word the types, modes
and consumer forms that its entry lists (R47 to R51, R150 to R198, R237 to R252, R356).
-/

namespace Sys2Proof

/-! ## S-words -/

/-- An S-word without reserved content. -/
def Instr.sOk : Instr → Bool
  | .amof op d _ _ _ _ | .amos op d _ _ _ _ => !(op == .cas && d == 31)
  | .loopn _ len _ => BitVec.slt 0 len
  | .advp _ n _ | .advc _ n _ => n != 0
  | .mfs _ idx _ => mfsAssigned idx
  | .mts idx _ _ => mtsAssigned idx
  | _ => true

/-! ## Types of E-words -/

/-- F of R150. -/
def Ty.isF : Ty → Bool
  | .f32 | .f64 | .bf16x2 | .f16x2 => true
  | _ => false

def Ty.isF8 : Ty → Bool
  | .f8e4x4 | .f8e5x4 => true
  | _ => false

/-- Types that md.alt turns into another (R47). -/
def Ty.hasAlt : Ty → Bool
  | .f32 | .i32 | .i8x4 => true
  | _ => false

def altBit (md : BitVec 4) : Bool := md.getLsbD 0
def ftzBit (md : BitVec 4) : Bool := md.getLsbD 1

/-- Every type, with md.alt only where it names one. -/
def anyTy (e : EW) : Bool := !altBit e.md || e.ty.hasAlt

/-- Types I of R154, with md.ftz 0. -/
def intTy (e : EW) : Bool :=
  !ftzBit e.md && match e.ty with
    | .i32 => true
    | .i8x4 => !altBit e.md
    | _ => false

def fTy (e : EW) : Bool := e.ty.isF && !altBit e.md
def shortTy (e : EW) : Bool := fTy e && e.ty != .f64

/-- VCMP's conditions by type (R157). -/
def cmpTy (e : EW) : Bool :=
  let c := e.md.toNat
  match e.ty with
  | .i32 | .i8x4 => c ≤ 5 || (8 ≤ c && c ≤ 11)
  | _ => c ≤ 7

/-- VCVT's destination (R152); the source stands in the header. -/
def cvtTy (e : EW) : Bool :=
  match e.ty with
  | .i32 => !ftzBit e.md
  | .i8x4 => !ftzBit e.md && !altBit e.md
  | _ => !altBit e.md

/-- VRED's and SCAN's types and operation codes (R191, R195). -/
def redTy (e : EW) : Bool :=
  (e.ty == .f32 || e.ty == .f64 || e.ty == .i32) && e.md.extractLsb' 0 2 != 3

/-- The matrix forms (R181). -/
def mmaTy (m : MatW) : Bool :=
  match m.ty with
  | .f8e4x4 | .f8e5x4 => m.tyB.isF8 && m.md &&& 13 == 0
  | .bf16x2 | .f16x2 | .f32 | .f64 => m.tyB == m.ty && m.md &&& 13 == 0
  | .i8x4 => m.tyB == .i8x4 && m.md &&& 3 == 0
  | .i32 => false

def mmawTy (m : MatW) : Bool := m.ty == .f8e4x4 || m.ty == .f8e5x4 || m.ty == .bf16x2

/-- The type of a tile that a tile instruction names: not blk. -/
def tileTy (t : TileW) : Bool := t.tyD == t.ty && (!altBit t.md || (t.ty.hasAlt && t.ty != .f32))

def tcvtTy (t : TileW) : Bool :=
  !altBit t.md && (t.ty == .f32 || t.ty == .f64 || t.ty == .i32) && (t.tyD.isF8 || t.tyD == .bf16x2 || t.tyD == .f16x2 ||
    t.tyD == .f32 || t.tyD == .i8x4) && (t.tyD != .i8x4 || !ftzBit t.md)

/-- The types and modes of an E-word's entry that its layout does not fix already. -/
def Instr.typeOk : Instr → Bool
  | .vadd e | .vsub e | .vmul e | .vdiv e | .vrcp e | .vrsq e | .vsqrt e | .vmac e | .vfmak e | .vround e | .vclass e => fTy e
  | .vexp2 e | .vlog2 e | .vtanh e | .vsig e => shortTy e
  | .vabs e | .vneg e | .vmin e | .vmax e => (e.ty.isF || e.ty.isF8) && !altBit e.md
  | .vcvt e => cvtTy e
  | .viadd e | .visub e | .vimul e | .vmulh e | .vimin e | .vimax e | .viabs e | .vand e | .vor e | .vxor e | .vclz e | .vpopc e
  | .vshl e | .vshr e | .vsra e | .vimac e => intTy e
  | .vcmp e => cmpTy e
  | .vsel e | .steer e | .merge e | .compact e | .expand e | .vmask e | .vperm e | .vrev e | .zip e | .unzip e | .gate e | .trow e => anyTy e
  | .vextr e => e.ty != .f64 || !e.md.getLsbD 0
  | .window e => fTy e || intTy e
  | .vred e => redTy e && (e.ty == .i32 || e.md.extractLsb' 0 2 == 0 || e.md.extractLsb' 2 2 == 0)
  | .scan e => redTy e
  | .lrec e | .ema e | .fir e => e.ty == .f32 || e.ty == .f64
  | .carry e => (e.ty == .f32 || e.ty == .f64 || e.ty == .i32) && e.md.extractLsb' 0 2 != 3
  | .mma m => mmaTy m
  | .mmaw m => mmawTy m
  | .bmm4 e => !altBit e.md
  | .tclr t | .ttrn t | .tfill t => tileTy t
  | .tcvt t => tcvtTy t
  | .muster e => e.ty == .f32 || e.ty == .bf16x2 || e.ty == .f16x2
  | .updn e => e.ty == .i32 || e.ty == .f32
  | _ => true

/-! ## Consumers (R47, R48, R51) -/

/-- A consumer by itself: none has slot 0, a port has field 00. -/
def Consumer.formOk (c : Consumer) : Bool :=
  if c.fld == 3 then c.slot == 0 else decide (c.slot.toNat < 0x70) || c.fld == 0

/-- The consumers of an ordinary E-word. -/
def EW.consumersOk (e : EW) : Bool := e.c0.formOk && e.c1.formOk && (e.c0 != e.c1 || e.c0.fld == 3)

/-- The consumers of an E-word with the ordinary layout. -/
def Instr.ew? : Instr → Option EW
  | .vadd e | .vsub e | .vmul e | .vmac e | .vfmak e | .vmin e | .vmax e | .vabs e | .vneg e | .vrcp e | .vrsq e | .vsqrt e
  | .vdiv e | .vexp2 e | .vlog2 e | .vtanh e | .vsig e | .vcvt e | .vround e | .vclass e | .viadd e | .visub e | .vimul e
  | .vimac e | .vshl e | .vshr e | .vsra e | .vand e | .vor e | .vxor e | .vimin e | .vimax e | .vclz e | .vpopc e | .viabs e
  | .vmulh e | .vcmp e | .vsel e | .steer e | .merge e | .compact e | .expand e | .vmask e | .vany e | .vperm e | .vbcast e
  | .vrev e | .vextr e | .vins e | .zip e | .unzip e | .vlshift e | .vred e | .rsend e | .scan e | .lrec e | .ema e | .fir e
  | .segset e | .carry e | .span e | .split e | .delay e | .window e | .close e | .spanq e | .coalesce e | .bmm4 e | .trow e
  | .tear e | .muster e | .astr e | .ldn e | .stn e | .updn e | .ldsc e | .stsc e | .sbar e | .xlate e | .gate e | .cand e
  | .cor e => some e
  | _ => none

/-- Operations of node slots (R51). -/
def Instr.isNodeOp : Instr → Bool
  | .astr _ | .ldn _ | .stn _ | .updn _ | .ldsc _ | .stsc _ | .sbar _ | .xlate _ => true
  | _ => false

/-- Slot codes that a consumer may name in the kind of slot that the operation takes. -/
def Instr.reachOk (i : Instr) : Bool :=
  match i.ew? with
  | some e =>
    e.consumersOk && (!i.isNodeOp || [e.c0, e.c1].all fun c =>
      c.fld == 3 || decide (c.slot.toNat < 0x10) || decide (0x70 ≤ c.slot.toNat))
  | none => true

/-- A well-formed instruction. -/
def Instr.wellFormed (i : Instr) : Bool := i.sOk && i.layout && i.typeOk && i.reachOk

end Sys2Proof
end

