-- ==== Sys2Proof/Machine/Fire.lean ====
section
/-!
DEFINITION. One slot firing: operands, predicate gates, error tags, the result's sideband (R72, R75, R142, R143, R357, R374).
-/

namespace Sys2Proof.Machine

/-- A firing with the values of its segments, and its result's sideband. -/
structure Fire where
  tag : Nat
  lo : Nat
  hi : Nat
  l : Token
  r : Token
  p : Token
  out : Token                              -- span, tag, context, flags of the result (R75)
  deriving DecidableEq, Repr, Inhabited

/-- What a firing does: it waits (R175), or it is taken, with what it puts out. -/
inductive Eff
  | park (s : State)
  | done (s : State) (outs : List (Nat × HeldOut))

/-- The value of a chosen segment (R69, R70, R160). -/
def segTok (ty : Ty) (lo hi : Nat) (g : Seg) : Token :=
  match g.val with
  | .real t => t
  | .hold t => t
  | .interp p n => interpToken ty lo hi p n
  | .empty => {}

/-- The type that an operand field is read in: the E-word's, and VCVT's source type. A matrix slot's p has no element. -/
def operandTy (i : Instr) (h : Hdr) : Ty :=
  match i with
  | .vcvt _ => h.stype
  | .tclr t | .tcvt t | .ttrn t | .tfill t => t.ty
  | .mma m | .mmab m | .mmaw m => m.ty
  | i =>
    match i.ew? with
    | some e => e.ty
    | none => .f32

/-- The firing of a choice. Fields that take no token read a constant register, or nothing. -/
def SlotEnv.fire (e : SlotEnv) (ctx tag : Nat) (c : Choice) : Fire :=
  let ty := operandTy e.instr e.hdr
  let k := e.conf.constTok e.hdr.kreg
  let at' (f : Fld) (code : Nat) : Token :=
    match c.segs.find? fun x => x.1 == f with
    | some (_, g) => segTok ty c.lo c.hi g
    | none => if e.hdr.csel == code && !(f == .p && e.instr.hasParam) then k else {}
  let l := at' .l 1
  let r := at' .r 2
  let p := at' .p 3
  let toks := c.segs.map fun (_, g) => segTok ty c.lo c.hi g
  { tag := tag, lo := c.lo, hi := c.hi, l := l, r := r, p := p
    out :=
      { lo := c.lo, hi := c.hi, tag := tag, ctx := ctx, exc := toks.any (·.exc), sat := toks.any (·.sat) } }

/-- Error-flagged segments of a firing; a tile token's error flag does not count as one (R143). -/
def SlotEnv.errSegs (e : SlotEnv) (ty : Ty) (c : Choice) : List Token :=
  (c.segs.filter fun (f, _) => !(e.instr.isMatrix && f != .p)).filterMap fun (_, g) =>
    let t := segTok ty c.lo c.hi g
    if t.err then some t else none

/-- Whether the gate of the slot lets the firing through: a predicate token's value, or lane 0 of a constant (R142). -/
def SlotEnv.gateOpen (e : SlotEnv) (fi : Fire) : Bool :=
  if e.instr.readsP then true
  else if e.nets.contains .p then fi.p.payload.toNat % 2 == 1
  else if constGate e.instr e.hdr then
    let k := e.conf.constTok e.hdr.kreg
    k.valid.getLsbD 0 && laneAt k.payload 0 != 0
  else true

/-- An operand whose residues do not agree with its bits, or a control token of odd parity (R57, R148). -/
def residueBad (t : Token) : Bool :=
  if t.net == .control then t.parity != t.parityBit else t.isData && t.residue != laneResidues t.net t.payload

/-- Some operand of a firing fails its check: a token of a segment, the two that an interpolation reads among them. -/
def Choice.bad (c : Choice) : Bool := c.segs.any fun (_, g) => g.tokens.any residueBad

/-- The cell of a unit; a node has none. -/
def Loc.cell? : Loc → Option Nat
  | .cell i _ => some i
  | .node _ => none

/-- One armed injection of a cell's ERRMASK is spent: its report is made, and the recomputation or re-read absorbs it
(R374, R388). -/
def State.injection (s : State) (e : SlotEnv) (bit cause : Nat) (commit : Bool) : State × Bool :=
  match Loc.cell? e.loc with
  | none => (s, false)
  | some i =>
    let k := s.coreOf i
    if k.errmask.getLsbD bit then
      ((s.setCoreOf i { k with errmask := k.errmask &&& ~~~BitVec.ofNat 64 (2 ^ bit) }).report
        { cause := cause, pad := (s.getU e.key).pad, cell := some i, site := some e.loc.site, injected := true, commitScope := commit }, true)
    else (s, false)

/-- Whether an ERRMASK bit of a unit's cell is armed. -/
def State.armed (s : State) (e : SlotEnv) (bit : Nat) : Bool :=
  match Loc.cell? e.loc with
  | none => false
  | some i => (s.coreOf i).errmask.getLsbD bit

/-- A report of a unit: a cell's to its shepherd, a node's to the drover (R373). -/
def State.reportAt (s : State) (e : SlotEnv) (cause : Nat) (commit : Bool) : State :=
  s.report { cause := cause, pad := (s.getU e.key).pad, cell := Loc.cell? e.loc, site := some e.loc.site, commitScope := commit }

/-- A report of a unit if it has found a cause. -/
def State.reportIf (s : State) (e : SlotEnv) (cause : Option Nat) : State :=
  match cause with
  | some c => s.reportAt e c false
  | none => s

/-- The report of an MMAB firing, with the seal of the block (R103). -/
def State.reportSeal (s : State) (e : SlotEnv) (cause : Nat) (sl : Option Nat) : State :=
  s.report { cause := cause, pad := (s.getU e.key).pad, cell := Loc.cell? e.loc, site := some e.loc.site, commitScope := true, sealRead := sl }

/-- The recurrence operations, whose chained state tile a failure taints (R374). -/
def SlotEnv.chainTile (e : SlotEnv) : Option Nat :=
  match e.instr with
  | .scan _ | .lrec _ | .ema _ | .fir _ =>
    let k := laneAt (e.conf.constTok e.hdr.kreg).payload 0
    if bitOf k 8 then some (k % 64) else none
  | _ => none

def State.taintTile (s : State) (key n cause : Nat) : State :=
  let t := s.tile key n
  s.setTile key n { t with err := true, cause := if t.err then t.cause else cause }

/-! ## Tiles that a firing reads (R371, R372) -/

/-- The tiles whose bytes a firing reads: those of its rings and a FILLING accumulator, a state tile, a source. -/
def SlotEnv.tilesRead (e : SlotEnv) (s : State) (fi : Fire) : List Nat :=
  let k := laneAt (e.conf.constTok e.hdr.kreg).payload 0 % 64
  match e.instr with
  | .mma m | .mmab m | .mmaw m =>
    [e.conf.ringTile m.ringA.toNat fi.l.cnum, e.conf.ringTile m.ringB.toNat fi.r.cnum] ++
      (if (s.tile e.key m.acc.toNat).st == .filling then [m.acc.toNat] else [])
  | .scan _ | .lrec _ | .ema _ => e.chainTile.toList
  | .fir _ | .carry _ => [k]
  | .tcvt t | .ttrn t => [t.src.toNat]
  | _ => []

/-- No line of a tile that the firing reads carries a mark. -/
def State.tilesClean (s : State) (e : SlotEnv) (fi : Fire) : Bool :=
  (e.tilesRead s fi).all fun n => let t := s.tile e.key n; (linesOf (tileAddr (idxOf e.key) t) t.size).all fun l => s.markOf .l l == none

/-- A tile is read with the checks of L: one that holds a line which cannot be read becomes tainted, and the failure is reported. -/
def State.readTile (s : State) (e : SlotEnv) (n : Nat) : State :=
  let t := s.tile e.key n
  match s.checkedRead .l (tileAddr (idxOf e.key) t) t.size with
  | (s, _, some c) => if t.err then s else (s.taintTile e.key n c).reportAt e c true
  | (s, _, none) => s

/-- The tiles of a firing are read. -/
def State.readTiles (s : State) (e : SlotEnv) (fi : Fire) : State :=
  if s.tilesClean e fi then s else (e.tilesRead s fi).foldl (fun s n => s.readTile e n) s

/-! ## Side accesses (R176) -/

/-- Slots that access tile n from the side: TCLR, TCVT, CARRY. -/
def sideSlots (c : UnitConf) (n : Nat) : List Nat :=
  (c.slots.filter fun (_, w, h) =>
    match decodeE w with
    | .ok (.tclr t) => t.dst.toNat == n
    | .ok (.tcvt t) => t.src.toNat == n
    | .ok (.carry _) => laneAt (c.constTok (Hdr.ofWord h).kreg).payload 0 % 64 == n
    | _ => false).map (·.1)

/-- The matrix or recurrence slot that owns tile n. -/
def tileOwner (c : UnitConf) (n : Nat) : Option Nat :=
  c.slots.findSome? fun (slot, w, h) =>
    match decodeE w with
    | .ok (.mma m) | .ok (.mmab m) | .ok (.mmaw m) => if m.acc.toNat == n then some slot else none
    | .ok (.scan _) | .ok (.lrec _) | .ok (.ema _) | .ok (.fir _) =>
      let k := laneAt (c.constTok (Hdr.ofWord h).kreg).payload 0
      if bitOf k 8 && k % 64 == n then some slot else none
    | _ => none

/-- No firing of another slot under the tag with intersection lo below t is left, or can still come. -/
def State.passed (s : State) (e : SlotEnv) (slot tag t : Nat) : Bool :=
  match s.slotEnv e.key slot with
  | none => true
  | some o =>
    if o.hdr.tsp != e.hdr.tsp then true
    else
      let st := s.slotSt e.key slot
      decide (t ≤ o.minFront st tag) &&
        match o.next st tag with
        | some c => decide (t ≤ c.lo)
        | none => true

/-- The owner's firing at lo waits for every side access at lo or below; a side access at lo waits for every firing of the owner
below. -/
def State.ownerMayGo (s : State) (e : SlotEnv) (fi : Fire) (n : Nat) : Bool :=
  (sideSlots e.conf n).all fun x => s.passed e x fi.tag (fi.lo + 1)

def State.sideMayGo (s : State) (e : SlotEnv) (fi : Fire) (n : Nat) : Bool :=
  match tileOwner e.conf n with
  | some o => s.passed e o fi.tag fi.lo
  | none => true

/-- The tail of the ring that a slot writes, opened for a write at lo; none when it is not EMPTY or FILLING (R177). A tile that
is FILLING takes writes under any tag and keeps the tag of its first (notes/assumptions/116.md). -/
def State.ringTail (s : State) (e : SlotEnv) (lo tag : Nat) : Option (State × Nat) :=
  match e.writes with
  | none => none
  | some r =>
    let n := s.tailTile e.key r
    match (s.tile e.key n).st with
    | .empty => some (s.openOpTile e.key n lo tag, n)
    | .filling => some (s, n)
    | _ => none

/-- The next row of the tail tile (R189); the sixteenth completes it. -/
def State.trowWrite (s : State) (e : SlotEnv) (blk : Bool) (fi : Fire) (row : Token) : Eff :=
  match e.writes, s.ringTail e fi.lo fi.tag with
  | some r, some (s, d) =>
    let t := s.tile e.key d
    let lane (i : Nat) : Nat := if blk || row.valid.getLsbD i then laneAt row.payload i else 0
    let bs := (List.range (if blk then 16 else 12)).flatMap fun i => toBytes 4 (lane i)
    let s := (s.setTileBytes e.key t (64 * t.rows) bs).setTile e.key d
      { t with
        rows := t.rows + 1, exc := t.exc || row.exc, sat := t.sat || row.sat, err := t.err || row.err
        cause := if t.err then t.cause else row.cause }
    .done (if t.rows == 15 then s.completeTail e.key r fi.hi else s) []
  | _, _ => .park s

/-- A firing with an error-flagged segment (R143): nothing is computed, slot state stays but is tainted, and every consumer that
could be reached gets one error-tagged token. A firing on a state tile takes its place among the accesses of the tile all the same
(R175, R176). TEAR gives the row an error-tagged record (R250), TCVT opens and marks its destination
(R187, R188), TROW writes a row of zeros (R189). -/
def State.errFiring (s : State) (e : SlotEnv) (fi : Fire) (cause : Nat) : Eff :=
  let out := { fi.out with err := true, cause := cause, payload := 0, valid := 0, reset := 0 }.sealed
  let out := if e.hdr.net == 1 then { out with net := .scalar } else out
  match e.instr with
  | .tear _ =>
    let x := amGet (s.getU e.key).tear fi.tag {}
    let none4 : List CopySt := List.replicate 4 .none
    let step : TearStep := ⟨none4, ((amGet (s.slotSt e.key e.slot).outs (outKey fi.tag 0) {}).next + x.recs.length) % 2 ^ 24⟩
    let x := { x with nextId := x.nextId + 1, recs := x.recs ++ [TearRec.mk x.nextId out none4] }
    let (x, outs) := tearRecords x
    .done (s.updU e.key fun u => { u with tear := amPut u.tear fi.tag x, tearSteps := amPut u.tearSteps e.slot step }) outs
  | .tcvt x =>
    if !s.sideMayGo e fi x.src.toNat then .park s
    else
      match s.ringTail e fi.lo fi.tag with
      | some (s, d) => .done (s.taintTile e.key d cause) []
      | none => .park s
  | .trow _ => s.trowWrite e false fi { fi.out with err := true, cause := cause }
  | _ =>
    -- CLOSE lets nothing out at or past its c, and closes there (R168)
    let c := q40 e.constR 0
    let (outs, reached) : List (Nat × HeldOut) × Bool := match e.instr with
      | .close _ =>
        (if (amGet (s.slotSt e.key e.slot).acc fi.tag {}).closedBit || decide (c ≤ fi.lo) then []
          else [(0, if c ≤ fi.hi then HeldOut.mk { out with hi := c } openHi none else HeldOut.mk out out.hi none)], decide (c ≤ fi.hi))
      | _ => (e.streams.map fun st => (st, HeldOut.mk out out.hi none), false)
    if e.instr.keepsState then
      let win : List Nat := match e.instr with
        | .window _ => [fi.lo / q40 e.constR 0]
        | _ => []
      .done ((s.updSlot e.key e.slot fun st =>
        { st with acc := amUpd st.acc fi.tag {} fun a => { a with tainted := true, cause := cause, errWins := a.errWins ++ win, closedBit := a.closedBit || reached } }).reportAt
          e cause true) outs
    else
      match e.chainTile with
      | some n =>
        if (s.tile e.key n).st != .ready || !s.ownerMayGo e fi n then .park s
        else .done ((s.taintTile e.key n cause).reportAt e cause true) outs
      | none => .done s outs

/-- An operand whose residue check fails (R148, R371, R374): the firing is computed again from the same segments, fails as before, and its result
is error-tagged with cause RESIDUE; nothing is stored from it and no state takes it in. -/
def State.residueFiring (s : State) (e : SlotEnv) (fi : Fire) : Eff :=
  match s.errFiring e fi 0x01 with
  | .park s' => .park s'
  | .done s' outs => .done (if e.instr.keepsState || e.chainTile.isSome then s' else s'.reportAt e 0x01 false) outs

/-- A slot that updates has no update of its last firing to show (R258). -/
def State.noUpdates (s : State) (e : SlotEnv) : State :=
  match e.instr with
  | .updn _ => s.updU e.key fun u => { u with updates := amDel u.updates e.slot }
  | _ => s

/-- gweuf's breakpoint before a firing, known by its tag and lo (R201): the paddock stops once for each. -/
def State.fireBreak (s : State) (e : SlotEnv) (tag lo : Nat) : Bool :=
  let p := s.getPad (s.getU e.key).pad
  s.breaks.contains (.firing e.loc e.slot) && !p.passedFire.contains (e.loc, e.slot, tag, lo) && p.stepTo != some (e.loc, e.slot)

/-- A paddock stops before a firing, which waits in its rows. -/
def State.stopFire (s : State) (e : SlotEnv) (tag lo : Nat) : State :=
  (s.updPad (s.getU e.key).pad fun p => { p with stop := true, stepTo := none, passedFire := p.passedFire ++ [(e.loc, e.slot, tag, lo)] }).park
    e.key e.slot tag

/-- Whether firings of a unit may start (R33, R201, R274, R276, R277). -/
def State.mayFire (s : State) (key : Nat) : Bool :=
  let u := s.getU key
  u.live && u.waved && !u.stopped && (u.slotNo.isSome || !isCellKey key) && !(s.getPad u.pad).stop &&
    !(isCellKey key && (s.getCell (idxOf key)).testing)

/-- A cell's configuration has been used (R273). -/
def State.touch (s : State) (loc : Loc) : State :=
  match loc with
  | .cell i e =>
    let c := s.getCell i
    s.setCell i { c with lru := c.lru.filter (· != e) ++ [e] }
  | .node _ => s

/-- gweuf's step to the next firing of a slot ends (R201). -/
def State.stepDone (s : State) (e : SlotEnv) : State :=
  s.updPad (s.getU e.key).pad fun p =>
    if p.stepTo == some (e.loc, e.slot) then { p with stop := true, stepTo := none } else p

/-- Puts out a result of a firing: behind stores of the slot whose completion tokens have not left it waits as they do (R74, R241). -/
def State.putOut (s : State) (e : SlotEnv) (stream : Nat) (h : HeldOut) : State :=
  if s.storesOut e h.tok.tag then
    let (s, n) := s.numberOut e h.tok.tag stream
    s.updU e.key fun u => u.addStore
      { slot := e.slot, writes := [], completion := { h.tok with seq := n }, visible := true, commit := (s.slotSt e.key e.slot).aligned + 1 }
  else s.pushOut e stream h

/-- The firing has been taken: the time below its end is done, its results wait for their flags, and a step of gweuf ends. -/
def State.taken (s : State) (e : SlotEnv) (tag hi : Nat) (outs : List (Nat × HeldOut)) : State :=
  let s := (s.takeReady e.loc e.slot tag).touch e.loc
  let s := s.updSlot e.key e.slot fun st => { st with doneTo := amPut st.doneTo tag hi }
  let s := outs.foldl (fun s (stream, h) => s.putOut e stream h) s
  let s := (s.wake e.key).settle e.key e.slot
  let s := s.updPad (s.getU e.key).pad fun p => { p with passedFire := p.passedFire.filter fun x => (x.1, x.2.1, x.2.2.1) != (e.loc, e.slot, tag) }
  s.stepDone e

/-- The first token of kind 0x3 that a choice uses, with its field (R357). -/
def Choice.faultTok (c : Choice) : Option (Fld × Token) :=
  c.segs.findSome? fun (f, g) => (g.tokens.find? Token.isFault).map fun t => (f, t)

/-- ACCESS_FAULT for a token of kind 0x3 (R357): the first faulting pair's cause and address. -/
def faultTokenRec (s : State) (e : SlotEnv) (f : Fld) (t : Token) : FaultRec :=
  let pair := ((List.range 8).find? fun i => t.valid.getLsbD (2 * i)).getD 0
  e.fault s f 0x10 t.tag t (elAt 64 t.payload pair)

/-- Runs the next firing of the current slot and tag. `body` gives the operation's effect. -/
def runSlot (s : State) (body : SlotEnv → Fire → State → Eff) : Out :=
  let key := s.curLoc.key
  let slot := s.curSlot
  let tag := s.curTag
  match s.slotEnv key slot with
  | none => .next (s.unready s.curLoc slot tag)
  | some e =>
    if !s.mayFire key then .next (s.park key slot tag)
    else
      match e.next (s.slotSt key slot) tag with
      | none => .next (s.unready e.loc slot tag)
      | some c =>
        if s.fireBreak e tag c.lo then .next (s.stopFire e tag c.lo)
        else
          let fi := e.fire (s.getU key).ctx tag c
          let ty := operandTy e.instr e.hdr
          match c.faultTok with
          | some (f, t) =>
            .next (((s.noUpdates e).raise (s.getU key).pad (faultTokenRec s e f t)).taken e tag c.hi [])
          | none =>
            let eff :=
              match e.errSegs ty c with
              | t :: _ => (s.noUpdates e).errFiring e fi t.cause
              | [] =>
                if !e.gateOpen fi then .done (s.noUpdates e) []
                else if c.bad then (s.noUpdates e).residueFiring e fi
                else
                  -- a matrix firing whose check fails marks its accumulator before its rows are formed (R186)
                  let fi := if e.instr.isMatrix && s.armed e 4 then { fi with out := { fi.out with err := true, cause := 0x01 } } else fi
                  match body e fi (s.readTiles e fi) with
                  | .park s' => .park s'
                  | .done s' outs =>
                    let (s', inj) := (s'.injection e 5 0x06 false).1.injection e (if e.instr.isMatrix then 4 else 3) 0x01
                      (e.instr.isMatrix || e.chainTile.isSome)
                    .done (match inj, e.chainTile with
                      | true, some n => s'.taintTile key n 0x01
                      | _, _ => s') outs
            match eff with
            | .park s' => .next (s'.park key slot tag)
            | .done s' outs => .next (s'.taken e tag c.hi outs)

/-! ## Single results -/

/-- A result token of the firing, on the slot's network. -/
def Fire.result (fi : Fire) (h : Hdr) (r : LaneRes) : Token :=
  let t :=
    { fi.out with
      net := if h.net == 1 then .scalar else .vector
      payload := if h.net == 1 then BitVec.ofNat 512 (r.payload.toNat % 2 ^ 64) else r.payload
      valid := if h.net == 1 then r.valid &&& 1 else r.valid
      reset := if h.net == 1 then r.reset &&& 1 else r.reset
      exc := fi.out.exc || r.exc
      sat := fi.out.sat || r.sat }
  t.sealed

/-- A firing that puts out one result over its intersection. -/
def Fire.one (fi : Fire) (t : Token) : List (Nat × HeldOut) := [(0, { tok := t, basis := fi.hi })]

/-- An operation without slot state: one vector result. -/
def runLanes (s : State) (f : SlotEnv → Fire → LaneRes) : Out :=
  runSlot s fun e fi s => .done s (fi.one (fi.result e.hdr (f e fi)))

end Sys2Proof.Machine
end

