-- ==== Sys2Proof/Machine/Transc.lean ====
section
/-!
DEFINITION. Exact values of 1/√x, 2^x, log₂ x, tanh x and the logistic function, to one rounding (R150): fixed point with 320
bits below the point, far beyond what decides a rounding of the 24-bit results. Where a value is not exact, its magnitude lies
strictly above the one formed, by less than a unit.
-/

namespace Sys2Proof.Machine

/-- Bits below the point. -/
def fxBits : Nat := 320
def fxOne : Nat := 2 ^ fxBits

/-- ln 2 in fixed point. -/
def fxLn2 : Nat :=
  1480553391661173448385607439722553250922680800745876974795605978609098082859138712941075737848984

/-! ## 1/√x -/

/-- A square with an odd exponent is made even. -/
def evenExp (m : Nat) (e : Int) : Nat × Int := if e % 2 == 0 then (m, e) else (2 * m, e - 1)

/-- 1/√x: divide-by-zero at zeros, invalid below −0. -/
def FV.rsqrt (x : FV) : FV × Bool :=
  match x with
  | .nan => (.nan, false)
  | .inf true => (.nan, true)
  | .inf false => (.zero false, false)
  | .fin neg m e _ =>
    if m == 0 then (.inf neg, true)
    else if neg then (.nan, true)
    else
      let (m, e) := evenExp m e
      let k := 140 + m.log2
      let q := isqrt (2 ^ (2 * k) / m)
      (.fin false q (-(e / 2) - k) (q * q * m != 2 ^ (2 * k)), false)

/-! ## 2^x -/

/-- e^t for t below 1, by its series from the last term inwards. -/
def fxExpFrom (t : Nat) : Nat → Nat → Nat
  | 0, acc => acc
  | k + 1, acc => fxExpFrom t k (fxOne + t * acc / fxOne / (k + 1))

/-- 2^f for a fraction f in fixed point. -/
def fxExp2 (f : Nat) : Nat := fxExpFrom (f * fxLn2 / fxOne) 80 fxOne

/-- |x| in fixed point; x is a value of one of the formats, so no bit is lost. -/
def fxOf (m : Nat) (e : Int) : Nat := if e < 0 then m * fxOne / 2 ^ (-e).toNat else m * fxOne * 2 ^ e.toNat

/-- 2^(±u) for u in fixed point, u below 2^12: significand and exponent. -/
def fxPow (neg : Bool) (u : Nat) : Nat × Int :=
  let n := u / fxOne
  let f := u % fxOne
  if !neg then (fxExp2 f, (n : Int) - fxBits)
  else if f == 0 then (fxOne, -(n : Int) - fxBits)
  else (fxExp2 (fxOne - f), -(n : Int) - 1 - fxBits)

/-- Whether |x| is at least 2^k. -/
def bigger (m : Nat) (e : Int) (k : Int) : Bool := m != 0 && decide (k ≤ (m.log2 : Int) + e)

def FV.exp2 (x : FV) : FV :=
  match x with
  | .nan => .nan
  | .inf true => .zero false
  | .inf false => .inf false
  | .fin neg m e _ =>
    if m == 0 then .one
    else if bigger m e 11 then .fin false 1 (if neg then -4096 else 4096) false
    else
      let u := fxOf m e
      let (q, d) := fxPow neg u
      .fin false q d (u % fxOne != 0)

/-! ## log₂ x -/

/-- atanh z = z + z³/3 + z⁵/5 + …, from the last term inwards: term k is z2^k/(2k + 1). -/
def fxAtanhFrom (z2 : Nat) : Nat → Nat → Nat
  | 0, acc => acc
  | k + 1, acc => fxAtanhFrom z2 k (fxOne / (2 * k + 1) + z2 * acc / fxOne)

/-- ln y for y in [1, 2), in fixed point. -/
def fxLn (y : Nat) : Nat :=
  let z := (y - fxOne) * fxOne / (y + fxOne)
  2 * (z * fxAtanhFrom (z * z / fxOne) 120 0 / fxOne)

/-- log₂ x: divide-by-zero at zeros, invalid below −0. -/
def FV.log2 (x : FV) : FV × Bool :=
  match x with
  | .nan => (.nan, false)
  | .inf true => (.nan, true)
  | .inf false => (.inf false, false)
  | .fin neg m e _ =>
    if m == 0 then (.inf true, true)
    else if neg then (.nan, true)
    else
      let k := m.log2
      let ex : Int := e + k
      let y := m * fxOne / 2 ^ k
      let v : Int := ex * fxOne + (fxLn y * fxOne / fxLn2 : Nat)
      if m == 2 ^ k then (.fin (ex < 0) ex.natAbs 0 false, false) else (.fin (v < 0) v.natAbs (-(fxBits : Int)) true, false)

/-! ## tanh and the logistic function -/

/-- A magnitude just below one. -/
def belowOne (neg : Bool) : FV := .fin neg (2 ^ 100 - 1) (-100) true

/-- e^(−a·k) for a in fixed point: significand over 2^(fxBits + n), and n. -/
def fxExpNeg (a : Nat) : Nat × Nat :=
  let u := a * fxOne / fxLn2
  let (q, d) := fxPow true u
  (q, (-d - fxBits).toNat)

def FV.tanh (x : FV) : FV :=
  match x with
  | .nan => .nan
  | .inf neg => .fin neg 1 0 false
  | .fin neg m e _ =>
    if m == 0 then .zero neg
    else if bigger m e 6 then belowOne neg
    else if !bigger m e (-80) then .fin neg (m * 2 ^ 64 - 1) (e - 64) true
    else
      let (q, n) := fxExpNeg (2 * fxOf m e)
      let one := 2 ^ (fxBits + n)
      .fin neg ((one - q) * fxOne / (one + q)) (-(fxBits : Int)) true

def FV.sigmoid (x : FV) : FV :=
  match x with
  | .nan => .nan
  | .inf true => .zero false
  | .inf false => .one
  | .fin neg m e _ =>
    if m == 0 then .fin false 1 (-1) false
    else if bigger m e 8 then (if neg then .fin false 1 (-360) false else belowOne false)
    else
      let (q, n) := fxExpNeg (fxOf m e)
      let one := 2 ^ (fxBits + n)
      -- 1/(1 + E) or E/(1 + E) with E = q/one
      if neg then .fin false (q * one / (one + q)) (-(fxBits + n : Int)) true
      else .fin false (one * fxOne / (one + q)) (-(fxBits : Int)) true

end Sys2Proof.Machine
end

