-- ==== Sys2Proof/Machine/VecFloat.lean ====
section
/-!
DEFINITION. Floating-point element operations (R150 to R153).
-/

namespace Sys2Proof.Machine

/-! ## Lane-wise effects -/

/-- An effect on l alone, rounded once. -/
def floatUn (e : EW) (f : RM → FV → FV × Bool) (fi : Fire) : LaneRes :=
  let fm := fmtOf e.ty
  let w := elWidth e.ty false
  lanewise w fi.l.valid fi.l.reset fun i =>
    roundEl fm (mdRM e.md) (mdFtz e.md) (f (mdRM e.md) (readEl fm (mdFtz e.md) (elAt w fi.l.payload i)))

/-- An effect on l and r, rounded once. -/
def floatBin (e : EW) (f : RM → FV → FV → FV × Bool) (fi : Fire) : LaneRes :=
  let fm := fmtOf e.ty
  let w := elWidth e.ty false
  lanewise w (fi.l.valid &&& fi.r.valid) fi.l.reset fun i =>
    roundEl fm (mdRM e.md) (mdFtz e.md)
      (f (mdRM e.md) (readEl fm (mdFtz e.md) (elAt w fi.l.payload i)) (readEl fm (mdFtz e.md) (elAt w fi.r.payload i)))

/-- An effect on the code of l: NaN gives the canonical NaN, and nothing is raised. -/
def floatSign (e : EW) (f : Fmt → Nat → Nat) (fi : Fire) : LaneRes :=
  let fm := fmtOf e.ty
  let w := elWidth e.ty false
  lanewise w fi.l.valid fi.l.reset fun i =>
    let c := fm.flush (mdFtz e.md) (elAt w fi.l.payload i)
    { bits := if (fm.decode c).isNan then fm.nanCode else f fm c }

/-- The lesser (or greater) code of l and r, −0 below +0. -/
def floatPick (e : EW) (greater : Bool) (fi : Fire) : LaneRes :=
  let fm := fmtOf e.ty
  let w := elWidth e.ty false
  lanewise w (fi.l.valid &&& fi.r.valid) fi.l.reset fun i =>
    let a := fm.flush (mdFtz e.md) (elAt w fi.l.payload i)
    let b := fm.flush (mdFtz e.md) (elAt w fi.r.payload i)
    { bits :=
        match (fm.decode a).cmp (fm.decode b) with
        | none => fm.nanCode
        | some .lt => if greater then b else a
        | some .gt => if greater then a else b
        | some .eq => if (fm.decode a).isNeg == greater then b else a }

def execVadd (e : EW) (s : State) : Out := runLanes s fun _ => floatBin e FV.add
def execVsub (e : EW) (s : State) : Out := runLanes s fun _ => floatBin e fun rm x y => x.add rm y.negate
def execVmul (e : EW) (s : State) : Out := runLanes s fun _ => floatBin e fun _ => FV.mul
def execVdiv (e : EW) (s : State) : Out := runLanes s fun _ => floatBin e fun _ => FV.div
def execVrcp (e : EW) (s : State) : Out := runLanes s fun _ => floatUn e fun _ => FV.div .one
def execVrsq (e : EW) (s : State) : Out := runLanes s fun _ => floatUn e fun _ => FV.rsqrt
def execVsqrt (e : EW) (s : State) : Out := runLanes s fun _ => floatUn e fun _ => FV.sqrt
def execVexp2 (e : EW) (s : State) : Out := runLanes s fun _ => floatUn e fun _ x => (x.exp2, false)
def execVlog2 (e : EW) (s : State) : Out := runLanes s fun _ => floatUn e fun _ => FV.log2
def execVtanh (e : EW) (s : State) : Out := runLanes s fun _ => floatUn e fun _ x => (x.tanh, false)
def execVsig (e : EW) (s : State) : Out := runLanes s fun _ => floatUn e fun _ x => (x.sigmoid, false)
def execVabs (e : EW) (s : State) : Out := runLanes s fun _ => floatSign e fun fm c => c % fm.signBit
def execVneg (e : EW) (s : State) : Out := runLanes s fun _ => floatSign e fun fm c => (c + fm.signBit) % (2 * fm.signBit)
def execVmin (e : EW) (s : State) : Out := runLanes s fun _ => floatPick e false
def execVmax (e : EW) (s : State) : Out := runLanes s fun _ => floatPick e true

/-! ## VROUND, VCLASS (R153) -/

/-- Rounds to an integral value; zeros keep their sign. -/
def FV.rint (rm : RM) (x : FV) : FV :=
  match x with
  | .fin neg m e rest =>
    if 0 ≤ e then x
    else
      let u := 2 ^ (-e).toNat
      let n := m / u
      let half := compare (2 * (m % u)) u
      .fin neg (if roundUp rm neg (n % 2 == 1) half (m % u != 0 || rest) then n + 1 else n) 0 false
  | x => x

def execVround (e : EW) (s : State) : Out :=
  runLanes s fun _ fi =>
    let r := floatUn e (fun rm x => (x.rint rm, false)) fi
    { r with exc := false }

/-- Bit number of an element's class. -/
def classOf (fm : Fmt) (c : Nat) : Nat :=
  match fm.decode c with
  | .nan => 8
  | .inf neg => if neg then 0 else 7
  | .fin neg m _ _ =>
    if m == 0 then (if neg then 3 else 4) else if fm.subnormal c then (if neg then 2 else 5) else if neg then 1 else 6

def execVclass (e : EW) (s : State) : Out :=
  runLanes s fun _ fi =>
    let w := elWidth e.ty false
    lanewise w fi.l.valid fi.l.reset fun i => { bits := 2 ^ classOf (fmtOf e.ty) (elAt w fi.l.payload i) }

/-! ## VMAC, VFMAK (R147, R151) -/

/-- An accumulating firing: a set reset bit of l empties the element's state; elements valid in l and r are added by `f`, which
gets the state (none when empty) and the two elements. -/
def accumulate (w : Nat) (f : Option Nat → Nat → Nat → El) (e : SlotEnv) (fi : Fire) (s : State) : Eff :=
  let a := amGet (s.slotSt e.key e.slot).acc fi.tag {}
  let ok := fi.l.valid &&& fi.r.valid
  let es := (List.range (elCount w)).map fun i =>
    let st := if elValid w a.valid i && !elReset w fi.l.reset i then some (elAt w a.payload i) else none
    if elValid w ok i then
      let x := f st (elAt w fi.l.payload i) (elAt w fi.r.payload i)
      (some x.bits, x.exc, x.sat)
    else (st, false, false)
  let valid := maskOf fun i => (nthD es (elOfLane w i) (none, false, false)).1.isSome
  let payload := packEls w (es.map fun x => x.1.getD 0)
  let s := s.updSlot e.key e.slot fun st =>
    { st with acc := amPut st.acc fi.tag { a with payload := payload, valid := valid } }
  let t := fi.result e.hdr
    { payload := payload, valid := valid, reset := pairReset w fi.l.reset, exc := es.any (·.2.1), sat := es.any (·.2.2) }
  .done s (fi.one { t with err := t.err || a.tainted, cause := if a.tainted then a.cause else t.cause })

def execVmac (e : EW) (s : State) : Out :=
  runSlot s fun env fi s =>
    let fm := fmtOf e.ty
    let rm := mdRM e.md
    let ftz := mdFtz e.md
    accumulate (elWidth e.ty false) (fun st x y =>
      let p := roundEl fm rm ftz ((readEl fm ftz x).mul (readEl fm ftz y))
      let r := roundEl fm rm ftz ((readEl fm ftz (st.getD 0)).add rm (readEl fm ftz p.bits))
      { r with exc := r.exc || p.exc }) env fi s

def execVfmak (e : EW) (s : State) : Out :=
  runSlot s fun env fi s =>
    let fm := fmtOf e.ty
    let rm := mdRM e.md
    let ftz := mdFtz e.md
    accumulate (elWidth e.ty false) (fun st x y =>
      roundEl fm rm ftz (FV.fma rm (readEl fm ftz x) (readEl fm ftz y) (readEl fm ftz (st.getD 0)))) env fi s

/-! ## VCVT (R152) -/

/-- conv of one element from type `src` to type `dst` (alt: i16). -/
def convEl (src dst : Ty) (alt : Bool) (md : BitVec 4) (code : Nat) : El :=
  let ws := elWidth src false
  let wd := elWidth dst alt
  if isFloatTy src then
    let x := readEl (fmtOf src) (mdFtz md) code
    if isFloatTy dst then roundEl (fmtOf dst) (mdRM md) (mdFtz md) (x, false)
    else
      match x.rint .rne with
      | .nan => { bits := 0, exc := true }
      | .inf neg =>
        if mdRm md < 2 then { bits := 0, exc := true }
        else modeEl (mdRm md) wd (if neg then -(2 ^ 64 : Int) else 2 ^ 64)
      | .fin neg m e _ => modeEl (mdRm md) wd (finInt neg m e 0)
  else
    let v := asInt ws code
    if isFloatTy dst then roundEl (fmtOf dst) (mdRM md) (mdFtz md) (.fin (v < 0) v.natAbs 0 false, false)
    else modeEl (mdRm md) wd v

/-- Lanes that hold element e. -/
def lanesOfEl (w e : Nat) : List Nat := if w == 64 then [2 * e, 2 * e + 1] else [e * w / 32]

/-- Elements that stand in lane i. -/
def elsOfLane (w i : Nat) : List Nat := if w == 64 then [i / 2] else (List.range (32 / w)).map (· + i * 32 / w)

/-- VCVT: part p of a widening takes nd source elements, part p of a narrowing fills ns destination elements. -/
def convert (src dst : Ty) (alt : Bool) (md : BitVec 4) (p : Nat) (l : Token) : LaneRes :=
  let ws := elWidth src false
  let wd := elWidth dst alt
  let ns := elCount ws
  let nd := elCount wd
  let source (j : Nat) : Option Nat :=
    if nd ≤ ns then some (p * nd + j) else if p * ns ≤ j && j < p * ns + ns then some (j - p * ns) else none
  let lanes (i : Nat) : List Nat := (elsOfLane wd i).flatMap fun j =>
    match source j with
    | some k => lanesOfEl ws k
    | none => []
  let valid := maskOf fun i =>
    (elsOfLane wd i).all (fun j => (source j).isSome) && (lanes i).all fun k => l.valid.getLsbD k
  let es := (List.range nd).map fun j =>
    match source j with
    | some k => if elValid wd valid j then convEl src dst alt md (elAt ws l.payload k) else { bits := 0 }
    | none => { bits := 0 }
  { payload := packEls wd (es.map (·.bits)), valid := valid
    reset := if ns == nd then l.reset else maskOf fun i => (lanes i).any fun k => l.reset.getLsbD k
    exc := es.any (·.exc), sat := es.any (·.sat) }

def execVcvt (e : EW) (s : State) : Out :=
  runLanes s fun env fi =>
    let p := if env.hdr.csel == 2 then laneAt env.constR 0 % 8 else 0
    convert env.hdr.stype e.ty (mdAlt e.md && e.ty == .i32) e.md p fi.l

end Sys2Proof.Machine
end

