-- ==== Sys2Proof/Machine/VecInt.lean ====
section
/-!
DEFINITION. Integer element operations (R154 to R156).
-/

namespace Sys2Proof.Machine

/-- Element width of an integer operation: i32, i16x2 or i8x4. -/
def intWidth (e : EW) : Nat := elWidth e.ty (mdAlt e.md)

def intUn (e : EW) (f : Nat → Nat → Nat → El) (fi : Fire) : LaneRes :=
  let w := intWidth e
  lanewise w fi.l.valid fi.l.reset fun i => f (mdRm e.md) w (elAt w fi.l.payload i)

def intBin (e : EW) (f : Nat → Nat → Nat → Nat → El) (fi : Fire) : LaneRes :=
  let w := intWidth e
  lanewise w (fi.l.valid &&& fi.r.valid) fi.l.reset fun i =>
    f (mdRm e.md) w (elAt w fi.l.payload i) (elAt w fi.r.payload i)

/-- mode of an exact result. -/
def intMode (f : Int → Int → Int) (m w a b : Nat) : El := modeEl m w (f (readInt m w a) (readInt m w b))

def execViadd (e : EW) (s : State) : Out := runLanes s fun _ => intBin e (intMode fun a b => a + b)
def execVisub (e : EW) (s : State) : Out := runLanes s fun _ => intBin e (intMode fun a b => a - b)
def execVimul (e : EW) (s : State) : Out := runLanes s fun _ => intBin e (intMode fun a b => a * b)

/-- The high half of the product; never saturates. -/
def execVmulh (e : EW) (s : State) : Out :=
  runLanes s fun _ => intBin e fun m w a b => { bits := ofInt w ((readInt m w a * readInt m w b) / (2 ^ w : Nat)) }

def execVimin (e : EW) (s : State) : Out :=
  runLanes s fun _ => intBin e fun m w a b => { bits := if readInt m w a ≤ readInt m w b then a else b }
def execVimax (e : EW) (s : State) : Out :=
  runLanes s fun _ => intBin e fun m w a b => { bits := if readInt m w a ≤ readInt m w b then b else a }

/-- VIABS: only the signed modes change an element; the least value stays, or clamps. -/
def execViabs (e : EW) (s : State) : Out :=
  runLanes s fun _ => intUn e fun m w a => if m % 2 == 1 then { bits := a } else modeEl m w (asInt w a).natAbs

def execVand (e : EW) (s : State) : Out := runLanes s fun _ => intBin e fun _ _ a b => { bits := a &&& b }
def execVor (e : EW) (s : State) : Out := runLanes s fun _ => intBin e fun _ _ a b => { bits := a ||| b }
def execVxor (e : EW) (s : State) : Out := runLanes s fun _ => intBin e fun _ _ a b => { bits := a ^^^ b }
def execVclz (e : EW) (s : State) : Out := runLanes s fun _ => intUn e fun _ w a => { bits := leadZeros w a }
def execVpopc (e : EW) (s : State) : Out := runLanes s fun _ => intUn e fun _ w a => { bits := popCount w a }

/-- Shifts take each element's amount from the same element of r; the width or more shifts everything out. -/
def execVshl (e : EW) (s : State) : Out :=
  runLanes s fun _ => intBin e fun _ w a b => { bits := if w ≤ b then 0 else a * 2 ^ b % 2 ^ w }
def execVshr (e : EW) (s : State) : Out :=
  runLanes s fun _ => intBin e fun _ w a b => { bits := if w ≤ b then 0 else a / 2 ^ b }
def execVsra (e : EW) (s : State) : Out :=
  runLanes s fun _ => intBin e fun _ w a b => { bits := ofInt w (asInt w a / (2 ^ min b w : Nat)) }

/-- VIMAC: the product and the sum each go through the mode (R156). -/
def execVimac (e : EW) (s : State) : Out :=
  runSlot s fun env fi s =>
    let m := mdRm e.md
    let w := intWidth e
    accumulate w (fun st x y =>
      let p := intMode (fun a b => a * b) m w x y
      let r := intMode (fun a b => a + b) m w (st.getD 0) p.bits
      { r with sat := r.sat || p.sat }) env fi s

end Sys2Proof.Machine
end

