-- ==== Sys2Proof/Machine/SpanOps.lean ====
section
/-!
DEFINITION. Span operations (R165 to R169). The span of a firing is its intersection (R72); for a slot that no predicate gates it
is the token's own span.
-/

namespace Sys2Proof.Machine

/-- The operand l as a result over another span. -/
def Fire.moved (fi : Fire) (h : Hdr) (lo hi : Nat) : Token :=
  { fi.result h { payload := fi.l.payload, valid := fi.l.valid, reset := fi.l.reset } with
    lo := lo, hi := hi, residue := fi.l.residue }

/-- Largest finite bound of a span. -/
def maxBound : Nat := 2 ^ 40 - 2

/-- A fault at a field of the slot, with the offending token (R65, R166). -/
def State.spanFault (s : State) (e : SlotEnv) (code : Nat) (f : Fld) (t : Token) : State :=
  let last := ((s.slotSt e.key e.slot).field f t.tag).lastSeq
  s.raise (s.getU e.key).pad (fieldFault s e.key e.slot f code t last)

/-- SPAN (R165, R166). -/
def execSpan (_e : EW) (s : State) : Out :=
  runSlot s fun e fi s =>
    let p := fi.r.payload
    let lo := q40 p 0
    let hi := q40 p 2
    let bad := !(List.range 4).all (fun i => fi.r.valid.getLsbD i) || laneAt p 1 / 256 != 0 || laneAt p 3 / 256 != 0 ||
      decide (hi ≤ lo) || decide (maxBound < lo)
    if bad then .done (s.spanFault e 0x02 .r { fi.r with tag := fi.tag }) []
    else .done s [(0, { tok := fi.moved e.hdr lo hi, basis := openHi })]

/-- SPLIT: pieces of width w; an open token or more than 64 pieces raise SPAN_LIMIT. -/
def execSplit (_e : EW) (s : State) : Out :=
  runSlot s fun e fi s =>
    let w := q40 e.constR 0
    let n := (fi.hi - fi.lo + w - 1) / w
    if fi.hi == openHi || 64 < n then .done (s.spanFault e 0x04 .l { fi.l with tag := fi.tag }) []
    else
      .done s ((List.range n).map fun i =>
        let lo := fi.lo + i * w
        let hi := min (fi.lo + (i + 1) * w) fi.hi
        (0, { tok := fi.moved e.hdr lo hi, basis := hi }))

/-- DELAY: an open end stays open. -/
def execDelay (_e : EW) (s : State) : Out :=
  runSlot s fun e fi s =>
    let d := q40 e.constR 0
    let hi := if fi.hi == openHi then openHi else fi.hi + d
    if maxBound < fi.lo + d || (fi.hi != openHi && maxBound < hi) then
      .done (s.spanFault e 0x04 .l { fi.l with tag := fi.tag }) []
    else .done s [(0, { tok := fi.moved e.hdr (fi.lo + d) hi, basis := fi.hi })]

/-- The sum of a window with one more token (R147, R167): a set reset bit empties the element first. The token that
begins an element's sum stands in it with its bits, a NaN too (notes/assumptions/84.md). -/
def windowAdd (e : EW) (a : AccSt) (t : Token) : AccSt :=
  let fl := isFloatTy e.ty
  let w := if fl then elWidth e.ty false else intWidth e
  let fm := fmtOf e.ty
  let es := (List.range (elCount w)).map fun i =>
    let st := if elValid w a.valid i && !elReset w t.reset i then some (elAt w a.payload i) else none
    if !elValid w t.valid i then (st, false, false)
    else
      let x := elAt w t.payload i
      match st with
      | none => (some (if fl then fm.flush (mdFtz e.md) x else x), false, false)
      | some y =>
        let r := if fl then roundEl fm (mdRM e.md) (mdFtz e.md) ((readEl fm (mdFtz e.md) y).add (mdRM e.md) (readEl fm (mdFtz e.md) x))
          else intMode (fun a b => a + b) (mdRm e.md) w y x
        (some r.bits, r.exc, r.sat)
  { a with
    payload := packEls w (es.map fun x => x.1.getD 0)
    valid := maskOf fun i => (nthD es (elOfLane w i) (none, false, false)).1.isSome
    cause := if t.err then t.cause else a.cause
    flags := (a.flags.1 || t.err, a.flags.2.1 || t.exc || es.any (·.2.1), a.flags.2.2 || t.sat || es.any (·.2.2)) }

/-- WINDOW (R167). -/
def execWindow (e : EW) (s : State) : Out :=
  runSlot s fun env fi s =>
    let a := amGet (s.slotSt env.key env.slot).acc fi.tag {}
    let q := fi.lo / q40 env.constR 0
    let past := match a.window with
      | some q0 => decide (q0 < q)
      | none => false
    let s := if past then s.pushWindow env fi.tag 0 (some fi.l) a else s
    let a := if past || a.window.isNone then { window := some q, tainted := a.tainted, cause := a.cause, errWins := a.errWins } else a
    let a := windowAdd e a { fi.l with exc := fi.out.exc, sat := fi.out.sat, err := fi.out.err, cause := fi.out.cause }
    .done (s.updSlot env.key env.slot fun st => { st with acc := amPut st.acc fi.tag a }) []

/-- CLOSE (R168): nothing at or past c; a token that reaches c ends there. -/
def execClose (_e : EW) (s : State) : Out :=
  runSlot s fun e fi s =>
    let c := q40 e.constR 0
    let st := s.slotSt e.key e.slot
    let a := amGet st.acc fi.tag {}
    if a.closedBit || c ≤ fi.lo then .done s []
    else
      let s := if c ≤ fi.hi then s.setSlot e.key e.slot { st with acc := amPut st.acc fi.tag { a with closedBit := true } } else s
      .done s [(0, { tok := fi.moved e.hdr fi.lo (min fi.hi c), basis := if c ≤ fi.hi then openHi else fi.hi })]

/-- SPANQ: the token's own span and sequence number as data. -/
def execSpanq (_e : EW) (s : State) : Out :=
  runLanes s fun _ fi =>
    { payload := packEls 32 [fi.l.lo % 2 ^ 32, fi.l.lo / 2 ^ 32, fi.l.hi % 2 ^ 32, fi.l.hi / 2 ^ 32, fi.l.seq], valid := 0x001F }

/-- Tokens that COALESCE may join: the same masks, flags and bits of every valid lane. -/
def sameValues (p t : Token) : Bool :=
  p.valid == t.valid && p.reset == t.reset && p.err == t.err && p.exc == t.exc && p.sat == t.sat &&
    (List.range 16).all fun i => !p.valid.getLsbD i || laneAt p.payload i == laneAt t.payload i

/-- COALESCE (R168). -/
def execCoalesce (_e : EW) (s : State) : Out :=
  runSlot s fun e fi s =>
    let st := s.slotSt e.key e.slot
    let a := amGet st.acc fi.tag {}
    let t := fi.moved e.hdr fi.lo fi.hi
    let put (p : Token) : State := s.setSlot e.key e.slot { st with acc := amPut st.acc fi.tag { a with pending := some p } }
    match a.pending with
    | none => .done (put t) []
    | some p =>
      if t.lo == p.hi && sameValues p t then .done (put { p with hi := t.hi }) []
      else .done (put t) [(0, { tok := p, basis := 0 })]

end Sys2Proof.Machine
end

