-- ==== Sys2Proof/Machine/Matrix.lean ====
section
/-!
DEFINITION. Matrix products (R104 to R108, R181 to R186), described blocks (R100 to R103), BMM4 (R112, R190).
-/

namespace Sys2Proof.Machine

/-! ## Floating accumulation (R104, R105) -/

/-- Drops every part below 2^u, keeping the sign. -/
def FV.truncAt (x : FV) (u : Int) : FV :=
  match x with
  | .fin neg m e _ => if u ≤ e then x else .fin neg (m / 2 ^ (u - e).toNat) u false
  | x => x

/-- Multiplies by 2^k. -/
def FV.scale (x : FV) (k : Int) : FV :=
  match x with
  | .fin neg m e r => .fin neg m (e + k) r
  | x => x

/-- floor(log₂|x|) of a non-zero finite value. -/
def FV.top : FV → Option Int
  | .fin _ m e _ => if m == 0 then none else some ((m.log2 : Int) + e)
  | _ => none

def exactAdd (x y : FV) : FV := (x.add .rne y).1

/-- The group sums of the exact products, each with its scale. -/
def groupSums (scale : Nat → Int) : Nat → List FV → Nat → List FV
  | 0, _, _ => []
  | _ + 1, [], _ => []
  | n + 1, ps, g => (((ps.take 8).foldl exactAdd (.zero false)).scale (scale g)) :: groupSums scale n (ps.drop 8) (g + 1)

/-- t of R104 for finite products. -/
def windowSum (ps : List FV) (scale : Nat → Int) : FV :=
  let qs := groupSums scale 6 ps 0
  match (qs.filterMap FV.top).max? with
  | none => .zero (!ps.isEmpty && ps.all (·.isNeg))
  | some e => (qs.map fun q => q.truncAt (e - 92)).foldl exactAdd (.zero false)

/-- One element of a floating matrix product: the exact products go through the window or R105, then two roundings in f32.
Answers the new element; its conditions are overflow and invalid. -/
def accFloat (ftz : Bool) (acc : Option Nat) (prods : List (FV × Bool)) (scale : Nat → Int) : El :=
  let ps := prods.map (·.1)
  let bothInf := ps.any (fun p => p == .inf false) && ps.any fun p => p == .inf true
  let inv := bothInf || prods.any (·.2)
  let t : FV :=
    if bothInf || ps.any (·.isNan) then .nan
    else if ps.any (fun p => p == .inf false) then .inf false
    else if ps.any (fun p => p == .inf true) then .inf true
    else windowSum ps scale
  let y := roundEl .f32 .rne ftz (t, inv)
  match acc with
  | none => y
  | some a =>
    let r := roundEl .f32 .rne ftz ((readEl .f32 ftz a).add .rne (readEl .f32 ftz y.bits))
    { r with exc := r.exc || y.exc }

/-- A chain of fused steps in f64 (R106). -/
def accF64 (ftz : Bool) (acc : Option Nat) (abs : List (FV × FV)) : El :=
  abs.foldl (fun c (a, b) =>
    let r := roundEl .f64 .rne ftz (FV.fma .rne a b (readEl .f64 ftz c.bits))
    { r with exc := r.exc || c.exc }) { bits := acc.getD 0 }

/-- An exact integer sum added under the mode (R108). -/
def accInt (mode : Nat) (acc : Option Nat) (sum : Int) : El := modeEl mode 32 (readInt mode 32 (acc.getD 0) + sum)

/-! ## Accumulator elements -/

def accWidth (t : Tile) : Nat := if t.ty == .f64 then 8 else 4

/-- Elements of an accumulator, row by row. -/
def accEls (bs : List Byte) (w : Nat) : List Nat := (List.range 256).map fun i => ofBytes ((bs.drop (i * w)).take w)

def putEls (w : Nat) (l : List Nat) : List Byte := l.flatMap fun x => toBytes w x

/-! ## Described blocks (R100 to R103) -/

structure Block where
  code : Nat
  bscale : Nat
  gscale : List Int
  payload : List Byte
  deriving DecidableEq, Repr, Inhabited

/-- Whether the scale bytes obey R101. -/
def scaleOk (code bscale : Nat) (g : List Nat) : Bool :=
  match code with
  | 1 | 2 | 3 => true
  | 4 | 8 | 0x0A => bscale == 0x7F && g.all (· == 0)
  | 5 | 6 => (g.drop 3).all (· == 0)
  | 7 | 9 => g.all (· == 0)
  | _ => true

/-- The checks of R103 in their order: the block, or the cause of the error tag and, where the CRC fails, the seal: its sequence byte
above its route byte. -/
def checkBlock (bs : List Byte) : Except (Nat × Option Nat) Block :=
  let code := (nthD bs 0 0).toNat
  let bscale := (nthD bs 1 0).toNat
  let g := ((bs.drop 2).take 6).map (·.toNat)
  if BitVec.ofNat 32 (ofBytes ((bs.drop 56).take 4)) != crc32c (bs.take 56) then .error (0x07, some (ofBytes ((bs.drop 60).take 2)))
  else if code == 0xFE then .error (0x08, none)
  else if !((1 ≤ code && code ≤ 0x0A) || code == 0x0F) then .error (0x09, none)
  else if !scaleOk code bscale g then .error (0x0A, none)
  else .ok { code := code, bscale := bscale, gscale := g.map (asInt 8 ·), payload := (bs.drop 8).take 48 }

/-- Elements of a block that the matrix array takes; none for integer and f64 blocks. -/
def blockCount (code : Nat) : Option Nat :=
  match code with
  | 1 | 2 | 3 => some 48
  | 5 | 6 => some 24
  | 7 => some 12
  | _ => none

/-- Element j of a block, before any scale: a subnormal code is flushed in its own format (R102). -/
def Block.el (b : Block) (ftz : Bool) (j : Nat) : FV :=
  let at' (w : Nat) : Nat := ofBytes ((b.payload.drop (j * w)).take w)
  if b.bscale == 0xFF then .nan
  else
    match b.code with
    | 1 => readEl .f8e4 ftz (at' 1)
    | 2 => readEl .f8e5 ftz (at' 1)
    | 3 => tw8Value (at' 1)
    | 5 => readEl .bf16 ftz (at' 2)
    | 6 => readEl .f16 ftz (at' 2)
    | 7 => readEl .f32 ftz (at' 4)
    | _ => .zero false

/-- Binary exponent of a block's scale for group g. -/
def Block.exp (b : Block) (g : Nat) : Int :=
  if b.code == 0x0F then 0 else (b.bscale : Int) - 127 + (if b.code == 7 then 0 else nthD b.gscale g 0)

/-- One element of a described product, or BLOCK_MIX (R184). A zero block contributes +0 products. -/
def accBlocks (ftz : Bool) (acc : Option Nat) (a b : Block) : Option El :=
  let zero (x : Block) : Bool := x.code == 0x0F
  let products (n : Nat) : List (FV × Bool) :=
    (List.range n).map fun j =>
      if zero a || zero b then (.zero false, false) else (a.el ftz j).mul (b.el ftz j)
  let go (n : Nat) : Option El := some (accFloat ftz acc (products n) fun g => a.exp g + b.exp g)
  if zero a && zero b then go 48
  else if zero a then (blockCount b.code).bind go
  else if zero b then (blockCount a.code).bind go
  else
    match blockCount a.code, blockCount b.code with
    | some n, some m => if n == m then go n else none
    | _, _ => none

/-- A floating block whose bscale is 0xFF is decoded as NaN, once invalid for each block (R96, R102). -/
def Block.nanScale (b : Block) : Bool := b.bscale == 0xFF && (blockCount b.code).isSome

/-! ## Tile faults (R176) -/

/-- TILE_STATE (R176): the record names the tile. -/
def State.tileFault (s : State) (e : SlotEnv) (fi : Fire) (n : Nat) : State :=
  s.raise (s.getU e.key).pad
    (e.fault s .l 0x05 fi.tag fi.l n)

/-! ## Matrix firings (R182) -/

/-- What a matrix firing gives: the elements with their conditions, or the cause for which they are undefined, with the seal that
the report records. -/
inductive MatRes
  | els (l : List El)
  | undefined (cause : Nat) (sl : Option Nat) (exc : Bool)
  deriving DecidableEq, Repr, Inhabited

/-- Bytes of a tile whose contents are undefined: free values (notes/assumptions/6.md). -/
def freeBytes : Nat → Nat → List Byte
  | 0, _ => []
  | n + 1, k => toBytes 8 (Config.freeWord k).toNat ++ freeBytes n (k + 1)

/-- No firing on a row of ring A is left: what has been taken of its tag, or what is next of it, lies behind the row. -/
def SlotEnv.spent (e : SlotEnv) (st : SlotSt) (t : Token) : Bool :=
  decide (t.hi ≤ amGet st.doneTo t.tag 0) ||
    match e.next st t.tag with
    | some c => decide (t.hi ≤ c.lo)
    | none => false

/-- Firings into one accumulator are applied in the sequence order of ring A, whatever their tags (R107): no earlier tile of it waits for a
firing. -/
def State.ringTurn (s : State) (e : SlotEnv) (fi : Fire) : Bool :=
  let st := s.slotSt e.key e.slot
  st.fields.all fun (k, x) => fkeyFld k != Fld.code .l || x.rows.all fun t => decide (fi.l.cnum ≤ t.cnum) || e.spent st t

/-- One firing into the accumulator. `f` gets the bytes of the A and the B tile, B's tb, and the old elements (none when the
accumulate bit is 0). -/
def runMatrix (s : State) (m : MatW) (f : List Byte → List Byte → Bool → Option (List Nat) → MatRes) : Out :=
  runSlot s fun e fi s =>
    let n := m.acc.toNat
    let t := s.tile e.key n
    if t.st == .ready || t.st == .draining || !s.ownerMayGo e fi n || !s.ringTurn e fi then .park s
    else
      let u := s.getU e.key
      let ta := u.tile (e.conf.ringTile m.ringA.toNat fi.l.cnum)
      let tb := u.tile (e.conf.ringTile m.ringB.toNat fi.r.cnum)
      let s := if t.st == .empty then s.openAcc e.key n fi.lo else s
      let t := s.tile e.key n
      let w := accWidth t
      let old := if m.ac then some (accEls (s.tileBytes e.key t 0 t.size) w) else none
      let t := if m.ac then t else { t with sat := false }
      let res := f (s.tileBytes e.key ta 0 1024) (s.tileBytes e.key tb 0 1024) tb.tb old
      let t := { t with
        lo := if t.kdone == 0 then fi.lo else t.lo
        hi := fi.hi
        kdone := t.kdone + 1
        tag := fi.tag
        err := t.err || ta.err || tb.err || fi.out.err
        exc := t.exc || ta.exc || tb.exc
        cause := if t.err then t.cause else if ta.err then ta.cause else if tb.err then tb.cause else fi.out.cause
        st := if t.kdone + 1 == t.kcount then .ready else .filling }
      let s :=
        match res with
        | .els l =>
          (s.setTileBytes e.key t 0 (putEls w (l.map (·.bits)))).setTile e.key n
            { t with exc := t.exc || l.any (·.exc), sat := t.sat || l.any (·.sat) }
        | .undefined c sl x =>
          let k := s.freeCtr
          let s := { s with freeCtr := k + t.size / 8 }
          let s := s.setTileBytes e.key t 0 (freeBytes (t.size / 8) k)
          (s.setTile e.key n { t with err := true, exc := t.exc || x, cause := if t.err then t.cause else c }).reportSeal e c sl
      .done (if t.st == .ready then s.emitAcc e n m.em else s) []

/-- The old element (i, j), if the accumulate bit is set. -/
def oldAt (old : Option (List Nat)) (i j : Nat) : Option Nat := old.map fun l => nthD l (16 * i + j) 0

/-- All 256 elements, row by row. -/
def eachEl (f : Nat → Nat → El) : List El := (List.range 16).flatMap fun i => (List.range 16).map fun j => f i j

/-- MMA (R181): f8, 16-bit, f32 and f64 floating forms, and the integer form. -/
def execMma (m : MatW) (s : State) : Out :=
  runMatrix s m fun a b tb old =>
    let w := elWidth m.ty false / 8
    let k := 48 / w
    let ftz := mdFtz m.md
    .els <| eachEl fun i j =>
      let ea (x : Nat) : Nat := elemIn a w (aOff w i x)
      let eb (x : Nat) : Nat := elemIn b w (bOff tb w x j)
      let fa (x : Nat) : FV := readEl (fmtOf m.ty) ftz (ea x)
      let fb (x : Nat) : FV := readEl (fmtOf m.tyB) ftz (eb x)
      match m.ty with
      | .i8x4 =>
        accInt (mdRm m.md) (oldAt old i j) ((List.range k).foldl (fun acc x => acc + asInt 8 (ea x) * asInt 8 (eb x)) 0)
      | .f64 => accF64 ftz (oldAt old i j) ((List.range k).map fun x => (fa x, fb x))
      | _ => accFloat ftz (oldAt old i j) ((List.range k).map fun x => (fa x).mul (fb x)) fun _ => 0

/-- MMAB (R184). Where several blocks fail, the report gives the cause of A's first row that fails, then of B's first column, and
BLOCK_MIX only where every block passes (notes/assumptions/85.md). -/
def execMmab (m : MatW) (s : State) : Out :=
  runMatrix s m fun a b _ old =>
    let ftz := mdFtz m.md
    let block (bs : List Byte) (i : Nat) : Except (Nat × Option Nat) Block := checkBlock ((bs.drop (64 * i)).take 64)
    let as := (List.range 16).map (block a)
    let bs := (List.range 16).map (block b)
    let cause := (as ++ bs).findSome? fun x => match x with
      | .error c => some c
      | .ok _ => none
    let get (l : List (Except (Nat × Option Nat) Block)) (i : Nat) : Block := match nthD l i (.error (0, none)) with
      | .ok x => x
      | .error _ => default
    let nan := (List.range 16).any fun i => (get as i).nanScale || (get bs i).nanScale
    match cause with
    | some (c, sl) => .undefined c sl nan
    | none =>
      let els := (List.range 16).flatMap fun i => (List.range 16).map fun j => accBlocks ftz (oldAt old i j) (get as i) (get bs j)
      if els.any (·.isNone) then .undefined 0x0B none nan
      else
        .els (els.map fun x =>
          let y := x.getD { bits := 0 }
          { y with exc := y.exc || nan })

/-- MMAW (R185): weights under R99. The product of a weight and an operand is taken with the weight's value, where the two terms have opposite signs
or the operand is infinite too (notes/assumptions/97.md). -/
def execMmaw (m : MatW) (s : State) : Out :=
  runMatrix s m fun a b tb old =>
    let w := elWidth m.ty false / 8
    let ftz := mdFtz m.md
    .els <| eachEl fun i j =>
      accFloat ftz (oldAt old i j)
        ((List.range (48 / w)).map fun x =>
          (readEl (fmtOf m.ty) ftz (elemIn a w (aOff w i x))).mul (tw8Value (elemIn b 1 (bOff tb 1 x j)))) fun _ => 0

/-! ## BMM4 (R112, R190) -/

/-- The length register: kreg with csel 11, the register after it with csel 10. -/
def lengthReg (e : SlotEnv) : Nat := laneAt (e.conf.constTok (if e.hdr.csel == 3 then e.hdr.kreg else e.hdr.kreg + 1)).payload 0

def execBmm4 (x : EW) (s : State) : Out :=
  runLanes s fun e fi =>
    let rm := mdRM x.md
    let ftz := mdFtz x.md
    let four (v : BitVec 16) (g : Nat) : Bool := (List.range 4).all fun i => v.getLsbD (4 * g + i)
    let els : List (Option El) := (List.range 16).map fun i =>
      let g := i / 4
      let r := i % 4
      if r < bitsOf (lengthReg e) (8 * g + 2) (8 * g) && four fi.l.valid g && four fi.r.valid r then
        some ((List.range 4).foldl (fun (acc : El) c =>
          let y := roundEl .f32 rm ftz (FV.fma rm (readEl .f32 ftz (laneAt fi.r.payload (4 * r + c)))
            (readEl .f32 ftz (laneAt fi.l.payload (4 * g + c))) (readEl .f32 ftz acc.bits))
          { y with exc := y.exc || acc.exc }) { bits := 0 })
      else none
    { payload := packEls 32 (els.map fun y => (y.getD { bits := 0 }).bits)
      valid := maskOf fun i => (nthD els i none).isSome
      reset := fi.l.reset
      exc := els.any fun y => (y.getD { bits := 0 }).exc }

end Sys2Proof.Machine
end

