-- ==== Sys2Proof/Machine/TileOps.lean ====
section
/-!
DEFINITION. Tile instructions (R187 to R189).
-/

namespace Sys2Proof.Machine

/-- Writes bytes at a payload byte of a tile. -/
def State.putPay (s : State) (key : Nat) (t : Tile) (p : Nat) (bs : List Byte) : State := s.setTileBytes key t (payOff p) bs

/-- A flagged trigger or source tile leaves its flags in the stickies of the tile that is written: the exception flag is never cleared
downstream (R97); the sat flag goes the same way (notes/assumptions/86.md). -/
def State.stick (s : State) (key d : Nat) (exc sat : Bool) : State :=
  let t := s.tile key d
  s.setTile key d { t with exc := t.exc || exc, sat := t.sat || sat }

/-- TCLR (R187): an accumulator goes EMPTY; a state tile keeps its taps. -/
def execTclr (x : TileW) (s : State) : Out :=
  runSlot s fun e fi s =>
    let n := x.dst.toNat
    let t := s.tile e.key n
    if !s.sideMayGo e fi n || t.st == .draining || t.swapped.isSome then .park s
    else
      match t.role, t.st with
      | .acc, .filling => .done (s.tileFault e fi n) []
      | .acc, _ =>
        .done (s.setTile e.key n { t.emptied with err := false, exc := false, sat := false, kdone := 0, cause := 0 }) []
      | _, .ready =>
        let row := t.size / 16
        .done ((s.setTileBytes e.key t row (zeroBytes (14 * row))).setTile e.key n { t with err := false, cause := 0 }) []
      | _, _ => .park s

/-- Elements of a TCVT source: (m, n) row by row, 16 to a row. A plain tile is read in the layout of its entry (R172): A-shaped, or with
tb its element (m, n) at 16 × m + n. -/
def tcvtSource (bs : List Byte) (t : Tile) (ty : Ty) : List Nat :=
  let w := elWidth ty false / 8
  if t.role == .acc then accEls bs w
  else (List.range 16).flatMap fun m => (List.range 16).map fun n =>
    if t.tb then (if m < 48 / w then elemIn bs w (bOff true w m n) else 0)
    else if n < 48 / w then elemIn bs w (aOff w m n) else 0

/-- Rows and columns that a TCVT source has: 16 by 16 of an accumulator, 16 by K of a plain tile, K by 16 with tb. -/
def tcvtRows (t : Tile) (ty : Ty) : Nat := if t.role != .acc && t.tb then 48 / (elWidth ty false / 8) else 16
def tcvtCols (t : Tile) (ty : Ty) : Nat := if t.role == .acc || t.tb then 16 else 48 / (elWidth ty false / 8)

/-- TCVT (R187, R188): bit 8 of lane 0 completes the destination, bit 9 empties an accumulator; the bits of lane 0 are read where it is invalid
too (notes/assumptions/118.md). A destination ring that no matrix slot reads is A-shaped (notes/assumptions/119.md). -/
def execTcvt (x : TileW) (s : State) : Out :=
  runSlot s fun e fi s =>
    let n := x.src.toNat
    let t := s.tile e.key n
    let c := laneAt fi.l.payload 0
    let k0 := c % 64
    if !s.sideMayGo e fi n || t.st == .draining then .park s
    else if t.st != .ready then .done (s.tileFault e fi n) []
    else
      match e.writes, s.ringTail e fi.lo fi.tag with
      | some r, some (s, d) =>
        let dt := s.tile e.key d
        let wd := elWidth x.tyD false / 8
        let kd := 48 / wd
        let aShaped : Bool := match e.conf.ringReader r with
          | some (_, f) => decide (f = .l)
          | none => true
        let src := tcvtSource (s.tileBytes e.key t 0 t.size) t x.ty
        -- destination k and the other index of source element (m, n)
        let els := (List.range (tcvtRows t x.ty)).flatMap fun m => (List.range (tcvtCols t x.ty)).filterMap fun j =>
          let k := k0 + (if aShaped then j else m)
          let other := if aShaped then m else j
          if k < kd then
            some (if aShaped then aOff wd other k else bOff dt.tb wd k other, convEl x.ty x.tyD false x.md (nthD src (16 * m + j) 0))
          else none
        let s := els.foldl (fun s (p, y) => s.putPay e.key dt p (toBytes wd y.bits)) s
        let s := s.setTile e.key d
          { dt with
            exc := dt.exc || t.exc || fi.out.exc || els.any fun y => y.2.exc
            sat := dt.sat || t.sat || fi.out.sat || els.any fun y => y.2.sat
            err := dt.err || t.err
            cause := if dt.err then dt.cause else t.cause }
        let s := if bitOf c 8 then s.completeTail e.key r fi.hi else s
        .done (if bitOf c 9 && t.role == .acc then s.setTile e.key n { (s.tile e.key n).emptied with kdone := 0 } else s) []
      | _, _ => .park s

/-- TTRN (R187): destination (k, n) takes source (n, k). A source that holds data from an error-tagged source marks the destination err (R173). -/
def execTtrn (x : TileW) (s : State) : Out :=
  runSlot s fun e fi s =>
    match e.writes, s.ringTail e fi.lo fi.tag with
    | some r, some (s, d) =>
      let dt := s.tile e.key d
      let st := s.tile e.key x.src.toNat
      let w := elWidth x.ty (mdAlt x.md) / 8
      let bs := s.tileBytes e.key st 0 1024
      let s := (List.range 16).foldl (fun s n => (List.range (48 / w)).foldl (fun s k =>
        s.putPay e.key dt (bOff dt.tb w k n) (toBytes w (elemIn bs w (aOff w n k)))) s) s
      let s := s.stick e.key d (fi.out.exc || st.exc) (fi.out.sat || st.sat)
      let s := if st.err then s.taintTile e.key d st.cause else s
      .done (s.completeTail e.key r fi.hi) []
    | _, _ => .park s

/-- TFILL (R187): every payload element is element 0 of lane 0, or zero bits. -/
def execTfill (x : TileW) (s : State) : Out :=
  runSlot s fun e fi s =>
    match e.writes, s.ringTail e fi.lo fi.tag with
    | some r, some (s, d) =>
      let dt := s.tile e.key d
      let w := elWidth x.ty (mdAlt x.md) / 8
      let v := if fi.l.valid.getLsbD 0 then elAt (8 * w) fi.l.payload 0 else 0
      let row := (List.replicate (48 / w) (toBytes w v)).flatten
      let s := ((List.range 16).foldl (fun s m => s.putPay e.key dt (48 * m) row) s).stick e.key d fi.out.exc fi.out.sat
      .done (s.completeTail e.key r fi.hi) []
    | _, _ => .park s

/-- TROW (R189). -/
def execTrow (x : EW) (s : State) : Out :=
  runSlot s fun e fi s => s.trowWrite e (x.ty == .f32 && mdAlt x.md) fi { fi.l with exc := fi.out.exc, sat := fi.out.sat, err := fi.out.err, cause := fi.out.cause }

end Sys2Proof.Machine
end

