-- ==== Sys2Proof/Machine/Scan.lean ====
section
/-!
DEFINITION. Reductions (R113, R191, R192), scans and recurrences (R109 to R111, R193 to R196), SEGSET (R197), CARRY (R198).
-/

namespace Sys2Proof.Machine

/-! ## Elements -/

/-- One rounded sum, product and fused step of codes. -/
def addCodes (f : Fmt) (rm : RM) (ftz : Bool) (a b : Nat) : El := roundEl f rm ftz ((readEl f ftz a).add rm (readEl f ftz b))
def mulCodes (f : Fmt) (rm : RM) (ftz : Bool) (a b : Nat) : El := roundEl f rm ftz ((readEl f ftz a).mul (readEl f ftz b))
def fmaCodes (f : Fmt) (rm : RM) (ftz : Bool) (a b c : Nat) : El :=
  roundEl f rm ftz (FV.fma rm (readEl f ftz a) (readEl f ftz b) (readEl f ftz c))

/-- The lesser or greater of two codes (R95, R153). -/
def pickCode (f : Fmt) (greater : Bool) (a b : Nat) : Nat :=
  match (f.decode a).cmp (f.decode b) with
  | none => f.nanCode
  | some .lt => if greater then b else a
  | some .gt => if greater then a else b
  | some .eq => if (f.decode a).isNeg == greater then b else a

/-- Conditions of a value joined with those of the values it was made from. -/
def El.with (x a b : El) : El := { x with exc := x.exc || a.exc || b.exc, sat := x.sat || a.sat || b.sat }

/-- The operation of VRED and SCAN: md[19:18] is 00 sum, 01 min, 10 max; md[21:20] is the rounding or the mode. -/
def redOp (x : EW) (a b : El) : El :=
  let op := x.md.toNat % 4
  let m := mdRm x.md
  let r : El :=
    if x.ty == .i32 then
      if op == 0 then modeEl m 32 (readInt m 32 a.bits + readInt m 32 b.bits)
      else if op == 1 then { bits := if readInt m 32 a.bits ≤ readInt m 32 b.bits then a.bits else b.bits }
      else { bits := if readInt m 32 a.bits ≤ readInt m 32 b.bits then b.bits else a.bits }
    else if op == 0 then addCodes (fmtOf x.ty) (mdRM x.md) false a.bits b.bits
    else { bits := pickCode (fmtOf x.ty) (op == 2) a.bits b.bits }
  r.with a b

/-! ## VRED (R113, R191) -/

/-- A node of the tree: one valid input passes unrounded, a NaN with its bits (notes/assumptions/84.md). -/
def redNode (f : El → El → El) : Option El → Option El → Option El
  | some a, some b => some (f a b)
  | some a, none => some a
  | none, b => b

/-- One level: adjacent pairs. -/
def redLevel (f : El → El → El) : List (Option El) → List (Option El)
  | a :: b :: rest => redNode f a b :: redLevel f rest
  | l => l

def redTree (f : El → El → El) : Nat → List (Option El) → Option El
  | 0, l => nthD l 0 none
  | n + 1, l => redTree f n (redLevel f l)

/-- A minimum or maximum of one element: a NaN gives the canonical NaN (R95, R191). A sum passes a lone element on as it stands
(R113; notes/assumptions/84.md). -/
def redLone (x : EW) (a : El) : El :=
  if x.ty != .i32 && x.md.toNat % 4 != 0 && ((fmtOf x.ty).decode a.bits).isNan then { a with bits := (fmtOf x.ty).nanCode } else a

/-- Elements of a token as they enter a tree: none where invalid. -/
def tokEls (w : Nat) (t : Token) : List (Option El) :=
  (List.range (elCount w)).map fun e => if elValid w t.valid e then some { bits := elAt w t.payload e } else none

def execVred (x : EW) (s : State) : Out :=
  runLanes s fun _ fi =>
    let w := elWidth x.ty false
    let y := (redTree (redOp x) 4 (tokEls w fi.l)).map (redLone x)
    { payload := packEls w [(y.getD { bits := 0 }).bits]
      valid := if y.isSome then (if w == 64 then 3 else 1) else 0
      reset := pairReset w fi.l.reset
      exc := (y.getD { bits := 0 }).exc
      sat := (y.getD { bits := 0 }).sat }

/-! ## RSEND (R192) -/

/-- RSEND sends the token of l as a reduction packet. -/
def execRsend (_x : EW) (s : State) : Out :=
  runSlot s fun e fi s => .done s (fi.one { fi.moved e.hdr fi.lo fi.hi with kind := 1 })

/-! ## The segmented tree (R109) -/

/-- One level at distance d: an element whose chain is not cut takes in the element d below it. -/
def segLevel {α : Type} (f : α → α → α) (d : Nat) (l : List (α × Bool)) : List (α × Bool) :=
  List.zipWith (fun x y =>
    match x, y with
    | (a, false), some (b, c) => (f a b, c)
    | x, _ => x) l (List.replicate d none ++ l.map some)

/-- Levels at distances 1, 2, 4 and 8; one at the length of the list or more changes nothing. -/
def segTree {α : Type} (f : α → α → α) (l : List (α × Bool)) : List (α × Bool) :=
  segLevel f 8 (segLevel f 4 (segLevel f 2 (segLevel f 1 l)))

/-- The pairs (a, b) of a recurrence, with the roundings of the multiplier and the fused step. -/
def lrecTree (f : Fmt) (rm : RM) (ftz : Bool) (l : List ((El × El) × Bool)) : List ((El × El) × Bool) :=
  segTree (fun (a, b) (a', b') => ((mulCodes f rm ftz a.bits a'.bits).with a a', (fmaCodes f rm ftz a.bits b'.bits b.bits).with b (a.with a b'))) l

/-- h of every element: the chain's start is rv where a reset cuts it, else h_in. -/
def lrecEls (f : Fmt) (rm : RM) (ftz : Bool) (hin rv : Nat) (l : List ((El × El) × Bool)) : List El :=
  (lrecTree f rm ftz l).map fun ((a, b), cut) => (fmaCodes f rm ftz a.bits (if cut then rv else hin) b.bits).with a b

/-- Running sums under a mode, minima, maxima: an invalid element passes the chain through. -/
def scanEls (op : El → El → El) (hin rv : Nat) (l : List (Option El × Bool)) : List El :=
  (segTree (redNode fun b b' => op b' b) l).map fun (b, cut) =>
    let start : El := { bits := if cut then rv else hin }
    match b with
    | some b => op start b
    | none => start

/-! ## Parameter register and state tile (R193, R194) -/

structure RecParam where
  tile : Nat
  chain : Bool
  taps : Nat
  rv : Nat
  alpha : Nat
  deriving DecidableEq, Repr, Inhabited

def recParamOf (ty : Ty) (p : BitVec 512) : RecParam :=
  { tile := laneAt p 0 % 64, chain := bitOf (laneAt p 0) 8, taps := bitsOf (laneAt p 0) 20 16
    rv := if ty == .f64 then elAt 64 p 1 else laneAt p 1
    alpha := if ty == .f64 then elAt 64 p 2 else laneAt p 4 }

/-- Bytes of a row: a state tile has 16. -/
def stateRow (t : Tile) : Nat := t.size / 16

/-- Row 1 + 2t and row 2 + 2t of a tag. -/
def carryOff (t : Tile) (tag : Nat) : Nat := (1 + 2 * (tag % 64)) * stateRow t
def maskOff (t : Tile) (tag : Nat) : Nat := (2 + 2 * (tag % 64)) * stateRow t

/-- A state tile has rows for tags 0 to 6. The carry of another tag, which only a CARRY slot can name, is empty and keeps nothing
(notes/assumptions/127.md). -/
def hasCarry (tag : Nat) : Bool := tag % 64 ≤ 6

/-- The carry of a tag: element 0, none when empty. -/
def State.carryOf (s : State) (key n tag w : Nat) : Option Nat :=
  let t := s.tile key n
  if hasCarry tag && bitOf (ofBytes (s.tileBytes key t (maskOff t tag + 8) 4)) 0 then some (ofBytes (s.tileBytes key t (carryOff t tag) (w / 8)))
  else none

/-- Writes the carry-valid bit of a tag. -/
def State.setCarryValid (s : State) (key n tag : Nat) (v : Bool) : State :=
  let t := s.tile key n
  if hasCarry tag then s.setTileBytes key t (maskOff t tag + 8) (toBytes 4 (b2n v)) else s

def State.setCarry (s : State) (key n tag w v : Nat) : State :=
  let t := s.tile key n
  if hasCarry tag then (s.setTileBytes key t (carryOff t tag) (toBytes (w / 8) v)).setCarryValid key n tag true else s

/-- The masks of the token that a chained firing took. -/
def State.setMasks (s : State) (key n tag : Nat) (t : Token) : State :=
  let x := s.tile key n
  s.setTileBytes key x (maskOff x tag) (toBytes 4 t.valid.toNat ++ toBytes 4 t.reset.toNat)

/-- A result that comes from a tainted state tile is error-tagged (R373, R376). -/
def tagTainted (t : Tile) (x : Token) : Token := if t.err then { x with err := true, cause := t.cause } else x

/-- A recurrence firing: with `chain` or FIR's taps it waits until the tile is READY and its side accesses are done. What it reads from a
tainted tile taints its result, FIR's taps as well as a chain (R376). -/
def runState (s : State) (x : EW) (needs : RecParam → Bool) (body : RecParam → SlotEnv → Fire → State → State × LaneRes) : Out :=
  runSlot s fun e fi s =>
    let p := recParamOf x.ty (e.conf.constTok e.hdr.kreg).payload
    let t := s.tile e.key p.tile
    if needs p && (t.st != .ready || (p.chain && !s.ownerMayGo e fi p.tile)) then .park s
    else
      let (s, r) := body p e fi s
      .done s (fi.one (if needs p then tagTainted t (fi.result e.hdr r) else fi.result e.hdr r))

/-- Elements of a token with their reset bits; an empty carry cuts the chain at element 0. -/
def cuts (w : Nat) (t : Token) (empty : Bool) : List Bool :=
  (List.range (elCount w)).map fun i => elReset w t.reset i || (empty && i == 0)

/-- A result of given elements over the masks of l. -/
def recResult (w : Nat) (valid reset : BitVec 16) (es : List El) : LaneRes :=
  { lanewise w valid reset fun i => { bits := (nthD es i { bits := 0 }).bits } with
    exc := es.any (·.exc), sat := es.any (·.sat) }

/-- SCAN, LREC and EMA: `f` gives h of every element from h_in and the reset bits. The last is the carry out. -/
def runRec (s : State) (x : EW) (readsR : Bool) (f : RecParam → Fire → Nat → List Bool → List El) : Out :=
  runState s x (·.chain) fun p e fi s =>
    let w := elWidth x.ty false
    let carry := if p.chain then s.carryOf e.key p.tile fi.tag w else none
    let es := f p fi (carry.getD p.rv) (cuts w fi.l (p.chain && carry.isNone))
    let s :=
      if p.chain then
        (s.setCarry e.key p.tile fi.tag w (es.getLast?.getD { bits := 0 }).bits).setMasks e.key p.tile fi.tag fi.l
      else s
    (s, recResult w (if readsR then fi.l.valid &&& fi.r.valid else fi.l.valid) fi.l.reset es)

/-- The pairs of a recurrence: (1, 0) where the element is invalid. -/
def recPairs (ty : Ty) (valid : BitVec 16) (cut : List Bool) (a b : Nat → El) : List ((El × El) × Bool) :=
  let w := elWidth ty false
  cut.zipIdx.map fun (c, i) =>
    if elValid w valid i then ((a i, b i), c) else (({ bits := oneCode (fmtOf ty) }, { bits := 0 }), c)

/-- SCAN (R195). -/
def execScan (x : EW) (s : State) : Out :=
  runRec s x false fun p fi hin cut =>
    let w := elWidth x.ty false
    if isFloatTy x.ty && x.md.toNat % 4 == 0 then
      lrecEls (fmtOf x.ty) (mdRM x.md) false hin p.rv
        (recPairs x.ty fi.l.valid cut (fun _ => { bits := oneCode (fmtOf x.ty) }) fun i => { bits := elAt w fi.l.payload i })
    else scanEls (redOp x) hin p.rv ((tokEls w fi.l).zip cut)

/-- LREC (R109): l brings a, r brings b. -/
def execLrec (x : EW) (s : State) : Out :=
  runRec s x true fun p fi hin cut =>
    let w := elWidth x.ty false
    lrecEls (fmtOf x.ty) .rne (mdFtz x.md) hin p.rv
      (recPairs x.ty (fi.l.valid &&& fi.r.valid) cut (fun i => { bits := elAt w fi.l.payload i })
        fun i => { bits := elAt w fi.r.payload i })

/-- EMA (R110). -/
def execEma (x : EW) (s : State) : Out :=
  runRec s x false fun p fi hin cut =>
    let w := elWidth x.ty false
    let f := fmtOf x.ty
    let ftz := mdFtz x.md
    let rest := roundEl f .rne ftz (FV.add .rne .one (readEl f ftz p.alpha).negate)
    lrecEls f .rne ftz hin p.rv
      (recPairs x.ty fi.l.valid cut (fun _ => { bits := p.alpha }) fun i =>
        (mulCodes f .rne ftz rest.bits (elAt w fi.l.payload i)).with rest rest)

/-! ## FIR (R111, R196) -/

/-- One element of a token or of the history before it: its code when valid, and its reset bit. -/
abbrev FirEl := Option Nat × Bool

def firEls (w : Nat) (t : Token) : List FirEl :=
  (List.range (elCount w)).map fun i => (if elValid w t.valid i then some (elAt w t.payload i) else none, elReset w t.reset i)

/-- The sum over the taps from element q downwards; a reset bit that stands above a term cuts it off. -/
def firSum (f : Fmt) (rm : RM) (ftz : Bool) (xs : List FirEl) : List Nat → Nat → El → El
  | [], _, acc => acc
  | c :: cs, q, acc =>
    let (v, cut) := nthD xs q (none, true)
    let acc := match v with
      | some v => (fmaCodes f rm ftz c v acc.bits).with acc acc
      | none => acc
    if cut || q == 0 then acc else firSum f rm ftz xs cs (q - 1) acc

/-- The history of a tag, as a token. -/
def State.historyOf (s : State) (key n tag : Nat) : Token :=
  let t := s.tile key n
  if bitOf (ofBytes (s.tileBytes key t (maskOff t tag + 8) 4)) 0 then
    { payload := BitVec.ofNat 512 (ofBytes (s.tileBytes key t (carryOff t tag) 64))
      valid := BitVec.ofNat 16 (ofBytes (s.tileBytes key t (maskOff t tag) 4))
      reset := BitVec.ofNat 16 (ofBytes (s.tileBytes key t (maskOff t tag + 4) 4)) }
  else {}

def execFir (x : EW) (s : State) : Out :=
  runState s x (fun _ => true) fun p e fi s =>
    let w := elWidth x.ty false
    let n := elCount w
    let t := s.tile e.key p.tile
    let taps := (List.range p.taps).map fun j => ofBytes (s.tileBytes e.key t (j * (w / 8)) (w / 8))
    let hist := if p.chain then s.historyOf e.key p.tile fi.tag else {}
    let xs := firEls w hist ++ firEls w fi.l
    let es := (List.range n).map fun i =>
      if elValid w fi.l.valid i then firSum (fmtOf x.ty) (mdRM x.md) (mdFtz x.md) xs taps (n + i) { bits := 0 }
      else { bits := 0 }
    let s :=
      if p.chain then
        ((s.setTileBytes e.key t (carryOff t fi.tag) (toBytes 64 fi.l.payload.toNat)).setMasks e.key p.tile fi.tag fi.l).setCarryValid
          e.key p.tile fi.tag true
      else s
    (s, recResult w fi.l.valid fi.l.reset es)

/-! ## SEGSET, CARRY -/

/-- SEGSET (R197): lane i of r is valid and non-zero; for f64 both lanes of a pair follow its element (R91). -/
def execSegset (x : EW) (s : State) : Out :=
  runLanes s fun _ fi =>
    { payload := fi.l.payload, valid := fi.l.valid
      reset := maskOf fun i =>
        if x.ty == .f64 then elValid 64 fi.r.valid (i / 2) && elAt 64 fi.r.payload (i / 2) != 0
        else fi.r.valid.getLsbD i && laneAt fi.r.payload i != 0 }

/-- CARRY (R198): md[19:18] is 00 GET, 01 PUT, 10 DROP. -/
def execCarry (x : EW) (s : State) : Out :=
  runSlot s fun e fi s =>
    let n := laneAt (e.conf.constTok e.hdr.kreg).payload 0 % 64
    let w := elWidth x.ty false
    let t := s.tile e.key n
    if !s.sideMayGo e fi n || t.st != .ready then .park s
    else
      match x.md.toNat % 4 with
      | 0 =>
        let c := s.carryOf e.key n fi.tag w
        let r : LaneRes := { payload := packEls w [c.getD 0], valid := if c.isSome then (if w == 64 then 3 else 1) else 0 }
        .done s (fi.one (tagTainted t (fi.result e.hdr r)))
      | 1 =>
        let s :=
          if elValid w fi.l.valid 0 then s.setCarry e.key n fi.tag w (elAt w fi.l.payload 0)
          else s.setCarryValid e.key n fi.tag false
        .done s (fi.one (fi.moved e.hdr fi.lo fi.hi))
      | _ =>
        .done ((s.setCarryValid e.key n fi.tag false).setTile e.key n { t with err := false, cause := 0 })
          (fi.one (fi.moved e.hdr fi.lo fi.hi))

end Sys2Proof.Machine
end

