-- ==== Sys2Proof/Machine/Node.lean ====
section
/-!
DEFINITION. Memory nodes (R221 to R224, R234 to R245) and translation by them (R356, R357).
-/

namespace Sys2Proof.Machine

/-! ## Windows and host addresses -/

/-- md[21:19] names the window; md[18] is the physical bit, or in a described window the block bit (R237). -/
def nodeWin (x : EW) : Nat := x.md.toNat / 2
def SlotEnv.window (e : SlotEnv) (x : EW) : Window := amGet e.conf.windows (nodeWin x) {}

/-- Where byte a of the host's memory under a context's PASID stands. -/
def State.hostKey (s : State) (ctx a : Nat) : Nat := (amGet s.ctxs ctx {}).pasid * 2 ^ 64 + a

/-- Whether the host refuses the translation of an address, or lacks the permission (R360). -/
def State.hostRefuses (s : State) (ctx a : Nat) (write : Bool) : Bool :=
  s.ats.contains (2 * ctx, a / 4096) || (write && s.ats.contains (2 * ctx + 1, a / 4096))

/-! ## Translation of one address (R356, R357) -/

inductive XRes
  | phys (pa entry : Nat)
  | fault (cause : Nat)
  | wait (migrating : Bool)
  | line (cause : Nat)
  deriving DecidableEq, Repr, Inhabited

/-- The checks of a leaf in their order. -/
def State.translate (s : State) (ctx va : Nat) (write described : Bool) : State × XRes :=
  let (s, r) := s.walk ctx va
  match r with
  | .malformed => (s, .fault 0x02)
  | .notValid => (s, .wait false)
  | .lineError c => (s, .line c)
  | .leaf pa en _ _ =>
    if pteMigrating en then (s, .wait true)
    else if write && !pteWrite en then (s, .fault 0x03)
    else if pteDescribed en != described then (s, .fault 0x04)
    else (s, .phys pa en)

/-- What a denial records of a firing's access: its slot, its trigger, the page's address (R279, R359). -/
def State.denial (s : State) (e : SlotEnv) (tag va : Nat) : FaultRec :=
  let st := s.slotSt e.key e.slot
  let t := ((st.field .l tag).rows.find? fun t => decide (amGet st.doneTo tag 0 < t.hi)).getD {}
  e.fault s .l 0x0E tag t (pageOf va)

/-- A firing's access waits for a page (R292, R358, R361): a request goes out unless one for it is outstanding. -/
def State.withhold (s : State) (e : SlotEnv) (tag va : Nat) (write migrating : Bool) : State :=
  let u := s.getU e.key
  let old := u.withheld.find? fun w => w.slot == e.slot && w.tag == tag
  let waits := match old with
    | some w => w.va == va && w.migrating == migrating && (migrating || w.prg.any fun p => (amGet? s.prgs p).isSome)
    | none => false
  if waits then s
  else
    let (s, prg) :=
      if migrating then (s, none)
      else s.pageRequest
        { ctx := u.ctx, gen := (amGet s.ctxs u.ctx {}).gen, va := va, node := idxOf e.key, write := write, denial := s.denial e tag va }
    s.updU e.key fun u =>
      { u with withheld := u.withheld.filter (fun w => !(w.slot == e.slot && w.tag == tag)) ++ [Withheld.mk e.slot tag va prg migrating] }

/-- The access of a firing no longer waits. -/
def State.unhold (s : State) (e : SlotEnv) (tag : Nat) : State :=
  s.updU e.key fun u => { u with withheld := u.withheld.filter fun w => !(w.slot == e.slot && w.tag == tag) }

/-- A withheld token holds back every later token of its slot (R356). -/
def State.heldBack (s : State) (e : SlotEnv) (tag : Nat) : Bool :=
  (s.getU e.key).withheld.any fun w => w.slot == e.slot && w.tag != tag

/-! ## The bytes that an access names (R238, R242) -/

/-- Four bytes for one lane: where they stand, by which address of M they were translated, whether their page is external, and a cause for which they are not accessed. -/
structure LaneRef where
  lane : Nat
  sp : Space := .m
  addr : Nat := 0
  ext : Bool := false
  bad : Option Nat := none
  va : Nat := 0
  deriving DecidableEq, Repr, Inhabited

/-- What one address of a token gives. -/
inductive ItemRes
  | refs (l : List LaneRef)
  | fault (f : FaultRec)
  | wait (va : Nat) (migrating : Bool)
  deriving DecidableEq, Repr, Inhabited

/-- What all of them give: the first that faults or waits decides, and nothing is accessed. -/
inductive Reached
  | refs (s : State) (l : List LaneRef)
  | fault (s : State) (f : FaultRec)
  | wait (s : State) (va : Nat) (migrating : Bool)

def reachItems (f : State → Nat → State × ItemRes) : List Nat → State → List LaneRef → Reached
  | [], s, acc => .refs s acc
  | i :: is, s, acc =>
    let (s, r) := f s i
    match r with
    | .refs l => reachItems f is s (acc ++ l)
    | .fault f => .fault s f
    | .wait va m => .wait s va m

/-- Consecutive lanes from lane i on, for n bytes at one place. -/
def laneRefs (i n : Nat) (r : LaneRef) : List LaneRef :=
  (List.range (n / 4)).map fun j => { r with lane := i + j, addr := r.addr + 4 * j }

/-- Everything an access of a node needs. -/
structure NodeAcc where
  e : SlotEnv
  fi : Fire
  x : EW
  write : Bool
  lanes : BitVec 16                        -- lanes of r that are valid; all of them for a load
  deriving DecidableEq, Repr, Inhabited

def NodeAcc.win (a : NodeAcc) : Window := a.e.window a.x
def NodeAcc.record (s : State) (a : NodeAcc) (code aux : Nat) : FaultRec :=
  a.e.fault s .l code a.fi.tag a.fi.l aux

/-- n bytes at window offset off, for lanes from i on; `key` is the index that a NODE_BOUNDS record gives. -/
def NodeAcc.item (a : NodeAcc) (s : State) (i off n key : Nat) : State × ItemRes :=
  let w := a.win
  let ctx := (s.getU a.e.key).ctx
  match w.sp with
  | .h =>
    let (ptr, ext) := nthD (s.getPad (s.getU a.e.key).pad).eps w.endpoint (0, 0)
    if ext % 2 ^ 48 < off + n then (s, .fault (NodeAcc.record s a 0x08 (i * 2 ^ 60 + key)))
    else
      -- an access that crosses a page needs both (R360)
      let second := (ptr + off + n - 1) / 4096 * 4096 - ptr
      match [off, second].find? fun o => s.hostRefuses ctx (ptr + o) a.write with
      | some o => (s, .fault (NodeAcc.record s a 0x11 (w.endpoint * 2 ^ 58 + o)))
      | none => (s, .refs (laneRefs i n { lane := i, sp := .h, addr := s.hostKey ctx (ptr + off) }))
  | sp =>
    let below := match amGet? (s.getU a.e.key).evictMarks (nodeWin a.x) with
      | some m => w.evict && decide (w.base + off < m)
      | none => false
    if w.extent < off + n || below then (s, .fault (NodeAcc.record s a 0x08 (i * 2 ^ 60 + key)))
    else
      match sp with
      | .m =>
        let va := w.base + off
        let (s, r) := s.translate ctx va a.write w.described
        match r with
        | .phys pa en =>
          (s, .refs (laneRefs i n
            { lane := i, addr := pa, va := va, ext := pteExternal en, bad := if ptePoisoned en then some 0x08 else none }))
        | .fault c => (s, .fault (NodeAcc.record s a 0x10 (c * 2 ^ 56 + va)))
        | .wait m => (s, .wait va m)
        | .line c => (s, .refs (laneRefs i n { lane := i, bad := some c }))
      | _ => (s, .refs (laneRefs i n { lane := i, sp := .s, addr := sliceAddr (idxOf a.e.key) (w.base + off) }))

/-- Index form: lane i names base + x × e. -/
def NodeAcc.index (a : NodeAcc) (s : State) (i : Nat) : State × ItemRes :=
  let n := if a.x.ty == .f64 then 8 else 4
  let x := laneAt a.fi.l.payload i
  a.item s i (x * n) n x

/-- Physical form: lane pair i names 8 aligned bytes (R238, R357). -/
def NodeAcc.physical (a : NodeAcc) (s : State) (i : Nat) : State × ItemRes :=
  let v := elAt 64 a.fi.l.payload i
  let pa := v % 2 ^ 52
  if pa % 8 != 0 then (s, .fault (NodeAcc.record s a 0x08 (2 * i * 2 ^ 60 + pa)))
  else (s, .refs (laneRefs (2 * i) 8 { lane := 2 * i, addr := pa, ext := bitOf v 56, bad := if bitOf v 57 then some 0x08 else none }))

/-- The lanes that the access reaches. -/
def NodeAcc.reach (a : NodeAcc) (s : State) : Reached :=
  let v := a.fi.l.valid
  if a.win.described then
    reachItems (fun s _ => let x := laneAt a.fi.l.payload 0; a.item s 0 (64 * x) 64 x)
      (if v.getLsbD 0 && a.lanes.getLsbD 0 then [0] else []) s []
  else if a.x.md.getLsbD 0 then
    let pairs := (List.range 8).filter fun i => v.getLsbD (2 * i) && v.getLsbD (2 * i + 1) &&
      (if a.x.ty == .f64 then a.lanes.getLsbD (2 * i) && a.lanes.getLsbD (2 * i + 1)
       else a.lanes.getLsbD (2 * i) || a.lanes.getLsbD (2 * i + 1))
    match reachItems a.physical pairs s [] with
    | .refs s l => .refs s (l.filter fun r => a.lanes.getLsbD r.lane)
    | r => r
  else if a.x.ty == .f64 then
    reachItems a.index ((List.range 8).filterMap fun i =>
      if v.getLsbD (2 * i) && a.lanes.getLsbD (2 * i) && a.lanes.getLsbD (2 * i + 1) then some (2 * i) else none) s []
  else reachItems a.index ((List.range 16).filter fun i => v.getLsbD i && a.lanes.getLsbD i) s []

/-! ## Order within a node (R221 to R224, R243) -/

/-- The tags of a slot that an access under a tag is ordered with: those that have reached it, and the access's own in one tag space; in another
space that no token has reached, its first tag, whose frontier is 0. The order is by span alone, whatever the tags (R222, R223, R243;
notes/assumptions/53.md). -/
def State.orderedTags (s : State) (e : SlotEnv) (slot tag : Nat) : List Nat :=
  let seen := (s.slotSt e.key slot).tagsSeen
  match s.slotEnv e.key slot with
  | some o =>
    if o.hdr.tsp == e.hdr.tsp then (if seen.contains tag then seen else tag :: seen)
    else if seen.isEmpty then [o.hdr.tsp * 64] else seen
  | none => seen

/-- No firing of a slot with intersection lo below t is left under a tag, or can still come. -/
def State.passedTag (s : State) (e : SlotEnv) (slot tag t : Nat) : Bool :=
  match s.slotEnv e.key slot with
  | none => true
  | some o =>
    let st := s.slotSt e.key slot
    decide (t ≤ o.minFront st tag) &&
      match o.next st tag with
      | some c => decide (t ≤ c.lo)
      | none => true

/-- Every access of a slot with trigger lo below t has performed, its stores visible. -/
def State.performed (s : State) (e : SlotEnv) (slot tag t : Nat) : Bool :=
  ((s.orderedTags e slot tag).all fun g => s.passedTag e slot g t) &&
    (s.getU e.key).stores.all fun x => x.slot != slot || t ≤ x.completion.lo || (x.visible && x.held.isEmpty)

def accessSlots (c : UnitConf) : List Nat :=
  (c.slots.filter fun (_, w, _) =>
    match decodeE w with
    | .ok (.ldn _) | .ok (.stn _) | .ok (.updn _) | .ok (.ldsc _) | .ok (.stsc _) => true
    | _ => false).map (·.1)

/-- SBAR slots that name a slot (R245). -/
def sbarsOn (c : UnitConf) (slot : Nat) : List Nat :=
  (c.slots.filter fun (_, w, h) =>
    match decodeE w with
    | .ok (.sbar _) => bitOf (laneAt (c.constTok (Hdr.ofWord h).kreg).payload 0) slot
    | _ => false).map (·.1)

/-- The access at lo may perform under R223: every SBAR that names its slot has passed lo, and every access of the node below one of its
triggers up to lo has performed. An SBAR that no trigger has reached holds the access back. -/
def State.sbarsPassed (s : State) (e : SlotEnv) (fi : Fire) : Bool :=
  (sbarsOn e.conf e.slot).all fun b =>
    (s.orderedTags e b fi.tag).all fun g =>
      s.passedTag e b g (fi.lo + 1) &&
        (amGet (s.slotSt e.key b).bars g []).all fun t => fi.lo < t || (accessSlots e.conf).all fun z => s.performed e z fi.tag t

/-- UPDN slots of the node. -/
def updSlots (c : UnitConf) : List Nat :=
  (c.slots.filter fun (_, w, _) =>
    match decodeE w with
    | .ok (.updn _) => true
    | _ => false).map (·.1)

/-- An update at lo waits for the node's other updates that come before it: by lo, then by slot (R222, R243), and of one slot by tag
(notes/assumptions/53.md). -/
def State.updMayGo (s : State) (e : SlotEnv) (fi : Fire) : Bool :=
  (updSlots e.conf).all fun z => (s.orderedTags e z fi.tag).all fun g =>
    if z == e.slot then g == fi.tag || s.passedTag e z g (if g < fi.tag then fi.lo + 1 else fi.lo)
    else s.passedTag e z g (if z < e.slot then fi.lo + 1 else fi.lo)

/-! ## Updates (R243) -/

/-- New value of an update (R243): integer modes 0 to 3, roundings 4 to 7. -/
def updEl (upd old v : Nat) : El :=
  if upd < 4 then modeEl upd 32 (readInt upd 32 old + readInt upd 32 v)
  else addCodes .f32 (RM.ofCode (upd - 4)) false old v

/-! ## Reading and writing -/

/-- What a store is still to do: write bytes, or update an element. -/
inductive ToDo
  | bytes (sp : Space) (addr : Nat) (bs : List Byte)
  | upd (u : HeldUpd)
  deriving DecidableEq, Repr, Inhabited

def NodeStore.toDo (x : NodeStore) : List ToDo := ((x.writes ++ x.held).map fun (sp, a, bs) => .bytes sp a bs) ++ x.ups.map .upd

/-- Bytes read from an address, as they are behind one thing that is still to be done. -/
def ToDo.over (bs : List Byte) (sp : Space) (a : Nat) : ToDo → List Byte
  | .bytes p b new => bs.zipIdx.map fun (x, i) => if p == sp && b ≤ a + i then (new[a + i - b]?).getD x else x
  | .upd u => if u.sp == sp && u.addr == a then toBytes bs.length (updEl u.upd (ofBytes bs) u.v).bits else bs

/-- Bytes as they are behind all that is still to be done, oldest first. -/
def overlay (ws : List ToDo) (sp : Space) (a : Nat) (bs : List Byte) : List Byte := ws.foldl (fun bs w => w.over bs sp a) bs

/-- Puts a store behind those that do not come after it in the SC order. -/
def scInsert {α : Type} (pos : α → Nat) (x : α) : List α → List α
  | [] => [x]
  | y :: ys => if pos x < pos y then x :: y :: ys else y :: scInsert pos x ys

/-- Stores in the SC order, those outside it first. -/
def scSorted {α : Type} (pos : α → Nat) (l : List α) : List α := l.foldl (fun acc x => scInsert pos x acc) []

/-- The STSCs of a paddock that are held for their gate, in the SC order (notes/assumptions/103.md). -/
def State.scHeld (s : State) (pad : Nat) : List NodeStore :=
  scSorted (·.scPos) (s.units.flatMap fun (_, u) => if u.live && u.pad == pad then u.stores.filter fun x => decide (0 < x.scPos) else [])

/-- What a load of the slot and tag sees of stores in flight: those of its own stream, the node's held updates, and for an LDSC the STSCs of its
paddock, the last of which it returns (R221, R222, R224). -/
def State.inFlight (s : State) (e : SlotEnv) (tag : Nat) : List ToDo :=
  let l := match e.instr with
    | .ldsc _ => s.scHeld (s.getU e.key).pad
    | _ => (s.getU e.key).stores.filter fun x => (x.slot == e.slot && x.completion.tag == tag) || (updSlots e.conf).contains x.slot
  l.flatMap NodeStore.toDo

/-- The node's log of held stores is full (R384): its size is the firmware's (Config.heldLog). A node whose log is empty has room. -/
def State.logFull (s : State) (key : Nat) : Bool :=
  let l := (s.getU key).stores.map fun x => (x.held.map fun y => y.2.2.length).sum + 4 * x.ups.length
  0 < l.sum && Config.heldLog ≤ l.sum

/-- A block of format code 0xFE with a valid CRC (R372). -/
def poisonBlock : List Byte :=
  let body := 0xFE#8 :: List.replicate 55 0
  body ++ toBytes 4 (crc32c body).toNat ++ zeroBytes 4

/-- One lane is read: its bits, or the cause for which they are not known (free values, notes/assumptions/6.md). -/
def State.readRef (s : State) (ws : List ToDo) (described : Bool) (r : LaneRef) : State × Nat × Option Nat :=
  match r.bad with
  | some c =>
    let (k, s) := s.fresh
    (s, (Config.freeWord k).toNat % 2 ^ 32, some c)
  | none =>
    let block := described && s.markOf r.sp (r.addr / 64) == some .uncorrectable
    let (s, bs, c) := s.checkedRead r.sp r.addr 4
    let s := if block then s.storeMem r.sp (r.addr / 64 * 64) poisonBlock else s
    match c with
    | some c =>
      let (k, s) := s.fresh
      (s, (Config.freeWord k).toNat % 2 ^ 32, some c)
    | none => (s, ofBytes (overlay ws r.sp r.addr bs), none)

/-- Reads the lanes in order: lane values, and the first cause. -/
def State.readRefs (s : State) (ws : List ToDo) (described : Bool) (l : List LaneRef) :
    State × List (Nat × Nat) × Option Nat :=
  l.foldl (fun (s, vs, c) r =>
    let (s, v, c') := s.readRef ws described r
    (s, vs ++ [(r.lane, v)], c.or c')) (s, [], none)

/-- Lanes with given values, all others zero. -/
def lanePayload (vs : List (Nat × Nat)) : BitVec 512 :=
  packEls 32 ((List.range 16).map fun i => ((vs.find? fun x => x.1 == i).map (·.2)).getD 0)

def laneMask (l : List Nat) : BitVec 16 := maskOf fun i => l.contains i

/-! ## Firings of a node -/

/-- The slots that the SC token lets perform. -/
def scSlots (c : UnitConf) : List Nat :=
  (c.slots.filter fun (_, w, _) =>
    match decodeE w with
    | .ok (.ldsc _) | .ok (.stsc _) => true
    | _ => false).map (·.1)

/-- The SC ring's next node after a position. -/
def State.passScToken (s : State) (pad : Nat) : State :=
  let p := s.getPad pad
  let pos := (p.ringPos + 1) % p.conf.scRing.length
  (s.setPad pad { p with ringPos := pos }).post (.scRingToken pad (nthD p.conf.scRing pos 0))

/-- After an SC access: one less is left, and the token moves on when none may or can perform. -/
def State.scDone (s : State) (key n : Nat) : State :=
  let u := s.getU key
  let more := s.ready.any fun r => r.1 == Loc.ofKey key && (scSlots u.conf).contains r.2.1 && !u.parked.contains r.2
  let left := u.scBudget - n
  if left == 0 || !more then (s.setU key { u with scBudget := 0 }).passScToken u.pad
  else s.setU key { u with scBudget := left }

/-- Runs an access: it waits for the SBARs that name it, for the SC token in SC mode, for pages; one that stores, for room in the node's log. -/
def runAccess (s : State) (x : EW) (write sc : Bool) (may : State → SlotEnv → Fire → Bool)
    (body : NodeAcc → State → List LaneRef → State × List (Nat × HeldOut)) : Out :=
  let out := runSlot s fun e fi s =>
    if s.heldBack e fi.tag || !s.sbarsPassed e fi || !may s e fi || (write && s.logFull e.key) || (sc && (s.getU e.key).scBudget == 0) then .park s
    else
      let w := e.window x
      let lanes := if !write then 0xFFFF else if w.described then maskOf fun _ => fi.r.valid.getLsbD 0 else fi.r.valid
      let a : NodeAcc := { e := e, fi := fi, x := x, write := write, lanes := lanes }
      match a.reach s with
      | .wait s va m => .park (s.withhold e fi.tag va write m)
      | .fault s f => .done (((s.noUpdates e).raise (s.getU e.key).pad f).unhold e fi.tag) []
      | .refs s l =>
        let (s, outs) := body a (s.unhold e fi.tag) l
        .done s outs
  match out with
  | .next t =>
    if sc && (s.getU s.curLoc.key).scBudget != 0 then .next (t.scDone s.curLoc.key 1) else .next t
  | o => o

/-- A load (R240, R242). -/
def runLoad (x : EW) (sc : Bool) (s : State) : Out :=
  runAccess s x false sc (fun _ _ _ => true) fun a s l =>
    let (s, vs, c) := s.readRefs (s.inFlight a.e a.fi.tag) a.win.described l
    let t := a.fi.result a.e.hdr { payload := lanePayload vs, valid := laneMask (l.map (·.lane)), reset := a.fi.l.reset }
    (s.reportIf a.e c, a.fi.one (match c with
      | some c => { t with err := true, cause := c }
      | none => t))

/-- The route id whose low byte a block's seal holds (R100): that of the slot's first consumer that is a port, 0 where none is
(notes/assumptions/91.md). -/
def SlotEnv.outRoute (e : SlotEnv) (u : UnitSt) : Nat :=
  let (c0, c1) := e.consumers u
  let at' (c : Consumer) : Option Nat :=
    if c.fld != 3 && 0x70 ≤ c.slot.toNat then some ((amGet e.conf.portRoute (c.slot.toNat - 0x70) {}).id) else none
  ((at' c0).or (at' c1)).getD 0

/-- Bytes of the lanes that a store writes: of r, or the block with its CRC and seal (R242). -/
def NodeAcc.bytes (a : NodeAcc) (s : State) (lane : Nat) : List Byte :=
  if a.win.described then
    let st := s.slotSt a.e.key a.e.slot
    let seq := (amGet st.outs (outKey a.fi.tag 0) {}).next % 256
    let body := (toBytes 64 a.fi.r.payload.toNat).take 56
    let block := body ++ toBytes 4 (crc32c body).toNat ++ [BitVec.ofNat 8 (a.e.outRoute (s.getU a.e.key)), BitVec.ofNat 8 seq, 0, 0]
    (block.drop (4 * lane)).take 4
  else toBytes 4 (laneAt a.fi.r.payload lane)

/-- The pages of M by which an access was translated: of the physical form, those of XLATE's token. -/
def NodeAcc.pages (a : NodeAcc) (s : State) (l : List LaneRef) : List Nat :=
  if a.x.md.getLsbD 0 && !a.win.described then
    ((((s.slotSt a.e.key a.e.slot).field .l a.fi.tag).rows.filter fun t => decide (t.lo ≤ a.fi.lo)).getLast?.map (·.pages)).getD []
  else (((l.filter fun r => r.sp == .m).map fun r => r.va / 65536)).eraseDups

/-- The firing's stores go out; the completion token has its number (R258) and follows when they are visible (R241). -/
def State.putStores (s : State) (a : NodeAcc) (writes held : List (Space × Nat × List Byte)) (ups : List HeldUpd) (pages : List Nat)
    (t : Token) : State :=
  let pad := (s.getU a.e.key).pad
  let sc := match a.e.instr with
    | .stsc _ => (s.getPad pad).scCount + 1
    | _ => 0
  let (s, n) := s.numberOut a.e t.tag 0
  let rec' : NodeStore :=
    { slot := a.e.slot, writes := writes, held := held, ups := ups, pages := pages, completion := { t with seq := n }
      commit := (s.slotSt a.e.key a.e.slot).aligned + 1, scPos := sc }
  let s := if sc == 0 then s else s.updPad pad fun p => { p with scCount := sc }
  (s.updU a.e.key fun u => u.addStore rec').post (.nodeStoreVisible (idxOf a.e.key) a.e.slot)

/-- The completion token of a store: a bit for each lane written, and POISON when some lane was not (R241). -/
def NodeAcc.completion (a : NodeAcc) (written : List Nat) (bad : Option Nat) (exc sat : Bool) : Token :=
  let t := a.fi.result a.e.hdr { valid := laneMask written, exc := exc, sat := sat }
  match bad with
  | some c => { t with err := true, cause := c }
  | none => t

/-- Adjacent writes of one block become one (R207). -/
def joinBlock (described : Bool) (l : List (Space × Nat × List Byte)) : List (Space × Nat × List Byte) :=
  if !described then l
  else
    match l with
    | (sp, a, b) :: rest => [(sp, a, b ++ rest.flatMap fun x => x.2.2)]
    | [] => []

/-- STN and STSC. An SC store is visible at once: the ring waits for it. -/
def runStore (x : EW) (sc : Bool) (s : State) : Out :=
  runAccess s x true sc (fun _ _ _ => true) fun a s l =>
    let good := l.filter fun r => r.bad.isNone
    let out (ext : Bool) := joinBlock a.win.described
      ((good.filter fun r => r.ext == ext).map fun r => (r.sp, r.addr, a.bytes s r.lane))
    let t := a.completion (good.map (·.lane)) (l.findSome? (·.bad)) false false
    let (writes, held) := (out false, out true)
    let s := s.reportIf a.e (l.findSome? (·.bad))
    if sc then
      let s := writes.foldl (fun s (sp, p, bs) => s.storeMem sp p bs) s
      (s.putStores a [] held [] (a.pages s l) t, [])
    else (s.putStores a writes held [] (a.pages s l) t, [])

/-- What the updates of a firing have done so far: updates of external elements are held, others are performed at once. The exception and
saturation of a held one are those that it meets when it is performed. -/
structure Upd where
  s : State
  held : List HeldUpd := []
  done : List (Nat × Space × Nat) := []    -- lanes, and where they stand
  bad : Option Nat := none
  exc : Bool := false
  sat : Bool := false
  recs : List UpdRec := []

/-- One update. -/
def updateRef (a : NodeAcc) (u : Upd) (r : LaneRef) : Upd :=
  let (s, old, c) := u.s.readRef (u.s.inFlight a.e a.fi.tag ++ u.held.map .upd) false r
  match c with
  | some c => { u with s := s, bad := u.bad.or (some c) }
  | none =>
    let v := laneAt a.fi.r.payload r.lane
    let upd := a.win.upd.getD 0
    let y := updEl upd old v
    let x : UpdRec :=
      { lane := r.lane, index := laneAt a.fi.l.payload r.lane, operand := v, old := old, new := y.bits
        after := (u.done.reverse.find? fun z => z.2 == (r.sp, r.addr)).map (·.1) }
    let u := { u with done := u.done ++ [(r.lane, r.sp, r.addr)], exc := u.exc || (!r.ext && y.exc), sat := u.sat || (!r.ext && y.sat), recs := u.recs ++ [x] }
    if r.ext then { u with s := s, held := u.held ++ [⟨r.sp, r.addr, upd, v⟩] } else { u with s := s.storeMem r.sp r.addr (toBytes 4 y.bits) }

def execLdn (x : EW) (s : State) : Out := runLoad x false s
def execLdsc (x : EW) (s : State) : Out := runLoad x true s
def execStn (x : EW) (s : State) : Out := runStore x false s
def execStsc (x : EW) (s : State) : Out := runStore x true s

/-- UPDN (R243): lanes in order, each on what the previous one wrote; gweuf can list them afterwards (R258). -/
def execUpdn (x : EW) (s : State) : Out :=
  runAccess s x true false (fun s e fi => s.updMayGo e fi) fun a s l =>
    let u := l.foldl (updateRef a) { s := s }
    let s := (u.s.updU a.e.key fun y => { y with updates := amPut y.updates a.e.slot u.recs }).reportIf a.e u.bad
    (s.putStores a [] [] u.held (a.pages s l) (a.completion (u.done.map (·.1)) u.bad u.exc u.sat), [])

/-- ASTR (R239). -/
def execAstr (_x : EW) (s : State) : Out :=
  runSlot s fun e fi s =>
    let k := e.constR
    let stride := asInt 32 (laneAt k 0)
    let c := laneAt k 1
    let n := (c + 15) / 16
    let q := (fi.hi - fi.lo) / n
    if !fi.l.valid.getLsbD 0 then .done s []
    else if fi.hi == openHi || q == 0 then
      .done (s.raise (s.getU e.key).pad (e.fault s .l 0x04 fi.tag fi.l 0)) []
    else
      let x0 := laneAt fi.l.payload 0
      .done s ((List.range n).map fun j =>
        let hi := if j + 1 == n then fi.hi else fi.lo + (j + 1) * q
        let lanes := (List.range 16).map fun i =>
          if 16 * j + i < c then ofInt 32 ((x0 : Int) + ((16 * j + i : Nat) : Int) * stride) else 0
        let t := fi.result e.hdr { payload := packEls 32 lanes, valid := maskOf fun i => 16 * j + i < c }
        (0, { tok := { t with lo := fi.lo + j * q, hi := hi }, basis := hi }))

/-- SBAR (R223, R245): remembers its trigger and passes it on. -/
def execSbar (_x : EW) (s : State) : Out :=
  runSlot s fun e fi s =>
    let s := s.updSlot e.key e.slot fun st => { st with bars := amUpd st.bars fi.tag [] (· ++ [fi.lo]) }
    .done s (fi.one (fi.moved e.hdr fi.lo fi.hi))

/-! ## XLATE (R356) -/

/-- What becomes of one lane pair. -/
inductive PairRes
  | phys (v : Nat)
  | fault (v : Nat)
  | wait (va : Nat) (migrating : Bool)
  | line (cause : Nat)
  deriving DecidableEq, Repr, Inhabited

/-- Some consumer of the slot stores, or is an output port (step 5). -/
def SlotEnv.feedsStore (e : SlotEnv) (u : UnitSt) : Bool :=
  let (c0, c1) := e.consumers u
  [c0, c1].any fun c =>
    c.fld != 3 && (0x70 ≤ c.slot.toNat ||
      match e.conf.slotAt c.slot.toNat with
      | some (.stn _, _) | some (.stsc _, _) | some (.updn _, _) => true
      | _ => false)

def State.xlatePair (s : State) (e : SlotEnv) (w : Window) (va : Nat) : State × PairRes :=
  let u := s.getU e.key
  let bad (c : Nat) : PairRes := .fault (va % 2 ^ 56 + c * 2 ^ 56)
  if va / 2 ^ 56 != 0 || va < w.base || w.base + w.extent ≤ va then (s, bad 0x01)
  else
    let (s, r) := s.translate u.ctx va (e.feedsStore u) false
    match r with
    | .phys pa en => (s, .phys (pa + b2n (pteExternal en) * 2 ^ 56 + b2n (ptePoisoned en) * 2 ^ 57))
    | .fault c => (s, bad c)
    | .wait m => (s, .wait va m)
    | .line c => (s, .line c)

def State.xlatePairs (s : State) (e : SlotEnv) (w : Window) (fi : Fire) (pairs : List Nat) : State × List (Nat × PairRes) :=
  pairs.foldl (fun (s, rs) i =>
    let (s, r) := s.xlatePair e w (elAt 64 fi.l.payload i)
    (s, rs ++ [(i, r)])) (s, [])

def execXlate (x : EW) (s : State) : Out :=
  runSlot s fun e fi s =>
    if s.heldBack e fi.tag then .park s
    else
      let pairs := (List.range 8).filter fun i => fi.l.valid.getLsbD (2 * i) && fi.l.valid.getLsbD (2 * i + 1)
      let (s, rs) := s.xlatePairs e (e.window x) fi pairs
      match rs.findSome? fun (_, r) => match r with
          | .wait va m => some (va, m)
          | _ => none with
      | some (va, m) => .park (s.withhold e fi.tag va (e.feedsStore (s.getU e.key)) m)
      | none =>
        let s := s.unhold e fi.tag
        let faults := rs.filterMap fun (i, r) => match r with
          | .fault v => some (i, v)
          | _ => none
        let good := rs.filterMap fun (i, r) => match r with
          | .phys v => some (i, v)
          | _ => none
        let line := rs.findSome? fun (_, r) => match r with
          | .line c => some c
          | _ => none
        let give (l : List (Nat × Nat)) : LaneRes :=
          { payload := packEls 64 ((List.range 8).map fun i => ((l.find? fun y => y.1 == i).map (·.2)).getD 0)
            valid := maskOf fun i => l.any fun y => y.1 == i / 2
            reset := fi.l.reset }
        if faults.isEmpty then
          let pages := ((good.map fun y => elAt 64 fi.l.payload y.1 / 65536)).eraseDups
          let t := { fi.result e.hdr (give good) with pages := pages }
          .done (s.reportIf e line) (fi.one (match line with
            | some c => { t with err := true, cause := c }
            | none => t))
        else .done s (fi.one { fi.result e.hdr (give faults) with kind := 3 })

end Sys2Proof.Machine
end

