-- ==== Sys2Proof/Machine/Tear.lean ====
section
/-!
DEFINITION. TEAR and MUSTER (R246 to R253).
-/

namespace Sys2Proof.Machine

/-- What gweuf lists of a TEAR firing: the row's copies as they stand behind it, and the number that its record has or will have. -/
def SlotEnv.tearStep (e : SlotEnv) (p : TearParam) (s : State) (before : TearSt) (fi : Fire) : TearStep :=
  let x := (tearPlaced p (s.getU e.key).ctx before fi.l fi.r fi.out.sealed).1
  let rows := x.recs.map fun r => r.id
  let copies := ((x.recs.find? fun r => r.id == before.nextId).map (·.copies)).getD []
  { copies := copies, seq := ((amGet (s.slotSt e.key e.slot).outs (outKey fi.tag 0) {}).next + rows.findIdx (· == before.nextId)) % 2 ^ 24 }

/-- TEAR (R248): an intersection that reaches into a later batch, or is open, raises SPAN_LIMIT and places nothing. -/
def execTear (_x : EW) (s : State) : Out :=
  runSlot s fun e fi s =>
    let p := e.tearParam
    if fi.hi == openHi || fi.lo / p.w != (fi.hi - 1) / p.w then .done (s.spanFault e 0x04 .l { fi.l with tag := fi.tag }) []
    else
      let u := s.getU e.key
      let before := amGet u.tear fi.tag {}
      let (x, outs, drops) := tearRow p u.ctx before fi.l fi.r fi.out.sealed
      let step := e.tearStep p s before fi
      let s := s.setU e.key { u with tear := amPut u.tear fi.tag x, tearSteps := amPut u.tearSteps e.slot step }
      .done (s.updSlot e.key e.slot fun st => { st with drops := st.drops + drops }) outs

/-- The code in f32 of an element of a returned copy. -/
def musterVal (f : Fmt) (c : Nat) : Nat := (Fmt.f32.round .rne false (f.decode c)).1

/-- One element: the weighted sum over the met copies, in choice order, rounded to the type at the end. md.ftz flushes the final result alone
(notes/assumptions/123.md). -/
def musterEl (x : EW) (r : Token) (met : List (Nat × Token)) (e : Nat) : El :=
  let f := fmtOf x.ty
  let w := elWidth x.ty false
  let seen := met.filter fun (_, t) => elValid w t.valid e
  if seen.isEmpty then { bits := 0 }
  else
    let acc := seen.foldl (fun acc (k, t) =>
      (fmaCodes .f32 .rne false (laneAt r.payload (4 + k)) (musterVal f (elAt w t.payload e)) acc).bits) 0
    roundEl f (mdRM x.md) (mdFtz x.md) (Fmt.f32.decode acc, false)

/-- The met copies of a record, by choice. -/
def MusterRec.copies (r : MusterRec) : List (Nat × Token) :=
  r.met.zipIdx.filterMap fun (t, k) => t.map fun t => (k, t)

/-- The first token of kind 0x3 among the record and the met copies, with its field (R357). -/
def MusterRec.faultTok (r : MusterRec) : Option (Fld × Token) :=
  if r.tok.isFault then some (.r, r.tok) else (r.copies.find? fun (_, t) => t.isFault).map fun (_, t) => (.l, t)

/-- The token of a record whose claims are all decided, over a firing's intersection (R252). -/
def musterResult (x : EW) (h : Hdr) (r : MusterRec) (c : Choice) : Token :=
  let met := r.copies
  let toks := (c.segs.flatMap fun (_, g) => g.tokens) ++ met.map (·.2)
  let out : Token := { lo := c.lo, hi := c.hi, tag := r.tok.tag, ctx := r.tok.ctx, exc := toks.any (·.exc), sat := toks.any (·.sat) }
  let fi : Fire := { tag := r.tok.tag, lo := c.lo, hi := c.hi, l := {}, r := {}, p := {}, out := out }
  match toks.find? (·.err) with
  | some t => { fi.result h {} with err := true, cause := t.cause }
  | none =>
    let w := elWidth x.ty false
    let es := (List.range (elCount w)).map (musterEl x r.tok met)
    let res := fi.result h
      { payload := packEls w (es.map (·.bits)), valid := maskOf fun i => met.any fun (_, t) => t.valid.getLsbD i
        exc := es.any (·.exc) }
    if toks.any residueBad then { res with err := true, cause := 0x01 } else res

/-- MUSTER (R252): the oldest record of a tag, once no claim of it is pending; a predicate may gate it (R142). -/
def execMuster (x : EW) (s : State) : Out :=
  let key := s.curLoc.key
  let slot := s.curSlot
  let tag := s.curTag
  match s.slotEnv key slot with
  | none => .next (s.unready s.curLoc slot tag)
  | some e =>
    if !s.mayFire key then .next (s.park key slot tag)
    else
      match e.musterFire (s.getU key) tag with
      | none => .next (s.unready e.loc slot tag)
      | some (r, c) =>
        if s.fireBreak e tag c.lo then .next (s.stopFire e tag c.lo)
        else
          let shut := !(c.segs.any fun (_, g) => g.tokens.any (·.err)) && !e.gateOpen (e.fire (s.getU key).ctx tag c)
          let s := if e.musterOver (s.slotSt key slot) r c.hi then s.updU key fun u => { u with muster := u.muster.filter (· != r) } else s
          match r.faultTok with
          | some (f, t) => .next ((s.raise (s.getU key).pad (faultTokenRec s e f t)).taken e tag c.hi [])
          | none =>
            if shut then .next (s.taken e tag c.hi [])
            else
            let t := musterResult x e.hdr r c
            let s := if t.err && t.cause == 0x01 && !r.tok.err then s.reportAt e 0x01 false else s
            -- an armed failure of the fused steps' check is absorbed by the recomputation (R254, R374, R388)
            let s := ((s.injection e 5 0x06 false).1.injection e 3 0x01 false).1
            .next (s.taken e tag c.hi [(0, { tok := t, basis := c.hi })])

/-- MUSTER_TIMEOUT (R253): the oldest record has waited T_MUSTER for a claim. -/
def execMusterTimeout (u : Loc) (slot : Nat) (s : State) : Out :=
  let key := u.key
  let x := s.getU key
  s.whileRunning x.pad (.musterTimeout u slot) fun s =>
  match x.muster.head? with
  | none => .next s
  | some r =>
    match (musterClaims r.tok).find? fun (k, _, _) => !nthD r.decided k true with
    | none => .next s
    | some (_, j, lo) =>
      .next (s.raise x.pad
        { fieldFault s key slot .l 0x0A r.tok (s.lastOn key slot .l r.tok.tag j) with aux := BitVec.ofNat 64 (j * 2 ^ 40 + lo) })

end Sys2Proof.Machine
end

