-- ==== Sys2Proof/Machine/Message.lean ====
section
/-!
DEFINITION. Messages between pastures (R18, R20, R378 to R382, R389 to R391): their code, replay windows and spools, the paths of a bridge or
tether.
-/

namespace Sys2Proof.Machine

/-! ## The code (R378) -/

/-- Product in GF(2^8) with the polynomial 0x11D: n bits of b are left. -/
def gfMulN : Nat → Nat → Nat → Nat → Nat
  | 0, _, _, acc => acc
  | n + 1, a, b, acc => gfMulN n (if 256 ≤ 2 * a then (2 * a) ^^^ 0x11D else 2 * a) (b / 2) (if b % 2 == 1 then acc ^^^ a else acc)

def gfMul (a b : Nat) : Nat := gfMulN 8 a b 0

def gfPow (a : Nat) : Nat → Nat
  | 0 => 1
  | n + 1 => gfMul a (gfPow a n)

/-- The inverse: a^254. -/
def gfInv (a : Nat) : Nat := gfPow a 254

/-- Coefficients of fragment f over the data fragments. -/
def codeRow (k f : Nat) : List Nat := (List.range k).map fun i => if f < k then (if f == i then 1 else 0) else gfInv ((8 + (f - k)) ^^^ i)

def xorAll (l : List Nat) : Nat := l.foldl (· ^^^ ·) 0

/-- The data fragments of a message. -/
def dataFrags (k : Nat) (bs : List Byte) : List (List Byte) := (List.range k).map fun i => (bs.drop (96 / k * i)).take (96 / k)

/-- Fragment f of a message. -/
def fragBytes (k f : Nat) (bs : List Byte) : List Byte :=
  let d := dataFrags k bs
  if f < k then nthD d f []
  else
    let row := codeRow k f
    (List.range (96 / k)).map fun j =>
      BitVec.ofNat 8 (xorAll ((List.range k).map fun i => gfMul (nthD row i 0) (nthD (nthD d i []) j 0).toNat))

/-- A row of the equations that the fragments give. -/
abbrev CodeEq := List Nat × List Nat

def CodeEq.scale (c : Nat) (e : CodeEq) : CodeEq := (e.1.map (gfMul c), e.2.map (gfMul c))
def CodeEq.add (e f : CodeEq) : CodeEq := (List.zipWith (· ^^^ ·) e.1 f.1, List.zipWith (· ^^^ ·) e.2 f.2)

/-- Column c is cleared in every row but row c. -/
def clearColumn (rows : List CodeEq) (c : Nat) : List CodeEq :=
  match (rows.zipIdx.drop c).find? fun x => nthD x.1.1 c 0 != 0 with
  | none => rows
  | some (p, i) =>
    let p := CodeEq.scale (gfInv (nthD p.1 c 0)) p
    let rows := setNth (setNth rows i (nthD rows c ([], []))) c p
    rows.zipIdx.map fun (r, j) => if j == c then r else CodeEq.add r (CodeEq.scale (nthD r.1 c 0) p)

/-- The message that k fragments determine. -/
def decodeFrags (k : Nat) (frags : List (Nat × List Byte)) : List Byte :=
  let rows : List CodeEq := (frags.take k).map fun (f, bs) => (codeRow k f, bs.map (·.toNat))
  let solved := (List.range k).foldl clearColumn rows
  (solved.take k).flatMap fun r => r.2.map (BitVec.ofNat 8)

/-! ## Fragments (R379) -/

/-- The 8-byte header of a fragment. -/
def fragHeader (id k m index attempt tkind : Nat) : List Byte :=
  toBytes 8 (id % 2 ^ 24 + index % 16 * 2 ^ 24 + k % 16 * 2 ^ 28 + m % 4 * 2 ^ 32 + attempt % 4 * 2 ^ 34 + tkind % 4 * 2 ^ 36)

/-- A fragment as it is sent: header, data, CRC-32C over both. -/
def mkFragment (id k m index attempt tkind : Nat) (data : List Byte) : Fragment :=
  let body := fragHeader id k m index attempt tkind ++ data
  { bytes := body ++ toBytes 4 (crc32c body).toNat }

/-- The code of a network in a header. -/
def fragKind : Net → Nat
  | .vector => 0
  | .scalar => 1
  | .control => 2

def kindNet (k : Nat) : Net := if k == 1 then .scalar else if k == 2 then .control else .vector

end Sys2Proof.Machine

namespace Sys2Proof

def Fragment.header (f : Fragment) : Nat := Machine.ofBytes (f.bytes.take 8)
def Fragment.id (f : Fragment) : Nat := Machine.bitsOf f.header 23 0
def Fragment.index (f : Fragment) : Nat := Machine.bitsOf f.header 27 24
def Fragment.k (f : Fragment) : Nat := Machine.bitsOf f.header 31 28
def Fragment.m (f : Fragment) : Nat := Machine.bitsOf f.header 33 32
def Fragment.attempt (f : Fragment) : Nat := Machine.bitsOf f.header 35 34
def Fragment.tkind (f : Fragment) : Nat := Machine.bitsOf f.header 37 36
def Fragment.data (f : Fragment) : List Byte := (f.bytes.drop 8).take (96 / f.k)

/-- The fields hold what the header's table allows. -/
def Fragment.fieldsOk (f : Fragment) : Bool :=
  Machine.bitsOf f.header 63 38 == 0 && f.tkind != 3 && (f.k == 2 || f.k == 4 || f.k == 6 || f.k == 8) && decide (f.index < f.k + f.m)

/-- The fragment is no erasure: no injection has made it one, its CRC agrees and no field has a reserved value. -/
def Fragment.good (f : Fragment) : Bool :=
  let body := f.bytes.take (8 + 96 / f.k)
  !f.injected && f.fieldsOk && f.bytes == body ++ Machine.toBytes 4 (Machine.crc32c body).toNat && decide (body.length = 8 + 96 / f.k)

end Sys2Proof

namespace Sys2Proof.Machine

/-! ## Links (R18, R380) -/

/-- A direction of a bridge by its pastures; what tether n brings in has the sender 100 + n, the peer package (R405). -/
def linkKey (src dst : Nat) : Nat := if src < 100 then 4 * src + dst else src

/-- The pasture on which tether n sits (R405). -/
def tetherPasture (n : Nat) : Nat := n / 6

/-- Pastures that a bridge joins. -/
def adjacent (a b : Nat) : Bool := a < 4 && b < 4 && ((a ^^^ b) == 1 || (a ^^^ b) == 2)

/-- The package has a link: the two directions of a bridge, one of the 24 tethers (R18, R19). -/
def linkExists (key : Nat) : Bool := if key < 100 then adjacent (key / 4) (key % 4) else decide (key < 124)

/-- The package receives messages from src at pasture dst: over a bridge, or over tether src − 100, which sits there. -/
def receives (src dst : Nat) : Bool := adjacent src dst || (100 ≤ src && src < 124 && tetherPasture (src - 100) == dst)

/-- A link as bring-up leaves it: k 4 and m 1 for bridges, k 6 and m 2 for tethers. -/
def linkDefault (key : Nat) : LinkSt := if key < 100 then {} else { coderate := 0x0000FF26, wantM := 2 }

def State.link (s : State) (key : Nat) : LinkSt := amGet s.links key (linkDefault key)
def State.setLink (s : State) (key : Nat) (l : LinkSt) : State := { s with links := amPut s.links key l }

def LinkSt.k (l : LinkSt) : Nat := bitsOf l.coderate.toNat 3 0
def LinkSt.m (l : LinkSt) : Nat := bitsOf l.coderate.toNat 5 4
/-- The available paths. -/
def LinkSt.paths (l : LinkSt) : List Nat := (List.range 8).filter fun n => bitOf l.coderate.toNat (8 + n)

/-- A CODERATE value. -/
def codeRate (paths : List Nat) (m k : Nat) : Word := BitVec.ofNat 32 ((paths.map fun n => 2 ^ n).sum * 2 ^ 8 + m * 2 ^ 4 + k)

/-- What a write of CODERATE may set. -/
def codeRateOk (w : Word) : Bool :=
  let x := w.toNat
  let k := bitsOf x 3 0
  (k == 2 || k == 4 || k == 6 || k == 8) && bitsOf x 31 16 == 0 && bitsOf x 7 6 == 0 && k + bitsOf x 5 4 ≤ popCount 8 (bitsOf x 15 8)

/-- Firmware writes CODERATE: a value that is not allowed is refused. -/
def LinkSt.writeRate (l : LinkSt) (w : Word) : LinkSt :=
  if codeRateOk w then { l with coderate := w, wantM := bitsOf w.toNat 5 4 } else l

/-- The paths of a link change; m is lowered first where k + m would not fit, and goes back to what it was where it fits. -/
def LinkSt.withPaths (l : LinkSt) (paths : List Nat) : LinkSt :=
  { l with coderate := codeRate paths (min l.wantM (paths.length - l.k)) l.k }

/-! ## Routes between pastures -/

/-- The next pasture on the way; traffic to the pasture across passes through the neighbour in its own row. -/
def nextPasture (a b : Nat) : Nat := if (a ^^^ b) == 3 then a ^^^ 1 else b

/-- The bridges on the way. -/
def hopsOf (a b : Nat) : List (Nat × Nat) := if a == b then [] else if (a ^^^ b) == 3 then [(a, a ^^^ 1), (a ^^^ 1, b)] else [(a, b)]

/-- The two ways between two pastures. -/
def waysOf (a b : Nat) : List (Nat × Nat) := hopsOf a b ++ hopsOf b a

/-- Neighbouring pairs of a list, and the last with the first. -/
def ringPairs (l : List Nat) : List (Nat × Nat) := l.zip (l.drop 1 ++ l.take 1)

/-- The bridges that memory requests, collectives and the SC token cross: from each fold to the slices that it may ask, between the folds, along
the SC ring. -/
def Conf.memBridges (c : Conf) : List (Nat × Nat) :=
  (c.permits.flatMap fun (x : Nat × List Nat) => waysOf (x.1 / 512 / 8) (pastureOf (x.1 % 512))) ++
    ((ringPairs c.folds).flatMap fun (a, b) => waysOf (a / 8) (b / 8)) ++
    (ringPairs c.scRing).flatMap fun (a, b) => hopsOf (pastureOf a) (pastureOf b)

/-- The bridges that the routes of a configuration cross: those of ports, channels, steer tables, router adders and barriers by the switch words
that they take, those of memory requests. A seed enters at its own port, and the waves stay in their pastures (waveOk). -/
def Conf.bridges (c : Conf) : List (Nat × Nat) :=
  let way (cls site inp : Nat) : List (Nat × Nat) :=
    [Net.scalar, .vector, .control].flatMap fun net => walkBridges c.switches net cls site inp
  let units := c.units.flatMap fun (l, u) =>
    (u.portRoute.flatMap fun (x : Nat × Route) => way x.2.cls l.site (portInput x.1)) ++
      (u.chans.flatMap fun (x : Nat × ChanConf) => way x.2.route.cls l.site (portInput x.1)) ++
      u.tearRoutes.zipIdx.flatMap fun (r, j) => way r.cls l.site (portInput j)
  let joins := c.joins.flatMap fun j => (List.range 8).flatMap fun cls => way cls j.site 8
  let bars := c.members.flatMap fun x => x.2.flatMap fun m =>
    let b := amGet c.bars x.1 {}
    match c.units[m]? with
    | some (l, _) => way b.up.cls l.site (portInput x.1) ++ way b.down.cls b.root (portInput x.1)
    | none => []
  units ++ joins ++ bars ++ c.memBridges

/-- Resident paddocks whose routes cross a bridge. -/
def State.padsAcross (s : State) (a b : Nat) : List Nat :=
  (s.pads.filter fun (_, p) => p.phase != .parked && p.conf.bridges.any fun x => x == (a, b) || x == (b, a)).map (·.1)

/-- No route of a configuration crosses a bridge that is down (R391). -/
def State.bridgesUp (s : State) (c : Conf) : Bool := c.bridges.all fun (a, b) => !(s.link (linkKey a b)).down

/-! ## Sending (R378 to R381) -/

/-- The bytes of a message: the token's bits, then zeros. -/
def messageBytes (t : Token) : List Byte := toBytes 96 t.bits

/-- Sends every fragment of a message, each on its path (R380). An injection turns the next fragment on its path into an erasure (R389). -/
def State.sendFrags (s : State) (src dst : Nat) (msg : Msg) (attempt : Nat) : State :=
  let key := linkKey src dst
  let k := msg.k
  let m := msg.m
  let paths := (s.link key).paths
  (List.range (k + m)).foldl (fun s f =>
    match paths[(f + msg.id) % paths.length]? with
    | none => s
    | some path =>
      let l := s.link key
      let drop := l.dropNext.contains path
      let s := if drop then s.setLink key { l with dropNext := l.dropNext.erase path } else s
      s.post (.fragmentReceive src dst path
        { mkFragment msg.id k m f attempt (fragKind msg.hop.tok.net) (fragBytes k f msg.bytes) with injected := drop })) s

/-- A token leaves a pasture as one message; h is how the next pasture's switch box is to receive it. -/
def State.sendMessage (s : State) (src dst : Nat) (h : Hop) : State :=
  let key := linkKey src dst
  let l := s.link key
  let msg : Msg := { id := l.nextId, bytes := messageBytes h.tok, hop := h, k := l.k, m := l.m }
  let s := s.setLink key { l with nextId := (l.nextId + 1) % 2 ^ 24, window := l.window ++ [msg] }
  s.sendFrags src dst msg 0

/-- The sender has no place for a further message: its replay window holds 256, or the spool beyond has none for the next id (R381;
notes/assumptions/8.md). -/
def LinkSt.full (l : LinkSt) : Bool := 256 ≤ l.window.length || 256 ≤ (l.nextId + 2 ^ 24 - l.outId) % 2 ^ 24

/-- An id lies below another in the order of a spool. -/
def idBelow (a b : Nat) : Bool := 2 ^ 23 ≤ (a + 2 ^ 24 - b % 2 ^ 24) % 2 ^ 24

/-- Messages of a direction that have not left its spool yet. -/
def LinkSt.open (l : LinkSt) : List Msg := (l.window.filter fun m => !idBelow m.id l.outId) ++ l.spool.filterMap fun x => x.2.msg

/-- Tokens in messages to places that p names never enter (R277). -/
def State.abortMessages (s : State) (p : Dest → Bool) : State :=
  let go (m : Msg) : Msg := if m.hop.ends.any p then { m with hop := { m.hop with tok := { m.hop.tok with abort := true } } } else m
  { s with links := s.links.map fun (x : Nat × LinkSt) =>
      (x.1, { x.2 with window := x.2.window.map go, spool := x.2.spool.map fun (y : Nat × SpoolEntry) => (y.1, { y.2 with msg := y.2.msg.map go }) }) }

/-! ## Receiving (R379, R381, R382) -/

/-- Decoded and lost messages leave the spool in id order: their tokens go on at the receiving pasture. -/
def State.drainSpool (s : State) (src dst : Nat) : Nat → State
  | 0 => s
  | n + 1 =>
    let key := linkKey src dst
    let l := s.link key
    match amGet? l.spool l.outId with
    | none => s
    | some e =>
      let out := s.setLink key { l with spool := amDel l.spool l.outId, outId := (l.outId + 1) % 2 ^ 24 }
      match e.msg with
      | some m =>
        let sent := m.hop.tok
        let t := { Token.ofBits sent.net (ofBytes m.bytes) with cnum := sent.cnum, cause := sent.cause, abort := sent.abort, pages := sent.pages }
        let out := if sent.abort then out else out.post (.switchTokenCheck { m.hop with tok := t, crc := hopCrc t })
        out.drainSpool src dst n
      | none => if e.lost then out.drainSpool src dst n else s

/-- Ids from the spool's oldest up to one that has decoded. -/
def idsUpTo (lo hi : Nat) : List Nat := (List.range ((hi + 2 ^ 24 - lo) % 2 ^ 24 + 1)).map fun i => (lo + i) % 2 ^ 24

/-- The places where a route of a configuration ends. -/
def Conf.endsOf (c : Conf) (id : Nat) : List Dest :=
  (c.units.flatMap fun (_, u) =>
    (u.portRoute.flatMap fun (x : Nat × Route) => if x.2.id == id then amGet u.ports x.1 [] else []) ++
      (u.chans.flatMap fun (x : Nat × ChanConf) => if x.2.route.id == id then [x.2.dest] else []) ++
      ((u.tear.zip u.tearRoutes).filter fun x => x.2.id == id).map (·.1)) ++
    ((c.seeds.filter fun x => x.route.id == id).map (·.dest)) ++ (c.joins.filter fun x => x.route == id).map (·.dest)

/-- A message of a peer package (R405): the bits of its token say where it goes on, at the places of its context's route of that id, in the pasture
that the tether sits on. A token of no route here fails its route check (notes/assumptions/134.md). -/
def State.tetherMsg (s : State) (dst id : Nat) (e : SpoolEntry) (bytes : List Byte) : Msg :=
  let t := Token.ofBits e.net (ofBytes bytes)
  let ends := (s.pads.find? fun (_, p) => p.ctx == t.ctx && !(p.conf.endsOf t.route).isEmpty).map fun x => x.2.conf.endsOf t.route
  { id := id, bytes := bytes, k := e.k, m := e.m
    hop := { tok := t, ends := ends.getD [], crc := hopCrc t, routeWant := if ends.isSome then t.route else 2 ^ 32, site := dst * 2 ^ 14, inp := 9 } }

/-- An entry has k fragments. -/
def SpoolEntry.enough (e : SpoolEntry) : Bool := !e.frags.isEmpty && e.k ≤ e.frags.length

/-- An entry with k fragments decodes; entries of lower ids that nothing has reached open. gweuf can list the last 8 that have decoded (R395). -/
def State.decodeEntry (s : State) (src dst id : Nat) (e : SpoolEntry) : State :=
  let key := linkKey src dst
  let l := s.link key
  let bytes := decodeFrags e.k e.frags
  let msg := if 100 ≤ src then some (s.tetherMsg dst id e bytes) else (l.window.find? fun m => m.id == id).map fun m => { m with bytes := bytes }
  let spool := (idsUpTo l.outId id).foldl (fun sp i => if (amGet? sp i).isSome then sp else amPut sp i {}) l.spool
  let seen : List Decoded := match msg with
    | some m => [{ id := id, attempt := e.attempt, k := e.k, got := e.frags.map (·.1), net := m.hop.tok.net, ends := m.hop.ends }]
    | none => []
  let recent := l.recent ++ seen
  let s := s.setLink key { l with spool := amPut spool id { e with msg := msg, lost := msg.isNone }, recent := recent.drop (recent.length - 8) }
  s.drainSpool src dst (spool.length + 1)

/-! ## Paths (R390, R391) -/

/-- The available paths have fallen below k: the paddocks across end. -/
def State.linkDown (s : State) (key : Nat) : State :=
  let l := s.link key
  if l.down || l.k ≤ l.paths.length then s
  else
    let s := s.setLink key { l with down := true }
    let aux := if key < 100 then key / 4 * 4 + key % 4 else 128 + (key - 100)
    let pads := if key < 100 then s.padsAcross (key / 4) (key % 4) else []
    pads.foldl (fun s p => s.raise p { code := 0x14, ctx := (s.getPad p).ctx, fld := 3, aux := BitVec.ofNat 64 aux }) s

/-- Firmware removes a path, and recalibrates it. -/
def State.removePath (s : State) (key path : Nat) : State :=
  let l := s.link key
  if !(l.paths.contains path) then s
  else
    let l := (l.withPaths (l.paths.filter (· != path)))
    ((s.setLink key { l with away := l.away ++ [path], frags := amDel l.frags path }).post (.pathRecalibrated key path)).linkDown key

/-- Counts a fragment on its path, `good` or an erasure. -/
def LinkSt.countFrag (l : LinkSt) (path : Nat) (good injected : Bool) : LinkSt :=
  let (n, bad) := amGet l.frags path (0, [])
  let bad := (if good || injected then bad else bad ++ [n]).filter fun k => decide (n < k + 2 ^ 20)
  { l with frags := amPut l.frags path (n + 1, bad), erasures := if good then l.erasures else l.erasures + 1 }

/-- Firmware removes the paths on which 16 of the last 2^20 fragments were erasures (R391). An injected one never counts (R388). -/
def State.checkPaths (s : State) (key : Nat) : State :=
  ((s.link key).frags.filter fun (x : Nat × Nat × List Nat) => decide (16 ≤ x.2.2.length)).foldl (fun s x => s.removePath key x.1) s

def State.countFrag (s : State) (key path : Nat) (good : Bool) (injected : Bool := false) : State :=
  (s.setLink key ((s.link key).countFrag path good injected)).checkPaths key

/-- The paddock whose token a message carries. -/
def State.messagePad (s : State) (key id : Nat) : Option Nat :=
  match (s.link key).window.find? fun m => m.id == id with
  | some m => m.hop.ends.head?.bind fun d =>
    match d with
    | .field u _ _ | .trigger u _ => some (s.getU u.key).pad
    | .sink p _ | .join p _ _ | .root p _ _ | .wave p _ => some p
    | .nowhere => none
  | none => none

/-- While gweuf has stopped the paddock whose token a message carries, the message does not move and its timeout does not advance (R201). -/
def State.whileMoving (s : State) (key id : Nat) (i : Instr) (body : State → Out) : Out :=
  match s.messagePad key id with
  | some p => s.whileRunning p i body
  | none => body s

/-- FRAGMENT_RECEIVE. An erasure is dropped and counted; so is a fragment whose id has decoded or has left the spool. An entry that has k fragments
decodes at the step DECODE_ACK (R381), and those of its send that come before that are there with the others (notes/assumptions/107.md). -/
def execFragmentReceive (src dst : Nat) (path : Nat) (f : Fragment) (s : State) : Out :=
  let key := linkKey src dst
  if !receives src dst then .fault .noSuchUnit
  else
    s.whileMoving key f.id (.fragmentReceive src dst path f) fun s =>
      let (s, hit) := s.takeMask (2000 + key) 7
      let f := { f with injected := f.injected || hit }
      let s := s.countFrag key path f.good f.injected
      let l := s.link key
      if !f.good then .next s
      else if idBelow f.id l.outId || (match amGet? l.spool f.id with
          | some e => e.msg.isSome || e.lost
          | none => false) then .next (s.setLink key { l with late := l.late + 1 })
      else
        let e := amGet l.spool f.id {}
        let e := { e with k := f.k, m := f.m, net := kindNet f.tkind, frags := if e.frags.any fun x => x.1 == f.index then e.frags else e.frags ++ [(f.index, f.data)] }
        let s := s.setLink key { l with spool := amPut l.spool f.id e }
        .next (if e.enough then s.postOnce (.decodeAck src dst f.id) else s)

/-- DECODE_ACK: an entry with k fragments decodes, and acknowledges: the message leaves the replay window. -/
def execDecodeAck (src dst : Nat) (id : Nat) (s : State) : Out :=
  let key := linkKey src dst
  if !receives src dst then .fault .noSuchUnit
  else
    s.whileMoving key id (.decodeAck src dst id) fun s =>
      let e := amGet (s.link key).spool id {}
      let s := if e.enough && e.msg.isNone && !e.lost then s.decodeEntry src dst id e else s
      let l := s.link key
      .next (s.setLink key { l with window := l.window.filter fun m => m.id != id })

/-- SPOOL_TIMEOUT: T_SPOOL has passed for an open entry with fewer than k fragments, and MSG_LOSS is reported (R373), with the bits of the
receiving pasture as its site (notes/assumptions/133.md). The sender replays the message; after attempt 3 it is lost, for every paddock across,
and firmware checks the paths. No configured route crosses a tether: the graph object names no peer package. -/
def execSpoolTimeout (src dst : Nat) (id : Nat) (s : State) : Out :=
  let key := linkKey src dst
  if !receives src dst then .fault .noSuchUnit
  else
    s.whileMoving key id (.spoolTimeout src dst id) fun s =>
      let l := s.link key
      match amGet? l.spool id with
      | none => .next s
      | some e =>
        if e.msg.isSome || e.lost || e.enough then .next s
        else
          let l := { l with losses := l.losses + 1 }
          let rep : ErrRep := { cause := 0x05, pad := (s.messagePad key id).getD 0, site := some (dst * 2 ^ 14) }
          if e.attempt < 3 then
            .next (((s.report rep).setLink key { l with spool := amPut l.spool id { e with attempt := e.attempt + 1 } }).post (.replayRequest src dst id (e.attempt + 1)))
          else
            let s := s.setLink key
              { l with spool := amPut l.spool id { e with lost := true }, window := l.window.filter fun m => m.id != id }
            let across := if src < 100 then s.padsAcross src dst else []
            let s := across.foldl (fun s p => s.report { rep with pad := p, commitScope := true }) (if across.isEmpty then s.report rep else s)
            .next ((s.checkPaths key).drainSpool src dst (l.spool.length + 1))

/-- REPLAY_REQUEST: the sender sends the same fragments again. Over a tether the sender is the peer package. -/
def execReplayRequest (src dst : Nat) (id : Nat) (attempt : Nat) (s : State) : Out :=
  if !receives src dst then .fault .noSuchUnit
  else
    match (s.link (linkKey src dst)).window.find? fun m => m.id == id with
    | some m => .next (s.sendFrags src dst m attempt)
    | none => .next s

/-- PATH_RECALIBRATED: the path's bit is set again, and m is restored where it fits. -/
def execPathRecalibrated (link : Nat) (path : Nat) (s : State) : Out :=
  let l := s.link link
  if !linkExists link then .fault .noSuchUnit
  else if !l.away.contains path then .next s
  else
    let paths := (List.range 8).filter fun n => n == path || l.paths.contains n
    let l := { l.withPaths paths with away := l.away.erase path }
    .next (s.setLink link { l with down := l.down && decide (l.paths.length < l.k) })

/-- RECALIBRATION_START: firmware recalibrates path s.arg.path of link s.arg.link, only while the other paths carry k, with m lowered where it must
be. Where s.arg.flag is set it writes s.arg.code into the link's CODERATE first (R380). Links from 200 on are memory links: one lane recalibrates, and
no frame is stopped. -/
def execRecalibrationStart (s : State) : Out :=
  let key := s.arg.link
  if 200 ≤ key && key < 200 + Config.memLinks then .next s
  else if !linkExists key then .fault .noSuchUnit
  else
    let l := if s.arg.flag then (s.link key).writeRate (BitVec.ofNat 32 s.arg.code) else s.link key
    let s := s.setLink key l
    if !l.paths.contains s.arg.path || l.paths.length - 1 < l.k then .next s
    else
      let l := l.withPaths (l.paths.filter (· != s.arg.path))
      .next ((s.setLink key { l with away := l.away ++ [s.arg.path] }).post (.pathRecalibrated key s.arg.path))

/-- INJECT_DROP: the next fragment sent on a path becomes an erasure. -/
def execInjectDrop (s : State) : Out :=
  let l := s.link s.arg.link
  if !linkExists s.arg.link then .fault .noSuchUnit
  else .next (s.setLink s.arg.link { l with dropNext := l.dropNext ++ [s.arg.path] })

/-- MODULE_REPLACE (R392): once firmware has migrated every frame of the link s.arg.link, the link leaves use (s.arg.flag) and its module is replaced;
it returns to use when it has recalibrated. -/
def execModuleReplace (s : State) : Out :=
  if Config.memLinks ≤ s.arg.link then .fault .noSuchUnit
  else if s.arg.flag && s.linkMapped s.arg.link then .next s
  else
    let rest := s.memLinksOut.filter (· != s.arg.link)
    .next { s with memLinksOut := if s.arg.flag then rest ++ [s.arg.link] else rest }

end Sys2Proof.Machine
end

