-- ==== Sys2Proof/Machine/Fabric.lean ====
section
/-!
DEFINITION. Tokens on their way: switch checks (R370), abort marks (R277), arrival at a slot field (R64 to R67, R79, R82 to R84, R201,
R341), the miss buffer (R273), router adders (R114, R192).
-/

namespace Sys2Proof

/-- The place where a token is going is part of this paddock. -/
def Dest.isOf (padOfUnit : Loc → Nat) (pad : Nat) : Dest → Bool
  | .field u _ _ | .trigger u _ => padOfUnit u == pad
  | .sink p _ | .join p _ _ | .root p _ _ | .wave p _ => p == pad
  | .nowhere => false

/-- The paddock that a token at a switch box belongs to. -/
def Hop.padOf (padOfUnit : Loc → Nat) (h : Hop) : Option Nat :=
  match h.ends.head? with
  | some (.field u _ _) | some (.trigger u _) => some (padOfUnit u)
  | some (.sink p _) | some (.join p _ _) | some (.root p _ _) | some (.wave p _) => some p
  | some .nowhere | none => none

/-- Where the tokens of a step are going, on a link or at the end of their route. -/
def Instr.tokenDests : Instr → List Dest
  | .switchTokenCheck h => h.ends
  | .tokenArrival u slot f _ | .commitTokenArrival u slot f _ => [.field u slot f]
  | .triggerArrival u c _ => [.trigger u c]
  | .sinkRecord p k _ => [.sink p k]
  | .reductionJoin p j side _ => [.join p j side]
  | .streamBarrierArrival p b m _ => [.root p b m]
  | _ => []

/-- The token of a step that is under way. -/
def Instr.wayToken : Instr → Option Token
  | .switchTokenCheck h => some h.tok
  | .tokenArrival _ _ _ t => some t
  | _ => none

/-- The paddock that an event belongs to, if it belongs to one. -/
def Instr.padOf (padOfUnit : Loc → Nat) : Instr → Option Nat
  | .switchTokenCheck h => h.padOf padOfUnit
  | .tokenArrival u _ _ _ | .commitTokenArrival u _ _ _ | .triggerArrival u _ _ => some (padOfUnit u)
  | .overflowReinject p _ _ | .seedTokenInject p _ | .sinkRecord p _ _ | .commitComplete p | .externalPublish p
  | .configCompleteWave p _ | .streamBarrierArrival p _ _ _ | .reductionJoin p _ _ _ | .scRingToken p _ => some p
  | .nodeStoreVisible n _ => some (padOfUnit (.node n))
  | .musterTimeout u _ | .tagsExhausted u _ => some (padOfUnit u)
  | _ => none

end Sys2Proof

namespace Sys2Proof.Machine

/-! ## Helpers -/

def State.padOfUnit (s : State) (u : Loc) : Nat := (s.getU u.key).pad

/-- The route ids of a configuration: ports, channels, steer tables, seeds, router adders, barriers, the waves. -/
def Conf.routeIds (c : Conf) : List Nat :=
  (c.units.flatMap fun (_, u) =>
    (u.portRoute.map fun (x : Nat × Route) => x.2.id) ++ (u.chans.map fun (x : Nat × ChanConf) => x.2.route.id) ++ u.tearRoutes.map (·.id)) ++
    (c.seeds.map fun x => x.route.id) ++ c.joins.map (·.route) ++ (c.bars.flatMap fun x => [x.2.up.id, x.2.down.id]) ++ [c.wave.id]

/-- The paddock of a context whose configuration has a route id (R341); for an id that none has, the context's first paddock. -/
def State.routeOwner (s : State) (ctx route : Nat) : Option Nat :=
  ((s.pads.find? fun (_, p) => p.ctx == ctx && p.conf.routeIds.contains route).or (s.pads.find? fun (_, p) => p.ctx == ctx)).map (·.1)

/-- ISOLATION_DROP (R341): the token never enters, and the paddock that sent it faults. -/
def State.isolationDrop (s : State) (site : Nat) (t : Token) : State :=
  match s.routeOwner t.ctx t.route with
  | some p => s.raise p { code := 0x0F, ctx := t.ctx, cell := site, aux := BitVec.ofNat 64 (t.route % 256) }
  | none => s

/-! ## Configuration misses (R273) -/

/-- The configuration of a cell is not in its cache. -/
def UnitSt.out (u : UnitSt) (loc : Loc) : Bool := isCellKey loc.key && u.slotNo.isNone

/-- A token waits in the miss buffer, and the shepherd fetches its configuration. -/
def State.miss (s : State) (cell : Nat) (t : Token) (d : Dest) : State :=
  let c := s.getCell cell
  (s.setCell cell { c with miss := c.miss ++ [(t, d)] }).postOnce (.configFetchDone cell)

/-! ## Arrival at a slot field -/

/-- A record of MUSTER takes an entry of its table (R251); its claims are pending where its copies were placed. -/
def musterEntry (t : Token) : MusterRec :=
  { tok := t, met := List.replicate 4 none, decided := (List.range 4).map fun k => t.err || !t.valid.getLsbD k }

/-- A token enters its field. -/
def State.enterField (s : State) (e : SlotEnv) (f : Fld) (t : Token) : State :=
  let s := s.enter e.key e.slot f (e.streamOf f t) t
  match e.instr, f with
  | .muster _, .r =>
    let x := (s.slotSt e.key e.slot).field .r t.tag
    let s := s.updU e.key fun u => { u with muster := u.muster ++ x.rows.map musterEntry }
    s.updSlot e.key e.slot fun st => { st with fields := amPut st.fields (fkey .r t.tag 0) { x with rows := [] } }
  | _, _ => s

/-- Commits that have arrived on the field's stream; loop back edges take no part (R286). -/
def SlotEnv.epoch (e : SlotEnv) (st : SlotSt) (f : Fld) (stream : Nat) : Nat :=
  if e.conf.loopFed.contains (e.slot, f) then 0 else amGet st.commits (commitKey f stream) 0

/-- What becomes of a token that reaches a field of a slot. -/
inductive Reach
  | foreign (lastSeq : Nat)                -- its tag space is not the slot's (R66)
  | broken                                 -- its stream has broken R64
  | queue (e : OvEntry)                    -- it goes to the overflow queue
  | enter
  deriving DecidableEq, Repr, Inhabited

/-- R66, R79, R84, R286. R84 lets a data close token enter without a free row; the model's choice is that a control close token does too
(notes/assumptions/121.md). -/
def State.reach (s : State) (e : SlotEnv) (f : Fld) (t : Token) : Reach :=
  let st := s.slotSt e.key e.slot
  let stream := e.streamOf f t
  let x := amGet st.fields (fkey f t.tag stream) {}
  if t.tag / 64 != e.hdr.tsp then .foreign x.lastSeq
  else if x.broken then .broken
  else
    let entry : OvEntry := ⟨e.loc, e.slot, f, e.epoch st f stream, t⟩
    let behind := (s.getPad (s.getU e.key).pad).overflow.any fun y => y.sameStream e entry
    if behind || st.aligned < entry.epoch || !(t.isClose || s.rowFree e f t.tag stream) then .queue entry else .enter

/-- A reduction packet that has no join on its way is delivered as data (R192). -/
def Token.delivered (t : Token) : Token := if t.net != .control && t.kind == 1 then { t with kind := 0 } else t

/-- The networks whose tokens a field takes (R141, R164, R170). Fields of node slots take the tokens of data channels too (R297). -/
def SlotEnv.takesNet (e : SlotEnv) (f : Fld) (n : Net) : Bool :=
  match f, e.instr with
  | .p, .vsel _ => n == .vector
  | .p, _ => n == .control
  | .r, .vins .. => n == .scalar
  | _, .cand _ | _, .cor _ => n == .control
  | .l, .gate _ => n == (if e.hdr.net == 1 then .scalar else if e.hdr.net == 2 then .control else .vector)
  | _, i => n == .vector || i.isNodeOp && n == .scalar

/-- A token that reaches a slot enters, or goes to the overflow queue. One from another network fails its route check: the resends fail as it
did, and it never enters (R58, R141). -/
def State.arriveField (s : State) (e : SlotEnv) (f : Fld) (t : Token) : State :=
  let t := Token.delivered t
  let pad := (s.getU e.key).pad
  if !e.takesNet f t.net then s.report { cause := 0x03, pad := pad, cell := Loc.cell? e.loc, commitScope := true }
  else match s.reach e f t with
  | .foreign last => s.raise pad (fieldFault s e.key e.slot f 0x03 t last)
  | .broken => s
  | .queue entry => s.updPad pad fun p => { p with overflow := p.overflow ++ [entry] }
  | .enter => s.enterField e f t

/-! ## Room where a route ends (R10, R268, R270, R271, R273) -/

/-- Entries that the mapper gives the overflow queue of a paddock (R270). -/
def Conf.overflowSize (c : Conf) : Nat :=
  16 * (c.units.map fun (_, u) => (u.slots.map fun (slot, _) =>
    match u.slotAt slot with
    | some (i, h) => amGet u.tags h.tsp 1 * (netFields u slot i h).length
    | none => 0).sum).sum

/-- Steps already listed that deliver a token to a cell's configuration that is out, to the pending queue of a class, or to a slot field. -/
def State.inbound (s : State) (p : Dest → Bool) : Nat :=
  countIf (fun (x : Event) =>
    match x.instr with
    | .tokenArrival u slot f _ | .commitTokenArrival u slot f _ => p (.field u slot f)
    | .triggerArrival u c _ => p (.trigger u c)
    | _ => false) s.events

/-- Triggers of a class that wait at a cell: one queue for all its configurations (R271). -/
def State.pendingOn (s : State) (cell c : Nat) : Nat :=
  (s.units.map fun (x : Nat × UnitSt) =>
    if isCellKey x.1 && idxOf x.1 == cell && x.2.live then countIf (fun (y : Nat × Token) => y.1 == c) x.2.pending else 0).sum

/-- A place has room for a token, beside n others that are on their last step to it: the miss buffer takes 2 tokens, a pending queue 8
triggers, the overflow queue what the mapper gives it. Where there is none the link back-pressures. -/
def State.roomFor (s : State) (d : Dest) (t : Token) (n : Nat) : Bool :=
  let there (u : Loc) : Bool := let x := s.getU u.key; x.live && x.ctx == t.ctx && !t.abort
  let missOk (u : Loc) : Bool := (s.getCell u.idx).miss.length + n < 2
  match d with
  | .field u slot f =>
    if !there u then true
    else if (s.getU u.key).out u then missOk u
    else
      match s.slotEnv u.key slot with
      | none => true
      | some e =>
        if t.isCommit || (t.net == .control && t.kind == 3) then true
        else
          match s.reach e f (Token.delivered t) with
          | .queue _ => let p := s.getPad (s.getU u.key).pad; p.overflow.length + n < p.conf.overflowSize
          | _ => true
  | .trigger u c =>
    if !there u then true
    else if (s.getU u.key).out u then missOk u
    else s.pendingOn u.idx c + n < 8
  | _ => true

/-- Other tokens on their last step that may take the same room. -/
def State.rivals (s : State) (d : Dest) : Nat :=
  s.inbound fun x =>
    match d, x with
    | .field u _ _, .field v _ _ => if (s.getU u.key).out u then v.idx == u.idx && (s.getU v.key).out v else s.padOfUnit v == s.padOfUnit u
    | .trigger u c, .trigger v k => v.idx == u.idx && k == c
    | _, _ => false

/-- What a token or commit meets before it reaches a field of a unit: an abort flag, another context, a configuration that is out. -/
def atUnit (s : State) (u : Loc) (t : Token) (d : Dest) (body : State → Out) : Out :=
  let x := s.getU u.key
  if t.abort then .next s
  else if !x.live || x.ctx != t.ctx then .next (s.isolationDrop u.site t)
  else if x.out u then .next (s.miss u.idx t d)
  else body s

/-- TOKEN_ARRIVAL. A stream barrier passes a GATE as it is (R170). -/
def execTokenArrival (u : Loc) (slot : Nat) (f : Fld) (t : Token) (s : State) : Out :=
  s.whileRunning (s.padOfUnit u) (.tokenArrival u slot f t) fun s =>
    atUnit s u t (.field u slot f) fun s =>
      let pad := s.padOfUnit u
      let b : BreakPoint := .token u slot f
      if s.tokenBreak pad b then .next (s.stopToken pad b (.tokenArrival u slot f t))
      else
        let s := s.updPad pad fun p => { p with passed := p.passed.filter (· != b) }
        match s.slotEnv u.key slot with
        | none => .next s
        | some e =>
          if t.net == .control && t.kind == 3 then .next ((e.sinks (s.getU u.key) 0).foldl (fun s k => s.emitSink e k t) s)
          else .next (((s.arriveField e f t).wake u.key).settle u.key slot)

/-- COMMIT_TOKEN_ARRIVAL. -/
def execCommitTokenArrival (u : Loc) (slot : Nat) (f : Fld) (t : Token) (s : State) : Out :=
  s.whileRunning (s.padOfUnit u) (.commitTokenArrival u slot f t) fun s =>
    atUnit s u t (.field u slot f) fun s =>
      match s.slotEnv u.key slot with
      | none => .next s
      | some e =>
        if e.conf.loopFed.contains (slot, f) then .next (s.askCommit (s.padOfUnit u))
        else
          let s := s.updSlot u.key slot fun st =>
            { st with commits := amUpd st.commits (commitKey f (e.streamOf f t)) 0 (· + 1) }
          .next (((s.wake u.key).settle u.key slot).askCommit (s.padOfUnit u))

/-- OVERFLOW_REINJECT (R83). -/
def execOverflowReinject (pad : Nat) (u : Loc) (slot : Nat) (s : State) : Out :=
  s.whileRunning pad (.overflowReinject pad u slot) fun s =>
    match s.slotEnv u.key slot with
    | none => .next s
    | some e =>
      match firstEntry (s.reinjectable e) with
      | none => .next s
      | some x =>
        let s := s.updPad pad fun p => { p with overflow := p.overflow.erase x }
        .next (((s.enterField e x.f x.tok).wake u.key).settle u.key slot)

/-! ## Switch boxes (R58, R59, R370) -/

/-- The kind is assigned. -/
def Token.kindOk (t : Token) : Bool := if t.net == .control then decide (t.kind.toNat ≤ 5) else decide (t.kind.toNat ≤ 4)

/-- The span obeys R59. -/
def Token.spanOk (t : Token) : Bool :=
  if t.isClose then t.lo == t.hi
  else if t.net == .control && t.kind != 0 then true
  else decide (t.lo < t.hi) && t.lo != openHi

/-- The cell of a site in the layout of R279. -/
def cellOfSite (site : Nat) : Option Nat :=
  if site / 2 ^ 8 % 2 == 1 then some (site / 2 ^ 14 * 96 + (site / 2 ^ 8 % 64 / 2) * 12 + site % 16) else none

/-! ### Hop buffers (R370) -/

def hopKey (site : Nat) (net : Net) (out : Nat) : Nat := (site * 4 + netCode net) * 8 + out

/-- A token leaves a box by an output, whose hop buffer keeps the last 8 that it has sent; answers its place there. -/
def State.keepHop (s : State) (site out : Nat) (t : Token) : State × (Nat × Nat) :=
  let key := hopKey site t.net out
  let (n, l) := amGet s.hopBufs key (0, [])
  let l := l ++ [t]
  ({ s with hopBufs := amPut s.hopBufs key (n + 1, l.drop (l.length - 8)) }, (key, n))

/-- What the sender resends: the token in its hop buffer; a cell's or a source's own output keeps the token that it has sent. -/
def State.hopSent (s : State) (h : Hop) : Token :=
  match h.sentAs with
  | some (key, n) =>
    let (m, l) := amGet s.hopBufs key (0, [])
    if n < m && m ≤ n + l.length then nthD l (l.length + n - m) h.tok else h.tok
  | none => h.tok

/-- Takes an armed injection of the cell or the slice at a site (R388). -/
def State.takeArmed (s : State) (site bit : Nat) : State × Bool :=
  match cellOfSite site with
  | none => s.takeMask (sitePasture site * 96 + siteX site / 2 * 12 + siteY site) bit
  | some i =>
    let k := s.coreOf i
    if k.errmask.getLsbD bit then
      (s.setCoreOf i { k with errmask := k.errmask &&& ~~~ BitVec.ofNat 64 (2 ^ bit) }, true)
    else (s, false)

/-- A failed check: the sender resends from its hop buffer, up to three times. The outside says in arg.code how many of the
resends come out bad again on the link. -/
def State.resend (s : State) (h : Hop) : State :=
  let t := s.hopSent h
  s.postFront (.switchTokenCheck { h with tok := t, resends := h.resends + 1, crc := if s.arg.code == 0 then hopCrc t else ~~~ hopCrc t })
    { code := s.arg.code - 1 }

/-! ## From box to box (R14, R15, R53) -/

/-- The configuration whose switch words a token meets. -/
def State.hopConf (s : State) (h : Hop) : Conf := (s.getPad ((h.padOf s.padOfUnit).getD 0)).conf

/-- The outputs by which a token leaves its box. -/
def State.hopOuts (s : State) (h : Hop) : List Nat :=
  ((takenWords (s.hopConf h).switches h.site h.tok.net h.tok.cls h.inp).filter fun w => !swJoin w).map swOut

/-- An end of the token's route stands at its box: a slot field, a handler, the root of a barrier or a unit that takes a wave behind a local
output (a handler that a route-class packet marks, behind the one that the class table binds), or the router adder, into which a join word leads
packets and at which control tokens leave (R54; notes/assumptions/88.md). Sinks have no place on the fabric: tokens leave it for them where they
enter it. A seed's token enters at the box of its port, beside the switch words. -/
def State.endsHere (s : State) (h : Hop) (d : Dest) : Bool :=
  let c := s.hopConf h
  let outs := s.hopOuts h
  if h.inp == 9 then true
  else
    match d with
    | .field u _ _ | .wave _ u => u.site == h.site && outs.any fun o => decide (4 ≤ o)
    | .trigger u k => u.site == h.site && outs.any fun o => decide (4 ≤ o) && (h.tok.net == .control || bindsLink c.switches h.site k o)
    | .root _ b _ => (amGet c.bars b {}).root == h.site && outs.any fun o => decide (4 ≤ o)
    | .join _ j _ =>
      ((c.joins[j]?).getD {}).site == h.site && if h.tok.net == .control then decide (h.inp < 4)
        else (takenWords c.switches h.site h.tok.net h.tok.cls h.inp).any swJoin
    | _ => true

/-- The token goes on over output o, to the neighbour, or over a bridge as a message (R20). -/
def State.crossLink (s : State) (h : Hop) (o : Nat) : State :=
  match neighbour h.site o with
  | none => s
  | some site =>
    let (s, place) := s.keepHop h.site o h.tok
    let next := { h with site := site, inp := facing o, resends := 0, crc := hopCrc h.tok, sentAs := some place }
    if sitePasture site == sitePasture h.site then s.postFront (.switchTokenCheck next)
    else if h.tok.abort then s
    else s.sendMessage (sitePasture h.site) (sitePasture site) { next with sentAs := none }

/-- The permit that a token on a route draws on when a cell sends it to a node slot (R268, R269): fold, slice and pool. -/
def State.hopPermit (s : State) (h : Hop) : Option Nat :=
  if h.permit.isSome || h.inp < 4 || 8 ≤ h.inp then none
  else
    match cellOfSite h.site, h.ends.head? with
    | some c, some (.field (.node n) _ _) =>
      some (permitKey (foldOf c) n (((takenWords (s.hopConf h).switches h.site h.tok.net h.tok.cls h.inp).head?.map swPool).getD 0))
    | _, _ => none

/-- The token's permit is returned: the node has it, or it is gone. -/
def State.dropPermit (s : State) (h : Hop) : State :=
  match h.permit with
  | some k => s.returnPermit ((h.padOf s.padOfUnit).getD 0) k
  | none => s

/-- A token that has passed its box: to the ends that stand there, and on by its outputs to the others. -/
def State.passHop (s : State) (h : Hop) : State :=
  let here := h.ends.filter fun d => s.endsHere h d
  let rest := h.ends.filter fun d => !here.contains d
  let s1 := if here.isEmpty then s else s.dropPermit h
  let next := { h with ends := rest, permit := if here.isEmpty then h.permit else none }
  let s2 := match rest with
    | [] => s1
    | _ => ((s.hopOuts h).filter fun o => decide (o < 4)).reverse.foldl (fun s o => s.crossLink next o) s1
  here.reverse.foldl (fun s d =>
    match arrivalAt d h.tok with
    | some i => s.postFront i
    | none => s) s2

/-- The bridges that a token takes from its box. -/
def State.hopBridges (s : State) (h : Hop) : List (Nat × Nat) :=
  let a := sitePasture h.site
  if h.ends.all fun d => s.endsHere h d then []
  else (s.hopOuts h).filterMap fun o => (neighbour h.site o).bind fun x => if sitePasture x == a then none else some (a, sitePasture x)

/-- A token waits at its switch box: it needs a permit and none of its pool is free, a replay window that its message is to enter is full
(R381), or a place where it is to be delivered has no room. -/
def State.hopWaits (s : State) (h : Hop) : Bool :=
  ((s.hopBridges h).any fun (a, b) => (s.link (linkKey a b)).full) ||
  (match s.hopPermit h with
   | some k => !s.permitFree ((h.padOf s.padOfUnit).getD 0) k
   | none => false) ||
  h.ends.any fun d => s.endsHere h d && !s.roomFor d h.tok (s.rivals d)

/-! ## Waves (R33, R277) -/

/-- A box that an abort mark has passed sets the abort flag on the paddock's tokens that it still holds, in its input buffers and in its hop
buffers. -/
def State.markBox (s : State) (pad site : Nat) : State :=
  let p := s.getPad pad
  let ids := p.conf.routeIds
  let s := s.updPad pad fun p => { p with markedAt := if p.markedAt.contains site then p.markedAt else p.markedAt ++ [site] }
  let held (x : Event) : Event :=
    match x.instr with
    | .switchTokenCheck h =>
      if h.site == site && h.padOf s.padOfUnit == some pad && h.tok.net != .control then
        let t := { h.tok with abort := true }
        { x with instr := .switchTokenCheck { h with tok := t, crc := if h.crcOk then hopCrc t else h.crc } }
      else x
    | _ => x
  let sent (t : Token) : Token := if t.net != .control && t.ctx == p.ctx && ids.contains t.route then { t with abort := true } else t
  { s with
    events := s.events.map held
    hopBufs := s.hopBufs.map fun (x : Nat × Nat × List Token) => (x.1, x.2.1, if x.1 / 32 == site then x.2.2.map sent else x.2.2) }

/-- A wave that a box has dropped does not reach its units: the shepherd whose tree leads to them sends it again (notes/assumptions/88.md). -/
def State.waveAgain (s : State) (h : Hop) : State :=
  match h.ends.head? with
  | some (.wave p u) =>
    let c := (s.getPad p).conf
    match c.folds.find? fun f => (c.waveEnds f).contains u with
    | some f => s.sendWave p h.tok.kind f ((c.waveEnds f).filter fun x => h.ends.contains (.wave p x))
    | none => s
  | _ => s

/-- A breakpoint at the output port that a token leaves by (R258): one of its paddock at the box, whose route is the token's. Commits pass it. -/
def State.portBreak (s : State) (pad : Nat) (h : Hop) : Option BreakPoint :=
  if h.inp < 4 || 8 ≤ h.inp || h.resends != 0 || h.tok.isCommit then none
  else s.breaks.find? fun b =>
    match b with
    | .port u port =>
      let x := s.getU u.key
      u.site == h.site && x.live && x.pad == pad && x.conf.portRoute.any fun r => r.1 == port && r.2.id == h.routeWant
    | _ => false

/-- gweuf stops the paddock at a token that reaches an output port with a breakpoint (R201, R258): it waits on its way out. -/
def State.atPort (s : State) (pad : Nat) (h : Hop) (body : State → Out) : Out :=
  match s.portBreak pad h with
  | some b =>
    if s.tokenBreak pad b then .next (s.stopToken pad b (.switchTokenCheck h))
    else body (s.updPad pad fun p => { p with passed := p.passed.filter (· != b) })
  | none => body s

/-- SWITCH_TOKEN_CHECK: the first check that fails decides, and each failure is reported (R373). The token that passes goes on. A token that needs a permit takes it where it enters
the fabric. -/
def execSwitchTokenCheck (h : Hop) (s : State) : Out :=
  let pad := h.padOf s.padOfUnit
  let body (s : State) : Out :=
    let p := pad.getD 0
    let fromCell := 4 ≤ h.inp && h.inp < 8
    let (s, hop) := if fromCell then s.takeArmed h.site 7 else (s, false)
    let first := h.crcOk && !hop
    let (s, route) := if first then s.takeArmed h.site 6 else (s, false)
    let report (s : State) (cause : Nat) (inj scope : Bool) : State :=
      s.report { cause := cause, pad := p, cell := cellOfSite h.site, site := some h.site, injected := inj, commitScope := scope }
    let (s, h) := match s.hopPermit h with
      | some k => (s.takePermit p k, { h with permit := some k })
      | none => (s, h)
    let t := { h.tok with abort := h.tok.abort || (h.tok.net != .control && (s.getPad p).markedAt.contains h.site) }
    if !first then
      if h.resends < 3 then .next ((report s 0x04 hop false).resend h)
      else .next (((report s 0x04 hop true).dropPermit h).waveAgain h)
    else if t.route != h.routeWant || !Token.kindOk t || !Token.spanOk t || (t.net == .control && t.parity != t.parityBit) || route then
      if h.resends < 3 then .next ((report s 0x03 route false).resend h)
      else .next (((report s 0x03 route true).dropPermit h).waveAgain h)
    else if t.net != .control && t.residue != laneResidues t.net t.payload then
      if h.resends < 3 then .next ((report s 0x01 false false).resend h)
      else .next ((report s 0x01 false false).passHop { h with tok := { t with err := true, cause := 0x01 }.sealed })
    else .next ((if h.isMark then s.markBox p h.site else s).passHop { h with tok := t })
  if h.isMark then body s else s.whileRunning (pad.getD 0) (.switchTokenCheck h) fun s => s.atPort (pad.getD 0) h body

/-! ## Abort marks (R277) -/

/-- Step 1 of R276 has taken effect: faults that are on their way count as further ones (R279). -/
def State.countFaults (s : State) (pad : Nat) : State :=
  let n := countIf (fun (x : Event) => x.instr.faults pad) s.events
  if (s.getPad pad).phase != .faulting || n == 0 || s.events.any fun x => x.instr.marks pad then s
  else
    let s := s.updPad pad fun p => { p with fault := p.fault.map fun x => { x with more := x.more + n } }
    { s with events := s.events.filter fun x => !x.instr.faults pad }

/-- ABORT_MARK: the unit admits no firing of the configuration any more. -/
def execAbortMark (pad : Nat) (u : Loc) (s : State) : Out :=
  let s := if (s.getU u.key).pad == pad then s.updU u.key fun x => { x with stopped := true } else s
  .next ((s.countFaults pad).checkQuiet pad)

/-! ## Router adders (R114, R192) -/

/-- Adds two packets lane by lane; a lane valid in one passes. Flags are ORed; the close flag stands when both have it. The model's choices: the
reset masks are ORed too, and a lane valid in neither is zero (notes/assumptions/122.md). -/
def joinTokens (a b : Token) : Token :=
  let el (i : Nat) : El :=
    let (x, y) := (laneAt a.payload i, laneAt b.payload i)
    match a.valid.getLsbD i, b.valid.getLsbD i with
    | true, true => addCodes .f32 .rne false x y
    | true, false => { bits := x }
    | false, true => { bits := y }
    | false, false => { bits := 0 }
  let es := (List.range 16).map el
  Token.sealed
    { a with
      payload := packEls 32 (es.map (·.bits)), valid := a.valid ||| b.valid, reset := a.reset ||| b.reset
      err := a.err || b.err, exc := a.exc || b.exc || es.any (·.exc), sat := a.sat || b.sat, close := a.close && b.close
      commit := a.commit || b.commit, cause := if a.err then a.cause else b.cause }

def joinKey (tag : Nat) (side : Bool) : Nat := 2 * tag + b2n side

/-- The packet leaves the join: to a further join as a packet, at the root as data. -/
def State.joinOut (s : State) (pad j : Nat) (t : Token) : State :=
  let p := s.getPad pad
  let c := (p.conf.joins[j]?).getD {}
  let st := amGet p.joins j {}
  let root := match c.dest with
    | .join .. => false
    | _ => true
  let s := s.setPad pad { p with joins := amPut p.joins j { st with next := amPut st.next t.tag ((t.seq + 1) % 2 ^ 24) } }
  s.emit c.site 8 [c.dest] ⟨c.route, t.cls⟩ { t with kind := if root && t.kind == 1 then 0 else t.kind }

/-- Packets that wait on one side and have lo at or above the close point of the other pass alone. -/
def State.joinAlone (s : State) (pad j : Nat) : State :=
  let st := amGet (s.getPad pad).joins j {}
  let alone (x : Bool × Token) : Bool :=
    match amGet? st.closes (joinKey x.2.tag (!x.1)) with
    | some c => decide (c ≤ x.2.lo)
    | none => false
  let go := st.wait.filter alone
  let s := s.updPad pad fun p => { p with joins := amPut p.joins j { st with wait := st.wait.filter fun x => !alone x } }
  go.foldl (fun s x => s.joinOut pad j { x.2 with close := false }) s

/-- When both sides of a tag have closed and no packet of it waits, the output closes at the later close point. -/
def State.joinClose (s : State) (pad j : Nat) (t : Token) : State :=
  let st := amGet (s.getPad pad).joins j {}
  match amGet? st.closes (joinKey t.tag false), amGet? st.closes (joinKey t.tag true) with
  | some a, some b =>
    if st.wait.any fun x => x.2.tag == t.tag then s
    else
      s.joinOut pad j
        { net := .vector, kind := 4, lo := max a b, hi := max a b, tag := t.tag, seq := amGet st.next t.tag 0, ctx := t.ctx, cls := t.cls }
  | _, _ => s

/-- REDUCTION_JOIN. A commit leaves when it has arrived on both sides. -/
def execReductionJoin (pad j : Nat) (side : Bool) (t : Token) (s : State) : Out :=
  s.whileRunning pad (.reductionJoin pad j side t) fun s =>
    if t.abort then .next s
    else if (s.getPad pad).ctx != t.ctx then .next (s.isolationDrop ((((s.getPad pad).conf.joins[j]?).getD {}).site) t)
    else
      let p := s.getPad pad
      let c := (p.conf.joins[j]?).getD {}
      let st := amGet p.joins j {}
      let put (st : JoinSt) : State := s.setPad pad { p with joins := amPut p.joins j st }
      if t.isCommit then
        let n := if side then (st.commits.1, st.commits.2 + 1) else (st.commits.1 + 1, st.commits.2)
        let marks := amPut st.marks (joinKey (if side then n.2 else n.1) side) (st.closes.filter fun x => x.1 % 2 == b2n side)
        let nexts := if min st.commits.1 st.commits.2 < min n.1 n.2 then amPut st.nexts (min n.1 n.2) st.next else st.nexts
        let s := put { st with commits := n, marks := marks, nexts := nexts }
        .next (if min st.commits.1 st.commits.2 < min n.1 n.2 then s.emit c.site 8 [c.dest] ⟨c.route, t.cls⟩ t else s)
      else if t.isClose then
        .next (((put { st with closes := amPut st.closes (joinKey t.tag side) t.lo }).joinAlone pad j).joinClose pad j t)
      else
        let closes := if t.close then amPut st.closes (joinKey t.tag side) t.hi else st.closes
        match st.wait.find? fun x => x.1 != side && x.2.cls == t.cls && x.2.tag == t.tag && x.2.seq == t.seq with
        | some x =>
          let s := put { st with wait := st.wait.erase x, closes := closes }
          if x.2.lo == t.lo && x.2.hi == t.hi then
            let y := if side then joinTokens x.2 t else joinTokens t x.2
            let s := (s.joinOut pad j y).joinAlone pad j
            .next (if y.close then s else if t.close || x.2.close then s.joinClose pad j t else s)
          else
            .next (s.raise pad { code := 0x06, ctx := p.ctx, cell := c.site, tag := t.tag, seq := t.seq })
        | none =>
          let s := (put { st with wait := st.wait ++ [(side, t)], closes := closes }).joinAlone pad j
          .next (if t.close then s.joinClose pad j t else s)

end Sys2Proof.Machine
end

