-- ==== Sys2Proof/Machine/Range.lean ====
section
/-!
DEFINITION. Byte ranges of M and H that firmware, seeds, sinks, engines and queues access (R88, R226, R324, R357, R360): translated page by
page before any byte is accessed.
-/

namespace Sys2Proof.Machine

/-- A piece of a range at one place: its page is marked external, poisoned (or a table entry's line fails), or described. -/
structure Part where
  sp : Space
  addr : Nat
  len : Nat
  ext : Bool := false
  bad : Bool := false
  desc : Bool := false
  deriving DecidableEq, Repr, Inhabited

/-- The site that checks a piece (R9, R279, R373): of M its memory link, of S its slice, of L its cell; none that the spec names for F and H. -/
def Part.site (p : Part) : Option Nat :=
  match p.sp with
  | .m => some (frameSite p.addr)
  | .s => some (sliceSite (sliceOfAddr p.addr))
  | .l => some (cellSite (p.addr / 2 ^ 21))
  | _ => none

def partsSite (l : List Part) : Option Nat := (l.head?).bind Part.site

/-- What the translation of a range gives. -/
inductive RangeRes
  | parts (l : List Part)
  | wait (va : Nat) (migrating : Bool)
  | fault (cause va : Nat)                 -- R357
  | refused (off : Nat)                    -- R360
  | line (cause : Nat)                     -- the line of a table entry fails its check
  deriving DecidableEq, Repr, Inhabited

/-- The pieces of n bytes at an address that lie in one page each. -/
def splitPages (page a n : Nat) : List (Nat × Nat) :=
  if n == 0 then []
  else
    (List.range ((a + n - 1) / page + 1 - a / page)).map fun i =>
      let p := a / page + i
      let lo := max a (p * page)
      (lo, min (a + n) ((p + 1) * page) - lo)

/-- Pieces of an M range. A piece of 64 KiB never crosses a page (R353). -/
def State.rangeM (ctx : Nat) (write : Bool) : List (Nat × Nat) → State → List Part → State × RangeRes
  | [], s, acc => (s, .parts acc)
  | (va, n) :: rest, s, acc =>
    let (s, r) := s.translate ctx va write false
    match r with
    | .phys pa en => State.rangeM ctx write rest s (acc ++ [{ sp := .m, addr := pa, len := n, ext := pteExternal en, bad := ptePoisoned en }])
    | .fault c => (s, .fault c va)
    | .wait m => (s, .wait va m)
    | .line c => (s, .line c)

/-- Pieces of an H range; the host may refuse a page. -/
def State.rangeH (s : State) (ctx : Nat) (write : Bool) (base off n : Nat) : RangeRes :=
  let ps := splitPages 4096 (base + off) n
  match ps.find? fun p => s.hostRefuses ctx p.1 write with
  | some p => .refused (p.1 - base)
  | none => .parts (ps.map fun (p : Nat × Nat) => { sp := .h, addr := s.hostKey ctx p.1, len := p.2 })

/-- n bytes at offset `off` of a range of the context. -/
def State.range (s : State) (ctx : Nat) (host write : Bool) (base off n : Nat) : State × RangeRes :=
  if host then (s, s.rangeH ctx write base off n)
  else State.rangeM ctx write (splitPages 65536 (base + off) n) s []

/-- Reads the pieces with the checks of their storing units; a poisoned page fails (R353). -/
def State.readParts (s : State) (l : List Part) : State × List Byte × Option Nat :=
  l.foldl (fun (s, bs, c) p =>
    let (s, b, c') := s.checkedRead p.sp p.addr p.len
    (s, bs ++ b, (c.or (if p.bad then some 0x08 else none)).or c')) (s, [], none)

/-- The bytes of a write, piece by piece. -/
def partWrites : List Part → List Byte → List (Space × Nat × List Byte)
  | [], _ => []
  | p :: ps, bs => (p.sp, p.addr, bs.take p.len) :: partWrites ps (bs.drop p.len)

def State.putWrites (s : State) (l : List (Space × Nat × List Byte)) : State :=
  l.foldl (fun s (sp, a, bs) => s.storeMem sp a bs) s

/-- Sends a page request for a waiting seed, sink, engine command or packet, unless one for the page is outstanding. -/
def State.askPage (s : State) (ctx va : Nat) (pad : Option Nat) (write : Bool) (pkt : Option (Nat × Nat) := none) (denial : FaultRec := {}) : State :=
  if s.prgs.any fun x => x.2.ctx == ctx && x.2.va == pageOf va && x.2.pad == pad && x.2.pkt == pkt then s
  else
    (s.pageRequest
      { ctx := ctx, gen := (amGet s.ctxs ctx {}).gen, va := va, node := 0xFFFF, pad := pad, pkt := pkt, write := write
        denial := { denial with code := 0x0E, ctx := ctx, aux := BitVec.ofNat 64 (pageOf va) } }).1

/-- Who waits for a page: 0 the publication of a commit, 1 that of tested ones, 2 + k seed k. -/
def seedWait (k : Nat) : Nat := 2 + k

/-- The engine command of an id. -/
def engWait (id : Nat) : Nat := 2 ^ 32 + id

/-- A seed, a sink or an engine command waits for a page; its wait counts towards T_FAULT whether or not a request for it could be sent (R292, R358, R361). -/
def State.awaitPage (s : State) (pad who va : Nat) (write migrating : Bool) (denial : FaultRec) : State :=
  let ctx := (s.getPad pad).ctx
  let r : FaultRec := { denial with code := 0x0E, ctx := ctx, aux := BitVec.ofNat 64 (pageOf va) }
  let s := s.updPad pad fun p => { p with waits := amPut p.waits who ⟨pageOf va, write, r⟩ }
  if migrating then s else s.askPage ctx va (some pad) write none r

/-- It waits no longer. -/
def State.pageCame (s : State) (pad who : Nat) : State := s.updPad pad fun p => { p with waits := amDel p.waits who }

end Sys2Proof.Machine
end

