-- ==== Sys2Proof/Machine/Commit.lean ====
section
/-!
DEFINITION. Seeds and sinks (R33, R87, R88, R324), complete commits and publication (R288, R322, R384, R385).
-/

namespace Sys2Proof.Machine

/-! ## Seeds (R324) -/

/-- A seed may inject: the wave has reached every unit of its running paddock (R33). -/
def Pad.seedMay (p : Pad) (k : Nat) : Bool :=
  p.phase == .running && p.waveLeft.isEmpty && !(amGet p.seeds k {}).closed && !(p.conf.seed k).loc

/-- The place that a fault record gives for the port of a seed: site, slot or port code, field. -/
def SeedConf.port (sc : SeedConf) : Nat × Nat × Nat :=
  match sc.dest with
  | .field u slot f => (u.site, slot, f.code)
  | .trigger u _ => (u.site, 0x70 + sc.number, 3)
  | _ => (0xFFFF, 0, 3)

/-- The seed's stream ends without a further record. -/
def State.closeSeed (s : State) (pad k : Nat) : State :=
  let st := amGet (s.getPad pad).seeds k {}
  s.sourceSend pad k { kind := 4, lo := 0, hi := 0, tag := ((s.getPad pad).conf.seed k).tsp * 64, seq := st.next }

/-- A record of a seed becomes its token. The last one closes the stream. -/
def State.seedRecord (s : State) (pad k : Nat) (bytes : List Byte) (bad : Option Nat) (last : Bool) : State :=
  let p := s.getPad pad
  let sc := p.conf.seed k
  let st := amGet p.seeds k {}
  if !recSpanOk bytes || (!recIsClose bytes && 2 ^ 40 - 2 < recField bytes 73 5 && recField bytes 73 5 != openHi) then
    let (cell, slot, f) := sc.port
    let s := s.setPad pad { p with seeds := amPut p.seeds k { st with closed := true } }
    s.raise pad { code := 0x02, ctx := p.ctx, cell := cell, slot := slot, fld := f, tag := recField bytes 81 2 % 1024, seq := st.next }
  else
    let t := asSeedToken sc (recToken bytes)
    let t := if last && !t.isClose then { t with close := true } else t
    let t := match bad with
      | some c => { t with err := true, cause := c }
      | none => t
    let s := s.sourceSend pad k t
    if (amGet (s.getPad pad).seeds k {}).closed then s else s.post (.seedTokenInject pad k)

/-- SEED_TOKEN_INJECT: the next record of the seed's endpoint range enters. A range that holds no whole record closes at 0; a
page that is not there is waited for. -/
def execSeedTokenInject (pad k : Nat) (s : State) : Out :=
  s.whileRunning pad (.seedTokenInject pad k) fun s =>
    let p := s.getPad pad
    if !p.seedMay k then .next s
    else
      let st := amGet p.seeds k {}
      if st.extent < 96 * (st.next + 1) then .next (s.closeSeed pad k)
      else
        let (s, r) := (s.pageCame pad (seedWait k)).range p.ctx st.host false st.base (96 * st.next) 96
        match r with
        | .parts l =>
          let (s, bs, c) := s.readParts l
          let s := match c with
            | some x => s.report { cause := x, pad := pad, site := partsSite l }
            | none => s
          .next (s.seedRecord pad k bs c (st.extent < 96 * (st.next + 2)))
        | .wait va m =>
          let (cell, slot, f) := (p.conf.seed k).port
          let r : FaultRec := { cell := cell, slot := slot, fld := f, seq := st.next }
          .next ((s.awaitPage pad (seedWait k) va false m r).post (.seedTokenInject pad k))
        | .fault c va =>
          let (cell, slot, f) := (p.conf.seed k).port
          .next (s.raise pad
            { code := 0x10, ctx := p.ctx, cell := cell, slot := slot, fld := f, seq := st.next, aux := BitVec.ofNat 64 (c * 2 ^ 56 + va) })
        | .refused off =>
          let (cell, slot, f) := (p.conf.seed k).port
          .next (s.raise pad
            { code := 0x11, ctx := p.ctx, cell := cell, slot := slot, fld := f, seq := st.next,
              aux := BitVec.ofNat 64 ((p.conf.seed k).endpoint * 2 ^ 58 + off) })
        | .line c =>
          .next (s.seedRecord pad k (toBytes 64 0 ++ zeroBytes 4 ++ toBytes 5 0 ++ toBytes 5 1 ++ zeroBytes 18) (some c) false)

/-! ## Sinks (R88) -/

/-- A fault record of a sink. -/
def sinkFault (p : Pad) (c : SinkConf) (code : Nat) (t : Token) (aux : Nat) : FaultRec :=
  { code := code, ctx := p.ctx, cell := cellSite c.cell, slot := 0x70 + c.port, fld := 3, tag := t.tag, seq := t.seq,
    aux := BitVec.ofNat 64 aux }

/-- The log entry that a sink makes for a token (R377): kind 2 EXCEPTION, 3 DATA_ERROR. -/
def sinkEntry (c : SinkConf) (kind cause site : Nat) (t : Token) : LogEntry :=
  { kind := kind, cause := cause, site := site, endpoint := c.endpoint, tag := t.tag, seq := t.seq, lo := t.lo, hi := t.hi }

/-- Causes that stored data repeats (R373). -/
def persistent (cause : Nat) : Bool := 6 ≤ cause

/-- An error-tagged token at a sink (R375, R376): it writes nothing. Where every report since the last complete commit is
persistent, the sink logs the missing record. -/
def State.sinkError (s : State) (pad : Nat) (c : SinkConf) (t : Token) : State :=
  let p := s.getPad pad
  let first := (p.reports.find? fun r => r.cause == t.cause).bind fun r => r.site.or (r.cell.map cellSite)
  let site := first.getD (amGet p.sites t.cause (cellSite c.cell))
  let s := if persistent t.cause && !p.transient then s.logAppend p.ctx (sinkEntry c 3 t.cause site t) else s
  s.report { cause := t.cause, pad := pad, site := some site, commitScope := true }

/-- SINK_RECORD: records wait in the write log of their commit interval. -/
def execSinkRecord (pad k : Nat) (t : Token) (s : State) : Out :=
  s.whileRunning pad (.sinkRecord pad k t) fun s =>
    let p := s.getPad pad
    match p.conf.sinks[k]? with
    | none => .fault .noSuchUnit
    | some c =>
      let st := amGet p.sinks k {}
      let put (s : State) (st : SinkSt) : State := s.updPad pad fun p => { p with sinks := amPut p.sinks k st }
      let next := st.aligned + 1
      if t.abort || p.phase != .running then .next s
      else if t.ctx != p.ctx then .next (s.isolationDrop (cellSite c.cell) t)
      else if t.isCommit then .next ((put s { st with aligned := next }).askCommit pad)
      else
        let closes := t.close || t.isClose
        let s := put s { st with closed := if closes then st.closed.or (some next) else st.closed }
        if t.err then .next (s.sinkError pad c t)
        else if t.isFault then
          let pair := ((List.range 8).find? fun i => t.valid.getLsbD (2 * i)).getD 0
          .next (s.raise pad (sinkFault p c 0x10 t (elAt 64 t.payload pair)))
        else if t.isClose || t.net == .control then .next s
        else
          let s := if t.exc then s.logAppend p.ctx (sinkEntry c 2 0 (cellSite c.cell) t) else s
          if st.extent < 96 * (t.seq + 1) then .next (s.raise pad (sinkFault p c 0x07 t 0))
          else
            .next (s.updPad pad fun p =>
              { p with sinks := amUpd p.sinks k {} fun st => { st with log := st.log ++ [(next, Record.mk t.seq t)] } })

/-! ## Publication (R88, R288) -/

/-- What the translation of a write log gives: its writes, by record; those of records whose page is external are held. -/
inductive PubRes
  | ok (writes : List (Record × List Part))
  | wait (va : Nat) (migrating : Bool) (denial : FaultRec)
  | fault (f : FaultRec)
  deriving DecidableEq, Repr, Inhabited

/-- Translates the page of every record of a log before any is written. A record whose table entry fails its check or whose
page is poisoned has no place. -/
def State.translateLog (p : Pad) (c : SinkConf) (st : SinkSt) :
    List Record → State → List (Record × List Part) → State × PubRes
  | [], s, acc => (s, .ok acc)
  | r :: rs, s, acc =>
    let (s, x) := s.range p.ctx st.host true st.base (96 * r.seq) 96
    match x with
    | .parts l => State.translateLog p c st rs s (acc ++ [(r, if l.any (·.bad) then [] else l)])
    | .line _ => State.translateLog p c st rs s (acc ++ [(r, [])])
    | .wait va m => (s, .wait va m (sinkFault p c 0x0E r.tok 0))
    | .fault cause va => (s, .fault (sinkFault p c 0x10 r.tok (cause * 2 ^ 56 + va)))
    | .refused off => (s, .fault (sinkFault p c 0x11 r.tok (c.endpoint * 2 ^ 58 + off)))

/-- Translates the logs of several sinks, each with the records to publish. -/
def State.translateLogs (p : Pad) : List (Nat × SinkConf × SinkSt × List Record) → State →
    List (Nat × SinkConf × List (Record × List Part)) → State × Option (List (Nat × SinkConf × List (Record × List Part))) × PubRes
  | [], s, acc => (s, some acc, .ok [])
  | (k, c, st, l) :: rest, s, acc =>
    let (s, x) := State.translateLog p c st l s []
    match x with
    | .ok w => State.translateLogs p rest s (acc ++ [(k, c, w)])
    | y => (s, none, y)

/-- Writes one record; one without a place is reported and logged (R376). -/
def State.writeRecord (s : State) (pad : Nat) (c : SinkConf) (r : Record) (l : List Part) : State :=
  if l.isEmpty then s.sinkError pad c { r.tok with cause := 0x08 } else s.putWrites (partWrites l (recordBytes r.tok))

/-- Records of a sink with their commits up to c. -/
def upTo (c : Nat) (l : List (Nat × Record)) : List (Nat × Record) := l.filter fun x => decide (x.1 ≤ c)
def after (c : Nat) (l : List (Nat × Record)) : List (Nat × Record) := l.filter fun x => decide (c < x.1)

/-- The cells of a paddock. -/
def Pad.cells (p : Pad) : List Nat := (p.conf.units.filterMap fun x => Loc.cell? x.1).eraseDups

/-- The tested commit (R384): the highest complete commit after which a test of every cell began that the cell passed. -/
def State.testedCommit (s : State) (p : Pad) : Nat :=
  p.testAt.foldl (fun m (c, n, cells) => if c ≤ p.commit && cells.all fun i => decide (n < (s.getCell i).testedAfter) then max m c else m) p.tested

/-- Completion tokens leave in order, each when its stores are visible and no byte of them waits for its gate (R241, R384). -/
def State.drainStores (s : State) (key slot tag : Nat) : Nat → State
  | 0 => s
  | n + 1 =>
    match (s.getU key).stores.find? fun x => x.slot == slot && x.completion.tag == tag with
    | some x =>
      if x.visible && !x.gatedPart then
        match s.slotEnv key slot with
        | some e =>
          let s := s.updU key fun u => { u with stores := u.stores.erase x }
          (s.queueOut e 0 { tok := x.completion, basis := x.completion.hi }).drainStores key slot tag n
        | none => s
      else s
    | none => s

/-- Looks at every completion token of a node that waits, and lets firings that waited for the stores go on. -/
def State.drainNode (s : State) (key : Nat) : State :=
  let st := (s.getU key).stores
  let s := ((st.map fun x => (x.slot, x.completion.tag)).eraseDups).foldl (fun s (slot, tag) => s.drainStores key slot tag st.length) s
  s.settleUnit key

/-- The commit whose test opens the gate for a store of commit n: n, or the last one of a launch whose streams have all closed. -/
def Pad.gateAt (p : Pad) (n : Nat) : Nat :=
  if p.sinks.all fun x => match x.2.closed with
    | some k => decide (k ≤ p.commit)
    | none => false
  then min n p.commit else n

/-- The gate of in-field test stands before stores of a command to a page marked external (R353, R384; notes/assumptions/41.md). -/
def State.gated (s : State) (c : EngCmd) : Bool :=
  let p := s.getPad c.pad
  c.pkt.isNone && decide (s.testedCommit p < p.gateAt c.commit)

/-- A command writes a page of M that is marked external. -/
def State.storesExternal (s : State) (c : EngCmd) : Bool :=
  let ext (e : EngAddr) (n : Nat) : Bool :=
    e.space == 3 && (splitPages 65536 e.addr n).any fun x =>
      match (s.walk c.ctx x.1).2 with
      | .leaf _ en _ _ => pteExternal en
      | _ => false
  match c.op with
  | .cpy _ dst n .. | .coll _ _ dst n _ => ext dst n
  | .gath _ _ dst n e => ext dst (n * e)
  | .sig _ a _ => ext a 8
  | .scat _ dst .. => ext dst 1
  | .enq .. => false

/-- External records and stores are kept until their commit is tested (R385): a paddock with an external sink, or with records, stores or engine
commands for pages marked external that wait for their gate. -/
def State.isExternal (s : State) (pad : Nat) : Bool :=
  let p := s.getPad pad
  (p.conf.sinks.any (·.ext)) || (p.sinks.any fun x => !x.2.held.isEmpty) ||
    (s.units.any fun (_, u) => u.live && u.pad == pad && u.stores.any fun x => !x.held.isEmpty) ||
    s.engines.any fun (_, l) => l.any fun c => c.pad == pad && !c.done && decide (c.commit ≤ p.commit) && s.gated c && s.storesExternal c

/-- The last of some commits that does not lie past c; 0 where there is none. -/
def lastUpTo (c : Nat) (l : List Nat) : Nat := (l.filter fun n => decide (n ≤ c)).foldl max 0

/-- The commit of a slot's snapshot that a rollback to c puts back: that of c, or, of a slot whose input ended before, its last (notes/assumptions/68.md). -/
def Pad.slotCommit (p : Pad) (c : Nat) (u : Loc) (slot : Nat) : Nat :=
  lastUpTo c ((p.snaps.filter fun x => x.u == u && x.slot == slot).map (·.commit))

/-- The slots' snapshots that a rollback to c puts back. -/
def Pad.slotSnaps (p : Pad) (c : Nat) : List SnapSlot := p.snaps.filter fun x => x.commit == p.slotCommit c x.u x.slot

/-- The snapshots that a rollback to c puts back: of each actor its latest up to c, oldest first. -/
def Pad.actorSnaps (p : Pad) (c : Nat) : List SnapActor :=
  let l := p.snapActors.filter fun x => decide (x.commit ≤ c)
  l.zipIdx.filterMap fun (x, i) =>
    if (l.drop (i + 1)).any fun y => y.u == x.u && y.handler == x.handler then none else some x

/-- What a source had sent at commit c, or at its last one before. -/
def SeedSt.markUpTo (st : SeedSt) (c : Nat) : Option (Nat × Nat × Nat) := amGet? st.marks (lastUpTo c (st.marks.map (·.1)))

/-- Snapshots, marks and replay windows that a rollback to commit c or a later one does not use are dropped (R288, R385). -/
def Pad.dropBelow (p : Pad) (c : Nat) : Pad :=
  { p with
    kept := max p.kept c
    snaps := p.snaps.filter fun x => decide (p.slotCommit c x.u x.slot ≤ x.commit)
    snapActors := p.actorSnaps c ++ p.snapActors.filter fun x => decide (c < x.commit)
    arrSnaps := p.arrSnaps.filter fun x => decide (c ≤ x.1)
    joins := p.joins.map fun (j, st) =>
      (j, { st with marks := st.marks.filter fun x => decide (2 * c ≤ x.1), nexts := st.nexts.filter fun x => decide (c ≤ x.1) })
    testAt := p.testAt.filter fun x => decide (c ≤ x.1)
    seeds := p.seeds.map fun (k, st) =>
      (k, { st with
        marks := st.marks.filter fun x => decide (lastUpTo c (st.marks.map (·.1)) ≤ x.1)
        replay := match st.markUpTo c with
          | some (n, _, _) => st.replay.filter fun x => decide (n ≤ x.1)
          | none => st.replay }) }

/-- A launch is done when every sink stream has closed, its last commit is published, the engine commands of its firings have completed, and
every store of its firings and nodes is visible (R219, R226, R280, R328). -/
def State.launchDone (s : State) (pad : Nat) : Bool :=
  let p := s.getPad pad
  p.phase == .running && p.waveLeft.isEmpty && s.quietEngines pad && (s.groups.all fun g => g.pad != pad) &&
    (s.units.all fun (_, u) => !(u.live && u.pad == pad) || u.stores.all fun x => x.visible && !x.gatedPart) &&
    p.sinks.all fun (_, st) =>
      (match st.closed with
       | some c => decide (c ≤ p.commit)
       | none => false) && st.log.isEmpty && st.held.isEmpty

/-- The launch's packet completes when the launch is done. -/
def State.checkDone (s : State) (pad : Nat) : State :=
  let p := s.getPad pad
  let i : Instr := .packetComplete p.queue p.pkt .complete
  if s.launchDone pad && s.events.all fun x => x.instr != i then s.post i else s

/-- The slots to which a list of places leads: those of the places, and of what their results reach, in n links. -/
def State.reachedFrom (s : State) (joins : List JoinConf) : Nat → List Dest → List (Loc × Nat) → List (Loc × Nat)
  | 0, _, acc => acc
  | n + 1, ds, acc =>
    let ofJoins := ds.filterMap fun d =>
      match d with
      | .join _ j _ => (joins[j]?).map (·.dest)
      | _ => none
    let new := (ds.filterMap fun d =>
      match d with
      | .field u slot _ => if acc.contains (u, slot) then none else some (u, slot)
      | _ => none).eraseDups
    let next := new.flatMap fun (u, slot) =>
      match s.slotEnv u.key slot with
      | some e =>
        let ring := (e.writes.bind fun r => e.conf.ringReader r).map fun x => Dest.field u x.1 .l
        ring.toList ++ e.streams.flatMap fun st => (e.sinks (s.getU u.key) st).flatMap e.destsOf
      | none => []
    if new.isEmpty && ofJoins.isEmpty then acc else s.reachedFrom joins n (ofJoins ++ next) (acc ++ new)

/-- The slots of a paddock that commits reach: those behind seeds and behind channels of actors that have committed (R286, R321). -/
def State.committed (s : State) (pad : Nat) : List (Loc × Nat) :=
  let p := s.getPad pad
  let chans := p.conf.units.flatMap fun (u, c) =>
    if (s.getU u.key).actors.any fun x => 0 < x.2.commits then (c.chans.filter fun x => x.2.data).map fun x => x.2.dest else []
  s.reachedFrom p.conf.joins 4096 (p.conf.seeds.map (·.dest) ++ chans) []

/-- No further commit comes to a slot: on one of its fields every stream that has come has closed, and the commit behind the close is aligned. -/
def SlotEnv.ended (e : SlotEnv) (st : SlotSt) : Bool :=
  e.alignFields.any fun f =>
    let fs := st.fields.filter fun x => fkeyFld x.1 == f.code
    !fs.isEmpty && (fs.all fun x => x.2.closed.isSome) && e.commitKeys.all fun k => k % 4 != f.code || amGet st.commits k 0 ≤ st.aligned

/-- A slot's snapshot of commit c is held, or there is none: no commit reaches the slot, or its input has ended before (notes/assumptions/68.md). -/
def State.slotHolds (s : State) (reached : List (Loc × Nat)) (key slot c : Nat) : Bool :=
  match s.slotEnv key slot with
  | none => true
  | some e =>
    let st := s.slotSt key slot
    c ≤ st.aligned || e.commitKeys.isEmpty || e.ended st || (!reached.contains (e.loc, slot) && st.commits.all fun x => decide (x.2 < c))

/-- Every snapshot of the commit after the last complete one is held: every slot that it reaches has aligned it, and none of its tokens is on the
way. -/
def State.snapshotsHeld (s : State) (pad c : Nat) : Bool :=
  let reached := s.committed pad
  (s.units.all fun (key, u) => !(u.live && u.pad == pad) || u.conf.slots.all fun (slot, _) => s.slotHolds reached key slot c) &&
    (s.links.all fun (x : Nat × LinkSt) => x.2.open.all fun m => !((m.hop.ends.any fun d => d.isOf s.padOfUnit pad) && m.hop.tok.isCommit && decide (m.hop.tok.cnum ≤ c))) &&
    s.events.all fun x =>
      !(x.instr.padOf s.padOfUnit == some pad) ||
        match x.instr with
        | .switchTokenCheck h => !(h.tok.isCommit && decide (h.tok.cnum ≤ c))
        | .commitTokenArrival _ _ _ t | .sinkRecord _ _ t | .reductionJoin _ _ _ t | .triggerArrival _ _ t =>
          !(t.isCommit && decide (t.cnum ≤ c))
        | _ => true

/-- A live update waits for every resident paddock, which is parked at its next complete commit as CKPT does (R367). -/
def State.parksAll (s : State) : Bool :=
  match s.update with
  | some u => !u.started
  | none => false

/-- What follows the publication of a complete commit. -/
def State.commitDone (s : State) (pad c : Nat) : State :=
  let p := s.getPad pad
  let s := s.setPad pad
    { p with
      sites := p.reports.reverse.foldl (fun m r => match r.site.or (r.cell.map cellSite) with
        | some x => amPut m r.cause x
        | none => m) p.sites
      commit := c, testAt := amPut p.testAt c (s.tests, p.cells), replays := 0, transient := false, reports := [], suspects := []
      arrSnaps := amPut p.arrSnaps c (p.conf.units.map fun x => (x.1, (s.getU x.1.key).arrivals)) }
  let keep := if s.isExternal pad then (s.getPad pad).tested else c
  let s := s.updPad pad fun p => p.dropBelow keep
  if p.ckpt || s.parksAll then
    let s := s.updPad pad fun p => { p with ckpt := false, phase := .parking }
    s.abortMarks pad
  else (s.askCommit pad).checkDone pad

/-- COMMIT_COMPLETE: the write logs of the commit are translated whole, then published in sequence order; external sinks and
records on external pages are held. -/
def execCommitComplete (pad : Nat) (s : State) : Out :=
  s.whileRunning pad (.commitComplete pad) fun s =>
    let p := s.getPad pad
    let c := p.commit + 1
    if p.phase != .running || !p.allAligned || !s.snapshotsHeld pad c then .next s
    else
      let jobs := p.sinks.filterMap fun (k, st) =>
        match p.conf.sinks[k]? with
        | some sc => if sc.ext then none else some (k, sc, st, (upTo c st.log).map (·.2))
        | none => none
      let (s, ws, r) := State.translateLogs p jobs (s.pageCame pad 0) []
      match ws, r with
      | some ws, _ =>
        let s := ws.foldl (fun s (_, sc, l) =>
          (l.filter fun x => !x.2.any (·.ext)).foldl (fun s (x, parts) => s.writeRecord pad sc x parts) s) s
        let heldOf (k : Nat) : List (Nat × Record) :=
          match ws.find? fun x => x.1 == k with
          | some (_, _, l) => (l.filter fun x => x.2.any (·.ext)).map fun x => (c, x.1)
          | none => upTo c ((amGet p.sinks k {}).log)
        let s := s.updPad pad fun p =>
          { p with sinks := p.sinks.map fun (k, st) => (k, { st with log := after c st.log, held := st.held ++ heldOf k }) }
        .next (s.commitDone pad c)
      | none, .wait va m r => .next ((s.awaitPage pad 0 va true m r).post (.commitComplete pad))
      | none, .fault f => .next (s.raise pad f)
      | none, .ok _ => .next s

/-- An earlier store of a list, which waits for its gate or is not visible yet, behind which a store is to come, in its stream (R221), in the
node's update order (R222, R243) or in the SC order (R224). -/
def waitsBehind (p : Pad) (c : Nat) (upd : List Nat) (l : List NodeStore) (x : NodeStore) : Bool :=
  (l.takeWhile (· != x)).any fun y =>
    (!y.visible || (y.gatedPart && decide (c < p.gateAt y.commit))) &&
      ((y.slot == x.slot && y.completion.tag == x.completion.tag) || (upd.contains y.slot && upd.contains x.slot) || (0 < y.scPos && 0 < x.scPos))

/-- The held stores of a node that leave when the tested commit is c, and of a paddock its STSCs before scEnd. -/
def storesDue (p : Pad) (c scEnd : Nat) (u : UnitSt) : List NodeStore :=
  u.stores.filter fun x =>
    x.visible && decide (p.gateAt x.commit ≤ c) && !waitsBehind p c (updSlots u.conf) u.stores x && (x.scPos == 0 || x.scPos < scEnd)

/-- The place in a paddock's SC order of the first STSC that cannot leave yet. -/
def State.scEnd (s : State) (pad c : Nat) : Nat :=
  let p := s.getPad pad
  (((s.scHeld pad).find? fun x => x.gatedPart && (!x.visible || decide (c < p.gateAt x.commit))).map (·.scPos)).getD (p.scCount + 1)

/-- The stores of a paddock that leave when the tested commit is c, with their nodes: in the SC order, else each node's in its own. -/
def State.leaving (s : State) (pad c : Nat) : List (Nat × NodeStore) :=
  let us := s.units.filter fun (_, u) => u.live && u.pad == pad && !u.stores.isEmpty
  scSorted (fun (x : Nat × NodeStore) => x.2.scPos)
    (us.flatMap fun (key, u) => (storesDue (s.getPad pad) c (s.scEnd pad c) u).map fun x => (key, x))

/-- One held update is performed: what it makes of the element, and whether it met an exception or saturated. -/
def State.putUpd (acc : State × Bool × Bool) (h : HeldUpd) : State × Bool × Bool :=
  let (s, exc, sat) := acc
  let y := updEl h.upd (ofBytes (s.readMem h.sp h.addr 4)) h.v
  (s.storeMem h.sp h.addr (toBytes 4 y.bits), exc || y.exc, sat || y.sat)

/-- A held store leaves: its bytes are written, its updates performed; its completion token has their exceptions. -/
def State.leaveStore (s : State) (key : Nat) (x : NodeStore) : State :=
  let (s, exc, sat) := x.ups.foldl State.putUpd (s.putWrites x.held, false, false)
  let t := { x.completion with exc := x.completion.exc || exc, sat := x.completion.sat || sat }
  s.updU key fun u => { u with stores := u.stores.map fun z => if z == x then { x with held := [], ups := [], completion := t } else z }

/-- EXTERNAL_PUBLISH: records and stores of tested commits leave. -/
def execExternalPublish (pad : Nat) (s : State) : Out :=
  s.whileRunning pad (.externalPublish pad) fun s =>
    let p := s.getPad pad
    let c := s.testedCommit p
    if p.phase != .running then .next s
    else
      let jobs := p.sinks.filterMap fun (k, st) =>
        match p.conf.sinks[k]? with
        | some sc => some (k, sc, st, (upTo c st.held).map (·.2))
        | none => none
      let (s, ws, r) := State.translateLogs p jobs (s.pageCame pad 1) []
      match ws, r with
      | some ws, _ =>
        let s := ws.foldl (fun s (_, sc, l) => l.foldl (fun s (x, parts) => s.writeRecord pad sc x parts) s) s
        let s := s.updPad pad fun p =>
          { p with tested := c, sinks := p.sinks.map fun (k, st) => (k, { st with held := after c st.held }) }
        let l := s.leaving pad c
        let s := l.foldl (fun s x => s.leaveStore x.1 x.2) s
        let s := ((l.map (·.1)).eraseDups).foldl (fun s key => (s.wake key).drainNode key) s
        .next ((s.updPad pad fun p => p.dropBelow c).checkDone pad)
      | none, .wait va m r => .next ((s.awaitPage pad 1 va true m r).post (.externalPublish pad))
      | none, .fault f => .next (s.raise pad f)
      | none, .ok _ => .next s

/-! ## Node stores (R241) -/

/-- An earlier store of the stream waits for its gate (R384): what follows it in the stream becomes visible behind it (R221;
notes/assumptions/103.md). -/
def heldBefore (l : List NodeStore) (x : NodeStore) : Bool :=
  (l.takeWhile (· != x)).any fun y => y.slot == x.slot && y.completion.tag == x.completion.tag && y.gatedPart

/-- The writes of a store are performed, or held behind those of their stream that are. -/
def State.showStore (s : State) (key : Nat) (x : NodeStore) : State :=
  let behind := heldBefore (s.getU key).stores x
  let s := if behind then s else s.putWrites x.writes
  let y := { x with writes := [], held := (if behind then x.writes else []) ++ x.held, visible := true }
  s.updU key fun u => { u with stores := u.stores.map fun z => if z == x then y else z }

/-- Held stores whose gate is open, and which waited for a store to be visible, leave. -/
def State.publishDue (s : State) (pad : Nat) : State :=
  let l := s.leaving pad (s.getPad pad).tested
  if l.any fun x => x.2.gatedPart then s.post (.externalPublish pad) else s

/-- NODE_STORE_VISIBLE: the oldest stores of the slot that are not visible are performed; behind a store of their stream that is held they are
held too. -/
def execNodeStoreVisible (node slot : Nat) (s : State) : Out :=
  let key := Loc.key (.node node)
  let u := s.getU key
  s.whileRunning u.pad (.nodeStoreVisible node slot) fun s =>
    match u.stores.find? fun x => x.slot == slot && !x.visible with
    | none => .next s
    | some x => .next ((((s.showStore key x).drainNode key).publishDue u.pad).checkDone u.pad)

/-! ## The wave (R33) -/

/-- The seeds of a paddock start, and the SC token at the first node of its ring (R224). -/
def State.startSeeds (s : State) (pad : Nat) : State :=
  let p := s.getPad pad
  let ks := (List.range p.conf.seeds.length).filter fun k => !(p.conf.seed k).loc && !(amGet p.seeds k {}).closed
  let s := s.postAll (ks.map fun k => Event.mk (.seedTokenInject pad k) {})
  -- a source sends the tokens of its replay window that it has gone back behind again (R289)
  let s := (List.range p.conf.seeds.length).foldl (fun s k =>
    let st := amGet (s.getPad pad).seeds k {}
    let again := st.replay.filter fun x => decide (st.next ≤ x.1)
    let s := s.updPad pad fun p => { p with seeds := amPut p.seeds k { st with replay := st.replay.filter fun x => decide (x.1 < st.next) } }
    again.foldl (fun s x => s.sourceSend pad k x.2) s) s
  match p.conf.scRing[p.ringPos]? with
  | some n => s.post (.scRingToken pad n)
  | none => s

/-- CONFIG_COMPLETE_WAVE reaches a unit; when it has reached all, the seeds enter. -/
def execConfigCompleteWave (pad : Nat) (u : Loc) (s : State) : Out :=
  let p := s.getPad pad
  if !(p.waveLeft.contains u) then .next s
  else
    let s := s.updU u.key fun x => { x with waved := true }
    let s := s.updPad pad fun p => { p with waveLeft := p.waveLeft.erase u }
    let s := match u with
      | .cell i _ => s.post (.handlerSelect i)
      | .node _ => s
    if (s.getPad pad).waveLeft.isEmpty && p.phase == .loading then
      let s := s.updPad pad fun p => { p with phase := .running }
      .next ((s.startSeeds pad).checkDone pad)
    else .next s

/-- SC_RING_TOKEN: the node may perform up to 8 SC accesses; with none to perform, the token moves on. -/
def execScRingToken (pad node : Nat) (s : State) : Out :=
  s.whileRunning pad (.scRingToken pad node) fun s =>
    let p := s.getPad pad
    let key := Loc.key (.node node)
    if p.phase != .running || nthD p.conf.scRing p.ringPos node != node then .next s
    else
      let s := (s.updU key fun u => { u with scBudget := 8 }).wake key
      let u := s.getU key
      if s.ready.any fun r => r.1 == Loc.node node && (scSlots u.conf).contains r.2.1 then .next s
      else .next ((s.updU key fun u => { u with scBudget := 0 }).passScToken pad)

end Sys2Proof.Machine
end

