-- ==== Sys2Proof/Machine/Engine.lean ====
section
/-!
DEFINITION. Engine commands at issue: CPY, GATH, SCAT, COLL, QFENCE, the signal words (R312 to R316), ENQ (R320), and the
tile-table words TSET and TQRY (R317).
-/

namespace Sys2Proof.Machine

/-- Engine commands that a firing holds for a queue. -/
def heldEngine (q : Nat) (held : List Held) : Nat :=
  countIf (fun h => match h with | .engine x _ => x == q | _ => false) held

/-- A command beyond the demand declared for its queue traps ENGINE_FULL (R313). -/
def holdEngine (s : State) (q : BitVec 4) (op : EngOp) : WordEnd :=
  let f := s.core.firing
  if amGet f.engd q.toNat 0 ≤ heldEngine q.toNat f.held then .trap .engineFull 0
  else .done (s.hold (.engine q.toNat op))

/-- The configuration whose tile table an engine address names: on its own cell the issuing one, on another row the one that the
context holds there. -/
def State.engUnit (s : State) (cell entry ctx : Nat) (e : EngAddr) : Option Nat :=
  let target := foldOf cell * 12 + e.row
  if target == cell then some (Loc.key (.cell cell entry))
  else (s.units.find? fun (key, u) => isCellKey key && idxOf key == target && u.live && u.ctx == ctx).map (·.1)

/-- The tile that an engine address names. -/
def State.engTile (s : State) (e : EngAddr) : Option Tile :=
  let f := s.core.firing
  match s.engUnit s.curCore f.entry f.ctx e with
  | some key => amGet? (s.getU key).tiles e.addr
  | none => none

def State.engOk (s : State) (e : EngAddr) (n : Nat) : Bool :=
  s.engInBounds s.curCore s.core.firing.entry s.core.firing.ctx s.core.firing.pad e n

/-- CPY (R313). A tile moves whole, and the length is then ignored. -/
def cpyBody (s : State) (q : BitVec 4) (a b : RegNum) (clr : Bool) : WordEnd :=
  let k := s.core
  let len := (k.reg (a + 1)).toNat
  match (if a = 31 then none else parseEng (k.reg a)), parseEng (k.reg b) with
  | some src, some dst =>
    let st := if src.space == 5 then s.engTile src else none
    let dt := if dst.space == 5 then s.engTile dst else none
    let srcOk := src.space != 5 || (match st with | some t => t.role == .acc || t.role == .plain | none => false)
    let dstOk := dst.space != 5 || (match dt with | some t => t.role == .op || t.role == .plain | none => false)
    let clrOk := !clr || (match st with | some t => t.role == .acc | none => false)
    let opDst := match dt with | some t => t.role == .op | none => false
    let tile := src.space == 5 || dst.space == 5
    let n := match st, dt with
      | some t, _ => t.size
      | none, some t => t.size
      | none, none => len
    let w := (k.reg (b + 1)).toNat
    if !srcOk || !dstOk || !clrOk || (opDst && (b = 31 || w / 2 ^ 40 == 0)) || (!tile && 2 ^ 32 ≤ len) then
      .trap .reservedField 0
    else if (!tile && len % 8 ≠ 0) || (src.space != 5 && src.addr % 8 ≠ 0) || (dst.space != 5 && dst.addr % 8 ≠ 0) then
      .trap .misaligned 0
    else if (src.space != 5 && !s.engOk src n) || (dst.space != 5 && !s.engOk dst n) then .trap .spaceBounds 0
    else holdEngine s q (.cpy src dst n (w % 2 ^ 40) (w / 2 ^ 40) clr)
  | _, _ => .trap .reservedField 0

def execCpy (q : BitVec 4) (a b : RegNum) (clr : Bool) (g : Guard) (s : State) : Out :=
  .next (runWord s g [a, a + 1, b] [] true fun s => cpyBody s q a b clr)

/-- Element size of GATH and SCAT, by its code. -/
def elemSize (v : Nat) : Option Nat :=
  match bitsOf v 33 32 with
  | 0 => some 8
  | 1 => some 64
  | 2 => some 1024
  | _ => none

/-- GATH and SCAT (R313): `dense` is the side whose elements follow one another, `sparse` the base of the indexed side. -/
def gathBody (s : State) (q : BitVec 4) (dense sparse list : DWord) (cs : Nat) (regsOk : Bool)
    (op : EngAddr → EngAddr → EngAddr → Nat → Nat → EngOp) : WordEnd :=
  match parseEng dense, parseEng sparse, parseEng list, elemSize cs with
  | some d, some x, some l, some e =>
    let count := cs % 2 ^ 32
    if !regsOk || d.space == 5 || x.space == 5 || !(l.space ≤ 1) || count == 0 || 65536 < count || 2 ^ 34 ≤ cs then
      .trap .reservedField 0
    else if d.addr % e ≠ 0 || x.addr % e ≠ 0 || l.addr % 4 ≠ 0 then .trap .misaligned 0
    else if !s.engOk d (count * e) || !s.engOk x 0 || !s.engOk l (count * 4) then .trap .spaceBounds 0
    else holdEngine s q (op d x l count e)
  | _, _, _, _ => .trap .reservedField 0

def execGath (q : BitVec 4) (a b : RegNum) (g : Guard) (s : State) : Out :=
  .next (runWord s g [a, a + 1, b, b + 1] [] true fun s =>
    let k := s.core
    gathBody s q (k.reg b) (k.reg a) (k.reg (a + 1)) (k.reg (b + 1)).toNat (a ≠ 31 && b ≠ 31)
      fun d x l n e => .gath x l d n e)

def execScat (q : BitVec 4) (a b : RegNum) (g : Guard) (s : State) : Out :=
  .next (runWord s g [a, a + 1, b, b + 1] [] true fun s =>
    let k := s.core
    gathBody s q (k.reg a) (k.reg b) (k.reg (b + 1)) (k.reg (a + 1)).toNat (a ≠ 31 && b ≠ 31)
      fun d x l n e => .scat d x l n e)

/-- COLL (R314). A tile, a length register with bits above the address range, or a root that is no fold of the paddock is taken as a
reserved content (notes/assumptions/15.md); both addresses must be multiples of 8 (notes/assumptions/131.md). -/
def execColl (q : BitVec 4) (a b : RegNum) (op : CollOp) (g : Guard) (s : State) : Out :=
  .next (runWord s g [a, a + 1, b, b + 1] [] true fun s =>
    let k := s.core
    let len := (k.reg (a + 1)).toNat
    let root := (k.reg (b + 1)).toNat % 32
    match parseEng (k.reg a), parseEng (k.reg b) with
    | some src, some dst =>
      if a = 31 || b = 31 || src.space == 5 || dst.space == 5 ||
          (s.getPad k.firing.pad).conf.folds.length ≤ root then .trap .reservedField 0
      else if len % 64 ≠ 0 || src.addr % 8 ≠ 0 || dst.addr % 8 ≠ 0 then .trap .misaligned 0
      else if !s.engOk src len || !s.engOk dst len then .trap .spaceBounds 0
      else holdEngine s q (.coll op src dst len root)
    | _, _ => .trap .reservedField 0)

/-- QFENCE: bit i of the mask names queue 8 × q[3] + i (R42); it takes no queue entry. -/
def execQfence (q : BitVec 4) (m : BitVec 8) (g : Guard) (s : State) : Out :=
  .next (runWord s g [] [] false fun s =>
    let qs := ((List.range 8).filter fun i => m.getLsbD i).map (· + 8 * (q.toNat / 8))
    .done (s.hold (.qfence q.toNat qs)))

/-- The signal words (R316): op 0 SIGINC, 1 SIGDEC, 2 SIGSET. -/
def sigWord (s : State) (op : Nat) (q : BitVec 4) (a b : RegNum) (g : Guard) : Out :=
  .next (runWord s g [a, b] [] true fun s =>
    let k := s.core
    match parseEng (k.reg a) with
    | some e =>
      if e.space != 1 && e.space != 3 then .trap .reservedField 0
      else if e.addr % 8 ≠ 0 then .trap .misaligned 0
      else if !s.engOk e 8 then .trap .spaceBounds 0
      else holdEngine s q (.sig op e (if b = 0 && op != 2 then 1 else k.reg b))
    | none => .trap .reservedField 0)

def execSiginc (q : BitVec 4) (a b : RegNum) (g : Guard) (s : State) : Out := sigWord s 0 q a b g
def execSigdec (q : BitVec 4) (a b : RegNum) (g : Guard) (s : State) : Out := sigWord s 1 q a b g
def execSigset (q : BitVec 4) (a b : RegNum) (g : Guard) (s : State) : Out := sigWord s 2 q a b g

/-- ENQ (R320): an L address of any row, or an F address, of a whole 64-byte packet. -/
def execEnq (q : BitVec 4) (a b : RegNum) (g : Guard) (s : State) : Out :=
  .next (runWord s g [a, b] [] true fun s =>
    let k := s.core
    match parseEng (k.reg a) with
    | some e =>
      if !(e.space ≤ 1) || 64 ≤ (k.reg b).toNat then .trap .reservedField 0
      else if e.addr % 64 ≠ 0 then .trap .misaligned 0
      else if !s.engOk e 64 then .trap .spaceBounds 0
      else holdEngine s q (.enq e (k.reg b).toNat)
    | none => .trap .reservedField 0)

/-! ## Tile entries (R173, R317) -/

def TileState.code : TileState → Nat
  | .empty => 0
  | .filling => 1
  | .ready => 2
  | .draining => 3

def TileRole.code : TileRole → Nat
  | .op => 0
  | .acc => 1
  | .state => 2
  | .plain => 3

def tyNat : Ty → Nat
  | .f32 => 0
  | .f64 => 1
  | .bf16x2 => 2
  | .f16x2 => 3
  | .f8e4x4 => 4
  | .f8e5x4 => 5
  | .i32 => 6
  | .i8x4 => 7

def consumerNat (c : Consumer) : Nat := c.slot.toNat * 4 + c.fld.toNat

/-- Words W0 to W2 of a tile-table entry (R173). -/
def Tile.word (t : Tile) (w : Nat) : Nat :=
  match w with
  | 0 =>
    t.st.code * 2 ^ 62 + b2n t.err * 2 ^ 61 + b2n t.exc * 2 ^ 60 + b2n t.sat * 2 ^ 59 + t.role.code * 2 ^ 57 +
      tyNat t.ty * 2 ^ 54 + b2n t.alt * 2 ^ 53 + b2n t.tb * 2 ^ 52 + t.ring % 8 * 2 ^ 49 + t.pos % 16 * 2 ^ 44 +
      t.base % 2 ^ 11 * 2 ^ 33 + t.kcount % 2 ^ 12 * 2 ^ 21 + t.kdone % 2 ^ 12 * 2 ^ 9
  | 1 => t.lo % 2 ^ 40 * 2 ^ 24 + t.seq % 2 ^ 24
  | _ => t.hi % 2 ^ 40 * 2 ^ 24 + consumerNat t.c0 * 2 ^ 15 + consumerNat t.c1 * 2 ^ 6

/-- The selector of TSET and TQRY: tile in [5:0], word in [9:8] (R317). -/
def tileSel (v : DWord) : Option (Nat × Nat) :=
  let x := v.toNat
  if x < 2 ^ 10 && bitsOf x 7 6 == 0 && bitsOf x 9 8 < 3 then some (bitsOf x 5 0, bitsOf x 9 8) else none

/-- A consumer as R47 and R48 allow it: field 11 only with slot 0, an output port only with field 00. -/
def consumerOk (c : Nat) : Bool :=
  let slot := c / 4
  let f := c % 4
  if f == 3 then slot == 0 else slot < 0x70 || f == 0

/-- What TSET may write to a word of a tile (R317). -/
def tsetOk (t : Tile) (w x : Nat) : Bool :=
  match t.role, w with
  | .acc, 0 => x &&& ((2 ^ 12 - 1) * 2 ^ 21) == x && bitsOf x 32 21 != 0
  | .acc, 2 => x &&& ((2 ^ 18 - 1) * 2 ^ 6) == x && consumerOk (bitsOf x 23 15) && consumerOk (bitsOf x 14 6)
  | .plain, 1 => x % 2 ^ 24 == 0
  | .plain, 2 => x % 2 ^ 24 == 0
  | _, _ => false

def execTset (a b : RegNum) (g : Guard) (s : State) : Out :=
  .next (runWord s g [a, b] [] true fun s =>
    let k := s.core
    match tileSel (k.reg a) with
    | some (t, w) =>
      if tsetOk (amGet s.curUnit.tiles t {}) w (k.reg b).toNat then .done (s.hold (.tset t w (k.reg b)))
      else .trap .reservedField 0
    | none => .trap .reservedField 0)

/-- TQRY reads the entry as it stands at issue. -/
def execTqry (a b : RegNum) (g : Guard) (s : State) : Out :=
  .next (runWord s g [a] [] true fun s =>
    let k := s.core
    match tileSel (k.reg a) with
    | some (t, w) => .done (s.setCore (k.setReg b (BitVec.ofNat 64 ((amGet s.curUnit.tiles t {}).word w))))
    | none => .trap .reservedField 0)

end Sys2Proof.Machine
end

