-- ==== Sys2Proof/Machine/Legal.lean ====
section
/-!
DEFINITION. What CFGLD and MINT reject of a unit (R35, R48 to R51, R71, R77, R78, R141, R142, R146, R147, R152, R165, R171 to R190, R193,
R198, R236, R237, R239, R242, R243, R245, R246, R251, R343, R356).
-/

namespace Sys2Proof

/-- Operations whose md[18] is md.alt. -/
def Instr.alt : Instr → Bool
  | .vcmp _ | .vbcast _ | .vextr _ | .vins _ | .vlshift _ | .vred _ | .scan _ | .carry _ => false
  | i => if i.isNodeOp then false else
    match i.ew? with
    | some e => altBit e.md
    | none => false

/-- Operations that accumulate, and must have acc set (R147). -/
def Instr.accumulates : Instr → Bool
  | .vmac _ | .vfmak _ | .vimac _ | .window _ => true
  | _ => false

/-- Operations whose r is always a constant (R165, R239, R245). -/
def Instr.constRight : Instr → Bool
  | .split _ | .delay _ | .window _ | .close _ | .astr _ | .sbar _ => true
  | _ => false

/-- Matrix and tile operations: what is wrong with their slots is reason 3 of MINT. -/
def Instr.isTileOp : Instr → Bool
  | .mma _ | .mmab _ | .mmaw _ | .tclr _ | .tcvt _ | .ttrn _ | .trow _ | .tfill _ => true
  | _ => false

/-- Result networks that an entry allows; GATE's is fixed by what feeds it. VSEL, MERGE and CARRY name none: they have 00 and 11
(notes/assumptions/114.md). -/
def Instr.netOk (i : Instr) (net : Nat) : Bool :=
  match i with
  | .steer _ | .compact _ | .expand _ | .zip _ | .unzip _ | .rsend _ | .tear _ => net == 0
  | .vextr _ => net == 1
  | .vany _ | .cand _ | .cor _ => net == 2
  | .vred _ => net != 2
  | .gate _ => true
  | i => if i.isTileOp || i.isNodeOp then net == 0 else net == 0 || net == 3

end Sys2Proof

namespace Sys2Proof.Machine

/-! ## Headers (R50) -/

/-- A field that a network feeds or may feed: not a constant. -/
def fieldOpen (i : Instr) (h : Hdr) : Fld → Bool
  | .l => h.csel != 1 && !i.isMatrix
  | .r => i.readsR && h.csel != 2 && !i.isMatrix
  | .p => if i.readsP then h.csel != 3 else h.csel != 3 || i.hasParam

/-- INTERP needs a field of elements of a floating type that is not blk (R71): no predicate, no described window's block, no alternate. -/
def interpOk (c : UnitConf) (i : Instr) (h : Hdr) (f : Fld) : Bool :=
  let ty := operandTy i h
  let alt := match i with
    | .vcvt _ => false
    | .tclr t | .tcvt t | .ttrn t | .tfill t => altBit t.md
    | i => i.alt
  let elements := match i with
    | .cand _ | .cor _ => false
    | .gate _ => h.net != 2
    | .ldn e | .stn e | .ldsc e | .stsc e | .updn e => !(amGet c.windows (nodeWin e) {}).described
    | _ => true
  (f != .p || i.readsP) && elements && (ty.isF || ty.isF8) && !alt

def gapFieldOk (c : UnitConf) (slot : Nat) (i : Instr) (h : Hdr) (f : Fld) : Bool :=
  let g := h.gap f
  if (netFields c slot i h).contains f then
    g ≤ 2 && (g != 1 || interpOk c i h f) && (g == 2 || 1 ≤ h.dep)
  else g == 0

/-- What single operations ask of the gap rules. -/
def gapOpOk (i : Instr) (h : Hdr) : Bool :=
  match i with
  | .merge _ | .muster _ => h.gapL == 0 && h.gapR == 0
  | .mma _ | .mmab _ | .mmaw _ => h.gapL == 2 && (h.gapR == 0 || h.gapR == 2)
  | .tear _ => h.gapL == 2 && h.gapR == 2
  | _ => true

/-- Elements of a token (R152). -/
def tyCount (ty : Ty) : Nat :=
  match ty with
  | .f64 => 8
  | .f32 | .i32 => 16
  | .bf16x2 | .f16x2 => 32
  | _ => 64

/-- Elements of VCVT's destination: ty i32 with md.alt is i16x2. -/
def cvtCount (e : EW) : Nat := if e.ty == .i32 && altBit e.md then 32 else tyCount e.ty

/-- The choice of a constant. VCVT's constant is a part number and feeds no field. -/
def cselOk (i : Instr) (h : Hdr) : Bool :=
  (h.csel != 0 || h.kreg == 0) &&
    match i with
    | .vcvt e => h.csel == (if cvtCount e == tyCount h.stype then 0 else 2)
    | .scan _ | .lrec _ | .ema _ | .fir _ | .carry _ | .tear _ => h.csel == 3
    | .bmm4 _ => h.csel == 3 || (h.csel == 2 && h.kreg != 31)
    | .mma _ | .mmab _ | .mmaw _ => h.csel == 0 || h.csel == 3
    | .muster _ | .xlate _ => h.csel == 0
    | i => if i.constRight then h.csel == 2 else h.csel != 2 || i.readsR

def stypeOk (i : Instr) (h : Hdr) : Bool :=
  match i with
  | .vcvt e => !(e.ty == h.stype && !altBit e.md)
  | _ => h.stype == .f32

/-- The network that feeds a field, when one does. -/
def UnitConf.fedBy (c : UnitConf) (slot : Nat) (f : Fld) : Option Net :=
  (c.fed.find? fun x => x.1 == slot && x.2.1 == f).map (·.2.2)

/-- GATE's net names the network that feeds l (R170). Where l is a constant it may be 00 or 11 (notes/assumptions/125.md). -/
def gateOk (c : UnitConf) (slot : Nat) (i : Instr) (h : Hdr) : Bool :=
  match i with
  | .gate _ =>
    match c.fedBy slot .l with
    | some .vector => h.net == 0 || h.net == 3
    | some .scalar => h.net == 1
    | some .control => h.net == 2
    | none => h.csel == 1 && (h.net == 0 || h.net == 3)
  | _ => true

/-- A slot header (R50). -/
def headerOk (c : UnitConf) (slot : Nat) (i : Instr) (w : Word) : Bool :=
  let h := Hdr.ofWord w
  w.toNat % 128 == 0 && (gapFieldOk c slot i h .l) && (gapFieldOk c slot i h .r) && (gapFieldOk c slot i h .p) && gapOpOk i h &&
    cselOk i h && stypeOk i h && (h.acc == i.accumulates) && i.netOk h.net && gateOk c slot i h && (!i.isNodeOp || h.kreg < 8)

/-! ## Feeds and consumers (R48, R141, R146, R182) -/

/-- Every field that the operation needs is fed, and no field is fed that it does not read. -/
def feedsOk (c : UnitConf) (slot : Nat) (i : Instr) (h : Hdr) : Bool :=
  (c.fed.all fun x => x.1 != slot || fieldOpen i h x.2.1) &&
    (i.isMatrix || (netFields c slot i h).all fun f => f == .p && !i.readsP || (c.fedBy slot f).isSome)

/-- A slot holds EMPTY: nothing was written to it, or both its words are zero (R48). A word that is wrong is not EMPTY. -/
def UnitConf.emptyAt (c : UnitConf) (slot : Nat) : Bool :=
  match amGet? c.slots slot with
  | some (w, h) => w == 0 && h == 0
  | none => true

/-- One consumer of a result on network `net`. A field p takes control results; VSEL's takes a vector result (R141, R146). What names a slot whose
own word is wrong is not at fault for it (R35, R48). -/
def consumerAt (c : UnitConf) (net : Nat) (k : Consumer) : Bool :=
  k.fld == 3 || 0x70 ≤ k.slot.toNat ||
    match c.slotAt k.slot.toNat with
    | some (i, _) => k.fld != 2 || 2 ≤ net || (net == 0 && i.readsP)
    | none => !c.emptyAt k.slot.toNat

def consumersOk (c : UnitConf) (i : Instr) (h : Hdr) : Bool :=
  match i.ew? with
  | some e =>
    consumerAt c h.net e.c0 && consumerAt c h.net e.c1 &&
      match i with
      | .rsend _ => e.c0.fld == 0 && 0x70 ≤ e.c0.slot.toNat
      | .tear _ =>
        match c.slotAt e.c0.slot.toNat with
        | some (.muster _, _) => e.c0.fld == 1
        | some _ => false
        | none => e.c0.fld == (if 0x70 ≤ e.c0.slot.toNat then 0 else 1)
      | _ => true
  | none => true

/-! ## Constants and parameter registers -/

/-- The upper lane of a 40-bit quantity has no bit above [7:0] (R165). -/
def q40Ok (k : BitVec 512) (i : Nat) : Bool := laneAt k (i + 1) < 256

def bmm4Ok (k : BitVec 512) : Bool :=
  let x := laneAt k 0
  x &&& 0x07070707 == x && (List.range 4).all fun g => bitsOf x (8 * g + 2) (8 * g) ≤ 4

/-- Lanes of a parameter register that may hold something (R193): rv lanes for every operation but CARRY, which has none, alpha lanes for EMA
alone (notes/assumptions/92.md). -/
def recLanes (i : Instr) (ty : Ty) : List Nat :=
  let rv := if ty == .f64 then [2, 3] else [1]
  let al := if ty == .f64 then [4, 5] else [4]
  match i with
  | .carry _ => [0]
  | .ema _ => 0 :: rv ++ al
  | _ => 0 :: rv

def lanesZeroBut (k : BitVec 512) (l : List Nat) : Bool := (List.range 16).all fun j => l.contains j || laneAt k j == 0

/-- The state tile that a recurrence slot names has the slot's type (R175, R193). -/
def stateTileOk (c : UnitConf) (ty : Ty) (n : Nat) : Bool :=
  match amGet? c.tiles n with
  | some t => t.role == .state && t.ty == ty && !t.alt
  | none => false

def recOk (c : UnitConf) (i : Instr) (e : EW) (h : Hdr) (k : BitVec 512) : Bool :=
  let x := laneAt k 0
  let tile := x % 64
  let chain := bitOf x 8
  let t := bitsOf x 20 16
  let fir := match i with
    | .fir _ => true
    | _ => false
  x &&& (0x3F + 0x100 + 0x1F0000) == x && lanesZeroBut k (recLanes i e.ty) &&
    (if fir then 1 ≤ t && t ≤ (if e.ty == .f64 then 8 else 16) else t == 0) && (chain || fir || tile == 0) &&
    (!(chain || fir) || stateTileOk c e.ty tile) && (!chain || amGet c.tags h.tsp 1 ≤ 7)

/-- State tiles of chained recurrence slots, with the slots. -/
def chainTiles (c : UnitConf) : List (Nat × Nat) :=
  c.slots.filterMap fun (slot, _) =>
    match c.slotAt slot with
    | some (.scan _, h) | some (.lrec _, h) | some (.ema _, h) | some (.fir _, h) =>
      let x := laneAt (c.constTok h.kreg).payload 0
      if bitOf x 8 then some (slot, x % 64) else none
    | _ => none

/-- CARRY's parameter names the tile of a chained slot (R198). The size of its own tag space is not checked (notes/assumptions/127.md). -/
def carryOk (c : UnitConf) (k : BitVec 512) : Bool :=
  laneAt k 0 < 64 && lanesZeroBut k [0] && (chainTiles c).any fun x => x.2 == laneAt k 0

def tearOk (c : UnitConf) (k : BitVec 512) : Bool :=
  let p := tearParamOf k
  let x := laneAt k 0
  x &&& 0x137 == x && 1 ≤ p.k && p.k ≤ 4 && p.policy ≤ 2 && q40Ok k 1 && 1 ≤ p.w && p.w ≤ 2 ^ 40 - 2 && 1 ≤ p.d && p.d ≤ 16 &&
    lanesZeroBut k [0, 1, 2, 3, 4, 5, 6, 7] && c.tear.length == p.d &&
    p.cap.zipIdx.all fun (n, j) => if j < p.d then 1 ≤ n && n ≤ 16 else n == 0

/-- SBAR names slots other than itself, none of them ASTR or XLATE (R245). -/
def sbarOk (c : UnitConf) (slot : Nat) (k : BitVec 512) : Bool :=
  laneAt k 0 < 65536 && lanesZeroBut k [0] && (List.range 16).all fun n => !bitOf (laneAt k 0) n ||
    (n != slot && match c.slotAt n with
      | some (.astr _, _) | some (.xlate _, _) => false
      | _ => true)

/-- What an operation asks of its constant. -/
def constOk (c : UnitConf) (slot : Nat) (i : Instr) (h : Hdr) : Bool :=
  let k := (c.constTok h.kreg).payload
  match i with
  | .span _ => h.csel != 2 || (q40Ok k 0 && q40Ok k 2)
  | .split _ | .window _ => q40Ok k 0 && 1 ≤ q40 k 0 && q40 k 0 ≤ 2 ^ 40 - 2
  | .delay _ => q40Ok k 0 && q40 k 0 ≤ 2 ^ 40 - 2
  | .close _ => q40Ok k 0 && 1 ≤ q40 k 0 && q40 k 0 ≤ 2 ^ 40 - 2
  | .vcvt e =>
    h.csel == 0 || (laneAt k 0 < 8 &&
      laneAt k 0 < max (cvtCount e) (tyCount h.stype) / min (cvtCount e) (tyCount h.stype))
  | .bmm4 _ => bmm4Ok (if h.csel == 3 then k else (c.constTok (h.kreg + 1)).payload)
  | .scan e | .lrec e | .ema e | .fir e => recOk c i e h k
  | .carry _ => carryOk c k
  | .tear _ => tearOk c k
  | .astr _ => 1 ≤ laneAt k 1 && laneAt k 1 ≤ 4096
  | .sbar _ => sbarOk c slot k
  | _ => true

/-! ## Node slots (R237) -/

def modeOk (m : NodeMode) : Instr → Bool
  | .ldn _ | .stn _ => m != .sc
  | .updn _ => m == .ordered
  | .ldsc _ | .stsc _ => m == .sc
  | _ => true

/-- Some XLATE slot feeds a slot's l: one of the node, or one of another node through a port (R237, R356). -/
def xlateFeeds (c : UnitConf) (slot : Nat) : Bool :=
  c.physFed.contains slot || c.slots.any fun (z, _) =>
    match c.slotAt z with
    | some (.xlate e, _) => [e.c0, e.c1].any fun k => k.fld == 0 && k.slot.toNat == slot
    | _ => false

def nodeOk (c : UnitConf) (slot : Nat) (i : Instr) : Bool :=
  match i with
  | .ldn e | .stn e | .updn e | .ldsc e | .stsc e =>
    let w := amGet c.windows (nodeWin e) {}
    modeOk c.mode i && (amGet? c.windows (nodeWin e)).isSome &&
      (if w.described then e.ty == .f32 && altBit e.md else !altBit e.md || xlateFeeds c slot) &&
      match i with
      | .updn e =>
        (match w.upd with
         | some u => (e.ty == .i32 && u < 4) || (e.ty == .f32 && 4 ≤ u)
         | none => false)
      | _ => true
  | .xlate e =>
    let w := amGet c.windows (nodeWin e) {}
    (amGet? c.windows (nodeWin e)).isSome && w.sp == .m && !w.described
  | _ => true

/-- A window (R236): an M window's base is a virtual address of 56 bits, an S window lies within its slice; the base and extent of an H
window come with the LAUNCH packet. -/
def windowOk (w : Window) : Bool :=
  w.sp == .h || (w.base % 64 == 0 && 8 ≤ w.extent && w.extent ≤ 2 ^ 48 && w.extent % 8 == 0 &&
    if w.sp == .s then w.base + w.extent ≤ 2 ^ 22 else w.base < 2 ^ 56)

/-! ## Tiles and rings (R171 to R190) -/

def Tile.shapeOk (t : Tile) : Bool :=
  (!t.alt || t.ty.hasAlt) && t.base ≤ 1535 && t.base + t.size / 1024 ≤ 1536 && (t.size != 2048 || t.base % 2 == 0) && !t.err && !t.exc &&
    !t.sat && t.kdone == 0 &&
    match t.role with
    | .op => t.st == .empty && t.kcount == 0 && !(t.tb && t.alt && t.ty == .f32)
    | .acc => t.st == .empty && 1 ≤ t.kcount && t.kcount ≤ 4095 && !t.alt && !t.tb && (t.ty == .f32 || t.ty == .f64 || t.ty == .i32) &&
        t.ring == 0 && t.pos == 0
    | .state => t.st == .ready && t.kcount == 0 && !t.alt && !t.tb && (t.ty == .f32 || t.ty == .f64 || t.ty == .i32) && t.ring == 0 && t.pos == 0
    | .plain => t.st == .ready && t.kcount == 0 && t.ring == 0 && t.pos == 0 && !(t.tb && t.alt && t.ty == .f32)

/-- Emit consumers stand in accumulators only, in the form of R47. -/
def tileConsumersOk (c : UnitConf) (t : Tile) : Bool :=
  if t.role == .acc then
    t.c0.formOk && t.c1.formOk && (t.c0 != t.c1 || t.c0.fld == 3) && consumerAt c 0 t.c0 && consumerAt c 0 t.c1
  else (consumerNat t.c0 == 0 || consumerNat t.c0 == 3) && (consumerNat t.c1 == 0 || consumerNat t.c1 == 3)

def tilesApart (l : List (Nat × Tile)) : Bool :=
  match l with
  | [] => true
  | (_, t) :: rest => (rest.all fun x => !overlap (t.base * 1024) t.size (x.2.base * 1024) x.2.size) && tilesApart rest

/-- Tiles of a ring: op tiles of one type, alt and tb, each at its position. -/
def ringOk (c : UnitConf) (r : Nat) (l : List Nat) : Bool :=
  let ts := l.map fun n => amGet c.tiles n {}
  r < 8 && 1 ≤ l.length && l.length ≤ 16 && (l.all fun n => (amGet? c.tiles n).isSome) &&
    ts.zipIdx.all fun (t, i) => t.role == .op && t.ring == r && t.pos == i &&
      match ts with
      | t0 :: _ => t.ty == t0.ty && t.alt == t0.alt && t.tb == t0.tb
      | [] => true

/-- The first tile of a ring, which stands for the ring's type. -/
def UnitConf.ringHead (c : UnitConf) (r : Nat) : Option Tile :=
  match amGet c.rings r [] with
  | n :: _ => amGet? c.tiles n
  | [] => none

/-- The ring that a slot writes. -/
def writerRing (c : UnitConf) (i : Instr) : Option Nat :=
  match i with
  | .trow x => some (x.md.toNat / 2)
  | .tcvt t | .ttrn t | .tfill t => (c.rings.find? fun r => r.2.contains t.dst.toNat).map (·.1)
  | _ => none

/-- Slots of a unit with their operations. -/
def UnitConf.ops (c : UnitConf) : List (Nat × Instr) :=
  c.slots.filterMap fun (slot, _) => (c.slotAt slot).map fun x => (slot, x.1)

def ringUsesOk (c : UnitConf) : Bool :=
  c.rings.all fun (r, _) =>
    (c.ops.filter fun (_, i) => writerRing c i == some r).length ≤ 1 &&
      (c.ops.filter fun (_, i) =>
        match i with
        | .mma m | .mmab m | .mmaw m => m.ringA.toNat == r || m.ringB.toNat == r
        | _ => false).length ≤ 1

def stateUsesOk (c : UnitConf) : Bool :=
  let used := chainTiles c ++ c.slots.filterMap fun (slot, _) =>
    match c.slotAt slot with
    | some (.fir _, h) =>
      let x := laneAt (c.constTok h.kreg).payload 0
      if bitOf x 8 then none else some (slot, x % 64)
    | _ => none
  decide ((used.map (·.2)).Nodup)

def accUsesOk (c : UnitConf) : Bool :=
  decide ((c.ops.filterMap fun (_, i) =>
    match i with
    | .mma m | .mmab m | .mmaw m => some m.acc
    | _ => none).Nodup)

/-- The type of the accumulator of a matrix form (R181). -/
def accTy (ty : Ty) : Ty :=
  match ty with
  | .f64 => .f64
  | .i8x4 => .i32
  | _ => .f32

/-- Rings and accumulator of a matrix slot (R181). -/
def matrixOk (c : UnitConf) (m : MatW) (alt altB : Bool) : Bool :=
  (match c.ringHead m.ringA.toNat with
   | some t => t.ty == m.ty && t.alt == alt && !t.tb
   | none => false) &&
  (match c.ringHead m.ringB.toNat with
   | some t => t.ty == m.tyB && t.alt == altB && t.tb == m.tb
   | none => false) &&
  match amGet? c.tiles m.acc.toNat with
  | some t => t.role == .acc && t.ty == accTy m.ty
  | none => false

/-- The ring that a slot writes is ring A of no matrix slot: its tiles are B-shaped (R172). -/
def bShaped (c : UnitConf) (i : Instr) : Bool :=
  c.ops.all fun (_, j) =>
    match j with
    | .mma m | .mmab m | .mmaw m => writerRing c i != some m.ringA.toNat
    | _ => true

/-- What a slot that names tiles asks of them (R175, R181, R187 to R189). -/
def slotTilesOk (c : UnitConf) (i : Instr) : Bool :=
  let tile (n : BitVec 6) := amGet? c.tiles n.toNat
  match i with
  | .mma m => matrixOk c m false false
  | .mmab m => matrixOk c m true true
  | .mmaw m => matrixOk c m false true
  | .tclr t =>
    (match tile t.dst with
     | some x => (x.role == .acc || x.role == .state) && x.ty == t.ty && x.alt == altBit t.md
     | none => false)
  | .tcvt t =>
    (match tile t.src, tile t.dst with
     | some x, some y => (x.role == .acc || x.role == .plain) && x.ty == t.ty && !x.alt && y.role == .op && y.ty == t.tyD && !y.alt
     | _, _ => false)
  | .ttrn t =>
    (match tile t.src, tile t.dst with
     | some x, some y => x.role == .plain && !x.tb && x.ty == t.ty && x.alt == altBit t.md && y.role == .op && y.ty == t.ty &&
        y.alt == altBit t.md && bShaped c i
     | _, _ => false)
  | .tfill t =>
    (match tile t.dst with
     | some y => y.role == .op && y.ty == t.ty && y.alt == altBit t.md
     | none => false)
  | .trow e =>
    (match c.ringHead (e.md.toNat / 2) with
     | some y => y.ty == e.ty && y.alt == altBit e.md
     | none => false)
  | _ => true

/-- Every tile, ring and tile-table entry of a unit. -/
def UnitConf.tilesOk (c : UnitConf) : Bool :=
  (c.tiles.all fun (n, t) => n < 64 && t.shapeOk && tileConsumersOk c t &&
    (t.role != .op || (c.rings.filter fun r => r.2.contains n).length == 1)) && tilesApart c.tiles &&
    (c.rings.all fun (r, l) => ringOk c r l) && ringUsesOk c && stateUsesOk c && accUsesOk c

/-- Tiles, buffers and carried ranges lie in the configuration's windows, buffers outside tiles (R296, R343). -/
def UnitConf.windowsOk (c : UnitConf) : Bool :=
  let inL (a n : Nat) : Bool := c.lwin.1 ≤ a && a + n ≤ c.lwin.2
  let inF (a n : Nat) : Bool := c.fwin.1 ≤ a && a + n ≤ c.fwin.2
  (c.tiles.all fun (_, t) => inL (t.base * 1024) t.size) &&
    (c.bufs.all fun (_, b) => if b.sp == .l then inL b.base b.size && c.tiles.all fun x => !overlap b.base b.size (x.2.base * 1024) x.2.size
      else inF b.base b.size) &&
    c.actors.all fun (_, a) => a.carried.all fun x =>
      match x with
      | .buf _ => true
      | .lrange p n => inL p n
      | .frange p n => inF p n

/-! ## Rows (R77, R237, R251) -/

/-- Rows that a slot takes. MUSTER's l has a row set for each return stream that a .muster line declares (R251; notes/assumptions/130.md). -/
def slotRows (c : UnitConf) (slot : Nat) (i : Instr) (h : Hdr) : Nat :=
  let tags := amGet c.tags h.tsp 1
  let fields := match i with
    | .muster _ => ((c.muster.map (·.2)).eraseDups).length + (if c.pFed slot then 1 else 0)
    | _ => (netFields c slot i h).length
  tags * fields * (h.dep + 1)

def UnitConf.rows (c : UnitConf) : Nat :=
  (c.slots.map fun (slot, _) =>
    match c.slotAt slot with
    | some (i, h) => slotRows c slot i h
    | none => 0).sum

def UnitConf.rowsOk (c : UnitConf) (node : Bool) : Bool := c.rows ≤ (if node then 256 else 2048)

/-! ## Whole units -/

/-- At most one TEAR and one MUSTER stand in a cell (R246, R251): one above a slot of its kind is at fault (R35). -/
def UnitConf.singleOk (c : UnitConf) (slot : Nat) (i : Instr) : Bool :=
  match i with
  | .tear _ => c.ops.all fun (n, j) => slot ≤ n || match j with
      | .tear _ => false
      | _ => true
  | .muster _ => c.ops.all fun (n, j) => slot ≤ n || match j with
      | .muster _ => false
      | _ => true
  | _ => true

/-- A slot: its E-word, header and constants; an EMPTY slot has both words zero (R48, R52). -/
def UnitConf.slotOk (c : UnitConf) (node : Bool) (slot : Nat) (w h : Word) : Bool :=
  if w == 0 && h == 0 then slot < (if node then 0x10 else 0x70)
  else
  match decodeE w with
  | .error _ => false
  | .ok i =>
    let hd := Hdr.ofWord h
    i.wellFormed && i.isNodeOp == node && slot < (if node then 0x10 else 0x70) && headerOk c slot i h && feedsOk c slot i hd &&
      consumersOk c i hd && constOk c slot i hd && nodeOk c slot i && slotTilesOk c i && c.singleOk slot i

/-- Whether a word that is wrong counts as a matrix or tile slot. -/
def tileWord (w : Word) : Bool := 0x50 ≤ w.toNat / 2 ^ 25 && w.toNat / 2 ^ 25 ≤ 0x58 && w.toNat / 2 ^ 25 != 0x53

/-- The slot code that CFGLD names when it rejects the unit, or none when it is legal. What no slot word shows is named by slot 0. -/
def UnitConf.cfgIllegal (c : UnitConf) (node : Bool) : Option Nat :=
  match c.slots.find? fun (slot, w, h) => !c.slotOk node slot w h with
  | some (slot, _) => some slot
  | none =>
    if c.tilesOk && c.windowsOk && c.rowsOk node && c.windows.all fun w => windowOk w.2 then none else some 0

end Sys2Proof.Machine
end

