-- ==== Sys2Proof/Machine/Mgo.lean ====
section
/-!
DEFINITION. The graph object (R418, R419): its records, what MINT rejects of its form, and the graph that it describes.
-/

namespace Sys2Proof.Machine

/-! ## The image -/

def byteAt (bs : List Byte) (i : Nat) : Nat := (nthD bs i 0).toNat
def numAt (bs : List Byte) (off n : Nat) : Nat := ofBytes ((bs.drop off).take n)

/-- Bytes outside the listed ranges are zero. -/
def zeroBut (bs : List Byte) (l : List (Nat × Nat)) : Bool :=
  bs.zipIdx.all fun (b, i) => b == 0 || l.any fun (a, n) => a ≤ i && i < a + n

/-- An entry of the section table. -/
structure Section where
  kind : Nat
  count : Nat
  off : Nat
  len : Nat
  deriving DecidableEq, Repr, Inhabited

def sectionOf (bs : List Byte) : Section := ⟨numAt bs 0 2, numAt bs 4 4, numAt bs 8 4, numAt bs 12 4⟩

/-- Record bytes by kind; 0 for CODE, whose records differ in length. -/
def recordSize : Nat → Nat
  | 1 => 16 | 2 => 24 | 3 => 72 | 4 => 40 | 5 => 4 | 6 => 16 | 7 => 12 | 8 => 96 | 9 => 0 | 10 => 16 | 11 => 4 | 12 => 24 | 13 => 16
  | 14 => 32 | 15 => 68 | 16 => 8 | _ => 1

/-- Listed bytes of a record by kind. -/
def listedBytes : Nat → List (Nat × Nat)
  | 1 => [(0, 2), (4, 4)]
  | 2 => [(0, 3), (4, 16)]
  | 3 => [(0, 3), (4, 2), (8, 64)]
  | 4 => [(0, 12), (16, 24)]
  | 5 => [(0, 4)]
  | 6 => [(0, 6), (8, 4)]
  | 7 => [(0, 8)]
  | 8 => [(0, 7), (8, 59), (68, 4)]
  | 9 => [(0, 2), (4, 4 + 4 * 4096)]
  | 10 => [(0, 5), (8, 8)]
  | 11 => [(0, 4)]
  | 12 => [(0, 7), (8, 16)]
  | 13 => [(0, 5), (8, 8)]
  | 14 => [(0, 6), (8, 20)]
  | 15 => [(0, 68)]
  | 16 => [(0, 7)]
  | _ => [(0, 1)]

/-- Cuts n records of one size. -/
def cutRecords (size : Nat) : Nat → List Byte → List (List Byte)
  | 0, _ => []
  | n + 1, bs => bs.take size :: cutRecords size n (bs.drop size)

/-- Cuts n CODE records. -/
def cutCode : Nat → List Byte → List (List Byte)
  | 0, _ => []
  | n + 1, bs => let k := 8 + 4 * numAt bs 4 4; bs.take k :: cutCode n (bs.drop k)

def sectionRecords (img : List Byte) (x : Section) : List (List Byte) :=
  let bs := (img.drop x.off).take x.len
  if x.kind == 9 then cutCode x.count bs else cutRecords (recordSize x.kind) x.count bs

/-- Sections and header do not overlap. -/
def apart : List (Nat × Nat) → Bool
  | [] => true
  | (a, n) :: rest => (rest.all fun (b, m) => n == 0 || m == 0 || !overlap a n b m) && apart rest

/-- The form of the image (R418). -/
def imageOk (img : List Byte) (secs : List Section) : Bool :=
  let hdr := img.take 64
  let n := numAt hdr 6 2
  64 ≤ img.length && hdr.take 4 == [0x4D, 0x47, 0x4F, 0x00] && numAt hdr 4 2 == 1 && n ≤ 17 && numAt hdr 8 4 == img.length &&
    1 ≤ byteAt hdr 16 && byteAt hdr 16 ≤ 32 && numAt hdr 17 3 == 0 && 1 ≤ numAt hdr 20 4 && numAt hdr 20 4 ≤ 65536 &&
    64 ≤ numAt hdr 24 4 && numAt hdr 24 4 ≤ 65536 && 1 ≤ numAt hdr 28 4 && numAt hdr 28 4 ≤ 65535 && numAt hdr 32 32 == 0 &&
    64 + 16 * n ≤ img.length && (secs.all fun x => 1 ≤ x.kind && x.kind ≤ 17 && x.off % 8 == 0 && 64 + 16 * n ≤ x.off && x.off + x.len ≤ img.length &&
      (if x.kind == 9 then ((sectionRecords img x).map (·.length)).sum == x.len else x.len == x.count * recordSize x.kind) &&
      (sectionRecords img x).all fun r => zeroBut r (listedBytes x.kind)) &&
    decide ((secs.map (·.kind)).Nodup) && apart ((0, 64 + 16 * n) :: secs.map fun x => (x.off, x.len)) &&
    (List.range n).all fun i => numAt img (64 + 16 * i + 2) 2 == 0

/-- The sections of an image. -/
def sectionsOf (img : List Byte) : List Section :=
  (List.range (numAt img 6 2)).map fun i => sectionOf ((img.drop (64 + 16 * i)).take 16)

/-- The records of a kind. -/
def recordsOf (img : List Byte) (kind : Nat) : List (List Byte) :=
  match (sectionsOf img).find? fun x => x.kind == kind with
  | some x => sectionRecords img x
  | none => []

/-! ## The graph -/

/-- A consumer reference to a slot field of another unit. -/
structure Ref where
  unit : Nat
  slot : Nat
  fld : Nat
  deriving DecidableEq, Repr, Inhabited

/-- The reference of a 32-bit field; none of it when the unit is 0xFFFF. -/
def refOf (x : Nat) : Option Ref := if x % 2 ^ 16 == 0xFFFF then none else some ⟨x % 2 ^ 16, bitsOf x 22 16, bitsOf x 25 24⟩

def refOk (x : Nat) : Bool := bitsOf x 23 23 == 0 && bitsOf x 31 26 == 0

structure GSlot where
  unit : Nat
  slot : Nat
  word : Word
  hdr : Word
  r0 : Option Ref
  r1 : Option Ref
  deriving DecidableEq, Repr, Inhabited

structure GTile where
  unit : Nat
  n : Nat
  carried : Bool
  tile : Tile
  r0 : Option Ref
  r1 : Option Ref
  deriving DecidableEq, Repr, Inhabited

structure GSeed where
  unit : Nat
  slot : Nat
  fld : Nat
  loc : Bool
  cls : Option Nat
  name : Nat
  number : Nat
  endpoint : Nat
  deriving DecidableEq, Repr, Inhabited

structure GSink where
  unit : Nat
  port : Nat
  ext : Bool
  name : Nat
  endpoint : Nat
  deriving DecidableEq, Repr, Inhabited

structure GChan where
  unit : Nat
  n : Nat
  data : Bool
  cls : Nat
  ref : Option Ref
  deriving DecidableEq, Repr, Inhabited

structure GTear where
  unit : Nat
  slot : Nat
  refs : List (Option Ref)
  deriving DecidableEq, Repr, Inhabited

structure GMuster where
  unit : Nat
  slot : Nat
  j : Nat
  srcUnit : Nat
  srcSlot : Nat
  deriving DecidableEq, Repr, Inhabited

structure Graph where
  folds : Nat := 1
  fmax : Nat := 4096
  commitN : Nat := 64
  nodes : List Bool := []                  -- by unit: whether it is a node
  units : List UnitConf := []              -- by unit: what needs no placement
  slots : List GSlot := []
  tiles : List GTile := []
  chans : List GChan := []
  bufs : List (Nat × Nat × BufConf) := []  -- unit, handle
  seeds : List GSeed := []
  sinks : List GSink := []
  tears : List GTear := []
  musters : List GMuster := []
  windowNames : List (Nat × Nat × Nat) := []  -- unit, window, endpoint name
  deriving DecidableEq, Repr, Inhabited

/-- A tile-table entry as TILE writes it (R173). -/
def tileOfWords (w0 w1 w2 : Nat) : Tile :=
  let st : TileState := match bitsOf w0 63 62 with
    | 0 => .empty
    | 1 => .filling
    | 2 => .ready
    | _ => .draining
  let role : TileRole := match bitsOf w0 58 57 with
    | 0 => .op
    | 1 => .acc
    | 2 => .state
    | _ => .plain
  let cons (x : Nat) : Consumer := ⟨BitVec.ofNat 7 (x / 4), BitVec.ofNat 2 x⟩
  { st := st, err := bitOf w0 61, exc := bitOf w0 60, sat := bitOf w0 59, role := role, ty := Ty.ofCode (BitVec.ofNat 3 (bitsOf w0 56 54))
    alt := bitOf w0 53, tb := bitOf w0 52, ring := bitsOf w0 51 49, pos := bitsOf w0 48 44, base := bitsOf w0 43 33
    kcount := bitsOf w0 32 21, kdone := bitsOf w0 20 9, lo := bitsOf w1 63 24, seq := bitsOf w1 23 0, hi := bitsOf w2 63 24
    c0 := cons (bitsOf w2 23 15), c1 := cons (bitsOf w2 14 6) }

def slotRec (r : List Byte) : GSlot :=
  { unit := numAt r 0 2, slot := byteAt r 2, word := BitVec.ofNat 32 (numAt r 4 4), hdr := BitVec.ofNat 32 (numAt r 8 4)
    r0 := refOf (numAt r 12 4), r1 := refOf (numAt r 16 4) }

def tileRec (r : List Byte) : GTile :=
  { unit := numAt r 0 2, n := byteAt r 2, carried := byteAt r 3 % 2 == 1, tile := tileOfWords (numAt r 16 8) (numAt r 24 8) (numAt r 32 8)
    r0 := refOf (numAt r 4 4), r1 := refOf (numAt r 8 4) }

def seedRec (r : List Byte) : GSeed :=
  { unit := numAt r 0 2, slot := byteAt r 2, fld := byteAt r 3, loc := byteAt r 5 % 2 == 1
    cls := if bitOf (byteAt r 5) 1 then some (byteAt r 6) else none
    name := numAt r 8 4, number := numAt r 12 4, endpoint := numAt r 16 4 }

def sinkRec (r : List Byte) : GSink :=
  { unit := numAt r 0 2, port := byteAt r 2, ext := byteAt r 4 % 2 == 1, name := numAt r 8 4, endpoint := numAt r 12 4 }

def chanRec (r : List Byte) : GChan :=
  { unit := numAt r 0 2, n := byteAt r 2, data := bitOf (byteAt r 3) 7, cls := byteAt r 3 % 8, ref := refOf (numAt r 4 4) }

def tearRec (r : List Byte) : GTear :=
  { unit := numAt r 0 2, slot := byteAt r 2, refs := (List.range (byteAt r 3)).map fun j => refOf (numAt r (4 + 4 * j) 4) }

def musterRec (r : List Byte) : GMuster := ⟨numAt r 0 2, byteAt r 2, byteAt r 3, numAt r 4 2, byteAt r 6⟩

def windowRec (r : List Byte) : Window :=
  { sp := if byteAt r 3 == 0 then .m else if byteAt r 3 == 1 then .s else .h
    base := numAt r 8 8, extent := numAt r 16 8
    upd := if byteAt r 4 == 0xFF then none else some (byteAt r 4)
    described := byteAt r 5 % 2 == 1, evict := bitOf (byteAt r 5) 1 }

def counts (r : List Byte) (off : Nat) (none' : Nat) : AMap Nat :=
  ((List.range 16).filter fun i => byteAt r (off + i) != none').map fun i => (i, byteAt r (off + i))

def actorRec (carried : List Carried) (r : List Byte) : HandlerConf :=
  { entryPc := BitVec.ofNat 64 (numAt r 12 4), prio := byteAt r 3
    cls := if byteAt r 4 == 0xFF then none else some (byteAt r 4)
    trap := if byteAt r 5 == 0xFF then none else some (byteAt r 5)
    isTrap := byteAt r 6 % 2 == 1
    take := counts r 16 0xFF, give := counts r 32 0xFF
    engd := (counts r 48 0), carried := carried
    tagd := if byteAt r 64 == 0xFF then none else some (byteAt r 64, byteAt r 65)
    inner := if byteAt r 66 == 0xFF then none else some (byteAt r 66) }

def carriedRec (r : List Byte) : Carried :=
  match byteAt r 3 with
  | 0 => .buf (byteAt r 4)
  | 1 => .lrange (numAt r 8 4) (numAt r 12 4)
  | _ => .frange (numAt r 8 4) (numAt r 12 4)

def codeWords (r : List Byte) : List Word :=
  (List.range (numAt r 4 4)).map fun i => BitVec.ofNat 32 (numAt r (8 + 4 * i) 4)

/-- Records of one unit. -/
def ofUnit (u : Nat) (l : List (List Byte)) : List (List Byte) := l.filter fun r => numAt r 0 2 == u

/-- Puts entries into a keyed list. -/
def amOf {α : Type} (l : List (Nat × α)) : AMap α := l.foldl (fun m (k, v) => amPut m k v) []

/-- What a unit has without a placement. -/
def unitOf (img : List Byte) (u : Nat) (r : List Byte) : UnitConf :=
  let recs (k : Nat) := ofUnit u (recordsOf img k)
  let tiles := (recs 4).map tileRec
  { mode := match byteAt r 1 with
      | 0 => .stream
      | 1 => .random
      | 2 => .ordered
      | _ => .sc
    consts := amOf ((recs 3).map fun r => (byteAt r 2, (BitVec.ofNat 16 (numAt r 4 2), BitVec.ofNat 512 (numAt r 8 64))))
    tags := amOf ((recs 5).map fun r => (byteAt r 2, byteAt r 3))
    actors := amOf ((recs 8).map fun r =>
      (byteAt r 2, actorRec (((recs 10).filter fun c => byteAt c 2 == byteAt r 2).map carriedRec) r))
    code := match recs 9 with
      | c :: _ => codeWords c
      | [] => []
    barriers := amOf ((recs 11).map fun r => (byteAt r 2, byteAt r 3))
    carriedTiles := (tiles.filter (·.carried)).map (·.n)
    rings := amOf (((tiles.filter fun t => t.tile.role == .op).map (·.tile.ring)).eraseDups.map fun k =>
      (k, (List.range 16).filterMap fun p =>
        (tiles.find? fun t => t.tile.role == .op && t.tile.ring == k && t.tile.pos == p).map (·.n)))
    windows := amOf ((recs 14).map fun r => (byteAt r 2, windowRec r)) }

/-! ## Names (R418) -/

/-- What may follow a first byte of a UTF-8 character: the range of each further byte; none where it begins no character. -/
def utf8Rest (b : Nat) : Option (List (Nat × Nat)) :=
  let t : Nat × Nat := (0x80, 0xBF)
  if b < 0x80 then some []
  else if 0xC2 ≤ b && b ≤ 0xDF then some [t]
  else if b == 0xE0 then some [(0xA0, 0xBF), t]
  else if b == 0xED then some [(0x80, 0x9F), t]
  else if 0xE1 ≤ b && b ≤ 0xEF then some [t, t]
  else if b == 0xF0 then some [(0x90, 0xBF), t, t]
  else if 0xF1 ≤ b && b ≤ 0xF3 then some [t, t, t]
  else if b == 0xF4 then some [(0x80, 0x8F), t, t]
  else none

def utf8Ok : List (Nat × Nat) → List Byte → Bool
  | need, [] => need.isEmpty
  | (lo, hi) :: need, b :: bs => lo ≤ b.toNat && b.toNat ≤ hi && utf8Ok need bs
  | [], b :: bs =>
    match utf8Rest b.toNat with
    | some need => utf8Ok need bs
    | none => false

/-- The name section: a zero byte, then names in UTF-8, each with a zero byte behind it. -/
def namesOk (names : List Byte) : Bool :=
  names.isEmpty || (nthD names 0 1 == 0 && names.getLast? == some 0 && utf8Ok [] names)

/-- An offset is 0, or a name begins there. -/
def nameStands (names : List Byte) (o : Nat) : Bool := o == 0 || (o < names.length && nthD names (o - 1) 1 == 0 && nthD names o 0 != 0)

/-- Every name of the image stands in its name section. -/
def imageNamesOk (img : List Byte) : Bool :=
  let names := (recordsOf img 17).flatten
  let all (k off : Nat) : Bool := (recordsOf img k).all fun r => nameStands names (numAt r off 4)
  namesOk names && nameStands names (numAt img 12 4) && all 1 4 && all 6 8 && all 8 68 && all 12 8 && all 13 8 && all 14 24

/-- The bytes of a name (R418). -/
def nameAt (img : List Byte) (off : Nat) : List Byte := ((recordsOf img 17).flatten.drop off).takeWhile (· != 0)

/-- The number that stands for a name among names: that of its first place. -/
def nameNo (names : List (List Byte)) (n : List Byte) : Nat := names.findIdx (· == n)

/-- The offset that stands for a name: the first of its section at which those bytes stand, so that a name stored twice is one name. -/
def canonName (img : List Byte) (off : Nat) : Nat :=
  let names := (recordsOf img 17).flatten
  (((List.range off).filter (nameStands names)).find? fun o => nameAt img o == nameAt img off).getD off

/-- The graph of an image. -/
def graphOf (img : List Byte) : Graph :=
  let units := recordsOf img 1
  { folds := byteAt img 16, fmax := numAt img 24 4, commitN := numAt img 20 4
    nodes := units.map fun r => byteAt r 0 == 1
    units := units.zipIdx.map fun (r, u) => unitOf img u r
    slots := (recordsOf img 2).map slotRec, tiles := (recordsOf img 4).map tileRec
    chans := (recordsOf img 7).map chanRec
    bufs := (recordsOf img 6).map fun r =>
      (numAt r 0 2, byteAt r 2, { sp := if byteAt r 3 == 0 then .l else .f, slots := numAt r 4 2, name := canonName img (numAt r 8 4) })
    seeds := ((recordsOf img 12).map seedRec).map fun x => { x with name := canonName img x.name }
    sinks := ((recordsOf img 13).map sinkRec).map fun x => { x with name := canonName img x.name }
    tears := (recordsOf img 15).map tearRec, musters := (recordsOf img 16).map musterRec
    windowNames := ((recordsOf img 14).filter fun r => byteAt r 3 == 2).map fun r => (numAt r 0 2, byteAt r 2, canonName img (numAt r 24 4)) }

/-! ## What the form of the records must be (R419) -/

/-- Unit numbers, reserved bits and ranges of the records. -/
def recordsOk (img : List Byte) : Bool :=
  let n := (recordsOf img 1).length
  let all (k : Nat) (p : List Byte → Bool) : Bool := (recordsOf img k).all p
  let uniq (k : Nat) : Bool := decide (((recordsOf img k).map fun r => (numAt r 0 2, byteAt r 2)).Nodup)
  n == numAt img 28 4 && imageNamesOk img && (all 1 fun r => byteAt r 0 ≤ 1 && byteAt r 1 ≤ 3 && (byteAt r 0 == 1 || byteAt r 1 == 0)) &&
    ([2, 3, 4, 5, 6, 7, 8, 9, 10, 11, 12, 13, 14, 15, 16].all fun k => all k fun r => numAt r 0 2 < n) &&
    ([2, 3, 4, 5, 6, 7, 8, 9, 11, 14, 15].all uniq) &&
    (all 2 fun r => byteAt r 2 < 0x70 && refOk (numAt r 12 4) && refOk (numAt r 16 4)) && (all 3 fun r => byteAt r 2 < 32) &&
    (all 4 fun r => byteAt r 2 < 64 && byteAt r 3 ≤ 1 && refOk (numAt r 4 4) && refOk (numAt r 8 4) && bitsOf (numAt r 16 8) 8 0 == 0 &&
      bitsOf (numAt r 32 8) 5 0 == 0) &&
    (all 5 fun r => byteAt r 2 < 16 && 1 ≤ byteAt r 3 && byteAt r 3 ≤ 64) &&
    (all 6 fun r => byteAt r 2 < 16 && byteAt r 3 ≤ 1 && 1 ≤ numAt r 4 2 && numAt r 4 2 ≤ 1024) &&
    (all 7 fun r => byteAt r 2 < 64 && byteAt r 3 &&& 0x87 == byteAt r 3 && refOk (numAt r 4 4) &&
      (128 ≤ byteAt r 3 || numAt r 4 4 < 2 ^ 16)) &&
    (all 8 fun r => byteAt r 2 < 16 && byteAt r 3 < 8 && byteAt r 6 ≤ 1) && (all 9 fun r => 1 ≤ numAt r 4 4 && numAt r 4 4 ≤ 4096 && r.length == 8 + 4 * numAt r 4 4) &&
    (all 10 fun r => byteAt r 2 < 16 && byteAt r 3 ≤ 2) && (all 11 fun r => byteAt r 2 < 8 && byteAt r 3 < 8) &&
    (all 12 fun r => byteAt r 3 ≤ 3 && byteAt r 4 ≤ 9 && byteAt r 5 ≤ 3 &&
      (byteAt r 5 % 2 == 1) == (numAt r 16 4 == 2 ^ 32 - 1)) && (all 13 fun r => byteAt r 3 ≤ 9 && byteAt r 4 ≤ 1) &&
    (all 14 fun r => byteAt r 2 < 8 && byteAt r 3 ≤ 2 && (byteAt r 4 ≤ 7 || byteAt r 4 == 0xFF) && byteAt r 5 ≤ 3) &&
    (all 15 fun r => byteAt r 3 ≤ 16 && (List.range 16).all fun j =>
      refOk (numAt r (4 + 4 * j) 4) && (byteAt r 3 ≤ j) == (numAt r (4 + 4 * j) 2 == 0xFFFF)) &&
    (all 16 fun r => byteAt r 3 < 16 && numAt r 4 2 < n)

end Sys2Proof.Machine
end

