-- ==== Sys2Proof/Machine/Place.lean ====
section
/-!
DEFINITION. From a graph to a placed configuration: consumers in other units become output ports and routes (R138, R247, R255), reductions
become trees of router adders (R192), and what MINT and the mapper check of it (R23, R35, R403, R415, R417).
-/

namespace Sys2Proof.Machine

/-! ## Wires -/

/-- A consumer that names another unit: its sender (a slot, or an accumulator tile), which consumer it is, and where it goes. -/
structure WireSrc where
  unit : Nat
  at' : Nat
  tile : Bool
  k : Nat
  ref : Ref
  deriving DecidableEq, Repr, Inhabited

def Graph.wireSrcs (g : Graph) : List WireSrc :=
  (g.slots.flatMap fun x =>
    (x.r0.toList.map fun r => WireSrc.mk x.unit x.slot false 0 r) ++ x.r1.toList.map fun r => WireSrc.mk x.unit x.slot false 1 r) ++
  g.tiles.flatMap fun x =>
    (x.r0.toList.map fun r => WireSrc.mk x.unit x.n true 0 r) ++ x.r1.toList.map fun r => WireSrc.mk x.unit x.n true 1 r

/-- The operation of a slot of the graph. -/
def Graph.opAt (g : Graph) (u slot : Nat) : Option (Instr × Hdr) :=
  match g.slots.find? fun x => x.unit == u && x.slot == slot with
  | some x =>
    match decodeE x.word with
    | .ok i => some (i, Hdr.ofWord x.hdr)
    | .error _ => none
  | none => none

def Graph.isSend (g : Graph) (w : WireSrc) : Bool :=
  !w.tile && match g.opAt w.unit w.at' with
    | some (.rsend _, _) => true
    | _ => false

/-- Reductions: the places that RSEND slots send to. -/
def Graph.reductions (g : Graph) : List Ref := ((g.wireSrcs.filter g.isSend).map (·.ref)).eraseDups

/-! ## Places -/

def placeLocs (g : Graph) (p : Placement) : List Loc :=
  (g.nodes.zip p.sites).map fun (n, i) => if n then Loc.node i else Loc.cell i 0

def locAt (locs : List Loc) (u : Nat) : Loc := nthD locs u (.cell 0 0)

def Ref.dest (locs : List Loc) (r : Ref) : Dest := .field (locAt locs r.unit) r.slot (Fld.ofCode (BitVec.ofNat 2 r.fld))

/-! ## Reduction trees (R192) -/

def treeLeaves : FoldTree → List Nat
  | .leaf i => [i]
  | .node a b => treeLeaves a ++ treeLeaves b

/-- The joins of a tree whose result goes to d, numbered from `next`, the root first; and where each leaf sends. -/
def treeJoins (sites routes : List Nat) : FoldTree → Dest → Nat → List JoinConf × List (Nat × Dest)
  | .leaf i, d, _ => ([], [(i, d)])
  | .node a b, d, next =>
    let (ja, la) := treeJoins sites routes a (.join 0 next false) (next + 1)
    let (jb, lb) := treeJoins sites routes b (.join 0 next true) (next + 1 + ja.length)
    (JoinConf.mk (nthD sites next 0) d (nthD routes next 0) :: ja ++ jb, la ++ lb)

/-- The joins of all reductions, and where the sources of each send. -/
def allJoins (sites routes : List Nat) : List (Dest × FoldTree) → Nat → List JoinConf × List (List (Nat × Dest))
  | [], _ => ([], [])
  | (d, t) :: rest, next =>
    let (js, ls) := treeJoins sites routes t d next
    let (js', ls') := allJoins sites routes rest (next + js.length)
    (js ++ js', ls :: ls')

/-! ## Networks -/

/-- The network of the tokens that a producer sends to a consumer (R146). -/
def outNet (net fld : Nat) (readsP : Bool) (loc : Bool) : Net :=
  match net with
  | 1 => .scalar
  | 2 => .control
  | 3 => if loc && fld == 2 && !readsP then .control else .vector
  | _ => .vector

def Graph.readsP (g : Graph) (u slot : Nat) : Bool :=
  match g.opAt u slot with
  | some (i, _) => i.readsP
  | none => false

/-- The result network of what sends on a wire. An accumulator sends vector tokens. -/
def Graph.wireNet (g : Graph) (w : WireSrc) : Net :=
  if w.tile then .vector
  else
    match g.opAt w.unit w.at' with
    | some (_, h) => outNet h.net w.ref.fld false false
    | none => .vector

/-- The fields of a unit that tokens reach, by network. -/
def Graph.feeds (g : Graph) (u : Nat) : List (Nat × Fld × Net) :=
  let fld (n : Nat) : Fld := Fld.ofCode (BitVec.ofNat 2 n)
  let local' (net : Nat) (c : Consumer) : List (Nat × Fld × Net) :=
    if c.fld == 3 || 0x70 ≤ c.slot.toNat then []
    else [(c.slot.toNat, Fld.ofCode c.fld, outNet net c.fld.toNat (g.readsP u c.slot.toNat) true)]
  (g.slots.flatMap fun x =>
    if x.unit != u then []
    else
      match decodeE x.word with
      | .ok i =>
        match i.ew? with
        | some e => local' (Hdr.ofWord x.hdr).net e.c0 ++ local' (Hdr.ofWord x.hdr).net e.c1
        | none => []
      | .error _ => []) ++
  (g.tiles.flatMap fun x => if x.unit == u && x.tile.role == .acc then local' 0 x.tile.c0 ++ local' 0 x.tile.c1 else []) ++
  (g.wireSrcs.filterMap fun w => if w.ref.unit == u then some (w.ref.slot, fld w.ref.fld, g.wireNet w) else none) ++
  (g.chans.filterMap fun c =>
    match c.ref with
    | some r => if c.data && r.unit == u then some (r.slot, fld r.fld, Net.scalar) else none
    | none => none) ++
  (g.tears.flatMap fun t => t.refs.filterMap fun r =>
    match r with
    | some r => if r.unit == u then some (r.slot, fld r.fld, Net.vector) else none
    | none => none) ++
  g.seeds.filterMap fun s => if s.unit == u && s.fld != 3 then some (s.slot, fld s.fld, Net.vector) else none

/-! ## Units -/

/-- A consumer of an E-word becomes an output port. -/
def patchWord (w : Word) (k port : Nat) : Word :=
  let c := (0x70 + port) * 4
  if k == 0 then (w &&& ~~~ 0x3FE00#32) ||| BitVec.ofNat 32 (c * 512) else (w &&& ~~~ 0x1FF#32) ||| BitVec.ofNat 32 c

/-- Wires with their output port, route and end. -/
abbrev Wire := WireSrc × Nat × Route × Dest

def Graph.wires (g : Graph) (p : Placement) : List Wire × List JoinConf :=
  let locs := placeLocs g p
  let reds := g.reductions
  let (joins, leaves) := allJoins p.joinSites p.joinRoutes
    (reds.zipIdx.map fun (r, i) => (r.dest locs, nthD p.trees i (.leaf 0))) 0
  let sends := g.wireSrcs.filter g.isSend
  let ws := g.wireSrcs.zipIdx.map fun (w, i) =>
    let (port, route) := nthD p.wires i (0, {})
    let d :=
      if g.isSend w then
        let n := (sends.filter fun x => x.ref == w.ref).findIdx (· == w)
        match (nthD leaves (reds.findIdx (· == w.ref)) []).find? fun x => x.1 == n with
        | some (_, d) => d
        | none => .nowhere
      else w.ref.dest locs
    (w, port, route, d)
  (ws, joins)

/-- The return streams of MUSTER slots: the route of each source, or 256 and its slot where it stands in the same cell. -/
def Graph.musterOf (g : Graph) (p : Placement) (ws : List Wire) (u : Nat) : AMap Nat :=
  let starts := g.tears.map fun t => t.refs.length
  amOf ((g.musters.filter fun m => m.unit == u).flatMap fun m =>
    if m.srcUnit == u then [(256 + m.srcSlot, m.j)]
    else
      ((ws.filter fun w => w.1.unit == m.srcUnit && w.1.ref == Ref.mk u m.slot 0 &&
          if w.1.tile then
            (match g.opAt m.srcUnit m.srcSlot with
             | some (.mma x, _) | some (.mmab x, _) | some (.mmaw x, _) => x.acc.toNat == w.1.at'
             | _ => false)
          else w.1.at' == m.srcSlot).map fun w => (w.2.2.1.id, m.j)) ++
        g.tears.zipIdx.flatMap fun (t, i) =>
          if t.unit == m.srcUnit && t.slot == m.srcSlot then
            (t.refs.zipIdx.filter fun r => r.1 == some (Ref.mk u m.slot 0)).map fun r => ((nthD p.tearRoutes ((starts.take i).sum + r.2) {}).id, m.j)
          else [])

/-- Endpoint numbers by name (R324): SEED and SINK records give theirs; the names that only windows give take the numbers that are
left, in order. -/
def endpointNo (img : List Byte) (g : Graph) (name : Nat) : Nat :=
  let n := nameAt img name
  let known : List (List Byte × Nat) :=
    ((g.seeds.filter fun s => !s.loc).map fun s => (nameAt img s.name, s.endpoint)) ++ g.sinks.map fun s => (nameAt img s.name, s.endpoint)
  match known.find? fun x => x.1 == n with
  | some (_, e) => e
  | none =>
    let extra := ((g.windowNames.map fun w => nameAt img w.2.2).eraseDups).filter fun x => !(known.any fun y => y.1 == x)
    let free := (List.range 64).filter fun e => !(known.any fun y => y.2 == e)
    nthD free (extra.findIdx (· == n)) 64

/-- One unit of the placed configuration. -/
def Graph.unit (img : List Byte) (g : Graph) (p : Placement) (locs : List Loc) (ws : List Wire) (u : Nat) : UnitConf :=
  let c := nthD g.units u {}
  let mine := ws.filter fun w => w.1.unit == u
  let tearNos := (g.tears.foldl (fun (acc : List (Nat × Nat) × Nat) t => (acc.1 ++ [(t.unit, acc.2)], acc.2 + t.refs.length)) ([], 0)).1
  let tear := match g.tears.find? fun t => t.unit == u with
    | some t => t.refs
    | none => []
  let tearAt := match tearNos.find? fun x => x.1 == u with
    | some (_, n) => n
    | none => 0
  let sinks := g.sinks.zipIdx.filter fun x => x.1.unit == u
  let names := g.bufs.map fun b => nameAt img b.2.2.name
  { c with
    slots := amOf ((g.slots.filter fun x => x.unit == u).map fun x =>
      (x.slot, (mine.filter fun w => !w.1.tile && w.1.at' == x.slot).foldl (fun w m => patchWord w m.1.k m.2.1) x.word, x.hdr))
    tiles := amOf ((g.tiles.filter fun x => x.unit == u).map fun x =>
      (x.n, (mine.filter fun w => w.1.tile && w.1.at' == x.n).foldl (fun (t : Tile) m =>
        let k : Consumer := ⟨BitVec.ofNat 7 (0x70 + m.2.1), 0⟩
        if m.1.k == 0 then { t with c0 := k } else { t with c1 := k }) x.tile))
    images := amOf ((p.images.filter fun x => x.1 == u).map fun x => (x.2.1, x.2.2))
    bufs := amOf ((g.bufs.zipIdx.filter fun b => b.1.1 == u).map fun (b, i) =>
      (b.2.1, { b.2.2 with base := nthD p.bufBases i 0, name := nameNo names (nameAt img b.2.2.name) }))
    chans := amOf ((g.chans.zipIdx.filter fun x => x.1.unit == u).map fun (x, i) =>
      (x.n, { data := x.data, cls := x.cls
              route := let r := nthD p.chanRoutes i {}; if x.data then r else { r with cls := x.cls }
              dest := match x.ref with
                | some r => if x.data then r.dest locs else .trigger (locAt locs r.unit) x.cls
                | none => .nowhere }))
    tear := tear.map fun r => (r.map fun r => r.dest locs).getD .nowhere
    tearRoutes := (List.range tear.length).map fun j => nthD p.tearRoutes (tearAt + j) {}
    muster := g.musterOf p ws u
    ports := (mine.map fun w => (w.2.1, w.2.2.2)).foldl (fun m (port, d) => amUpd m port [] (· ++ [d]))
      (sinks.foldl (fun m x => amUpd m (x.1.port - 0x70) [] (· ++ [Dest.sink 0 x.2])) [])
    portRoute := amOf ((mine.map fun w => (w.2.1, w.2.2.1)) ++ sinks.map fun x => (x.1.port - 0x70, nthD p.sinkRoutes x.2 {}))
    windows := c.windows.map fun (n, w) =>
      (n, match g.windowNames.find? fun (x : Nat × Nat × Nat) => x.1 == u && x.2.1 == n with
          | some x => { w with endpoint := endpointNo img g x.2.2 }
          | none => w)
    fed := g.feeds u
    physFed := g.wireSrcs.filterMap fun w => match g.opAt w.unit w.at' with
      | some (.xlate _, _) => if !w.tile && w.ref.unit == u && w.ref.fld == 0 then some w.ref.slot else none
      | _ => none
    loopFed := (p.loops.filter fun x => x.1 == u).map (·.2)
    lwin := nthD p.lwins u (0, Config.lSize)
    fwin := nthD p.fwins u (0, Config.fUser) }

/-- The placed configuration, for the cells that are retired when it is placed. Paddock numbers in it stand as 0 until the paddock is
resident. -/
def buildConf (img : List Byte) (g : Graph) (p : Placement) (grid : List Nat) : Conf :=
  let locs := placeLocs g p
  let (ws, joins) := g.wires p
  let site (u : Nat) : Nat := (locAt locs u).idx
  let nodes := (List.range g.nodes.length).filter fun u => nthD g.nodes u false
  { folds := p.folds, fmax := g.fmax, commitN := g.commitN
    units := (List.range g.nodes.length).map fun u => (locAt locs u, g.unit img p locs ws u)
    seeds := g.seeds.zipIdx.map fun (s, i) =>
      { dest := if s.fld == 3 then .trigger (locAt locs s.unit) (s.cls.getD 0)
          else .field (locAt locs s.unit) s.slot (Fld.ofCode (BitVec.ofNat 2 s.fld))
        endpoint := s.endpoint, loc := s.loc, ofCell := site s.unit, number := if s.loc then s.number else s.slot - 0x70
        cls := if s.fld == 3 then s.cls else none
        tsp := if s.fld == 3 then 0 else match g.opAt s.unit s.slot with
          | some (_, h) => h.tsp
          | none => 0
        route := let r := nthD p.seedRoutes i {}; if s.fld == 3 then { r with cls := s.cls.getD 0 } else r }
    sinks := g.sinks.map fun s => { cell := site s.unit, port := s.port - 0x70, endpoint := s.endpoint, ext := s.ext }
    joins := joins, collTree := p.collTree, scRing := p.scRing.map site
    members := (List.range 8).filterMap fun n =>
      let l := (List.range g.nodes.length).filter fun u => (amGet? (nthD g.units u {}).barriers n).isSome
      if l.isEmpty then none else some (n, l)
    slices := (nodes.map site ++ p.permits.map fun (x : Nat × List Nat) => x.1 % 512).eraseDups
    permits := amOf p.permits, switches := p.switches, grid := grid, wave := p.wave
    bars := amOf (p.bars.map fun (b, root, up, down) => (b, { root := root, up := up, down := down })) }

/-! ## What the graph alone decides (R23, R403 reason 4) -/

/-- A placement that only stands for one while the graph is checked: every remote consumer has a port of its own. -/
def dummyPlacement (g : Graph) : Placement :=
  let other (w : WireSrc) : Nat :=
    match g.opAt w.unit w.at' with
    | some (i, _) =>
      match i.ew? with
      | some e => if w.k == 0 then e.c1.slot.toNat else e.c0.slot.toNat
      | none => 0
    | none => 0
  { folds := List.range g.folds, sites := List.range g.nodes.length
    wires := g.wireSrcs.zipIdx.map fun (w, i) => (if other w == 0x70 + w.k then w.k + 2 else w.k, ⟨i, 0⟩)
    chanRoutes := [], seedRoutes := [], sinkRoutes := []
    tearRoutes := (List.range ((g.tears.map (·.refs.length)).sum)).map fun j => ⟨j + 100000, 0⟩
    bufBases := [], lwins := [], fwins := [], images := [], loops := []
    trees := g.reductions.map fun r =>
      (List.range ((g.wireSrcs.filter fun w => g.isSend w && w.ref == r).length - 1)).foldl (fun t i => .node t (.leaf (i + 1))) (.leaf 0)
    joinSites := [], joinRoutes := [], collTree := .leaf 0, scRing := [], permits := [], switches := [], wave := {}, bars := [] }

/-- A consumer reference stands where the E-word or the tile entry leaves the consumer out, and names another unit. -/
def wireFormOk (g : Graph) (w : WireSrc) : Bool :=
  w.ref.unit < g.nodes.length && w.ref.unit != w.unit && w.ref.fld < 3 && w.ref.slot < 0x70 &&
    if w.tile then
      (g.tiles.any fun t => t.unit == w.unit && t.n == w.at' && t.tile.role == .acc &&
        consumerNat (if w.k == 0 then t.tile.c0 else t.tile.c1) == 3)
    else
      match g.opAt w.unit w.at' with
      | some (i, _) =>
        match i.ew? with
        | some e => consumerNat (if w.k == 0 then e.c0 else e.c1) == 3
        | none => false
      | none => false

/-- Both remote consumers of one sender differ (R48). -/
def wiresDiffer (g : Graph) : Bool := (g.slots.all fun x => x.r0.isNone || x.r0 != x.r1) && g.tiles.all fun x => x.r0.isNone || x.r0 != x.r1

def slotExists (g : Graph) (r : Ref) : Bool := r.fld < 3 && g.slots.any fun x => x.unit == r.unit && x.slot == r.slot

def isCell (g : Graph) (u : Nat) : Bool := u < g.nodes.length && !nthD g.nodes u true

/-- Bytes of carried state of an actor (R321). -/
def carriedBytes (c : UnitConf) (a : HandlerConf) : Nat :=
  (a.carried.map fun x =>
    match x with
    | .buf b => (amGet c.bufs b {}).size
    | .lrange _ n | .frange _ n => n).sum

/-- What an actor declares (R261, R298, R300). A trap handler is an actor that another one of the cell names with `trap=`: it declares no class, take,
give or tag demand, and its record says what it is. Every other actor needs a class or a take count above 0. -/
def actorOk (c : UnitConf) (h : Nat) (a : HandlerConf) : Bool :=
  let counts (m : AMap Nat) : Bool := m.all fun x => x.2 ≤ 64 && (amGet? c.bufs x.1).isSome
  counts a.take && counts a.give && (a.engd.all fun x => x.2 ≤ 16) && a.entryPc.toNat % 4 == 0 && a.entryPc.toNat / 4 < c.code.length &&
    (match a.cls with
     | some k => k < 8
     | none => a.isTrap || a.take.any fun x => 0 < x.2) &&
    (match a.trap with
     | some t => (amGet c.actors t {}).isTrap
     | none => true) &&
    (a.isTrap == c.actors.any fun x => x.1 != h && x.2.trap == some h) && (!a.isTrap || (a.cls.isNone && a.take.isEmpty && a.give.isEmpty && a.tagd.isNone)) &&
    (match a.tagd with
     | some (sp, n) => n ≤ 4 && (sp == 0 || (amGet? c.tags sp).isSome)
     | none => a.inner.isNone) &&
    (match a.inner with
     | some sp => sp == 0 || (amGet? c.tags sp).isSome
     | none => true) &&
    a.carried.all fun x =>
      match x with
      | .buf b => (amGet? c.bufs b).isSome
      | _ => true

def unitActorsOk (c : UnitConf) : Bool :=
  (c.actors.all fun x => actorOk c x.1 x.2) && decide ((c.actors.filterMap fun x => x.2.cls).Nodup) &&
    (c.actors.map fun x => carriedBytes c x.2).sum ≤ 65536

/-- Buffers of a name: at most two cells, of one form; one producer and one consumer in the paddock (R296). -/
def buffersOk (units : List UnitConf) : Bool :=
  let all := units.zipIdx.flatMap fun (c, u) => c.bufs.map fun (h, b) => (u, h, b)
  let names := (all.map fun x => x.2.2.name).eraseDups
  names.all fun n =>
    let uses := all.filter fun x => x.2.2.name == n
    let count (f : HandlerConf → AMap Nat) : Nat :=
      (uses.map fun (u, h, _) => ((nthD units u {}).actors.filter fun a => (amGet? (f a.2) h).isSome).length).sum
    uses.length ≤ 2 && decide ((uses.map fun (x : Nat × Nat × BufConf) => x.1).Nodup) && count (·.take) == 1 && count (·.give) == 1 &&
      (uses.length == 1 || uses.all fun x => x.2.2.sp == .f) &&
      match uses with
      | x :: rest => rest.all fun y => y.2.2.sp == x.2.2.sp && y.2.2.slots == x.2.2.slots
      | [] => true

def seedOk (g : Graph) (s : GSeed) : Bool :=
  (if s.fld == 3 then
    isCell g s.unit && 0x70 ≤ s.slot && s.slot < 0x80 &&
      (match s.cls with
       | some k => (nthD g.units s.unit {}).actors.any fun a => a.2.cls == some k
       | none => false)
   else s.cls.isNone && slotExists g ⟨s.unit, s.slot, s.fld⟩) &&
  if s.loc then
    isCell g s.unit && s.endpoint == 2 ^ 32 - 1 && s.number < 16 &&
      s.number == (g.seeds.takeWhile fun x => x != s).countP fun x => x.loc && x.unit == s.unit
  else s.endpoint < 64

def sinkOk (g : Graph) (s : GSink) : Bool := isCell g s.unit && 0x70 ≤ s.port && s.port < 0x80 && s.endpoint < 64

/-- The source of a return stream sends to MUSTER's l. -/
def musterOk (g : Graph) (m : GMuster) : Bool :=
  let there (r : Option Ref) : Bool := r == some ⟨m.unit, m.slot, 0⟩
  let me (c : Consumer) : Bool := m.srcUnit == m.unit && consumerNat c == m.slot * 4
  (match g.opAt m.unit m.slot with
   | some (.muster _, _) => true
   | _ => false) &&
  match g.slots.find? fun x => x.unit == m.srcUnit && x.slot == m.srcSlot with
  | some x =>
    there x.r0 || there x.r1 || (g.tears.any fun t => t.unit == m.srcUnit && t.slot == m.srcSlot && t.refs.any there) ||
      match decodeE x.word with
      | .ok (.mma y) | .ok (.mmab y) | .ok (.mmaw y) =>
        g.tiles.any fun t => t.unit == m.srcUnit && t.n == y.acc.toNat && (there t.r0 || there t.r1 || me t.tile.c0 || me t.tile.c1)
      | .ok i =>
        (match i.ew? with
         | some e => me e.c0 || me e.c1
         | none => false)
      | .error _ => false
  | none => false

/-- Every other check that the graph alone decides. -/
def graphOk (g : Graph) (c : Conf) : Bool :=
  let units := c.units.map (·.2)
  !g.seeds.isEmpty && !g.sinks.isEmpty && (g.wireSrcs.all fun w => slotExists g w.ref) && wiresDiffer g &&
    (g.slots.all fun x =>
      let t := (Hdr.ofWord x.hdr).tsp
      t == 0 || (amGet? (nthD g.units x.unit {}).tags t).isSome) &&
    (units.zipIdx.all fun (x, u) => (x.windows.all fun w => windowOk w.2) && unitActorsOk x &&
      (isCell g u || (x.actors.isEmpty && x.code.isEmpty && x.tiles.isEmpty && x.chans.isEmpty && x.bufs.isEmpty && x.barriers.isEmpty))) &&
    buffersOk units && (g.seeds.all (seedOk g)) && (g.sinks.all (sinkOk g)) && decide ((g.seeds.map (·.name) ++ g.sinks.map (·.name)).Nodup) &&
    decide (((g.seeds.filter fun s => !s.loc).map (·.endpoint) ++ g.sinks.map (·.endpoint)).Nodup) && (g.musters.all (musterOk g)) &&
    (g.chans.all fun x =>
      match x.ref with
      | some r => if x.data then slotExists g r else isCell g r.unit
      | none => false) &&
    g.tears.all fun t =>
      (match g.opAt t.unit t.slot with
       | some (.tear _, _) => true
       | _ => false) && t.refs.all fun r =>
        match r with
        | some r => slotExists g r
        | none => false

/-- A TEAR slot's consumer in another unit is the r field of a MUSTER slot there; a port of its own leads nowhere else (R246). -/
def tearTargetOk (g : Graph) (x : GSlot) : Bool :=
  match decodeE x.word with
  | .ok (.tear e) =>
    match x.r0 with
    | some r => r.fld == 1 && match g.opAt r.unit r.slot with
        | some (.muster _, _) => true
        | _ => false
    | none => e.c0.slot.toNat < 0x70
  | _ => true

/-- A slot record gives a consumer in another unit in a form that R419 does not have. -/
def slotFormBad (g : Graph) (u slot : Nat) : Bool := g.wireSrcs.any fun x => x.unit == u && !x.tile && x.at' == slot && !wireFormOk g x

/-- A slot record is wrong: its words, or what its consumers in other units ask of them. -/
def slotBad (g : Graph) (c : UnitConf) (u slot : Nat) (w h : Word) : Bool :=
  !(c.slotOk (nthD g.nodes u false) slot w h) || slotFormBad g u slot || g.slots.any fun x => x.unit == u && x.slot == slot && !tearTargetOk g x

/-- What MINT finds wrong with a graph object (R403): its reason, and the unit and slot of the faulty word, if a word is named (R35). -/
def mintReject (img : List Byte) : Option (Nat × Option (Nat × Nat)) :=
  if !(imageOk img (sectionsOf img) && recordsOk img) then some (1, none)
  else
    let g := graphOf img
    let c := buildConf img g (dummyPlacement g) []
    let bad := c.units.zipIdx.findSome? fun (x, u) =>
      (x.2.slots.find? fun (slot, w, h) => slotBad g x.2 u slot w h).map fun (slot, w, h) => (u, slot, w, h)
    match bad with
    | some (u, slot, w, h) => some (if tileWord w && !slotFormBad g u slot && !((nthD (c.units.map fun (x : Loc × UnitConf) => x.2) u {}).slotOk (nthD g.nodes u false) slot w h) then 3 else 1, some (u, slot))
    | none =>
        if !(g.wireSrcs.all (wireFormOk g)) then some (1, none)
        else if !(c.units.zipIdx.all fun (x, u) => x.2.rowsOk (nthD g.nodes u false)) then some (2, none)
        else if !(c.units.all fun x => x.2.tilesOk) then some (3, none)
        else if !graphOk g c then some (4, none)
        else none

/-! ## Switch words (R8, R12, R15, R53, R54) -/

/-- A switch word by itself, at its box (R53, R54): a class-table word names a local link and nothing else; a join stands on the vector network
at a box with a router adder, where alone an adder's output is an input; a word does not both fork and join. -/
def switchOk (site : Nat) (w : BitVec 16) : Bool :=
  if swNet w == 3 then 4 ≤ swOut w && swIn w == 0 && !swFork w && !swJoin w
  else
    swIn w ≤ 8 && !(swFork w && swJoin w) && (!swJoin w || (swNet w == 1 && hasAdder site)) && (swIn w != 8 || hasAdder site)

/-- Where a token of a network and a class comes out that stands at a box and came in by an input: boxes where it enters the adder or leaves by a
local output. A control token leaves where `stop` says. None where the words lead it nowhere or past an edge. -/
def walk (ws : List (Nat × BitVec 16)) (net : Net) (cls : Nat) (stop : Nat → Bool) : Nat → Nat → Nat → Option (List (Nat × Bool))
  | 0, _, _ => none
  | n + 1, site, inp =>
    if stop site && inp < 4 then some [(site, true)]
    else
      match takenWords ws site net cls inp with
      | [] => none
      | l => l.foldl (fun (acc : Option (List (Nat × Bool))) w =>
          match acc with
          | none => none
          | some out =>
            if swJoin w then some (out ++ [(site, true)])
            else if 4 ≤ swOut w then some (out ++ [(site, false)])
            else
              match neighbour site (swOut w) with
              | none => none
              | some next => (walk ws net cls stop n next (facing (swOut w))).map fun r => out ++ r) (some [])

/-- The network of a word. -/
def swNetOf (w : BitVec 16) : Net :=
  match swNet w with
  | 0 => .scalar
  | 1 => .vector
  | _ => .control

/-- A word that charges a pool stands on a route that ends at a slice (R54): what leaves by its output comes out at slices. -/
def poolOk (ws : List (Nat × BitVec 16)) (site : Nat) (w : BitVec 16) : Bool :=
  swNet w == 3 || swPool w == 0 ||
    if swJoin w then false
    else if 4 ≤ swOut w then siteX site % 2 == 0
    else
      match neighbour site (swOut w) with
      | none => false
      | some next =>
        match walk ws (swNetOf w) (swCls w) (fun _ => false) boxCount next (facing (swOut w)) with
        | some l => l.all fun x => !x.2 && siteX x.1 % 2 == 0
        | none => false

/-- The switch words that a load of a unit brings to its box, or those of the whole placement (R54). Class-table words name a link and no output
of a network: they take no part in the test of two words for one output (notes/assumptions/112.md). -/
def switchesOk (ws : List (Nat × BitVec 16)) (here : Nat → Bool) : Bool :=
  (ws.all fun (site, w) => !here site || (switchOk site w && poolOk ws site w)) &&
    decide (((ws.filter fun x => here x.1 && swNet x.2 != 3).map fun x => (x.1, swNet x.2, swOut x.2, swCls x.2)).Nodup)

/-! ## Routes of a placement -/

/-- A route as it is laid: the network of its tokens, where they enter the fabric, where it ends. -/
structure Lay where
  net : Net
  route : Route
  site : Nat
  inp : Nat
  dest : Dest
  deriving DecidableEq, Repr, Inhabited

/-- The class of the packets that reach join j: that of a wire that enters its tree. -/
def joinClass (ws : List Wire) (joins : List JoinConf) : Nat → Nat → Nat
  | 0, _ => 0
  | n + 1, j =>
    let into (d : Dest) : Bool := d == .join 0 j false || d == .join 0 j true
    match ws.find? fun w => into w.2.2.2 with
    | some w => w.2.2.1.cls
    | none => ((joins.zipIdx.find? fun x => into x.1.dest).map fun x => joinClass ws joins n x.2).getD 0

/-- The members of the barriers: barrier, unit. -/
def Graph.barMembers (g : Graph) : List (Nat × Nat) :=
  (List.range g.nodes.length).flatMap fun u => (nthD g.units u {}).barriers.map fun x => (x.1, u)

/-- The tree that a placement gives a barrier. -/
def barOf (p : Placement) (b : Nat) : BarConf :=
  match p.bars.find? fun x => x.1 == b with
  | some (_, root, up, down) => { root := root, up := up, down := down }
  | none => {}

/-- The routes of a placement that have words: wires, channels, steer tables, the outputs of router adders, the trees of barriers and of the waves.
A data route has a control route beside it for its commit tokens (R14, R297). Where a broadcast tree ends, barOk and waveOk say. -/
def Graph.lays (g : Graph) (p : Placement) : List Lay :=
  let locs := placeLocs g p
  let (ws, joins) := g.wires p
  let site (u : Nat) : Nat := (locAt locs u).site
  let both (net : Net) (r : Route) (s inp : Nat) (d : Dest) : List Lay :=
    if net == .control then [⟨net, r, s, inp, d⟩] else [⟨net, r, s, inp, d⟩, ⟨.control, r, s, inp, d⟩]
  (ws.flatMap fun w => both (g.wireNet w.1) w.2.2.1 (site w.1.unit) (portInput w.2.1) w.2.2.2) ++
  (g.chans.zipIdx.flatMap fun (c, i) =>
    match c.ref with
    | some r =>
      let rt := nthD p.chanRoutes i {}
      if c.data then both .scalar rt (site c.unit) (portInput c.n) (r.dest locs)
      else [⟨.scalar, { rt with cls := c.cls }, site c.unit, portInput c.n, .trigger (locAt locs r.unit) c.cls⟩]
    | none => []) ++
  (g.tears.foldl (fun (acc : List Lay × Nat) t =>
    (acc.1 ++ (t.refs.zipIdx.flatMap fun (r, j) =>
      match r with
      | some r =>
        if r.unit == t.unit then []
        else both .vector (nthD p.tearRoutes (acc.2 + j) {}) (site t.unit) (portInput j) (r.dest locs)
      | none => []), acc.2 + t.refs.length)) ([], 0)).1 ++
  (joins.zipIdx.flatMap fun (c, j) => both .vector ⟨c.route, joinClass ws joins joins.length j⟩ c.site 8 c.dest) ++
  (g.barMembers.flatMap fun (b, u) =>
    [⟨.control, (barOf p b).up, site u, portInput b, .root 0 b u⟩, ⟨.control, (barOf p b).down, (barOf p b).root, portInput b, .nowhere⟩]) ++
  p.folds.map fun f => ⟨.control, p.wave, coreSite (384 + f), 2, .nowhere⟩

/-- The box where a route ends, and whether it ends in the adder. -/
def layEnd (p : Placement) (joins : List JoinConf) : Dest → Option (Nat × Bool)
  | .field u _ _ | .trigger u _ => some (u.site, false)
  | .root _ b _ => some ((barOf p b).root, false)
  | .join _ j _ => joins[j]?.map fun c => (c.site, true)
  | _ => none

/-- The words lead a route to its end and nowhere else; a triggering route's class is bound there. -/
def layOk (p : Placement) (joins : List JoinConf) (l : Lay) : Bool :=
  let ws := p.switches
  match layEnd p joins l.dest with
  | none => true
  | some e =>
    walk ws l.net l.route.cls (fun s => l.net == .control && e == (s, true)) boxCount l.site l.inp == some [e] &&
      match l.dest with
      | .trigger u c => (List.range 4).any fun k => bindsLink ws u.site c (4 + k)
      | _ => true

/-- Two lists name the same sites, each once. -/
def sameSites (a b : List Nat) : Bool := a.length == b.length && decide b.Nodup && b.all fun x => a.contains x

/-- A barrier's tree leads down to its members, each once (R310). -/
def barOk (p : Placement) (g : Graph) : Bool :=
  let locs := placeLocs g p
  ((g.barMembers.map (·.1)).eraseDups).all fun b =>
    match walk p.switches .control (barOf p b).down.cls (fun _ => false) boxCount (barOf p b).root (portInput b) with
    | some l => (l.all fun x => !x.2) &&
        sameSites (l.map (·.1)) ((g.barMembers.filter fun x => x.1 == b).map fun x => (locAt locs x.2).site)
    | none => false

/-- The waves of the folds' shepherds reach every unit of the paddock, each once, and stay in their pastures (R33, R277;
notes/assumptions/88.md). -/
def waveOk (p : Placement) (locs : List Loc) : Bool :=
  let from' (f : Nat) : Nat := coreSite (384 + f)
  let ends (f : Nat) : List (Nat × Bool) := (walk p.switches .control p.wave.cls (fun _ => false) boxCount (from' f) 2).getD []
  let all := p.folds.flatMap ends
  (p.folds.all fun f => (walkBridges p.switches .control p.wave.cls (from' f) 2).isEmpty &&
      (!(ends f).isEmpty || (takenWords p.switches (from' f) .control p.wave.cls 2).isEmpty)) &&
    (all.all fun x => !x.2) && sameSites (all.map (·.1)) (locs.map (·.site))

/-- No box and input of a network is on the way of two route ids of one class (R370). -/
def laysApart (ws : List (Nat × BitVec 16)) (ls : List Lay) : Bool :=
  let steps := ls.flatMap fun l => (walkSteps ws l.net l.route.cls boxCount l.site l.inp).map fun x => (l.net, x.1, x.2, l.route.cls, l.route.id)
  steps.all fun x => steps.all fun y => (x.1, x.2.1, x.2.2.1, x.2.2.2.1) != (y.1, y.2.1, y.2.2.1, y.2.2.2.1) || x.2.2.2.2 == y.2.2.2.2

/-- A cell that sends to a node slot has a permit pool for it (R21, R269). -/
def layPermit (c : AMap (List Nat)) (ws : List (Nat × BitVec 16)) (l : Lay) : Bool :=
  match l.dest with
  | .field (.node n) _ _ =>
    siteX l.site % 2 == 0 ||
      let pool := ((takenWords ws l.site l.net l.route.cls l.inp).head?.map swPool).getD 0
      pool < (amGet c (pairKey (sitePasture l.site * 8 + siteX l.site / 2) n) []).length
  | _ => true

/-! ## Buffers and windows of a placement (R296, R343) -/

/-- Ranges that no other of them overlaps. -/
def rangesApart : List (Nat × Nat) → Bool
  | [] => true
  | (a, n) :: rest => (rest.all fun (b, m) => !overlap a n b m) && rangesApart rest

/-- A window is a range of whole 64 KiB units; in a context that shares no cell it is the whole range. -/
def windowRange (w : Nat × Nat) (size : Nat) (share : Bool) : Bool :=
  w.1 % 65536 == 0 && w.2 % 65536 == 0 && w.1 < w.2 && w.2 ≤ size && (share || w == (0, size))

/-- Buffers stand apart at the top of their cell's L or their fold's F (R296); both declarations of a shared buffer stand in one fold at one base. -/
def Placement.buffersApart (p : Placement) (g : Graph) : Bool :=
  let locs := placeLocs g p
  let all := (g.bufs.zip p.bufBases).map fun (b, base) => (locAt locs b.1, b.2.2, base)
  let f := all.filter fun x => x.2.1.sp == .f
  let names := (f.map fun x => x.2.1.name).eraseDups
  let units := g.bufs.map (·.1)
  let sumL (u : Loc) : Nat := ((all.filter fun x => x.1 == u && x.2.1.sp == .l).map fun x => x.2.1.size).sum
  let sumF (k : Nat) : Nat := (names.map fun n => (((f.find? fun x => x.2.1.name == n && foldOf x.1.idx == k).map fun x => x.2.1.size).getD 0)).sum
  -- at the top of L, of user F or of the window, in the sum of their slots
  ((all.zip units).all fun ((u, b, base), i) =>
    let top := if b.sp == .l then (nthD p.lwins i (0, Config.lSize)).2 else (nthD p.fwins i (0, Config.fUser)).2
    base % 64 == 0 && base + b.size ≤ top && top ≤ base + (if b.sp == .l then sumL u else sumF (foldOf u.idx))) &&
    ((all.map (·.1)).eraseDups.all fun u =>
      rangesApart ((all.filter fun x => x.1 == u && x.2.1.sp == .l).map fun x => (x.2.2, x.2.1.size))) &&
    (names.all fun n =>
      let uses := f.filter fun x => x.2.1.name == n
      match uses with
      | x :: rest => rest.all fun y => foldOf y.1.idx == foldOf x.1.idx && y.2.2 == x.2.2
      | [] => true) &&
    p.folds.all fun k => rangesApart (names.filterMap fun n =>
      (f.find? fun x => x.2.1.name == n && foldOf x.1.idx == k).map fun x => (x.2.2, x.2.1.size))

/-! ## What a placement must be (R16, R21, R23, R32, R269) -/

def ascending : List Nat → Bool
  | a :: b :: l => a < b && ascending (b :: l)
  | _ => true

/-- Permit pools of a fold and a slice (R21, R269): up to four, each of at least one; 1 to 8 permits in all on the fold's own pasture, 1 to 4 on
another. -/
def poolsOk (fold slice : Nat) (pools : List Nat) : Bool :=
  1 ≤ pools.length && pools.length ≤ 4 && (pools.all fun n => 1 ≤ n) && pools.sum ≤ if fold / 8 == pastureOf slice then 8 else 4

/-- The folds of a pasture stand side by side, and a slice column between or beside them is part of the rectangle (R32). Slice column k stands left of
fold k of its pasture (R6, R9). -/
def foldsTogether (folds : List Nat) : Bool :=
  folds.all fun f => folds.all fun g => f / 8 != g / 8 || (List.range (g - f)).all fun i => folds.contains (f + i)

def sliceBeside (folds : List Nat) (slice : Nat) : Bool :=
  slice < 384 && folds.any fun f => f / 8 == pastureOf slice && (slice % 96 / 12 == f % 8 || slice % 96 / 12 == f % 8 + 1)

/-- A placement of the graph on healthy cells of folds that no other paddock holds, a rectangle in each pasture (R32). -/
def Placement.ok (p : Placement) (g : Graph) (retired busy : List Nat) (share : Bool) : Bool :=
  let locs := placeLocs g p
  let srcs := g.wireSrcs.zip p.wires
  let reds := g.reductions
  let lays := g.lays p
  let (_, joins) := g.wires p
  let near (slice : Nat) : Bool := sliceBeside p.folds slice
  p.folds.length == g.folds && ascending p.folds && foldsTogether p.folds && (p.folds.all fun f => f < 32 && !busy.contains f) && p.sites.length == g.nodes.length &&
    decide (locs.Nodup) && (locs.all fun l => match l with
      | .cell i _ => i < 384 && p.folds.contains (foldOf i) && !retired.contains i
      | .node i => near i) &&
    p.wires.length == g.wireSrcs.length && (p.wires.all fun x => x.1 < 16) &&
    decide ((srcs.map fun x => (x.1.unit, x.2.1)).Nodup) &&
    (srcs.all fun x => !(g.sinks.any fun s => s.unit == x.1.unit && s.port == 0x70 + x.2.1)) &&
    p.chanRoutes.length == g.chans.length && p.seedRoutes.length == g.seeds.length && p.sinkRoutes.length == g.sinks.length &&
    p.tearRoutes.length == (g.tears.map (·.refs.length)).sum && p.bufBases.length == g.bufs.length && Placement.buffersApart p g &&
    ((p.wires.map (·.2) ++ p.chanRoutes ++ p.seedRoutes ++ p.sinkRoutes ++ p.tearRoutes).all fun r => r.id < 256 && r.cls < 8) &&
    p.trees.length == reds.length && ((reds.zip p.trees).all fun (r, t) =>
      let n := (g.wireSrcs.filter fun w => g.isSend w && w.ref == r).length
      (treeLeaves t).length == n && (List.range n).all fun i => (treeLeaves t).contains i) &&
    (reds.all fun r => decide (((srcs.filter fun x => g.isSend x.1 && x.1.ref == r).map fun x => x.2.2.cls).eraseDups.length ≤ 1)) &&
    (joins.all fun c => hasAdder c.site && c.route < 256) &&
    (treeLeaves p.collTree).length == g.folds && ((List.range g.folds).all fun i => (treeLeaves p.collTree).contains i) &&
    (let sc := (List.range g.nodes.length).filter fun u => nthD g.nodes u false && (nthD g.units u {}).mode == .sc
     p.scRing.length == sc.length && sc.all fun u => p.scRing.contains u) &&
    decide ((p.permits.map (·.1)).Nodup) &&
    (p.permits.all fun x => p.folds.contains (x.1 / 512) && near (x.1 % 512) && poolsOk (x.1 / 512) (x.1 % 512) x.2) &&
    (p.lwins.all fun w => windowRange w Config.lSize share) && (p.fwins.all fun w => windowRange w Config.fUser share) &&
    (switchesOk p.switches fun _ => true) && (lays.all fun l => layOk p joins l && layPermit (amOf p.permits) p.switches l) &&
    laysApart p.switches lays && barOk p g && waveOk p locs &&
    ((p.wave :: p.bars.flatMap fun x => [x.2.2.1, x.2.2.2]).all fun r => r.id < 256 && r.cls < 8)

/-! ## The mapper's cache (R23) -/

/-- What a placement is cached under: the graph object and the grid-health map taken together. -/
def placeKey (img : List Byte) (retired : List Nat) : BitVec 256 :=
  Config.digest ((img.map fun (b : Byte) => b.toNat) ++ (List.range 384).map fun i => b2n (retired.contains i))

/-- The shapes of a placement's reduction trees, and of its COLL tree (R16). -/
def treeShapes (p : Placement) : List FoldTree × FoldTree := (p.trees, p.collTree)

/-- The mapper's placement for the present grid-health map: the cached one where its folds are free and it has the shapes that are asked for,
else a new one. -/
def State.mapped (s : State) (img : List Byte) (busy : List Nat) (shapes : Option (List FoldTree × FoldTree)) : Option Placement :=
  match s.placed.find? fun x => x.1 == placeKey img s.retired with
  | some (_, p) =>
    if (p.folds.all fun f => !busy.contains f) && (shapes.isNone || shapes == some (treeShapes p)) then some p else Config.mapper img s.retired busy shapes
  | none => Config.mapper img s.retired busy shapes

/-- A placement goes into the cache, unless one stands there. -/
def State.cachePlace (s : State) (img : List Byte) (p : Placement) : State :=
  let k := placeKey img s.retired
  if s.placed.any fun x => x.1 == k then s else { s with placed := s.placed ++ [(k, p)] }

/-- Every placement under a handle has the shape that the handle records: its trees (R16). -/
def Placement.sameShape (p q : Placement) : Bool := treeShapes p == treeShapes q

/-! ## Moving a configuration to its resident paddock -/

def relocLoc (m : List (Loc × Loc)) (l : Loc) : Loc :=
  match m.find? fun x => x.1 == l with
  | some (_, y) => y
  | none => l

def relocDest (m : List (Loc × Loc)) (pad : Nat) : Dest → Dest
  | .field u slot f => .field (relocLoc m u) slot f
  | .trigger u c => .trigger (relocLoc m u) c
  | .sink _ k => .sink pad k
  | .join _ j side => .join pad j side
  | .root _ b k => .root pad b k
  | .wave _ u => .wave pad (relocLoc m u)
  | .nowhere => .nowhere

/-- A configuration with its cells' cache entries and its paddock number in place. -/
def Conf.relocate (c : Conf) (m : List (Loc × Loc)) (pad : Nat) : Conf :=
  let d := relocDest m pad
  { c with
    units := c.units.map fun (l, u) =>
      (relocLoc m l, { u with
        chans := u.chans.map fun (n, x) => (n, { x with dest := d x.dest })
        tear := u.tear.map d
        ports := u.ports.map fun (n, l) => (n, l.map d) })
    seeds := c.seeds.map fun x => { x with dest := d x.dest }
    joins := c.joins.map fun x => { x with dest := d x.dest } }

end Sys2Proof.Machine
end

