-- ==== Sys2Proof/Machine/Load.lean ====
section
/-!
DEFINITION. Configuration handles (R345), what passes to a context is cleared (R342), loading a configuration into a cell or a node (R33, R35,
R343), CFGLD (R318).
-/

namespace Sys2Proof.Machine

/-! ## Handles (R345) -/

def handleCtx (h : DWord) : Nat := bitsOf h.toNat 63 58
def handleGen (h : DWord) : Nat := bitsOf h.toNat 57 42
def handleSerial (h : DWord) : Nat := bitsOf h.toNat 41 16

/-- A handle's bits. -/
def handleWord (ctx gen serial : Nat) : DWord :=
  let top : BitVec 48 := BitVec.ofNat 48 (ctx * 2 ^ 42 + gen * 2 ^ 26 + serial)
  top ++ Config.handleCheck top

/-- The table entry of a handle that is valid for a context. -/
def State.validHandle (s : State) (h : DWord) (ctx : Nat) : Option Handle :=
  match amGet? s.handles (handleSerial h) with
  | some e =>
    if handleCtx h == ctx && handleGen h == (amGet s.ctxs ctx {}).gen && h.extractLsb' 0 16 == Config.handleCheck (h.extractLsb' 16 48) && e.live &&
        e.ctx == ctx && e.gen == handleGen h then some e else none
  | none => none

/-! ## What passes to a different context (R342) -/

/-- Nothing is listed in a range: every byte reads as zero. -/
def Memory.clearRange (m : Memory) (a n : Nat) : Memory := m.filter fun x => !(a ≤ x.1 && x.1 < a + n)

/-- A context as an owner: its number, in its generation (R340); a context that CTX_CREATE makes of a killed one's number is another. -/
def State.owner (s : State) (ctx : Nat) : Nat := (amGet s.ctxs ctx {}).gen * 64 + ctx

/-- A range passes to a context: it is zeroed unless that context was the last to own it. Marks of the lines go with the bytes. -/
def State.claim (s : State) (key : Nat) (ctx : Nat) (sp : Space) (a n : Nat) : State :=
  if amGet? s.owners key == some (s.owner ctx) then s
  else
    let s := s.setMem sp ((s.mem sp).clearRange a n)
    { s with
      owners := amPut s.owners key (s.owner ctx)
      marks := s.marks.filter fun m => !(m.1 == sp && a ≤ 64 * m.2.1 && 64 * m.2.1 < a + n) }

/-- The 64 KiB units of a window. -/
def windowUnits (w : Nat × Nat) : List Nat := (List.range ((w.2 - w.1 + 65535) / 65536)).map (· + w.1 / 65536)

def ownL (cell k : Nat) : Nat := cell * 32 + k
def ownF (fold k : Nat) : Nat := 20000 + fold * 256 + k
def ownS (slice : Nat) : Nat := 40000 + slice

/-- What a cell's core and counters keep of contexts that hold no configuration there any more is zeroed when the cell passes to a context. -/
def State.clearCore (s : State) (cell ctx : Nat) : State :=
  let gone (x : Nat × DWord) : Bool := !(x.1 == ctx || (s.units.any fun (key, u) => isCellKey key && idxOf key == cell && u.live && u.ctx == x.1))
  let k := s.coreOf cell
  let c := s.getCell cell
  (s.setCoreOf cell { k with trapCause := k.trapCause.filter fun x => !gone x, trapPc := k.trapPc.filter fun x => !gone x }).setCell cell
    { c with fireCnt := c.fireCnt.filter fun x => !gone x, excRec := c.excRec.filter fun x => !gone x }

/-- The L and F windows of a cell's configuration pass to its context, and its core. -/
def State.claimCell (s : State) (cell ctx : Nat) (c : UnitConf) : State :=
  let s := s.clearCore cell ctx
  let s := (windowUnits c.lwin).foldl (fun s k => s.claim (ownL cell k) ctx .l (lAddr cell (k * 65536)) 65536) s
  (windowUnits c.fwin).foldl (fun s k => s.claim (ownF (foldOf cell) k) ctx .f (fAddr (foldOf cell) (k * 65536)) 65536) s

/-- The F of folds that a paddock holds and where it has no unit passes to its context, where no other context has a window (R342, R343). -/
def State.claimFolds (s : State) (ctx : Nat) (c : Conf) : State :=
  let bare := c.folds.filter fun f =>
    !(c.units.any fun x => match x.1 with
        | .cell i _ => foldOf i == f
        | .node _ => false) &&
      !(s.units.any fun (key, u) => isCellKey key && u.live && u.ctx != ctx && foldOf (idxOf key) == f)
  bare.foldl (fun s f => (windowUnits (0, Config.fUser)).foldl (fun s k => s.claim (ownF f k) ctx .f (fAddr f (k * 65536)) 65536) s) s

def State.claimSlice (s : State) (slice ctx : Nat) : State := s.claim (ownS slice) ctx .s (sliceAddr slice 0) (2 ^ 22)

/-! ## A unit as a load leaves it -/

/-- Classes bound at configuration (R298). -/
def UnitConf.bound0 (c : UnitConf) : AMap Nat :=
  amOf (c.actors.filterMap fun (h, a) => a.cls.map fun k => (k, h))

def UnitConf.fresh (c : UnitConf) (pad ctx : Nat) (handle : DWord) (slotNo : Option Nat) (waved : Bool) : UnitSt :=
  { live := true, slotNo := slotNo, pad := pad, ctx := ctx, handle := handle, conf := c, waved := waved, tiles := c.tiles
    bound := c.bound0, scBudget := 0 }

/-- Contents of state and plain tiles as the configuration gives them (R171; notes/assumptions/128.md). Of a state tile those are FIR's taps in row
0: every carry is left empty (R194). -/
def State.loadTiles (s : State) (cell : Nat) (c : UnitConf) : State :=
  c.tiles.foldl (fun s (n, t) =>
    if t.role == .state || t.role == .plain then
      let img := (amGet c.images n []).take (if t.role == .state then stateRow t else t.size)
      (s.storeMem .l (tileAddr cell t) ((img ++ toBytes (t.size - img.length) 0).take t.size)).padTile cell t
    else s) s

/-- A unit as CFGLD leaves it stands at its place. -/
def State.putUnit (s : State) (loc : Loc) (u : UnitSt) : State :=
  let s := s.setU loc.key u
  match loc with
  | .cell i _ => s.loadTiles i u.conf
  | .node _ => s

/-! ## What a load rejects (R35, R48, R53, R77, R343) -/

/-- Configurations of a cell, by their key. -/
def State.unitsOn (s : State) (cell : Nat) : List (Nat × UnitSt) :=
  s.units.filter fun (key, u) => isCellKey key && idxOf key == cell && u.live

def windowsApart (a b : Nat × Nat) : Bool := a.2 ≤ b.1 || b.2 ≤ a.1

/-- Configurations of other contexts allow a further one: all share their cells, and windows are disjoint. -/
def State.shareOk (s : State) (cell ctx : Nat) (c : UnitConf) : Bool :=
  (s.units.all fun (key, u) => !(u.live && isCellKey key && u.ctx != ctx) ||
    ((idxOf key != cell || ((amGet s.ctxs ctx {}).share && (amGet s.ctxs u.ctx {}).share && windowsApart c.lwin u.conf.lwin)) &&
      (foldOf (idxOf key) != foldOf cell || windowsApart c.fwin u.conf.fwin)))

/-- The rows of a cell's cached configurations and of one more are within the cell's 2,048 (R77, R343). -/
def State.rowsFit (s : State) (cell key : Nat) (c : UnitConf) : Bool :=
  let others := (s.unitsOn cell).filter fun (k, u) => k != key && u.slotNo.isSome
  (others.map fun (_, u) => u.conf.rows).sum + c.rows ≤ 2048

/-- The slot that a load of a unit names when it rejects it, with the rows and windows of the cell's other configurations. -/
def State.loadReject (s : State) (conf : Conf) (loc : Loc) (c : UnitConf) (ctx : Nat) : Option Nat :=
  let words : Bool := switchesOk conf.switches fun site => site == loc.site
  match loc with
  | .node _ =>
    match c.cfgIllegal true with
    | some slot => some slot
    | none => if words then none else some 0
  | .cell i _ =>
    match c.cfgIllegal false with
    | some slot => some slot
    | none => if !words || !s.rowsFit i loc.key c || !s.shareOk i ctx c then some 0 else none

/-! ## CFGLD (R318) -/

/-- A free place among a cell's configurations, and a free entry of its cache. -/
def State.freeIndex (s : State) (cell : Nat) : Nat :=
  ((List.range 64).find? fun e => !(s.getU (Loc.key (.cell cell e))).live).getD 64

def State.freeEntry (s : State) (cell : Nat) : Option Nat :=
  (List.range 4).find? fun n => !((s.unitsOn cell).any fun x => x.2.slotNo == some n)

/-- The configuration that a cache entry holds. -/
def State.inEntry (s : State) (cell n : Nat) : Option (Nat × UnitSt) := (s.unitsOn cell).find? fun x => x.2.slotNo == some n

/-- A firing of a configuration is in flight. -/
def State.unitBusy (s : State) (key : Nat) : Bool :=
  let k := s.coreOf (idxOf key)
  (k.running || k.failed || k.finWait) && Loc.key (.cell (idxOf key) k.firing.entry) == key

/-- A tile's bytes are copied out of L with the checks of L (R372): a tile with a line that cannot be read is tainted, whatever becomes of its
copy, and the failure is reported. -/
def State.copyTileOut (s : State) (key n : Nat) : State × List Byte :=
  let t := s.tile key n
  let (s, bs, c) := s.checkedRead .l (tileAddr (idxOf key) t) t.size
  match c with
  | some k =>
    ((s.updU key fun u => { u with tiles := amPut u.tiles n { t with err := true, cause := if t.err then t.cause else k } }).report
      { cause := k, pad := (s.getU key).pad, cell := some (idxOf key), site := some (cellSite (idxOf key)), commitScope := true }, bs)
  | none => (s, bs)

/-- A configuration leaves its cache entry (R273, R274): it keeps its state, its tiles are copied to where only firmware reaches, and it takes
no part until it is fetched; determined firings keep their places (R264). -/
def State.swapOut (s : State) (key : Nat) : State :=
  let (s, saved) := (s.getU key).tiles.foldl (fun (s, l) (n, _) =>
    let (s, bs) := s.copyTileOut key n
    (s, l ++ [(n, bs)])) (s, [])
  s.updU key fun u => { u with slotNo := none, saved := saved }

/-- A configuration comes back to an entry: every tile has the contents that it had (R274). -/
def State.swapIn (s : State) (key n : Nat) : State :=
  let u := s.getU key
  let s := u.saved.foldl (fun s (i, bs) => s.storeMem .l (tileAddr (idxOf key) (u.tile i)) bs) s
  s.updU key fun u => { u with slotNo := some n, saved := [] }

/-- The unit of a configuration that stands on a cell. -/
def Conf.onCell (c : Conf) (cell : Nat) : Option (Loc × UnitConf) :=
  c.units.find? fun (l, _) =>
    match l with
    | .cell i _ => i == cell
    | .node _ => false

/-- The status word of CFGLD. -/
def cfgldStatus (cell slot code : Nat) : DWord := BitVec.ofNat 64 (cellSite cell * 2 ^ 16 + slot % 256 * 2 ^ 8 + code)

/-- Loads a handle's unit for a cell into a cache entry; answers the status. The configuration that the entry held is swapped out. -/
def State.cfgld (s : State) (h : DWord) (cell entry ctx : Nat) : State × DWord :=
  match s.validHandle h ctx with
  | none => (s, cfgldStatus cell 0 2)
  | some e =>
    let old := s.inEntry cell entry
    let mine := (s.unitsOn cell).find? fun x => x.2.handle == h
    let busy (x : Option (Nat × UnitSt)) : Bool := match x with
      | some (key, _) => s.unitBusy key
      | none => false
    if busy old || busy mine then (s, cfgldStatus cell 0 3)
    else
      let pad := ((s.pads.find? fun x => x.2.handle == h).map (·.1)).getD s.core.firing.pad
      let conf := match s.pads.find? fun x => x.2.handle == h with
        | some (_, p) => p.conf
        | none => e.conf
      match conf.onCell cell with
      | none => (s, cfgldStatus cell 0 1)
      | some (_, c) =>
        let loc := match mine with
          | some (key, _) => Loc.ofKey key
          | none => .cell cell (s.freeIndex cell)
        let s1 := match old with
          | some (key, _) => if key == loc.key then s else s.swapOut key
          | none => s
        match s1.loadReject conf loc c ctx with
        | some slot => (s, cfgldStatus cell slot 1)
        | none =>
          let s := s1.claimCell cell ctx c
          let waved := (s.getPad pad).waveLeft.isEmpty
          let s := s.putUnit loc (c.fresh pad ctx h (some entry) waved)
          (s.post (.handlerSelect cell), cfgldStatus cell 0 0)

/-- The cell that a CFGLD names, or none where its row field is reserved. -/
def State.cfgldTarget (s : State) (row : BitVec 4) : Option Nat :=
  if isFirmware s.curCore then
    if s.curCore < 416 && row.toNat < 12 then some (coreFold s.curCore * 12 + row.toNat) else none
  else if row == 0 then some s.curCore else none

/-- CFGLD. A reserved entry or row traps whatever the guard holds (R38). -/
def execCfgld (entry : BitVec 4) (a b : RegNum) (row : BitVec 4) (g : Guard) (s : State) : Out :=
  match (if 4 ≤ entry.toNat then none else s.cfgldTarget row) with
  | none => .next (s.takeTrap .reservedField 0)
  | some cell =>
    .next (runWord s g [a] [] true fun s =>
      let h := s.core.reg a
      let (s, st) := s.cfgld h cell entry.toNat (if isFirmware s.curCore then handleCtx h else s.core.firing.ctx)
      .done (s.setCore (s.core.setReg b st)))

/-! ## A paddock becomes resident (R33) -/

/-- COPY packets of other contexts that have started and not performed: what they copy does not pass to this context meanwhile (R339). -/
def State.copiesOf (s : State) (ctx : Nat) : List (EngAddr × Nat) :=
  s.engines.flatMap fun (_, l) => l.flatMap fun c =>
    match c.op with
    | .cpy src dst n .. => if c.pkt.isSome && c.ctx != ctx && !c.done then [(src, n), (dst, n)] else []
    | _ => []

/-- Folds that resident paddocks hold, of one of which this context may not be a tenant. -/
def State.foldFree (s : State) (ctx fold : Nat) : Bool :=
  ((s.copiesOf ctx).all fun x => x.1.space != 1 || x.1.fold != fold) && s.pads.all fun (_, p) => p.phase == .parked || !p.conf.folds.contains fold ||
    (p.ctx != ctx && (amGet s.ctxs ctx {}).share && (amGet s.ctxs p.ctx {}).share)

/-- Permits that resident paddocks hold on a slice (R269). -/
def State.permitsOn (s : State) (slice : Nat) : Nat :=
  (s.pads.map fun (_, p) => if p.phase == .parked then 0
    else ((p.conf.permits.filter fun x => x.1 % 512 == slice).map fun x => x.2.sum).sum).sum

/-- No slice passes its 64 permits, and no resident paddock of another context holds one of the slices. -/
def State.slicesFree (s : State) (ctx : Nat) (c : Conf) : Bool :=
  (((c.permits.map fun x => x.1 % 512).eraseDups).all fun slice =>
    s.permitsOn slice + ((c.permits.filter fun x => x.1 % 512 == slice).map fun x => x.2.sum).sum ≤ 64) &&
    c.slices.all fun sl =>
      ((s.copiesOf ctx).all fun x => x.1.space != 2 || sl < sliceOfAddr x.1.addr || sliceOfAddr (x.1.addr + x.2) < sl) &&
        s.pads.all fun (_, p) => p.phase == .parked || p.ctx == ctx || !p.conf.slices.contains sl

/-- A configuration can become resident now. -/
def State.admissible (s : State) (ctx : Nat) (c : Conf) : Bool := (c.folds.all fun f => s.foldFree ctx f) && s.slicesFree ctx c

/-- New places among the configurations of its cells. -/
def State.newPlaces (s : State) (c : Conf) : List (Loc × Loc) :=
  c.units.map fun (l, _) =>
    (l, match l with
        | .cell i _ => Loc.cell i (s.freeIndex i)
        | .node i => Loc.node i)

/-- The shepherds load every unit; the wave is on its way to each. The first unit that a load rejects stops it. -/
def State.loadUnits (s : State) (pad ctx : Nat) (h : DWord) (c : Conf) : List (Loc × UnitConf) → Option State
  | [] => some s
  | (loc, u) :: rest =>
    match s.loadReject c loc u ctx with
    | some _ => none
    | none =>
      match loc with
      | .cell i _ => ((s.claimCell i ctx u).putUnit loc (u.fresh pad ctx h (s.freeEntry i) false)).loadUnits pad ctx h c rest
      | .node _ => (s.putUnit loc (u.fresh pad ctx h (some 0) false)).loadUnits pad ctx h c rest

/-- A launch begins: gweuf counts what the bridges that it crosses lose from here on (R395). -/
def State.beginCounts (s : State) (c : Conf) : State :=
  { s with links := s.links.map fun (k, l) =>
      (k, if k < 100 && c.bridges.any fun x => linkKey x.1 x.2 == k then { l with since := (l.erasures, l.late, l.losses) } else l) }

/-- Makes a paddock resident under a configuration that stands where it is to run: its slices pass to its context, its units are
loaded, the wave starts. None where a load is rejected. -/
def State.makeResident (s : State) (pad : Nat) (p : Pad) (c : Conf) : Option State :=
  let m := s.newPlaces c
  let c := c.relocate m pad
  let s := (c.slices.foldl (fun s sl => s.claimSlice sl p.ctx) s).claimFolds p.ctx c
  let s := s.setPad pad { p with conf := c, phase := .loading, waveLeft := c.units.map (·.1), markedAt := [] }
  match s.loadUnits pad p.ctx p.handle c c.units with
  | some s => some (s.sendWaves pad 2)
  | none => none

/-! ## A paddock leaves (R276, R280, R290) -/

/-- Stores that firings have committed and that are still on their way are performed, but for those that stand behind a held one of their stream
(R221). -/
def State.landStores (s : State) (pad : Nat) : State :=
  let s := s.deliver fun g => g.pad == pad
  (s.units.filter fun x => x.2.live && x.2.pad == pad).foldl (fun s (key, u) =>
    (u.stores.filter fun x => !x.visible).foldl (fun s x => s.showStore key x) s) s

/-- The paddock's cells, nodes, permits and tags are free: nothing of it is under way any more. -/
def State.freeUnits (s : State) (pad : Nat) : State :=
  let s := (s.landStores pad).abortMessages fun d => d.isOf s.padOfUnit pad
  let of (e : Event) : Bool := e.instr.padOf s.padOfUnit == some pad
  let keys := (s.units.filter fun x => x.2.live && x.2.pad == pad).map (·.1)
  let s := s.updPad pad fun p => { p with markedAt := [] }
  { s with
    events := s.events.filter fun e => !of e
    ready := s.ready.filter fun r => (s.getU r.1.key).pad != pad || !(s.getU r.1.key).live
    cells := s.cells.map fun (i, c) => (i, { c with miss := c.miss.filter fun m => !m.2.isOf s.padOfUnit pad })
    units := s.units.filter fun x => !(keys.contains x.1) }

/-- The paddock is gone. -/
def State.dropPad (s : State) (pad : Nat) : State :=
  let s := s.freeUnits pad
  { s with pads := amDel s.pads pad }.post .droverSelection

end Sys2Proof.Machine
end

