-- ==== Sys2Proof/Machine/Rollback.lean ====
section
/-!
DEFINITION. Rollback of a paddock to a commit (R85, R286, R289, R310, R321, R335, R375, R386): the snapshots of the commit are put back, sources
start again behind it.
-/

namespace Sys2Proof.Machine

/-! ## Moved units -/

/-- A paddock's snapshots and overflow entries, named by the places that its units have now. -/
def Pad.remap (p : Pad) (m : List (Loc × Loc)) : Pad :=
  let go (l : Loc) : Loc := relocLoc m l
  let ov (x : OvEntry) : OvEntry := { x with u := go x.u }
  { p with
    snaps := p.snaps.map fun x => { x with u := go x.u, overflow := x.overflow.map ov }
    snapActors := p.snapActors.map fun x => { x with u := go x.u }
    arrSnaps := p.arrSnaps.map fun (c, l) => (c, l.map fun (u, a) => (go u, a)) }

/-! ## Slots -/

/-- Every consumer stream of a slot carries the commit flag on its next data token (R287). -/
def State.allSinks (s : State) (e : SlotEnv) : List Nat :=
  (e.streams.flatMap fun st => (e.sinks (s.getU e.key) st).map Sink.num).eraseDups

/-- Puts back a slot's snapshot. A node's stores stand in their order among all of the node's. Of a ring, the writer's holds the tail and the reader's the head. -/
def State.restoreSlot (s : State) (tested : Nat) (x : SnapSlot) : State :=
  match s.slotEnv x.u.key x.slot with
  | none => s
  | some e =>
    let s := s.setSlot e.key e.slot { x.st with commitMark := s.allSinks e }
    let s := x.tiles.foldl (fun s (n, t, bs) =>
      match e.loc with
      | .cell i _ => (s.setTile e.key n t).storeMem .l (tileAddr i t) bs
      | .node _ => s) s
    let s := x.rings.foldl (fun s (r, g) =>
      s.updRing e.key r fun h =>
        if e.writes == some r then { h with tail := g.tail, seq := g.seq, closed := g.closed, waiting := [] } else { h with head := g.head }) s
    let s := match e.instr with
      | .tear _ => s.updU e.key fun u => { u with tear := x.tear }
      | .muster _ => s.updU e.key fun u => { u with muster := x.muster }
      | _ => s
    s.updU e.key fun u =>
      let back (y : NodeStore) : NodeStore :=
        { y with writes := [], visible := true, held := if y.commit ≤ tested then [] else y.held, ups := if y.commit ≤ tested then [] else y.ups }
      let l := scSorted (·.order) (u.stores ++ x.stores.map back)
      { u with stores := l, storeNo := (l.getLast?.map (·.order)).getD 0 }

/-! ## Actors -/

/-- Where a carried range stands now. -/
def carriedAt (c : UnitConf) (cell : Nat) : Carried → Space × Nat
  | .buf b =>
    let x := amGet c.bufs b {}
    (x.sp, if x.sp == .l then lAddr cell x.base else fAddr (foldOf cell) x.base)
  | .lrange a _ => (.l, lAddr cell a)
  | .frange a _ => (.f, fAddr (foldOf cell) a)

/-- Puts back an actor's snapshot: its carried ranges and buffer pointers, and what its cell's control state was. -/
def State.restoreActor (s : State) (pad : Nat) (x : SnapActor) : State :=
  let key := x.u.key
  let u := s.getU key
  let cell := x.u.idx
  let carried := (amGet u.conf.actors x.handler {}).carried
  let s := (carried.zip x.ranges).foldl (fun s (k, _, _, bs) =>
    let (sp, a) := carriedAt u.conf cell k
    s.storeMem sp a bs) s
  let s := s.updPad pad fun p => { p with bufs := x.bufs.foldl (fun m (n, b) => amPut m n b) p.bufs }
  s.updU key fun u =>
    { u with
      arrivals := x.arrivals, chanSeq := x.chanSeq, chanLast := x.chanLast, chanMark := x.chanMark, tags := x.tags, bound := x.bound
      masked := x.masked, actors := amUpd u.actors x.handler {} fun a => { a with commits := x.commit } }

/-- Arrivals that the root of a barrier holds when its members have arrived as often as their counts say, modulo 2^24 (R310;
notes/assumptions/106.md). -/
def rootHolds (members : List (Nat × Nat)) : List (Nat × Nat) :=
  let least (g : Nat) : Bool := members.all fun x => (x.2 + 2 ^ 24 - g) % 2 ^ 24 < 2 ^ 23
  let done := ((members.map (·.2)).find? least).getD 0
  members.flatMap fun (m, n) => (List.range ((n + 2 ^ 24 - done) % 2 ^ 24)).map fun i => (m, (done + i) % 2 ^ 24)

/-! ## Sources, sinks, joins -/

/-- A source goes back to what it had sent at commit c. -/
def SeedSt.backTo (st : SeedSt) (c : Nat) : SeedSt :=
  if c == 0 then { base := st.base, extent := st.extent, host := st.host, replay := st.replay }
  else
    match st.markUpTo c with
    | some (next, sent, lastTag) =>
      { st with
        next := next, sent := sent, commits := lastUpTo c (st.marks.map (·.1)), lastTag := lastTag, lastSeq := (next + 2 ^ 24 - 1) % 2 ^ 24, markNext := true
        closed := st.closed && st.commits ≤ c, marks := st.marks.filter fun x => decide (x.1 ≤ c) }
    | none => st

def SinkSt.backTo (st : SinkSt) (c : Nat) : SinkSt :=
  { st with
    log := [], held := upTo c st.held, aligned := c
    closed := match st.closed with
      | some k => if k ≤ c then some k else none
      | none => none }

def JoinSt.backTo (st : JoinSt) (c : Nat) : JoinSt :=
  let at' (side : Bool) : AMap Nat := amGet st.marks (joinKey c side) []
  { wait := [], closes := (at' true).foldl (fun m (k, v) => amPut m k v) (at' false), next := amGet st.nexts c [], commits := (c, c)
    marks := st.marks.filter fun x => decide (x.1 ≤ 2 * c + 1), nexts := st.nexts.filter fun x => decide (x.1 ≤ c) }

/-! ## The paddock -/

/-- The paddock's records go back to commit c. -/
def Pad.backTo (p : Pad) (c : Nat) : Pad :=
  { p with
    seeds := p.seeds.map fun (k, st) => (k, st.backTo c)
    sinks := p.sinks.map fun (k, st) => (k, st.backTo c)
    joins := p.joins.map fun (k, st) => (k, st.backTo c)
    commit := c
    testAt := p.testAt.filter fun x => decide (x.1 ≤ c)
    overflow := (p.slotSnaps c).flatMap (·.overflow)
    snaps := p.snaps.filter fun x => decide (x.commit ≤ c)
    snapActors := p.snapActors.filter fun x => decide (x.commit ≤ c)
    arrSnaps := p.arrSnaps.filter fun x => decide (x.1 ≤ c)
    bufs := if c == 0 then [] else p.bufs
    roots := [], permits := [], ringPos := 0, waits := [], stop := false, stepTo := none, passed := [], passedFire := [], deferred := []
    transient := false, reports := [] }

/-- Commit c stands again in a paddock whose units are as CFGLD left them. -/
def State.restore (s : State) (pad c : Nat) : State :=
  let s := s.updPad pad fun p => p.backTo c
  let p := s.getPad pad
  let s := (p.slotSnaps c).foldl (fun s x => s.restoreSlot p.tested x) s
  let s := ((amGet p.arrSnaps c [])).foldl (fun s (u, a) => s.updU u.key fun x => { x with arrivals := a }) s
  let s := (p.actorSnaps c).foldl (fun s x => s.restoreActor pad x) s
  let roots := p.conf.members.map fun (b, l) =>
    (b, rootHolds (l.map fun m =>
      (m, match p.conf.units[m]? with
          | some (u, _) => amGet (s.getU u.key).arrivals b 0
          | none => 0)))
  let s := s.updPad pad fun p => { p with roots := roots }
  p.conf.units.foldl (fun s x => s.settleUnit x.1.key) s

/-- The paddock's units are put back as CFGLD leaves them, where they stand (R375). -/
def State.reloadUnits (s : State) (pad : Nat) : State :=
  (s.units.filter fun x => x.2.live && x.2.pad == pad).foldl (fun s (key, u) =>
    s.putUnit (Loc.ofKey key) (u.conf.fresh pad u.ctx u.handle u.slotNo true)) s

/-- Nothing of the paddock is under way: its tokens, its firings' events and its misses are gone. -/
def State.dropWay (s : State) (pad : Nat) : State :=
  let of (e : Event) : Bool := e.instr.padOf s.padOfUnit == some pad
  let s := s.abortMessages fun d => d.isOf s.padOfUnit pad
  { s with
    events := s.events.filter fun e => !of e
    ready := s.ready.filter fun r => (s.getU r.1.key).pad != pad
    cells := s.cells.map fun (i, c) => (i, { c with miss := c.miss.filter fun m => !m.2.isOf s.padOfUnit pad }) }

/-- Rollback in place: the paddock goes on from its last complete commit. -/
def State.rollback (s : State) (pad : Nat) : State :=
  let c := (s.getPad pad).commit
  let s := ((s.landStores pad).dropWay pad).reloadUnits pad
  let s := s.updPad pad fun p => { p with phase := .running, waveLeft := [] }
  let s := (s.restore pad c).startSeeds pad
  let cells := (s.getPad pad).conf.units.filterMap fun x => Loc.cell? x.1
  let s := s.postAll (cells.map fun i => Event.mk (.handlerSelect i) {})
  ((s.post (.externalPublish pad)).askCommit pad).checkDone pad

end Sys2Proof.Machine
end

