-- ==== Sys2Proof/Machine/Actors.lean ====
section
/-!
DEFINITION. Triggers, the selection of handlers and the start of a firing (R134, R261, R262, R264, R266, R267, R271, R299, R300), paddock
barriers (R310), the configuration cache and tile swaps (R273 to R275, R291, R336).
-/

namespace Sys2Proof.Machine

/-! ## Triggers (R87, R271, R310) -/

/-- The trigger that a control token of kind stream barrier makes: its payload is the generation. -/
def barrierTrigger (t : Token) : Token :=
  { t with net := .scalar, kind := 2, payload := BitVec.ofNat 512 t.seq, valid := 1, lo := 0, hi := openHi, tag := 0, seq := 0 }

/-- TRIGGER_ARRIVAL: the packet waits in the pending queue of its class. A trigger without a valid lane 0 marks no handler. -/
def execTriggerArrival (u : Loc) (cls : Nat) (t : Token) (s : State) : Out :=
  let pad := s.padOfUnit u
  s.whileRunning pad (.triggerArrival u cls t) fun s =>
    atUnit s u t (.trigger u cls) fun s =>
      if t.isCommit then .next (s.askCommit pad)
      else
        let t := if t.net == .control then barrierTrigger t else t
        if t.net == .control || !t.valid.getLsbD 0 || t.isClose then .next s
        else .next ((s.updU u.key fun x => { x with pending := x.pending ++ [(cls, t)] }).post (.handlerSelect u.idx))

/-! ## Runnable handlers (R261, R266, R300) -/

/-- Classes that are bound to a handler. -/
def UnitSt.classesOf (u : UnitSt) (h : Nat) : List Nat := (u.bound.filter fun x => x.2 == h).map (·.1)

/-- The oldest pending trigger of an unmasked class of a handler. -/
def UnitSt.nextTrigger (u : UnitSt) (h : Nat) : Option (Nat × Token) :=
  u.pending.find? fun x => (u.classesOf h).contains x.1 && !u.masked.getLsbD x.1

/-- Conditions 1 and 2. -/
def UnitSt.triggered (u : UnitSt) (h : Nat) (a : HandlerConf) : Bool :=
  if a.isTrap then !(amGet u.actors h {}).traps.isEmpty
  else a.cls.isNone || (u.nextTrigger h).isSome

/-- Condition 3. -/
def State.buffersOk (s : State) (u : UnitSt) (a : HandlerConf) : Bool :=
  let p := s.getPad u.pad
  let filled (b : Nat) : Nat :=
    let x := amGet p.bufs (amGet u.conf.bufs b {}).name {}
    (x.prod + 2 ^ 32 - x.cons) % 2 ^ 32
  (a.take.all fun (b, n) => n ≤ filled b) && a.give.all fun (b, n) => n + filled b ≤ (amGet u.conf.bufs b {}).slots

/-- The free tags of a space, lowest first. -/
def UnitSt.freeTags (u : UnitSt) (sp : Nat) : List Nat :=
  (List.range (amGet u.conf.tags sp 1)).filter fun t => !(amGet u.tags sp {}).alloc.contains t

/-- Condition 4. -/
def UnitSt.tagsOk (u : UnitSt) (a : HandlerConf) : Bool :=
  match a.tagd with
  | none => true
  | some (sp, n) =>
    n ≤ (u.freeTags sp).length &&
      match a.inner with
      | some m => (amGet u.tags m {}).alloc.isEmpty && (amGet u.tags m {}).holders.isEmpty
      | none => true

/-- Entries of an engine queue that are taken: commands that have not completed, and what running firings have reserved (R264). -/
def State.queueUsed (s : State) (fold q : Nat) : Nat :=
  (amGet s.engines (queueKey fold q) []).length +
    ((s.cores.filter fun (c, k) => c < 384 && foldOf c == fold && (k.running || k.failed)).map fun (_, k) => amGet k.firing.engd q 0).sum

/-- Condition 5. -/
def State.enginesOk (s : State) (fold : Nat) (a : HandlerConf) : Bool := a.engd.all fun (q, n) => n + s.queueUsed fold q ≤ 16

/-- A handler of a cell's configuration. -/
structure Cand where
  key : Nat
  h : Nat
  a : HandlerConf
  st : ActorSt
  deriving DecidableEq, Repr, Inhabited

/-- Handlers that satisfy everything but, if `tags` is clear, their tag demand. -/
def State.runnable (s : State) (cell : Nat) (tags : Bool) : List Cand :=
  (s.unitsOn cell).flatMap fun (key, u) =>
    if !s.mayFire key then []
    else u.conf.actors.filterMap fun (h, a) =>
      if u.triggered h a && (a.isTrap || s.buffersOk u a) && s.enginesOk (foldOf cell) a && (!tags || a.isTrap || u.tagsOk a) then
        some ⟨key, h, a, amGet u.actors h {}⟩
      else none

/-! ## Selection (R262) -/

/-- The lowest handler index. -/
def lowest : List Cand → Option Cand
  | [] => none
  | c :: cs =>
    match lowest cs with
    | some d => if d.h < c.h then some d else some c
    | none => some c

/-- Step 3 of the choice: c goes before d. -/
def Cand.before (c d : Cand) : Bool :=
  if c.a.prio != d.a.prio then d.a.prio < c.a.prio
  else
    match c.st.lastSel, d.st.lastSel with
    | none, none => c.h ≤ d.h
    | none, some _ => true
    | some _, none => false
    | some x, some y => x < y || (x == y && c.h ≤ d.h)

def best : List Cand → Option Cand
  | [] => none
  | c :: cs =>
    match best cs with
    | some d => if c.before d then some c else some d
    | none => some c

def pick (l : List Cand) : Option Cand :=
  ((lowest (l.filter fun c => c.a.isTrap)).or (lowest (l.filter fun c => 64 ≤ c.st.passes))).or (best l)

/-! ## The start of a firing (R43, R299, R300) -/

/-- Registers at the start. -/
def CoreSt.start (k : CoreSt) (f : Firing) (pc : DWord) : CoreSt :=
  let k := { k with running := true, halted := false, failed := false, finWait := false, pc := pc, regs := [], preds := [], firing := f }
  ((k.setReg 1 f.s1).setReg 2 f.s2).setReg 3 f.s3

/-- The firing that a handler starts, and its unit with the trigger or the trap taken. -/
def startFiring (entry fmax : Nat) (u : UnitSt) (c : Cand) : Firing × UnitSt :=
  let base : Firing :=
    { entry := entry, pad := u.pad, ctx := u.ctx, handler := c.h, prio := c.a.prio, fmax := fmax, take := c.a.take, give := c.a.give
      engd := c.a.engd, trapHandler := c.a.isTrap
      granted := match c.a.tagd with
        | some (sp, n) => ((u.freeTags sp).take n).map fun t => (sp, t)
        | none => [] }
  if c.a.isTrap then
    match c.st.traps with
    | x :: rest =>
      ({ base with
          s1 := x.cause, s2 := x.pc, s3 := BitVec.ofNat 64 x.handler, tag := x.tag, seq := x.seq, spanLo := x.lo, spanHi := x.hi
          startLo := x.lo, startHi := x.hi },
        { u with actors := amPut u.actors c.h { c.st with traps := rest } })
    | [] => (base, u)
  else
    match u.nextTrigger c.h with
    | some (k, t) =>
      ({ base with
          trigger := some t, s1 := t.payload.setWidth 64, s2 := BitVec.ofNat 64 t.tag, tag := t.tag, seq := t.seq, spanLo := t.lo
          spanHi := t.hi, startLo := t.lo, startHi := t.hi },
        { u with pending := u.pending.erase (k, t) })
    | none => (base, u)

/-- The code of a configuration stands in the code store while it runs. -/
def State.loadCode (s : State) (cell : Nat) (c : UnitConf) : State :=
  { s with memC := s.memC.clearRange (cAddr cell 0) Config.codeSize }.writeMem .c (cAddr cell 0) (c.code.flatMap fun (w : Word) => toBytes 4 w.toNat)

/-- HANDLER_SELECT. -/
def execHandlerSelect (cell : Nat) (s : State) : Out :=
  let k := s.coreOf cell
  if isFirmware cell then .fault .noSuchUnit
  else if k.running || k.failed || k.finWait then .next s
  else
    let l := s.runnable cell true
    match pick l with
    | none => .next s
    | some c =>
      let n := k.selections + 1
      let s := l.foldl (fun s d =>
        if d.key == c.key && d.h == c.h then s
        else s.updU d.key fun u => { u with actors := amUpd u.actors d.h {} fun a => { a with passes := a.passes + 1 } }) s
      let u := s.getU c.key
      let entry := match Loc.ofKey c.key with
        | .cell _ e => e
        | .node _ => 0
      let (f, u) := startFiring entry (s.getPad u.pad).conf.fmax u { c with st := amGet u.actors c.h {} }
      let s := s.setU c.key { u with actors := amUpd u.actors c.h {} fun a => { a with passes := 0, lastSel := some n } }
      let s := (s.loadCode cell u.conf).touch (Loc.ofKey c.key)
      .next (s.setCoreOf cell { k.start f c.a.entryPc with selections := n })

/-- TAGS_EXHAUSTED (R267): TAG_WAIT has passed for a handler that only its tag demand holds back. -/
def execTagsExhausted (u : Loc) (h : Nat) (s : State) : Out :=
  let only := (s.runnable u.idx false).find? fun c => c.key == u.key && c.h == h && !(s.getU u.key).tagsOk c.a
  match only with
  | some c =>
    .next (s.raise (s.getU u.key).pad
      { code := 0x0C, ctx := (s.getU u.key).ctx, cell := u.site, slot := h, fld := 3
        aux := BitVec.ofNat 64 ((c.a.tagd.map (·.1)).getD 0) })
  | none => .next s

/-! ## Ends of waits (R134, R303) -/

/-- FIN_PORT_RELEASE: there is room in the output ports; a FIN that waits commits, or goes on waiting for permits (R232). -/
def execFinPortRelease (cell : Nat) (s : State) : Out :=
  let s := { s with curCore := cell }
  let s := s.updU s.curUnitKey fun u => { u with outFull := false }
  if s.core.finWait then .next (s.setCore { s.core with finWait := false }).fin else .next s

/-- FIRING_RERUN (R134, R374): the firing starts again, with the same trigger, buffers, tags and registers; a test of its cell ends first
(R383). -/
def execFiringRerun (cell : Nat) (s : State) : Out :=
  let k := s.coreOf cell
  if !k.failed then .next s
  else if (s.getCell cell).testing then .next (s.post (.firingRerun cell))
  else
    let f := k.firing
    let pc :=
      if isFirmware cell then 0 else (amGet (s.getU (Loc.key (.cell cell f.entry))).conf.actors f.handler {}).entryPc
    .next (s.setCoreOf cell (k.start { f with reruns := f.reruns + 1, spanLo := f.startLo, spanHi := f.startHi } pc))

/-! ## Paddock barriers (R310) -/

/-- The places of a barrier's members where its completion marks a class. -/
def Conf.barEnds (c : Conf) (b : Nat) : List Dest :=
  (amGet c.members b []).filterMap fun m => c.units[m]?.map fun (loc, u) => .trigger loc (amGet u.barriers b 0)

/-- STREAM_BARRIER_ARRIVAL at the root: a generation that every member has reached goes down the tree. -/
def execStreamBarrierArrival (pad barrier member gen : Nat) (s : State) : Out :=
  s.whileRunning pad (.streamBarrierArrival pad barrier member gen) fun s =>
    let p := s.getPad pad
    let held := amGet p.roots barrier []
    let held := if held.contains (member, gen) then held else held ++ [(member, gen)]
    let members := amGet p.conf.members barrier []
    let tree := amGet p.conf.bars barrier {}
    if p.phase.stopping then .next s
    else if members.all fun m => held.contains (m, gen) then
      let s := s.setPad pad { p with roots := amPut p.roots barrier (held.filter fun x => x.2 != gen) }
      .next (s.emit tree.root (portInput barrier) (p.conf.barEnds barrier) tree.down
        { net := .control, kind := 3, payload := 1, tag := barrier, seq := gen, ctx := p.ctx })
    else .next (s.setPad pad { p with roots := amPut p.roots barrier held })

/-! ## The configuration cache (R273, R274) -/

/-- The configuration in a cell's cache with no firing in flight that was used least recently. -/
def State.oldestIdle (s : State) (cell : Nat) : Option Nat :=
  let lru := (s.getCell cell).lru
  let age (key : Nat) : Nat := match Loc.ofKey key with
    | .cell _ e => if lru.contains e then lru.findIdx (· == e) + 1 else 0
    | .node _ => 0
  let idle := ((s.unitsOn cell).filter fun (key, u) => u.slotNo.isSome && !s.unitBusy key).map (·.1)
  idle.foldl (fun (b : Option Nat) x =>
    match b with
    | some y => if age x < age y then some x else some y
    | none => some x) none

/-- Room in a cell's cache for a configuration: the least recently used ones with no firing in flight are swapped out until an entry is free and
the rows fit (R77, R273, R343); none while that cannot be. -/
def State.fetchRoom (cell key : Nat) : Nat → State → Option State
  | 0, _ => none
  | n + 1, s =>
    if (s.freeEntry cell).isSome && s.rowsFit cell key (s.getU key).conf then some s
    else
      match s.oldestIdle cell with
      | some k => State.fetchRoom cell key n (s.swapOut k)
      | none => none

/-- A configuration of a cell that is out, and on a tile of which the first command of an engine queue of the fold waits. -/
def State.engineWants (s : State) (cell : Nat) : Option Loc :=
  s.engines.findSome? fun (k, q) =>
    if k / 16 != foldOf cell then none
    else
      match q.find? fun c => !c.done with
      | some c =>
        let at' (a : EngAddr) : Option Loc :=
          if a.space != 5 then none
          else
            match s.engUnit c.cell c.entry c.ctx a with
            | some key => if idxOf key == cell && (s.getU key).live && (s.getU key).slotNo.isNone then some (Loc.ofKey key) else none
            | none => none
        match c.op with
        | .cpy src dst .. => (at' src).or (at' dst)
        | _ => none
      | none => none

/-- The configurations that tokens in a cell's miss buffer wait for, the oldest token's first; no token of a stopped paddock moves (R201). -/
def State.missed (s : State) (cell : Nat) : List Loc :=
  (s.getCell cell).miss.filterMap fun (_, d) =>
    match d with
    | .field u _ _ | .trigger u _ => if (s.getPad (s.padOfUnit u)).stop then none else some u
    | _ => none

/-- The configuration that is to be fetched next: that of the oldest waiting token, or one that an engine command waits for. -/
def State.wanted (s : State) (cell : Nat) : Option Loc := (s.missed cell).head?.or (s.engineWants cell)

/-- CONFIG_FETCH_DONE: the configuration that the oldest waiting token needs is in the cache; its tokens leave the miss buffer in
order. While no entry can be freed for it, the fetch waits. -/
def execConfigFetchDone (cell : Nat) (s : State) : Out :=
  match s.wanted cell with
  | none => .next s
  | some loc =>
    match State.fetchRoom cell loc.key 5 s with
    | none => .next (s.post (.configFetchDone cell))
    | some s =>
      let s := (s.swapIn loc.key ((s.freeEntry cell).getD 0)).touch loc
      let mine (x : Token × Dest) : Bool := match x.2 with
        | .field u _ _ | .trigger u _ => u == loc
        | _ => false
      let c := s.getCell cell
      let go := (c.miss.filter mine).filterMap fun (t, d) => arrivalAt d t
      let s := s.setCell cell { c with miss := c.miss.filter fun x => !mine x }
      let s := { s with events := (go.map fun i => Event.mk i {}) ++ s.events }
      let s := ((s.wake loc.key).settleUnit loc.key).post (.handlerSelect cell)
      .next (if (s.missed cell).isEmpty then s else s.post (.configFetchDone cell))

/-- CFG_MISS: T_CFG has passed since the oldest waiting token arrived. -/
def execCfgMiss (cell : Nat) (s : State) : Out :=
  match (s.getCell cell).miss with
  | [] => .next s
  | (_, d) :: _ =>
    match d with
    | .field u _ _ | .trigger u _ =>
      let x := s.getU u.key
      s.whileRunning x.pad (.cfgMiss cell) fun s => .next (s.raise x.pad { code := 0x0D, ctx := x.ctx, cell := cellSite cell, slot := 0, fld := 3, aux := x.handle })
    | _ => .next s

/-- The bytes of a tile of a configuration that is not in its cell's cache (R274). -/
def UnitSt.savedTile (u : UnitSt) (n : Nat) : List Byte := ((u.saved.find? fun x => x.1 == n).map (·.2)).getD []

/-- TILE_SWAP_DONE (R174, R275, R336): the copy out ends and the tile is EMPTY, or the copy in ends and the tile is READY again. Of a configuration
that is not in its cell's cache the tile's bytes stand where firmware keeps them. -/
def execTileSwapDone (u : Loc) (tile : Nat) (s : State) : Out :=
  let key := u.key
  let x := s.getU key
  let t := s.tile key tile
  match u, t.st, t.swapped with
  | .cell _ _, .draining, none =>
    let (s, bs) := if x.slotNo.isNone then (s, x.savedTile tile) else s.copyTileOut key tile
    .next ((s.updU key fun x => { x with tiles := amPut x.tiles tile { s.tile key tile with st := .empty, swapped := some bs } }).wake key)
  | .cell i _, .filling, some bs =>
    s.whileRunning x.pad (.tileSwapDone u tile) fun s =>
      let s := if x.slotNo.isNone then s.updU key fun x => { x with saved := x.saved.filter (fun y => y.1 != tile) ++ [(tile, bs)] }
        else s.storeMem .l (tileAddr i t) bs
      .next ((s.setTile key tile { t with st := .ready, swapped := none }).wake key)
  | _, _, _ => .next s

end Sys2Proof.Machine
end

