-- ==== Sys2Proof/Machine/Residue.lean ====
section
/-!
DEFINITION. What the scalar unit predicts of a result's residue, and what it checks (R133).
-/

namespace Sys2Proof.Machine

/-- ADD, ADDI: r_a + r_b less the carry out of bit 63. A carry of weight 1 modulo 3 enters as −1, that is 2. -/
def addCheck (a b : DWord) : Bool :=
  let c := if 2 ^ 64 ≤ a.toNat + b.toNat then 1 else 0
  (a + b).toNat % 3 == (a.toNat % 3 + b.toNat % 3 + 2 * c) % 3

/-- SUB: r_a − r_b plus the borrow. −r_b is 2 r_b modulo 3. -/
def subCheck (a b : DWord) : Bool :=
  let w := if a.toNat < b.toNat then 1 else 0
  (a - b).toNat % 3 == (a.toNat % 3 + 2 * (b.toNat % 3) + w) % 3

/-- ADDW and SUBW: the same on the low 32 bits; the sign extension adds a multiple of 3. -/
def addwCheck (a b : DWord) : Bool :=
  let x := a.toNat % 2 ^ 32
  let y := b.toNat % 2 ^ 32
  let c := if 2 ^ 32 ≤ x + y then 1 else 0
  ((a.setWidth 32 + b.setWidth 32).signExtend 64).toNat % 3 == (x % 3 + y % 3 + 2 * c) % 3

def subwCheck (a b : DWord) : Bool :=
  let x := a.toNat % 2 ^ 32
  let y := b.toNat % 2 ^ 32
  let w := if x < y then 1 else 0
  ((a.setWidth 32 - b.setWidth 32).signExtend 64).toNat % 3 == (x % 3 + 2 * (y % 3) + w) % 3

/-- The unsigned 128-bit product: the residues of its halves add up to r_a r_b. -/
def productCheck (a b : DWord) : Bool :=
  let p := a.toNat * b.toNat
  (p / 2 ^ 64 % 3 + p % 2 ^ 64 % 3) % 3 == a.toNat % 3 * (b.toNat % 3) % 3

/-- The signed high half as it is derived from the unsigned product: less b where a is negative, less a where b is. -/
def highOf (a b : DWord) : DWord :=
  BitVec.ofNat 64 (a.toNat * b.toNat / 2 ^ 64) - (if a.msb then b else 0) - (if b.msb then a else 0)

/-- Exact integers of a division: r(a) = r(q) r(b) + r(rem). -/
def divisionCheck (a b q r : Int) : Bool := a % 3 == (q % 3 * (b % 3) + r % 3) % 3

/-- Computed twice in separate logic and compared. -/
def twice (f : DWord → DWord → DWord) (a b : DWord) : Bool := f a b == f a b

/-- The residue of the selected source is carried unchanged: nothing is compared. -/
def carried (_ _ : DWord) : Bool := true

end Sys2Proof.Machine
end

