-- ==== Sys2Proof/Machine/Alu.lean ====
section
/-!
DEFINITION. The ALU family (R122 to R124).
-/

namespace Sys2Proof.Machine

/-! ## Values -/

/-- SHL: amounts of 64 and above give 0 (R124). -/
def shlValue (a b : DWord) : DWord := if 64 ≤ b.toNat then 0 else a <<< b.toNat
/-- SHR: amounts of 64 and above give 0 (R124). -/
def shrValue (a b : DWord) : DWord := if 64 ≤ b.toNat then 0 else a >>> b.toNat
/-- SRA: amounts of 64 and above give sign fill (R124). -/
def sraValue (a b : DWord) : DWord := a.sshiftRight (if 64 ≤ b.toNat then 63 else b.toNat)
/-- ROL and ROR use bits [5:0] of b (R124). -/
def rolValue (a b : DWord) : DWord := a.rotateLeft (b.toNat % 64)
def rorValue (a b : DWord) : DWord := a.rotateRight (b.toNat % 64)
def absValue (a : DWord) : DWord := if a.slt 0 then 0 - a else a
/-- ADDW and SUBW: the 32-bit result, sign-extended (R123). -/
def addwValue (a b : DWord) : DWord := (a.setWidth 32 + b.setWidth 32).signExtend 64
def subwValue (a b : DWord) : DWord := (a.setWidth 32 - b.setWidth 32).signExtend 64

/-! ## The words -/

/-- d := f a b, with the check that R133 gives the word; computed twice where none is named. -/
def aluBin (s : State) (g : Guard) (d a b : RegNum) (f : DWord → DWord → DWord) (ok : DWord → DWord → Bool := twice f) : Out :=
  runChecked s g [a, b] d (fun k => f (k.reg a) (k.reg b)) fun k => ok (k.reg a) (k.reg b)

/-- d := f a. -/
def aluUn (s : State) (g : Guard) (d a : RegNum) (f : DWord → DWord) (ok : DWord → Bool := fun x => twice (fun y _ => f y) x x) : Out :=
  runChecked s g [a] d (fun k => f (k.reg a)) fun k => ok (k.reg a)

def execAdd (d a b : RegNum) (g : Guard) (s : State) : Out := aluBin s g d a b (· + ·) addCheck
def execSub (d a b : RegNum) (g : Guard) (s : State) : Out := aluBin s g d a b (· - ·) subCheck
def execAnd (d a b : RegNum) (g : Guard) (s : State) : Out := aluBin s g d a b (· &&& ·)
def execOr (d a b : RegNum) (g : Guard) (s : State) : Out := aluBin s g d a b (· ||| ·)
def execXor (d a b : RegNum) (g : Guard) (s : State) : Out := aluBin s g d a b (· ^^^ ·)
def execAndn (d a b : RegNum) (g : Guard) (s : State) : Out := aluBin s g d a b fun x y => x &&& ~~~ y
def execShl (d a b : RegNum) (g : Guard) (s : State) : Out := aluBin s g d a b shlValue
def execShr (d a b : RegNum) (g : Guard) (s : State) : Out := aluBin s g d a b shrValue
def execSra (d a b : RegNum) (g : Guard) (s : State) : Out := aluBin s g d a b sraValue
def execRol (d a b : RegNum) (g : Guard) (s : State) : Out := aluBin s g d a b rolValue
def execRor (d a b : RegNum) (g : Guard) (s : State) : Out := aluBin s g d a b rorValue
def execMin (d a b : RegNum) (g : Guard) (s : State) : Out := aluBin s g d a b (fun x y => if x.sle y then x else y) carried
def execMax (d a b : RegNum) (g : Guard) (s : State) : Out := aluBin s g d a b (fun x y => if y.sle x then x else y) carried
def execMinn (d a b : RegNum) (g : Guard) (s : State) : Out := aluBin s g d a b (fun x y => if x.ule y then x else y) carried
def execMaxn (d a b : RegNum) (g : Guard) (s : State) : Out := aluBin s g d a b (fun x y => if y.ule x then x else y) carried

/-- SEL reads its guard field as a selector and always writes d (R122). -/
def execSel (d a b : RegNum) (g : Guard) (s : State) : Out :=
  runReg s Guard.always [a, b] [g.p] true fun k => k.setReg d (if k.guard g then k.reg a else k.reg b)

def execClz (d a : RegNum) (g : Guard) (s : State) : Out :=
  aluUn s g d a fun x => BitVec.ofNat 64 (leadZeros 64 x.toNat)
def execCtz (d a : RegNum) (g : Guard) (s : State) : Out :=
  aluUn s g d a fun x => BitVec.ofNat 64 (trailZeros 64 x.toNat)
def execPopc (d a : RegNum) (g : Guard) (s : State) : Out :=
  aluUn s g d a fun x => BitVec.ofNat 64 (popCount 64 x.toNat)
def execSext8 (d a : RegNum) (g : Guard) (s : State) : Out := aluUn s g d a (sextFrom 8)
def execSext16 (d a : RegNum) (g : Guard) (s : State) : Out := aluUn s g d a (sextFrom 16)
def execSext32 (d a : RegNum) (g : Guard) (s : State) : Out := aluUn s g d a (sextFrom 32)
def execZext8 (d a : RegNum) (g : Guard) (s : State) : Out := aluUn s g d a (zextFrom 8)
def execZext16 (d a : RegNum) (g : Guard) (s : State) : Out := aluUn s g d a (zextFrom 16)
def execZext32 (d a : RegNum) (g : Guard) (s : State) : Out := aluUn s g d a (zextFrom 32)
def execMov (d a : RegNum) (g : Guard) (s : State) : Out := aluUn s g d a id fun x => carried x x
def execAbs (d a : RegNum) (g : Guard) (s : State) : Out := aluUn s g d a absValue
def execNeg (d a : RegNum) (g : Guard) (s : State) : Out := aluUn s g d a (fun x => 0 - x) fun x => subCheck 0 x
def execAddw (d a b : RegNum) (g : Guard) (s : State) : Out := aluBin s g d a b addwValue addwCheck
def execSubw (d a b : RegNum) (g : Guard) (s : State) : Out := aluBin s g d a b subwValue subwCheck

end Sys2Proof.Machine
end

