-- ==== Sys2Proof/Machine/Atomic.lean ====
section
/-!
DEFINITION. Atomics (R215, R233) and FENCE (R214, R234).
-/

namespace Sys2Proof.Machine

/-- The new value of an atomic on n bytes (R233); none where a CAS fails. v is the operand and c the CAS replacement, both
below 2^(8n). -/
def amoValue (op : AmoOp) (n old v c : Nat) : Option Nat :=
  let w := 8 * n
  match op with
  | .add => some ((old + v) % 2 ^ w)
  | .min => some (if asInt w old ≤ asInt w v then old else v)
  | .max => some (if asInt w v ≤ asInt w old then old else v)
  | .minn => some (min old v)
  | .maxn => some (max old v)
  | .and => some (old &&& v)
  | .or => some (old ||| v)
  | .xor => some (old ^^^ v)
  | .xchg => some v
  | .cas => if old = v then some c else none

/-- The address of an atomic (R233). -/
def amoEa (base : DWord) (dbl : Bool) (off : BitVec 6) : DWord := base + off.setWidth 64 * BitVec.ofNat 64 (if dbl then 8 else 4)

/-- The word that a core is to issue waits for a permit of a slice (R232). -/
def State.wordWaits (s : State) (i : Instr) : Bool :=
  match i with
  | .lds _ a sz off g => s.core.guard g && s.waitsPermit (memEa (s.core.reg a) sz off) (szBytes sz)
  | .amos _ _ a dbl off g => s.core.guard g && s.waitsPermit (amoEa (s.core.reg a) dbl off) (if dbl then 8 else 4)
  | _ => false

/-- An atomic performs at issue on memory, not on the firing's held stores; a poisoned line ends the firing as a load's does
(notes/assumptions/14.md). -/
def amoWord (s : State) (sp : Space) (op : AmoOp) (d a : RegNum) (dbl : Bool) (off : BitVec 6) (g : Guard) : Out :=
  let n := if dbl then 8 else 4
  let extra : List RegNum := if op == .cas then [d + 1] else []
  .next (runWord s g ([a, d] ++ extra) [] true fun s =>
    let k := s.core
    let ea := amoEa (k.reg a) dbl off
    withAddr s sp ea n fun x =>
      let (s, bs, c) := (s.settleSlice sp x).checkedRead sp x n
      match c with
      | some c => .poison ea.toNat c s
      | none =>
        let old := ofBytes bs
        let new := amoValue op n old ((k.reg d).toNat % 2 ^ (8 * n)) ((k.reg (d + 1)).toNat % 2 ^ (8 * n))
        let s := match new with
          | some v => s.storeMem sp x (toBytes n v)
          | none => s
        let k := s.core.setReg d (BitVec.ofNat 64 old)
        .done (s.setCore { k with firing := { k.firing with atomicAt := some (k.firing.atomicAt.getD k.pc.toNat) } }))

def execAmof (op : AmoOp) (d a : RegNum) (dbl : Bool) (off : BitVec 6) (g : Guard) (s : State) : Out :=
  amoWord s .f op d a dbl off g
def execAmos (op : AmoOp) (d a : RegNum) (dbl : Bool) (off : BitVec 6) (g : Guard) (s : State) : Out :=
  amoWord s .s op d a dbl off g

/-- FENCE. Loads perform in program order here, so acquire adds nothing. A release or full FENCE over S makes the groups that
the cell committed earlier arrive at the slices of its scope (its atomics and, under full, its loads wait for that), and marks
the place among the held stores for FIN; they do not wait for stores that this firing holds until its FIN (notes/assumptions/126.md).
One over M or H orders the firing's later engine commands behind its cell's earlier ones. A mask of zero orders nothing (R42). -/
def execFence (fk : FenceKind) (spaces : BitVec 5) (sc : Scope) (g : Guard) (s : State) : Out :=
  .next (runWord s g [] [] false fun s =>
    match fk with
    | .acquire => .done s
    | .release | .full =>
      let s := if spaces.getLsbD 2 then s.deliver fun x => x.cell == s.curCore && scopeSlice sc x.cell x.slice else s
      let s := if spaces = 0 then s else s.hold (.release spaces sc)
      .done (if spaces.getLsbD 3 || spaces.getLsbD 4 then s.hold .engFence else s))

end Sys2Proof.Machine
end

