-- ==== Sys2Proof/Machine/Buffer.lean ====
section
/-!
DEFINITION. Circular buffers (R306, R307).
-/

namespace Sys2Proof.Machine

/-- The pointers of a buffer of the running firing's configuration; they move at FIN only. -/
def State.bufPtr (s : State) (b : BufConf) : BufSt := amGet (s.getPad s.core.firing.pad).bufs b.name {}

/-- The checks of R306 in their order; `ok` gets the byte's place in the memory of the buffer's space. -/
def withSlot (s : State) (write : Bool) (h : BitVec 4) (slot : BitVec 6) (off : DWord) (n : Nat)
    (ok : Space → Nat → WordEnd) : WordEnd :=
  match amGet? s.curUnit.conf.bufs h.toNat with
  | none => .trap .reservedField 0
  | some b =>
    let f := s.core.firing
    if 63 < off.toNat then .trap .spaceBounds 0
    else if off.toNat % n ≠ 0 then .trap .misaligned 0
    else if !write && amGet f.take h.toNat 0 ≤ slot.toNat then .trap .bufferUnderrun 0
    else if write && amGet f.give h.toNat 0 ≤ slot.toNat then .trap .bufferOverrun 0
    else
      let p := s.bufPtr b
      let ptr := if write then p.prod else p.cons
      let addr := b.base + (ptr + slot.toNat) % b.slots * 64 + off.toNat
      ok b.sp (if b.sp == .l then lAddr s.curCore addr else fAddr (coreFold s.curCore) addr)

def execCbrd (d a : RegNum) (sz : BitVec 2) (b : BitVec 4) (slot : BitVec 6) (g : Guard) (s : State) : Out :=
  .next (runWord s g [a] [] true fun s =>
    withSlot s false b slot (s.core.reg a) (szBytes sz) fun sp x =>
      loadInto s sp d (BitVec.ofNat 64 (x % 2 ^ (if sp == .l then 21 else 24))) x (szBytes sz))

def execCbwr (d a : RegNum) (sz : BitVec 2) (b : BitVec 4) (slot : BitVec 6) (g : Guard) (s : State) : Out :=
  .next (runWord s g [a, d] [] true fun s =>
    withSlot s true b slot (s.core.reg a) (szBytes sz) fun sp x => holdStore s sp x (szBytes sz) (s.core.reg d))

/-- Total of the advances that the firing already holds on a handle. -/
def heldAdvance (prod : Bool) (b : Nat) (held : List Held) : Nat :=
  held.foldl (fun n h =>
    match h with
    | .advp x c => if prod && x == b then n + c else n
    | .advc x c => if !prod && x == b then n + c else n
    | _ => n) 0

/-- ADVP and ADVC are held; the word that takes a handle's total past its declared count traps. -/
def advWord (s : State) (prod : Bool) (b : BitVec 4) (count : BitVec 8) (g : Guard) : Out :=
  .next (runWord s g [] [] false fun s =>
    let f := s.core.firing
    if (amGet? s.curUnit.conf.bufs b.toNat).isNone then .trap .reservedField 0
    else
      let total := heldAdvance prod b.toNat f.held + count.toNat
      if prod then
        if amGet f.give b.toNat 0 < total then .trap .bufferOverrun 0 else .done (s.hold (.advp b.toNat count.toNat))
      else
        if amGet f.take b.toNat 0 < total then .trap .bufferUnderrun 0 else .done (s.hold (.advc b.toNat count.toNat)))

def execAdvp (b : BitVec 4) (count : BitVec 8) (g : Guard) (s : State) : Out := advWord s true b count g
def execAdvc (b : BitVec 4) (count : BitVec 8) (g : Guard) (s : State) : Out := advWord s false b count g

end Sys2Proof.Machine
end

