-- ==== Sys2Proof/Machine/Channel.lean ====
section
/-!
DEFINITION. Channels, bindings, masks and tags (R308, R309, R311, R351).
-/

namespace Sys2Proof.Machine

/-- SEND: an undeclared channel, another class, or a span that no token may have traps RESERVED_FIELD. -/
def execSend (cls : BitVec 3) (a b : RegNum) (g : Guard) (s : State) : Out :=
  .next (runWord s g [a, b] [] true fun s =>
    let k := s.core
    let f := k.firing
    let x := (k.reg a).toNat
    match amGet? s.curUnit.conf.chans (bitsOf x 5 0) with
    | none => .trap .reservedField 0
    | some ch =>
      if ch.cls ≠ cls.toNat || f.spanHi ≤ f.spanLo || f.spanLo == openHi then .trap .reservedField 0
      else if f.full then .trap .storeBufferFull 0
      else .done (s.hold (.send (bitsOf x 5 0) (sendToken f ch (bitsOf x 15 6) (k.reg b)))))

/-- BIND: the handler must be declared and no trap handler. -/
def execBind (cls : BitVec 3) (h : BitVec 4) (g : Guard) (s : State) : Out :=
  .next (runWord s g [] [] false fun s =>
    match amGet? s.curUnit.conf.actors h.toNat with
    | some a => if a.isTrap then .trap .reservedField 0 else .done (s.hold (.bind cls.toNat h.toNat))
    | none => .trap .reservedField 0)

def execHmask (m : BitVec 8) (g : Guard) (s : State) : Out :=
  .next (runWord s g [] [] false fun s => .done (s.hold (.mask m)))
def execHunmask (m : BitVec 8) (g : Guard) (s : State) : Out :=
  .next (runWord s g [] [] false fun s => .done (s.hold (.unmask m)))

/-- The lowest tag granted in a space that the firing has not taken. -/
def nextGranted (f : Firing) (sp : Nat) : Option Nat :=
  ((f.granted.filter fun g => g.1 == sp && !f.taken.contains g).map (·.2)).min?

/-- TAGA takes a granted tag; the allocation commits at FIN. -/
def execTaga (d : RegNum) (space : BitVec 4) (g : Guard) (s : State) : Out :=
  .next (runWord s g [] [] true fun s =>
    let k := s.core
    let f := k.firing
    match nextGranted f space.toNat with
    | none => .trap .tagInvalid 0
    | some t =>
      let k := k.setReg d (BitVec.ofNat 64 (space.toNat * 64 + t))
      .done (s.setCore { k with firing := { f with taken := f.taken ++ [(space.toNat, t)] } }))

/-- Whether a tag is allocated, the firing's own earlier TAGAs and TAGFs counted. -/
def tagAllocated (u : UnitSt) (f : Firing) (sp t : Nat) : Bool :=
  ((amGet u.tags sp {}).alloc.contains t || f.taken.contains (sp, t)) && !f.held.contains (.tagFree sp t)

/-- TAGF frees the tag in d at FIN. -/
def execTagf (d : RegNum) (space : BitVec 4) (g : Guard) (s : State) : Out :=
  .next (runWord s g [d] [] true fun s =>
    let v := (s.core.reg d).toNat
    if v / 64 ≠ space.toNat || !tagAllocated s.curUnit s.core.firing space.toNat (v % 64) then .trap .tagInvalid 0
    else .done (s.hold (.tagFree space.toNat (v % 64))))

end Sys2Proof.Machine
end

