-- ==== Sys2Proof/Machine/Flags.lean ====
section
/-!
DEFINITION. Flag computations of S-words: the conditions of CMP and CMPI (R129, R130).
-/

namespace Sys2Proof.Machine

/-- CMP's c (R129). -/
def condHolds (c : Cond) (a b : DWord) : Bool :=
  match c with
  | .eq => a == b
  | .ne => a != b
  | .lt => a.slt b
  | .ge => !a.slt b
  | .ltn => a.ult b
  | .gen => !a.ult b
  | .bits => a &&& b != 0
  | .nbits => a &&& b == 0

/-- CMPI's c (R130). -/
def condIHolds (c : CondI) (a b : DWord) : Bool :=
  match c with
  | .eq => a == b
  | .ne => a != b
  | .lt => a.slt b
  | .ge => !a.slt b

end Sys2Proof.Machine
end

