-- ==== Sys2Proof/Machine/Compare.lean ====
section
/-!
DEFINITION. Compares and predicate operations (R121, R129 to R131).
-/

namespace Sys2Proof.Machine

/-- A compare reads registers and writes a predicate. -/
def execCmp (c : Cond) (pd : PredNum) (a b : RegNum) (g : Guard) (s : State) : Out :=
  runReg s g [a, b] [] true fun k => k.setPred pd (condHolds c (k.reg a) (k.reg b))

def execCmpi (c : CondI) (pd : PredNum) (a : RegNum) (imm : BitVec 12) (g : Guard) (s : State) : Out :=
  runReg s g [a] [] true fun k => k.setPred pd (condIHolds c (k.reg a) (imm.signExtend 64))

/-- A predicate operation on two sources, both read before the destination is written (R131). -/
def predBin (s : State) (g : Guard) (pd pa pb : PredNum) (f : Bool → Bool → Bool) : Out :=
  runReg s g [] [pa, pb] false fun k => k.setPred pd (f (k.pred pa) (k.pred pb))

def predUn (s : State) (g : Guard) (pd pa : PredNum) (f : Bool → Bool) : Out :=
  runReg s g [] [pa] false fun k => k.setPred pd (f (k.pred pa))

def predSet (s : State) (g : Guard) (pd : PredNum) (v : Bool) : Out :=
  runReg s g [] [] false fun k => k.setPred pd v

def execPand (pd pa pb : PredNum) (g : Guard) (s : State) : Out := predBin s g pd pa pb (· && ·)
def execPor (pd pa pb : PredNum) (g : Guard) (s : State) : Out := predBin s g pd pa pb (· || ·)
def execPxor (pd pa pb : PredNum) (g : Guard) (s : State) : Out := predBin s g pd pa pb xor
def execPandn (pd pa pb : PredNum) (g : Guard) (s : State) : Out := predBin s g pd pa pb fun x y => x && !y
def execPnot (pd pa : PredNum) (g : Guard) (s : State) : Out := predUn s g pd pa not
def execPmov (pd pa : PredNum) (g : Guard) (s : State) : Out := predUn s g pd pa id
def execPset (pd : PredNum) (g : Guard) (s : State) : Out := predSet s g pd true
def execPclr (pd : PredNum) (g : Guard) (s : State) : Out := predSet s g pd false

end Sys2Proof.Machine
end

