-- ==== Sys2Proof/Machine/Control.lean ====
section
/-!
DEFINITION. Control flow and the ends of a firing (R39, R301 to R305, R322).
-/

namespace Sys2Proof.Machine

/-- The target lies in the code store (R301). -/
def inCode (t : DWord) : Bool := t.toNat < Config.codeSize

/-- The target of BR and JAL: the address after the word plus four times the offset. -/
def branchTarget (pc off : DWord) : DWord := pc + 4 + off * 4

/-- Jumps, or traps at the branch word when the target lies outside the code store. -/
def jumpTo (s : State) (t : DWord) (f : CoreSt → CoreSt) : WordEnd :=
  if inCode t then .jumped (s.setCore ((f s.core).jump t)) else .trap .spaceBounds 0

def execBr (off : BitVec 22) (g : Guard) (s : State) : Out :=
  .next (runWord s g [] [] false fun s => jumpTo s (branchTarget s.core.pc (off.signExtend 64)) id)

/-- JAL has no guard. -/
def execJal (d : RegNum) (off : BitVec 21) (s : State) : Out :=
  .next (runWord s Guard.always [] [] true fun s =>
    let pc := s.core.pc
    jumpTo s (branchTarget pc (off.signExtend 64)) fun k => k.setReg d (pc + 4))

/-- JR reads a before it writes d. -/
def execJr (d a : RegNum) (g : Guard) (s : State) : Out :=
  .next (runWord s g [a] [] true fun s =>
    let pc := s.core.pc
    let t := s.core.reg a
    if t.toNat % 4 ≠ 0 then .trap .misaligned 0 else jumpTo s t fun k => k.setReg d (pc + 4))

/-- LOOPN (R302): a body that reaches past the innermost active body, or a fifth depth, traps; a count of 0 skips the body. -/
def execLoopn (a : RegNum) (len : BitVec 12) (g : Guard) (s : State) : Out :=
  .next (runWord s g [a] [] true fun s =>
    let k := s.core
    let start := k.pc + 4
    let stop := start + len.setWidth 64 * 4
    let past := match k.firing.loops with
      | [] => false
      | f :: _ => f.stop.toNat < stop.toNat
    if past || k.firing.loops.length == 4 then .trap .reservedField 0
    else if k.reg a = 0 then .jumped (s.setCore { k with pc := stop })
    else
      .jumped (s.setCore
        { k with pc := start, firing := { k.firing with loops := ⟨start, stop, (k.reg a).toNat⟩ :: k.firing.loops } }))

/-- FIN (R303). -/
def execFin (g : Guard) (s : State) : Out := .next (runWord s g [] [] false fun s => .over s.fin)

/-- TRAP ignores its d field (R304). -/
def execTrap (_d : RegNum) (code : BitVec 12) (g : Guard) (s : State) : Out :=
  .next (runWord s g [] [] false fun _ => .trap .trapWord code)

def execBrk (code : BitVec 12) (g : Guard) (s : State) : Out :=
  .next (runWord s g [] [] false fun _ => .trap .breakpt code)

/-- HALT traps PRIVILEGE on a cell whatever its guard says (R38 step 2); on a firmware core it stops the core (R304). -/
def execHalt (g : Guard) (s : State) : Out :=
  if isFirmware s.curCore then
    .next (runWord s g [] [] false fun s => .over (s.setCore { s.core with halted := true, running := false }))
  else .next (s.takeTrap .privilege 0)

/-- CKPT asks, at its FIN, for the paddock to be parked (R322). -/
def execCkpt (g : Guard) (s : State) : Out := .next (runWord s g [] [] false fun s => .done (s.hold .ckpt))

end Sys2Proof.Machine
end

