-- ==== Sys2Proof/Machine/Paging.lean ====
section
/-!
DEFINITION. Page requests and their responses, T_FAULT (R292, R358, R359), translations that the host takes back (R355, R360), migration and
eviction (R244, R361 to R363).
-/

namespace Sys2Proof.Machine

/-- The units of a paddock admit no firing any more. -/
def State.haltUnits (s : State) (pad : Nat) : State :=
  (s.getPad pad).conf.units.foldl (fun s x =>
    if (s.getU x.1.key).pad == pad then s.updU x.1.key fun u => { u with stopped := true } else s) s

/-- The shepherds stop a paddock: abort marks go to its units. For a replay, which is none of the stops that R277 lists, the units only admit
no firing any more (R375). -/
def State.stopPad (s : State) (pad : Nat) (phase : PadPhase) : State :=
  let p := s.getPad pad
  if p.phase == .running || p.phase == .loading then
    let s := s.setPad pad { p with phase := phase }
    if phase == .replaying then (s.haltUnits pad).checkQuiet pad else s.abortMarks pad
  else s

def State.getQ (s : State) (q : Nat) : Queue := amGet s.queues q {}
def State.updQ (s : State) (q : Nat) (f : Queue → Queue) : State := { s with queues := amPut s.queues q (f (s.getQ q)) }
def State.pkt (s : State) (q i : Nat) : Pkt := amGet (s.getQ q).pkts i {}
def State.updPkt (s : State) (q i : Nat) (f : Pkt → Pkt) : State := s.updQ q fun x => { x with pkts := amUpd x.pkts i {} f }

/-- A stale page response is dropped and counted (R359). -/
def State.stalePage (s : State) (ctx : Nat) : State :=
  let c := amGet s.ctxs ctx {}
  { s with ctxs := amPut s.ctxs ctx { c with stale := (c.stale + 1) % 2 ^ 32 } }

/-- Accesses that wait for a free index try again (R358). -/
def State.retryMisses (s : State) : State :=
  let keys := (s.units.filter fun (x : Nat × UnitSt) => x.2.live && x.2.withheld.any fun w => w.prg.isNone && !w.migrating).map (·.1)
  keys.foldl (fun s k => s.wake k) s

/-- Requests for the pages that parked paddocks wait for, where none is outstanding and an index is free (R292, R358). One that a fault is about to
end asks for none. -/
def State.askParked (s : State) : State :=
  s.pads.foldl (fun s (n, p) =>
    match p.waitPage with
    | some va =>
      if (s.prgs.any fun x => x.2.ctx == p.ctx && x.2.va == va) || s.events.any fun x => x.instr.faults n then s
      else
        match s.walk p.ctx va with
        | (s, .notValid) => s.askPage p.ctx va (some n) p.waitWrite none p.waitDenial
        | (s, _) => s
    | none => s) s

/-- A response arrives for a request: the request, if the response is not stale. -/
def State.takeResponse (s : State) (prg : Nat) : State × Option PageReq :=
  match amGet? s.prgs prg with
  | none => (s.stalePage s.arg.ctx, none)
  | some r =>
    let s := { s with prgs := amDel s.prgs prg }.retryMisses
    if r.gen != (amGet s.ctxs r.ctx {}).gen then (s.stalePage r.ctx, none) else (s, some r)

/-- Accesses that waited for a page try again, and so do parked paddocks. -/
def State.pageResolved (s : State) (ctx va : Nat) : State :=
  let s := { s with pads := s.pads.map fun (x : Nat × Pad) => let (n, p) := x; (n, if p.ctx == ctx && p.waitPage == some va then { p with waitPage := none } else p) }
  let keys := (s.units.filter fun (x : Nat × UnitSt) => !isCellKey x.1 && x.2.live && x.2.ctx == ctx && !x.2.parked.isEmpty).map (·.1)
  (keys.foldl (fun s k => s.wake k) s).post .droverSelection

/-- PAGE_RESPONSE_SUCCESS: the walker walks again; an entry that is still not valid is asked for again. s.arg.ctx names the context of a
response whose index is not recorded. During a live update responses wait (R367). -/
def execPageResponseSuccess (prg : Nat) (s : State) : Out :=
  if s.update.isSome then .next (s.post (.pageResponseSuccess prg) s.arg) else
  match s.takeResponse prg with
  | (s, none) => .next s.askParked
  | (s, some r) =>
    let (s, w) := s.walk r.ctx r.va
    match w with
    | .notValid =>
      let (s, n) := s.pageRequest r
      let s : State := { s with units := s.units.map fun (x : Nat × UnitSt) => let (k, u) := x;
        (k, { u with withheld := u.withheld.map fun w => if w.prg == some prg then { w with prg := n } else w }) }
      .next s.askParked
    | _ => .next (s.pageResolved r.ctx r.va).askParked

/-- What a denial of a page records of a paddock that waits for it: of the access of a node, of one of its seeds, sinks or engine commands, or of
the access for which it is parked (R359). -/
def State.denialOf (s : State) (r : PageReq) (prg n : Nat) (p : Pad) : Option FaultRec :=
  let node := s.units.findSome? fun (k, u) =>
    if u.live && u.pad == n && u.ctx == r.ctx then
      (u.withheld.find? fun w => w.prg == some prg || pageOf w.va == r.va).bind fun w => (s.slotEnv k w.slot).map fun e => s.denial e w.tag r.va
    else none
  node.or (((p.waits.find? fun x => x.2.va == r.va).map fun x => x.2.denial).or (if p.waitPage == some r.va then some p.waitDenial else none))

/-- PAGE_RESPONSE_FAILURE: the paddocks of the context that wait for the page end with PAGE_DENIED. -/
def execPageResponseFailure (prg : Nat) (s : State) : Out :=
  if s.update.isSome then .next (s.post (.pageResponseFailure prg) s.arg) else
  match s.takeResponse prg with
  | (s, none) => .next s.askParked
  | (s, some r) =>
    let s := (s.pads.filter fun x => x.2.ctx == r.ctx).foldl (fun s (n, p) =>
      match s.denialOf r prg n p with
      | some f => s.raise n f
      | none => s) s
    let s := match r.pkt with
      | some (q, i) => s.updPkt q i fun x => { x with denied := true }
      | none => s
    .next s.askParked

/-- PAGE_FAULT_TIMEOUT: T_FAULT has passed since an access of the node's unit was withheld; the paddock goes back to its last complete
commit and is parked. For a seed, a sink or an engine command that waits, s.arg.pad names its paddock. -/
def execPageFaultTimeout (node : Nat) (s : State) : Out :=
  let u := s.getU (Loc.key (.node node))
  let wait : Option (Nat × PageWait) :=
    match s.arg.pad with
    | some p =>
      ((s.getPad p).waits.head?).map fun w => (p, w.2)
    | none =>
      if u.live then
        match u.withheld with
        | w :: _ =>
          let r := match s.slotEnv (Loc.key (.node node)) w.slot with
            | some e => s.denial e w.tag w.va
            | none => {}
          let stores := match s.slotEnv (Loc.key (.node node)) w.slot with
            | some e => match e.instr with
              | .ldn _ | .ldsc _ => false
              | .xlate _ => e.feedsStore u
              | _ => true
            | none => true
          some (u.pad, ⟨pageOf w.va, stores, r⟩)
        | [] => none
      else none
  match wait with
  | none => .next s
  | some (pad, w) =>
    if (s.getPad pad).phase == .running then
      .next (((s.updPad pad fun p => { p with waitPage := some w.va, waitWrite := w.write, waitDenial := w.denial }).stopPad pad .parking).askParked)
    else .next s

/-! ## Translations that change (R355, R360) -/

/-- The 4 KiB pages of a range. -/
def pagesOf (base len : Nat) : List Nat := (List.range ((base % 4096 + len + 4095) / 4096)).map (· + base / 4096)

/-- Stores of a context's nodes to H have been translated and not performed. -/
def State.hostStores (s : State) (ctx : Nat) : Bool :=
  s.units.any fun (_, u) => u.live && u.ctx == ctx && u.stores.any fun x => !x.visible && x.writes.any fun w => w.1 == .h

/-- ATS_INVALIDATION, which takes effect once every access that used an old translation has performed (R355): the host refuses translations of a range of its memory (s.arg.flag) or gives them again; s.arg.code 0 for every access,
1 for writes. -/
def execAtsInvalidation (ctx base len : Nat) (s : State) : Out :=
  let ps := (pagesOf base len).map fun p => (2 * ctx + s.arg.code % 2, p)
  let rest := s.ats.filter fun x => !ps.contains x
  if s.arg.flag && s.hostStores ctx then .next (s.post (.atsInvalidation ctx base len) s.arg)
  else .next { s with ats := if s.arg.flag then rest ++ ps else rest }

/-- Pages of M that overlap a range. -/
def pagesHit (lo hi : Nat) (l : List Nat) : Bool := l.any fun p => decide (lo < 65536 * p + 65536 ∧ 65536 * p < hi)

/-- The time up to which a row of a field is used: its end, or, where gaps hold the predecessor, the token or the close behind it (R68). -/
def rowEnd (fill : Fill) (x : FieldSt) (t : Token) : Option Nat :=
  match fill with
  | .hold => ((((x.rows.dropWhile (· != t)).drop 1).head?.or x.succ).map (·.lo)).or x.closed
  | _ => some t.hi

/-- A slot's streams hold an unconsumed token of XLATE for a range, or its results that wait do. -/
def SlotSt.uses (st : SlotSt) (i : Option (Instr × Hdr)) (lo hi : Nat) : Bool :=
  let fill (k : Nat) : Fill := match i with
    | some (i, h) => let f := Fld.ofCode (BitVec.ofNat 2 (fkeyFld k)); fillOf i f (h.gap f)
    | none => .none
  (st.fields.any fun (k, x) => x.rows.any fun t =>
    pagesHit lo hi t.pages && match rowEnd (fill k) x t with
      | some c => decide (amGet st.doneTo t.tag 0 < c)
      | none => true) ||
  st.outs.any fun o => o.2.held.any fun h => pagesHit lo hi h.tok.pages

/-- No store of a context's nodes that a translation for a range has placed is on its way or held for its gate, and no physical-address token from
XLATE to its access: none is on its way, in an overflow queue, in a row whose firing has not been taken, or in a snapshot that rollback puts back
(R355). -/
def State.xlateQuiet (s : State) (ctx lo hi : Nat) : Bool :=
  let way (x : Event) : Bool := match x.instr.wayToken with
    | some t => t.ctx == ctx && pagesHit lo hi t.pages
    | none => false
  let op (loc : Loc) (slot : Nat) : Option (Instr × Hdr) := (s.getU loc.key).conf.slotAt slot
  (s.events.all fun x => !way x) &&
    (s.links.all fun (x : Nat × LinkSt) => x.2.open.all fun m => !(m.hop.tok.ctx == ctx && pagesHit lo hi m.hop.tok.pages)) &&
    (s.pads.all fun (_, p) => p.ctx != ctx ||
      (p.deferred.all fun x => !way x) && (p.overflow.all fun x => !pagesHit lo hi x.tok.pages) &&
        p.snaps.all fun x => !(x.st.uses (op x.u x.slot) lo hi) && x.overflow.all fun y => !pagesHit lo hi y.tok.pages) &&
    s.units.all fun (_, u) =>
      !u.live || u.ctx != ctx || (u.stores.all fun x => !pagesHit lo hi x.pages || (x.visible && !x.gatedPart)) &&
        u.slots.all fun (slot, st) => !(st.uses (u.conf.slotAt slot) lo hi)

/-! ## Migration (R361, R362) -/

/-- Writes an entry of a page table. -/
def State.putEntry (s : State) (at' entry : Nat) : State := s.storeMem .m at' (toBytes 8 entry)

/-- Some 64 KiB of a frame stand behind a memory link that is out of use (R392). -/
def State.frameOut (s : State) (frame size : Nat) : Bool :=
  (List.range (size / 65536)).any fun i => s.memLinksOut.contains (Config.frameLink (frame / 65536 + i))

/-- MIGRATION_START, to a frame behind a memory link in use: the leaf that maps s.arg.va in context s.arg.ctx is marked migrating; s.arg.frame is the new frame. -/
def execMigrationStart (s : State) : Out :=
  let a := s.arg
  let (s, r) := s.walk a.ctx a.va
  match r with
  | .leaf _ en at' size =>
    if pteMigrating en || a.frame % size != 0 || s.frameOut a.frame size then .next s
    else
      let s := s.putEntry at' (en + 2 ^ 5)
      .next { s with migrations := s.migrations ++ [Migration.mk a.ctx (a.va / size * size) size at' (pteAddr en) a.frame] }
  | _ => .next s

/-- One line of a page is copied. A line with an uncorrectable error, or one that is poisoned, is written with the poison mark, in a described
page as a block with code 0xFE. -/
def State.copyLine (s : State) (described : Bool) (src dst : Nat) : State :=
  let (s, bs, c) := s.checkedRead .m src 64
  match c with
  | none => s.storeMem .m dst bs
  | some _ => if described then s.storeMem .m dst poisonBlock else (s.storeMem .m dst bs).setMark .m (dst / 64) .poison

/-- Where an address of the old frame stands after the migration. -/
def Migration.moved (m : Migration) (sp : Space) (a : Nat) : Nat :=
  if sp == .m && m.oldFrame ≤ a && a < m.oldFrame + m.size then a - m.oldFrame + m.newFrame else a

/-- Held stores to the old frame go to the new one. -/
def moveStores (m : Migration) (l : List NodeStore) : List NodeStore :=
  l.map fun x => { x with
    held := x.held.map fun (sp, a, bs) => (sp, m.moved sp a, bs)
    ups := x.ups.map fun h => { h with addr := m.moved h.sp h.addr } }

def State.moveHeld (s : State) (m : Migration) : State :=
  { s with
    sigWriters := s.sigWriters.map fun x => ((x.1.1, m.moved x.1.1 x.1.2), x.2)
    units := s.units.map fun (k, u) => (k, { u with stores := moveStores m u.stores })
    pads := s.pads.map fun (n, p) => (n, { p with snaps := p.snaps.map fun x => { x with stores := moveStores m x.stores } }) }

/-- MIGRATION_COPY_DONE: the page stands in its new frame, or, where the copy itself has faulted (s.arg.flag), the migration is aborted. The
copy starts once no access uses the old translation. -/
def execMigrationCopyDone (s : State) : Out :=
  match s.migrations with
  | [] => .next s
  | m :: rest =>
    if !s.xlateQuiet m.ctx m.va (m.va + m.size) then .next (s.post .migrationCopyDone s.arg)
    else
      let en := ofBytes (s.readMem .m m.leafAt 8)
      let clear := en - (if pteMigrating en then 2 ^ 5 else 0)
      let s := { s with migrations := rest }
      let s :=
        if s.arg.flag then s.putEntry m.leafAt clear
        else
          let s := (List.range (m.size / 64)).foldl (fun s i => s.copyLine (pteDescribed en) (m.oldFrame + 64 * i) (m.newFrame + 64 * i)) s
          (s.putEntry m.leafAt (clear - m.oldFrame + m.newFrame)).moveHeld m
      let waits (p : Pad) : Bool := match p.waitPage with
        | some va => p.ctx == m.ctx && m.va ≤ va && va < m.va + m.size
        | none => false
      let s := { s with pads := s.pads.map fun (x : Nat × Pad) => let (n, p) := x; (n, if waits p then { p with waitPage := none } else p) }
      let keys := (s.units.filter fun (x : Nat × UnitSt) => !isCellKey x.1 && x.2.live && x.2.ctx == m.ctx && !x.2.parked.isEmpty).map (·.1)
      .next ((keys.foldl (fun s k => s.wake k) s).post .droverSelection)

/-! ## Eviction (R244, R363) -/

/-- Lowest address that an index token names. -/
def lowestNamed (w : Window) (t : Token) (n : Nat) : Option Nat :=
  (((List.range 16).filter fun i => t.valid.getLsbD i).map fun i => w.base + laneAt t.payload i * n).min?

/-- The slots of a node whose index tokens name bytes of a window. A physical-form access has none (R237). -/
def indexSlots (u : UnitSt) (n : Nat) (w : Window) : List (Nat × EW) :=
  u.conf.slots.filterMap fun (slot, _) =>
    match u.conf.slotAt slot with
    | some (.ldn x, _) | some (.stn x, _) | some (.updn x, _) | some (.ldsc x, _) | some (.stsc x, _) =>
      if nodeWin x == n && (w.described || !x.md.getLsbD 0) then some (slot, x) else none
    | _ => none

/-- The mark of an evict window of a node, as its index tokens give it; none once their input has closed. -/
def windowMark (u : UnitSt) (n : Nat) (w : Window) : Option Nat :=
  let parts := (indexSlots u n w).filterMap fun (slot, x) =>
    let st := amGet u.slots slot {}
    let ls := st.fields.filter fun y => fkeyFld y.1 == 0
    if !ls.isEmpty && ls.all fun y => y.2.closed.isSome && y.2.rows.all fun t => t.hi ≤ amGet st.doneTo t.tag 0 then none
    else
      let size := if w.described then 64 else if x.ty == .f64 then 8 else 4
      let named := ls.flatMap fun y => (y.2.rows.filter fun t => amGet st.doneTo t.tag 0 < t.hi).filterMap fun t => lowestNamed w t size
      some ((named.min?).getD (w.base + w.extent))
  parts.min?

/-- The evictor has read the mark of a window that index tokens give: an access below it is out of bounds from then on (R238). The mark of a window
that has no such token bounds no later one (notes/assumptions/95.md). -/
def State.readMark (s : State) (key n : Nat) (w : Window) : State :=
  match windowMark (s.getU key) n w with
  | some m => if m < w.base + w.extent then s.updU key fun u => { u with evictMarks := amUpd u.evictMarks n 0 (max m) } else s
  | none => s

/-- EVICT: the page of s.arg.va in context s.arg.ctx is freed when it lies in an evict window and wholly below every mark of the context's
evict windows. -/
def execEvict (s : State) : Out :=
  let a := s.arg
  let (s, r) := s.walk a.ctx a.va
  match r with
  | .leaf _ en at' size =>
    let lo := a.va / size * size
    let ws := s.units.flatMap fun (key, u) =>
      if u.live && u.ctx == a.ctx && !isCellKey key then (u.conf.windows.filter fun x => x.2.evict && x.2.sp == .m).map fun x => (key, x.1, x.2) else []
    let inside := ws.any fun (_, _, w) => w.base ≤ lo && lo + size ≤ w.base + w.extent
    let marks := ws.filterMap fun (key, n, w) => windowMark (s.getU key) n w
    let s := ws.foldl (fun s (key, n, w) => s.readMark key n w) s
    if inside && (marks.all fun m => decide (lo + size ≤ m)) && s.xlateQuiet a.ctx lo (lo + size) then
      let s := s.putEntry at' (en - (if pteValid en then 1 else 0))
      .next { s with evicted := s.evicted ++ [(a.ctx, lo)] }
    else .next s
  | _ => .next s

end Sys2Proof.Machine
end

