-- ==== Sys2Proof/Machine/EngRun.lean ====
section
/-!
DEFINITION. Engine commands as they run (R207, R214, R217 to R220, R264, R268, R312 to R316): the move itself, the start and the completion of
the operations of a queue.
-/

namespace Sys2Proof.Machine

/-! ## Ranges of engine addresses -/

/-- An engine copies described pages as they are (R95). -/
def State.translateAny (s : State) (ctx va : Nat) (write : Bool) : State × XRes :=
  match s.translate ctx va write false with
  | (s, .fault 0x04) => s.translate ctx va write true
  | r => r

def State.rangeAny (ctx : Nat) (write : Bool) : List (Nat × Nat) → State → List Part → State × RangeRes
  | [], s, acc => (s, .parts acc)
  | (va, n) :: rest, s, acc =>
    let (s, r) := s.translateAny ctx va write
    match r with
    | .phys pa en =>
      State.rangeAny ctx write rest s (acc ++ [{ sp := .m, addr := pa, len := n, ext := pteExternal en, bad := ptePoisoned en, desc := pteDescribed en }])
    | .fault c => (s, .fault c va)
    | .wait m => (s, .wait va m)
    | .line _ => State.rangeAny ctx write rest s (acc ++ [{ sp := .m, addr := 0, len := n, bad := true }])

/-- n bytes at an engine address of a command of a fold's queue. The F address of a packet names its fold. -/
def State.engRange (s : State) (fold : Nat) (c : EngCmd) (write : Bool) (e : EngAddr) (n : Nat) : State × RangeRes :=
  match e.space with
  | 0 => (s, .parts [{ sp := .l, addr := lAddr (fold * 12 + e.row) e.addr, len := n }])
  | 1 => (s, .parts [{ sp := .f, addr := fAddr (if c.pkt.isSome then e.fold else fold) e.addr, len := n }])
  | 2 => (s, .parts [{ sp := .s, addr := e.addr, len := n }])
  | 3 =>
    if 2 ^ 56 < e.addr + n then (s, .fault 0x01 e.addr) else State.rangeAny c.ctx write (splitPages 65536 e.addr n) s []
  | _ => (s, s.rangeH c.ctx write (nthD (s.getPad c.pad).eps e.row (0, 0)).1 e.addr n)

/-- How an operation ends its try. -/
inductive EngRes
  | done (s : State)
  | wait (s : State) (stuck : Bool)        -- stuck: only a firing of its paddock can end the wait
  | fault (s : State) (f : FaultRec) (bounds : Bool)

/-- The record of a fault of a command: its issuing cell and handler (R279). -/
def EngCmd.fault (c : EngCmd) (code aux : Nat) : FaultRec :=
  { code := code, ctx := c.ctx, cell := coreSite c.cell, slot := c.handler, fld := 3, aux := BitVec.ofNat 64 aux }

/-- Goes on with the pieces of a range, or stops. A try that waits leaves s0 as it was, but for the page request; a store to an external page
waits for its gate. -/
def withRange (s0 s : State) (fold : Nat) (c : EngCmd) (write : Bool) (e : EngAddr) (n : Nat) (k : State → List Part → EngRes) : EngRes :=
  match s.engRange fold c write e n with
  | (s, .parts l) => if write && (l.any (·.ext)) && s.gated c then .wait s0 true else k s l
  | (_, .wait va m) =>
    .wait (if c.pkt.isNone then s0.awaitPage c.pad (engWait c.id) va write m (c.fault 0x0E 0)
      else if m then s0 else s0.askPage c.ctx va none write c.pkt (c.fault 0x0E 0)) false
  | (s, .fault cause va) => .fault s (c.fault 0x10 (cause * 2 ^ 56 + va)) false
  | (s, .refused off) => .fault s (c.fault 0x11 (e.row * 2 ^ 58 + off)) false
  | (s, .line _) => .done s

/-! ## Moving bytes -/

/-- The 8-byte units of a range, in ascending order. -/
def unitsOf (l : List Part) : List Part := l.flatMap fun p => (List.range (p.len / 8)).map fun i => { p with addr := p.addr + 8 * i, len := 8 }

/-- What writes for a command (R329). -/
def State.writerOf (s : State) (c : EngCmd) : SigWriter :=
  match c.pkt with
  | some (q, i) => .packet q i
  | none =>
    match s.engines.find? fun x => x.2.any fun y => y.id == c.id with
    | some (k, _) => .engine (k / 16) (k % 16) c.id
    | none => .engine (foldOf c.cell) 0 c.id

/-- A failed read by a command, a packet or firmware, which no sink reports: it is reported, and named in the log ring of its context (R369, R373;
notes/assumptions/133.md). Pad 0 is no paddock. -/
def State.reportCtx (s : State) (ctx pad cause : Nat) (site : Option Nat) : State :=
  (s.report { cause := cause, pad := pad, site := site }).logAppend ctx { kind := 3, cause := cause, site := site.getD 0xFFFF }

def State.reportCmd (s : State) (c : EngCmd) (cause : Nat) (site : Option Nat) : State :=
  s.reportCtx c.ctx (if c.pkt.isSome then 0 else c.pad) cause site

/-- Where a signal of a context stands. -/
def State.signalPlace (s : State) (ctx : Nat) (e : EngAddr) : Option (Space × Nat) :=
  if e.space == 1 then some (.f, fAddr e.fold e.addr)
  else
    match (s.walk ctx e.addr).2 with
    | .leaf pa _ _ _ => some (.m, pa)
    | _ => none

/-- The BARRIERs that wait on a signal at one of these places: queue, packet, the signal's number. -/
def State.waitersOn (s : State) (hit : Space × Nat → Bool) : List (Nat × Nat × Nat) :=
  s.queues.flatMap fun (q, x) => x.pkts.flatMap fun (i, p) =>
    if p.status.isSome || p.decided then []
    else (List.range p.signals.length).filterMap fun k =>
      if (s.signalPlace (x.owner.getD 0) (nthD p.signals k {})).any hit then some (q, i, k) else none

/-- A signal has been updated: every BARRIER that lists it has a reading to take (R282), which waits while the drover is stopped (R329).
What counts as an update: notes/assumptions/102.md. -/
def State.signalUpdated (s : State) (hit : Space × Nat → Bool) (w : SigWriter) : State :=
  (s.waitersOn hit).foldl (fun s (q, i, k) =>
    let s := s.updPkt q i fun p => { p with pending := p.pending ++ [some (k, w)] }
    if s.droverStop then s else s.post (.barrierReading q i)) s

/-- Pieces of memory have been written: a signal that they meet has been updated (notes/assumptions/102.md), by that writer. -/
def State.wroteBy (s : State) (l : List Part) (w : SigWriter) : State :=
  let hit (x : Space × Nat) : Bool := l.any fun p => p.sp == x.1 && decide (x.2 < p.addr + p.len) && decide (p.addr < x.2 + 8)
  { s with sigWriters := s.sigWriters.map fun (x : (Space × Nat) × SigWriter) => (x.1, if hit x.1 then w else x.2) }.signalUpdated hit w

/-- What a move has done so far: units that could not be read, by their destination, the first cause and the site that found it. -/
structure Moved where
  s : State
  failed : List Part := []
  cause : Option Nat := none
  site : Option Nat := none

/-- Reads one unit with the checks of its storing unit; a described block that cannot be read is written back with code 0xFE (R372). -/
def State.readUnit (s : State) (p : Part) : State × List Byte × Option Nat :=
  let block := p.desc && s.markOf p.sp (p.addr / 64) == some .uncorrectable
  let (s, bs, c) := s.checkedRead p.sp p.addr p.len
  let s := if block then s.storeMem p.sp (p.addr / 64 * 64) poisonBlock else s
  (s, bs, (if p.bad then some 0x08 else none).or c)

/-- Writes one unit; nothing is written to a poisoned page, and nothing for a unit that could not be read. -/
def Moved.put (m : Moved) (p : Part) (bs : List Byte) (c : Option Nat) : Moved :=
  match c with
  | some c => { m with failed := m.failed ++ [p], cause := m.cause.or (some c) }
  | none => if p.bad then m else { m with s := m.s.storeMem p.sp p.addr bs }

/-- One unit is read and then written (R313). -/
def Moved.copy (m : Moved) (x : Part × Part) : Moved :=
  let (s, bs, c) := m.s.readUnit x.1
  Moved.put { m with s := s, site := m.site.or (if c.isSome then x.1.site else none) } x.2 bs c

/-- The end of a move: a described block is written whole (R207), lines that could not be read are poisoned (R362, R372), and the first
cause is reported. The command is what last wrote the signals that it meets (R329). -/
def Moved.finish (m : Moved) (c : EngCmd) (dst : List Part) : State :=
  let s := dst.foldl (fun s p => if p.desc && !p.bad then
      ((linesOf p.addr p.len).filter fun l => decide (p.addr ≤ 64 * l ∧ 64 * l + 64 ≤ p.addr + p.len)).foldl (fun s l => s.clearMark p.sp l) s
    else s) m.s
  let s := m.failed.foldl (fun s p =>
    if p.bad then s
    else if p.desc then s.storeMem p.sp (p.addr / 64 * 64) poisonBlock
    else s.setMark p.sp (p.addr / 64) .poison) s
  let s := s.wroteBy (dst.filter fun p => !p.bad) (s.writerOf c)
  match m.cause with
  | some k => s.reportCmd c k m.site
  | none => s

/-- Copies range to range. -/
def State.engCopy (s : State) (c : EngCmd) (src dst : List Part) : State :=
  (((unitsOf src).zip (unitsOf dst)).foldl Moved.copy { s := s }).finish c dst

/-! ## CPY (R313) -/

/-- The bytes of a tile. -/
def tilePart (key : Nat) (t : Tile) : Part := { sp := .l, addr := tileAddr (idxOf key) t, len := t.size }

/-- The flags of a tile whose contents a copy has replaced: the error of a unit that could not be read, and the flags of a source tile, which
nothing clears on the way (R97, R173; notes/assumptions/98.md). -/
def Tile.filledFrom (t : Tile) (src : Option Tile) (cause : Option Nat) : Tile :=
  let x := src.getD {}
  { t with err := x.err || cause.isSome, exc := x.exc, sat := x.sat, cause := if x.err then x.cause else cause.getD 0 }

/-- The configuration of a tile is not in its cell's cache: nothing of it changes until the shepherd has fetched it (R274). -/
def State.awaitConfig (s : State) (key : Nat) : Option State :=
  if (s.getU key).slotNo.isNone then some (s.postOnce (.configFetchDone (idxOf key)))
  else none

/-- Copies a range into an op tile: the tail of its ring, which waits for EMPTY, goes READY with the span of the command and tag 0 of the
reading slot's space. -/
def State.copyToRing (s0 s : State) (c : EngCmd) (key n lo width : Nat) (src : List Part) (srcTile : Option Tile) : EngRes :=
  let r := (s.tile key n).ring
  let d := s.tailTile key r
  let t := s.tile key d
  if t.st != .empty || t.swapped.isSome then .wait s0 true
  else
    let reader := ((s.getU key).conf.ringReader r).map (·.1)
    let tsp := ((reader.bind fun slot => s.slotEnv key slot).map fun (e : SlotEnv) => e.hdr.tsp).getD 0
    let s := s.openOpTile key d lo (tsp * 64)
    let m := ((unitsOf src).zip (unitsOf [tilePart key t])).foldl Moved.copy { s := s }
    let s := m.s.setTile key d ((m.s.tile key d).filledFrom srcTile m.cause)
    let s := match m.cause with
      | some k => s.report { cause := k, pad := c.pad, site := some (cellSite (idxOf key)) }
      | none => s
    .done (((s.padTile (idxOf key) t).completeTail key r (lo + width)).settleUnit key)

/-- The destination of a copy. -/
def State.copyTo (s0 s : State) (fold : Nat) (c : EngCmd) (dst : EngAddr) (n lo width : Nat) (src : List Part) (srcTile : Option Tile := none) :
    EngRes :=
  if dst.space == 5 then
    match s.engUnit c.cell c.entry c.ctx dst with
    | none => .done s
    | some key =>
      match s0.awaitConfig key with
      | some s => .wait s false
      | none =>
        let t := s.tile key dst.addr
        if t.role == .op then State.copyToRing s0 s c key dst.addr lo width src srcTile
        else
          let m := ((unitsOf src).zip (unitsOf [tilePart key t])).foldl Moved.copy { s := s }
          let s := m.finish c [tilePart key t]
          let s := s.setTile key dst.addr ((s.tile key dst.addr).filledFrom srcTile m.cause)
          .done ((s.padTile (idxOf key) t).settleUnit key)
  else withRange s0 s fold c true dst n fun s d => .done (s.engCopy c src d)

def State.runCpy (s : State) (fold : Nat) (c : EngCmd) (src dst : EngAddr) (n lo width : Nat) (clr : Bool) : EngRes :=
  if src.space == 5 then
    match s.engUnit c.cell c.entry c.ctx src with
    | none => .done s
    | some key =>
      let t := s.tile key src.addr
      match s.awaitConfig key with
      | some s => .wait s false
      | none =>
        if t.st != .ready then .wait s true
        else
          match State.copyTo s s fold c dst n lo width [tilePart key t] (some t) with
          | .done s =>
            .done (if clr then (s.setTile key src.addr { (s.tile key src.addr).emptied with kdone := 0 }).settleUnit key else s)
          | r => r
  else withRange s s fold c false src n fun s' l => State.copyTo s s' fold c dst n lo width l

/-! ## GATH, SCAT (R313) -/

/-- The engine address of an element. -/
def EngAddr.plus (e : EngAddr) (n : Nat) : EngAddr :=
  { e with addr := if e.space == 3 then (e.addr + n) % 2 ^ 56 else if e.space == 4 then (e.addr + n) % 2 ^ 48 else e.addr + n }

/-- An element's range lies in its space. -/
def State.elementOk (s : State) (c : EngCmd) (e : EngAddr) (off n : Nat) : Bool :=
  (if e.space == 3 then decide (e.addr + off + n ≤ 2 ^ 56) else true) && s.engInBounds c.cell c.entry c.ctx c.pad { e with addr := e.addr + off } n

/-- The elements from i on. `sparse` is the indexed side, `dense` the other; `gather` reads the indexed side. -/
def State.elements (s0 : State) (fold : Nat) (c : EngCmd) (sparse list dense : EngAddr) (esize : Nat) (gather : Bool) :
    List Nat → State → EngRes
  | [], s => .done s
  | i :: rest, s =>
    withRange s0 s fold c false (list.plus (4 * i)) 4 fun s l =>
      let (s, bs, bad) := s.readParts l
      let off := ofBytes bs * esize
      match bad with
      | some k =>
        -- an index that cannot be read names no element: what GATH would have written there is poisoned
        if gather then
          withRange s0 s fold c true (dense.plus (esize * i)) esize fun s d =>
            State.elements s0 fold c sparse list dense esize gather rest (Moved.finish { s := s, failed := unitsOf d, cause := some k, site := partsSite l } c d)
        else State.elements s0 fold c sparse list dense esize gather rest (s.reportCmd c k (partsSite l))
      | none =>
        if !s.elementOk c sparse off esize then .fault s (c.fault 0x17 (EngAddr.word (sparse.plus off)).toNat) true
        else
          withRange s0 s fold c (!gather) (sparse.plus off) esize fun s x =>
            withRange s0 s fold c gather (dense.plus (esize * i)) esize fun s d =>
              State.elements s0 fold c sparse list dense esize gather rest (if gather then s.engCopy c x d else s.engCopy c d x)

/-! ## COLL (R314) -/

/-- A member of a collective: its fold, its command. -/
abbrev Member := Nat × EngCmd

def firstOpen (q : List EngCmd) : Option EngCmd := q.find? fun c => !c.done

/-- The commands of all folds of a paddock that stand first in queue q, when all are collectives of it that have started. -/
def State.members (s : State) (pad q : Nat) : Option (List Member) :=
  ((s.getPad pad).conf.folds).mapM fun f =>
    match firstOpen (amGet s.engines (queueKey f q) []) with
    | some c =>
      match c.op with
      | .coll .. => if c.pad == pad && c.started then some (f, c) else none
      | _ => none
    | none => none

/-- Reads a member's source: its units, with the cause of those that fail. -/
def State.readUnits (s : State) (l : List Part) : State × List (List Byte × Option Nat) :=
  (unitsOf l).foldl (fun (s, acc) p =>
    let (s, bs, c) := s.readUnit p
    (s, acc ++ [(bs, c)])) (s, [])

def EngCmd.collSrc (c : EngCmd) : EngAddr := match c.op with | .coll _ src _ _ _ => src | _ => {}
def EngCmd.collDst (c : EngCmd) : EngAddr := match c.op with | .coll _ _ dst _ _ => dst | _ => {}
/-- What the members must agree in. -/
def EngCmd.collKey (c : EngCmd) : Nat × Nat × Nat :=
  match c.op with
  | .coll op _ _ len root => ((match op with | .bcast => 0 | .reduce => 1 | .allreduce => 2), len, root)
  | _ => (0, 0, 0)

/-- Reads the sources of the members one after another. -/
def State.readSources (s0 : State) (len : Nat) (k : State → List (List (List Byte × Option Nat)) → EngRes) :
    List Member → State → List (List (List Byte × Option Nat)) → EngRes
  | [], s, acc => k s acc
  | (f, c) :: rest, s, acc =>
    withRange s0 s f c false c.collSrc len fun s l =>
      let (s, us) := s.readUnits l
      State.readSources s0 len k rest s (acc ++ [us])

/-- Writes a result to the members' destinations. -/
def State.writeDests (s0 : State) (len : Nat) (us : List (List Byte × Option Nat)) : List Member → State → EngRes
  | [], s => .done s
  | (f, c) :: rest, s =>
    withRange s0 s f c true c.collDst len fun s l =>
      let m := ((unitsOf l).zip us).foldl (fun (m : Moved) (p, bs, k) => m.put p bs k) { s := s }
      State.writeDests s0 len us rest (m.finish c l)

/-- The sum of two f32 values, with no FTZ, rounded to nearest. -/
def addF32 (x y : Nat) : Nat := (addCodes .f32 .rne false x y).bits

/-- Adds two sources element by element; a unit that fails in one fails in the sum. -/
def addUnits (a b : List (List Byte × Option Nat)) : List (List Byte × Option Nat) :=
  (a.zip b).map fun ((x, c), (y, d)) =>
    (toBytes 4 (addF32 (ofBytes (x.take 4)) (ofBytes (y.take 4))) ++ toBytes 4 (addF32 (ofBytes (x.drop 4)) (ofBytes (y.drop 4))), c.or d)

/-- The sum along the recorded tree (R114). -/
def treeSum (l : List (List (List Byte × Option Nat))) : FoldTree → List (List Byte × Option Nat)
  | .leaf i => nthD l i []
  | .node a b => addUnits (treeSum l a) (treeSum l b)

/-- A matched collective is performed. -/
def State.runColl (s : State) (fold : Nat) (c : EngCmd) (q : Nat) (ms : List Member) : EngRes :=
  let s := ms.foldl (fun s m => s.pageCame c.pad (engWait m.2.id)) s
  let (op, len, root) := c.collKey
  if ms.any fun m => m.2.collKey != (op, len, root) then
    .fault s { code := 0x06, ctx := c.ctx, cell := coreSite (384 + fold), fld := 3, aux := BitVec.ofNat 64 (2 ^ 63 + q) } false
  else
    let rootMember := (ms.drop root).take 1
    if op == 0 then State.readSources s len (fun s' l => State.writeDests s len (l.headD []) ms s') rootMember s []
    else
      State.readSources s len (fun s' l =>
        State.writeDests s len (treeSum l (s.getPad c.pad).conf.collTree) (if op == 1 then rootMember else ms) s') ms s []

/-! ## Signals (R316) -/

/-- The new value of a signal. -/
def signalValue (op old v : Nat) : Nat :=
  match op with
  | 0 => (old + v) % 2 ^ 64
  | 1 => (old + 2 ^ 64 - v % 2 ^ 64) % 2 ^ 64
  | _ => v

/-- A new value stands at the place of a signal. -/
def State.putSignal (s : State) (p : Part) (v : Nat) (w : SigWriter) : State :=
  let at' := (p.sp, p.addr)
  let s := s.storeMem p.sp p.addr (toBytes 8 v)
  { s with sigWriters := (at', w) :: s.sigWriters.filter fun x => x.1 != at' }.signalUpdated (· == at') w

/-- Updates the signal at a place. A line that fails its check cannot be counted up or down. -/
def State.updateSignal (s : State) (op : Nat) (v : Nat) (l : List Part) (w : SigWriter) : State × Option Nat :=
  match l with
  | p :: _ =>
    let (s, bs, c) := s.readUnit p
    match c with
    | some k => if op == 2 && !p.bad then (s.putSignal p v w, none) else (s, some k)
    | none => (s.putSignal p (signalValue op (ofBytes bs) v) w, none)
  | [] => (s, none)

/-! ## Queues of a fold -/

def State.updEng (s : State) (k : Nat) (f : List EngCmd → List EngCmd) : State := { s with engines := amUpd s.engines k [] f }

/-- Changes one command. -/
def State.updCmd (s : State) (k id : Nat) (f : EngCmd → EngCmd) : State := s.updEng k fun l => l.map fun c => if c.id == id then f c else c

/-- Commands that have not completed. -/
def State.openIds (s : State) : List Nat := s.engines.flatMap fun x => x.2.map (·.id)

/-- Copies of a fold that are in flight: started and not completed (R264). -/
def State.copiesInFlight (s : State) (fold : Nat) : Nat :=
  ((s.engines.filter fun x => x.1 / 16 == fold).map fun x => countIf (fun (c : EngCmd) => c.started) x.2).sum

/-- A command has performed or ended; its completion is on the way, and it waits for no page. -/
def State.cmdDone (s : State) (fold q : Nat) (id : Nat) (failed : Bool) : State :=
  let s := { s with pads := s.pads.map fun (x : Nat × Pad) => (x.1, { x.2 with waits := amDel x.2.waits (engWait id) }) }
  ((s.updCmd (queueKey fold q) id fun c => { c with started := true, done := true, failed := failed }).post (.engineOpComplete fold q)).postOnce
    (.engineOpStart fold q)

/-- The paddock is being stopped, and no firing of it runs. -/
def State.padDrained (s : State) (pad : Nat) : Bool :=
  (s.getPad pad).phase.stopping && s.cores.all fun (c, k) => isFirmware c || !(k.running || k.failed) || k.firing.pad != pad

/-- The paddock is going back to a commit that covers the command, whose stores wait for their gate: they are not made again. -/
def State.outlives (s : State) (c : EngCmd) : Bool :=
  let p := s.getPad c.pad
  (p.phase == .preempting || p.phase == .parking || p.phase == .replaying) && decide (c.commit ≤ p.commit) && s.gated c

/-- The list of an indexed command as it stands now: offsets of its elements. -/
def State.offsetsOf (s : State) (fold : Nat) (c : EngCmd) (list : EngAddr) (count esize : Nat) : List Nat :=
  match s.engRange fold c false list (4 * count) with
  | (s, .parts l) =>
    let bs := l.flatMap fun p => s.readMem p.sp p.addr p.len
    (List.range count).map fun i => ofBytes ((bs.drop (4 * i)).take 4) * esize
  | _ => []

/-- The ranges that a command reads and writes. -/
def State.engRanges (s : State) (fold : Nat) (c : EngCmd) : List (EngAddr × Nat) :=
  let indexed (sparse list dense : EngAddr) (count esize : Nat) : List (EngAddr × Nat) :=
    [(list, 4 * count), (dense, esize * count)] ++
      (if sparse.space == 2 then (s.offsetsOf fold c list count esize).map fun o => (sparse.plus o, esize) else [])
  match c.op with
  | .cpy src dst n .. => [(src, n), (dst, n)]
  | .gath src list dst count esize => indexed src list dst count esize
  | .scat src dst list count esize => indexed dst list src count esize
  | .coll _ src dst n _ => [(src, n), (dst, n)]
  | .sig _ a _ => [(a, 8)]
  | .enq a _ => [(a, 64)]

/-- The slices of a range of S. -/
def rangeSlices (x : EngAddr × Nat) : List Nat :=
  if x.1.space == 2 then (splitPages (2 ^ 22) x.1.addr x.2).map fun p => sliceOfAddr p.1 else []

/-- The slices that a command sends requests to and for which its fold has permits (R21, R268): those of its ranges, and of its elements. -/
def State.engSlices (s : State) (fold : Nat) (c : EngCmd) : List Nat :=
  (((s.engRanges fold c).flatMap rangeSlices).eraseDups).filter fun x => (s.getPad c.pad).conf.namesPair (foldOf c.cell) x

/-- A command finds no permit of pool 0 for a slice that it sends requests to, and none is on its way back to wait for in its step (R269). -/
def State.engFull (s : State) (fold : Nat) (c : EngCmd) : Bool := (s.engSlices fold c).any fun x => s.sliceFull c.pad c.cell x

/-- The stores of a command's cell arrive before it, and so does what must give it a permit; its own is back when it has been performed. -/
def State.engRequest (s : State) (fold : Nat) (c : EngCmd) : State :=
  (s.engSlices fold c).foldl (fun s x => s.sliceRequest c.pad c.cell x) (s.deliver fun g => g.cell == c.cell)

/-! ## One operation -/

/-- Some fold of the paddock holds no collective of it in queue q any more. -/
def State.noMember (s : State) (pad q : Nat) : Bool :=
  (s.getPad pad).conf.folds.any fun f => !((amGet s.engines (queueKey f q) []).any fun c => c.pad == pad && !c.done && match c.op with
    | .coll .. => true
    | _ => false)

/-- A command performs. A collective performs once all members have reached it. -/
def State.runOp (s : State) (fold q : Nat) (c : EngCmd) : EngRes :=
  match c.op with
  | .cpy src dst n lo width clr => s.runCpy fold c src dst n lo width clr
  | .gath src list dst count esize => State.elements s fold c src list dst esize true (List.range count) s
  | .scat src dst list count esize => State.elements s fold c dst list src esize false (List.range count) s
  | .coll .. =>
    match s.members c.pad q with
    | some ms =>
      -- each member reads and writes with permits of its own fold (R21, R269)
      if ms.any fun m => s.engFull m.1 m.2 then .wait s false
      else
        let s := ms.foldl (fun s m => s.engRequest m.1 m.2) s
        s.runColl fold c q ms
    | none => .wait s (s.noMember c.pad q)
  | .sig op a v =>
    withRange s s fold c true a 8 fun s l =>
      match s.updateSignal op v.toNat l (.engine fold q c.id) with
      | (s, some k) => .done (s.reportCmd c k (partsSite l))
      | (s, none) => .done s
  | .enq .. => .wait s false

/-- Ends a try of a command. -/
def State.cmdEnd (s0 : State) (fold q : Nat) (c : EngCmd) (r : EngRes) : State :=
  match r with
  | .done s =>
    match c.op with
    | .coll .. => ((s0.members c.pad q).getD []).foldl (fun s m => s.cmdDone m.1 q m.2.id false) s
    | _ => s.cmdDone fold q c.id false
  | .wait s stuck =>
    let denied := match c.pkt with
      | some (lq, i) => (s.pkt lq i).denied
      | none => false
    if denied then s.cmdDone fold q c.id true
    -- a command of a paddock that is being stopped, which waits for what no firing will bring, ends; one of a complete commit, which a
    -- pre-emption does not undo, may wait for its gate (notes/assumptions/36.md)
    else if stuck && c.pkt.isNone && s.padDrained c.pad && !s.outlives c then s.cmdDone fold q c.id false
    else s.postOnce (.engineOpStart fold q)
  | .fault s f bounds =>
    match c.op with
    | .coll .. => (((s0.members c.pad q).getD []).foldl (fun s m => s.cmdDone m.1 q m.2.id false) s).raise c.pad f
    | _ =>
      let s := s.cmdDone fold q c.id true
      if c.pkt.isSome then s
      else
        let s := s.raise c.pad f
        if bounds then s.updEng (queueKey fold q) fun l => l.filter fun x => x.started || x.pad != c.pad else s

/-- ENGINE_OP_START: the first command of the queue that is not done starts once the commands it must wait for have completed, its
cell's stores have arrived and the slices that it names have a permit for it. -/
def execEngineOpStart (fold q : Nat) (s : State) : Out :=
  let k := queueKey fold q
  match firstOpen (amGet s.engines k []) with
  | none => .next s
  | some c =>
    if !c.started && ((c.deps.any fun d => s.openIds.contains d) || 128 ≤ s.copiesInFlight fold || s.engFull fold c) then .next (s.postOnce (.engineOpStart fold q))
    else
      let s := if c.pkt.isSome then s else (s.pageCame c.pad (engWait c.id)).engRequest fold c
      match c.op with
      | .enq .. => .next ((s.updCmd k c.id fun c => { c with started := true }).postOnce (.enqAppend fold q))
      | .coll .. =>
        let s := s.updCmd k c.id fun c => { c with started := true }
        .next (s.cmdEnd fold q c (s.runOp fold q c))
      | _ => .next (s.cmdEnd fold q c (s.runOp fold q c))

/-- ENGINE_OP_COMPLETE: the oldest command of the queue completes; its entry is free. -/
def execEngineOpComplete (fold q : Nat) (s : State) : Out :=
  let k := queueKey fold q
  match amGet s.engines k [] with
  | [] => .next s
  | c :: rest =>
    if !c.done then .next s
    else
      let s := s.updEng k fun _ => rest
      let s := s.postOnce (.engineOpStart fold q)
      match c.pkt with
      | some (lq, i) => .next (s.post (.packetComplete lq i (if c.failed then .faulted else .complete)))
      | none =>
        let s := s.postAll ((List.range 12).map fun r => Event.mk (.handlerSelect (fold * 12 + r)) {})
        .next ((s.checkQuiet c.pad).checkDone c.pad)

/-- SLICE_REPLY (R212, R268): the oldest group of the cell to the slice arrives, and its permit comes back. Where it has arrived already, a FENCE or a
load has waited for it. -/
def execSliceReply (cell slice : Nat) (s : State) : Out :=
  match s.groups.find? fun g => g.cell == cell && g.slice == slice with
  | some g => .next (({ s with groups := s.groups.erase g }.deliverGroup g).checkDone g.pad)
  | none => .next ((s.pads.map (·.1)).foldl (fun s p => s.checkDone p) s)

end Sys2Proof.Machine
end

