-- ==== Sys2Proof/Machine/FwOps.lean ====
section
/-!
DEFINITION. Operations of firmware that several families share: the end of a mailbox command (R402), the heartbeat of a live
update (R367, R368).
-/

namespace Sys2Proof.Machine

/-! ## Mailbox (R402) -/

/-- Bits of the status word. -/
def mboxBusy : Nat := 2 ^ 30
def mboxOverrun : Nat := 2 ^ 31

def Mailbox.word (m : Mailbox) (off n : Nat) : Nat := ofBytes (m.bytes.read off n)
def Mailbox.put (m : Mailbox) (off : Nat) (bs : List Byte) : Mailbox := { m with bytes := m.bytes.write off bs }

/-- The pending command is answered: its results, then its status, then MSI-X vector 0. A command that was discarded meanwhile
leaves bit 31 set. -/
def State.mboxFinish (s : State) (code : Nat) (results : List (Nat × List Byte)) : State :=
  let m := results.foldl (fun m (off, bs) => m.put off bs) s.mailbox
  let flag := if bitOf (s.mailbox.word 4 4) 31 then mboxOverrun else 0
  { s with mailbox := { m.put 4 (toBytes 4 (code + flag)) with pending := none, msix := m.msix ++ [0] } }

/-! ## Firmware slots -/

/-- FWSLOT: bit 0 the running slot, bit 1 whether the other slot holds a verified image (R349). -/
def State.fwSlotWord (s : State) : Nat :=
  s.fwSlot % 2 + (if (amGet s.fw (1 - s.fwSlot) {}).verified then 2 else 0)

def State.fwVersion (s : State) : DWord := (amGet s.fw s.fwSlot {}).version

/-- Every core of the new image has written HBEAT: queues resume, and parked paddocks are re-admitted (R367 step 6). -/
def State.updateDone (s : State) (code : Nat) : State :=
  let s := { s with update := none }
  (if s.mailbox.pending == some 0x09 then s.mboxFinish code [(8, [BitVec.ofNat 8 s.fwSlotWord])] else s).post .droverSelection

/-- A core has written HBEAT (R368). The measurements and the slot selection change at the new image's first heartbeat. -/
def State.heartbeatWritten (s : State) (core : Nat) : State :=
  match s.update with
  | some u =>
    if u.started then
      let w := u.waiting.filter (· != core)
      let s := { s with bmcSlot := s.fwSlot, update := some { u with waiting := w } }
      if w.isEmpty then s.updateDone 0 else s
    else s
  | none => s

end Sys2Proof.Machine
end

