-- ==== Sys2Proof/Machine/Special.lean ====
section
/-!
DEFINITION. Special registers and services (R349 to R352).
-/

namespace Sys2Proof.Machine

/-- A privileged index (R349). -/
def privIndex (idx : BitVec 12) : Bool := 0x800 ≤ idx.toNat

/-- The value of a special register (R349). -/
def readSpecial (s : State) (idx : BitVec 12) : DWord :=
  let k := s.core
  let f := k.firing
  let sel := amGet s.ctxs k.ctxSel {}
  match idx.toNat with
  | 0x000 => BitVec.ofNat 64 f.ctx
  | 0x001 => BitVec.ofNat 64 (coreSite s.curCore)
  | 0x002 => BitVec.ofNat 64 (if s.curCore < 416 then coreFold s.curCore else 0)
  | 0x003 => BitVec.ofNat 64 f.tag
  | 0x004 => BitVec.ofNat 64 f.seq
  | 0x005 => BitVec.ofNat 64 f.spanLo
  | 0x006 => BitVec.ofNat 64 f.spanHi
  | 0x007 => amGet (s.getCell s.curCore).fireCnt f.ctx 0
  | 0x008 => BitVec.ofNat 64 f.prio
  | 0x009 => amGet k.trapCause f.ctx 0
  | 0x00A => amGet k.trapPc f.ctx 0
  | 0x00B => k.errmask
  | 0x00C => amGet (s.getCell s.curCore).excRec f.ctx 0
  | 0x00D => BitVec.ofNat 64 (amGet s.ctxs f.ctx {}).gen
  | 0x800 => BitVec.ofNat 64 sel.root
  | 0x801 => BitVec.ofNat 64 k.ctxSel
  | 0x802 => k.hbeat
  | 0x803 => BitVec.ofNat 64 s.fwSlotWord
  | 0x804 => s.fwVersion
  | 0x805 => BitVec.ofNat 64 sel.stale
  | _ => 0

/-- Bits that a value written to a special register may have (R349, R388). -/
def specialMask (idx : BitVec 12) : Nat :=
  match idx.toNat with
  | 0x005 | 0x006 => 2 ^ 40 - 1
  | 0x00B => 0x1FE
  | 0x800 => 2 ^ 52 - 2 ^ 16
  | 0x801 => 63
  | 0x805 => 2 ^ 32 - 1
  | _ => 2 ^ 64 - 1

/-- The write of a special register. EXCREC's clear is held to FIN; the others perform at issue (R351). -/
def writeSpecial (s : State) (idx : BitVec 12) (v : DWord) : State :=
  let k := s.core
  let sel := amGet s.ctxs k.ctxSel {}
  match idx.toNat with
  | 0x005 => s.setCore { k with firing := { k.firing with spanLo := v.toNat } }
  | 0x006 => s.setCore { k with firing := { k.firing with spanHi := v.toNat } }
  | 0x00B => s.setCore { k with errmask := v }
  | 0x00C => s.hold .excClear
  | 0x800 => { s with ctxs := amPut s.ctxs k.ctxSel { sel with root := v.toNat } }
  | 0x801 => s.setCore { k with ctxSel := v.toNat }
  | 0x802 => (s.setCore { k with hbeat := v }).heartbeatWritten s.curCore
  | 0x805 => { s with ctxs := amPut s.ctxs k.ctxSel { sel with stale := v.toNat } }
  | _ => s

/-- MFS. On a cell no register is assigned at a privileged index; that is found before the guard is looked at (R38, R349). -/
def execMfs (d : RegNum) (idx : BitVec 12) (g : Guard) (s : State) : Out :=
  if privIndex idx && !isFirmware s.curCore then .next (s.takeTrap .reservedField 0)
  else .next (runWord s g [] [] true fun s => .done (s.setCore (s.core.setReg d (readSpecial s idx))))

/-- MTS. A privileged MTS on a cell traps PRIVILEGE before the guard is looked at (R38 step 2, R349). -/
def execMts (idx : BitVec 12) (a : RegNum) (g : Guard) (s : State) : Out :=
  if (privIndex idx || idx == 0x00B) && !isFirmware s.curCore then .next (s.takeTrap .privilege 0)
  else .next (runWord s g [a] [] true fun s =>
    let v := s.core.reg a
    if v.toNat &&& specialMask idx != v.toNat then .trap .reservedField 0 else .done (writeSpecial s idx v))

/-- Cells retired in the grid-health map. -/
def State.retiredCount (s : State) : Nat := s.retired.length

/-- SYSC (R352). A service that is not listed traps whatever the guard holds (R38). VERSION and HEALTH perform at issue; LOG, PREFAULT and PBAR are held. PBAR needs d[63:3] zero and a barrier
that the cell declares (R310). -/
def execSysc (d : RegNum) (svc : BitVec 12) (g : Guard) (s : State) : Out :=
  if svc.toNat == 0 || 5 < svc.toNat then .next (s.takeTrap .reservedField 0)
  else .next (runWord s g (if svc.toNat ≤ 2 then [] else [d]) [] true fun s =>
    let v := s.core.reg d
    match svc.toNat with
    | 1 => .done (s.setCore (s.core.setReg d s.fwVersion))
    | 2 => .done (s.setCore (s.core.setReg d (BitVec.ofNat 64 s.retiredCount)))
    | 3 => .done (s.hold (.log v))
    | 4 => .done (s.hold (.prefault v.toNat))
    | 5 =>
      if v.toNat < 8 && (amGet? (s.curUnit).conf.barriers v.toNat).isSome then .done (s.hold (.pbar v.toNat))
      else .trap .reservedField 0
    | _ => .trap .reservedField 0)

end Sys2Proof.Machine
end

