-- ==== Sys2Proof/Machine/Queues.lean ====
section
/-!
DEFINITION. Launch queues (R280 to R285, R399 to R401), their packets (R323, R324, R346), the drover's selection (R284, R285), appends by ENQ (R320).
-/

namespace Sys2Proof.Machine

/-! ## The packet in its ring (R399) -/

/-- What reading a packet gives. -/
inductive PktRead
  | bytes (b : List Byte)
  | wait
  | bad

/-- Goes to n bytes at an M address of a context, for a packet that waits while a page is not there. -/
def State.pktRange (s : State) (q i ctx a n : Nat) (write : Bool) : State × RangeRes :=
  match s.range ctx false write a 0 n with
  | (s, .wait va m) => if (s.pkt q i).denied then (s, .fault 0 va) else (if m then s else s.askPage ctx va none write (some (q, i)), .wait va m)
  | r => r

def State.pktAddr (s : State) (q i : Nat) : Nat := (s.getQ q).ring + 64 * (i % 2 ^ (s.getQ q).lg)

/-- Reads packet i of a queue. -/
def State.readPkt (s : State) (q i : Nat) : State × PktRead :=
  match (s.getQ q).owner with
  | none => (s, .bad)
  | some ctx =>
    match s.pktRange q i ctx (s.pktAddr q i) 64 false with
    | (s, .parts l) =>
      let (s, bs, c) := s.readParts l
      match c with
      | some k => (s.reportCtx ctx 0 k (partsSite l), .bad)
      | none => (s, .bytes bs)
    | (s, .wait _ _) => (s, .wait)
    | (s, _) => (s, .bad)

/-! ## Its fields (R323, R324) -/

def pktNum (b : List Byte) (lo n : Nat) : Nat := ofBytes ((b.drop lo).take n)
def pktKind (b : List Byte) : Nat := pktNum b 0 1
def pktBarrier (b : List Byte) : Bool := bitOf (pktNum b 1 1) 0

/-- A signal address: F or M, 8-aligned. -/
def signalAddr (v : Nat) : Option EngAddr :=
  match parsePktAddr (BitVec.ofNat 64 v) with
  | some e => if e.space != 2 && e.addr % 8 == 0 then some e else none
  | none => none

/-- The completion signal, if the packet names one. -/
def pktDone (b : List Byte) : Option EngAddr := if bitOf (pktNum b 1 1) 1 then signalAddr (pktNum b 8 8) else none

def zeroFrom (b : List Byte) (lo n : Nat) : Bool := pktNum b lo n == 0

/-- The signals that a BARRIER packet lists. -/
def pktSignals (b : List Byte) : List EngAddr := (List.range (pktNum b 48 1)).filterMap fun i => signalAddr (pktNum b (16 + 8 * i) 8)

/-- The header and the body hold to their tables. -/
def pktOk (b : List Byte) : Bool :=
  pktNum b 1 1 < 4 && zeroFrom b 2 2 && (!bitOf (pktNum b 1 1) 1 || (pktDone b).isSome) &&
    match pktKind b with
    | 1 => pktNum b 32 8 % 16 == 0 && pktNum b 24 8 < 2 ^ 56 && pktNum b 32 8 < 2 ^ 56 && pktNum b 40 2 ≤ 64 && zeroFrom b 42 22
    | 2 =>
      let n := pktNum b 48 1
      1 ≤ n && n ≤ 4 && (pktSignals b).length == n && zeroFrom b (16 + 8 * n) (32 - 8 * n) && zeroFrom b 49 15
    | 3 => (signalAddr (pktNum b 16 8)).isSome && pktNum b 32 1 ≤ 2 && zeroFrom b 33 31
    | 4 =>
      ([16, 24].all fun k => match parsePktAddr (BitVec.ofNat 64 (pktNum b k 8)) with
        | some e => e.addr % 8 == 0
        | none => false) && pktNum b 32 8 % 8 == 0 && pktNum b 32 8 < 2 ^ 32 && zeroFrom b 40 24
    | 5 => zeroFrom b 16 48
    | _ => false

/-- A context holds a fold while a paddock of it is resident there (R341). -/
def State.ownsFold (s : State) (ctx fold : Nat) : Bool := s.pads.any fun (_, p) => p.ctx == ctx && p.phase != .parked && p.conf.folds.contains fold
def State.ownsSlice (s : State) (ctx slice : Nat) : Bool := s.pads.any fun (_, p) => p.ctx == ctx && p.phase != .parked && p.conf.slices.contains slice

/-- n bytes of a fold's F are the context's: they lie in windows that have passed to it and to no other context since (R339, R342, R343). -/
def State.fOwned (s : State) (ctx fold addr n : Nat) : Bool :=
  addr + n ≤ Config.fUser &&
    (List.range ((addr + n + 65535) / 65536 - addr / 65536)).all fun k => amGet? s.owners (ownF fold (addr / 65536 + k)) == some (s.owner ctx)

/-- n bytes at an address of a packet are the context's to use (R346). -/
def State.pktAddrOk (s : State) (ctx : Nat) (e : EngAddr) (n : Nat) : Bool :=
  match e.space with
  | 1 => s.ownsFold ctx e.fold && s.fOwned ctx e.fold e.addr n
  | 2 =>
    e.addr + n ≤ 2 ^ 32 && (n == 0 || (List.range (sliceOfAddr (e.addr + n - 1) + 1 - sliceOfAddr e.addr)).all fun i =>
      s.ownsSlice ctx (sliceOfAddr e.addr + i)) && bitsOf e.addr 29 22 ≤ 95 && (n == 0 || bitsOf (e.addr + n - 1) 29 22 ≤ 95)
  | _ => e.addr + n ≤ 2 ^ 56

/-! ## Retirement (R280, R283) -/

def statusCode : PktStatus → Nat
  | .complete => 1
  | .faulted => 2
  | .aborted => 3
  | .abortedByPredecessor => 4

/-- Whether a context is being killed: the device writes nothing of it (R347). -/
def State.isKilling (s : State) (ctx : Nat) : Bool := (amGet s.ctxs ctx {}).st == .killing

/-- gweuf stops the drover at a packet (R329). -/
def State.pktBreak (s : State) (q i : Nat) : Bool := s.breaks.contains (.packet q none) || s.breaks.contains (.packet q (some i))

/-- The oldest packets that have retired make room; what gweuf lists of them stays until their places in the ring are used again (R329). -/
def Queue.advance (q : Queue) : Nat → Queue
  | 0 => q
  | n + 1 => if q.rd < q.wr && (amGet q.pkts q.rd {}).status.isSome then { q with rd := q.rd + 1 }.advance n else q

/-- Packets that have not started and never will retire with their predecessor. -/
def State.retireUnstarted (s : State) (q : Nat) : State :=
  let x := s.getQ q
  let js := ((List.range (x.wr - x.rd)).map (· + x.rd)).filter fun j => !(amGet x.pkts j {}).started
  let s := js.foldl (fun s j => s.updPkt q j fun p => { p with started := true }) s
  s.postAll (js.map fun j => Event.mk (.packetComplete q j .abortedByPredecessor) {})

/-- A queue that is being re-armed is ARMED once no packet from before the rearm write is left to retire unexecuted (R401). -/
def State.settleRearm (s : State) (q : Nat) : State :=
  match (s.getQ q).rearm with
  | some w =>
    let left := s.events.any fun x =>
      match x.instr with
      | .packetComplete r j .abortedByPredecessor => r == q && decide (j < w)
      | _ => false
    if left then s else s.updQ q fun x => { x with st := .armed, rearm := none }
  | none => s

/-- A packet updates a signal; a line that fails its check is reported. -/
def State.pktSignal (s : State) (ctx op v : Nat) (l : List Part) (w : SigWriter) : State :=
  match s.updateSignal op v l w with
  | (s, some k) => s.reportCtx ctx 0 k (partsSite l)
  | (s, none) => s

/-- The completion signal changes: down by 1 at COMPLETE, −1 at every other status. One that cannot be translated keeps its value. None
where the page is not there yet. -/
def State.signalDone (s : State) (q i ctx : Nat) (e : EngAddr) (st : PktStatus) : State × Bool :=
  let put (s : State) (l : List Part) : State := if st == .complete then s.pktSignal ctx 1 1 l (.packet q i) else s.pktSignal ctx 2 (2 ^ 64 - 1) l (.packet q i)
  if e.space == 1 then
    if !s.fOwned ctx e.fold e.addr 8 then (s, true)
    else (put s [{ sp := .f, addr := fAddr e.fold e.addr, len := 8 }], true)
  else
    match s.pktRange q i ctx e.addr 8 true with
    | (s, .parts l) => (put s l, true)
    | (s, .wait _ _) => (s, false)
    | (s, _) => (s, true)

/-- The status word of a packet is written where its page allows it. -/
def State.writeStatus (s : State) (q i ctx : Nat) (st : PktStatus) : State :=
  match s.range ctx false true (s.pktAddr q i + 4) 0 4 with
  | (s, .parts l) => s.putWrites (partWrites l (toBytes 4 (statusCode st)))
  | (s, _) => s

/-- The paddock of a LAUNCH packet. -/
def State.padOfPkt (s : State) (q i : Nat) : Option Nat := (s.pads.find? fun x => x.2.queue == q && x.2.pkt == i).map (·.1)

/-- A firing of a paddock runs, waits for its re-run or for its FIN. -/
def State.padFires (s : State) (pad : Nat) : Bool :=
  s.cores.any fun (c, k) => !isFirmware c && (k.running || k.failed || k.finWait) && k.firing.pad == pad

/-- PACKET_COMPLETE: the packet retires. A LAUNCH completes COMPLETE only while it is done, and its paddock is gone then (R219, R226, R280); a firing
that is in flight ends first, and no other starts (notes/assumptions/111.md). -/
def execPacketComplete (q i : Nat) (st : PktStatus) (s : State) : Out :=
  let x := s.getQ q
  let pad := if st == .complete then s.padOfPkt q i else none
  if i < x.rd || x.wr ≤ i || (s.pkt q i).status.isSome || pad.any fun n => !s.launchDone n then .next s
  else if s.droverStop then .next (s.post (.packetComplete q i st))
  else if pad.any s.padFires then .next ((s.haltUnits (pad.getD 0)).post (.packetComplete q i st))
  else
    let finish (s : State) : State :=
      let s := s.updPkt q i fun p => { p with started := true, status := some st }
      let s := match pad with
        | some n => s.dropPad n
        | none => s
      let s := if st == .complete then s else { s with mailbox := { s.mailbox with msix := s.mailbox.msix ++ [q + 1] } }
      let s := if (st == .aborted || st == .faulted) && (s.getQ q).st == .armed then (s.updQ q fun x => { x with st := .aborted }).retireUnstarted q else s
      let s := (s.updQ q fun x => x.advance (x.wr - x.rd)).settleRearm q
      (if s.pktBreak q i then { s with droverStop := true } else s).post .droverSelection
    let ctx := x.owner.getD 0
    if s.isKilling ctx then .next (finish s)
    else
      let (s, r) := s.readPkt q i
      match r with
      | .bytes b =>
        match pktDone b with
        | some e =>
          match s.signalDone q i ctx e st with
          | (s, true) => .next (finish (s.writeStatus q i ctx st))
          | (s, false) => .next (s.post (.packetComplete q i st))
        | none => .next (finish (s.writeStatus q i ctx st))
      | .wait => .next (s.post (.packetComplete q i st))
      | .bad => .next (finish s)

/-! ## Doorbells, re-arming, priority (R399 to R401) -/

/-- Packets up to wr become visible. -/
def State.doorbell (s : State) (q wr : Nat) : State :=
  let s := s.updQ q fun x => { x with wr := wr, pkts := x.pkts.filter fun y => decide (wr ≤ y.1 + 2 ^ x.lg) }
  let s := if (s.getQ q).st == .aborted && (s.getQ q).rearm.isNone then s.retireUnstarted q else s
  s.post .droverSelection

/-- QUEUE_DOORBELL. -/
def execQueueDoorbell (q wr : Nat) (s : State) : Out :=
  let x := s.getQ q
  if 64 ≤ q then .fault .noSuchUnit
  else if x.st == .disabled || wr < x.wr || 2 ^ x.lg < wr - x.rd then .next (s.updQ q fun x => { x with ignored := x.ignored + 1 })
  else .next (s.doorbell q wr)

/-- QUEUE_REARM: every packet below wr retires, in queue order; then the queue is armed. -/
def execQueueRearm (q : Nat) (s : State) : Out :=
  if 64 ≤ q then .fault .noSuchUnit
  else if (s.getQ q).st == .aborted && (s.getQ q).rearm.isNone then
    .next ((((s.retireUnstarted q).updQ q fun x => { x with rearm := some x.wr }).settleRearm q).postOnce .droverSelection)
  else .next s

/-- QUEUE_PRIO_WRITE. Prio has the values 0 to 7; it keeps the low three bits of a larger one (notes/assumptions/96.md). -/
def execQueuePrioWrite (q prio : Nat) (s : State) : Out :=
  if 64 ≤ q then .fault .noSuchUnit else .next (s.updQ q fun x => { x with prio := prio % 8 })

/-! ## Places for paddocks (R16, R23, R386) -/

/-- A configuration stands at a placement that was made for the present grid-health map. -/
def Conf.healthy (c : Conf) (retired : List Nat) : Bool := c.grid == retired

/-- A placement by the mapper under a handle's recorded shapes. -/
def State.placeUnder (s : State) (h : Handle) (busy : List Nat) : Option Conf :=
  let g := graphOf h.image
  match s.mapped h.image busy (some (treeShapes h.place)) with
  | some p =>
    if Placement.ok p g s.retired busy (amGet s.ctxs h.ctx {}).share && Placement.sameShape p h.place then some (buildConf h.image g p s.retired) else none
  | none => none

def State.busyFolds (s : State) (ctx : Nat) : List Nat := (List.range 32).filter fun f => !s.foldFree ctx f

/-- The place for a configuration: its own, where that was made for the present grid-health map and is free, else one that the mapper finds
for that map. A launch that is not yet placed waits for its own place while the map is the same. Nothing is placed over a bridge that is down until it
recovers (R391). -/
def State.placeFor (s : State) (ctx : Nat) (h : Handle) (c : Conf) (fresh : Bool) : Option Conf :=
  if c.healthy s.retired && s.admissible ctx c && s.bridgesUp c then some c
  else if fresh && c.healthy s.retired then none
  else
    match s.placeUnder h (s.busyFolds ctx) with
    | some d => if s.admissible ctx d && s.bridgesUp d then some d else none
    | none => none

/-- A placement that the mapper has made for a launch goes into its cache. -/
def State.cacheFor (s : State) (ctx : Nat) (h : Handle) (c : Conf) : State :=
  if c.healthy s.retired then s
  else
    match s.mapped h.image (s.busyFolds ctx) (some (treeShapes h.place)) with
    | some p => s.cachePlace h.image p
    | none => s

/-- No placement on the healthy grid has the handle's shapes. -/
def State.noPlace (s : State) (h : Handle) (c : Conf) : Bool := !c.healthy s.retired && (s.placeUnder h []).isNone

/-! ## Heads (R281, R284) -/

/-- What stands at the head of a queue. -/
inductive Head
  | start (i : Instr) (pkt : Nat)          -- a packet that may start
  | launch (pkt : Nat) (h : Handle) (c : Conf) (ctx : Nat) (fresh : Bool) -- a LAUNCH, or a paddock to be admitted again
  | none

/-- Every packet before i has retired. -/
def Queue.doneBefore (x : Queue) (i : Nat) : Bool := (List.range (i - x.rd)).all fun k => (amGet x.pkts (x.rd + k) {}).status.isSome

/-- Unretired packets before i that have started, by their kinds. -/
def Queue.openBefore (x : Queue) (i : Nat) : List Nat := ((List.range (i - x.rd)).map (· + x.rd)).filter fun k => (amGet x.pkts k {}).status.isNone

/-- Whether a packet of a list is a BARRIER. -/
def State.anyBarrier (q : Nat) : List Nat → State → Bool
  | [], _ => false
  | k :: rest, s =>
    match s.readPkt q k with
    | (_, .bytes b) => pktKind b == 2 || State.anyBarrier q rest s
    | _ => State.anyBarrier q rest s

/-- The head of a queue. -/
def State.head (s : State) (q : Nat) : State × Head :=
  let x := s.getQ q
  match x.owner with
  | none => (s, .none)
  | some ctx =>
    if (amGet s.ctxs ctx {}).st != .live then (s, .none)
    else
      match s.pads.find? fun (_, p) => p.queue == q && p.phase == .parked with
      | some (_, p) =>
        match amGet? s.handles (handleSerial p.handle) with
        | some h => (s, if p.waitPage.isSome then .none else .launch p.pkt h p.conf ctx false)
        | none => (s, .none)
      | none =>
        let left := ((List.range (x.wr - x.rd)).map (· + x.rd)).filter fun j => !(amGet x.pkts j {}).started
        match left with
        | [] => (s, .none)
        | i :: _ =>
          if x.st != .armed then (s, .none)
          else
            let (s, r) := s.readPkt q i
            match r with
            | .wait => (s, .none)
            | .bad => (s, .start (.packetComplete q i .faulted) i)
            | .bytes b =>
              if (pktBarrier b && !x.doneBefore i) || s.anyBarrier q (x.openBefore i) then (s, .none)
              else if !pktOk b then (s, .start (.packetComplete q i .faulted) i)
              else
                match pktKind b with
                | 1 =>
                  match s.validHandle (BitVec.ofNat 64 (pktNum b 16 8)) ctx with
                  | some h =>
                    if s.noPlace h h.conf then (s, .start (.launchStart q i) i)
                    else
                      match s.pktRange q i ctx (pktNum b 32 8) (16 * pktNum b 40 2) false with
                      | (s, .wait _ _) => (s, .none)
                      | (s, _) => (s, .launch i h h.conf ctx true)
                  | none => (s, .start (.packetComplete q i .faulted) i)
                | 2 => (s, .start (.barrierPacketStart q i) i)
                | 3 => (s, .start (.signalPacketStart q i) i)
                | 4 => (s, .start (.copyPacketStart q i) i)
                | _ => (s, .start (.fencePacketStart q i) i)

/-! ## Selection (R262, R284, R285) -/

/-- A head that the drover may choose, with its queue, or one that it passes over for folds of paddocks of lower priority. -/
structure QCand where
  q : Nat
  instr : Instr
  pkt : Nat

/-- Paddocks of queues of lower priority that hold folds of a configuration. -/
def State.lowerHolders (s : State) (prio : Nat) (c : Conf) : List Nat :=
  (s.pads.filter fun (_, p) => p.phase != .parked && decide ((s.getQ p.queue).prio < prio) && p.conf.folds.any fun f => c.folds.contains f).map (·.1)

/-- Looks at the head of every queue: the candidates, and the queues that only paddocks of lower priority keep waiting. -/
def State.candidates : List Nat → State → List QCand → List (Nat × List Nat) → State × List QCand × List (Nat × List Nat)
  | [], s, cs, bs => (s, cs, bs)
  | q :: rest, s, cs, bs =>
    let (s, h) := s.head q
    match h with
    | .none => State.candidates rest s cs bs
    | .start i k => State.candidates rest s (cs ++ [⟨q, i, k⟩]) bs
    | .launch k h c ctx fresh =>
      if (s.placeFor ctx h c fresh).isSome || (!fresh && s.noPlace h c) then State.candidates rest s (cs ++ [⟨q, .launchStart q k, k⟩]) bs
      else
        let low := s.lowerHolders (s.getQ q).prio c
        let without := { s with pads := s.pads.filter fun x => !low.contains x.1 }
        State.candidates rest s cs (if !low.isEmpty && without.admissible ctx c then bs ++ [(q, low)] else bs)

/-- The queue that goes first: an aged one, else the highest priority, else the one selected least recently, else the lowest. -/
def State.queueBefore (s : State) (a b : QCand) : Bool :=
  let x := s.getQ a.q
  let y := s.getQ b.q
  if (64 ≤ x.passes) != (64 ≤ y.passes) then 64 ≤ x.passes
  else if 64 ≤ x.passes then a.q ≤ b.q
  else if x.prio != y.prio then y.prio < x.prio
  else
    match x.lastSel, y.lastSel with
    | none, none => a.q ≤ b.q
    | none, some _ => true
    | some _, none => false
    | some m, some n => m < n || (m == n && a.q ≤ b.q)

def State.firstQueue (s : State) : List QCand → Option QCand
  | [] => none
  | c :: cs =>
    match s.firstQueue cs with
    | some d => if s.queueBefore c d then some c else some d
    | none => some c

/-- A LAUNCH that the drover has chosen is about to take its folds. -/
def State.choosing (s : State) : Bool :=
  s.events.any fun x =>
    match x.instr with
    | .launchStart .. => true
    | _ => false

/-- Queues that only paddocks of lower priority keep waiting are passed over; at the 64th such pass the drover pre-empts those (R285). -/
def State.passOver (s : State) (bs : List (Nat × List Nat)) : State :=
  bs.foldl (fun s (q, low) =>
    let s := s.updQ q fun x => { x with blocked := x.blocked + 1 }
    if 64 ≤ (s.getQ q).blocked then (low.foldl (fun s p => s.stopPad p .preempting) s).updQ q fun x => { x with blocked := 0 } else s) s

/-- The drover has chosen a head: it starts, and the other heads are passed over. -/
def State.choose (s : State) (cs : List QCand) (c : QCand) : State :=
  let n := s.selections + 1
  let s := cs.foldl (fun s d => if d.q == c.q then s else s.updQ d.q fun x => { x with passes := x.passes + 1 }) s
  let s := s.updQ c.q fun x => { x with passes := 0, blocked := 0, lastSel := some n }
  let s := s.updPkt c.q c.pkt fun p => { p with started := true }
  let s := { s with selections := n }
  (if s.pktBreak c.q c.pkt then { s with droverStop := true } else s).post c.instr

/-- A selection pass of the drover. While a LAUNCH that it has chosen is about to take its folds it passes over heads, and chooses none. -/
def State.selectPass (s : State) : State :=
  if s.droverStop || s.update.isSome then s
  else
    let (s, cs, bs) := State.candidates (s.queues.map (·.1)) s [] []
    let s := s.passOver bs
    match (if s.choosing then none else s.firstQueue cs) with
    | none => s
    | some c => s.choose cs c

/-- DROVER_SELECTION. -/
def execDroverSelection (s : State) : Out := .next s.selectPass

/-- SELECTION_PASS_TICK: the pass that the drover makes at least once in 4,096 of its clocks. -/
def execSelectionPassTick (s : State) : Out := .next s.selectPass

/-! ## SIGNAL, COPY, FENCE, BARRIER (R280 to R282) -/

/-- Runs the start of a packet: its bytes, where they can be read; then the drover selects again. -/
def State.startPkt (s : State) (q i : Nat) (again : Instr) (body : State → Nat → List Byte → State) : Out :=
  if (s.pkt q i).status.isSome then .next s
  else
    let ctx := (s.getQ q).owner.getD 0
    if s.isKilling ctx then .next (s.post (.packetComplete q i .abortedByPredecessor))
    else
      let (s, r) := s.readPkt q i
      match r with
      | .wait => .next (s.post again)
      | .bad => .next ((s.post (.packetComplete q i .faulted)).postOnce .droverSelection)
      | .bytes b =>
        match pktDone b with
        | some e =>
          -- the fold of a LAUNCH's own completion signal may be one that it is about to hold
          if pktKind b != 1 && !s.pktAddrOk ctx e 8 then .next ((s.post (.packetComplete q i .faulted)).postOnce .droverSelection)
          else .next ((body s ctx b).postOnce .droverSelection)
        | none => .next ((body s ctx b).postOnce .droverSelection)

/-- SIGNAL_PACKET_START. -/
def execSignalPacketStart (q i : Nat) (s : State) : Out :=
  s.startPkt q i (.signalPacketStart q i) fun s ctx b =>
    match signalAddr (pktNum b 16 8) with
    | none => s.post (.packetComplete q i .faulted)
    | some e =>
      let go (s : State) (l : List Part) : State := (s.pktSignal ctx (pktNum b 32 1) (pktNum b 24 8) l (.packet q i)).post (.packetComplete q i .complete)
      if !s.pktAddrOk ctx e 8 then s.post (.packetComplete q i .faulted)
      else if e.space == 1 then go s [{ sp := .f, addr := fAddr e.fold e.addr, len := 8 }]
      else
        match s.pktRange q i ctx e.addr 8 true with
        | (s, .parts l) => go s l
        | (s, .wait _ _) => s.post (.signalPacketStart q i)
        | (s, _) => s.post (.packetComplete q i .faulted)

/-- COPY_PACKET_START: the copy enters the engine queue of its launch queue. -/
def execCopyPacketStart (q i : Nat) (s : State) : Out :=
  s.startPkt q i (.copyPacketStart q i) fun s ctx b =>
    match parsePktAddr (BitVec.ofNat 64 (pktNum b 16 8)), parsePktAddr (BitVec.ofNat 64 (pktNum b 24 8)) with
    | some src, some dst =>
      let n := pktNum b 32 8
      if !s.pktAddrOk ctx src n || !s.pktAddrOk ctx dst n then s.post (.packetComplete q i .faulted)
      else
        let c : EngCmd := { id := s.engNext, op := .cpy src dst n 0 0 false, ctx := ctx, pkt := some (q, i) }
        ({ s with engNext := s.engNext + 1 }.updEng (queueKey 32 q) fun l => l ++ [c]).postOnce (.engineOpStart 32 q)
    | _, _ => s.post (.packetComplete q i .faulted)

/-- FENCE_PACKET_START: complete once every earlier packet of the queue has completed. -/
def execFencePacketStart (q i : Nat) (s : State) : Out :=
  s.startPkt q i (.fencePacketStart q i) fun s _ _ => s.post (if (s.getQ q).doneBefore i then .packetComplete q i .complete else .fencePacketStart q i)

/-- BARRIER_PACKET_START: the first reading follows. -/
def execBarrierPacketStart (q i : Nat) (s : State) : Out :=
  s.startPkt q i (.barrierPacketStart q i) fun s ctx b =>
    if (pktSignals b).all fun e => s.pktAddrOk ctx e 8 then
      (s.updPkt q i fun p => { p with signals := pktSignals b, pending := [none] }).post (.barrierReading q i)
    else s.post (.packetComplete q i .faulted)

/-- A read that has failed is reported. -/
def State.reportRead (s : State) (ctx : Nat) (c : Option Nat) (site : Option Nat) : State :=
  match c with
  | some k => s.reportCtx ctx 0 k site
  | none => s

/-- Reads the signals in list order (R328): their values, or none while a page is missing. F that has passed to another context since is not
read (R339). -/
def State.readSignals (q i ctx : Nat) : List EngAddr → State → List (Option Nat) → State × Option (List (Option Nat)) × Bool
  | [], s, acc => (s, some acc, false)
  | e :: rest, s, acc =>
    if e.space == 1 then
      if !s.fOwned ctx e.fold e.addr 8 then (s, none, true)
      else
      let (s, bs, c) := s.checkedRead .f (fAddr e.fold e.addr) 8
      State.readSignals q i ctx rest (s.reportRead ctx c none) (acc ++ [if c.isSome then none else some (ofBytes bs)])
    else
      match s.pktRange q i ctx e.addr 8 false with
      | (s, .parts l) =>
        let (s, bs, c) := s.readParts l
        State.readSignals q i ctx rest (s.reportRead ctx c (partsSite l)) (acc ++ [if c.isSome then none else some (ofBytes bs)])
      | (s, .wait _ _) => (s, none, false)
      | (s, _) => (s, none, true)

/-- BARRIER_READING: the oldest reading that is to be taken. A negative signal aborts, all zero completes; else the drover reads again after
the next update. A line that fails its check gives no value. While the drover is stopped it takes none (R329). -/
def execBarrierReading (q i : Nat) (s : State) : Out :=
  let p := s.pkt q i
  match p.pending with
  | [] => .next s
  | after :: rest =>
    if p.status.isSome || p.decided || s.droverStop then .next s
    else
      let ctx := (s.getQ q).owner.getD 0
      if s.isKilling ctx then .next (s.post (.packetComplete q i .abortedByPredecessor))
      else
        match State.readSignals q i ctx p.signals s [] with
        | (s, some vs, _) =>
          let s := s.updPkt q i fun p => { p with pending := rest, readings := p.readings ++ [Reading.mk vs after] }
          if vs.any fun v => match v with
              | some n => decide (2 ^ 63 ≤ n)
              | none => false then .next ((s.updPkt q i fun p => { p with decided := true }).post (.packetComplete q i .aborted))
          else if vs.all fun v => v == some 0 then .next ((s.updPkt q i fun p => { p with decided := true }).post (.packetComplete q i .complete))
          else .next s
        | (s, none, true) => .next (s.post (.packetComplete q i .faulted))
        | (s, none, false) => .next (s.post (.barrierReading q i))

/-! ## LAUNCH (R33, R280, R324, R345, R360) -/

/-- The bytes of a fault record (R279). -/
def faultBytes (f : FaultRec) : List Byte :=
  toBytes 1 f.code ++ zeroBytes 1 ++ toBytes 4 (min f.more (2 ^ 32 - 1)) ++ toBytes 2 f.ctx ++ toBytes 2 f.cell ++ toBytes 1 f.slot ++ toBytes 1 f.fld ++
    toBytes 2 (f.tag % 1024) ++ toBytes 3 f.seq ++ toBytes 3 f.seqLast ++ toBytes 4 f.cause ++ toBytes 8 f.aux.toNat

/-- Writes the fault record of a launch where its packet says; answers whether that is done. A page that refuses it is left. -/
def State.writeFault (s : State) (q i ctx addr : Nat) (f : FaultRec) : State × Bool :=
  match s.pktRange q i ctx addr 32 true with
  | (s, .parts l) => (s.putWrites (partWrites l (faultBytes f)), true)
  | (s, .wait _ _) => (s, false)
  | (s, _) => (s, true)

/-- An entry of the endpoint table. -/
def epEntry (b : List Byte) (k : Nat) : Nat × Nat := (pktNum b (16 * k) 8, pktNum b (16 * k + 8) 8)

/-- The record of a paddock at its admission: its endpoint ranges, and the configuration values in force (R29). -/
def newPad (s : State) (q i ctx : Nat) (h : DWord) (c : Conf) (faults : Nat) (eps : List (Nat × Nat)) : Pad :=
  let ep (k : Nat) : Nat × Nat := nthD eps k (0, 0)
  { ctx := ctx, handle := h, conf := c, queue := q, pkt := i, eps := eps, faultAddr := faults
    seeds := c.seeds.zipIdx.map fun (x, k) =>
      let (base, ext) := ep x.endpoint
      (k, if x.loc then {} else { base := base, extent := ext % 2 ^ 48, host := bitOf ext 63 })
    sinks := c.sinks.zipIdx.map fun (x, k) =>
      let (base, ext) := ep x.endpoint
      (k, { base := base, extent := ext % 2 ^ 48, host := bitOf ext 63 })
    timers := (List.range 7).map fun k => (k, s.cfgVal k) }

/-- The first retired cell of a configuration. -/
def Conf.retiredCell (c : Conf) (retired : List Nat) : Nat := ((c.units.filterMap fun x => Loc.cell? x.1).find? fun i => retired.contains i).getD 0

def noPlaceFault (ctx : Nat) (c : Conf) (retired : List Nat) : FaultRec := { code := 0x16, ctx := ctx, cell := cellSite (c.retiredCell retired), fld := 3 }

/-- A fresh LAUNCH: its endpoint table is read, its paddock becomes resident. -/
def State.launchFresh (s : State) (q i ctx : Nat) (b : List Byte) : State :=
  let faulted (s : State) : State := s.post (.packetComplete q i .faulted)
  let hw : DWord := BitVec.ofNat 64 (pktNum b 16 8)
  match s.validHandle hw ctx with
  | none => faulted s
  | some h =>
    let doneOk (c : Conf) : Bool := match pktDone b with
      | some e => s.pktAddrOk ctx e 8 || (e.space == 1 && c.folds.contains e.fold && e.addr + 8 ≤ Config.fUser)
      | none => true
    if s.noPlace h h.conf then
      match s.writeFault q i ctx (pktNum b 24 8) (noPlaceFault ctx h.conf s.retired) with
      | (s, true) => faulted s
      | (s, false) => s.post (.launchStart q i)
    else
      match s.placeFor ctx h h.conf true with
      | none => s.updPkt q i fun p => { p with started := false }
      | some c =>
        if !doneOk c then faulted s
        else
          match s.pktRange q i ctx (pktNum b 32 8) (16 * pktNum b 40 2) false with
          | (s, .wait _ _) => s.post (.launchStart q i)
          | (s, .parts l) =>
            let (s, bs, bad) := s.readParts l
            if bad.isSome then faulted (s.reportRead ctx bad (partsSite l))
            else
              let pad := s.padNext + 1
              let eps := (List.range (pktNum b 40 2)).map (epEntry bs)
              match { (s.cacheFor ctx h h.conf).beginCounts c with padNext := pad }.makeResident pad (newPad s q i ctx hw c (pktNum b 24 8) eps) c with
              | some s => s
              | none => faulted s
          | (s, _) => faulted s

/-- A paddock that was preempted or parked is admitted again, under the same handle, from its last commit (R290, R292, R386). -/
def State.launchAgain (s : State) (pad : Nat) (p : Pad) : State :=
  match amGet? s.handles (handleSerial p.handle) with
  | none => s
  | some h =>
    if s.noPlace h p.conf then s.raise pad (noPlaceFault p.ctx p.conf s.retired)
    else
      match s.placeFor p.ctx h p.conf false with
      | none => s
      | some c =>
        match (s.cacheFor p.ctx h p.conf).makeResident pad p c with
        | none => { s with pads := amDel s.pads pad }.post (.packetComplete p.queue p.pkt .faulted)
        | some s =>
          let m := (p.conf.units.map (·.1)).zip ((s.getPad pad).conf.units.map (·.1))
          let s := s.updPad pad fun x => x.remap m
          let go : BreakPoint → BreakPoint
            | .token u slot f => .token (relocLoc m u) slot f
            | .firing u slot => .firing (relocLoc m u) slot
            | .port u n => .port (relocLoc m u) n
            | b => b
          ({ s with breaks := s.breaks.map go }.updPad pad fun x => { x with inM := false }).restore pad p.commit

/-- LAUNCH_START. -/
def execLaunchStart (q i : Nat) (s : State) : Out :=
  match s.pads.find? fun (_, p) => p.queue == q && p.pkt == i with
  | some (pad, p) => if p.phase == .parked then .next ((s.launchAgain pad p).postOnce .droverSelection) else .next s
  | none => s.startPkt q i (.launchStart q i) fun s ctx b => s.launchFresh q i ctx b

/-! ## ENQ (R320, R346) -/

/-- The append of an ENQ command: while the queue is full it waits. In a full queue whose head is its own paddock's launch it waits for itself. -/
def State.runEnq (s : State) (fold : Nat) (c : EngCmd) (src : EngAddr) (q : Nat) : EngRes :=
  let x := s.getQ q
  if x.owner != some c.ctx then .fault s (c.fault 0x0F (2 ^ 63 + q)) false
  else if x.wr - x.rd == 2 ^ x.lg then .wait s ((s.getPad c.pad).queue == q)
  else
    withRange s s fold c false src 64 fun s' l =>
      withRange s s' fold { c with pkt := none } true { space := 3, addr := s'.pktAddr q x.wr } 64 fun s' d =>
        .done ((s'.engCopy c l d).doorbell q (x.wr + 1))

/-- ENQ_APPEND. -/
def execEnqAppend (fold q : Nat) (s : State) : Out :=
  match firstOpen (amGet s.engines (queueKey fold q) []) with
  | some c =>
    match c.op with
    | .enq src lq =>
      if !c.started then .next s
      else if s.engFull fold c then .next (s.postOnce (.enqAppend fold q))
      else .next (s.cmdEnd fold q c ((s.pageCame c.pad (engWait c.id)).runEnq fold c src lq))
    | _ => .next s
  | none => .next s

end Sys2Proof.Machine
end

