-- ==== Sys2Proof/Machine/Stops.lean ====
section
/-!
DEFINITION. Paddock faults and what follows when a paddock has quiesced (R276 to R279, R290, R292, R322, R347, R386), error reports and commit-scope
replay (R373 to R376), in-field tests and retirement (R383 to R387).
-/

namespace Sys2Proof.Machine

/-! ## Paddock faults (R276, R279) -/

/-- PADDOCK_FAULT: the first fault stops the paddock and is recorded; further ones are counted until every unit has taken its abort mark, which
is when step 1 of R276 has taken effect (`execAbortMark` counts those that are on their way then). A paddock that waits to be admitted again has
nothing to stop. -/
def execPaddockFault (pad : Nat) (f : FaultRec) (s : State) : Out :=
  match amGet? s.pads pad with
  | none => .next s
  | some p =>
    match p.phase with
    | .loading | .running => .next ((s.setPad pad { p with fault := some f }).stopPad pad .faulting)
    | .faulting =>
      if s.events.any fun x => x.instr.marks pad then .next (s.setPad pad { p with fault := p.fault.map fun x => { x with more := x.more + 1 } })
      else .next s
    | .killing => .next s
    | _ => .next ((s.setPad pad { p with fault := some f }).stopFor pad .faulting)

/-! ## Quiesced (R276, R290, R292, R322, R347, R375, R386) -/

/-- The paddock's cells are free, and it waits at the head of its queue, to go on from commit c. -/
def State.parkPad (s : State) (pad c : Nat) : State :=
  ((s.freeUnits pad).updPad pad fun p => { p with phase := .parked, commit := c, waveLeft := [] }).post .droverSelection

/-- The commit that a retirement goes back to (R386): the tested one, or the lowest whose snapshots are still held, since those of a paddock
without an external sink are dropped at each complete commit (R288, R385; notes/assumptions/108.md). -/
def Pad.retireTo (p : Pad) : Nat := max p.tested p.kept

/-- A test of one of these cells is under way or about to start. -/
def State.testsOpen (s : State) (cells : List Nat) : Bool :=
  cells.any fun i => (s.getCell i).testing || s.events.any fun x => x.instr == .testInterval i

/-- PADDOCK_QUIESCED. -/
def execPaddockQuiesced (pad : Nat) (s : State) : Out :=
  match amGet? s.pads pad with
  | none => .next s
  | some p =>
    match p.phase with
    | .faulting =>
      match s.writeFault p.queue p.pkt p.ctx p.faultAddr (p.fault.getD {}) with
      | (s, true) => .next ((s.dropPad pad).post (.packetComplete p.queue p.pkt .faulted))
      | (s, false) => .next (s.post (.paddockQuiesced pad))
    | .preempting => .next (s.parkPad pad p.commit)
    | .parking => .next ((s.parkPad pad p.commit).updPad pad fun p => { p with inM := p.waitPage.isNone })
    | .retiring => .next (s.parkPad pad p.retireTo)
    | .replaying => if s.testsOpen p.suspects then .next (s.post (.paddockQuiesced pad)) else .next (s.rollback pad)
    | .killing => .next (s.dropPad pad)
    | _ => .next s

/-! ## Error reports (R373 to R376, R387, R388) -/

/-- Counts a report at its cell; the fourth transient one within one TEST_T has the cell tested at once (R387). How many of the counted ones lie
further back than TEST_T is a free value: the model holds no shepherd's clock (notes/assumptions/20.md). -/
def State.countReport (s : State) (r : ErrRep) : State :=
  match r.cell with
  | none => s
  | some i =>
    let c := s.getCell i
    if r.injected then s.setCell i { c with injectedCnt := c.injectedCnt + 1 }
    else if persistent r.cause then s
    else
      let (k, s) := s.fresh
      let n := c.transients - (Config.freeWord k).toNat % (c.transients + 1) + 1
      let s := s.setCell i { c with transients := n }
      if 4 ≤ n then s.postOnce (.testInterval i) else s

/-- A commit-scope failure: the paddock replays its commit interval; before the third replay the cells that the interval's reports name are
tested; the fourth failure ends it. -/
def State.commitScope (s : State) (pad : Nat) : State :=
  let p := s.getPad pad
  if 3 ≤ p.replays then s.raise pad { code := 0x13, ctx := p.ctx, fld := 3, aux := BitVec.ofNat 64 p.commit }
  else
    let s := s.setPad pad { p with replays := p.replays + 1 }
    let s := if p.replays == 2 then p.suspects.foldl (fun s i => s.postOnce (.testInterval i)) s else s
    s.stopPad pad .replaying

/-- ERROR_REPORT. -/
def execErrorReport (r : ErrRep) (s : State) : Out :=
  let s := s.countReport r
  match amGet? s.pads r.pad with
  | none => .next s
  | some p =>
    let p := { p with
      reports := p.reports ++ [r], transient := p.transient || !persistent r.cause
      suspects := match r.cell with
        | some i => if p.suspects.contains i then p.suspects else p.suspects ++ [i]
        | none => p.suspects }
    let s := s.setPad r.pad p
    if r.commitScope && p.phase == .running && p.transient then .next (s.commitScope r.pad) else .next s

/-! ## In-field test (R383, R384, R387) -/

/-- TEST_INTERVAL: the shepherd starts a test of a cell whose sequencer is between firings. -/
def execTestInterval (cell : Nat) (s : State) : Out :=
  let c := s.getCell cell
  if 384 ≤ cell then .fault .noSuchUnit
  else if c.testing || s.retired.contains cell then .next s
  else if (s.coreOf cell).running then .next (s.postOnce (.testInterval cell))
  else
    let n := s.tests + 1
    .next { s.setCell cell { c with testing := true, testBegan := n } with tests := n }

/-- The cell's firings go on. -/
def State.cellGoesOn (s : State) (cell : Nat) : State :=
  let s := (s.unitsOn cell).foldl (fun s x => (s.wake x.1).settleUnit x.1) s
  s.post (.handlerSelect cell)

/-- Paddocks on a cell: those that have a unit on it or wait for it, and those that have run on it since their tested commit. -/
def State.padsOn (s : State) (cell : Nat) : List Nat :=
  (((s.unitsOn cell).map fun x => x.2.pad) ++
    (s.pads.filter fun x => x.2.cells.contains cell || x.2.testAt.any fun y => decide (x.2.tested < y.1) && y.2.2.contains cell).map (·.1)).eraseDups

/-- The drover retires a cell (R386). -/
def State.retireCell (s : State) (cell : Nat) : State :=
  let s := { s with retired := s.retired ++ [cell], bmcRetired := s.bmcRetired ++ [cell] }
  (s.padsOn cell).foldl (fun s pad =>
    match (s.getPad pad).phase with
    | .preempting | .parking | .replaying => s.stopFor pad .retiring
    | .parked => s.updPad pad fun p => { p with commit := p.retireTo }
    | _ => s.stopPad pad .retiring) s

/-- TEST_DONE. An armed injection reports a failure that retires nothing (R388). -/
def execTestDone (cell : Nat) (passed : Bool) (s : State) : Out :=
  let c := s.getCell cell
  if !c.testing then .next s
  else
    let k := s.coreOf cell
    let s1 := s.setCell cell { c with testing := false }
    if k.errmask.getLsbD 8 then
      let s := s.setCoreOf cell { k with errmask := k.errmask &&& ~~~ 0x100 }
      .next ((s.setCell cell { c with testing := false, injectedCnt := c.injectedCnt + 1 }).cellGoesOn cell)
    else if passed then
      let s := s.setCell cell { c with testing := false, testedAfter := c.testBegan, transients := 0 }
      let s := (s.padsOn cell).foldl (fun s p => s.post (.externalPublish p)) s
      .next (s.cellGoesOn cell)
    else .next (s1.retireCell cell)

end Sys2Proof.Machine
end

