-- ==== Sys2Proof/Machine/Host.lean ====
section
/-!
DEFINITION. What the host does: BAR2, registers (R398 to R401), the mailbox and its commands (R340, R345, R347, R355, R366 to R368, R377, R402, R403).
-/

namespace Sys2Proof.Machine

/-! ## BAR2 (R372, R398) -/

/-- Reads M at a physical address: a described block that cannot be read is written back with code 0xFE (R372). -/
def State.readPhys (s : State) (a n : Nat) : State × List Byte × Option Nat :=
  let blocks := (linesOf a n).filter fun l => s.markOf .m l == some .uncorrectable && s.isDescribed (64 * l)
  let (s, bs, c) := s.checkedRead .m a n
  (blocks.foldl (fun s l => s.storeMem .m (64 * l) poisonBlock) s, bs, c)

/-- HOST_BAR2_READ: s.arg.len bytes at physical address s.arg.addr. Before STATUS is 1 they are all ones. -/
def execHostBar2Read (s : State) : Out :=
  let a := s.arg
  if Config.mSize < a.addr + a.len then .fault .noSuchUnit
  else if s.status != 1 then .next { s with reads := s.reads ++ [ReadReply.mk a.link (List.replicate a.len 0xFF) false] }
  else
    let (s, bs, c) := s.readPhys a.addr a.len
    let s := match c with
      | some k => s.report { cause := k, pad := 0, site := some (frameSite a.addr) }
      | none => s
    .next { s with reads := s.reads ++ [ReadReply.mk a.link bs c.isSome] }

/-- HOST_BAR2_WRITE: s.arg.bytes at physical address s.arg.addr. -/
def execHostBar2Write (s : State) : Out :=
  let a := s.arg
  if Config.mSize < a.addr + a.bytes.length then .fault .noSuchUnit
  else if s.status != 1 then .next s
  else
    .next ((s.storeMem .m a.addr a.bytes).wroteBy [{ sp := .m, addr := a.addr, len := a.bytes.length }] .host)

/-! ## Mailbox commands (R402) -/

/-- A command starts, or goes on (s.arg.flag). One that is written while another is pending is discarded, and the pending one's status gains
bit 31. Before STATUS is 1 the write is discarded; after a failed bring-up only HEALTH_READ, FW_LOAD and FW_ACTIVATE are answered. -/
def State.mailboxRun (s : State) (code : Nat) (run : State → State) : Out :=
  let m := s.mailbox
  match m.pending with
  | some c =>
    if s.arg.flag && c == code then .next (run s)
    else .next { s with mailbox := m.put 4 (toBytes 4 (mboxBusy + mboxOverrun)) }
  | none =>
    if s.arg.flag || s.status == 0 || (s.status == 2 && !([6, 8, 9].contains code)) then .next s
    else
      let m := (m.put 0 (toBytes 4 code)).put 4 (toBytes 4 mboxBusy)
      .next (run { s with mailbox := { m with pending := some code } })

/-- The command goes on later, with what it has read of its arguments, which the host may write meanwhile. -/
def State.mailboxLater (s : State) (i : Instr) (a : Arg := {}) : State := s.post i { a with flag := true }

/-! ### Contexts (R340, R347) -/

/-- CTX_CREATE. -/
def execCtxCreate (s : State) : Out :=
  s.mailboxRun 1 fun s =>
    let root := s.mailbox.word 8 8
    let pasid := s.mailbox.word 16 4
    let share := s.mailbox.word 20 1
    match (List.range 64).find? fun c => (amGet s.ctxs c {}).st == .free with
    | none => s.mboxFinish 1 []
    | some c =>
      if root % 65536 != 0 || 2 ^ 52 ≤ root || 2 ^ 20 ≤ pasid || 1 < share then s.mboxFinish 2 []
      else
        let gen := (amGet s.ctxs c {}).gen
        let s := { s with ctxs := amPut s.ctxs c { st := .live, gen := gen, root := root, pasid := pasid, share := share == 1 } }
        s.mboxFinish 0 [(8, toBytes 1 c), (9, toBytes 2 gen)]

/-- The context's paddocks end; nothing of them is published or written. -/
def State.killPads (s : State) (ctx : Nat) : State :=
  (s.pads.filter fun x => x.2.ctx == ctx).foldl (fun s (n, p) =>
    match p.phase with
    | .loading | .running => s.stopPad n .killing
    | .parked => s.dropPad n
    | _ => s.stopFor n .killing) s

/-- The launch queue of whose packets a step is. -/
def ofQueue : Instr → Option Nat
  | .packetComplete q _ _ | .launchStart q _ | .barrierPacketStart q _ | .barrierReading q _ | .signalPacketStart q _ | .copyPacketStart q _
  | .fencePacketStart q _ => some q
  | _ => none

/-- The context's queues, handles and commands of its packets are gone, with what is under way of them, and what cores and cells keep of it
(R342, R347); its generation moves on. A context of the last generation never goes FREE again. -/
def State.freeCtx (s : State) (ctx : Nat) : State :=
  let c := amGet s.ctxs ctx {}
  let gen := min (c.gen + 1) 65535
  let own (q : Nat) : Bool := (s.getQ q).owner == some ctx
  { s with
    events := s.events.filter fun x => !(ofQueue x.instr).any own
    cores := s.cores.map fun (i, k) => (i, { k with trapCause := amDel k.trapCause ctx, trapPc := amDel k.trapPc ctx })
    cells := s.cells.map fun (i, c) => (i, { c with fireCnt := amDel c.fireCnt ctx, excRec := amDel c.excRec ctx })
    queues := s.queues.map fun (n, q) => (n, if q.owner == some ctx then { ignored := q.ignored } else q)
    handles := s.handles.filter fun x => x.2.ctx != ctx
    engines := s.engines.map fun (k, l) => (k, l.filter fun e => !(e.pkt.isSome && e.ctx == ctx))
    migrations := s.migrations.filter fun m => m.ctx != ctx
    ats := s.ats.filter fun x => x.1 / 2 != ctx
    ctxs := amPut s.ctxs ctx { st := if gen == 65535 then .killing else .free, gen := gen, stale := c.stale } }

/-- CTX_KILL. -/
def execCtxKill (s : State) : Out :=
  s.mailboxRun 2 fun s =>
    let ctx := if s.arg.flag then s.arg.ctx else s.mailbox.word 8 1
    let c := amGet s.ctxs ctx {}
    if !s.arg.flag then
      if 64 ≤ ctx || c.st != .live then s.mboxFinish 1 []
      else ({ s with ctxs := amPut s.ctxs ctx { c with st := .killing } }.killPads ctx).mailboxLater .ctxKill { ctx := ctx }
    else if s.pads.any fun x => x.2.ctx == ctx then s.mailboxLater .ctxKill { ctx := ctx }
    else (s.freeCtx ctx).mboxFinish 0 [(12, toBytes 4 c.stale)]

/-! ### Queues, translations (R355, R399) -/

/-- QUEUE_BIND. -/
def execQueueBind (s : State) : Out :=
  s.mailboxRun 3 fun s =>
    let n := s.mailbox.word 8 1
    let ctx := s.mailbox.word 9 1
    let lg := s.mailbox.word 10 1
    let prio := s.mailbox.word 11 1
    let ring := s.mailbox.word 16 8
    let q := s.getQ n
    if 64 ≤ n then s.mboxFinish 2 []
    else if ctx == 0xFF then
      if q.rd != q.wr then s.mboxFinish 1 [] else (s.updQ n fun q => { ignored := q.ignored }).mboxFinish 0 []
    else if 64 ≤ ctx || (amGet s.ctxs ctx {}).st != .live || 12 < lg || 7 < prio || ring % 4096 != 0 || 2 ^ 56 ≤ ring then s.mboxFinish 2 []
    else if (q.owner.isSome && q.owner != some ctx) || q.rd != q.wr then s.mboxFinish 1 []
    else (s.updQ n fun q => { owner := some ctx, st := .armed, ring := ring, lg := lg, prio := prio, ignored := q.ignored }).mboxFinish 0 []

/-- INVALIDATE: the status is written once nothing uses an old translation. -/
def execInvalidate (s : State) : Out :=
  s.mailboxRun 4 fun s =>
    let ctx := if s.arg.flag then s.arg.ctx else s.mailbox.word 8 1
    let base := if s.arg.flag then s.arg.va else s.mailbox.word 16 8
    let len := if s.arg.flag then s.arg.len else s.mailbox.word 24 8
    if !s.arg.flag && (64 ≤ ctx || base % 65536 != 0 || len % 65536 != 0 || 2 ^ 56 < base + len) then s.mboxFinish 2 []
    else if s.xlateQuiet ctx base (base + len) then s.mboxFinish 0 []
    else s.mailboxLater .invalidate { ctx := ctx, va := base, len := len }

/-! ### Graph objects (R345) -/

/-- The entry of the handle table for the next handle: the next one that has not been used, then the lowest that a kill has freed; 2^26 where every
entry is taken. -/
def State.freeSerial (s : State) : Nat :=
  if s.handleNext < 2 ^ 26 then s.handleNext
  else ((List.range (s.handles.length + 1)).find? fun n => !(s.handles.any fun x => x.1 == n)).getD (2 ^ 26)

/-- The handle table takes a placement. -/
def State.mintHandle (s : State) (ctx : Nat) (img : List Byte) (p : Placement) : State :=
  let n := s.freeSerial
  if 2 ^ 26 ≤ n then s.mboxFinish 3 []
  else
    let gen := (amGet s.ctxs ctx {}).gen
    let h : Handle := { ctx := ctx, gen := gen, live := true, conf := buildConf img (graphOf img) p s.retired, image := img, place := p }
    let s := s.cachePlace img p
    { s with handles := amPut s.handles n h, handleNext := max s.handleNext (n + 1) }.mboxFinish 0 [(8, toBytes 8 (handleWord ctx gen n).toNat)]

/-- MINT. -/
def execMint (s : State) : Out :=
  s.mailboxRun 5 fun s =>
    let ctx := s.mailbox.word 8 1
    if 64 ≤ ctx || (amGet s.ctxs ctx {}).st != .live then s.mboxFinish 4 []
    else
      let at' := s.mailbox.word 16 8
      let (s, img, c) := s.readPhys at' (s.mailbox.word 24 8)
      let s := s.reportRead ctx c (some (frameSite at'))
      let reject := if c.isSome then some (1, none) else mintReject img
      match reject with
      | some (reason, word) =>
        let (u, slot) := word.getD (0xFFFF, 0xFF)
        s.mboxFinish 1 [(16, toBytes 1 reason), (17, toBytes 2 u), (19, toBytes 1 slot)]
      | none =>
        match s.mapped img [] none with
        | some p => if Placement.ok p (graphOf img) s.retired [] (amGet s.ctxs ctx {}).share then s.mintHandle ctx img p else s.mboxFinish 2 []
        | none => s.mboxFinish 2 []

/-! ### Firmware images (R366 to R368) -/

/-- FW_LOAD. -/
def execFwLoad (s : State) : Out :=
  s.mailboxRun 6 fun s =>
    let at' := s.mailbox.word 16 8
    let (s, img, c) := s.readPhys at' (s.mailbox.word 24 8)
    let s := match c with
      | some k => s.report { cause := k, pad := 0, site := some (frameSite at') }
      | none => s
    match (if c.isSome then none else Config.imageFields img) with
    | none => s.mboxFinish 3 []
    | some (version, svn, writes, accepts) =>
      if !Config.signatureOk img then s.mboxFinish 1 []
      else if svn < s.fuseMinSvn then s.mboxFinish 2 []
      else
        let slot : FwSlot := { verified := true, version := version, svn := svn, image := img, writes := writes, accepts := accepts }
        { s with fw := amPut s.fw (1 - s.fwSlot) slot }.mboxFinish 0 []

/-- The cores of firmware: the shepherds and the drover. -/
def firmwareCores : List Nat := (List.range 33).map (· + 384)

/-- No paddock is resident, and no packet but a LAUNCH has started and not retired. -/
def State.updateReady (s : State) : Bool :=
  (s.pads.all fun x => x.2.phase == .parked) && s.queues.all fun (n, q) => q.pkts.all fun (i, p) =>
    !p.started || p.status.isSome || s.pads.any fun x => x.2.queue == n && x.2.pkt == i

/-- Steps 3 and 4 of R367: the new image starts if it supports the format of the handover structure; else the old image runs again, and the
failed slot is unverified. -/
def State.startImage (s : State) : State :=
  let new := 1 - s.fwSlot
  let old := amGet s.fw s.fwSlot {}
  let img := amGet s.fw new {}
  if img.accepts.contains old.writes then
    { s with fwSlot := new, update := some ⟨true, firmwareCores, s.fwSlot⟩ }
  else { s with fw := amPut s.fw new { img with verified := false } }.updateDone 2

/-- How a bring-up that is started again ends: whether every step completes, and which cells fail their tests. Free values
(notes/assumptions/110.md). -/
def State.bringupOutcome (s : State) : State × Bool × List Nat :=
  let (k, s) := s.fresh
  let (s, words) := (List.range 6).foldl (fun (s, l) _ =>
    let (j, s) := s.fresh
    (s, l ++ [Config.freeWord j])) (s, [])
  (s, (Config.freeWord k).getLsbD 0, (List.range 384).filter fun i => (nthD words (i / 64) 0).getLsbD (i % 64))

/-- FW_ACTIVATE. After a failed bring-up it restarts bring-up from the slot that FW_LOAD filled. -/
def execFwActivate (s : State) : Out :=
  s.mailboxRun 9 fun s =>
    let new := 1 - s.fwSlot
    if s.arg.flag then
      match s.update with
      | some u => if u.started then s else if s.updateReady then s.startImage else s.mailboxLater .fwActivate
      | none => s
    else if !(amGet s.fw new {}).verified then s.mboxFinish 1 []
    else if s.status == 2 then
      let (s, ok, failed) := s.bringupOutcome
      { s with status := 0, fwSlot := new, bmcSlot := new }.post .powerGood { flag := ok, failed := failed }
    else
      { s with update := some ⟨false, [], s.fwSlot⟩ }.mailboxLater .fwActivate

/-- HEARTBEAT_TIMEOUT (R368): T_HB has passed since the new image started, and some core has not written HBEAT. -/
def execHeartbeatTimeout (s : State) : Out :=
  match s.update with
  | some u =>
    if u.started && !u.waiting.isEmpty then
      .next ({ s with
        fw := amPut s.fw s.fwSlot { (amGet s.fw s.fwSlot {} : FwSlot) with verified := false }, fwSlot := u.oldSlot, bmcSlot := u.oldSlot }.updateDone 2)
    else .next s
  | none => .next s

/-! ### Reports and values (R29, R377) -/

/-- The 32 bytes of a log-ring entry. -/
def logBytes (e : LogEntry) : List Byte :=
  toBytes 1 e.kind ++ toBytes 8 e.data.toNat ++ zeroBytes 4 ++ toBytes 1 e.cause ++ toBytes 2 e.site ++ toBytes 1 e.endpoint ++ toBytes 2 (e.tag % 1024) ++
    toBytes 3 e.seq ++ toBytes 5 e.lo ++ toBytes 5 e.hi

/-- LOG_READ. -/
def execLogRead (s : State) : Out :=
  s.mailboxRun 7 fun s =>
    let ctx := s.mailbox.word 8 1
    let dest := s.mailbox.word 16 8
    let c := amGet s.ctxs ctx {}
    let l := c.log.take (s.mailbox.word 24 4)
    if 64 ≤ ctx || dest % 32 != 0 || 2 ^ 52 < dest + 32 * l.length then s.mboxFinish 2 []
    else
      let s := s.storeMem .m dest (l.flatMap logBytes)
      { s with ctxs := amPut s.ctxs ctx { c with log := c.log.drop l.length, logDropped := 0 } }.mboxFinish 0
        [(32, toBytes 4 l.length), (36, toBytes 4 c.logDropped)]

/-- The grid-health map: bit pasture × 96 + ((x − 1)/2) × 12 + y is the cell's number. -/
def healthMap (retired : List Nat) : List Byte :=
  (List.range 48).map fun i => BitVec.ofNat 8 (((List.range 8).map fun b => if retired.contains (8 * i + b) then 2 ^ b else 0).sum)

/-- HEALTH_READ. -/
def execHealthRead (s : State) : Out :=
  s.mailboxRun 8 fun s =>
    let dest := s.mailbox.word 16 8
    if dest % 64 != 0 || 2 ^ 52 < dest + 48 then s.mboxFinish 2 []
    else (s.storeMem .m dest (healthMap s.retired)).mboxFinish 0 [(8, toBytes 2 s.retiredCount)]

/-- CONFIG_SET. -/
def execConfigSet (s : State) : Out :=
  s.mailboxRun 10 fun s =>
    let i := s.mailbox.word 8 1
    let op := s.mailbox.word 9 1
    let v := s.mailbox.word 16 8
    if 7 ≤ i || 2 ≤ op || (op == 1 && (v < (Config.range i).1 || (Config.range i).2 < v)) then s.mboxFinish 2 []
    else
      let s := if op == 1 then { s with config := amPut s.config i v } else s
      s.mboxFinish 0 [(24, toBytes 8 (s.cfgVal i))]

/-- COUNTERS_READ. -/
def execCountersRead (s : State) : Out :=
  s.mailboxRun 11 fun s =>
    let n := s.mailbox.word 8 1
    let ctx := s.mailbox.word 9 1
    if 64 ≤ n || 64 ≤ ctx then s.mboxFinish 2 []
    else
      s.mboxFinish 0
        [(16, toBytes 8 (s.getQ n).ignored), (24, toBytes 8 (amGet s.ctxs ctx {}).logDroppedAll), (32, toBytes 8 ((s.links.map fun x => x.2.late).sum))]

/-- MAILBOX_BAD_CODE: s.arg.code is no command. -/
def execMailboxBadCode (s : State) : Out := s.mailboxRun (if 1 ≤ s.arg.code && s.arg.code ≤ 11 then 12 else s.arg.code) fun s => s.mboxFinish 0xFF []

/-! ## Registers of BAR0 (R3, R398 to R400, R402) -/

/-- The command that a command word starts. -/
def mailboxCommand (code : Nat) : Instr :=
  match code with
  | 1 => .ctxCreate
  | 2 => .ctxKill
  | 3 => .queueBind
  | 4 => .invalidate
  | 5 => .mint
  | 6 => .fwLoad
  | 7 => .logRead
  | 8 => .healthRead
  | 9 => .fwActivate
  | 10 => .configSet
  | 11 => .countersRead
  | _ => .mailboxBadCode

def queueStateCode : QueueState → Nat
  | .disabled => 0
  | .armed => 1
  | .aborted => 2

/-- A queue's block as the host reads it (R399). -/
def Queue.block (q : Queue) : List Byte :=
  toBytes 8 q.ring ++ toBytes 1 q.lg ++ zeroBytes 7 ++ toBytes 8 q.wr ++ toBytes 8 q.rd ++ toBytes 1 (queueStateCode q.st) ++ toBytes 1 q.prio ++ zeroBytes 30

/-- BAR0 as the host reads it (R398): STATUS, the mailbox, the queue blocks; every other byte is reserved. -/
def State.bar0Byte (s : State) (o : Nat) : Byte :=
  if o < 4 then nthD (toBytes 4 s.status) o 0
  else if 0x1000 ≤ o && o < 0x1100 then ((s.mailbox.bytes.read (o - 0x1000) 1).headD 0)
  else if 0x10000 ≤ o && o < 0x11000 then nthD (s.getQ ((o - 0x10000) / 64)).block (o % 64) 0
  else 0

/-- REGISTER_WRITE: s.arg.bytes at offset s.arg.addr of BAR0. Argument bytes of the mailbox take the write; the command word, a doorbell, prio and
rearm start their own steps; every other byte is read-only or reserved. Prio keeps the low three bits of what is written
(notes/assumptions/96.md). A write that is wider or narrower than one of these registers does nothing: the spec gives no access widths
(notes/assumptions/109.md). -/
def execRegisterWrite (s : State) : Out :=
  let a := s.arg.addr
  let bs := s.arg.bytes
  if 2 ^ 20 < a + bs.length then .fault .noSuchUnit
  else if s.status == 0 then .next s
  else if 0x1008 ≤ a && a + bs.length ≤ 0x1100 then .next { s with mailbox := s.mailbox.put (a - 0x1000) bs }
  else if a == 0x1000 && bs.length == 4 then .next (s.postFront (mailboxCommand (ofBytes bs)) { code := ofBytes bs, link := s.arg.link })
  else if 0x10000 ≤ a && a < 0x11000 && s.status == 1 then
    let q := (a - 0x10000) / 64
    match a % 64, bs.length with
    | 16, 8 => .next (s.postFront (.queueDoorbell q (ofBytes bs)) { link := s.arg.link })
    | 33, 1 => .next (s.postFront (.queuePrioWrite q (ofBytes bs % 8)) { link := s.arg.link })
    | 40, 1 => .next (if ofBytes bs == 1 then s.postFront (.queueRearm q) { link := s.arg.link } else s)
    | _, _ => .next s
  else .next s

end Sys2Proof.Machine
end

