-- ==== Sys2Proof/Machine/MulDiv.lean ====
section
/-!
DEFINITION. Multiply and divide (R125, R126).
-/

namespace Sys2Proof.Machine

/-- Bits [127:64] of the signed product. -/
def mulhValue (a b : DWord) : DWord := BitVec.ofInt 64 (a.toInt * b.toInt / 2 ^ 64)
/-- Bits [127:64] of the unsigned product. -/
def mulhnValue (a b : DWord) : DWord := BitVec.ofNat 64 (a.toNat * b.toNat / 2 ^ 64)
/-- The 32-bit product, sign-extended. -/
def mulwValue (a b : DWord) : DWord := (a.setWidth 32 * b.setWidth 32).signExtend 64

/-- Checks of the products (R133): the unsigned product, and against it the high half and the 32-bit form. -/
def mulhCheck (a b : DWord) : Bool := productCheck a b && mulhValue a b == highOf a b
def mulwCheck (a b : DWord) : Bool := productCheck a b && mulwValue a b == ((BitVec.ofNat 32 (a.toNat * b.toNat)).signExtend 64)

/-- −2⁶³ / −1 (R126). -/
def divOverflow (a b : DWord) : Bool := a == BitVec.ofNat 64 (2 ^ 63) && b == BitVec.allOnes 64

def divValue (a b : DWord) : DWord :=
  if b = 0 then BitVec.allOnes 64
  else if divOverflow a b then a
  else BitVec.ofInt 64 (a.toInt.tdiv b.toInt)

def remValue (a b : DWord) : DWord :=
  if b = 0 then a
  else if divOverflow a b then 0
  else BitVec.ofInt 64 (a.toInt - a.toInt.tdiv b.toInt * b.toInt)

def divnValue (a b : DWord) : DWord := if b = 0 then BitVec.allOnes 64 else BitVec.ofNat 64 (a.toNat / b.toNat)
def remnValue (a b : DWord) : DWord := if b = 0 then a else BitVec.ofNat 64 (a.toNat % b.toNat)

/-- The fixed results of R126 come without a division; every other one is checked (R133). -/
def divCheck (a b : DWord) : Bool :=
  b == 0 || divOverflow a b || divisionCheck a.toInt b.toInt (a.toInt.tdiv b.toInt) (a.toInt - a.toInt.tdiv b.toInt * b.toInt)
def divnCheck (a b : DWord) : Bool := b == 0 || divisionCheck a.toNat b.toNat (a.toNat / b.toNat : Nat) (a.toNat % b.toNat : Nat)

def execMul (d a b : RegNum) (g : Guard) (s : State) : Out := aluBin s g d a b (· * ·) productCheck
def execMulh (d a b : RegNum) (g : Guard) (s : State) : Out := aluBin s g d a b mulhValue mulhCheck
def execMulhn (d a b : RegNum) (g : Guard) (s : State) : Out := aluBin s g d a b mulhnValue productCheck
def execDiv (d a b : RegNum) (g : Guard) (s : State) : Out := aluBin s g d a b divValue divCheck
def execDivn (d a b : RegNum) (g : Guard) (s : State) : Out := aluBin s g d a b divnValue divnCheck
def execRem (d a b : RegNum) (g : Guard) (s : State) : Out := aluBin s g d a b remValue divCheck
def execRemn (d a b : RegNum) (g : Guard) (s : State) : Out := aluBin s g d a b remnValue divnCheck
def execMulw (d a b : RegNum) (g : Guard) (s : State) : Out := aluBin s g d a b mulwValue mulwCheck

end Sys2Proof.Machine
end

