-- ==== Sys2Proof/Machine/Imm.lean ====
section
/-!
DEFINITION. Immediate forms and constants (R127, R128).
-/

namespace Sys2Proof.Machine

/-- d := f a (sext imm12). -/
def aluSe (s : State) (g : Guard) (d a : RegNum) (imm : BitVec 12) (f : DWord → DWord → DWord) (ok : DWord → DWord → Bool := twice f) : Out :=
  runChecked s g [a] d (fun k => f (k.reg a) (imm.signExtend 64)) fun k => ok (k.reg a) (imm.signExtend 64)

/-- d := f a (zext imm12). -/
def aluZe (s : State) (g : Guard) (d a : RegNum) (imm : BitVec 12) (f : DWord → DWord → DWord) : Out :=
  runChecked s g [a] d (fun k => f (k.reg a) (imm.setWidth 64)) fun k => twice f (k.reg a) (imm.setWidth 64)

def execAddi (d a : RegNum) (imm : BitVec 12) (g : Guard) (s : State) : Out := aluSe s g d a imm (· + ·) addCheck
def execAndi (d a : RegNum) (imm : BitVec 12) (g : Guard) (s : State) : Out := aluZe s g d a imm (· &&& ·)
def execOri (d a : RegNum) (imm : BitVec 12) (g : Guard) (s : State) : Out := aluZe s g d a imm (· ||| ·)
def execXori (d a : RegNum) (imm : BitVec 12) (g : Guard) (s : State) : Out := aluZe s g d a imm (· ^^^ ·)
def execShli (d a : RegNum) (imm : BitVec 12) (g : Guard) (s : State) : Out := aluSe s g d a imm shlValue
def execShri (d a : RegNum) (imm : BitVec 12) (g : Guard) (s : State) : Out := aluSe s g d a imm shrValue
def execSrai (d a : RegNum) (imm : BitVec 12) (g : Guard) (s : State) : Out := aluSe s g d a imm sraValue
def execMuli (d a : RegNum) (imm : BitVec 12) (g : Guard) (s : State) : Out := aluSe s g d a imm (· * ·) productCheck

/-- LUI replaces bits [41:21] (R128). -/
def luiValue (x : DWord) (imm : BitVec 21) : DWord := x.extractLsb' 42 22 ++ imm ++ x.extractLsb' 0 21
/-- LUIH replaces bits [62:42] and copies bit 20 of the immediate into bit 63 (R128). -/
def luihValue (x : DWord) (imm : BitVec 21) : DWord := imm.signExtend 22 ++ x.extractLsb' 0 42

/-- LI, LUI and LUIH have no guard. What they build of their destination and the immediate is computed twice and compared (R133). -/
def buildConst (s : State) (rs : List RegNum) (d : RegNum) (f : DWord → DWord) : Out :=
  runChecked s Guard.always rs d (fun k => f (k.reg d)) fun k => twice (fun x _ => f x) (k.reg d) 0

def execLi (d : RegNum) (imm : BitVec 21) (s : State) : Out := buildConst s [] d fun _ => imm.signExtend 64
def execLui (d : RegNum) (imm : BitVec 21) (s : State) : Out := buildConst s [d] d fun x => luiValue x imm
def execLuih (d : RegNum) (imm : BitVec 21) (s : State) : Out := buildConst s [d] d fun x => luihValue x imm

end Sys2Proof.Machine
end

