-- ==== Sys2Proof/Machine/Service.lean ====
section
/-!
DEFINITION. The board's management controller and the service processor: bring-up, heat, scrubbing (R27, R372, R404, R407); attestation (R365, R397);
injections and the debugger (R201, R304, R329, R336, R388, R389).
-/

namespace Sys2Proof.Machine

/-! ## Bring-up (R27, R404) -/

/-- What the host, the board and the debugger will still do: it is not under way in the package. -/
def Instr.fromOutside : Instr → Bool
  | .powerGood | .hostBar2Read | .hostBar2Write | .registerWrite | .queueDoorbell .. | .queueRearm _ | .queuePrioWrite .. | .ctxCreate | .ctxKill
  | .queueBind | .invalidate | .mint | .fwLoad | .logRead | .healthRead | .fwActivate | .configSet | .countersRead | .mailboxBadCode
  | .getVersion | .getCapabilities | .negotiateAlgorithms | .getDigests | .getCertificate | .challenge | .getMeasurements | .keyExchange
  | .finish | .keyUpdate | .heartbeat | .endSession | .ideKm | .errmaskTest | .errmaskHop | .errmaskRoute | .errmaskStore | .errmaskMatrix
  | .errmaskVector | .errmaskPred | .errmaskScalar | .brkPoint | .stepFiring | .resume | .injectSwap | .injectPreempt | .injectDrop
  | .moduleReplace | .atsInvalidation .. => true
  | _ => false

/-- What survives power-off (R27): the firmware slots, the grid-health map and the slot selection of the board's management controller, the fused
minimum; host memory and what the host has read; and what is the model's own. -/
def State.powerCycled (s : State) : State :=
  { State.reset with
    events := s.events.filter fun x => Instr.fromOutside x.instr && !x.arg.flag, arg := s.arg, schedule := s.schedule, fw := s.fw
    bmcRetired := s.bmcRetired, bmcSlot := s.bmcSlot, fuseMinSvn := s.fuseMinSvn, memH := s.memH, freeCtr := s.freeCtr, reads := s.reads }

/-- Bring-up starts again from the boot ROM (R404): FW_ACTIVATE asks for it while the power is on, and its answer and the mailbox stand. -/
def State.rebooted (s : State) : State :=
  if s.mailbox.pending == some 9 then { s.powerCycled with events := s.events, mailbox := s.mailbox, breaks := s.breaks } else s.powerCycled

/-- POWER_GOOD: bring-up runs. s.arg.failed lists the cells that fail its tests; s.arg.flag says that every step completes in time. -/
def execPowerGood (s : State) : Out :=
  let ok := s.arg.flag && (amGet s.fw s.bmcSlot {}).verified
  let s := s.rebooted
  let bad := (s.arg.failed.filter fun i => i < 384 && !s.bmcRetired.contains i).eraseDups
  let map := if ok then s.bmcRetired ++ bad else s.bmcRetired
  let s := { s with status := if ok then 1 else 2, fwSlot := s.bmcSlot, retired := map, bmcRetired := map }
  .next (if s.mailbox.pending == some 9 then s.mboxFinish 0 [(8, [BitVec.ofNat 8 s.fwSlotWord])] else s)

/-- BRINGUP_TIMEOUT: a step of bring-up has failed or has overrun; this bring-up does not end otherwise any more. -/
def execBringupTimeout (s : State) : Out :=
  if s.status != 0 then .next s
  else
    let s := { s with status := 2, events := s.events.filter fun x => x.instr != .powerGood }
    .next (if s.mailbox.pending == some 9 then s.mboxFinish 0 [(8, [BitVec.ofNat 8 s.fwSlotWord])] else s)

/-! ## Heat (R407) -/

/-- A die's arithmetic clock in tenths of a gigahertz. -/
def State.clock (s : State) (die : Nat) : Nat := amGet s.clocks die 20

/-- THERMAL_THROTTLE: die s.arg.cell is above 105 °C. -/
def execThermalThrottle (s : State) : Out := .next { s with clocks := amPut s.clocks s.arg.cell (max 10 (s.clock s.arg.cell - 1)) }

/-- THERMAL_RESTORE: die s.arg.cell is below 95 °C. -/
def execThermalRestore (s : State) : Out := .next { s with clocks := amPut s.clocks s.arg.cell 20 }

/-! ## Scrubbing (R372) -/

/-- MEMORY_SCRUB: a memory link reads the line at s.arg.addr; s.arg.finding is what its modules show. What it finds it reports to the drover (R373);
no paddock is touched by it. -/
def execMemoryScrub (s : State) : Out :=
  let line := s.arg.addr / 64
  let s := match s.arg.finding, s.markOf .m line with
    | .clean, _ => s
    | _, some .poison => s
    | .single, some .uncorrectable => s
    | .single, _ => s.setMark .m line .single
    | .uncorrectable, _ => s.setMark .m line .uncorrectable
  let block := s.markOf .m line == some .uncorrectable && s.isDescribed (64 * line)
  let (s, c) := s.checkLine .m line
  let s := if block then s.storeMem .m (64 * line) poisonBlock else s
  .next (match c with
    | some k => s.report { cause := k, pad := 0, site := some (frameSite (64 * line)) }
    | none => s)

/-! ## Attestation (R365, R397) -/

def State.spdmOf (s : State) (link : Nat) : SpdmSt := amGet s.spdm link {}

/-- Answers the SPDM request on link s.arg.link: accepted with a new state, or an error. -/
def State.spdmAnswer (s : State) (r : SpdmReq) (digests : List (BitVec 256)) (st : Option SpdmSt) (bytes : List Byte := []) : Out :=
  if 2 ≤ s.arg.link then .fault .noSuchUnit
  else
    match st with
    | some x => .next { s with spdm := amPut s.spdm s.arg.link { x with last := some (.ok r digests bytes) } }
    | none => .next { s with spdm := amPut s.spdm s.arg.link { s.spdmOf s.arg.link with last := some (.error r) } }

/-- The state of the link, once its version, capabilities and algorithms are agreed. -/
def State.agreed (s : State) : Option SpdmSt := if (s.spdmOf s.arg.link).negotiated == 3 then some (s.spdmOf s.arg.link) else none

/-- The state of the link inside a session. -/
def State.inSession (s : State) : Option SpdmSt :=
  if (s.spdmOf s.arg.link).session.isSome && (s.spdmOf s.arg.link).finished then some (s.spdmOf s.arg.link) else none

/-- What a measurement covers, and its digest. The slot that the board's management controller names is the running one, from the new image's
first heartbeat on (R367). -/
def State.measure (s : State) (i : Nat) : BitVec 256 :=
  let img := (amGet s.fw s.bmcSlot {})
  Config.digest (match i with
    | 2 | 3 => i :: img.image.map (·.toNat)
    | 5 => [5, img.svn, s.fuseMinSvn]
    | 6 => 6 :: (healthMap s.retired).map (·.toNat)
    | _ => [i])

/-- GET_VERSION: negotiation starts. -/
def execGetVersion (s : State) : Out := s.spdmAnswer .version [] (some { s.spdmOf s.arg.link with negotiated := 1 })

/-- GET_CAPABILITIES. -/
def execGetCapabilities (s : State) : Out :=
  let x := s.spdmOf s.arg.link
  s.spdmAnswer .capabilities [] (if 1 ≤ x.negotiated then some { x with negotiated := max 2 x.negotiated } else none)

/-- NEGOTIATE_ALGORITHMS. -/
def execNegotiateAlgorithms (s : State) : Out :=
  let x := s.spdmOf s.arg.link
  s.spdmAnswer .algorithms [] (if 2 ≤ x.negotiated then some { x with negotiated := 3 } else none)

/-- The digest of the certificate chain. -/
def certDigest : BitVec 256 := Config.digest (Config.certificate.map fun (b : Byte) => b.toNat)

/-- GET_DIGESTS: the digest of the certificate chain. -/
def execGetDigests (s : State) : Out := s.spdmAnswer .digests [certDigest] s.agreed

/-- GET_CERTIFICATE: the certificate chain. -/
def execGetCertificate (s : State) : Out := s.spdmAnswer .certificate [] s.agreed Config.certificate

/-- CHALLENGE: the digest of the certificate chain, and a signature over it and the challenge, s.arg.bytes. -/
def execChallenge (s : State) : Out :=
  let signed := Config.digest (certDigest.toNat :: s.arg.bytes.map fun (b : Byte) => b.toNat)
  s.spdmAnswer .challenge [certDigest] s.agreed (toBytes 64 (Config.signature signed).toNat)

/-- GET_MEASUREMENTS: index s.arg.code, or every one at 0xFF. -/
def execGetMeasurements (s : State) : Out :=
  let i := s.arg.code
  if i == 0xFF then s.spdmAnswer (.measurements i) ((List.range 6).map fun k => s.measure (k + 1)) s.agreed
  else if 1 ≤ i && i ≤ 6 then s.spdmAnswer (.measurements i) [s.measure i] s.agreed
  else s.spdmAnswer (.measurements i) [] none

/-- KEY_EXCHANGE: an error while a session is open on the link. -/
def execKeyExchange (s : State) : Out :=
  s.spdmAnswer .keyExchange [] (s.agreed.bind fun x => if x.session.isSome then none else some { x with session := some 0, finished := false })

/-- FINISH: the session is set up. -/
def execFinish (s : State) : Out :=
  s.spdmAnswer .finish [] (s.agreed.bind fun x => if x.session.isSome && !x.finished then some { x with finished := true } else none)

/-- KEY_UPDATE: the session's keys move to their next generation. -/
def execKeyUpdate (s : State) : Out := s.spdmAnswer .keyUpdate [] (s.inSession.map fun x => { x with session := x.session.map (· + 1) })

/-- HEARTBEAT. -/
def execHeartbeat (s : State) : Out := s.spdmAnswer .heartbeat [] s.inSession

/-- END_SESSION. -/
def execEndSession (s : State) : Out := s.spdmAnswer .endSession [] (s.inSession.map fun x => { x with session := none, finished := false })

/-- IDE_KM: only inside a session. -/
def execIdeKm (s : State) : Out := s.spdmAnswer .ideKm [] (s.inSession.map fun x => { x with ideKeyed := true })

/-! ## Injection of errors (R388, R389) -/

/-- The mask that s.arg names: s.arg.code is 1 for slice s.arg.cell, 2 for memory link s.arg.link, 3 for a bridge's direction or a tether by its
link key s.arg.link. -/
def State.maskUnit (s : State) : Option Nat :=
  match s.arg.code with
  | 1 => if s.arg.cell < 384 then some s.arg.cell else none
  | 2 => if s.arg.link < Config.memLinks then some (1000 + s.arg.link) else none
  | 3 => if linkExists s.arg.link then some (2000 + s.arg.link) else none
  | _ => none

/-- Arms a detector: of cell s.arg.cell where s.arg.code is 0, else of the unit that s.arg names, whose mask firmware holds (R388). -/
def State.arm (s : State) (bit : Nat) : Out :=
  if s.arg.code != 0 then
    match s.maskUnit with
    | some u => .next { s with masks := amPut s.masks u (amGet s.masks u 0 ||| BitVec.ofNat 64 (2 ^ bit)) }
    | none => .fault .noSuchUnit
  else if 384 ≤ s.arg.cell then .fault .noSuchUnit
  else
    let k := s.coreOf s.arg.cell
    .next (s.setCoreOf s.arg.cell { k with errmask := k.errmask ||| BitVec.ofNat 64 (2 ^ bit) })

def execErrmaskTest (s : State) : Out := s.arm 8
def execErrmaskHop (s : State) : Out := s.arm 7
def execErrmaskRoute (s : State) : Out := s.arm 6
def execErrmaskStore (s : State) : Out := s.arm 5
def execErrmaskMatrix (s : State) : Out := s.arm 4
def execErrmaskVector (s : State) : Out := s.arm 3
def execErrmaskPred (s : State) : Out := s.arm 2
def execErrmaskScalar (s : State) : Out := s.arm 1

/-! ## The debugger (R201, R304, R329, R336) -/

/-- BRK_POINT: gweuf sets the breakpoint s.arg.brk. -/
def execBrkPoint (s : State) : Out := .next (if s.breaks.contains s.arg.brk then s else { s with breaks := s.breaks ++ [s.arg.brk] })

/-- A stopped paddock goes on: what has waited comes first, in its order. -/
def State.goOn (s : State) (pad : Nat) : State :=
  let p := s.getPad pad
  let s := { s.updPad pad fun p => { p with stop := false, deferred := [] } with events := p.deferred ++ s.events }
  let keys := (s.units.filter fun (x : Nat × UnitSt) => x.2.live && x.2.pad == pad).map (·.1)
  let s := keys.foldl (fun s k => (s.wake k).settleUnit k) s
  let cells := (keys.filter isCellKey).map idxOf
  let s := (cells.filter fun c => !(s.missed c).isEmpty).foldl (fun s c => s.postOnce (.configFetchDone c)) s
  s.postAll (cells.map fun c => Event.mk (.handlerSelect c) {})

/-- A stopped paddock continues. A pre-emption that was injected comes before any token moves or any firing starts (R336). -/
def State.contPad (s : State) (pad : Nat) : Out :=
  let p := s.getPad pad
  if !p.stop then .next s
  else if p.preemptNext then
    .next (((s.updPad pad fun p => { p with stop := false, deferred := [], preemptNext := false }).haltUnits pad).stopPad pad .preempting)
  else .next (s.goOn pad)

/-- STEP_FIRING: paddock s.arg.pad runs until slot s.arg.slot of s.arg.loc has fired. -/
def execStepFiring (s : State) : Out :=
  match s.arg.pad with
  | none => .next s
  | some pad =>
    if (s.getPad pad).preemptNext then s.contPad pad
    else if (s.getPad pad).stop then .next ((s.updPad pad fun p => { p with stepTo := some (s.arg.loc, s.arg.slot) }).goOn pad) else .next s

/-- One reading of each BARRIER that has an update pending (R329). -/
def State.takeReadings (s : State) : State :=
  let due := s.queues.flatMap fun (q, x) => (x.pkts.filter fun y => y.2.status.isNone && !y.2.pending.isEmpty).map fun y => (q, y.1)
  due.foldl (fun s (q, i) =>
    (s.updPkt q i fun p => { p with pending := p.pending.getLast?.toList }).postOnce (.barrierReading q i)) s

/-- RESUME: `continue` for paddock s.arg.pad, or for the drover. -/
def execResume (s : State) : Out :=
  match s.arg.pad with
  | none => .next (({ s with droverStop := false }.takeReadings).postOnce .droverSelection)
  | some pad => s.contPad pad

/-- INJECT_SWAP: a carried tile of s.arg.loc, number s.arg.slot, is swapped out at once. -/
def execInjectSwap (s : State) : Out :=
  let key := s.arg.loc.key
  let n := s.arg.slot
  let t := s.tile key n
  if isCellKey key && (s.getU key).live && (s.getU key).conf.carriedTiles.contains n && t.role == .state && t.st == .ready then
    .next (({ s.updU key fun u => { u with tiles := amPut u.tiles n { t with st := .draining } } with arg := s.arg }).post (.tileSwapDone s.arg.loc n))
  else .next s

/-- INJECT_PREEMPT: the drover preempts paddock s.arg.pad, when it is stopped as it next goes on. -/
def execInjectPreempt (s : State) : Out :=
  match s.arg.pad with
  | none => .next s
  | some pad =>
    if (s.getPad pad).stop then .next (s.updPad pad fun p => { p with preemptNext := true }) else .next (s.stopPad pad .preempting)

/-- CORE_RESTART: a core of firmware that HALT has stopped issues from the start of its code again. -/
def execCoreRestart (s : State) : Out :=
  let c := s.arg.cell
  if !(firmwareCores.contains c) then .fault .noSuchUnit
  else
    let k := s.coreOf c
    if k.halted then .next (s.setCoreOf c { k.endFiring with running := true, halted := false, pc := 0 }) else .next s

end Sys2Proof.Machine
end

