-- ==== Sys2Proof/Machine/Steer.lean ====
section
/-!
DEFINITION. Compare and steer operations (R157 to R163), lane operations (R164), control-network operations (R170).
-/

namespace Sys2Proof.Machine

/-! ## VCMP, VSEL -/

/-- A floating comparison: its truth, and whether it is invalid (an ordered compare with a NaN). -/
def floatCmp (c : Nat) (x y : FV) : Bool × Bool :=
  match x.cmp y with
  | none => (c == 1 || c == 6, 2 ≤ c && c ≤ 5)
  | some o =>
    (match c with
     | 0 => o == .eq
     | 1 => o != .eq
     | 2 => o == .lt
     | 3 => o != .gt
     | 4 => o == .gt
     | 5 => o != .lt
     | 6 => false
     | _ => true, false)

/-- An integer comparison: conditions 0 to 5 signed, 8 to 11 unsigned. -/
def intCmp (c w a b : Nat) : Bool :=
  let (x, y) : Int × Int := if c < 8 then (asInt w a, asInt w b) else ((a : Int), (b : Int))
  match c with
  | 0 => a == b
  | 1 => a != b
  | 2 | 8 => x < y
  | 3 | 9 => x ≤ y
  | 4 | 10 => y < x
  | _ => y ≤ x

def execVcmp (e : EW) (s : State) : Out :=
  runLanes s fun _ fi =>
    let w := elWidth e.ty false
    lanewise w (fi.l.valid &&& fi.r.valid) fi.l.reset fun i =>
      let a := elAt w fi.l.payload i
      let b := elAt w fi.r.payload i
      let (t, inv) := if isFloatTy e.ty then floatCmp e.md.toNat ((fmtOf e.ty).decode a) ((fmtOf e.ty).decode b)
        else (intCmp e.md.toNat w a b, false)
      { bits := if t then 2 ^ w - 1 else 0, exc := inv }

/-- A lane of a token: bits, valid bit, reset bit. -/
structure Lane where
  bits : Nat := 0
  valid : Bool := false
  reset : Bool := false
  deriving DecidableEq, Repr, Inhabited

def laneOf (t : Token) (i : Nat) : Lane := ⟨laneAt t.payload i, t.valid.getLsbD i, t.reset.getLsbD i⟩

/-- A payload from its lanes. -/
def ofLanes (l : List Lane) : LaneRes :=
  { payload := packEls 32 (l.map (·.bits)), valid := maskOf fun i => (nthD l i {}).valid
    reset := maskOf fun i => (nthD l i {}).reset }

/-- VSEL's element width: types with an alternate one have its elements. -/
def selWidth (e : EW) : Nat := elWidth e.ty (mdAlt e.md)

/-- VSEL (R158). -/
def execVsel (e : EW) (s : State) : Out :=
  runLanes s fun _ fi =>
    let w := selWidth e
    let use (j : Nat) : Bool := elAt w fi.p.payload j != 0
    let es := (List.range (elCount w)).map fun j => if use j then elAt w fi.l.payload j else elAt w fi.r.payload j
    { payload := packEls w es
      valid := maskOf fun i =>
        let js := elsOfLane w i
        -- both lanes of an f64 pair follow their element
        let lanes := if w == 64 then [i / 2 * 2, i / 2 * 2 + 1] else [i]
        lanes.all fun k =>
          fi.p.valid.getLsbD k && (!js.any use || fi.l.valid.getLsbD k) && (js.all use || fi.r.valid.getLsbD k)
      reset := maskOf fun i => if use ((elsOfLane w i).headD 0) then fi.l.reset.getLsbD i else fi.r.reset.getLsbD i }

/-! ## Two-output operations (R145): a token without a valid lane is not emitted -/

def Fire.two (fi : Fire) (h : Hdr) (a b : LaneRes) : List (Nat × HeldOut) :=
  let one (k : Nat) (x : LaneRes) : List (Nat × HeldOut) :=
    if x.valid = 0 then [] else [(k, { tok := fi.result h x, basis := fi.hi })]
  one 0 a ++ one 1 b

def runTwo (s : State) (f : Fire → LaneRes × LaneRes) : Out :=
  runSlot s fun e fi s =>
    let (a, b) := f fi
    .done s (fi.two e.hdr a b)

/-- STEER (R159). -/
def execSteer (_e : EW) (s : State) : Out :=
  runTwo s fun fi =>
    let m := fi.l.valid &&& fi.r.valid
    let on := maskOf fun i => laneAt fi.r.payload i != 0
    let part (v : BitVec 16) : LaneRes := { payload := fi.l.payload, valid := v, reset := fi.l.reset }
    (part (m &&& on), part (m &&& ~~~on))

/-- MERGE (R160). The bits of a lane that is valid in neither field are zero (R144's rule for computed lanes; notes/assumptions/87.md). -/
def execMerge (_e : EW) (s : State) : Out :=
  runLanes s fun _ fi =>
    ofLanes ((List.range 16).map fun i =>
      if fi.l.valid.getLsbD i then laneOf fi.l i else if fi.r.valid.getLsbD i then laneOf fi.r i else {})

/-- COMPACT moves lanes, or lane pairs for f64: a pair moves when both of its lanes are valid. -/
def unitLanes (e : EW) (t : Token) : List (List Lane) :=
  if e.ty == .f64 then (List.range 8).map fun i => [laneOf t (2 * i), laneOf t (2 * i + 1)]
  else (List.range 16).map fun i => [laneOf t i]

def allValid (l : List Lane) : Bool := l.all (·.valid)

/-- COMPACT (R161). -/
def execCompact (e : EW) (s : State) : Out :=
  runTwo s fun fi =>
    let lanes := ((unitLanes e fi.l ++ unitLanes e fi.r).filter allValid).flatten
    (ofLanes (lanes.take 16), ofLanes (lanes.drop 16))

/-- EXPAND's walk over the mask lanes: the valid lanes of l are dealt to the set ones in order. -/
def expandFrom : List Bool → List Lane → List Lane × List Lane
  | [], rest => ([], rest)
  | false :: ms, rest => let (o, r) := expandFrom ms rest; ({} :: o, r)
  | true :: ms, [] => let (o, r) := expandFrom ms []; ({} :: o, r)
  | true :: ms, x :: rest => let (o, r) := expandFrom ms rest; (x :: o, r)

/-- EXPAND (R162). -/
def execExpand (_e : EW) (s : State) : Out :=
  runTwo s fun fi =>
    let mask := (List.range 16).map fun i => fi.r.valid.getLsbD i && laneAt fi.r.payload i != 0
    let (o, rest) := expandFrom mask (((List.range 16).map (laneOf fi.l)).filter (·.valid))
    (ofLanes o, ofLanes rest)

/-- VMASK (R163). -/
def execVmask (_e : EW) (s : State) : Out :=
  runLanes s fun _ fi =>
    { payload := fi.l.payload, reset := fi.l.reset
      valid := maskOf fun i => fi.l.valid.getLsbD i && fi.r.valid.getLsbD i && laneAt fi.r.payload i != 0 }

/-- A predicate result of the firing. -/
def Fire.pred (fi : Fire) (v : Bool) : Token :=
  { fi.out with net := .control, payload := if v then 1 else 0, exc := false, sat := false }

/-- VANY (R163). -/
def execVany (_e : EW) (s : State) : Out :=
  runSlot s fun _ fi s =>
    .done s (fi.one (fi.pred ((List.range 16).any fun i => fi.l.valid.getLsbD i && laneAt fi.l.payload i != 0)))

/-! ## Lane operations (R164) -/

/-- Lane n that md names. -/
def mdN (e : EW) : Nat := e.md.toNat

/-- A result whose lane i is given. -/
def runMove (s : State) (f : Fire → Nat → Lane) : Out := runLanes s fun _ fi => ofLanes ((List.range 16).map (f fi))

def execVperm (_e : EW) (s : State) : Out :=
  runMove s fun fi i =>
    let x := laneOf fi.l (laneAt fi.r.payload i % 16)
    { x with valid := x.valid && fi.r.valid.getLsbD i }
def execVbcast (e : EW) (s : State) : Out := runMove s fun fi _ => laneOf fi.l (mdN e)
def execVrev (_e : EW) (s : State) : Out := runMove s fun fi i => laneOf fi.l (15 - i)
def execVlshift (e : EW) (s : State) : Out :=
  runMove s fun fi i => if i + mdN e ≤ 15 then laneOf fi.l (i + mdN e) else laneOf fi.r (i + mdN e - 16)

/-- VINS: lane n from the scalar token on r. -/
def execVins (e : EW) (s : State) : Out :=
  runMove s fun fi i => if i = mdN e then ⟨laneAt fi.r.payload 0, fi.r.valid.getLsbD 0, fi.r.reset.getLsbD 0⟩ else laneOf fi.l i

/-- VEXTR: a scalar of lane n, or of the pair at n for f64. -/
def execVextr (e : EW) (s : State) : Out :=
  runLanes s fun _ fi =>
    let n := mdN e
    let x := laneOf fi.l n
    { payload := BitVec.ofNat 512 (if e.ty == .f64 then x.bits + laneAt fi.l.payload (n + 1) * 2 ^ 32 else x.bits)
      valid := if x.valid then 1 else 0
      reset := if x.reset then 1 else 0 }

def execZip (_e : EW) (s : State) : Out :=
  runTwo s fun fi =>
    let half (k : Nat) : LaneRes :=
      ofLanes ((List.range 16).map fun i => laneOf (if i % 2 = 0 then fi.l else fi.r) (8 * k + i / 2))
    (half 0, half 1)

def execUnzip (_e : EW) (s : State) : Out :=
  runTwo s fun fi =>
    let part (k : Nat) : LaneRes :=
      ofLanes ((List.range 16).map fun i => laneOf (if i < 8 then fi.l else fi.r) (2 * (i % 8) + k))
    (part 0, part 1)

/-! ## Control-network operations (R170) -/

/-- GATE: l as it stands, restamped; a control token keeps its value and its kind. -/
def execGate (_e : EW) (s : State) : Out :=
  runSlot s fun e fi s =>
    let t :=
      if fi.l.net == .control then { fi.out with net := .control, kind := fi.l.kind, payload := fi.l.payload, exc := false, sat := false }
      else
        { fi.result e.hdr { payload := fi.l.payload, valid := fi.l.valid, reset := fi.l.reset } with
          net := fi.l.net, residue := fi.l.residue }
    .done s (fi.one t)

/-- The value of a predicate operand: a control token's value, or whether lane 0 of a constant is valid and non-zero (R142). -/
def Token.truth (t : Token) : Bool :=
  if t.net == .control then bitOf t.payload.toNat 0 else t.valid.getLsbD 0 && laneAt t.payload 0 != 0

def execCand (_e : EW) (s : State) : Out :=
  runSlot s fun _ fi s => .done s (fi.one (fi.pred (Token.truth fi.l && Token.truth fi.r)))
def execCor (_e : EW) (s : State) : Out :=
  runSlot s fun _ fi s => .done s (fi.one (fi.pred (Token.truth fi.l || Token.truth fi.r)))

end Sys2Proof.Machine
end

