-- ==== Sys2Proof/Machine/Dispatch.lean ====
section
/-!
DEFINITION. Dispatch: one arm for each instruction, each a direct call of its meaning.
-/

namespace Sys2Proof.Machine

def exec (i : Instr) (s : State) : Host.Outcome State Fault Refusal :=
  match i with
  | .add d a b g => Sys2Proof.Machine.execAdd d a b g s
  | .sub d a b g => Sys2Proof.Machine.execSub d a b g s
  | .and d a b g => Sys2Proof.Machine.execAnd d a b g s
  | .or d a b g => Sys2Proof.Machine.execOr d a b g s
  | .xor d a b g => Sys2Proof.Machine.execXor d a b g s
  | .andn d a b g => Sys2Proof.Machine.execAndn d a b g s
  | .shl d a b g => Sys2Proof.Machine.execShl d a b g s
  | .shr d a b g => Sys2Proof.Machine.execShr d a b g s
  | .sra d a b g => Sys2Proof.Machine.execSra d a b g s
  | .rol d a b g => Sys2Proof.Machine.execRol d a b g s
  | .ror d a b g => Sys2Proof.Machine.execRor d a b g s
  | .min d a b g => Sys2Proof.Machine.execMin d a b g s
  | .max d a b g => Sys2Proof.Machine.execMax d a b g s
  | .minn d a b g => Sys2Proof.Machine.execMinn d a b g s
  | .maxn d a b g => Sys2Proof.Machine.execMaxn d a b g s
  | .sel d a b g => Sys2Proof.Machine.execSel d a b g s
  | .clz d a g => Sys2Proof.Machine.execClz d a g s
  | .ctz d a g => Sys2Proof.Machine.execCtz d a g s
  | .popc d a g => Sys2Proof.Machine.execPopc d a g s
  | .sext8 d a g => Sys2Proof.Machine.execSext8 d a g s
  | .sext16 d a g => Sys2Proof.Machine.execSext16 d a g s
  | .sext32 d a g => Sys2Proof.Machine.execSext32 d a g s
  | .zext8 d a g => Sys2Proof.Machine.execZext8 d a g s
  | .zext16 d a g => Sys2Proof.Machine.execZext16 d a g s
  | .zext32 d a g => Sys2Proof.Machine.execZext32 d a g s
  | .mov d a g => Sys2Proof.Machine.execMov d a g s
  | .abs d a g => Sys2Proof.Machine.execAbs d a g s
  | .neg d a g => Sys2Proof.Machine.execNeg d a g s
  | .addw d a b g => Sys2Proof.Machine.execAddw d a b g s
  | .subw d a b g => Sys2Proof.Machine.execSubw d a b g s
  | .mul d a b g => Sys2Proof.Machine.execMul d a b g s
  | .mulh d a b g => Sys2Proof.Machine.execMulh d a b g s
  | .mulhn d a b g => Sys2Proof.Machine.execMulhn d a b g s
  | .div d a b g => Sys2Proof.Machine.execDiv d a b g s
  | .divn d a b g => Sys2Proof.Machine.execDivn d a b g s
  | .rem d a b g => Sys2Proof.Machine.execRem d a b g s
  | .remn d a b g => Sys2Proof.Machine.execRemn d a b g s
  | .mulw d a b g => Sys2Proof.Machine.execMulw d a b g s
  | .cmp c pd a b g => Sys2Proof.Machine.execCmp c pd a b g s
  | .cmpi c pd a imm g => Sys2Proof.Machine.execCmpi c pd a imm g s
  | .pand pd pa pb g => Sys2Proof.Machine.execPand pd pa pb g s
  | .por pd pa pb g => Sys2Proof.Machine.execPor pd pa pb g s
  | .pxor pd pa pb g => Sys2Proof.Machine.execPxor pd pa pb g s
  | .pandn pd pa pb g => Sys2Proof.Machine.execPandn pd pa pb g s
  | .pnot pd pa g => Sys2Proof.Machine.execPnot pd pa g s
  | .pmov pd pa g => Sys2Proof.Machine.execPmov pd pa g s
  | .pset pd g => Sys2Proof.Machine.execPset pd g s
  | .pclr pd g => Sys2Proof.Machine.execPclr pd g s
  | .addi d a imm g => Sys2Proof.Machine.execAddi d a imm g s
  | .andi d a imm g => Sys2Proof.Machine.execAndi d a imm g s
  | .ori d a imm g => Sys2Proof.Machine.execOri d a imm g s
  | .xori d a imm g => Sys2Proof.Machine.execXori d a imm g s
  | .shli d a imm g => Sys2Proof.Machine.execShli d a imm g s
  | .shri d a imm g => Sys2Proof.Machine.execShri d a imm g s
  | .srai d a imm g => Sys2Proof.Machine.execSrai d a imm g s
  | .muli d a imm g => Sys2Proof.Machine.execMuli d a imm g s
  | .li d imm => Sys2Proof.Machine.execLi d imm s
  | .lui d imm => Sys2Proof.Machine.execLui d imm s
  | .luih d imm => Sys2Proof.Machine.execLuih d imm s
  | .ldl d a sz off g => Sys2Proof.Machine.execLdl d a sz off g s
  | .stl d a sz off g => Sys2Proof.Machine.execStl d a sz off g s
  | .ldf d a sz off g => Sys2Proof.Machine.execLdf d a sz off g s
  | .stf d a sz off g => Sys2Proof.Machine.execStf d a sz off g s
  | .lds d a sz off g => Sys2Proof.Machine.execLds d a sz off g s
  | .sts d a sz off g => Sys2Proof.Machine.execSts d a sz off g s
  | .amof op d a dbl off g => Sys2Proof.Machine.execAmof op d a dbl off g s
  | .amos op d a dbl off g => Sys2Proof.Machine.execAmos op d a dbl off g s
  | .fence k spaces sc g => Sys2Proof.Machine.execFence k spaces sc g s
  | .br off g => Sys2Proof.Machine.execBr off g s
  | .jal d off => Sys2Proof.Machine.execJal d off s
  | .jr d a g => Sys2Proof.Machine.execJr d a g s
  | .loopn a len g => Sys2Proof.Machine.execLoopn a len g s
  | .advp b count g => Sys2Proof.Machine.execAdvp b count g s
  | .advc b count g => Sys2Proof.Machine.execAdvc b count g s
  | .cbrd d a sz b slot g => Sys2Proof.Machine.execCbrd d a sz b slot g s
  | .cbwr d a sz b slot g => Sys2Proof.Machine.execCbwr d a sz b slot g s
  | .send cls a b g => Sys2Proof.Machine.execSend cls a b g s
  | .bind cls h g => Sys2Proof.Machine.execBind cls h g s
  | .hmask m g => Sys2Proof.Machine.execHmask m g s
  | .hunmask m g => Sys2Proof.Machine.execHunmask m g s
  | .taga d space g => Sys2Proof.Machine.execTaga d space g s
  | .tagf d space g => Sys2Proof.Machine.execTagf d space g s
  | .cpy q a b clr g => Sys2Proof.Machine.execCpy q a b clr g s
  | .gath q a b g => Sys2Proof.Machine.execGath q a b g s
  | .scat q a b g => Sys2Proof.Machine.execScat q a b g s
  | .coll q a b op g => Sys2Proof.Machine.execColl q a b op g s
  | .qfence q m g => Sys2Proof.Machine.execQfence q m g s
  | .siginc q a b g => Sys2Proof.Machine.execSiginc q a b g s
  | .sigdec q a b g => Sys2Proof.Machine.execSigdec q a b g s
  | .sigset q a b g => Sys2Proof.Machine.execSigset q a b g s
  | .tset a b g => Sys2Proof.Machine.execTset a b g s
  | .tqry a b g => Sys2Proof.Machine.execTqry a b g s
  | .cfgld entry a b row g => Sys2Proof.Machine.execCfgld entry a b row g s
  | .seed k a g => Sys2Proof.Machine.execSeed k a g s
  | .enq q a b g => Sys2Proof.Machine.execEnq q a b g s
  | .commit a g => Sys2Proof.Machine.execCommit a g s
  | .mfs d idx g => Sys2Proof.Machine.execMfs d idx g s
  | .mts idx a g => Sys2Proof.Machine.execMts idx a g s
  | .sysc d svc g => Sys2Proof.Machine.execSysc d svc g s
  | .trap d code g => Sys2Proof.Machine.execTrap d code g s
  | .brk code g => Sys2Proof.Machine.execBrk code g s
  | .fin g => Sys2Proof.Machine.execFin g s
  | .ckpt g => Sys2Proof.Machine.execCkpt g s
  | .halt g => Sys2Proof.Machine.execHalt g s
  | .vadd e => Sys2Proof.Machine.execVadd e s
  | .vsub e => Sys2Proof.Machine.execVsub e s
  | .vmul e => Sys2Proof.Machine.execVmul e s
  | .vmac e => Sys2Proof.Machine.execVmac e s
  | .vfmak e => Sys2Proof.Machine.execVfmak e s
  | .vmin e => Sys2Proof.Machine.execVmin e s
  | .vmax e => Sys2Proof.Machine.execVmax e s
  | .vabs e => Sys2Proof.Machine.execVabs e s
  | .vneg e => Sys2Proof.Machine.execVneg e s
  | .vrcp e => Sys2Proof.Machine.execVrcp e s
  | .vrsq e => Sys2Proof.Machine.execVrsq e s
  | .vsqrt e => Sys2Proof.Machine.execVsqrt e s
  | .vdiv e => Sys2Proof.Machine.execVdiv e s
  | .vexp2 e => Sys2Proof.Machine.execVexp2 e s
  | .vlog2 e => Sys2Proof.Machine.execVlog2 e s
  | .vtanh e => Sys2Proof.Machine.execVtanh e s
  | .vsig e => Sys2Proof.Machine.execVsig e s
  | .vcvt e => Sys2Proof.Machine.execVcvt e s
  | .vround e => Sys2Proof.Machine.execVround e s
  | .vclass e => Sys2Proof.Machine.execVclass e s
  | .viadd e => Sys2Proof.Machine.execViadd e s
  | .visub e => Sys2Proof.Machine.execVisub e s
  | .vimul e => Sys2Proof.Machine.execVimul e s
  | .vimac e => Sys2Proof.Machine.execVimac e s
  | .vshl e => Sys2Proof.Machine.execVshl e s
  | .vshr e => Sys2Proof.Machine.execVshr e s
  | .vsra e => Sys2Proof.Machine.execVsra e s
  | .vand e => Sys2Proof.Machine.execVand e s
  | .vor e => Sys2Proof.Machine.execVor e s
  | .vxor e => Sys2Proof.Machine.execVxor e s
  | .vimin e => Sys2Proof.Machine.execVimin e s
  | .vimax e => Sys2Proof.Machine.execVimax e s
  | .vclz e => Sys2Proof.Machine.execVclz e s
  | .vpopc e => Sys2Proof.Machine.execVpopc e s
  | .viabs e => Sys2Proof.Machine.execViabs e s
  | .vmulh e => Sys2Proof.Machine.execVmulh e s
  | .vcmp e => Sys2Proof.Machine.execVcmp e s
  | .vsel e => Sys2Proof.Machine.execVsel e s
  | .steer e => Sys2Proof.Machine.execSteer e s
  | .merge e => Sys2Proof.Machine.execMerge e s
  | .compact e => Sys2Proof.Machine.execCompact e s
  | .expand e => Sys2Proof.Machine.execExpand e s
  | .vmask e => Sys2Proof.Machine.execVmask e s
  | .vany e => Sys2Proof.Machine.execVany e s
  | .vperm e => Sys2Proof.Machine.execVperm e s
  | .vbcast e => Sys2Proof.Machine.execVbcast e s
  | .vrev e => Sys2Proof.Machine.execVrev e s
  | .vextr e => Sys2Proof.Machine.execVextr e s
  | .vins e => Sys2Proof.Machine.execVins e s
  | .zip e => Sys2Proof.Machine.execZip e s
  | .unzip e => Sys2Proof.Machine.execUnzip e s
  | .vlshift e => Sys2Proof.Machine.execVlshift e s
  | .vred e => Sys2Proof.Machine.execVred e s
  | .rsend e => Sys2Proof.Machine.execRsend e s
  | .scan e => Sys2Proof.Machine.execScan e s
  | .lrec e => Sys2Proof.Machine.execLrec e s
  | .ema e => Sys2Proof.Machine.execEma e s
  | .fir e => Sys2Proof.Machine.execFir e s
  | .segset e => Sys2Proof.Machine.execSegset e s
  | .carry e => Sys2Proof.Machine.execCarry e s
  | .span e => Sys2Proof.Machine.execSpan e s
  | .split e => Sys2Proof.Machine.execSplit e s
  | .delay e => Sys2Proof.Machine.execDelay e s
  | .window e => Sys2Proof.Machine.execWindow e s
  | .close e => Sys2Proof.Machine.execClose e s
  | .spanq e => Sys2Proof.Machine.execSpanq e s
  | .coalesce e => Sys2Proof.Machine.execCoalesce e s
  | .mma m => Sys2Proof.Machine.execMma m s
  | .mmab m => Sys2Proof.Machine.execMmab m s
  | .mmaw m => Sys2Proof.Machine.execMmaw m s
  | .bmm4 e => Sys2Proof.Machine.execBmm4 e s
  | .tclr t => Sys2Proof.Machine.execTclr t s
  | .tcvt t => Sys2Proof.Machine.execTcvt t s
  | .ttrn t => Sys2Proof.Machine.execTtrn t s
  | .trow e => Sys2Proof.Machine.execTrow e s
  | .tfill t => Sys2Proof.Machine.execTfill t s
  | .tear e => Sys2Proof.Machine.execTear e s
  | .muster e => Sys2Proof.Machine.execMuster e s
  | .astr e => Sys2Proof.Machine.execAstr e s
  | .ldn e => Sys2Proof.Machine.execLdn e s
  | .stn e => Sys2Proof.Machine.execStn e s
  | .updn e => Sys2Proof.Machine.execUpdn e s
  | .ldsc e => Sys2Proof.Machine.execLdsc e s
  | .stsc e => Sys2Proof.Machine.execStsc e s
  | .sbar e => Sys2Proof.Machine.execSbar e s
  | .xlate e => Sys2Proof.Machine.execXlate e s
  | .gate e => Sys2Proof.Machine.execGate e s
  | .cand e => Sys2Proof.Machine.execCand e s
  | .cor e => Sys2Proof.Machine.execCor e s
  | .tokenArrival u slot f t => Sys2Proof.Machine.execTokenArrival u slot f t s
  | .overflowReinject pad u slot => Sys2Proof.Machine.execOverflowReinject pad u slot s
  | .commitTokenArrival u slot f t => Sys2Proof.Machine.execCommitTokenArrival u slot f t s
  | .seedTokenInject pad seed => Sys2Proof.Machine.execSeedTokenInject pad seed s
  | .sinkRecord pad sink t => Sys2Proof.Machine.execSinkRecord pad sink t s
  | .commitComplete pad => Sys2Proof.Machine.execCommitComplete pad s
  | .externalPublish pad => Sys2Proof.Machine.execExternalPublish pad s
  | .configCompleteWave pad u => Sys2Proof.Machine.execConfigCompleteWave pad u s
  | .triggerArrival u cls t => Sys2Proof.Machine.execTriggerArrival u cls t s
  | .handlerSelect cell => Sys2Proof.Machine.execHandlerSelect cell s
  | .finPortRelease cell => Sys2Proof.Machine.execFinPortRelease cell s
  | .firingRerun cell => Sys2Proof.Machine.execFiringRerun cell s
  | .streamBarrierArrival pad barrier member gen => Sys2Proof.Machine.execStreamBarrierArrival pad barrier member gen s
  | .reductionJoin pad join side t => Sys2Proof.Machine.execReductionJoin pad join side t s
  | .switchTokenCheck h => Sys2Proof.Machine.execSwitchTokenCheck h s
  | .abortMark pad u => Sys2Proof.Machine.execAbortMark pad u s
  | .configFetchDone cell => Sys2Proof.Machine.execConfigFetchDone cell s
  | .tileSwapDone u tile => Sys2Proof.Machine.execTileSwapDone u tile s
  | .cfgMiss cell => Sys2Proof.Machine.execCfgMiss cell s
  | .tagsExhausted u h => Sys2Proof.Machine.execTagsExhausted u h s
  | .musterTimeout u slot => Sys2Proof.Machine.execMusterTimeout u slot s
  | .pageResponseSuccess prg => Sys2Proof.Machine.execPageResponseSuccess prg s
  | .pageResponseFailure prg => Sys2Proof.Machine.execPageResponseFailure prg s
  | .pageFaultTimeout node => Sys2Proof.Machine.execPageFaultTimeout node s
  | .atsInvalidation ctx base len => Sys2Proof.Machine.execAtsInvalidation ctx base len s
  | .scRingToken pad node => Sys2Proof.Machine.execScRingToken pad node s
  | .nodeStoreVisible node slot => Sys2Proof.Machine.execNodeStoreVisible node slot s
  | .sliceReply cell slice => Sys2Proof.Machine.execSliceReply cell slice s
  | .engineOpStart fold q => Sys2Proof.Machine.execEngineOpStart fold q s
  | .engineOpComplete fold q => Sys2Proof.Machine.execEngineOpComplete fold q s
  | .enqAppend fold q => Sys2Proof.Machine.execEnqAppend fold q s
  | .queueDoorbell q wr => Sys2Proof.Machine.execQueueDoorbell q wr s
  | .queueRearm q => Sys2Proof.Machine.execQueueRearm q s
  | .queuePrioWrite q prio => Sys2Proof.Machine.execQueuePrioWrite q prio s
  | .paddockQuiesced pad => Sys2Proof.Machine.execPaddockQuiesced pad s
  | .launchStart q k => Sys2Proof.Machine.execLaunchStart q k s
  | .barrierPacketStart q k => Sys2Proof.Machine.execBarrierPacketStart q k s
  | .barrierReading q k => Sys2Proof.Machine.execBarrierReading q k s
  | .signalPacketStart q k => Sys2Proof.Machine.execSignalPacketStart q k s
  | .copyPacketStart q k => Sys2Proof.Machine.execCopyPacketStart q k s
  | .fencePacketStart q k => Sys2Proof.Machine.execFencePacketStart q k s
  | .packetComplete q k st => Sys2Proof.Machine.execPacketComplete q k st s
  | .paddockFault pad f => Sys2Proof.Machine.execPaddockFault pad f s
  | .errorReport r => Sys2Proof.Machine.execErrorReport r s
  | .testInterval cell => Sys2Proof.Machine.execTestInterval cell s
  | .testDone cell passed => Sys2Proof.Machine.execTestDone cell passed s
  | .fragmentReceive src dst path f => Sys2Proof.Machine.execFragmentReceive src dst path f s
  | .decodeAck src dst id => Sys2Proof.Machine.execDecodeAck src dst id s
  | .spoolTimeout src dst id => Sys2Proof.Machine.execSpoolTimeout src dst id s
  | .replayRequest src dst id attempt => Sys2Proof.Machine.execReplayRequest src dst id attempt s
  | .pathRecalibrated link path => Sys2Proof.Machine.execPathRecalibrated link path s
  | .droverSelection => Sys2Proof.Machine.execDroverSelection s
  | .selectionPassTick => Sys2Proof.Machine.execSelectionPassTick s
  | .memoryScrub => Sys2Proof.Machine.execMemoryScrub s
  | .migrationStart => Sys2Proof.Machine.execMigrationStart s
  | .migrationCopyDone => Sys2Proof.Machine.execMigrationCopyDone s
  | .evict => Sys2Proof.Machine.execEvict s
  | .heartbeatTimeout => Sys2Proof.Machine.execHeartbeatTimeout s
  | .powerGood => Sys2Proof.Machine.execPowerGood s
  | .bringupTimeout => Sys2Proof.Machine.execBringupTimeout s
  | .thermalThrottle => Sys2Proof.Machine.execThermalThrottle s
  | .thermalRestore => Sys2Proof.Machine.execThermalRestore s
  | .hostBar2Read => Sys2Proof.Machine.execHostBar2Read s
  | .hostBar2Write => Sys2Proof.Machine.execHostBar2Write s
  | .registerWrite => Sys2Proof.Machine.execRegisterWrite s
  | .ctxCreate => Sys2Proof.Machine.execCtxCreate s
  | .ctxKill => Sys2Proof.Machine.execCtxKill s
  | .queueBind => Sys2Proof.Machine.execQueueBind s
  | .invalidate => Sys2Proof.Machine.execInvalidate s
  | .mint => Sys2Proof.Machine.execMint s
  | .fwLoad => Sys2Proof.Machine.execFwLoad s
  | .logRead => Sys2Proof.Machine.execLogRead s
  | .healthRead => Sys2Proof.Machine.execHealthRead s
  | .fwActivate => Sys2Proof.Machine.execFwActivate s
  | .configSet => Sys2Proof.Machine.execConfigSet s
  | .countersRead => Sys2Proof.Machine.execCountersRead s
  | .mailboxBadCode => Sys2Proof.Machine.execMailboxBadCode s
  | .getVersion => Sys2Proof.Machine.execGetVersion s
  | .getCapabilities => Sys2Proof.Machine.execGetCapabilities s
  | .negotiateAlgorithms => Sys2Proof.Machine.execNegotiateAlgorithms s
  | .getDigests => Sys2Proof.Machine.execGetDigests s
  | .getCertificate => Sys2Proof.Machine.execGetCertificate s
  | .challenge => Sys2Proof.Machine.execChallenge s
  | .getMeasurements => Sys2Proof.Machine.execGetMeasurements s
  | .keyExchange => Sys2Proof.Machine.execKeyExchange s
  | .finish => Sys2Proof.Machine.execFinish s
  | .keyUpdate => Sys2Proof.Machine.execKeyUpdate s
  | .heartbeat => Sys2Proof.Machine.execHeartbeat s
  | .endSession => Sys2Proof.Machine.execEndSession s
  | .ideKm => Sys2Proof.Machine.execIdeKm s
  | .errmaskTest => Sys2Proof.Machine.execErrmaskTest s
  | .errmaskHop => Sys2Proof.Machine.execErrmaskHop s
  | .errmaskRoute => Sys2Proof.Machine.execErrmaskRoute s
  | .errmaskStore => Sys2Proof.Machine.execErrmaskStore s
  | .errmaskMatrix => Sys2Proof.Machine.execErrmaskMatrix s
  | .errmaskVector => Sys2Proof.Machine.execErrmaskVector s
  | .errmaskPred => Sys2Proof.Machine.execErrmaskPred s
  | .errmaskScalar => Sys2Proof.Machine.execErrmaskScalar s
  | .brkPoint => Sys2Proof.Machine.execBrkPoint s
  | .stepFiring => Sys2Proof.Machine.execStepFiring s
  | .resume => Sys2Proof.Machine.execResume s
  | .injectSwap => Sys2Proof.Machine.execInjectSwap s
  | .injectPreempt => Sys2Proof.Machine.execInjectPreempt s
  | .injectDrop => Sys2Proof.Machine.execInjectDrop s
  | .moduleReplace => Sys2Proof.Machine.execModuleReplace s
  | .coreRestart => Sys2Proof.Machine.execCoreRestart s
  | .recalibrationStart => Sys2Proof.Machine.execRecalibrationStart s

end Sys2Proof.Machine
end

