-- ==== Sys2Proof/Machine/Fetch.lean ====
section
/-!
DEFINITION. What moves next, and how it is fetched (R34, R37, R38, R301, R302): a core's word at its pc, a slot's E-word, or an event.
-/

namespace Sys2Proof.Machine

/-- What the next step does: it runs an instruction in a state, or only passes to a state. -/
inductive Todo
  | exec (i : Instr) (s : State)
  | pass (s : State)
  deriving DecidableEq, Repr, Inhabited

/-- A core issues the word at its pc (R38): FIRING_LIMIT is found first, then a fetch past the code store (R301), then what
depends on the bits of the word. -/
def State.issue (s : State) (c : Nat) : Todo :=
  let s := { s with curCore := c }
  let k := s.core
  if !isFirmware c && k.firing.fmax ≤ k.firing.issued then .pass (s.takeTrap .firingLimit 0)
  else if Config.codeSize ≤ k.pc.toNat then .pass (s.takeTrap .spaceBounds 0)
  else
    match decodeS s.fetchWord with
    | .ok i => .exec i s.countIssue
    | .error (.reservedField true) => .pass (s.countIssue.takeTrap (if isFirmware c then .reservedField else .privilege) 0)
    | .error (.reservedField false) => .pass (s.countIssue.takeTrap .reservedField 0)
    | .error _ => .pass (s.countIssue.takeTrap .illegalOpcode 0)

/-- A core that can issue. -/
def CoreSt.issues (k : CoreSt) : Bool := k.running && !k.halted && !k.finWait

/-- A slot fires its E-word for a tag. -/
def State.fireSlot (s : State) (u : Loc) (slot tag : Nat) : Todo :=
  match (s.getU u.key).conf.slotAt slot with
  | some (i, _) => .exec i { s with curLoc := u, curSlot := slot, curTag := tag }
  | none => .pass (s.unready u slot tag)

/-! ## Events -/

/-- Two places have one in common. -/
def meets (a b : List Dest) : Bool := a.any fun d => b.contains d

/-- An event x that is listed before y takes effect before it: streams keep their order (R64), and so do links (R14); a re-injection goes
ahead of tokens that reach its slot (R81, R83); a paddock's fault stops its next commit, and the first fault of a site is recorded first
(R200, R276, R279). -/
def precedes (x y : Instr) : Bool :=
  meets x.tokenDests y.tokenDests ||
  match x, y with
  | .switchTokenCheck h, .switchTokenCheck k => h.inp != 9 && h.site == k.site && h.inp == k.inp && h.tok.net == k.tok.net
  | .overflowReinject _ u slot, y => y.tokenDests.any fun d => d == .field u slot .l || d == .field u slot .r || d == .field u slot .p
  | .paddockFault p _, .commitComplete q => p == q
  | .paddockFault p f, .paddockFault q g => p == q && f.cell == g.cell && f.slot == g.slot
  | _, _ => false

/-- Writes of one link are taken in PCI Express order (R397), and what they start (R226, R400, R401). -/
def Instr.linkWrite : Instr → Bool
  | .hostBar2Write | .registerWrite | .queueDoorbell .. | .queueRearm _ | .queuePrioWrite .. | .ctxCreate | .ctxKill | .queueBind | .invalidate
  | .mint | .fwLoad | .logRead | .healthRead | .fwActivate | .configSet | .countersRead | .mailboxBadCode => true
  | _ => false

/-- What a link's earlier writes come before: its further writes, and its reads, so that a read's completion says that they have taken effect. -/
def Instr.linkAccess (i : Instr) : Bool :=
  Instr.linkWrite i || match i with
    | .hostBar2Read => true
    | _ => false

/-- An event that is listed before another takes effect before it. A mailbox command that goes on (arg.flag) is no write of the link any more. -/
def Event.before (x y : Event) : Bool :=
  precedes x.instr y.instr || (Instr.linkWrite x.instr && Instr.linkAccess y.instr && x.arg.link == y.arg.link && !x.arg.flag && !y.arg.flag)

/-- An event waits: for room at the place where it delivers its token; a packet of an aborted queue for those before it, which retire in queue
order (R283, R331). -/
def State.waits (s : State) (i : Instr) : Bool :=
  match i with
  | .packetComplete q i .abortedByPredecessor =>
    s.events.any fun x =>
      match x.instr with
      | .packetComplete r j .abortedByPredecessor => r == q && decide (j < i)
      | _ => false
  | .switchTokenCheck h => s.hopWaits h
  | .tokenArrival u slot f t | .commitTokenArrival u slot f t => !s.roomFor (.field u slot f) t 0
  | .triggerArrival u c t => !s.roomFor (.trigger u c) t 0
  | _ => false

/-- The event at a place in the list can be taken: no earlier one must take effect before it, and it waits for no room. -/
def State.mayTake (s : State) (k : Nat) : Bool :=
  match s.events[k]? with
  | some e => !((s.events.take k).any fun x => Event.before x e) && !s.waits e.instr
  | none => false

/-- The event at a place in the list is taken. -/
def State.takeEvent (s : State) (k : Nat) : Todo :=
  match s.events[k]? with
  | some e => if s.mayTake k then .exec e.instr { s with events := s.events.eraseIdx k, arg := e.arg } else .pass s
  | none => .pass s

/-- The oldest event that can be taken, or else none. -/
def State.nextEvent (s : State) : Option Nat := (List.range s.events.length).find? s.mayTake

/-! ## Turns -/

/-- The unit of a cell or a node that runs a slot's firings (R264). -/
inductive SlotUnit
  | vector | matrix | recurrence
  deriving DecidableEq, Repr, Inhabited

def slotUnit : Instr → SlotUnit
  | .mma _ | .mmab _ | .mmaw _ => .matrix
  | .scan _ | .lrec _ | .ema _ | .fir _ | .carry _ => .recurrence
  | _ => .vector

/-- The unit that runs the firings of a ready entry: cell or node, and which of its units. -/
def State.runsOn (s : State) (r : Loc × Nat × Nat) : Bool × Nat × SlotUnit :=
  (isCellKey r.1.key, r.1.idx, ((((s.getU r.1.key).conf.slotAt r.2.1).map fun x => slotUnit x.1).getD .vector))

/-- A token of a context and a route that has not reached its consumer. -/
def Instr.onRoute (ctx route : Nat) : Instr → Bool
  | .switchTokenCheck h => h.tok.ctx == ctx && h.routeWant == route
  | .tokenArrival _ _ _ t => t.ctx == ctx && t.route == route
  | _ => false

/-- Result tokens of a slot that its consumers have not taken. -/
def State.aheadOf (s : State) (e : SlotEnv) : Nat :=
  let u := s.getU e.key
  let held := ((s.slotSt e.key e.slot).outs.map fun x => x.2.held.length).sum
  let (c0, c1) := e.consumers u
  let out (c : Consumer) : Nat :=
    if c.fld == 3 then 0
    else if c.slot.toNat < 0x70 then
      -- on its way to a slot of the same node
      countIf (fun (x : Event) =>
        match x.instr with
        | .tokenArrival v slot f t => v == e.loc && slot == c.slot.toNat && f.code == c.fld.toNat && t.ctx == u.ctx && t.route == 256 + e.slot
        | _ => false) s.events
    else
      let r := (amGet e.conf.portRoute (c.slot.toNat - 0x70) {}).id
      countIf (fun (x : Event) => Instr.onRoute u.ctx r x.instr) s.events +
        (s.links.map fun (x : Nat × LinkSt) => countIf (fun m => m.hop.tok.ctx == u.ctx && m.hop.routeWant == r) x.2.open).sum
  held + max (out c0) (out c1)

/-- An LDN of a STREAM node stops while 32 of its result tokens are ahead of its consumers (R244). -/
def State.slotWaits (s : State) (u : Loc) (slot : Nat) : Bool :=
  match s.slotEnv u.key slot with
  | some e =>
    match e.instr with
    | .ldn _ => e.conf.mode == .stream && decide (32 ≤ s.aheadOf e)
    | _ => false
  | none => false

/-- The determined firings that may start, in the order in which they became determined: those that wait for a tile, an update or a page
keep their places. -/
def State.mayStart (s : State) : List (Loc × Nat × Nat) := s.ready.filter fun x => !(s.getU x.1.key).parked.contains x.2 && !s.slotWaits x.1 x.2.1

/-- A determined firing is the first of its unit: the one that became determined first. -/
def State.firstOfUnit (s : State) (r : Loc × Nat × Nat) : Bool := (s.mayStart.find? fun x => s.runsOn x == s.runsOn r) == some r

/-- What a core issues next traps whatever its word is (R38, R301). -/
def State.trapsAtIssue (s : State) (c : Nat) : Bool :=
  !isFirmware c && decide (s.core.firing.fmax ≤ s.core.firing.issued) || decide (Config.codeSize ≤ s.core.pc.toNat)

/-- A core can issue its next word. -/
def State.coreMoves (s : State) (c : Nat) : Bool :=
  let s := { s with curCore := c }
  s.core.issues && (s.trapsAtIssue c ||
    match decodeS s.fetchWord with
    | .ok i => !s.wordWaits i
    | .error _ => true)

/-- One turn. A turn that names nothing that can move passes. -/
def State.turn (s : State) : Turn → Todo
  | .event k => s.takeEvent k
  | .core c => if s.coreMoves c then s.issue c else .pass s
  | .slot u slot tag => if s.firstOfUnit (u, slot, tag) then s.fireSlot u slot tag else .pass s

/-- The oldest event that can be taken is taken. -/
def State.takeNext (s : State) : Todo :=
  match s.nextEvent with
  | some k => s.takeEvent k
  | none => .pass s

/-- What moves next: what the outside has chosen; else the oldest determined firing, the first cell's sequencer that can issue, the
oldest event that can be taken, the first firmware core that can issue; else nothing (notes/assumptions/3.md). -/
def State.todo (s : State) : Todo :=
  match s.schedule with
  | t :: ts => { s with schedule := ts }.turn t
  | [] =>
    match s.mayStart with
    | (u, slot, tag) :: _ => s.fireSlot u slot tag
    | [] =>
      match s.cores.find? fun x => s.coreMoves x.1 with
      | some (c, _) => if isFirmware c && s.nextEvent.isSome then s.takeNext else s.issue c
      | none => s.takeNext

/-! ## Placing one instruction -/

/-- The S-word w stands at cell 0's pc, and cell 0 is next. -/
def State.placeS (s : State) (w : Word) : State :=
  let k := s.coreOf 0
  let s := s.setCoreOf 0 { k with running := true, halted := false, finWait := false, pc := 0, firing := { k.firing with issued := 0 } }
  { s.writeMem .c (cAddr 0 0) (bytesOfWord w) with schedule := [.core 0] }

/-- A field with one token on [0, 1). -/
def oneRow : FieldSt :=
  { rows := [Token.sealed { valid := 0xFFFF, hi := 1 }], frontier := 1, firstLo := some 0 }

/-- The E-word w stands in slot 0 of a configured unit with a determined firing, which is next. -/
def State.placeE (s : State) (i : Instr) (w : Word) : State :=
  let loc : Loc :=
    match i with
    | .astr _ | .ldn _ | .stn _ | .updn _ | .ldsc _ | .stsc _ | .sbar _ | .xlate _ => .node 0
    | _ => .cell 0 0
  let conf : UnitConf := { slots := [(0, w, if i.hasParam then 0x03000000 else 0)] }
  let h := Hdr.ofWord (if i.hasParam then 0x03000000 else 0)
  let st : SlotSt := { fields := ((netFields conf 0 i h).map fun f => (fkey f 0 0, oneRow)) }
  let s := s.setU loc.key
    { s.getU loc.key with live := true, waved := true, stopped := false, slotNo := some 0, conf := conf, slots := [(0, st)], parked := [] }
  { s with ready := (loc, 0, 0) :: s.ready, schedule := [.slot loc 0 0] }

/-- An instruction's word is placed where the next step runs it. -/
def State.placeWord (s : State) (w : Word) : State :=
  match decodeS w with
  | .ok _ => s.placeS w
  | .error _ =>
    match decodeE w with
    | .ok i => s.placeE i w
    | .error _ => s.placeS w

end Sys2Proof.Machine
end

