-- ==== Sys2Proof/Machine/Step.lean ====
section
/-!
DEFINITION. One step of the machine, and the place of the next instruction.
-/

namespace Sys2Proof.Machine

/-- One step: what moves next runs its instruction, or passes. -/
def step (s : State) : Host.Outcome State Fault Refusal :=
  match s.todo with
  | .exec i t => exec i t
  | .pass t => .next t

/-- The state with an instruction's word where the next step fetches it. -/
def State.withFetchWord (s : State) (nbits w : Nat) : State := s.placeWord (BitVec.ofNat 32 (w % 2 ^ nbits))

end Sys2Proof.Machine
end

