-- ==== Sys2Proof/Safety.lean ====
section
/-!
DEFINITION. The terms of the statements: the invariant that every step keeps, when an S-word executes, what it leaves, when a slot
fires, what a firing leaves.
-/

namespace Sys2Proof.Machine

/-! ## Memories -/

/-- Every memory of the package. -/
def State.mems (s : State) : List Memory := [s.memC, s.memL, s.memF, s.memS, s.memM, s.memH, s.mailbox.bytes]

/-- Every memory is in its canonical form. -/
def State.memWf (s : State) : Bool := s.mems.all Memory.wf

/-! ## S-words -/

/-- No check of a word fails: no injection is armed for it, the guard and the predicates and registers that it reads are good (R133). -/
abbrev CoreSt.Passes (k : CoreSt) (g : Guard) (rs : List RegNum) (ps : List PredNum) : Prop :=
  k.errmask.getLsbD 1 = false ∧ k.errmask.getLsbD 2 = false ∧ k.predOk g.p = true ∧ rs.all k.regOk = true ∧
    ps.all k.predOk = true

/-- The word executes on the current core: its checks pass and its guard holds (R37). -/
abbrev State.Executes (s : State) (g : Guard) (rs : List RegNum) (ps : List PredNum) : Prop :=
  s.core.Passes g rs ps ∧ s.core.guard g = true

/-- Register d has taken v, and the pc has moved on. -/
def State.wrote (s : State) (d : RegNum) (v : DWord) : State := s.setCore (s.core.setReg d v).retire

/-- Predicate p has taken v, and the pc has moved on. -/
def State.wroteP (s : State) (p : PredNum) (v : Bool) : State := s.setCore (s.core.setPred p v).retire

/-- An effect is held for FIN, and the pc has moved on. -/
def State.holds (s : State) (h : Held) : State := (s.hold h).retire

/-- The current core has jumped to t, with its registers as f leaves them. -/
def State.jumped (s : State) (t : DWord) (f : CoreSt → CoreSt) : State := s.setCore ((f s.core).jump t)

/-- No line of the range carries a mark, and no injection is armed: for a read of L, or in the masks that firmware holds (R388). -/
abbrev State.ReadsWell (s : State) (sp : Space) (a n : Nat) : Prop :=
  ((linesOf a n).all fun l => s.markOf sp l == none) = true ∧ s.core.errmask.getLsbD 5 = false ∧ s.masks = []

/-- An access of the running firing to an address need move no group of S stores first: its cell has none on its way to the slice (R216), and a
permit of its fold is free there, or nothing is on its way that would return one (R232). -/
abbrev State.Settled (s : State) (sp : Space) (a : Nat) : Prop :=
  (sp == .s && ((s.groups.any fun g => g.cell == s.curCore && g.slice == sliceOfAddr a) ||
    !s.permitFree s.core.firing.pad (permitKey (foldOf s.curCore) (sliceOfAddr a) 0) &&
      s.groups.any fun g => foldOf g.cell == foldOf s.curCore && g.slice == sliceOfAddr a)) = false

/-! ## Slot firings -/

/-- The firing of a choice by the current slot and tag. -/
abbrev State.firing (s : State) (e : SlotEnv) (c : Choice) : Fire := e.fire (s.getU s.curLoc.key).ctx s.curTag c

/-- No injection is armed for a slot of the unit (R388). -/
def State.unarmed (s : State) (e : SlotEnv) : Bool :=
  match Loc.cell? e.loc with
  | some i => let m := (s.coreOf i).errmask; !m.getLsbD 3 && !m.getLsbD 4 && !m.getLsbD 5
  | none => true

/-- The current slot may fire, c is its next choice under the current tag, no breakpoint stands before it, none of its segments is
a fault token or error-flagged, its gate is open, its operands agree with their residues and parities, the tiles that it reads are good. -/
abbrev State.Fires (s : State) (e : SlotEnv) (c : Choice) : Prop :=
  s.slotEnv s.curLoc.key s.curSlot = some e ∧ s.mayFire s.curLoc.key = true ∧
    e.next (s.slotSt s.curLoc.key s.curSlot) s.curTag = some c ∧ s.fireBreak e s.curTag c.lo = false ∧
    c.faultTok = none ∧
    e.errSegs (operandTy e.instr e.hdr) c = [] ∧ e.gateOpen (s.firing e c) = true ∧
    c.bad = false ∧ s.unarmed e = true ∧
    s.tilesClean e (s.firing e c) = true

/-- The firing has been taken, with one result. -/
def State.emits (s : State) (e : SlotEnv) (c : Choice) (r : LaneRes) : State :=
  s.taken e s.curTag c.hi [(0, { tok := (s.firing e c).result e.hdr r, basis := c.hi })]

/-- The firing has been taken, with a result over its intersection as it stands. -/
def State.emitsTok (s : State) (e : SlotEnv) (c : Choice) (t : Token) : State := s.taken e s.curTag c.hi [(0, { tok := t, basis := c.hi })]

/-- The firing of a two-output operation has been taken: a result without a valid lane is not put out (R145). -/
def State.emitsTwo (s : State) (e : SlotEnv) (c : Choice) (a b : LaneRes) : State :=
  s.taken e s.curTag c.hi ((s.firing e c).two e.hdr a b)

/-- A result whose elements are f of each valid element and zero elsewhere, with the conditions that these raise (R144). -/
def LaneRes.Elementwise (r : LaneRes) (w : Nat) (valid reset : BitVec 16) (f : Nat → El) : Prop :=
  r.valid = pairValid w valid ∧ r.reset = pairReset w reset ∧
    (∀ j, j < elCount w → elAt w r.payload j = if elValid w r.valid j then (f j).bits % 2 ^ w else 0) ∧
    (r.exc = true ↔ ∃ j, j < elCount w ∧ elValid w r.valid j = true ∧ (f j).exc = true) ∧
    (r.sat = true ↔ ∃ j, j < elCount w ∧ elValid w r.valid j = true ∧ (f j).sat = true)

/-- A result whose lane i is f i. -/
def LaneRes.Lanes (r : LaneRes) (f : Nat → Lane) : Prop :=
  ∀ i, i < 16 → laneAt r.payload i = (f i).bits % 2 ^ 32 ∧ r.valid.getLsbD i = (f i).valid ∧ r.reset.getLsbD i = (f i).reset

/-! ## Host commands -/

/-- A mailbox command has started: its word stands in the mailbox, its status is busy (R402). -/
def State.commanded (s : State) (code : Nat) : State :=
  { s with mailbox := { (s.mailbox.put 0 (toBytes 4 code)).put 4 (toBytes 4 mboxBusy) with pending := some code } }

/-- The package runs, no mailbox command is pending, and the step is a new command (R402). -/
abbrev State.Ready (s : State) : Prop := s.status = 1 ∧ s.mailbox.pending = none ∧ s.arg.flag = false

end Sys2Proof.Machine
end

