-- ==== Sys2Proof/Certificates/Slice0/Obligations.lean ====
section
/-!
DEFINITION. The statements for the provers, family by family.
-/

open Sys2Proof Sys2Proof.Machine

/-! ## Scalar words -/

/-- R122 to R124: what each ALU word writes to d, from the sources as they stand before the word; the pc moves on and nothing else
changes. SEL reads its guard field as a selector and writes in every case. R122: SEL writes a when its selector is 1 and b when it is 0,
whatever its guard field says. R123: the unary ALU words. CLZ, CTZ and POPC are said by the bits of the source. A unary word whose field b
is not zero is reserved. R125, R126: products and quotients; no case traps. -/
def Obligations.AluWordsWriteTheirResult : Prop :=
  (∀ (s : State) (d a b : RegNum) (g : Guard), s.Executes g [a, b] [] →
      let x := s.core.reg a
      let y := s.core.reg b
      let n := y.toNat % 64
      exec (.add d a b g) s = .next (s.wrote d (BitVec.ofNat 64 (x.toNat + y.toNat))) ∧
      exec (.sub d a b g) s = .next (s.wrote d (BitVec.ofInt 64 ((x.toNat : Int) - y.toNat))) ∧
      exec (.and d a b g) s = .next (s.wrote d (x &&& y)) ∧
      exec (.or d a b g) s = .next (s.wrote d (x ||| y)) ∧
      exec (.xor d a b g) s = .next (s.wrote d (x ^^^ y)) ∧
      exec (.andn d a b g) s = .next (s.wrote d (x &&& ~~~y)) ∧
      exec (.shl d a b g) s = .next (s.wrote d (if 64 ≤ y.toNat then 0 else BitVec.ofNat 64 (x.toNat * 2 ^ y.toNat))) ∧
      exec (.shr d a b g) s = .next (s.wrote d (if 64 ≤ y.toNat then 0 else BitVec.ofNat 64 (x.toNat / 2 ^ y.toNat))) ∧
      exec (.sra d a b g) s = .next (s.wrote d (BitVec.ofInt 64 (x.toInt / 2 ^ (if 64 ≤ y.toNat then 63 else y.toNat)))) ∧
      exec (.rol d a b g) s =
        .next (s.wrote d (BitVec.ofNat 64 (x.toNat * 2 ^ n) ||| BitVec.ofNat 64 (x.toNat / 2 ^ (64 - n)))) ∧
      exec (.ror d a b g) s =
        .next (s.wrote d (BitVec.ofNat 64 (x.toNat / 2 ^ n) ||| BitVec.ofNat 64 (x.toNat * 2 ^ (64 - n)))) ∧
      exec (.min d a b g) s = .next (s.wrote d (if x.toInt ≤ y.toInt then x else y)) ∧
      exec (.max d a b g) s = .next (s.wrote d (if y.toInt ≤ x.toInt then x else y)) ∧
      exec (.minn d a b g) s = .next (s.wrote d (if x.toNat ≤ y.toNat then x else y)) ∧
      exec (.maxn d a b g) s = .next (s.wrote d (if y.toNat ≤ x.toNat then x else y)) ∧
      exec (.addw d a b g) s = .next (s.wrote d ((BitVec.ofNat 32 (x.toNat + y.toNat)).signExtend 64)) ∧
      exec (.subw d a b g) s = .next (s.wrote d ((BitVec.ofInt 32 ((x.toNat : Int) - y.toNat)).signExtend 64))) ∧
  (∀ (s : State) (d a b : RegNum) (g : Guard), s.Executes Guard.always [a, b] [g.p] →
      exec (.sel d a b g) s = .next (s.wrote d (if xor (s.core.pred g.p) g.neg then s.core.reg a else s.core.reg b))) ∧
  ((∀ (s : State) (d a : RegNum) (g : Guard), s.Executes g [a] [] →
      let x := s.core.reg a
      (∃ n : Nat, n ≤ 64 ∧ (∀ i, 64 - n ≤ i → x.getLsbD i = false) ∧ (n < 64 → x.getLsbD (63 - n) = true) ∧
        exec (.clz d a g) s = .next (s.wrote d (BitVec.ofNat 64 n))) ∧
      (∃ n : Nat, n ≤ 64 ∧ (∀ i, i < n → x.getLsbD i = false) ∧ (n < 64 → x.getLsbD n = true) ∧
        exec (.ctz d a g) s = .next (s.wrote d (BitVec.ofNat 64 n))) ∧
      exec (.popc d a g) s = .next (s.wrote d (BitVec.ofNat 64 ((List.range 64).filter fun i => x.getLsbD i).length)) ∧
      exec (.sext8 d a g) s = .next (s.wrote d ((x.extractLsb' 0 8).signExtend 64)) ∧
      exec (.sext16 d a g) s = .next (s.wrote d ((x.extractLsb' 0 16).signExtend 64)) ∧
      exec (.sext32 d a g) s = .next (s.wrote d ((x.extractLsb' 0 32).signExtend 64)) ∧
      exec (.zext8 d a g) s = .next (s.wrote d (BitVec.ofNat 64 (x.toNat % 2 ^ 8))) ∧
      exec (.zext16 d a g) s = .next (s.wrote d (BitVec.ofNat 64 (x.toNat % 2 ^ 16))) ∧
      exec (.zext32 d a g) s = .next (s.wrote d (BitVec.ofNat 64 (x.toNat % 2 ^ 32))) ∧
      exec (.mov d a g) s = .next (s.wrote d x) ∧
      exec (.abs d a g) s = .next (s.wrote d (BitVec.ofNat 64 x.toInt.natAbs)) ∧
      exec (.neg d a g) s = .next (s.wrote d (BitVec.ofInt 64 (0 - (x.toNat : Int))))) ∧
    ∀ w : Word, w.extractLsb' 26 6 = 0 → 0x10 ≤ (w.extractLsb' 0 7).toNat → (w.extractLsb' 0 7).toNat ≤ 0x1B → w.extractLsb' 11 5 ≠ 0 →
      decodeS w = .error (.reservedField false)) ∧
  (∀ (s : State) (d a b : RegNum) (g : Guard), s.Executes g [a, b] [] →
      let x := s.core.reg a
      let y := s.core.reg b
      let ovf := x.toInt = -2 ^ 63 ∧ y.toInt = -1
      let ones : DWord := 0xFFFFFFFFFFFFFFFF
      exec (.mul d a b g) s = .next (s.wrote d (BitVec.ofNat 64 (x.toNat * y.toNat))) ∧
      exec (.mulh d a b g) s = .next (s.wrote d (BitVec.ofInt 64 (x.toInt * y.toInt / 2 ^ 64))) ∧
      exec (.mulhn d a b g) s = .next (s.wrote d (BitVec.ofNat 64 (x.toNat * y.toNat / 2 ^ 64))) ∧
      exec (.div d a b g) s =
        .next (s.wrote d (if y.toNat = 0 then ones else if ovf then x else BitVec.ofInt 64 (x.toInt.tdiv y.toInt))) ∧
      exec (.rem d a b g) s =
        .next (s.wrote d (if y.toNat = 0 then x else if ovf then 0 else BitVec.ofInt 64 (x.toInt.tmod y.toInt))) ∧
      exec (.divn d a b g) s = .next (s.wrote d (if y.toNat = 0 then ones else BitVec.ofNat 64 (x.toNat / y.toNat))) ∧
      exec (.remn d a b g) s = .next (s.wrote d (if y.toNat = 0 then x else BitVec.ofNat 64 (x.toNat % y.toNat))) ∧
      exec (.mulw d a b g) s = .next (s.wrote d ((BitVec.ofNat 32 (x.toNat * y.toNat)).signExtend 64)))

/-- R127, R128: immediate forms and constants. -/
def Obligations.ImmediateWordsWriteTheirResult : Prop :=
  (∀ (s : State) (d a : RegNum) (imm : BitVec 12) (g : Guard), s.Executes g [a] [] →
    let x := s.core.reg a
    let se : DWord := BitVec.ofInt 64 imm.toInt
    let ze : DWord := BitVec.ofNat 64 imm.toNat
    let past := 64 ≤ se.toNat
    exec (.addi d a imm g) s = .next (s.wrote d (BitVec.ofNat 64 (x.toNat + se.toNat))) ∧
    exec (.andi d a imm g) s = .next (s.wrote d (x &&& ze)) ∧
    exec (.ori d a imm g) s = .next (s.wrote d (x ||| ze)) ∧
    exec (.xori d a imm g) s = .next (s.wrote d (x ^^^ ze)) ∧
    exec (.shli d a imm g) s = .next (s.wrote d (if past then 0 else BitVec.ofNat 64 (x.toNat * 2 ^ se.toNat))) ∧
    exec (.shri d a imm g) s = .next (s.wrote d (if past then 0 else BitVec.ofNat 64 (x.toNat / 2 ^ se.toNat))) ∧
    exec (.srai d a imm g) s = .next (s.wrote d (BitVec.ofInt 64 (x.toInt / 2 ^ (if past then 63 else se.toNat)))) ∧
    exec (.muli d a imm g) s = .next (s.wrote d (BitVec.ofNat 64 (x.toNat * se.toNat)))) ∧
  ∀ (s : State) (d : RegNum) (imm : BitVec 21), s.Executes Guard.always [d] [] →
    let x := s.core.reg d
    exec (.li d imm) s = .next (s.wrote d (BitVec.ofInt 64 imm.toInt)) ∧
    (∃ v : DWord, exec (.lui d imm) s = .next (s.wrote d v) ∧ v.extractLsb' 21 21 = imm ∧
      v.extractLsb' 0 21 = x.extractLsb' 0 21 ∧ v.extractLsb' 42 22 = x.extractLsb' 42 22) ∧
    ∃ v : DWord, exec (.luih d imm) s = .next (s.wrote d v) ∧ v.extractLsb' 42 21 = imm ∧ v.getLsbD 63 = imm.getLsbD 20 ∧
      v.extractLsb' 0 42 = x.extractLsb' 0 42

/-- R129, R130: the conditions of CMP and CMPI; both write one predicate. A CMP with a register field that is no predicate's is reserved,
and every CMPI word is legal. R131: predicate words, every predicate read before the destination is written. A word with a field that must
be zero and is not is reserved. -/
def Obligations.CompareAndPredicateWordsWriteTheirCondition : Prop :=
  ((∀ (s : State) (p : PredNum) (a b : RegNum) (g : Guard), s.Executes g [a, b] [] →
      let x := s.core.reg a
      let y := s.core.reg b
      exec (.cmp .eq p a b g) s = .next (s.wroteP p (decide (x = y))) ∧
      exec (.cmp .ne p a b g) s = .next (s.wroteP p (decide (x ≠ y))) ∧
      exec (.cmp .lt p a b g) s = .next (s.wroteP p (decide (x.toInt < y.toInt))) ∧
      exec (.cmp .ge p a b g) s = .next (s.wroteP p (decide (y.toInt ≤ x.toInt))) ∧
      exec (.cmp .ltn p a b g) s = .next (s.wroteP p (decide (x.toNat < y.toNat))) ∧
      exec (.cmp .gen p a b g) s = .next (s.wroteP p (decide (y.toNat ≤ x.toNat))) ∧
      exec (.cmp .bits p a b g) s = .next (s.wroteP p (decide (x &&& y ≠ 0))) ∧
      exec (.cmp .nbits p a b g) s = .next (s.wroteP p (decide (x &&& y = 0)))) ∧
    (∀ w : Word, w.extractLsb' 26 6 = 0x02 → w.extractLsb' 24 2 ≠ 0 → decodeS w = .error (.reservedField false)) ∧
    (∀ w : Word, w.extractLsb' 26 6 = 0x0B → ∃ ci p a imm g, decodeS w = .ok (.cmpi ci p a imm g)) ∧
    ∀ (s : State) (p : PredNum) (a : RegNum) (imm : BitVec 12) (g : Guard), s.Executes g [a] [] →
      let x := s.core.reg a
      exec (.cmpi .eq p a imm g) s = .next (s.wroteP p (decide (x.toInt = imm.toInt))) ∧
      exec (.cmpi .ne p a imm g) s = .next (s.wroteP p (decide (x.toInt ≠ imm.toInt))) ∧
      exec (.cmpi .lt p a imm g) s = .next (s.wroteP p (decide (x.toInt < imm.toInt))) ∧
      exec (.cmpi .ge p a imm g) s = .next (s.wroteP p (decide (imm.toInt ≤ x.toInt)))) ∧
  ((∀ (s : State) (d a b : PredNum) (g : Guard), s.Executes g [] [a, b] →
      let x := s.core.pred a
      let y := s.core.pred b
      exec (.pand d a b g) s = .next (s.wroteP d (x && y)) ∧ exec (.por d a b g) s = .next (s.wroteP d (x || y)) ∧
      exec (.pxor d a b g) s = .next (s.wroteP d (x != y)) ∧ exec (.pandn d a b g) s = .next (s.wroteP d (x && !y))) ∧
    (∀ (s : State) (d a : PredNum) (g : Guard), s.Executes g [] [a] →
      exec (.pnot d a g) s = .next (s.wroteP d (!s.core.pred a)) ∧ exec (.pmov d a g) s = .next (s.wroteP d (s.core.pred a))) ∧
    (∀ (s : State) (d : PredNum) (g : Guard), s.Executes g [] [] →
      exec (.pset d g) s = .next (s.wroteP d true) ∧ exec (.pclr d g) s = .next (s.wroteP d false)) ∧
    ∀ w : Word, w.extractLsb' 26 6 = 0x03 →
      let fn := (w.extractLsb' 0 7).toNat
      fn ≤ 7 → w.extractLsb' 24 2 ≠ 0 ∨ (fn ≤ 5 ∧ w.extractLsb' 19 2 ≠ 0) ∨ (fn ≤ 3 ∧ w.extractLsb' 14 2 ≠ 0) ∨
        (4 ≤ fn ∧ w.extractLsb' 11 5 ≠ 0) ∨ (6 ≤ fn ∧ w.extractLsb' 16 5 ≠ 0) → decodeS w = .error (.reservedField false))

/-- R43, R120, R133: the frame of every word above. A register or predicate that has been written reads as written, with the
residue or the second copy that its check wants; s0 and p0 discard the write and read 0 and true; every other register and
predicate with its check, every memory, unit, paddock, event and context is as before, and so is everything of the firing but its loops, which
the pc's advance may end. A write of a register leaves every predicate, and a write of a predicate every register. -/
def Obligations.RegisterWritesChangeNothingElse : Prop :=
  (∀ (s : State) (d r : RegNum) (v : DWord), (s.wrote d v).core.reg r = if r = 0 then 0 else if r = d then v else s.core.reg r) ∧
  (∀ (s : State) (d : RegNum) (v : DWord), (s.wrote d v).core.regOk d = true) ∧
  (∀ (s : State) (d r : RegNum) (v : DWord), r ≠ d → (s.wrote d v).core.regOk r = s.core.regOk r) ∧
  (∀ (s : State) (d p : PredNum) (v : Bool),
    (s.wroteP d v).core.pred p = if p = 0 then true else if p = d then v else s.core.pred p) ∧
  (∀ (s : State) (d : PredNum) (v : Bool), (s.wroteP d v).core.predOk d = true) ∧
  (∀ (s : State) (d p : PredNum) (v : Bool), p ≠ d → (s.wroteP d v).core.predOk p = s.core.predOk p) ∧
  (∀ (s : State) (d : RegNum) (v : DWord), (∀ p, (s.wrote d v).core.pred p = s.core.pred p) ∧
    ∀ p, (s.wrote d v).core.predOk p = s.core.predOk p) ∧
  (∀ (s : State) (d : PredNum) (v : Bool), (∀ r, (s.wroteP d v).core.reg r = s.core.reg r) ∧
    ∀ r, (s.wroteP d v).core.regOk r = s.core.regOk r) ∧
  ∀ (s : State) (d : RegNum) (q : PredNum) (v : DWord) (b : Bool), ∀ t ∈ [s.wrote d v, s.wroteP q b],
    (∀ sp a, (t.mem sp).get a = (s.mem sp).get a) ∧ (∀ c, c ≠ s.curCore → t.coreOf c = s.coreOf c) ∧
    (∃ l, t.core.firing = { s.core.firing with loops := l }) ∧ t.core.trapCause = s.core.trapCause ∧ t.core.trapPc = s.core.trapPc ∧
    t.core.errmask = s.core.errmask ∧ t.core.hbeat = s.core.hbeat ∧ t.core.ctxSel = s.core.ctxSel ∧
    (t.core.pc = s.core.pc + 4 ∨ s.core.firing.loops ≠ []) ∧
    { t with cores := s.cores } = s

/-- R37, R38: a word whose guard does not hold moves the pc on and changes nothing else, whatever else it would do; a CFGLD with a reserved
entry or row, a SYSC of an unlisted service, and on a cell HALT, a privileged MTS and an MFS of a privileged index trap before the guard is read
(`CfgldAnswersItsStatus`, `ServiceCallsDoTheirService`, `TrapsSaveTheirCauseAndPc`, `SpecialRegistersReadAndTakeTheirValues`). -/
def Obligations.UnguardedWordsOnlyMoveOn : Prop :=
  ∀ (s : State) (i : Instr) (g : Guard), s.core.guard g = false → s.core.predOk g.p = true → s.core.errmask.getLsbD 2 = false →
    (∃ (d a b : RegNum) (p q r : PredNum) (c : Cond) (ci : CondI) (imm : BitVec 12) (sz : BitVec 2) (off : BitVec 10) (br : BitVec 22)
      (n8 : BitVec 8) (x4 y4 : BitVec 4) (s6 : BitVec 6) (op : AmoOp) (dbl : Bool) (fk : FenceKind) (sc : Scope) (m5 : BitVec 5)
      (co : CollOp),
      i ∈ [.add d a b g, .sub d a b g, .and d a b g, .or d a b g, .xor d a b g, .andn d a b g, .shl d a b g, .shr d a b g,
        .sra d a b g, .rol d a b g, .ror d a b g, .min d a b g, .max d a b g, .minn d a b g, .maxn d a b g, .clz d a g, .ctz d a g,
        .popc d a g, .sext8 d a g, .sext16 d a g, .sext32 d a g, .zext8 d a g, .zext16 d a g, .zext32 d a g, .mov d a g, .abs d a g,
        .neg d a g, .addw d a b g, .subw d a b g, .mul d a b g, .mulh d a b g, .mulhn d a b g, .div d a b g, .divn d a b g,
        .rem d a b g, .remn d a b g, .mulw d a b g, .cmp c p a b g, .cmpi ci p a imm g, .pand p q r g, .por p q r g, .pxor p q r g,
        .pandn p q r g, .pnot p q g, .pmov p q g, .pset p g, .pclr p g, .addi d a imm g, .andi d a imm g, .ori d a imm g,
        .xori d a imm g, .shli d a imm g, .shri d a imm g, .srai d a imm g, .muli d a imm g, .ldl d a sz off g, .stl d a sz off g,
        .ldf d a sz off g, .stf d a sz off g, .lds d a sz off g, .sts d a sz off g, .amof op d a dbl s6 g, .amos op d a dbl s6 g,
        .fence fk m5 sc g, .br br g, .jr d a g, .loopn a imm g, .advp x4 n8 g, .advc x4 n8 g, .cbrd d a sz x4 s6 g,
        .cbwr d a sz x4 s6 g, .send p a b g, .bind p x4 g, .hmask n8 g, .hunmask n8 g, .taga d x4 g, .tagf d x4 g,
        .cpy x4 a b dbl g, .gath x4 a b g, .scat x4 a b g, .coll x4 a b co g, .qfence x4 n8 g, .siginc x4 a b g, .sigdec x4 a b g,
        .sigset x4 a b g, .tset a b g, .tqry a b g, .seed x4 a g, .enq x4 a b g, .commit a g, .trap d imm g, .brk imm g, .fin g, .ckpt g] ∨
      (i = .cfgld x4 a b y4 g ∧ x4.toNat < 4 ∧ (s.cfgldTarget y4).isSome = true) ∨
      (i = .sysc d imm g ∧ 1 ≤ imm.toNat ∧ imm.toNat ≤ 5) ∨
      (i = .mfs d imm g ∧ (imm.toNat < 0x800 ∨ isFirmware s.curCore = true)) ∨
      (i = .mts imm a g ∧ (imm.toNat < 0x800 ∧ imm ≠ 0x00B ∨ isFirmware s.curCore = true)) ∨
      (i = .halt g ∧ isFirmware s.curCore = true)) →
    exec i s = .next s.retire

/-! ## Loads, stores, atomics, FENCE -/

/-- R210, R229, R230: a load whose address is aligned and legal, and whose lines pass their checks, writes n bytes little-endian and
zero-extended to d; each byte is that of the firing's youngest held store to it, or else that of memory. Nothing else changes (`wrote`).
R229, R231: a store whose address is aligned and legal holds the low n bytes of d and changes no memory; with 256 held entries it traps
STORE_BUFFER_FULL instead. R229: an address that is not a multiple of n traps MISALIGNED; then one whose bytes are not legal traps
SPACE_BOUNDS.
Which slices of S are legal to a fold is the model's reading (notes/assumptions/89.md). -/
def Obligations.LoadsAndStoresReachTheirBytes : Prop :=
  (∀ (s : State) (d a : RegNum) (sz : BitVec 2) (off : BitVec 10) (g : Guard) (x : Nat),
      ∀ p ∈ [(Instr.ldl d a sz off g, Space.l), (.ldf d a sz off g, .f), (.lds d a sz off g, .s)],
      let n : Nat := 2 ^ sz.toNat
      let ea := s.core.reg a + BitVec.ofInt 64 (off.toInt * n)
      s.Executes g [a] [] → ea.toNat % n = 0 → s.spaceAddr p.2 ea.toNat n = some x → s.ReadsWell p.2 x n → s.Settled p.2 x →
      ∃ v : DWord, exec p.1 s = .next (s.wrote d v) ∧ v.toNat < 2 ^ (8 * n) ∧
        ∀ i, i < n → v.extractLsb' (8 * i) 8 = (heldByte p.2 (x + i) s.core.firing.held).getD ((s.mem p.2).get (x + i))) ∧
  (∀ (s : State) (d a : RegNum) (sz : BitVec 2) (off : BitVec 10) (g : Guard) (x : Nat),
      ∀ p ∈ [(Instr.stl d a sz off g, Space.l), (.stf d a sz off g, .f), (.sts d a sz off g, .s)],
      let n : Nat := 2 ^ sz.toNat
      let ea := s.core.reg a + BitVec.ofInt 64 (off.toInt * n)
      s.Executes g [a, d] [] → ea.toNat % n = 0 → s.spaceAddr p.2 ea.toNat n = some x →
      (countIf Held.entry s.core.firing.held < 256 →
        ∃ bs : List Byte, bs.length = n ∧ (∀ i, i < n → bs[i]? = some ((s.core.reg d).extractLsb' (8 * i) 8)) ∧
          exec p.1 s = .next (s.holds (.store p.2 x bs)) ∧ ∀ sp y, ((s.holds (.store p.2 x bs)).mem sp).get y = (s.mem sp).get y) ∧
      (256 ≤ countIf Held.entry s.core.firing.held → exec p.1 s = .next (s.takeTrap .storeBufferFull 0))) ∧
  (∀ (s : State) (d a : RegNum) (sz : BitVec 2) (off : BitVec 10) (g : Guard),
      ∀ p ∈ [(Instr.ldl d a sz off g, Space.l), (.ldf d a sz off g, .f), (.lds d a sz off g, .s), (.stl d a sz off g, .l),
        (.stf d a sz off g, .f), (.sts d a sz off g, .s)],
      let n : Nat := 2 ^ sz.toNat
      let ea := s.core.reg a + BitVec.ofInt 64 (off.toInt * n)
      s.Executes g [a, d] [] →
      (ea.toNat % n ≠ 0 → exec p.1 s = .next (s.takeTrap .misaligned 0)) ∧
      (ea.toNat % n = 0 → s.spaceAddr p.2 ea.toNat n = none → exec p.1 s = .next (s.takeTrap .spaceBounds 0)))

/-- R215, R229, R233: an atomic performs at issue on memory, whatever the firing holds (notes/assumptions/26.md): d gets the old value, memory
the new one (nothing where a cas fails), and the firing remembers that an atomic has performed. An address that is not a multiple of n traps
MISALIGNED; then one whose bytes are not legal traps SPACE_BOUNDS. -/
def Obligations.AtomicsReadModifyWrite : Prop :=
  (∀ (s : State) (op : AmoOp) (d a : RegNum) (dbl : Bool) (off : BitVec 6) (g : Guard),
    ∀ p ∈ [(Instr.amof op d a dbl off g, Space.f), (.amos op d a dbl off g, .s)],
    let n : Nat := if dbl then 8 else 4
    let ea := s.core.reg a + BitVec.ofNat 64 (off.toNat * n)
    s.Executes g ([a, d] ++ if op = .cas then [d + 1] else []) [] →
    (ea.toNat % n ≠ 0 → exec p.1 s = .next (s.takeTrap .misaligned 0)) ∧
    (ea.toNat % n = 0 → s.spaceAddr p.2 ea.toNat n = none → exec p.1 s = .next (s.takeTrap .spaceBounds 0))) ∧
  ∀ (s : State) (op : AmoOp) (d a : RegNum) (dbl : Bool) (off : BitVec 6) (g : Guard) (x : Nat),
    ∀ p ∈ [(Instr.amof op d a dbl off g, Space.f), (.amos op d a dbl off g, .s)],
    let n : Nat := if dbl then 8 else 4
    let w := 8 * n
    let ea := s.core.reg a + BitVec.ofNat 64 (off.toNat * n)
    let old := ofBytes (s.readMem p.2 x n)
    let v := (s.core.reg d).toNat % 2 ^ w
    let c := (s.core.reg (d + 1)).toNat % 2 ^ w
    let signed (u : Nat) : Int := (BitVec.ofNat w u).toInt
    let new : Option Nat := match op with
      | .add => some ((old + v) % 2 ^ w)
      | .min => some (if signed old ≤ signed v then old else v)
      | .max => some (if signed v ≤ signed old then old else v)
      | .minn => some (if old ≤ v then old else v)
      | .maxn => some (if v ≤ old then old else v)
      | .and => some (old &&& v)
      | .or => some (old ||| v)
      | .xor => some (old ^^^ v)
      | .xchg => some v
      | .cas => if old = v then some c else none
    s.Executes g ([a, d] ++ if op = .cas then [d + 1] else []) [] → ea.toNat % n = 0 → s.spaceAddr p.2 ea.toNat n = some x →
    s.ReadsWell p.2 x n → s.Settled p.2 x →
    ∃ t : State, exec p.1 s = .next t ∧ t.core.reg d = (if d = 0 then 0 else BitVec.ofNat 64 old) ∧
      (∀ r, r ≠ d → t.core.reg r = s.core.reg r) ∧ t.core.firing.held = s.core.firing.held ∧
      t.core.firing.atomicAt.isSome = true ∧
      (∀ y, x ≤ y → y < x + n → (t.mem p.2).get y =
        match new with
        | some u => BitVec.ofNat 8 (u / 2 ^ (8 * (y - x)))
        | none => (s.mem p.2).get y) ∧
      ∀ sp y, sp ≠ p.2 ∨ y < x ∨ x + n ≤ y → (t.mem sp).get y = (s.mem sp).get y

/-- R214, R234: an acquire FENCE only moves on here, where loads perform in program order; a release or full FENCE is held for FIN and,
over S, leaves no group that the cell has committed in flight to a slice of its scope: that the groups arrive at the FENCE itself is the model's
choice (notes/assumptions/27.md), R214 orders only what becomes visible after it. Over no space it orders nothing. Every register is as
before. -/
def Obligations.FencesOrderEarlierStores : Prop :=
  ∀ (s : State) (sp : BitVec 5) (sc : Scope) (g : Guard), s.Executes g [] [] →
    exec (.fence .acquire sp sc g) s = .next s.retire ∧
    ∀ k ∈ [FenceKind.release, .full],
      (sp = 0 → exec (.fence k sp sc g) s = .next s.retire) ∧
      ∃ t : State, exec (.fence k sp sc g) s = .next t ∧ t.core.regs = s.core.regs ∧ t.core.preds = s.core.preds ∧
        (sp ≠ 0 → Held.release sp sc ∈ t.core.firing.held) ∧
        (sp.getLsbD 2 = true → ∀ x ∈ t.groups, ¬ (x.cell = s.curCore ∧ scopeSlice sc x.cell x.slice = true)) ∧
        (sp.getLsbD 2 = false → ∀ q a, (t.mem q).get a = (s.mem q).get a)

/-! ## Control flow -/

/-- R301: the targets of BR, JAL and JR, and their traps: a target outside the code store, a JR target that is no word's address. -/
def Obligations.BranchesJumpOrTrap : Prop :=
  ∀ (s : State) (d a : RegNum) (o22 : BitVec 22) (o21 : BitVec 21) (g : Guard), s.Executes g [a] [] →
    s.Executes Guard.always [] [] →
    let next := s.core.pc + 4
    let tb := next + 4 * BitVec.ofInt 64 o22.toInt
    let tj := next + 4 * BitVec.ofInt 64 o21.toInt
    let tr := s.core.reg a
    exec (.br o22 g) s = .next (if tb.toNat < 0x4000 then s.jumped tb id else s.takeTrap .spaceBounds 0) ∧
    exec (.jal d o21) s = .next (if tj.toNat < 0x4000 then s.jumped tj fun k => k.setReg d next else s.takeTrap .spaceBounds 0) ∧
    exec (.jr d a g) s =
      .next (if tr.toNat % 4 ≠ 0 then s.takeTrap .misaligned 0
        else if tr.toNat < 0x4000 then s.jumped tr fun k => k.setReg d next else s.takeTrap .spaceBounds 0)

/-- R302: LOOPN enters its body with its count, skips it for a count of 0, and traps where the body reaches past the innermost active
one or four bodies are active. After a body's last word the innermost body runs again while runs are left, and is done after
the last of them; a taken branch leaves every body that does not contain its target, and keeps a body that does, with the bodies around it.
The pseudo-code of R302 gives the order of the checks and the count of 0; that the word behind a body is not in it is the model's reading
(notes/assumptions/25.md). -/
def Obligations.LoopsRunTheirBodyCountTimes : Prop :=
  (∀ (s : State) (a : RegNum) (len : BitVec 12) (g : Guard), s.Executes g [a] [] →
    let start := s.core.pc + 4
    let stop := start + 4 * BitVec.ofNat 64 len.toNat
    let k := s.core
    exec (.loopn a len g) s =
      .next (if (k.firing.loops.head?.any fun f => decide (f.stop.toNat < stop.toNat)) = true ∨ k.firing.loops.length = 4 then
          s.takeTrap .reservedField 0
        else if (k.reg a).toNat = 0 then s.setCore { k with pc := stop }
        else s.setCore
          { k with pc := start, firing := { k.firing with loops := ⟨start, stop, (k.reg a).toNat⟩ :: k.firing.loops } })) ∧
  (∀ (k : CoreSt) (f : LoopFrame) (fs : List LoopFrame), k.firing.loops = f :: fs →
    (f.stop ≠ k.pc + 4 → k.retire.pc = k.pc + 4 ∧ k.retire.firing.loops = f :: fs) ∧
    (f.stop = k.pc + 4 → 1 < f.remaining →
      k.retire.pc = f.start ∧ k.retire.firing.loops = { f with remaining := f.remaining - 1 } :: fs) ∧
    (f.stop = k.pc + 4 → f.remaining ≤ 1 → k.retire = CoreSt.retire { k with firing := { k.firing with loops := fs } })) ∧
  (∀ k : CoreSt, k.firing.loops = [] → k.retire = { k with pc := k.pc + 4 }) ∧
  ∀ (k : CoreSt) (t : DWord), (k.jump t).pc = t ∧ (k.jump t).regs = k.regs ∧
    (∀ f fs, (k.jump t).firing.loops = f :: fs → f.start.toNat ≤ t.toNat ∧ t.toNat < f.stop.toNat) ∧
    ∀ out f fs, k.firing.loops = out ++ f :: fs → (∀ x ∈ out, ¬ (x.start.toNat ≤ t.toNat ∧ t.toNat < x.stop.toNat)) →
      f.start.toNat ≤ t.toNat → t.toNat < f.stop.toNat → (k.jump t).firing.loops = f :: fs

/-! ## Buffers, channels, tags -/

/-- R306, R307: CBRD and CBWR reach slot (pointer + slot) mod slots of their buffer at the offset in a: CBRD within the declared
take count reads as a load does, CBWR within the give count holds a store as a store word does, or traps STORE_BUFFER_FULL with 256 held
entries. ADVP and ADVC are held while the firing's advances of the handle stay within the declared count, and trap when they pass it. A
handle that the configuration does not declare traps RESERVED_FIELD. -/
def Obligations.BufferWordsStayWithinTheirCounts : Prop :=
  (∀ (s : State) (d a : RegNum) (sz : BitVec 2) (h : BitVec 4) (slot : BitVec 6) (n8 : BitVec 8) (g : Guard),
    amGet? s.curUnit.conf.bufs h.toNat = none → s.Executes g [a, d] [] →
    ∀ i ∈ [Instr.cbrd d a sz h slot g, .cbwr d a sz h slot g, .advp h n8 g, .advc h n8 g],
      exec i s = .next (s.takeTrap .reservedField 0)) ∧
  ∀ (s : State) (d a : RegNum) (sz : BitVec 2) (h : BitVec 4) (slot : BitVec 6) (n8 : BitVec 8) (g : Guard) (b : BufConf),
    amGet? s.curUnit.conf.bufs h.toNat = some b →
    let n : Nat := 2 ^ sz.toNat
    let off := (s.core.reg a).toNat
    let f := s.core.firing
    let place (ptr : Nat) : Nat :=
      let addr := b.base + (ptr + slot.toNat) % b.slots * 64 + off
      if b.sp = .l then lAddr s.curCore addr else fAddr (coreFold s.curCore) addr
    let give := amGet f.give h.toNat 0
    let take := amGet f.take h.toNat 0
    (s.Executes g [a] [] → off ≤ 63 → off % n = 0 → slot.toNat < take → s.ReadsWell b.sp (place (s.bufPtr b).cons) n →
      s.Settled b.sp (place (s.bufPtr b).cons) →
      ∃ v : DWord, exec (.cbrd d a sz h slot g) s = .next (s.wrote d v) ∧ v.toNat < 2 ^ (8 * n) ∧
        ∀ i, i < n → v.extractLsb' (8 * i) 8 =
          (heldByte b.sp (place (s.bufPtr b).cons + i) f.held).getD ((s.mem b.sp).get (place (s.bufPtr b).cons + i))) ∧
    (s.Executes g [a, d] [] → off ≤ 63 → off % n = 0 → slot.toNat < give → countIf Held.entry f.held < 256 →
      ∃ bs : List Byte, bs.length = n ∧ (∀ i, i < n → bs[i]? = some ((s.core.reg d).extractLsb' (8 * i) 8)) ∧
        exec (.cbwr d a sz h slot g) s = .next (s.holds (.store b.sp (place (s.bufPtr b).prod) bs))) ∧
    (s.Executes g [a, d] [] → off ≤ 63 → off % n = 0 → slot.toNat < give → 256 ≤ countIf Held.entry f.held →
      exec (.cbwr d a sz h slot g) s = .next (s.takeTrap .storeBufferFull 0)) ∧
    (s.Executes g [a, d] [] →
      (63 < off → exec (.cbrd d a sz h slot g) s = .next (s.takeTrap .spaceBounds 0) ∧
        exec (.cbwr d a sz h slot g) s = .next (s.takeTrap .spaceBounds 0)) ∧
      (off ≤ 63 → off % n ≠ 0 → exec (.cbrd d a sz h slot g) s = .next (s.takeTrap .misaligned 0) ∧
        exec (.cbwr d a sz h slot g) s = .next (s.takeTrap .misaligned 0)) ∧
      (off ≤ 63 → off % n = 0 → take ≤ slot.toNat → exec (.cbrd d a sz h slot g) s = .next (s.takeTrap .bufferUnderrun 0)) ∧
      (off ≤ 63 → off % n = 0 → give ≤ slot.toNat → exec (.cbwr d a sz h slot g) s = .next (s.takeTrap .bufferOverrun 0))) ∧
    (s.Executes g [] [] →
      exec (.advp h n8 g) s = .next (if heldAdvance true h.toNat f.held + n8.toNat ≤ give then s.holds (.advp h.toNat n8.toNat)
        else s.takeTrap .bufferOverrun 0) ∧
      exec (.advc h n8 g) s = .next (if heldAdvance false h.toNat f.held + n8.toNat ≤ take then s.holds (.advc h.toNat n8.toNat)
        else s.takeTrap .bufferUnderrun 0))

/-- R308, R309, R351: SEND holds a scalar token over the firing's span on a declared channel of its class; a channel that is not declared or of
another class, and a span that no token may have, trap RESERVED_FIELD; 256 held entries then trap STORE_BUFFER_FULL. BIND holds the binding of a
class to a declared handler that is no trap handler; HMASK and HUNMASK hold their masks. -/
def Obligations.SendBindAndMaskWordsAreHeld : Prop :=
  ∀ (s : State) (cls : BitVec 3) (a b : RegNum) (h : BitVec 4) (m : BitVec 8) (g : Guard),
    let f := s.core.firing
    let x := (s.core.reg a).toNat
    (s.Executes g [a, b] [] →
      (∀ ch, amGet? s.curUnit.conf.chans (x % 64) = some ch → ch.cls = cls.toNat → f.spanLo < f.spanHi → f.spanLo ≠ openHi →
        countIf Held.entry f.held < 256 →
        ∃ t : Token, exec (.send cls a b g) s = .next (s.holds (.send (x % 64) t)) ∧ t.net = .scalar ∧ t.lo = f.spanLo ∧
          t.hi = f.spanHi ∧ t.ctx = f.ctx ∧ t.payload = (s.core.reg b).setWidth 512 ∧ t.tag = x / 64 % 1024 ∧ t.valid = 1 ∧
          t.kind = (if ch.data then 0 else 2)) ∧
      (∀ ch, amGet? s.curUnit.conf.chans (x % 64) = some ch →
        (ch.cls ≠ cls.toNat ∨ f.spanHi ≤ f.spanLo ∨ f.spanLo = openHi → exec (.send cls a b g) s = .next (s.takeTrap .reservedField 0)) ∧
        (ch.cls = cls.toNat → f.spanLo < f.spanHi → f.spanLo ≠ openHi → 256 ≤ countIf Held.entry f.held →
          exec (.send cls a b g) s = .next (s.takeTrap .storeBufferFull 0))) ∧
      (amGet? s.curUnit.conf.chans (x % 64) = none → exec (.send cls a b g) s = .next (s.takeTrap .reservedField 0))) ∧
    (s.Executes g [] [] →
      (∀ hc, amGet? s.curUnit.conf.actors h.toNat = some hc →
        exec (.bind cls h g) s = .next (if hc.isTrap then s.takeTrap .reservedField 0 else s.holds (.bind cls.toNat h.toNat))) ∧
      (amGet? s.curUnit.conf.actors h.toNat = none → exec (.bind cls h g) s = .next (s.takeTrap .reservedField 0)) ∧
      exec (.hmask m g) s = .next (s.holds (.mask m)) ∧ exec (.hunmask m g) s = .next (s.holds (.unmask m)))

/-- R311: TAGA takes the lowest tag that selection granted in its space and that the firing has not taken, and traps TAG_INVALID when
none is left; TAGF holds the release of an allocated tag of its space, and traps TAG_INVALID for any other value. -/
def Obligations.TagWordsTakeAndFreeTags : Prop :=
  ∀ (s : State) (d : RegNum) (sp : BitVec 4) (g : Guard),
    let f := s.core.firing
    let free (t : Nat) : Prop := (sp.toNat, t) ∈ f.granted ∧ (sp.toNat, t) ∉ f.taken
    (s.Executes g [] [] →
      (∀ t, free t → (∀ u, free u → t ≤ u) →
        exec (.taga d sp g) s =
          .next (s.setCore { s.core.setReg d (BitVec.ofNat 64 (sp.toNat * 64 + t)) with
            firing := { f with taken := f.taken ++ [(sp.toNat, t)] } }).retire) ∧
      ((∀ t, ¬ free t) → exec (.taga d sp g) s = .next (s.takeTrap .tagInvalid 0))) ∧
    (s.Executes g [d] [] →
      let v := (s.core.reg d).toNat
      exec (.tagf d sp g) s =
        .next (if v / 64 = sp.toNat ∧ tagAllocated s.curUnit f sp.toNat (v % 64) = true then s.holds (.tagFree sp.toNat (v % 64))
          else s.takeTrap .tagInvalid 0))

/-! ## Engines -/

/-- R312, R313: CPY between memories: an aligned, legal source, destination and length are held for the queue while the demand declared
for it is not used up; beyond it the word traps ENGINE_FULL. A tile moves whole, from an accumulator or a plain tile to a ring or a plain tile; one
of another role traps RESERVED_FIELD. R312 to R316, R320: GATH, SCAT, COLL, SIGINC, SIGDEC,
SIGSET and ENQ with legal operands are held for their queue while its demand is not used up, and trap ENGINE_FULL beyond it; QFENCE takes
no entry. SIGINC and SIGDEC by s0 count by one.
Reserved operands, rows and windows of other cells are the model's readings (notes/assumptions/15.md, 35, 94). -/
def Obligations.EngineCommandsAreHeld : Prop :=
  (∀ (s : State) (q : BitVec 4) (a b : RegNum) (g : Guard) (src dst : EngAddr), s.Executes g [a, a + 1, b] [] → a ≠ 31 →
      parseEng (s.core.reg a) = some src → parseEng (s.core.reg b) = some dst →
      let f := s.core.firing
      let len := (s.core.reg (a + 1)).toNat
      let w := (s.core.reg (b + 1)).toNat
      let put (op : EngOp) : State :=
        if heldEngine q.toNat f.held < amGet f.engd q.toNat 0 then s.holds (.engine q.toNat op) else s.takeTrap .engineFull 0
      (src.space ≠ 5 → dst.space ≠ 5 → len < 2 ^ 32 →
        (len % 8 = 0 → src.addr % 8 = 0 → dst.addr % 8 = 0 →
          exec (.cpy q a b false g) s =
            .next (if s.engOk src len && s.engOk dst len then put (.cpy src dst len (w % 2 ^ 40) (w / 2 ^ 40) false)
              else s.takeTrap .spaceBounds 0)) ∧
        (len % 8 ≠ 0 ∨ src.addr % 8 ≠ 0 ∨ dst.addr % 8 ≠ 0 → exec (.cpy q a b false g) s = .next (s.takeTrap .misaligned 0)) ∧
        exec (.cpy q a b true g) s = .next (s.takeTrap .reservedField 0)) ∧
      -- from or to a tile, whole; clr only from an accumulator
      let from' (t : Tile) (clr : Bool) : Prop := t.role = .acc ∨ t.role = .plain ∧ clr = false
      let to' (t : Tile) : Prop := t.role = .plain ∨ t.role = .op ∧ b ≠ 31 ∧ w / 2 ^ 40 ≠ 0
      let held (n : Nat) (clr : Bool) : Prop := exec (.cpy q a b clr g) s = .next (put (.cpy src dst n (w % 2 ^ 40) (w / 2 ^ 40) clr))
      (∀ t clr, src.space = 5 → dst.space ≠ 5 → s.engTile src = some t → from' t clr → dst.addr % 8 = 0 → s.engOk dst t.size = true →
        held t.size clr) ∧
      (∀ t, src.space ≠ 5 → dst.space = 5 → s.engTile dst = some t → to' t → src.addr % 8 = 0 → s.engOk src t.size = true →
        held t.size false) ∧
      (∀ t d clr, src.space = 5 → dst.space = 5 → s.engTile src = some t → s.engTile dst = some d → from' t clr → to' d → held t.size clr) ∧
      ∀ clr, (src.space = 5 ∧ (∀ t, s.engTile src = some t → ¬ from' t clr)) ∨ (dst.space = 5 ∧ (∀ t, s.engTile dst = some t → ¬ to' t)) ∨
          (src.space ≠ 5 ∧ clr = true) →
        exec (.cpy q a b clr g) s = .next (s.takeTrap .reservedField 0)) ∧
  (∀ (s : State) (q : BitVec 4) (a b : RegNum) (m : BitVec 8) (co : CollOp) (g : Guard),
      let f := s.core.firing
      let ra := s.core.reg a
      let ra1 := s.core.reg (a + 1)
      let rb := s.core.reg b
      let rb1 := s.core.reg (b + 1)
      let put (op : EngOp) : State :=
        if heldEngine q.toNat f.held < amGet f.engd q.toNat 0 then s.holds (.engine q.toNat op) else s.takeTrap .engineFull 0
      (s.Executes g [a, a + 1, b, b + 1] [] → a ≠ 31 → b ≠ 31 →
        (∀ dense sparse list e, parseEng rb = some dense → parseEng ra = some sparse → parseEng ra1 = some list →
          (rb1.toNat / 2 ^ 32, e) ∈ [(0, 8), (1, 64), (2, 1024)] →
          let n := rb1.toNat % 2 ^ 32
          dense.space ≠ 5 → sparse.space ≠ 5 → list.space ≤ 1 → 1 ≤ n → n ≤ 65536 → dense.addr % e = 0 → sparse.addr % e = 0 →
          list.addr % 4 = 0 → s.engOk dense (n * e) = true → s.engOk sparse 0 = true → s.engOk list (n * 4) = true →
          exec (.gath q a b g) s = .next (put (.gath sparse list dense n e))) ∧
        (∀ dense sparse list e, parseEng ra = some dense → parseEng rb = some sparse → parseEng rb1 = some list →
          (ra1.toNat / 2 ^ 32, e) ∈ [(0, 8), (1, 64), (2, 1024)] →
          let n := ra1.toNat % 2 ^ 32
          dense.space ≠ 5 → sparse.space ≠ 5 → list.space ≤ 1 → 1 ≤ n → n ≤ 65536 → dense.addr % e = 0 → sparse.addr % e = 0 →
          list.addr % 4 = 0 → s.engOk dense (n * e) = true → s.engOk sparse 0 = true → s.engOk list (n * 4) = true →
          exec (.scat q a b g) s = .next (put (.scat dense sparse list n e))) ∧
        ∀ src dst, parseEng ra = some src → parseEng rb = some dst → src.space ≠ 5 → dst.space ≠ 5 →
          rb1.toNat % 32 < (s.getPad f.pad).conf.folds.length → ra1.toNat % 64 = 0 → src.addr % 8 = 0 → dst.addr % 8 = 0 →
          s.engOk src ra1.toNat = true → s.engOk dst ra1.toNat = true →
          exec (.coll q a b co g) s = .next (put (.coll co src dst ra1.toNat (rb1.toNat % 32)))) ∧
      (s.Executes g [a, b] [] → ∀ e, parseEng ra = some e →
        (e.space = 1 ∨ e.space = 3 → e.addr % 8 = 0 → s.engOk e 8 = true →
          exec (.siginc q a b g) s = .next (put (.sig 0 e (if b = 0 then 1 else rb))) ∧
          exec (.sigdec q a b g) s = .next (put (.sig 1 e (if b = 0 then 1 else rb))) ∧
          exec (.sigset q a b g) s = .next (put (.sig 2 e rb))) ∧
        (e.space ≤ 1 → rb.toNat < 64 → e.addr % 64 = 0 → s.engOk e 64 = true →
          exec (.enq q a b g) s = .next (put (.enq e rb.toNat)))) ∧
      (s.Executes g [] [] →
        exec (.qfence q m g) s =
          .next (s.holds (.qfence q.toNat (((List.range 8).filter fun i => m.getLsbD i).map fun i => 8 * (q.toNat / 8) + i)))))

/-- R173, R317: TQRY reads words W0 to W2 of a tile's entry as they stand (state, stickies, lo and seq, hi); TSET holds a write that
the tile's role allows, and both trap RESERVED_FIELD on a selector with other bits or word 3.
When a held write takes effect is the model's reading (notes/assumptions/34.md). -/
def Obligations.TileEntryWordsReadAndHold : Prop :=
  ∀ (s : State) (a b : RegNum) (g : Guard),
    let x := (s.core.reg a).toNat
    let n := x % 64
    let t : Tile := amGet s.curUnit.tiles n {}
    (s.Executes g [a] [] →
      (∀ w, w < 3 → x = 256 * w + n → ∃ v : DWord, exec (.tqry a b g) s = .next (s.wrote b v) ∧
        (w = 0 → v.toNat / 2 ^ 62 = t.st.code ∧ v.getLsbD 61 = t.err ∧ v.getLsbD 60 = t.exc ∧ v.getLsbD 59 = t.sat) ∧
        (w = 1 → t.lo < 2 ^ 40 → t.seq < 2 ^ 24 → v.toNat = t.lo * 2 ^ 24 + t.seq) ∧
        (w = 2 → t.hi < 2 ^ 40 → v.toNat / 2 ^ 24 = t.hi)) ∧
      (768 ≤ x ∨ x / 64 % 4 ≠ 0 → exec (.tqry a b g) s = .next (s.takeTrap .reservedField 0))) ∧
    (s.Executes g [a, b] [] →
      (∀ w, w < 3 → x = 256 * w + n →
        exec (.tset a b g) s = .next (if tsetOk t w (s.core.reg b).toNat then s.holds (.tset n w (s.core.reg b))
          else s.takeTrap .reservedField 0)) ∧
      (768 ≤ x ∨ x / 64 % 4 ≠ 0 → exec (.tset a b g) s = .next (s.takeTrap .reservedField 0)))

/-! ## Launch words, special registers, services -/

/-- R35, R38, R318: CFGLD with a reserved entry or row traps whatever its guard holds. Else it gives b a status with the cell's site in bits
[31:16], a slot in [15:8] and a code: 2 for a handle that is not valid for the context; 3 while a firing of the entry's configuration, or of the
handle's own on the cell, is in flight; 1 where the handle has no unit for the cell, or where the load is rejected, with the slot; each of
these changes nothing else. Otherwise the code is 0: the configuration that the entry held is swapped out and the handle's unit stands in
the entry, with its configuration, its tiles and the handlers bound that it binds. That the drover's CFGLD and a row past the grid are reserved,
that a shepherd takes the context from the handle, and that a cell without a unit answers slot 0 is the model's choice
(notes/assumptions/31.md). -/
def Obligations.CfgldAnswersItsStatus : Prop :=
  (∀ (s : State) (e : BitVec 4) (a b : RegNum) (row : BitVec 4) (g : Guard), 4 ≤ e.toNat ∨ s.cfgldTarget row = none →
    exec (.cfgld e a b row g) s = .next (s.takeTrap .reservedField 0)) ∧
  ∀ (s : State) (e : BitVec 4) (a b : RegNum) (row : BitVec 4) (g : Guard) (cell : Nat), s.Executes g [a] [] → e.toNat < 4 →
    s.cfgldTarget row = some cell →
    let h := s.core.reg a
    let ctx := if isFirmware s.curCore then h.toNat / 2 ^ 58 else s.core.firing.ctx
    let answer (slot code : Nat) : DWord := BitVec.ofNat 64 (cellSite cell * 2 ^ 16 + slot % 256 * 2 ^ 8 + code)
    let here : List (Nat × UnitSt) := s.units.filter fun x => isCellKey x.1 && idxOf x.1 == cell && x.2.live
    let old := here.find? fun x => x.2.slotNo == some e.toNat
    let mine := here.find? fun x => x.2.handle == h
    let busy := ∃ x, (old = some x ∨ mine = some x) ∧ s.unitBusy x.1 = true
    (s.validHandle h ctx = none → exec (.cfgld e a b row g) s = .next (s.wrote b (answer 0 2))) ∧
    ∀ en, s.validHandle h ctx = some en →
      let conf : Conf := match s.pads.find? fun x => x.2.handle == h with
        | some x => x.2.conf
        | none => en.conf
      (busy → exec (.cfgld e a b row g) s = .next (s.wrote b (answer 0 3))) ∧
      (¬ busy → conf.onCell cell = none → exec (.cfgld e a b row g) s = .next (s.wrote b (answer 0 1))) ∧
      (¬ busy → ∀ l c, conf.onCell cell = some (l, c) →
        let loc : Loc := match mine with
          | some x => Loc.ofKey x.1
          | none => .cell cell (s.freeIndex cell)
        let s1 := match old with
          | some x => if x.1 = loc.key then s else s.swapOut x.1
          | none => s
        (∀ slot, s1.loadReject conf loc c ctx = some slot → exec (.cfgld e a b row g) s = .next (s.wrote b (answer slot 1))) ∧
        (s1.loadReject conf loc c ctx = none →
          ∃ (t : State) (u : UnitSt), exec (.cfgld e a b row g) s = .next t ∧ t.core.reg b = (if b = 0 then 0 else answer 0 0) ∧
            amGet? t.units loc.key = some u ∧ u.live = true ∧ u.handle = h ∧ u.ctx = ctx ∧ u.slotNo = some e.toNat ∧ u.conf = c ∧
            u.tiles = c.tiles ∧ u.bound = c.bound0 ∧
            (∀ x, old = some x → x.1 ≠ loc.key → ∀ v, amGet? t.units x.1 = some v → v.slotNo = none)))

/-- R319: SEED reads its record at issue and holds the token that it describes for a local seed of the cell; an undeclared seed, another space or
row, a record with flag bit 3 or a span that no token may have trap RESERVED_FIELD, an address that is not aligned MISALIGNED, one whose bytes
are not legal SPACE_BOUNDS. R321: COMMIT holds the channels that it names when each is a declared data channel, and traps RESERVED_FIELD
otherwise. With 256 held entries both trap STORE_BUFFER_FULL (R300).
What a record behind a failing line gives is the model's reading (notes/assumptions/33.md). -/
def Obligations.SeedAndCommitAreHeld : Prop :=
  (∀ (s : State) (k : BitVec 4) (a : RegNum) (g : Guard), s.Executes g [a] [] →
    let conf := (s.getPad s.core.firing.pad).conf
    let v := s.core.reg a
    let traps (i : Instr) (c : Cause) : Prop := exec i s = .next (s.takeTrap c 0)
    (isFirmware s.curCore = true ∨ localSeed conf s.curCore k.toNat = none → traps (.seed k a g) .reservedField) ∧
    (∀ i, isFirmware s.curCore = false → localSeed conf s.curCore k.toNat = some i →
      (parseEng v = none → traps (.seed k a g) .reservedField) ∧
      ∀ e : EngAddr, parseEng v = some e →
        let here := e.space = 0 ∧ e.row = rowOf s.curCore ∨ e.space = 1
        let sp : Space := if e.space = 0 then .l else .f
        (¬ here → traps (.seed k a g) .reservedField) ∧
        (here → e.addr % 32 ≠ 0 → traps (.seed k a g) .misaligned) ∧
        (here → e.addr % 32 = 0 → s.spaceAddr sp e.addr 96 = none → traps (.seed k a g) .spaceBounds) ∧
        ∀ x, here → e.addr % 32 = 0 → s.spaceAddr sp e.addr 96 = some x → s.ReadsWell sp x 96 →
          let r := mergeHeld sp s.core.firing.held x (s.readMem sp x 96)
          let good := bitOf (recField r 83 1) 3 = false ∧ recSpanOk r = true
          (¬ good → traps (.seed k a g) .reservedField) ∧
          (good → 256 ≤ countIf Held.entry s.core.firing.held → traps (.seed k a g) .storeBufferFull)) ∧
    let named (n : Nat) : Prop := ∃ ch, amGet? s.curUnit.conf.chans n = some ch ∧ ch.data = true
    ((∃ n, v.getLsbD n = true ∧ ¬ named n) → traps (.commit a g) .reservedField) ∧
    ((∀ n, v.getLsbD n = true → named n) → 256 ≤ countIf Held.entry s.core.firing.held → traps (.commit a g) .storeBufferFull)) ∧
  ∀ (s : State) (k : BitVec 4) (a : RegNum) (g : Guard), s.Executes g [a] [] → countIf Held.entry s.core.firing.held < 256 →
    let conf := (s.getPad s.core.firing.pad).conf
    (∀ i (e : EngAddr) (sp : Space) (x : Nat), isFirmware s.curCore = false → localSeed conf s.curCore k.toNat = some i →
      parseEng (s.core.reg a) = some e → (e.space = 0 ∧ e.row = rowOf s.curCore ∧ sp = .l ∨ e.space = 1 ∧ sp = .f) →
      e.addr % 32 = 0 → s.spaceAddr sp e.addr 96 = some x → s.ReadsWell sp x 96 →
      let r := mergeHeld sp s.core.firing.held x (s.readMem sp x 96)
      bitOf (recField r 83 1) 3 = false → recSpanOk r = true →
      exec (.seed k a g) s = .next (s.holds (.seed i (asSeedToken (conf.seed i) (recToken r))))) ∧
    ((∀ n, (s.core.reg a).getLsbD n = true → ∃ ch, amGet? s.curUnit.conf.chans n = some ch ∧ ch.data = true) →
      exec (.commit a g) s = .next (s.holds (.commitOn (s.core.reg a))))

/-- R349: what MFS reads at each index, on a cell and, for the privileged indices, on a firmware core only. R38, R349, R351, R388: what
MTS writes at each index; a value with a reserved bit traps RESERVED_FIELD; a privileged MTS on a cell traps PRIVILEGE whatever its guard
says. R368: while a live update waits for heartbeats, a write of HBEAT counts its core off, and the last one completes the update. The model's choices: FOLDID of the drover reads 0 (notes/assumptions/81.md), TRAPCAUSE and TRAPPC are those of the firing's context
(notes/assumptions/101.md), CELLID has a row for shepherds and 0 for the drover (notes/assumptions/11.md). -/
def Obligations.SpecialRegistersReadAndTakeTheirValues : Prop :=
  (∀ (s : State) (d : RegNum) (g : Guard), s.Executes g [] [] →
      let k := s.core
      let f := k.firing
      let sel : Ctx := amGet s.ctxs k.ctxSel {}
      (∀ p ∈ [((0x000 : BitVec 12), BitVec.ofNat 64 f.ctx), (0x001, BitVec.ofNat 64 (coreSite s.curCore)), (0x003, BitVec.ofNat 64 f.tag),
          (0x002, if s.curCore < 384 then BitVec.ofNat 64 (s.curCore / 12) else if s.curCore < 416 then BitVec.ofNat 64 (s.curCore - 384) else 0),
          (0x004, BitVec.ofNat 64 f.seq), (0x005, BitVec.ofNat 64 f.spanLo), (0x006, BitVec.ofNat 64 f.spanHi),
          (0x007, amGet (s.getCell s.curCore).fireCnt f.ctx 0), (0x008, BitVec.ofNat 64 f.prio), (0x009, amGet k.trapCause f.ctx 0),
          (0x00A, amGet k.trapPc f.ctx 0), (0x00B, k.errmask), (0x00C, amGet (s.getCell s.curCore).excRec f.ctx 0),
          (0x00D, BitVec.ofNat 64 (amGet s.ctxs f.ctx {}).gen)],
        exec (.mfs d p.1 g) s = .next (s.wrote d p.2)) ∧
      (isFirmware s.curCore = true →
        ∀ p ∈ [((0x800 : BitVec 12), BitVec.ofNat 64 sel.root), (0x801, BitVec.ofNat 64 k.ctxSel), (0x802, k.hbeat),
          (0x803, BitVec.ofNat 64 (s.fwSlot % 2 + if (amGet s.fw (1 - s.fwSlot) {} : FwSlot).verified = true then 2 else 0)),
          (0x804, (amGet s.fw s.fwSlot {} : FwSlot).version), (0x805, BitVec.ofNat 64 sel.stale)],
        exec (.mfs d p.1 g) s = .next (s.wrote d p.2)) ∧
      ∀ idx : BitVec 12, 0x800 ≤ idx.toNat → isFirmware s.curCore = false →
        exec (.mfs d idx g) s = .next (s.takeTrap .reservedField 0)) ∧
  ((∀ (s : State) (idx : BitVec 12) (a : RegNum) (g : Guard), isFirmware s.curCore = false → 0x800 ≤ idx.toNat ∨ idx = 0x00B →
      exec (.mts idx a g) s = .next (s.takeTrap .privilege 0)) ∧
    ∀ (s : State) (a : RegNum) (g : Guard), s.Executes g [a] [] →
      let k := s.core
      let v := k.reg a
      let sel : Ctx := amGet s.ctxs k.ctxSel {}
      (v.toNat < 2 ^ 40 →
        exec (.mts 0x005 a g) s = .next (s.setCore { k with firing := { k.firing with spanLo := v.toNat } }).retire ∧
        exec (.mts 0x006 a g) s = .next (s.setCore { k with firing := { k.firing with spanHi := v.toNat } }).retire) ∧
      (2 ^ 40 ≤ v.toNat → ∀ idx ∈ [(0x005 : BitVec 12), 0x006], exec (.mts idx a g) s = .next (s.takeTrap .reservedField 0)) ∧
      exec (.mts 0x00C a g) s = .next (s.holds .excClear) ∧
      (isFirmware s.curCore = true →
        (v &&& ~~~0x1FE = 0 → exec (.mts 0x00B a g) s = .next (s.setCore { k with errmask := v }).retire) ∧
        (v &&& ~~~0x1FE ≠ 0 → exec (.mts 0x00B a g) s = .next (s.takeTrap .reservedField 0)) ∧
        (v.toNat < 64 → exec (.mts 0x801 a g) s = .next (s.setCore { k with ctxSel := v.toNat }).retire) ∧
        (v.toNat % 2 ^ 16 = 0 → v.toNat < 2 ^ 52 →
          exec (.mts 0x800 a g) s = .next { s with ctxs := amPut s.ctxs k.ctxSel { sel with root := v.toNat } }.retire) ∧
        (v.toNat < 2 ^ 32 →
          exec (.mts 0x805 a g) s = .next { s with ctxs := amPut s.ctxs k.ctxSel { sel with stale := v.toNat } }.retire) ∧
        (64 ≤ v.toNat → exec (.mts 0x801 a g) s = .next (s.takeTrap .reservedField 0)) ∧
        (v.toNat % 2 ^ 16 ≠ 0 ∨ 2 ^ 52 ≤ v.toNat → exec (.mts 0x800 a g) s = .next (s.takeTrap .reservedField 0)) ∧
        (2 ^ 32 ≤ v.toNat → exec (.mts 0x805 a g) s = .next (s.takeTrap .reservedField 0)) ∧
        ((∀ u, s.update = some u → u.started = false) → exec (.mts 0x802 a g) s = .next (s.setCore { k with hbeat := v }).retire) ∧
        ∀ u, s.update = some u → u.started = true →
          let left := u.waiting.filter (· != s.curCore)
          (left ≠ [] → exec (.mts 0x802 a g) s =
            .next { s.setCore { k with hbeat := v } with bmcSlot := s.fwSlot, update := some { u with waiting := left } }.retire) ∧
          (left = [] → ∃ t : State, exec (.mts 0x802 a g) s = .next t ∧ t.core = (s.setCore { k with hbeat := v }).retire.core ∧
            t.bmcSlot = s.fwSlot ∧ t.update = none)))

/-- R38, R352: the services of SYSC; one that is not listed traps RESERVED_FIELD whatever its guard holds. CKPT (R322) is held.
That an unlisted service traps is the model's reading (notes/assumptions/28.md). -/
def Obligations.ServiceCallsDoTheirService : Prop :=
  (∀ (s : State) (d : RegNum) (svc : BitVec 12) (g : Guard), svc = 0 ∨ 5 < svc.toNat →
    exec (.sysc d svc g) s = .next (s.takeTrap .reservedField 0)) ∧
  ∀ (s : State) (d : RegNum) (g : Guard), s.Executes g [d] [] →
    let v := s.core.reg d
    exec (.sysc d 1 g) s = .next (s.wrote d (amGet s.fw s.fwSlot {} : FwSlot).version) ∧
    exec (.sysc d 2 g) s = .next (s.wrote d (BitVec.ofNat 64 s.retired.length)) ∧
    exec (.sysc d 3 g) s = .next (s.holds (.log v)) ∧
    exec (.sysc d 4 g) s = .next (s.holds (.prefault v.toNat)) ∧
    (v.toNat < 8 → (amGet? s.curUnit.conf.barriers v.toNat).isSome = true →
      exec (.sysc d 5 g) s = .next (s.holds (.pbar v.toNat))) ∧
    (8 ≤ v.toNat ∨ amGet? s.curUnit.conf.barriers v.toNat = none → exec (.sysc d 5 g) s = .next (s.takeTrap .reservedField 0)) ∧
    exec (.ckpt g) s = .next (s.holds .ckpt)

/-! ## Traps and the end of a firing -/

/-- R46, R300, R304: TRAP and BRK take the trap with their code, and HALT on a cell traps PRIVILEGE whatever its guard says. Taking a
trap on a cell saves the cause and code in TRAPCAUSE and the word's address in TRAPPC of the firing's context, ends the firing without any of its held
effects, and makes the actor's trap handler runnable with them; without one the paddock faults with TRAP_UNHANDLED. Memory stays. That the two
registers are kept by context, where R46 speaks of the last trap of the cell, is the model's choice (notes/assumptions/101.md). -/
def Obligations.TrapsSaveTheirCauseAndPc : Prop :=
  (∀ (s : State) (d : RegNum) (code : BitVec 12) (g : Guard), s.Executes g [] [] →
    exec (.trap d code g) s = .next (s.takeTrap .trapWord code) ∧ exec (.brk code g) s = .next (s.takeTrap .breakpt code)) ∧
  (∀ (s : State) (g : Guard), isFirmware s.curCore = false → exec (.halt g) s = .next (s.takeTrap .privilege 0)) ∧
  ∀ (s : State) (c : Cause) (code : BitVec 12), isFirmware s.curCore = false → (c = .breakpt → s.breaksFiring s.curCore = false) →
    let t := s.takeTrap c code
    let f := s.core.firing
    let cause : DWord := amGet t.core.trapCause f.ctx 0
    cause.toNat = c.code + code.toNat * 2 ^ 16 ∧ amGet t.core.trapPc f.ctx 0 = s.core.pc ∧
    (∀ x, x ≠ f.ctx → amGet t.core.trapCause x 0 = amGet s.core.trapCause x 0 ∧ amGet t.core.trapPc x 0 = amGet s.core.trapPc x 0) ∧
    t.core.running = false ∧
    t.core.firing = {} ∧ t.core.regs = [] ∧ t.core.preds = [] ∧ t.core.errmask = s.core.errmask ∧
    (∀ sp a, (t.mem sp).get a = (s.mem sp).get a) ∧ t.engines = s.engines ∧ t.groups = s.groups ∧
    (∀ x, x ≠ s.curCore → t.coreOf x = s.coreOf x) ∧
    (∀ h, s.curUnit.trapHandler f = some h →
      (amGet (t.getU s.curUnitKey).actors h {}).traps =
        (amGet s.curUnit.actors h {}).traps ++ [⟨cause, s.core.pc, f.handler, f.tag, f.seq, f.spanLo, f.spanHi⟩]) ∧
    (s.curUnit.trapHandler f = none →
      ∃ r, r.code = 1 ∧ r.ctx = f.ctx ∧ r.cause = cause.toNat ∧ r.aux = s.core.pc ∧ r.tag = f.tag ∧ r.seq = f.seq ∧
        (Event.mk (.paddockFault f.pad r) {}) ∈ t.events)

/-- R211, R212, R217, R266, R303, R307 to R309, R311, R319, R321, R349, R351: FIN of a cell's firing. Where its tokens find no room in the output
ports, or its stores to S neither a permit nor a reply to wait for, the core waits at the FIN. Else the firing ends and everything that it holds
has its effect, whatever stands beside it: the bytes of L and F are those of the youngest store to them; the stores to each slice are in
flight as one group, in their order; buffer pointers have moved by the firing's advances modulo 2³²; a tag is allocated that was or that TAGA took,
unless TAGF freed it; each class is bound to the last handler that BIND names, the masks are set and cleared in order, each tile takes what TSET
holds for it, a held write of EXCREC has cleared it; each engine command stands behind its queue's others; each SEND's and SEED's token and
COMMIT's commit tokens have left, numbered behind those held before them, and the actor has a snapshot for each COMMIT; each PBAR has sent its
barrier up the tree with its generation, LOG's values stand in the context's ring as far as it has room, a PREFAULT has asked for its page as the
walk says, CKPT is noted; FIRECNT counts the firing. HALT on a firmware core (R304) stops the core.
Groups in flight are the model's reading (notes/assumptions/27.md); that 0 follows the number 2^24 − 1 is its choice (notes/assumptions/106.md). -/
def Obligations.FinCommitsTheHeldStores : Prop :=
  (∀ (s : State) (g : Guard), s.Executes g [] [] → isFirmware s.curCore = false →
    let f := s.core.firing
    let key := s.curUnitKey
    let u := s.curUnit
    let waits := (u.outFull && f.held.any Held.sends) || f.held.any fun h => match h with
      | .store .s a _ => s.sliceFull f.pad s.curCore (sliceOfAddr a)
      | _ => false
    let s1 := s.setCore { s.core with finWait := true }
    let left (t : State) (d : Dest) (p : Token → Prop) : Prop :=
      d ≠ .nowhere → ∃ h : Hop, Event.mk (.switchTokenCheck h) {} ∈ t.events ∧ h.ends = [d] ∧ p h.tok
    (waits = true → exec (.fin g) s = .next (if u.outFull = true then s1 else s1.post (.finPortRelease s.curCore))) ∧
    (waits = false →
      ∃ t : State, exec (.fin g) s = .next t ∧ t.core.running = false ∧ t.core.firing = {} ∧ t.core.regs = [] ∧
        amGet (t.getCell s.curCore).fireCnt f.ctx 0 = amGet (s.getCell s.curCore).fireCnt f.ctx 0 + 1 ∧
        -- stores
        (∀ sp ∈ [Space.l, .f], ∀ a, (t.mem sp).get a = (heldByte sp a f.held).getD ((s.mem sp).get a)) ∧
        ((∀ sp sc, Held.release sp sc ∉ f.held) →
          (∀ a bs, Held.store .s a bs ∈ f.held → s.permitFree f.pad (permitKey (foldOf s.curCore) (sliceOfAddr a) 0) = true) →
          t.memS = s.memS ∧ ∃ gs : List SGroup, t.groups = s.groups ++ gs ∧ (gs.map (·.slice)).Nodup ∧
            (∀ x ∈ gs, x.cell = s.curCore ∧ x.pad = f.pad ∧ x.stores ≠ [] ∧ x.stores = f.held.filterMap fun h => match h with
              | .store .s a bs => if sliceOfAddr a = x.slice then some (a, bs) else none
              | _ => none) ∧
            ∀ a bs, Held.store .s a bs ∈ f.held → ∃ x ∈ gs, x.slice = sliceOfAddr a) ∧
        -- buffers
        (∀ p name, amGet? s.pads u.pad = some p →
          let moved (w : Bool) : Nat := f.held.foldl (fun n h => match h with
            | .advp b k => if w && (amGet u.conf.bufs b {} : BufConf).name == name then n + k else n
            | .advc b k => if !w && (amGet u.conf.bufs b {} : BufConf).name == name then n + k else n
            | _ => n) 0
          let old : BufSt := amGet p.bufs name {}
          let new : BufSt := amGet (t.getPad u.pad).bufs name {}
          (old.prod < 2 ^ 32 → new.prod = (old.prod + moved true) % 2 ^ 32) ∧ (old.cons < 2 ^ 32 → new.cons = (old.cons + moved false) % 2 ^ 32)) ∧
        -- tags, bindings, masks, EXCREC
        (∀ sp tag, tag ∈ (amGet (t.getU key).tags sp {} : TagSt).alloc ↔
          (tag ∈ (amGet u.tags sp {} : TagSt).alloc ∨ (sp, tag) ∈ f.taken) ∧ Held.tagFree sp tag ∉ f.held) ∧
        (∀ c, amGet? (t.getU key).bound c = (f.held.reverse.findSome? fun h => match h with
          | .bind k x => if k = c then some x else none
          | _ => none).or (amGet? u.bound c)) ∧
        (t.getU key).masked = f.held.foldl (fun m h => match h with
          | .mask x => m ||| x
          | .unmask x => m &&& ~~~x
          | _ => m) u.masked ∧
        (Held.excClear ∈ f.held → amGet (t.getCell s.curCore).excRec f.ctx 0 = 0) ∧
        -- engine commands
        (∀ q, q < 16 → ∃ new : List EngCmd,
          amGet t.engines (queueKey (foldOf s.curCore) q) [] = amGet s.engines (queueKey (foldOf s.curCore) q) [] ++ new ∧
          (new.map (·.op) = f.held.filterMap fun h => match h with
            | .engine k op => if k = q then some op else none
            | _ => none) ∧
          ∀ c ∈ new, c.cell = s.curCore ∧ c.pad = f.pad ∧ c.ctx = f.ctx ∧ c.handler = f.handler ∧ c.started = false ∧ c.done = false) ∧
        -- tile entries
        (∀ n, amGet (t.getU key).tiles n {} = f.held.foldl (fun (x : Tile) h => match h with
          | .tset k w v => if k = n then x.tset w v else x
          | _ => x) (amGet u.tiles n {})) ∧
        -- tokens
        (∀ n k (before after : List Held), f.held = before ++ .send n k :: after →
          let ch : ChanConf := amGet u.conf.chans n {}
          let here (l : List Held) : Nat := countIf (fun h => match h with
            | .send m x => m * 1024 + x.tag == n * 1024 + k.tag
            | _ => false) l
          let first := amGet u.chanSeq (n * 1024 + k.tag) 0
          let marked := before.foldl (fun b h => match h with
            | .send m _ => b && !(m == n && ch.data)
            | .commitOn v => b || decide (n < 64) && v.getLsbD n
            | _ => b) (u.chanMark.contains n)
          amGet (t.getU key).chanSeq (n * 1024 + k.tag) 0 = (first + here f.held) % 2 ^ 24 ∧
            left t ch.dest fun x => x.payload = k.payload ∧ x.lo = k.lo ∧ x.hi = k.hi ∧ x.tag = k.tag ∧
              x.seq = (if here before = 0 then first else (first + here before) % 2 ^ 24) ∧ x.commit = (ch.data && marked)) ∧
        (∀ p i k (before after : List Held), f.held = before ++ .seed i k :: after → amGet? s.pads f.pad = some p →
          let here (l : List Held) : Nat := countIf (fun h => match h with
            | .seed j _ => j == i
            | _ => false) l
          let st : SeedSt := amGet p.seeds i {}
          (amGet (t.getPad f.pad).seeds i {} : SeedSt).next = st.next + here f.held ∧
            left t (p.conf.seed i).dest fun x => x.payload = k.payload ∧ x.lo = k.lo ∧ x.hi = k.hi ∧ x.tag = k.tag ∧
              x.seq = (st.next + here before) % 2 ^ 24 ∧ x.ctx = p.ctx) ∧
        (∀ p v (before after : List Held), f.held = before ++ .commitOn v :: after → amGet? s.pads f.pad = some p →
          let here (l : List Held) : Nat := countIf (fun h => match h with
            | .commitOn _ => true
            | _ => false) l
          let first := (amGet u.actors f.handler {} : ActorSt).commits
          let c := first + here before + 1
          (amGet (t.getU key).actors f.handler {} : ActorSt).commits = first + here f.held ∧
          (∃ x ∈ (t.getPad f.pad).snapActors, x.commit = c ∧ x.handler = f.handler) ∧
          ∀ n, n < 64 → v.getLsbD n = true → (∀ k, Held.send n k ∉ before) → left t (amGet u.conf.chans n {} : ChanConf).dest fun x =>
            x.net = .control ∧ x.kind = 1 ∧ x.cnum = c ∧ (x.tag, x.seq) = amGet u.chanLast n (0, 0)) ∧
        -- arrivals and services
        (∀ n (before after : List Held), f.held = before ++ .pbar n :: after →
          let here (l : List Held) : Nat := countIf (fun h => match h with
            | .pbar m => m == n
            | _ => false) l
          let first := amGet u.arrivals n 0
          amGet (t.getU key).arrivals n 0 = (first + here f.held) % 2 ^ 24 ∧
            left t (.root u.pad n ((s.getPad u.pad).unitIndex (Loc.ofKey key))) fun x =>
              x.net = .control ∧ x.kind = 3 ∧ x.seq = if here before = 0 then first else (first + here before) % 2 ^ 24) ∧
        (let ring := (amGet s.ctxs f.ctx {} : Ctx).log
          let logged := f.held.filterMap fun h => match h with
            | .log v => some ({ kind := 1, data := v, site := cellSite (idxOf key) } : LogEntry)
            | _ => none
          (amGet t.ctxs f.ctx {} : Ctx).log = ring ++ logged.take (4096 - ring.length)) ∧
        (∀ va, (f.held.filter fun h => match h with
            | .prefault _ => true
            | _ => false) = [.prefault va] → (∀ a bs, Held.store .m a bs ∉ f.held) →
          ∃ s2 : State, s2.memM = s.memM ∧ s2.prgs = s.prgs ∧ s2.prgNext = s.prgNext ∧
            (∀ c, (amGet s2.ctxs c {} : Ctx).root = (amGet s.ctxs c {} : Ctx).root) ∧
            t.prgs = if va < 2 ^ 56 ∧ (s2.walk f.ctx va).2 = .notValid ∧ s.prgs.length < 512 then
                amPut s.prgs s.prgNext { ctx := f.ctx, gen := (amGet s2.ctxs f.ctx {} : Ctx).gen, va := pageOf va, node := 0xFFFF }
              else s.prgs) ∧
        (Held.ckpt ∈ f.held → ∀ p, amGet? s.pads f.pad = some p → (t.getPad f.pad).ckpt = true))) ∧
  ∀ (s : State) (g : Guard), s.Executes g [] [] → isFirmware s.curCore = true →
    exec (.halt g) s = .next (s.setCore { s.core with halted := true, running := false })

/-! ## Slot firings -/

/-- R72 to R75: the next firing of a slot under a tag is, among the choices of overlapping determined segments, one of them a real token,
that are not taken yet, one with the least intersection; its result has that intersection, the firing's tag and its context, and the
exception and sat flags of its segments. There is a next firing wherever a choice with a real token is not taken yet. -/
def Obligations.NextFiringIsTheLeastIntersection : Prop :=
  (∀ (e : SlotEnv) (st : SlotSt) (tag : Nat),
    (∃ d ∈ choices (e.nets.map fun f => (f, (st.field f tag).segs (fillOf e.instr f (e.hdr.gap f)))), d.real = true ∧ amGet st.doneTo tag 0 ≤ d.lo) →
    (e.next st tag).isSome = true) ∧
  ∀ (e : SlotEnv) (st : SlotSt) (ctx tag : Nat) (c : Choice), e.next st tag = some c →
    let all := choices (e.nets.map fun f => (f, (st.field f tag).segs (fillOf e.instr f (e.hdr.gap f))))
    c ∈ all ∧ c.real = true ∧ amGet st.doneTo tag 0 ≤ c.lo ∧ (e.nets ≠ [] → c.lo < c.hi) ∧
    (∀ d ∈ all, d.real = true → amGet st.doneTo tag 0 ≤ d.lo → c.lo ≤ d.lo) ∧
    (∀ p ∈ c.segs, p.2.lo ≤ c.lo ∧ c.hi ≤ p.2.hi) ∧
    let fi := e.fire ctx tag c
    fi.out.lo = c.lo ∧ fi.out.hi = c.hi ∧ fi.out.tag = tag ∧ fi.out.ctx = ctx ∧
    (fi.out.exc = true ↔ ∃ p ∈ c.segs, (segTok (operandTy e.instr e.hdr) c.lo c.hi p.2).exc = true) ∧
    (fi.out.sat = true ↔ ∃ p ∈ c.segs, (segTok (operandTy e.instr e.hdr) c.lo c.hi p.2).sat = true)

/-- R143: a firing with an error-flagged segment computes nothing: every output stream of an element operation that keeps no state gets one
error-tagged token with no valid lane, whose span is the intersection by the model's choice (notes/assumptions/45.md). The operations left
out keep state or a tile (sums, chained recurrences, CARRY), or have a rule of their own for such a firing (TEAR, MUSTER, TROW, UPDN, LDSC,
STSC). R142: a firing whose gate is closed is taken and puts out nothing. -/
def Obligations.ErrorSegmentsAndClosedGates : Prop :=
  ∀ (s : State) (e : SlotEnv) (c : Choice), s.slotEnv s.curLoc.key s.curSlot = some e → s.mayFire s.curLoc.key = true →
    e.next (s.slotSt s.curLoc.key s.curSlot) s.curTag = some c → s.fireBreak e s.curTag c.lo = false →
    c.faultTok = none →
    ∀ i, e.instr = i → i.ew?.isSome = true → i.keepsState = false → e.chainTile = none →
    (∀ y : EW, i ∉ [.carry y, .tear y, .muster y, .trow y, .updn y, .ldsc y, .stsc y]) →
    (∀ t ts, e.errSegs (operandTy e.instr e.hdr) c = t :: ts →
      ∃ o : Token, o.err = true ∧ o.cause = t.cause ∧ o.valid = 0 ∧ o.lo = c.lo ∧ o.hi = c.hi ∧ o.tag = s.curTag ∧
        exec i s = .next (s.taken e s.curTag c.hi (e.streams.map fun k => (k, { tok := o, basis := c.hi })))) ∧
    (e.errSegs (operandTy e.instr e.hdr) c = [] → e.gateOpen (s.firing e c) = false →
      exec i s = .next (s.taken e s.curTag c.hi []))

/-- R92 to R96, R144, R150, R153: floating-point element operations: each valid element is formed exactly from the elements of l and r and
rounded once. VRSQ, VEXP2, VLOG2, VTANH and VSIG are rounded from a value that is formed to 320 bits, by the model's choice
(notes/assumptions/58.md). -/
def Obligations.FloatElementOperations : Prop :=
  ∀ (s : State) (e : SlotEnv) (c : Choice) (x : EW), s.Fires e c →
    let l := (s.firing e c).l
    let r := (s.firing e c).r
    let fm := fmtOf x.ty
    let w := elWidth x.ty false
    let rm := mdRM x.md
    let ftz := mdFtz x.md
    let a (j : Nat) : FV := readEl fm ftz (elAt w l.payload j)
    let b (j : Nat) : FV := readEl fm ftz (elAt w r.payload j)
    (∀ p ∈ [(Instr.vadd x, fun y z : FV => y.add rm z), (.vsub x, fun y z => y.add rm z.negate), (.vmul x, FV.mul), (.vdiv x, FV.div)],
      ∃ o : LaneRes, exec p.1 s = .next (s.emits e c o) ∧
        o.Elementwise w (l.valid &&& r.valid) l.reset fun j => roundEl fm rm ftz (p.2 (a j) (b j))) ∧
    (∀ p ∈ [(Instr.vrcp x, FV.div .one), (.vrsq x, FV.rsqrt), (.vsqrt x, FV.sqrt), (.vexp2 x, fun y => (y.exp2, false)), (.vlog2 x, FV.log2),
        (.vtanh x, fun y => (y.tanh, false)), (.vsig x, fun y => (y.sigmoid, false))],
      ∃ o : LaneRes, exec p.1 s = .next (s.emits e c o) ∧
        o.Elementwise w l.valid l.reset fun j => roundEl fm rm ftz (p.2 (a j))) ∧
    (∃ o : LaneRes, exec (.vround x) s = .next (s.emits e c o) ∧
      o.Elementwise w l.valid l.reset fun j => { roundEl fm rm ftz ((a j).rint rm, false) with exc := false }) ∧
    (∃ o : LaneRes, exec (.vclass x) s = .next (s.emits e c o) ∧
      o.Elementwise w l.valid l.reset fun j => { bits := 2 ^ classOf fm (elAt w l.payload j) }) ∧
    (∀ p ∈ [(Instr.vabs x, fun v : Nat => v % fm.signBit), (.vneg x, fun v => (v + fm.signBit) % (2 * fm.signBit))],
      ∃ o : LaneRes, exec p.1 s = .next (s.emits e c o) ∧
        o.Elementwise w l.valid l.reset fun j =>
          let v := fm.flush ftz (elAt w l.payload j)
          { bits := if (fm.decode v).isNan then fm.nanCode else p.2 v }) ∧
    ∀ p ∈ [(Instr.vmin x, false), (.vmax x, true)],
      ∃ o : LaneRes, exec p.1 s = .next (s.emits e c o) ∧
        o.Elementwise w (l.valid &&& r.valid) l.reset fun j =>
          let v := fm.flush ftz (elAt w l.payload j)
          let u := fm.flush ftz (elAt w r.payload j)
          { bits := match (a j).cmp (b j) with
              | none => fm.nanCode
              | some .lt => if p.2 then u else v
              | some .gt => if p.2 then v else u
              | some .eq => if (a j).isNeg = p.2 then u else v }

/-- R92: rounding a value that its format holds gives its code back, with no condition, in every mode. -/
def Obligations.RoundingKeepsRepresentableValues : Prop :=
  ∀ f ∈ [Fmt.f64, .f32, .bf16, .f16, .f8e4, .f8e5], ∀ (rm : RM) (code : Nat), code < 2 * f.signBit →
    (f.decode code).isNan = false → f.round rm false (f.decode code) = (code, false)

/-- R91, R152: VCVT: where the destination has as many elements as the source or fewer, element j comes from source element p × nd + j; where it
has more, part p of them comes from the source in order. A destination lane is valid only if everything that supplies it is; its reset
bit is the OR of those that supply it, or l's where the counts are equal. Each valid element is converted as the two types say: float to
float by rounding, float to integer by rounding to an integer and the mode (a NaN, and in a wrap mode an infinity, gives zero and is
invalid), an integer by rounding or the mode; the conditions of the valid elements are the token's. -/
def Obligations.ConversionsTakeTheirPart : Prop :=
  (∀ (s : State) (e : SlotEnv) (c : Choice) (x : EW), s.Fires e c →
    let l := (s.firing e c).l
    let src := e.hdr.stype
    let alt := mdAlt x.md && x.ty == .i32
    let ws := elWidth src false
    let wd := elWidth x.ty alt
    let ns := elCount ws
    let nd := elCount wd
    let p := if e.hdr.csel = 2 then laneAt e.constR 0 % 8 else 0
    let comes (j k : Nat) : Prop := if nd ≤ ns then k = p * nd + j else p * ns ≤ j ∧ j < p * ns + ns ∧ k = j - p * ns
    let stands (w k i : Nat) : Prop := if w = 64 then i / 2 = k else i = k * w / 32
    let conv (k : Nat) : El := convEl src x.ty alt x.md (elAt ws l.payload k)
    ∃ o : LaneRes, exec (.vcvt x) s = .next (s.emits e c o) ∧
      (∀ i, i < 16 → (o.valid.getLsbD i = true ↔
        ∀ j, stands wd j i → ∃ k, comes j k ∧ ∀ y, stands ws k y → l.valid.getLsbD y = true)) ∧
      (ns = nd → o.reset = l.reset) ∧
      (ns ≠ nd → ∀ i, i < 16 → (o.reset.getLsbD i = true ↔
        ∃ j k y, stands wd j i ∧ comes j k ∧ stands ws k y ∧ l.reset.getLsbD y = true)) ∧
      (nd ≤ ns → ∀ j, j < nd → elAt wd o.payload j = if elValid wd o.valid j then (conv (p * nd + j)).bits % 2 ^ wd else 0) ∧
      (ns < nd → ∀ j, j < nd → elAt wd o.payload j =
        if elValid wd o.valid j ∧ p * ns ≤ j ∧ j < p * ns + ns then (conv (j - p * ns)).bits % 2 ^ wd else 0) ∧
      (o.exc = true ↔ ∃ j k, j < nd ∧ comes j k ∧ elValid wd o.valid j = true ∧ (conv k).exc = true) ∧
      (o.sat = true ↔ ∃ j k, j < nd ∧ comes j k ∧ elValid wd o.valid j = true ∧ (conv k).sat = true)) ∧
  ∀ (src dst : Ty) (alt : Bool) (md : BitVec 4) (code : Nat),
    let v := readEl (fmtOf src) (mdFtz md) code
    let n := asInt (elWidth src false) code
    let wd := elWidth dst alt
    let m := mdRm md
    let y := convEl src dst alt md code
    let float (w : FV) : El := roundEl (fmtOf dst) (mdRM md) (mdFtz md) (w, false)
    (isFloatTy src = true → isFloatTy dst = true → y = float v) ∧
    (isFloatTy src = true → isFloatTy dst = false →
      (v = .nan → y = { bits := 0, exc := true }) ∧
      (∀ neg, v = .inf neg → y = if m < 2 then { bits := 0, exc := true } else modeEl m wd (if neg = true then -2 ^ 64 else 2 ^ 64)) ∧
      ∀ neg a k rest, v.rint .rne = .fin neg a k rest → y = modeEl m wd (finInt neg a k 0)) ∧
    (isFloatTy src = false → isFloatTy dst = true → y = float (.fin (decide (n < 0)) n.natAbs 0 false)) ∧
    (isFloatTy src = false → isFloatTy dst = false → y = modeEl m wd n)

/-- R147, R151, R156: VMAC, VFMAK and VIMAC keep an accumulator for each element and tag: a set reset bit of l empties it first, by the model's
choice also where the element is not valid in l (notes/assumptions/46.md); elements valid in l and r are added (VMAC and VIMAC round or wrap
the product, then the sum; VFMAK rounds once), and the result shows it. -/
def Obligations.AccumulatorsAddAndEmpty : Prop :=
  ∀ (s : State) (e : SlotEnv) (c : Choice) (x : EW), s.Fires e c →
    let l := (s.firing e c).l
    let r := (s.firing e c).r
    let fm := fmtOf x.ty
    let rm := mdRM x.md
    let ftz := mdFtz x.md
    let m := mdRm x.md
    let wi := elWidth x.ty (mdAlt x.md)
    let rd (v : Nat) : FV := readEl fm ftz v
    ∀ p ∈ [(Instr.vmac x, elWidth x.ty false, fun (old : Option Nat) (y z : Nat) =>
          (roundEl fm rm ftz ((rd (old.getD 0)).add rm (rd (roundEl fm rm ftz ((rd y).mul (rd z))).bits))).bits),
        (.vfmak x, elWidth x.ty false, fun old y z => (roundEl fm rm ftz (FV.fma rm (rd y) (rd z) (rd (old.getD 0)))).bits),
        (.vimac x, wi, fun old y z =>
          (modeEl m wi (readInt m wi (old.getD 0) + readInt m wi (modeEl m wi (readInt m wi y * readInt m wi z)).bits)).bits)],
      let w := p.2.1
      let a : AccSt := amGet (s.slotSt e.key e.slot).acc s.curTag {}
      ∃ (b : AccSt) (t : Token),
        exec p.1 s = .next ((s.updSlot e.key e.slot fun st => { st with acc := amPut st.acc s.curTag b }).emitsTok e c t) ∧
        t.lo = c.lo ∧ t.hi = c.hi ∧ t.tag = s.curTag ∧ (e.hdr.net ≠ 1 → t.payload = b.payload ∧ t.valid = b.valid) ∧
        (a.tainted = true → t.err = true ∧ t.cause = a.cause) ∧
        ∀ j, j < elCount w →
          let old := if elValid w a.valid j && !elReset w l.reset j then some (elAt w a.payload j) else none
          let ok := elValid w (l.valid &&& r.valid) j
          elValid w b.valid j = (ok || old.isSome) ∧
          elAt w b.payload j = (if ok then p.2.2 old (elAt w l.payload j) (elAt w r.payload j) else old.getD 0) % 2 ^ w

/-- R98, R144, R154, R155: integer element operations under their mode (wrap or clamp, signed or unsigned). -/
def Obligations.IntegerElementOperations : Prop :=
  ∀ (s : State) (e : SlotEnv) (c : Choice) (x : EW), s.Fires e c →
    let l := (s.firing e c).l
    let r := (s.firing e c).r
    let w := elWidth x.ty (mdAlt x.md)
    let m := mdRm x.md
    let a (j : Nat) : Nat := elAt w l.payload j
    let b (j : Nat) : Nat := elAt w r.payload j
    let ia (j : Nat) : Int := if m % 2 = 0 then (BitVec.ofNat w (a j)).toInt else (a j : Nat)
    let ib (j : Nat) : Int := if m % 2 = 0 then (BitVec.ofNat w (b j)).toInt else (b j : Nat)
    (∀ p ∈ [(Instr.viadd x, fun j => modeEl m w (ia j + ib j)), (.visub x, fun j => modeEl m w (ia j - ib j)),
        (.vimul x, fun j => modeEl m w (ia j * ib j)), (.vmulh x, fun j => { bits := ((ia j * ib j) / 2 ^ w % 2 ^ w).toNat }),
        (.vimin x, fun j => { bits := if ia j ≤ ib j then a j else b j }), (.vimax x, fun j => { bits := if ia j ≤ ib j then b j else a j }),
        (.vand x, fun j => { bits := a j &&& b j }), (.vor x, fun j => { bits := a j ||| b j }), (.vxor x, fun j => { bits := a j ^^^ b j }),
        (.vshl x, fun j => { bits := if w ≤ b j then 0 else a j * 2 ^ b j % 2 ^ w }),
        (.vshr x, fun j => { bits := if w ≤ b j then 0 else a j / 2 ^ b j }),
        (.vsra x, fun j => { bits := ((BitVec.ofNat w (a j)).toInt / 2 ^ min (b j) w % 2 ^ w).toNat })],
      ∃ o : LaneRes, exec p.1 s = .next (s.emits e c o) ∧ o.Elementwise w (l.valid &&& r.valid) l.reset p.2) ∧
    ∀ p ∈ [(Instr.viabs x, fun j => if m % 2 = 1 then { bits := a j } else modeEl m w (ia j).natAbs),
        (.vclz x, fun j => { bits := if a j = 0 then w else w - 1 - (a j).log2 }),
        (.vpopc x, fun j => { bits := ((List.range w).filter fun i => (a j).testBit i).length })],
      ∃ o : LaneRes, exec p.1 s = .next (s.emits e c o) ∧ o.Elementwise w l.valid l.reset p.2

/-- R157: VCMP: all ones where the condition holds and zero where it does not; an ordered compare with a NaN is invalid. -/
def Obligations.VectorComparesGiveMasks : Prop :=
  ∀ (s : State) (e : SlotEnv) (c : Choice) (x : EW), s.Fires e c →
    let l := (s.firing e c).l
    let r := (s.firing e c).r
    let w := elWidth x.ty false
    let k := x.md.toNat
    let fa (j : Nat) : FV := (fmtOf x.ty).decode (elAt w l.payload j)
    let fb (j : Nat) : FV := (fmtOf x.ty).decode (elAt w r.payload j)
    let ia (j : Nat) : Int := if k < 8 then (BitVec.ofNat w (elAt w l.payload j)).toInt else (elAt w l.payload j : Nat)
    let ib (j : Nat) : Int := if k < 8 then (BitVec.ofNat w (elAt w r.payload j)).toInt else (elAt w r.payload j : Nat)
    let mask (b : Bool) : Nat := if b then 2 ^ w - 1 else 0
    ∃ o : LaneRes, exec (.vcmp x) s = .next (s.emits e c o) ∧ o.valid = pairValid w (l.valid &&& r.valid) ∧
      ∀ j, j < elCount w → elValid w o.valid j = true →
        (isFloatTy x.ty = false → k ∉ [6, 7, 12, 13, 14, 15] →
          elAt w o.payload j = mask (match k with
            | 0 => ia j = ib j
            | 1 => ia j ≠ ib j
            | 2 | 8 => ia j < ib j
            | 3 | 9 => ia j ≤ ib j
            | 4 | 10 => ib j < ia j
            | _ => ib j ≤ ia j)) ∧
        (isFloatTy x.ty = true → k < 8 →
          elAt w o.payload j = mask (match (fa j).cmp (fb j) with
            | none => k = 1 ∨ k = 6
            | some .lt => k = 1 ∨ k = 2 ∨ k = 3 ∨ k = 7
            | some .eq => k = 0 ∨ k = 3 ∨ k = 5 ∨ k = 7
            | some .gt => k = 1 ∨ k = 4 ∨ k = 5 ∨ k = 7) ∧
          ((fa j).cmp (fb j) = none → 2 ≤ k → k ≤ 5 → o.exc = true))

/-- R158 to R163: VSEL, STEER, MERGE, VMASK, COMPACT and EXPAND lane by lane, VANY's predicate. The lanes of an f64 VSEL pair are valid together,
and a MERGE lane that is valid in neither field has zero bits, by the model's choice (notes/assumptions/45.md, notes/assumptions/87.md). R170: GATE passes l over the intersection,
CAND and COR join two control tokens. -/
def Obligations.SteerAndControlOperations : Prop :=
  (∀ (s : State) (e : SlotEnv) (c : Choice) (x : EW), s.Fires e c →
      let l := (s.firing e c).l
      let r := (s.firing e c).r
      let p := (s.firing e c).p
      let on (i : Nat) : Bool := laneAt r.payload i != 0
      let none' : Lane := {}
      (∃ o : LaneRes, exec (.vsel x) s = .next (s.emits e c o) ∧
        let w := selWidth x
        let useL (j : Nat) : Prop := elAt w p.payload j ≠ 0
        let lane (i : Nat) (js : Nat → Prop) : Prop := p.valid.getLsbD i = true ∧
          ((∃ j, j < elCount w ∧ js j ∧ useL j) → l.valid.getLsbD i = true) ∧ ((∃ j, j < elCount w ∧ js j ∧ ¬ useL j) → r.valid.getLsbD i = true)
        (∀ j, j < elCount w → elAt w o.payload j = if useL j then elAt w l.payload j else elAt w r.payload j) ∧
        ∀ i, i < 16 →
          (w ≠ 64 → (o.valid.getLsbD i = true ↔ lane i fun j => j * w / 32 = i)) ∧
          (w = 64 → (o.valid.getLsbD i = true ↔ lane (i / 2 * 2) (· = i / 2) ∧ lane (i / 2 * 2 + 1) (· = i / 2))) ∧
          o.reset.getLsbD i = if useL (i * 32 / w) then l.reset.getLsbD i else r.reset.getLsbD i) ∧
      (∃ a b : LaneRes, exec (.steer x) s = .next (s.emitsTwo e c a b) ∧ a.payload = l.payload ∧ b.payload = l.payload ∧
        a.reset = l.reset ∧ b.reset = l.reset ∧
        ∀ i, i < 16 → a.valid.getLsbD i = (l.valid.getLsbD i && r.valid.getLsbD i && on i) ∧
          b.valid.getLsbD i = (l.valid.getLsbD i && r.valid.getLsbD i && !on i)) ∧
      (∃ o : LaneRes, exec (.merge x) s = .next (s.emits e c o) ∧
        o.Lanes fun i => if l.valid.getLsbD i then laneOf l i else if r.valid.getLsbD i then laneOf r i else none') ∧
      (∃ o : LaneRes, exec (.vmask x) s = .next (s.emits e c o) ∧ o.payload = l.payload ∧ o.reset = l.reset ∧
        ∀ i, i < 16 → o.valid.getLsbD i = (l.valid.getLsbD i && r.valid.getLsbD i && on i)) ∧
      (x.ty ≠ .f64 → ∃ a b : LaneRes, exec (.compact x) s = .next (s.emitsTwo e c a b) ∧
        let moved := ((List.range 16).map (laneOf l) ++ (List.range 16).map (laneOf r)).filter (·.valid)
        a.Lanes (fun i => nthD moved i none') ∧ b.Lanes fun i => nthD moved (i + 16) none') ∧
      (x.ty = .f64 → ∃ a b : LaneRes, exec (.compact x) s = .next (s.emitsTwo e c a b) ∧
        let pairs (t : Token) : List (Lane × Lane) := (List.range 8).map fun i => (laneOf t (2 * i), laneOf t (2 * i + 1))
        let moved := (pairs l ++ pairs r).filter fun y => y.1.valid && y.2.valid
        let at' (n i : Nat) : Lane := let y := nthD moved n (none', none'); if i % 2 = 0 then y.1 else y.2
        a.Lanes (fun i => at' (i / 2) i) ∧ b.Lanes fun i => at' (8 + i / 2) i) ∧
      (∃ a b : LaneRes, exec (.expand x) s = .next (s.emitsTwo e c a b) ∧
        let dealt := ((List.range 16).map (laneOf l)).filter (·.valid)
        let set (i : Nat) : Bool := r.valid.getLsbD i && on i
        let before (i : Nat) : Nat := ((List.range i).filter set).length
        a.Lanes (fun i => if set i then nthD dealt (before i) none' else none') ∧
          b.Lanes fun i => nthD dealt (before 16 + i) none') ∧
      ∃ t : Token, exec (.vany x) s = .next (s.emitsTok e c t) ∧ t.net = .control ∧ t.lo = c.lo ∧ t.hi = c.hi ∧
        t.payload = if ((List.range 16).any fun i => l.valid.getLsbD i && laneAt l.payload i != 0) = true then 1 else 0) ∧
  (∀ (s : State) (e : SlotEnv) (c : Choice) (x : EW), s.Fires e c →
      let l := (s.firing e c).l
      let r := (s.firing e c).r
      (∃ t : Token, exec (.gate x) s = .next (s.emitsTok e c t) ∧ t.net = l.net ∧ t.lo = c.lo ∧ t.hi = c.hi ∧ t.tag = s.curTag ∧
        (l.net = .control → t.payload = l.payload ∧ t.kind = l.kind) ∧
        (l.net ≠ .control → e.hdr.net ≠ 1 → t.payload = l.payload ∧ t.valid = l.valid ∧ t.reset = l.reset)) ∧
      let holds (t : Token) : Bool := if t.net = .control then t.payload.getLsbD 0 else t.valid.getLsbD 0 && laneAt t.payload 0 != 0
      ∀ p ∈ [(Instr.cand x, holds l && holds r), (.cor x, holds l || holds r)],
        ∃ t : Token, exec p.1 s = .next (s.emitsTok e c t) ∧ t.net = .control ∧ t.lo = c.lo ∧ t.hi = c.hi ∧ t.tag = s.curTag ∧
          t.payload = if p.2 then 1 else 0)

/-- R164, R197: lane operations and SEGSET. -/
def Obligations.LaneOperationsMoveLanes : Prop :=
  ∀ (s : State) (e : SlotEnv) (c : Choice) (x : EW), s.Fires e c →
    let l := (s.firing e c).l
    let r := (s.firing e c).r
    let n := x.md.toNat
    (∀ p ∈ [(Instr.vperm x, fun i => { laneOf l (laneAt r.payload i % 16) with
          valid := l.valid.getLsbD (laneAt r.payload i % 16) && r.valid.getLsbD i }),
        (.vbcast x, fun _ => laneOf l n), (.vrev x, fun i => laneOf l (15 - i)),
        (.vlshift x, fun i => if i + n < 16 then laneOf l (i + n) else laneOf r (i + n - 16)),
        (.vins x, fun i => if i = n then laneOf r 0 else laneOf l i)],
      ∃ o : LaneRes, exec p.1 s = .next (s.emits e c o) ∧ o.Lanes p.2) ∧
    (∃ a b : LaneRes, exec (.zip x) s = .next (s.emitsTwo e c a b) ∧
      a.Lanes (fun i => laneOf (if i % 2 = 0 then l else r) (i / 2)) ∧ b.Lanes fun i => laneOf (if i % 2 = 0 then l else r) (8 + i / 2)) ∧
    (∃ a b : LaneRes, exec (.unzip x) s = .next (s.emitsTwo e c a b) ∧
      a.Lanes (fun i => laneOf (if i < 8 then l else r) (2 * (i % 8))) ∧ b.Lanes fun i => laneOf (if i < 8 then l else r) (2 * (i % 8) + 1)) ∧
    (∃ o : LaneRes, exec (.vextr x) s = .next (s.emits e c o) ∧ o.valid = (if l.valid.getLsbD n then 1 else 0) ∧
      o.payload.toNat = if x.ty = .f64 then laneAt l.payload n + laneAt l.payload (n + 1) * 2 ^ 32 else laneAt l.payload n) ∧
    ∃ o : LaneRes, exec (.segset x) s = .next (s.emits e c o) ∧ o.payload = l.payload ∧ o.valid = l.valid ∧
      ∀ i, i < 16 → o.reset.getLsbD i =
        if x.ty = .f64 then elValid 64 r.valid (i / 2) && elAt 64 r.payload (i / 2) != 0 else r.valid.getLsbD i && laneAt r.payload i != 0

/-! ## Span operations, reductions, recurrences -/

/-- R165, R166, R168, R169: what each span operation puts out for the token of l over [lo, hi), l's payload and masks unchanged: SPAN moves it to
the span that r names, or raises SPAN_ORDER at r; DELAY shifts it by d; SPLIT cuts it into pieces of width w; CLOSE cuts it off at its
close point and lets nothing through at or past it; SPANQ gives the span and number as data. Under a predicate gate the span is the
intersection's, by the model's choice (notes/assumptions/49.md). SPLIT raises SPAN_LIMIT for a token that is open
or gives more than 64 pieces, DELAY where a finite bound would pass 2⁴⁰ − 2, and nothing goes out. -/
def Obligations.SpanOperationsMoveTheSpan : Prop :=
  ∀ (s : State) (e : SlotEnv) (c : Choice) (x : EW), s.Fires e c →
    let fi := s.firing e c
    let l := fi.l
    let r := fi.r
    let k := q40 e.constR 0
    let top := 2 ^ 40 - 2
    let st := s.slotSt e.key e.slot
    let a : AccSt := amGet st.acc s.curTag {}
    let piece (t : Token) (lo hi : Nat) : Prop := t.lo = lo ∧ t.hi = hi ∧ t.tag = s.curTag ∧ t.ctx = (s.getU s.curLoc.key).ctx ∧ t.err = false ∧
      (e.hdr.net ≠ 1 → t.net = .vector ∧ t.payload = l.payload ∧ t.valid = l.valid ∧ t.reset = l.reset)
    let faults (code : Nat) (f : Fld) (i : Instr) : Prop :=
      ∃ q : FaultRec, q.code = code ∧ q.slot = e.slot ∧ q.fld = f.code ∧ q.tag = s.curTag ∧
        exec i s = .next ((s.raise (s.getU e.key).pad q).taken e s.curTag c.hi [])
    (let lo := q40 r.payload 0
     let hi := q40 r.payload 2
     let good := (∀ i, i < 4 → r.valid.getLsbD i = true) ∧ laneAt r.payload 1 < 256 ∧ laneAt r.payload 3 < 256 ∧ lo < hi ∧ lo ≤ top
     (good → ∃ t : Token, piece t lo hi ∧ exec (.span x) s = .next (s.taken e s.curTag c.hi [(0, { tok := t, basis := openHi })])) ∧
     (¬ good → faults 2 .r (.span x))) ∧
    (let hi := if c.hi = openHi then openHi else c.hi + k
     let good := c.lo + k ≤ top ∧ (c.hi = openHi ∨ hi ≤ top)
     (good → ∃ t : Token, piece t (c.lo + k) hi ∧ exec (.delay x) s = .next (s.emitsTok e c t)) ∧
     (¬ good → faults 4 .l (.delay x))) ∧
    (let n := (c.hi - c.lo + k - 1) / k
     (c.hi ≠ openHi → n ≤ 64 →
       ∃ outs : List (Nat × HeldOut), exec (.split x) s = .next (s.taken e s.curTag c.hi outs) ∧ outs.length = n ∧
         ∀ i o, outs[i]? = some o → o.1 = 0 ∧ piece o.2.tok (c.lo + i * k) (min (c.lo + (i + 1) * k) c.hi)) ∧
     (c.hi = openHi ∨ 64 < n → faults 4 .l (.split x))) ∧
    (let shut : AccSt := { a with closedBit := true }
     (a.closedBit = false → c.lo < k → c.hi < k →
       ∃ t : Token, piece t c.lo c.hi ∧ exec (.close x) s = .next (s.emitsTok e c t)) ∧
     (a.closedBit = false → c.lo < k → k ≤ c.hi →
       ∃ t : Token, piece t c.lo k ∧ exec (.close x) s = .next ((s.setSlot e.key e.slot { st with acc := amPut st.acc s.curTag shut }).taken e
         s.curTag c.hi [(0, { tok := t, basis := openHi })])) ∧
     (a.closedBit = true ∨ k ≤ c.lo → exec (.close x) s = .next (s.taken e s.curTag c.hi []))) ∧
    ∃ o : LaneRes, exec (.spanq x) s = .next (s.emits e c o) ∧ o.valid = 0x001F ∧ o.reset = 0 ∧
      ∀ i, i < 16 → laneAt o.payload i =
        nthD [l.lo % 2 ^ 32, l.lo / 2 ^ 32 % 2 ^ 32, l.hi % 2 ^ 32, l.hi / 2 ^ 32 % 2 ^ 32, l.seq % 2 ^ 32] i 0

/-- R147, R166 to R168: WINDOW adds each valid element of a token to the sum of the open window of its tag, an element that is empty or that a
set reset bit empties taking the token's as it is; a token in a later window first puts the open one out, over its span and without reset bits,
and begins a new sum. A close puts out what is open or pending first; where the window's span would end past 2⁴⁰ − 2, as only one that a close
ends can, SPAN_LIMIT is raised instead (R166). The span of a token is the intersection's
under a predicate gate (notes/assumptions/49.md), and a reset bit empties an element that is not valid too (notes/assumptions/46.md): both are
the model's choice. COALESCE joins a token that continues the pending one with the same masks, flags and valid lanes, and otherwise puts the
pending one out and keeps the new one. -/
def Obligations.WindowsAndJoinedTokensWait : Prop :=
  (∀ (s : State) (e : SlotEnv) (c : Choice) (x : EW), s.Fires e c →
    let fi := s.firing e c
    let l := fi.l
    let st := s.slotSt e.key e.slot
    let a : AccSt := amGet st.acc s.curTag {}
    let fl := isFloatTy x.ty
    let w := elWidth x.ty (mdAlt x.md && !fl)
    let fm := fmtOf x.ty
    let ftz := mdFtz x.md
    let m := mdRm x.md
    let width := q40 e.constR 0
    let here := c.lo / width
    let keep (u : State) (b : AccSt) : State := u.updSlot e.key e.slot fun st => { st with acc := amPut st.acc s.curTag b }
    let sums (old b : AccSt) : Prop :=
      (b.flags.1 = old.flags.1 ∧ (old.flags.2.1 = true ∨ fi.out.exc = true → b.flags.2.1 = true) ∧
        (old.flags.2.2 = true ∨ fi.out.sat = true → b.flags.2.2 = true)) ∧
      ∀ j, j < elCount w →
        let y : Option Nat := if elValid w old.valid j && !elReset w l.reset j then some (elAt w old.payload j) else none
        let z := elAt w l.payload j
        let ok := elValid w l.valid j
        elValid w b.valid j = (ok || y.isSome) ∧
        elAt w b.payload j = (match ok, y with
          | false, y => y.getD 0
          | true, none => if fl then fm.flush ftz z else z
          | true, some y =>
            if fl then (roundEl fm (mdRM x.md) ftz ((readEl fm ftz y).add (mdRM x.md) (readEl fm ftz z))).bits
            else (modeEl m w (readInt m w y + readInt m w z)).bits) % 2 ^ w
    let fresh : AccSt := { tainted := a.tainted, cause := a.cause, errWins := a.errWins }
    (∀ q, a.window = some q → here ≤ q →
      ∃ b : AccSt, b.window = some q ∧ sums a b ∧ exec (.window x) s = .next ((keep s b).taken e s.curTag c.hi [])) ∧
    (a.window = none →
      ∃ b : AccSt, b.window = some here ∧ sums fresh b ∧ exec (.window x) s = .next ((keep s b).taken e s.curTag c.hi [])) ∧
    (∀ q, a.window = some q → q < here → q * width + width ≤ 2 ^ 40 - 2 →
      ∃ (b : AccSt) (u : State), b.window = some here ∧ sums fresh b ∧ exec (.window x) s = .next ((keep u b).taken e s.curTag c.hi []) ∧
        ∃ t : Token, u = s.pushOut e 0 { tok := t, basis := 0 } ∧ t.lo = q * width ∧ t.hi = q * width + width ∧ t.tag = s.curTag ∧
          t.payload = a.payload ∧ t.valid = a.valid ∧ t.reset = 0 ∧ (a.flags.1 = true → t.err = true) ∧ t.exc = a.flags.2.1 ∧
          t.sat = a.flags.2.2) ∧
    let t := fi.moved e.hdr c.lo c.hi
    let keeps (p : Token) : State := s.setSlot e.key e.slot { st with acc := amPut st.acc s.curTag { a with pending := some p } }
    (e.hdr.net ≠ 1 → t.payload = l.payload ∧ t.valid = l.valid ∧ t.reset = l.reset) ∧
    (a.pending = none → exec (.coalesce x) s = .next ((keeps t).taken e s.curTag c.hi [])) ∧
    ∀ p, a.pending = some p →
      let same := t.lo = p.hi ∧ p.valid = t.valid ∧ p.reset = t.reset ∧ p.err = t.err ∧ p.exc = t.exc ∧ p.sat = t.sat ∧
        ∀ i, i < 16 → p.valid.getLsbD i = true → laneAt p.payload i = laneAt t.payload i
      (same → exec (.coalesce x) s = .next ((keeps { p with hi := t.hi }).taken e s.curTag c.hi [])) ∧
      (¬ same → exec (.coalesce x) s = .next ((keeps t).taken e s.curTag c.hi [(0, { tok := p, basis := 0 })]))) ∧
  -- a close
  ∀ (s : State) (e : SlotEnv) (tag cp : Nat) (x : EW), e.closePoint (s.slotSt e.key e.slot) tag = some cp →
    let st := s.slotSt e.key e.slot
    let a : AccSt := amGet st.acc tag {}
    let put (b : AccSt) : State := s.setSlot e.key e.slot { st with acc := amPut st.acc tag b }
    (∀ q, e.instr = .window x → a.window = some q →
      let hi := q * q40 e.constR 0 + q40 e.constR 0
      (hi ≤ 2 ^ 40 - 2 → ∃ t : Token, t.lo = q * q40 e.constR 0 ∧ t.hi = hi ∧ t.tag = tag ∧ t.payload = a.payload ∧ t.valid = a.valid ∧
        t.reset = 0 ∧ s.flush e tag = (put {}).pushOut e 0 { tok := t, basis := openHi }) ∧
      (2 ^ 40 - 2 < hi → ∃ f : FaultRec, f.code = 4 ∧ f.slot = e.slot ∧ f.fld = Fld.l.code ∧ f.tag = tag ∧
        s.flush e tag = (put {}).raise ((put {}).getU e.key).pad f)) ∧
    ∀ p, e.instr = .coalesce x → a.pending = some p →
      s.flush e tag = (put { a with pending := none }).pushOut e 0 { tok := p, basis := openHi }

/-- R95, R113, R191, R192: VRED joins the valid elements of l in a tree of adjacent pairs; a lone element passes a sum as it stands
(notes/assumptions/84.md), and a lone NaN gives a minimum or maximum the canonical NaN; RSEND sends the
token as a reduction packet. R112, R190: BMM4 gives row r of group g as four fused steps over the group's lanes. -/
def Obligations.ReductionsJoinAdjacentPairs : Prop :=
  ∀ (s : State) (e : SlotEnv) (c : Choice) (x : EW), s.Fires e c →
    let l := (s.firing e c).l
    let r := (s.firing e c).r
    let w := elWidth x.ty false
    (∃ o : LaneRes, exec (.vred x) s = .next (s.emits e c o) ∧
      let v (j : Nat) : Option El := if elValid w l.valid j then some { bits := elAt w l.payload j } else none
      let rec16 : List (Option El) := (List.range (elCount w)).map v
      let up (m : List (Option El)) : List (Option El) :=
        (List.range (m.length / 2)).map fun i => redNode (redOp x) (nthD m (2 * i) none) (nthD m (2 * i + 1) none)
      let root : Option El := nthD (if w = 64 then up (up (up rec16)) else up (up (up (up rec16)))) 0 none
      let nan : Bool := x.ty != .i32 && x.md.toNat % 4 != 0 && (root.any fun y => ((fmtOf x.ty).decode y.bits).isNan)
      (w = 32 ∨ w = 64 → elAt w o.payload 0 = (if nan then (fmtOf x.ty).nanCode else (root.getD { bits := 0 }).bits) % 2 ^ w ∧ (o.valid.getLsbD 0 = true ↔ root.isSome = true))) ∧
    (∃ t : Token, exec (.rsend x) s = .next (s.emitsTok e c t) ∧ t.kind = 1 ∧ t.lo = c.lo ∧ t.hi = c.hi ∧
      (e.hdr.net ≠ 1 → t.payload = l.payload ∧ t.valid = l.valid)) ∧
    ∃ o : LaneRes, exec (.bmm4 x) s = .next (s.emits e c o) ∧
      ∀ g k, g < 4 → k < 4 →
        let on := k < lengthReg e / 2 ^ (8 * g) % 8 ∧ (∀ i, i < 4 → l.valid.getLsbD (4 * g + i) = true) ∧
          ∀ i, i < 4 → r.valid.getLsbD (4 * k + i) = true
        let step (acc : Nat) (j : Nat) : Nat :=
          (roundEl .f32 (mdRM x.md) (mdFtz x.md) (FV.fma (mdRM x.md) (readEl .f32 (mdFtz x.md) (laneAt r.payload (4 * k + j)))
            (readEl .f32 (mdFtz x.md) (laneAt l.payload (4 * g + j))) (readEl .f32 (mdFtz x.md) acc))).bits
        (on → o.valid.getLsbD (4 * g + k) = true ∧ laneAt o.payload (4 * g + k) = [0, 1, 2, 3].foldl step 0 % 2 ^ 32) ∧
        (¬ on → o.valid.getLsbD (4 * g + k) = false ∧ laneAt o.payload (4 * g + k) = 0)

/-- R109 to R111, R193 to R196: SCAN, LREC and EMA put out h of every valid element, from the carry of the tag when the recurrence is chained
and it has one, else from the register's value; FIR puts out its taps' sum, over the tag's history when it is chained. A chained firing leaves
its last h, or the elements that FIR took, in the tile as the tag's, and its result takes the tile's taint. A firing that needs its tile waits
while that tile is not READY, and a chained one while its turn has not come.
Taints and their bits are the model's reading (notes/assumptions/56.md). -/
def Obligations.RecurrencesRunAlongTheirElements : Prop :=
  ∀ (s : State) (e : SlotEnv) (c : Choice) (x : EW), s.Fires e c →
    let fi := s.firing e c
    let l := fi.l
    let r := fi.r
    let w := elWidth x.ty false
    let p := recParamOf x.ty (e.conf.constTok e.hdr.kreg).payload
    let carry : Option Nat := if p.chain then s.carryOf e.key p.tile s.curTag w else none
    let start := carry.getD p.rv
    let cut := cuts w l (p.chain && carry.isNone)
    let rest := roundEl (fmtOf x.ty) .rne (mdFtz x.md) (FV.add .rne .one (readEl (fmtOf x.ty) (mdFtz x.md) p.alpha).negate)
    let tile := s.tile e.key p.tile
    let tap (j : Nat) : Nat := ofBytes (s.tileBytes e.key tile (j * (w / 8)) (w / 8))
    let hist : Token := if p.chain then s.historyOf e.key p.tile s.curTag else { }
    let out (o : LaneRes) : Token := if p.chain then tagTainted tile (fi.result e.hdr o) else fi.result e.hdr o
    let waits (i : Instr) : Prop := exec i s = .next (s.park s.curLoc.key s.curSlot s.curTag)
    (p.chain = false ∨ tile.st = .ready ∧ s.ownerMayGo e fi p.tile = true →
      ∀ q ∈ [(Instr.lrec x, l.valid &&& r.valid, lrecEls (fmtOf x.ty) .rne (mdFtz x.md) start p.rv
            (recPairs x.ty (l.valid &&& r.valid) cut (fun j => { bits := elAt w l.payload j }) fun j => { bits := elAt w r.payload j })),
          (.scan x, l.valid, if isFloatTy x.ty && x.md.toNat % 4 == 0 then
              lrecEls (fmtOf x.ty) (mdRM x.md) false start p.rv
                (recPairs x.ty l.valid cut (fun _ => { bits := oneCode (fmtOf x.ty) }) fun j => { bits := elAt w l.payload j })
            else scanEls (redOp x) start p.rv ((tokEls w l).zip cut)),
          (.ema x, l.valid, lrecEls (fmtOf x.ty) .rne (mdFtz x.md) start p.rv
            (recPairs x.ty l.valid cut (fun _ => { bits := p.alpha }) fun j =>
              (mulCodes (fmtOf x.ty) .rne (mdFtz x.md) rest.bits (elAt w l.payload j)).with rest rest))],
        let s1 : State := if p.chain then
          (s.setCarry e.key p.tile s.curTag w (q.2.2.getLast?.getD { bits := 0 }).bits).setMasks e.key p.tile s.curTag l else s
        ∃ o : LaneRes, exec q.1 s = .next (s1.emitsTok e c (out o)) ∧ o.valid = pairValid w q.2.1 ∧
          ∀ j, j < elCount w → elValid w o.valid j = true → elAt w o.payload j = (nthD q.2.2 j { bits := 0 }).bits % 2 ^ w) ∧
    (tile.st = .ready → p.chain = false ∨ s.ownerMayGo e fi p.tile = true →
      let s1 : State := if p.chain then
        ((s.setTileBytes e.key tile (carryOff tile s.curTag) (toBytes 64 l.payload.toNat)).setMasks e.key p.tile s.curTag l).setCarryValid
          e.key p.tile s.curTag true else s
      ∃ o : LaneRes, exec (.fir x) s = .next (s1.emitsTok e c (out o)) ∧ o.valid = pairValid w l.valid ∧
        ∀ j, j < elCount w → elValid w o.valid j = true →
          elAt w o.payload j =
            (firSum (fmtOf x.ty) (mdRM x.md) (mdFtz x.md) (firEls w hist ++ firEls w l) ((List.range p.taps).map tap) (elCount w + j)
              { bits := 0 }).bits % 2 ^ w) ∧
    (tile.st ≠ .ready ∨ p.chain = true ∧ s.ownerMayGo e fi p.tile = false →
      waits (.fir x) ∧ (p.chain = true → ∀ i ∈ [Instr.lrec x, .scan x, .ema x], waits i))

/-! ## Matrix and tile operations -/

/-- R104 to R108, R174, R181 to R186: a matrix firing waits while its accumulator is READY or DRAINING, a side access of its time is due, or an
earlier tile of ring A still waits for a firing. The first firing into an EMPTY accumulator opens it: every element reads zero and the stickies
are clear. Every element (i, j) takes in the products of row i of the tile at ring A and column j of the tile at ring B: floating elements
exactly under the window and two roundings, f64 ones as a chain of fused steps, integer ones exactly under the mode, described blocks under
their scales; a block that fails its checks, or a pair of formats that do not go together, taints the accumulator and is reported, with its
seal where its CRC fails. Stickies and the span of the tiles go with it, and kdone counts. The firing that completes the accumulator leaves it
READY, and with the emit bit its rows are put out, DRAINING, or SPAN_LIMIT is raised. The model's choices: notes/assumptions/98.md (stickies
of an opened tile), notes/assumptions/85.md (the cause where several blocks fail), notes/assumptions/97.md (weights), notes/assumptions/6.md
(the elements of a failed firing). -/
def Obligations.MatrixFiringsAccumulate : Prop :=
  (∀ (s : State) (e : SlotEnv) (c : Choice) (m : MatW), s.Fires e c →
    let fi := s.firing e c
    let n := m.acc.toNat
    let was := s.tile e.key n
    let s0 : State := if was.st = .empty then s.openAcc e.key n c.lo else s
    let t := s0.tile e.key n
    let ta := s.tile e.key (e.conf.ringTile m.ringA.toNat fi.l.cnum)
    let tb := s.tile e.key (e.conf.ringTile m.ringB.toNat fi.r.cnum)
    let A := s0.tileBytes e.key ta 0 1024
    let B := s0.tileBytes e.key tb 0 1024
    let turn := s.ringTurn e fi
    let full := t.kdone + 1 = t.kcount
    (was.st = .ready ∨ was.st = .draining ∨ s.ownerMayGo e fi n = false ∨ turn = false →
      ∀ i ∈ [Instr.mma m, .mmab m, .mmaw m], exec i s = .next (s.park s.curLoc.key s.curSlot s.curTag)) ∧
    (turn = true ↔ ∀ y ∈ (s.slotSt e.key e.slot).fields, fkeyFld y.1 = Fld.code .l → ∀ u ∈ y.2.rows,
      fi.l.cnum ≤ u.cnum ∨ u.hi ≤ amGet (s.slotSt e.key e.slot).doneTo u.tag 0 ∨
        ∃ d, e.next (s.slotSt e.key e.slot) u.tag = some d ∧ u.hi ≤ d.lo) ∧
    (was.st = .empty →
      t = { was with st := .filling, lo := c.lo, kdone := 0, rows := 0, err := false, exc := false, sat := false, cause := 0 } ∧
      (∀ x, x < was.size → s0.memL.get (tileAddr (idxOf e.key) was + x) = 0) ∧
      ∀ x, x < tileAddr (idxOf e.key) was ∨ tileAddr (idxOf e.key) was + was.size ≤ x → s0.memL.get x = s.memL.get x) ∧
    (was.st = .filling ∨ was.st = .empty → s.ownerMayGo e fi n = true → turn = true →
      let w := accWidth t
      let old (i j : Nat) : Option Nat := if m.ac then some (nthD (accEls (s0.tileBytes e.key t 0 t.size) w) (16 * i + j) 0) else none
      let entry : Tile := { (if m.ac then t else { t with sat := false }) with
        lo := if t.kdone = 0 then c.lo else t.lo, hi := c.hi, kdone := t.kdone + 1, tag := s.curTag
        err := t.err || ta.err || tb.err, exc := t.exc || ta.exc || tb.exc
        cause := if t.err then t.cause else if ta.err then ta.cause else if tb.err then tb.cause else 0
        st := if full then .ready else .filling }
      let ends (i : Instr) (u : State) : Prop :=
        exec i s = .next ((if full then u.emitAcc e n m.em else u).taken e s.curTag c.hi [])
      let gives (i : Instr) (f : Nat → Nat → El) : Prop :=
        ∃ els : List El, els.length = 256 ∧ (∀ i j, i < 16 → j < 16 → els[16 * i + j]? = some (f i j)) ∧
          ends i ((s0.setTileBytes e.key t 0 (putEls w (els.map (·.bits)))).setTile e.key n
            { entry with exc := entry.exc || els.any (·.exc), sat := entry.sat || els.any (·.sat) })
      let ws := elWidth m.ty false / 8
      let ftz := mdFtz m.md
      let a (i x : Nat) : Nat := elemIn A ws (48 * i + x * ws)
      let b (wb x j : Nat) : Nat := elemIn B wb (if tb.tb then 16 * x * wb + j * wb else 48 * j + x * wb)
      let xs := List.range (48 / ws)
      (m.ty ∉ [.i8x4, .f64] → gives (.mma m) fun i j =>
        accFloat ftz (old i j) (xs.map fun x => (readEl (fmtOf m.ty) ftz (a i x)).mul (readEl (fmtOf m.tyB) ftz (b ws x j))) fun _ => 0) ∧
      (m.ty = .i8x4 → gives (.mma m) fun i j =>
        modeEl (mdRm m.md) 32 (readInt (mdRm m.md) 32 ((old i j).getD 0) +
          xs.foldl (fun acc x => acc + asInt 8 (a i x) * asInt 8 (b ws x j)) 0)) ∧
      (m.ty = .f64 → gives (.mma m) fun i j =>
        xs.foldl (fun acc x =>
          let r := roundEl .f64 .rne ftz (FV.fma .rne (readEl .f64 ftz (a i x)) (readEl (fmtOf m.tyB) ftz (b ws x j)) (readEl .f64 ftz acc.bits))
          { r with exc := r.exc || acc.exc }) { bits := (old i j).getD 0 }) ∧
      gives (.mmaw m) (fun i j =>
        accFloat ftz (old i j) (xs.map fun x => (readEl (fmtOf m.ty) ftz (a i x)).mul (tw8Value (b 1 x j))) fun _ => 0) ∧
      let block (bs : List Byte) (i : Nat) := checkBlock ((bs.drop (64 * i)).take 64)
      let bad (cause : Nat) (sl : Option Nat) : Prop := ∃ (k : Nat) (bs : List Byte) (x : Bool),
        ends (.mmab m) (((({ s0 with freeCtr := k } : State).setTileBytes e.key t 0 bs).setTile e.key n
          { entry with err := true, exc := entry.exc || x, cause := if entry.err then entry.cause else cause }).reportSeal e cause sl)
      (∀ ba bb : Nat → Block, (∀ i, i < 16 → block A i = .ok (ba i) ∧ block B i = .ok (bb i)) →
        let nan := (List.range 16).any fun i => (ba i).nanScale || (bb i).nanScale
        ((∀ i j, i < 16 → j < 16 → (accBlocks ftz (old i j) (ba i) (bb j)).isSome = true) →
          gives (.mmab m) fun i j =>
            let y := (accBlocks ftz (old i j) (ba i) (bb j)).getD { bits := 0 }
            { y with exc := y.exc || nan }) ∧
        ((∃ i j, i < 16 ∧ j < 16 ∧ accBlocks ftz (old i j) (ba i) (bb j) = none) → bad 0x0B none)) ∧
      (∀ i c', i < 16 → block A i = .error c' → (∀ k, k < i → ∃ x, block A k = .ok x) → bad c'.1 c'.2) ∧
      ∀ i c', i < 16 → block B i = .error c' → (∀ k, k < 16 → ∃ x, block A k = .ok x) → (∀ k, k < i → ∃ x, block B k = .ok x) →
        bad c'.1 c'.2)) ∧
  -- R184: formats that go together
  (∀ (ftz : Bool) (acc : Option Nat) (a b : Block), accBlocks ftz acc a b = none ↔
    let kind (k : Nat) : Nat := if k ∈ [1, 2, 3] then 48 else if k ∈ [5, 6] then 24 else if k = 7 then 12 else 0
    (a.code ≠ 0x0F ∧ kind a.code = 0) ∨ (b.code ≠ 0x0F ∧ kind b.code = 0) ∨
      (a.code ≠ 0x0F ∧ b.code ≠ 0x0F ∧ kind a.code ≠ kind b.code)) ∧
  -- R183: the rows of a complete accumulator
  ∀ (s : State) (e : SlotEnv) (n : Nat),
    let t := s.tile e.key n
    let nr := t.size / 64
    let q := (t.hi - t.lo) / nr
    s.emitAcc e n false = s ∧
    (q = 0 ∨ t.hi = openHi → ∃ f : FaultRec, f.code = 4 ∧ f.slot = e.slot ∧ f.tag = t.tag ∧ s.emitAcc e n true = s.raise (s.getU e.key).pad f) ∧
    (q ≠ 0 → t.hi ≠ openHi → ∃ rows : List HeldOut, rows.length = nr ∧
      s.emitAcc e n true = rows.foldl (fun u h => u.pushOut e 0 h) (s.setTile e.key n { t with st := .draining }) ∧
      ∀ j o, rows[j]? = some o → o.tok.lo = t.lo + j * q ∧ o.tok.hi = (if j + 1 = nr then t.hi else t.lo + (j + 1) * q) ∧
        o.tok.valid = 0xFFFF ∧ o.tok.reset = 0 ∧ o.tok.err = t.err ∧ o.tok.exc = t.exc ∧ o.tok.sat = t.sat ∧ o.tok.tag = t.tag ∧
        o.tok.payload.toNat = ofBytes (s.tileBytes e.key t (64 * j) 64))

/-- R174, R177, R179, R187 to R189: TCLR empties its accumulator, or clears a state tile's carries and keeps its taps; TFILL and TTRN fill the
tail of their ring and complete it; TROW writes one row of it, and the sixteenth completes it; TCVT writes its source's elements, converted, and
completes or clears as its trigger says. Flags of the trigger or of the source
tile go into the stickies of the tile that is written (R97). They wait while the tail is not free, and TCLR and TCVT raise TILE_STATE on a tile that is not in
its state.
The model's own choices: what a failed check leaves (notes/assumptions/52.md), TROW of invalid lanes (55), the stickies (86, 98), TCVT's trigger from
lane 0, valid or not (118), and a ring that no slot reads, which counts as A-shaped (119). -/
def Obligations.TileOperationsWriteTheirTile : Prop :=
  ∀ (s : State) (e : SlotEnv) (c : Choice), s.Fires e c →
    let fi := s.firing e c
    let faults (i : Instr) (n : Nat) : Prop := exec i s = .next ((s.tileFault e fi n).taken e s.curTag c.hi [])
    (∀ x : TileW, s.sideMayGo e fi x.dst.toNat = true →
      let n := x.dst.toNat
      let t := s.tile e.key n
      t.swapped = none →
      (t.role = .acc → t.st = .ready ∨ t.st = .empty →
        exec (.tclr x) s = .next ((s.setTile e.key n
          { t.emptied with err := false, exc := false, sat := false, kdone := 0, cause := 0 }).taken e s.curTag c.hi [])) ∧
      (t.role = .acc → t.st = .filling → faults (.tclr x) n) ∧
      (t.role ≠ .acc → t.st = .ready →
        exec (.tclr x) s = .next (((s.setTileBytes e.key t (t.size / 16) (zeroBytes (14 * (t.size / 16)))).setTile e.key n
          { t with err := false, cause := 0 }).taken e s.curTag c.hi []))) ∧
    (∀ x : TileW, s.sideMayGo e fi x.src.toNat = true →
      let n := x.src.toNat
      let t := s.tile e.key n
      (t.st = .empty ∨ t.st = .filling → faults (.tcvt x) n) ∧
      (t.st = .ready → s.ringTail e c.lo s.curTag = none → exec (.tcvt x) s = .next (s.park s.curLoc.key s.curSlot s.curTag)) ∧
      ∀ r s1 d, t.st = .ready → e.writes = some r → s.ringTail e c.lo s.curTag = some (s1, d) →
        let k := laneAt fi.l.payload 0
        let aShaped : Bool := match e.conf.ringReader r with
          | some y => decide (y.2 = .l)
          | none => true
        ∃ (s2 : State) (els : List (Nat × El)),
          (∀ p, p ∈ els ↔ ∃ m j, m < tcvtRows t x.ty ∧ j < tcvtCols t x.ty ∧
            let col := k % 64 + if aShaped = true then j else m
            col < 48 / (elWidth x.tyD false / 8) ∧
              p = (if aShaped = true then aOff (elWidth x.tyD false / 8) m col
                else bOff (s1.tile e.key d).tb (elWidth x.tyD false / 8) col j,
                convEl x.ty x.tyD false x.md (nthD (tcvtSource (s1.tileBytes e.key t 0 t.size) t x.ty) (16 * m + j) 0))) ∧
          s2 = (els.foldl (fun u p => u.putPay e.key (s1.tile e.key d) p.1 (toBytes (elWidth x.tyD false / 8) p.2.bits)) s1).setTile e.key d
            { s1.tile e.key d with
              exc := (s1.tile e.key d).exc || t.exc || fi.out.exc || els.any (·.2.exc)
              sat := (s1.tile e.key d).sat || t.sat || fi.out.sat || els.any (·.2.sat)
              err := (s1.tile e.key d).err || t.err, cause := if (s1.tile e.key d).err then (s1.tile e.key d).cause else t.cause } ∧
          let s3 := if bitOf k 8 then s2.completeTail e.key r c.hi else s2
          exec (.tcvt x) s = .next ((if bitOf k 9 && t.role == .acc then s3.setTile e.key n { (s3.tile e.key n).emptied with kdone := 0 }
            else s3).taken e s.curTag c.hi [])) ∧
    (s.ringTail e c.lo s.curTag = none → ∀ (x : TileW) (y : EW), ∀ i ∈ [Instr.ttrn x, .tfill x, .trow y],
      exec i s = .next (s.park s.curLoc.key s.curSlot s.curTag)) ∧
    ∀ r s1 d, e.writes = some r → s.ringTail e c.lo s.curTag = some (s1, d) → s1.memWf = true →
      let t := s1.tile e.key d
      (∀ x : TileW,
        let w := elWidth x.ty (mdAlt x.md) / 8
        let done (i : Instr) (exc sat : Bool) (f : Nat → Nat → Nat) : Prop :=
          ∃ s2 : State, exec i s = .next ((s2.completeTail e.key r c.hi).taken e s.curTag c.hi []) ∧
            (∀ k n, k < 48 / w → n < 16 → elemIn (s2.tileBytes e.key t 0 1024) w (bOff t.tb w k n) = f k n) ∧
            (∀ a, a < tileAddr (idxOf e.key) t ∨ tileAddr (idxOf e.key) t + 1024 ≤ a → s2.memL.get a = s1.memL.get a) ∧
            s2.memF = s1.memF ∧ s2.memS = s1.memS ∧ s2.memM = s1.memM ∧ s2.memH = s1.memH ∧
            s2.units = (s1.setTile e.key d { t with exc := t.exc || exc, sat := t.sat || sat }).units
        let v := if fi.l.valid.getLsbD 0 then elAt (8 * w) fi.l.payload 0 else 0
        let st := s1.tile e.key x.src.toNat
        let src := s1.tileBytes e.key st 0 1024
        done (.tfill x) fi.out.exc fi.out.sat (fun _ _ => v) ∧
          done (.ttrn x) (fi.out.exc || st.exc) (fi.out.sat || st.sat) fun k n => elemIn src w (aOff w n k)) ∧
      ∀ x : EW,
        let blk := x.ty == .f32 && mdAlt x.md
        let row := (List.range (if blk then 16 else 12)).flatMap fun i =>
          toBytes 4 (if blk || fi.l.valid.getLsbD i then laneAt fi.l.payload i else 0)
        let s2 := (s1.setTileBytes e.key t (64 * t.rows) row).setTile e.key d
          { t with
            rows := t.rows + 1, exc := t.exc || fi.out.exc, sat := t.sat || fi.out.sat, err := t.err || fi.out.err
            cause := if t.err then t.cause else fi.out.cause }
        exec (.trow x) s = .next ((if t.rows = 15 then s2.completeTail e.key r c.hi else s2).taken e s.curTag c.hi [])

/-- R198: CARRY GET puts out the tag's carry, PUT sets it from element 0 of l or empties it, DROP empties it; R246 to R250: TEAR takes the copies
of a row in rank order: one that is not usable goes nowhere, one with a slot left in the open batch is placed in the next slot, each copy
spanning one; another is held, goes to the lowest further rank that is usable and has room, or is dropped and counted, as the policy says.
When a batch ends, pad rows fill its slots and held copies take those of the next. A record names the copies that were placed, and leaves when
none of its row's is held. TEAR raises SPAN_LIMIT for an intersection that is open or crosses its batches; R251 to R253: MUSTER sums the copies that met their record's claims, in choice order, and rounds once; a claim not
met in time raises MUSTER_TIMEOUT.
The model's own choices: batches at a close and at an open row (notes/assumptions/50.md), when a MUSTER closes and its flags (51). -/
def Obligations.CarriesTearsAndMusters : Prop :=
  (∀ (s : State) (e : SlotEnv) (c : Choice) (x : EW), s.Fires e c →
    let fi := s.firing e c
    let n := laneAt (e.conf.constTok e.hdr.kreg).payload 0 % 64
    let t := s.tile e.key n
    let w := elWidth x.ty false
    (s.sideMayGo e fi n = true → t.st = .ready →
      (x.md.toNat % 4 = 0 → ∃ o : LaneRes, exec (.carry x) s = .next (s.emitsTok e c (tagTainted t (fi.result e.hdr o))) ∧
        elAt w o.payload 0 = ((s.carryOf e.key n s.curTag w).getD 0) % 2 ^ w ∧
        (o.valid.getLsbD 0 = true ↔ (s.carryOf e.key n s.curTag w).isSome = true)) ∧
      (x.md.toNat % 4 = 1 → elValid w fi.l.valid 0 = true →
        exec (.carry x) s = .next ((s.setCarry e.key n s.curTag w (elAt w fi.l.payload 0)).emitsTok e c (fi.moved e.hdr c.lo c.hi))) ∧
      (x.md.toNat % 4 = 1 → elValid w fi.l.valid 0 = false →
        exec (.carry x) s = .next ((s.setCarryValid e.key n s.curTag false).emitsTok e c (fi.moved e.hdr c.lo c.hi))) ∧
      (2 ≤ x.md.toNat % 4 →
        exec (.carry x) s = .next (((s.setCarryValid e.key n s.curTag false).setTile e.key n { t with err := false, cause := 0 }).emitsTok e c
          (fi.moved e.hdr c.lo c.hi)))) ∧
    (s.sideMayGo e fi n = false ∨ t.st ≠ .ready → exec (.carry x) s = .next (s.park s.curLoc.key s.curSlot s.curTag)) ∧
    (let p := e.tearParam
     let crosses := c.hi = openHi ∨ c.lo / p.w ≠ (c.hi - 1) / p.w
     (crosses → ∃ q : FaultRec, q.code = 4 ∧
        exec (.tear x) s = .next ((s.raise (s.getU e.key).pad q).taken e s.curTag c.hi [])) ∧
     (¬ crosses → ∃ (a : TearSt) (outs : TearOuts) (drops : Nat),
        tearRow p (s.getU e.key).ctx (amGet (s.getU e.key).tear s.curTag {}) fi.l fi.r fi.out.sealed = (a, outs, drops) ∧
        exec (.tear x) s =
          .next (((s.setU e.key { s.getU e.key with
              tear := amPut (s.getU e.key).tear s.curTag a
              tearSteps := amPut (s.getU e.key).tearSteps e.slot (e.tearStep p s (amGet (s.getU e.key).tear s.curTag {}) fi) }).updSlot e.key e.slot
            fun st => { st with drops := st.drops + drops }).taken e s.curTag c.hi outs) ∧
        ∀ o ∈ outs, o.1 ≠ 0 → o.2.tok.hi = o.2.tok.lo + 1 ∧ o.2.tok.close = false))) ∧
  -- a row in the open batch, or the first one
  (∀ (p : TearParam) (ctx : Nat) (x : TearSt) (row r out : Token), x.batch = none ∨ x.batch = some (out.lo / p.w) →
    let x1 : TearSt := { x with
      batch := some (out.lo / p.w), got := true, nextId := x.nextId + 1, recs := x.recs ++ [TearRec.mk x.nextId out (List.replicate 4 .none)] }
    let y : TearSt × TearOuts × Nat := (List.range p.k).foldl (tearCopy p row r x.nextId) (x1, [], 0)
    let done := y.1.recs.takeWhile fun z => !z.copies.any fun c => match c with
      | .held _ => true
      | _ => false
    tearRow p ctx x row r out =
      ({ y.1 with recs := y.1.recs.drop done.length }, y.2.1 ++ done.map (fun z => (0, HeldOut.mk (tearRecord z) z.tok.hi none)), y.2.2)) ∧
  -- a row of a later batch: one that has begun ends at every destination in turn, and the row goes on from the next
  (∀ (p : TearParam) (ctx : Nat) (x : TearSt) (row r out : Token) (b : Nat), x.batch = some b → b < out.lo / p.w →
    (x.begun = false → tearRow p ctx x row r out = tearRow p ctx { x with batch := some (out.lo / p.w) } row r out) ∧
    (x.begun = true →
      let y := (List.range p.d).foldl (tearEndAt p out.tag ctx) (x, [])
      let t := tearRow p ctx { y.1 with batch := some (b + 1), ended := b + 1, got := false } row r out
      tearRow p ctx x row r out = (t.1, y.2 ++ t.2.1, t.2.2))) ∧
  -- one copy
  (∀ (p : TearParam) (row r : Token) (id k : Nat) (x : TearSt) (outs : TearOuts) (drops : Nat) (y : TearRec),
    (x.recs.find? fun z => z.id == id) = some y →
    let j (m : Nat) : Nat := laneAt r.payload m
    let weight (m : Nat) : Word := BitVec.ofNat 32 (laneAt r.payload (4 + m))
    let usable (m : Nat) : Prop := r.valid.getLsbD m = true ∧ r.valid.getLsbD (4 + m) = true ∧ j m < p.d ∧
      ∀ c ∈ y.copies, c ≠ .held (j m) ∧ ∀ lo n w, c ≠ .placed (j m) lo n w
    let room (m : Nat) : Prop := x.usedAt (j m) < nthD p.cap (j m) 0
    let t := tearCopy p row r id (x, outs, drops) k
    let noted (c : CopySt) : Prop := t.1.recs = x.recs.map fun z => if z.id == id then { z with copies := z.copies.set k c } else z
    let places (m : Nat) : Prop :=
      let lo := 16 * x.batch.getD 0 + x.usedAt (j m)
      t.2.1 = outs ++ [(2 + j m, { tok := { row with lo := lo, hi := lo + 1, close := false, commit := false }, basis := lo + 1 })] ∧
        t.2.2 = drops ∧ t.1.held = x.held ∧ t.1.batch = x.batch ∧ noted (.placed (j m) lo m (weight m)) ∧
        ∀ d, t.1.usedAt d = x.usedAt d + if d = j m then 1 else 0
    let holds := p.policy = 1 ∧ (x.heldAt (j k)).length < 16
    let other (m : Nat) : Prop := p.policy = 2 ∧ p.k ≤ m ∧ m < 4 ∧ usable m ∧ room m
    (¬ usable k → t = (x, outs, drops)) ∧
    (usable k → room k → places k) ∧
    (usable k → ¬ room k → holds → t.2 = (outs, drops) ∧ t.1.used = x.used ∧ noted (.held (j k)) ∧
      t.1.heldAt (j k) = x.heldAt (j k) ++ [HeldCopy.mk id k row (weight k)] ∧ ∀ d, d ≠ j k → t.1.heldAt d = x.heldAt d) ∧
    (usable k → ¬ room k → ∀ m, other m → (∀ n, other n → m ≤ n) → places m) ∧
    (usable k → ¬ room k → ¬ holds → (∀ m, ¬ other m) →
      t.2 = (outs, drops + 1) ∧ t.1.used = x.used ∧ t.1.held = x.held ∧ noted .dropped)) ∧
  -- the end of a batch at one destination
  (∀ (p : TearParam) (tag ctx : Nat) (x : TearSt) (outs : TearOuts) (j : Nat),
    let b := x.batch.getD 0
    let cap := nthD p.cap j 0
    let t := tearEndAt p tag ctx (x, outs) j
    t.1.heldAt j = (x.heldAt j).drop cap ∧ t.1.usedAt j = min cap (x.heldAt j).length ∧
    ∃ pads placed : TearOuts, t.2 = outs ++ pads ++ placed ∧
      pads.length = (if p.pad = true then cap - x.usedAt j else 0) ∧ placed.length = min cap (x.heldAt j).length ∧
      (∀ (i : Nat) (o : Nat × HeldOut), pads[i]? = some o → o.1 = 2 + j ∧ o.2.tok.lo = 16 * b + x.usedAt j + i ∧ o.2.tok.hi = o.2.tok.lo + 1 ∧ o.2.tok.valid = 0 ∧
        o.2.tok.payload = 0 ∧ o.2.tok.tag = tag) ∧
      ∀ (i : Nat) (o : Nat × HeldOut) (h : HeldCopy), placed[i]? = some o → (x.heldAt j)[i]? = some h → o.1 = 2 + j ∧
        o.2.tok = { h.tok with lo := 16 * (b + 1) + i, hi := 16 * (b + 1) + i + 1, close := false, commit := false }) ∧
  -- a record
  (∀ (z : TearRec) (k : Nat), k < 4 →
    let t := tearRecord z
    (∀ d lo n w, nthD z.copies k .none = .placed d lo n w →
      (∀ i ∈ [k, 4 + k, 8 + 2 * k, 9 + 2 * k], t.valid.getLsbD i = true) ∧ laneAt t.payload k = d % 2 ^ 32 ∧
        laneAt t.payload (4 + k) = w.toNat ∧ (lo < 2 ^ 40 → q40 t.payload (8 + 2 * k) = lo)) ∧
    ((∀ d lo n w, nthD z.copies k .none ≠ .placed d lo n w) → ∀ i ∈ [k, 4 + k, 8 + 2 * k, 9 + 2 * k], t.valid.getLsbD i = false) ∧
    t.lo = z.tok.lo ∧ t.hi = z.tok.hi ∧ t.tag = z.tok.tag ∧ t.exc = z.tok.exc ∧ t.sat = z.tok.sat) ∧
  -- a record whose claims are decided, over its span, or with a segment of the predicate that gates the slot
  (∀ (s : State) (e : SlotEnv) (r : MusterRec) (c : Choice) (x : EW), s.slotEnv s.curLoc.key s.curSlot = some e → s.mayFire s.curLoc.key = true →
    e.musterFire (s.getU s.curLoc.key) s.curTag = some (r, c) → s.fireBreak e s.curTag c.lo = false →
    (∀ t ∈ c.segs.flatMap (·.2.tokens) ++ r.tok :: r.copies.map (·.2), t.err = false ∧ t.isFault = false ∧ residueBad t = false) →
    e.hdr.net ≠ 1 → s.unarmed e = true →
    let s1 := if e.musterOver (s.slotSt s.curLoc.key s.curSlot) r c.hi then
        s.updU s.curLoc.key fun u => { u with muster := u.muster.filter (· != r) }
      else s
    (e.nets.contains .p = false → c.lo = r.tok.lo ∧ c.hi = r.tok.hi ∧ e.musterOver (s.slotSt s.curLoc.key s.curSlot) r c.hi = true) ∧
    (e.gateOpen (s.firing e c) = false → exec (.muster x) s = .next (s1.taken e s.curTag c.hi [])) ∧
    (e.gateOpen (s.firing e c) = true →
    let w := elWidth x.ty false
    let weight (k : Nat) : Nat := laneAt r.tok.payload (4 + k)
    let sum (j : Nat) : Nat := (r.copies.filter fun p => elValid w p.2.valid j).foldl (fun acc p =>
      (roundEl .f32 .rne false (FV.fma .rne (readEl .f32 false (weight p.1))
        (readEl .f32 false (musterVal (fmtOf x.ty) (elAt w p.2.payload j))) (readEl .f32 false acc))).bits) 0
    ∃ t : Token,
      exec (.muster x) s = .next (s1.taken e s.curTag c.hi [(0, { tok := t, basis := c.hi })]) ∧
      t.err = false ∧ t.lo = c.lo ∧ t.hi = c.hi ∧ t.tag = r.tok.tag ∧
      (∀ i, i < 16 → t.valid.getLsbD i = r.copies.any fun p => p.2.valid.getLsbD i) ∧
      ∀ j, j < elCount w → elAt w t.payload j =
        if (r.copies.any fun p => elValid w p.2.valid j) = true then
          (roundEl (fmtOf x.ty) (mdRM x.md) (mdFtz x.md) (Fmt.f32.decode (sum j), false)).bits % 2 ^ w
        else 0)) ∧
  ∀ (s : State) (u : Loc) (slot : Nat) (r : MusterRec) (p : Nat × Nat × Nat), (s.getU u.key).muster.head? = some r →
    (s.getPad (s.getU u.key).pad).stop = false →
    ((musterClaims r.tok).find? fun y => !nthD r.decided y.1 true) = some p →
    ∃ q : FaultRec, q.code = 0x0A ∧ q.slot = slot ∧ q.tag = r.tok.tag ∧ exec (.musterTimeout u slot) s = .next (s.raise (s.getU u.key).pad q)

/-! ## Node operations -/

/-- R239, R245: ASTR spreads its range of addresses over consecutive parts of the span; SBAR remembers its trigger and passes it on. R221
to R224, R240 to R243, R258: accesses read or put out the bytes that they reach, lane by lane, once nothing holds them back, and UPDN keeps
its updates for gweuf; LDSC and STSC need
the SC token and use it up by one. R356, R357: XLATE gives each valid lane pair of l its physical address, with the page's external and
poisoned bits above it, where the page is mapped as the access needs it; when any pair faults, the token of the faulting pairs alone goes
out with kind 3.
The model's own choices: the order of updates of equal lo (notes/assumptions/53.md), lanes that fail (59), the order of a walk's checks (60), the route of a seal (91). -/
def Obligations.NodeAccessesReachTheirBytes : Prop :=
  (∀ (s : State) (e : SlotEnv) (c : Choice) (x : EW), s.Fires e c →
      let fi := s.firing e c
      let k := e.constR
      let n := (laneAt k 1 + 15) / 16
      let q := (c.hi - c.lo) / n
      (fi.l.valid.getLsbD 0 = true → c.hi ≠ openHi → q ≠ 0 →
        ∃ outs : List (Nat × HeldOut), exec (.astr x) s = .next (s.taken e s.curTag c.hi outs) ∧ outs.length = n ∧
          ∀ j o, outs[j]? = some o → o.1 = 0 ∧ o.2.tok.lo = c.lo + j * q ∧ o.2.tok.hi = (if j + 1 = n then c.hi else c.lo + (j + 1) * q) ∧
            (e.hdr.net ≠ 1 → ∀ i, i < 16 → 16 * j + i < laneAt k 1 → o.2.tok.valid.getLsbD i = true ∧
              (laneAt o.2.tok.payload i : Int) =
                ((laneAt fi.l.payload 0 : Int) + ((16 * j + i : Nat) : Int) * asInt 32 (laneAt k 0)) % 2 ^ 32)) ∧
      exec (.sbar x) s = .next ((s.updSlot e.key e.slot fun st => { st with bars := amUpd st.bars s.curTag [] (· ++ [c.lo]) }).emitsTok e c
        (fi.moved e.hdr c.lo c.hi)) ∧
      (s.heldBack e s.curTag = false → s.sbarsPassed e fi = true →
        (∀ i ∈ [Instr.ldsc x, .stsc x], (s.getU e.key).scBudget = 0 → exec i s = .next (s.park s.curLoc.key s.curSlot s.curTag)) ∧
        (let a : NodeAcc := ⟨e, fi, x, false, 0xFFFF⟩
         ∀ s1 l, a.reach s = .refs s1 l → (∀ r ∈ l, r.bad = none ∧ r.lane < 16) →
          let s2 := s1.unhold e s.curTag
          (∀ r ∈ l, ((linesOf r.addr 4).all fun y => s2.markOf r.sp y == none) = true) → s2.masks = [] →
          ∃ t : Token, t.lo = c.lo ∧ t.hi = c.hi ∧ t.tag = s.curTag ∧
            (e.hdr.net ≠ 1 → t.valid = laneMask (l.map (·.lane)) ∧
              ∀ r ∈ l, (l.find? fun y => y.lane == r.lane) = some r →
                laneAt t.payload r.lane = ofBytes (overlay (s2.inFlight e s.curTag) r.sp r.addr (s2.readMem r.sp r.addr 4))) ∧
            exec (.ldn x) s = .next (s2.emitsTok e c t) ∧
            ((s.getU e.key).scBudget ≠ 0 → exec (.ldsc x) s = .next ((s2.emitsTok e c t).scDone e.key 1))) ∧
        (s.logFull e.key = true → ∀ i ∈ [Instr.stn x, .stsc x, .updn x], exec i s = .next (s.park s.curLoc.key s.curSlot s.curTag)) ∧
        let a : NodeAcc := ⟨e, fi, x, true, if (e.window x).described then maskOf fun _ => fi.r.valid.getLsbD 0 else fi.r.valid⟩
        s.logFull e.key = false → ∀ s1 l, a.reach s = .refs s1 l → (∀ r ∈ l, r.bad = none ∧ r.ext = false) →
          let s2 := s1.unhold e s.curTag
          let writes := joinBlock a.win.described (l.map fun r => (r.sp, r.addr, a.bytes s2 r.lane))
          let t := a.completion (l.map (·.lane)) none false false
          exec (.stn x) s = .next ((s2.putStores a writes (joinBlock a.win.described []) [] (a.pages s2 l) t).taken e s.curTag c.hi []) ∧
          ((s.getU e.key).scBudget ≠ 0 →
            exec (.stsc x) s = .next ((((writes.foldl (fun u y => u.storeMem y.1 y.2.1 y.2.2) s2).putStores a []
              (joinBlock a.win.described []) [] (a.pages (writes.foldl (fun u y => u.storeMem y.1 y.2.1 y.2.2) s2) l) t).taken e s.curTag c.hi []).scDone e.key 1)) ∧
          (s.updMayGo e fi = true → a.win.described = false →
            ∀ y : Upd, l.foldl (updateRef a) { s := s2 } = y →
              let s3 := (y.s.updU e.key fun z => { z with updates := amPut z.updates e.slot y.recs }).reportIf e y.bad
              exec (.updn x) s = .next ((s3.putStores a [] [] y.held (a.pages s3 l)
                (a.completion (y.done.map (·.1)) y.bad y.exc y.sat)).taken e s.curTag c.hi []) ∧
              ∀ r, l = [r] → ((linesOf r.addr 4).all fun y => s2.markOf r.sp y == none) = true → s2.masks = [] →
                let old := ofBytes (overlay (s2.inFlight e s.curTag) r.sp r.addr (s2.readMem r.sp r.addr 4))
                let new := (updEl (a.win.upd.getD 0) old (laneAt fi.r.payload r.lane)).bits
                y.s = s2.storeMem r.sp r.addr (toBytes 4 new) ∧
                  y.recs = [⟨r.lane, laneAt fi.l.payload r.lane, laneAt fi.r.payload r.lane, none, old, new⟩]))) ∧
  (∀ (s : State) (e : SlotEnv) (c : Choice) (x : EW), s.Fires e c → s.heldBack e s.curTag = false →
      let fi := s.firing e c
      let pairs := (List.range 8).filter fun i => fi.l.valid.getLsbD (2 * i) && fi.l.valid.getLsbD (2 * i + 1)
      ∀ s1 rs, s.xlatePairs e (e.window x) fi pairs = (s1, rs) →
        (∀ p ∈ rs, (∃ v, p.2 = .phys v) ∨ ∃ v, p.2 = .fault v) →
        let s2 := s1.unhold e s.curTag
        let lanes (o : LaneRes) (f : PairRes → Option Nat) : Prop :=
          o.valid = (maskOf fun i => rs.any fun p => p.1 == i / 2 && (f p.2).isSome) ∧
            ∀ p ∈ rs, ∀ v, f p.2 = some v → (rs.find? fun y => y.1 == p.1) = some p → elAt 64 o.payload p.1 = v % 2 ^ 64
        ((∀ p ∈ rs, ∃ v, p.2 = .phys v) → ∃ o : LaneRes,
          exec (.xlate x) s = .next (s2.emitsTok e c
            { fi.result e.hdr o with pages := ((rs.map fun p => elAt 64 fi.l.payload p.1 / 65536)).eraseDups }) ∧
          lanes o fun y => match y with
            | .phys v => some v
            | _ => none) ∧
        ((∃ p ∈ rs, ∃ v, p.2 = .fault v) → ∃ o : LaneRes,
          exec (.xlate x) s = .next (s2.emitsTok e c { fi.result e.hdr o with kind := 3 }) ∧
          lanes o fun y => match y with
            | .fault v => some v
            | _ => none)) ∧
  -- what a pair gives
  ∀ (s : State) (e : SlotEnv) (w : Window) (va : Nat),
    let at' := s.translate (s.getU e.key).ctx va (e.feedsStore (s.getU e.key)) false
    let inside := va < 2 ^ 56 ∧ w.base ≤ va ∧ va < w.base + w.extent
    (¬ inside → s.xlatePair e w va = (s, .fault (va % 2 ^ 56 + 1 * 2 ^ 56))) ∧
    (inside → ∀ s1 cause, at' = (s1, .fault cause) → s.xlatePair e w va = (s1, .fault (va + cause * 2 ^ 56))) ∧
    (inside → ∀ s1 pa en, at' = (s1, .phys pa en) → pa < 2 ^ 52 → ∃ v, s.xlatePair e w va = (s1, .phys v) ∧ v < 2 ^ 58 ∧ v % 2 ^ 56 = pa ∧
      bitOf v 56 = pteExternal en ∧ bitOf v 57 = ptePoisoned en)

/-! ## Tokens on their way and at their fields -/

/-- R14, R53, R58, R59, R64 to R67, R77, R79, R82, R83, R141, R170, R192, R268, R271, R277, R286, R341, R370. A switch box sends a token by the
words that its network, class and input select, to the end that stands there or to the neighbour; it reports each failure of its checks, has
the token sent again up to three times, and then drops it or marks it. A box that an abort mark has passed sets the abort flag on tokens. A token
that carries it is dropped, one of another context never enters. At a slot of its
context a token of a network that the field does not take is reported and never enters; a token in order takes a free row; one of another tag
space raises TAG_INVALID; one that breaks the order closes its field behind SPAN_ORDER; one without a row waits in the overflow queue, from
which the first entry enters later. A commit is counted on its field; a trigger waits for its class. Two reduction packets of one number leave
a join as their sum. The model's own choices: how a resend comes out (notes/assumptions/78.md), where a route ends and a bridge stands (88), what waits and
in which order it goes on (83, 100), and when commits are counted (63). -/
def Obligations.TokensReachTheirPlaces : Prop :=
  (∀ (s : State) (u : Loc) (slot : Nat) (f : Fld) (t : Token) (e : SlotEnv),
    let pad := s.padOfUnit u
    let b : BreakPoint := .token u slot f
    let s1 := s.updPad pad fun p => { p with passed := p.passed.filter (· != b) }
    (s.getPad pad).stop = false →
    (t.abort = true → exec (.tokenArrival u slot f t) s = .next s) ∧
    (t.abort = false → (s.getU u.key).ctx ≠ t.ctx → exec (.tokenArrival u slot f t) s = .next (s.isolationDrop u.site t)) ∧
    (t.abort = false → (s.getU u.key).live = true → (s.getU u.key).ctx = t.ctx → (s.getU u.key).out u = true →
      exec (.tokenArrival u slot f t) s = .next (s.miss u.idx t (.field u slot f))) ∧
    (t.abort = false → (s.getU u.key).live = true → (s.getU u.key).ctx = t.ctx → (s.getU u.key).out u = false → s.tokenBreak pad b = true →
      exec (.tokenArrival u slot f t) s = .next (s.stopToken pad b (.tokenArrival u slot f t))) ∧
    (t.abort = false → (s.getU u.key).live = true → (s.getU u.key).ctx = t.ctx → (s.getU u.key).out u = false → s.tokenBreak pad b = false →
      s.slotEnv u.key slot = some e → (∀ y, e.instr ≠ .muster y) → t.isData = true ∨ t.isPred = true →
      let st := s.slotSt u.key slot
      let k := fkey f t.tag 0
      let x : FieldSt := amGet st.fields k {}
      let entry : OvEntry := ⟨e.loc, slot, f, e.epoch st f 0, t⟩
      let behind := (s.getPad pad).overflow.any fun y => y.sameStream e entry
      let settled (s2 : State) : Out := .next ((s2.wake u.key).settle u.key slot)
      let put (y : FieldSt) : State := s1.setSlot u.key slot { st with fields := amPut st.fields k y }
      let takes := e.takesNet f t.net = true
      (¬ takes → ∃ r : ErrRep, r.cause = 3 ∧ r.pad = pad ∧ r.commitScope = true ∧
        exec (.tokenArrival u slot f t) s = settled (s1.report r)) ∧
      (takes → t.tag / 64 ≠ e.hdr.tsp → ∃ q : FaultRec, q.code = 3 ∧ q.tag = t.tag ∧ q.seq = t.seq ∧
        exec (.tokenArrival u slot f t) s = settled (s1.raise pad q)) ∧
      (takes → t.tag / 64 = e.hdr.tsp → x.broken = false →
        let room := behind = false ∧ entry.epoch ≤ st.aligned ∧ t.tag % 64 < amGet e.conf.tags e.hdr.tsp 1 ∧ x.rows.length ≤ e.hdr.dep
        (room → x.closed = none → x.frontier ≤ t.lo →
          exec (.tokenArrival u slot f t) s = settled (put { x with
            rows := x.rows ++ [t], frontier := t.hi, firstLo := x.firstLo.or (some t.lo), lastSeq := t.seq
            closed := if t.close = true then some t.hi else none })) ∧
        (room → x.closed.isSome = true ∨ t.lo < x.frontier → ∃ q : FaultRec, q.code = 2 ∧ q.tag = t.tag ∧ q.seq = t.seq ∧
          q.seqLast = x.lastSeq ∧ exec (.tokenArrival u slot f t) s = settled ((put { x with broken := true }).raise pad q)) ∧
        (¬ room → exec (.tokenArrival u slot f t) s = settled (s1.updPad pad fun p => { p with overflow := p.overflow ++ [entry] }))))) ∧
  (∀ (s : State) (u : Loc) (slot : Nat) (f : Fld) (t : Token) (e : SlotEnv), (s.getPad (s.padOfUnit u)).stop = false →
    t.abort = false → (s.getU u.key).live = true → (s.getU u.key).ctx = t.ctx → (s.getU u.key).out u = false →
    s.slotEnv u.key slot = some e → e.conf.loopFed.contains (slot, f) = false →
    exec (.commitTokenArrival u slot f t) s = .next ((((s.updSlot u.key slot fun st =>
      { st with commits := amUpd st.commits (commitKey f (e.streamOf f t)) 0 (· + 1) }).wake u.key).settle u.key slot).askCommit
      (s.padOfUnit u))) ∧
  (∀ (s : State) (pad : Nat) (u : Loc) (slot : Nat) (e : SlotEnv) (x : OvEntry), (s.getPad pad).stop = false →
    s.slotEnv u.key slot = some e → firstEntry (s.reinjectable e) = some x →
    x ∈ s.reinjectable e ∧ (∀ y ∈ s.reinjectable e, x.tok.tag ≤ y.tok.tag ∧ (x.tok.tag = y.tok.tag → x.tok.lo ≤ y.tok.lo)) ∧
    exec (.overflowReinject pad u slot) s =
      .next ((((s.updPad pad fun p => { p with overflow := p.overflow.erase x }).enterField e x.f x.tok).wake u.key).settle u.key slot)) ∧
  (∀ (s : State) (u : Loc) (cls : Nat) (t : Token), (s.getPad (s.padOfUnit u)).stop = false → t.abort = false →
    (s.getU u.key).live = true → (s.getU u.key).ctx = t.ctx → (s.getU u.key).out u = false → t.net ≠ .control →
    t.isClose = false → t.valid.getLsbD 0 = true →
    exec (.triggerArrival u cls t) s =
      .next ((s.updU u.key fun x => { x with pending := x.pending ++ [(cls, t)] }).post (.handlerSelect u.idx))) ∧
  (∀ (s : State) (h : Hop), let p := (h.padOf s.padOfUnit).getD 0
    (h.isMark = true ∨ (s.getPad p).stop = false ∧ s.portBreak p h = none) → (∀ i, (s.coreOf i).errmask = 0) → s.masks = [] →
    let t := { h.tok with abort := h.tok.abort || (h.tok.net != .control && (s.getPad p).markedAt.contains h.site) }
    let s1 := match s.hopPermit h with
      | some k => s.takePermit p k
      | none => s
    let h1 : Hop := match s.hopPermit h with
      | some k => { h with permit := some k }
      | none => h
    let form := t.route = h.routeWant ∧ Token.kindOk t = true ∧ Token.spanOk t = true ∧ (t.net = .control → t.parity = t.parityBit)
    let lanes := t.net ≠ .control → t.residue = laneResidues t.net t.payload
    let good := h.crcOk = true ∧ form ∧ lanes
    (h.crcOk = true ↔ h.crc = crc32c (tokenBytes h.tok)) ∧
    (∀ (v : State) (x : Hop), ∃ y : Hop, v.resend x = v.postFront (.switchTokenCheck y) { code := v.arg.code - 1 } ∧ y.resends = x.resends + 1 ∧
      y.tok = v.hopSent x ∧ y.ends = x.ends ∧ (v.arg.code = 0 → y.crcOk = true) ∧ (v.arg.code ≠ 0 → y.crcOk = false)) ∧
    (¬ good → ∃ r : ErrRep, r.cause = (if h.crcOk = false then 4 else if ¬ form then 3 else 1) ∧ r.pad = p ∧ r.site = some h.site ∧
      r.commitScope = (decide (3 ≤ h.resends) && r.cause != 1) ∧
      (h.resends < 3 → exec (.switchTokenCheck h) s = .next ((s1.report r).resend h1)) ∧
      (3 ≤ h.resends → r.cause ≠ 1 → exec (.switchTokenCheck h) s = .next (((s1.report r).dropPermit h1).waveAgain h1)) ∧
      (3 ≤ h.resends → r.cause = 1 →
        exec (.switchTokenCheck h) s = .next ((s1.report r).passHop { h1 with tok := { t with err := true, cause := 1 }.sealed }))) ∧
    (good → exec (.switchTokenCheck h) s = .next ((if h.isMark = true then s1.markBox p h.site else s1).passHop { h1 with tok := t })) ∧
    -- what a dropped wave asks for
    (∀ v : State, (∀ q u, h.ends.head? ≠ some (.wave q u)) → v.waveAgain h = v)) ∧
  (∀ (s : State) (h : Hop) (b : BreakPoint), let p := (h.padOf s.padOfUnit).getD 0
    h.isMark = false → (s.getPad p).stop = false → s.portBreak p h = some b → s.tokenBreak p b = true →
    exec (.switchTokenCheck h) s = .next (s.stopToken p b (.switchTokenCheck h))) ∧
  (∀ (s : State) (h : Hop) (d : Dest), h.ends = [d] →
    (s.endsHere h d = true → ∀ i, arrivalAt d h.tok = some i → s.passHop h = (s.dropPermit h).postFront i) ∧
    (s.endsHere h d = false → ∀ o site, ((s.hopOuts h).filter fun o => decide (o < 4)) = [o] → neighbour h.site o = some site →
      ∀ s1 place, s.keepHop h.site o h.tok = (s1, place) →
      let next : Hop := { h with site := site, inp := facing o, resends := 0, crc := hopCrc h.tok }
      (sitePasture site = sitePasture h.site → s.passHop h = s1.postFront (.switchTokenCheck { next with sentAs := some place })) ∧
      (sitePasture site ≠ sitePasture h.site → h.tok.abort = false → s.passHop h =
        s1.sendMessage (sitePasture h.site) (sitePasture site) { next with sentAs := none }))) ∧
  (∀ (s s1 : State) (site out : Nat) (t : Token) (place : Nat × Nat), s.keepHop site out t = (s1, place) →
    ∀ x : Hop, x.sentAs = some place → s1.hopSent x = t) ∧
  (∀ (ws : List (Nat × BitVec 16)) (site cls inp : Nat) (net : Net) (w : BitVec 16),
    let holds (v : BitVec 16) : Prop := (site, v) ∈ ws ∧ swNet v = netCode net ∧ swCls v = cls
    w ∈ takenWords ws site net cls inp ↔
      holds w ∧ (swIn w = inp ∨ swFork w = true ∧ ∃ v, holds v ∧ swIn v = inp ∧ swFork v = true)) ∧
  (∀ (s : State) (pad : Nat) (u : Loc), (s.getU u.key).pad = pad →
    exec (.abortMark pad u) s = .next (((s.updU u.key fun x => { x with stopped := true }).countFaults pad).checkQuiet pad)) ∧
  -- a box that an abort mark has passed
  (∀ (s : State) (pad site : Nat), let s1 := s.markBox pad site
    (s1.getPad pad).markedAt.contains site = true ∧ s1.units = s.units ∧ s1.events.length = s.events.length ∧
    (∀ x ∈ s1.events, ∀ h, x.instr = .switchTokenCheck h → h.site = site → h.padOf s.padOfUnit = some pad → h.tok.net ≠ .control →
      h.tok.abort = true) ∧
    ∀ x ∈ s1.hopBufs, x.1 / 32 = site → ∀ t ∈ x.2.2, t.net ≠ .control → t.ctx = (s.getPad pad).ctx →
      (s.getPad pad).conf.routeIds.contains t.route = true → t.abort = true) ∧
  ∀ (s : State) (pad j : Nat) (side : Bool) (t : Token), (s.getPad pad).stop = false → t.abort = false → (s.getPad pad).ctx = t.ctx →
    t.isCommit = false → t.isClose = false →
    let p := s.getPad pad
    let st : JoinSt := amGet p.joins j {}
    let closes := if t.close = true then amPut st.closes (joinKey t.tag side) t.hi else st.closes
    let put (x : JoinSt) : State := s.setPad pad { p with joins := amPut p.joins j x }
    let other := st.wait.find? fun x => x.1 != side && x.2.cls == t.cls && x.2.tag == t.tag && x.2.seq == t.seq
    (other = none → t.close = false →
      exec (.reductionJoin pad j side t) s = .next ((put { st with wait := st.wait ++ [(side, t)], closes := closes }).joinAlone pad j)) ∧
    ∀ x, other = some x →
      (x.2.lo = t.lo → x.2.hi = t.hi → t.close = false → x.2.close = false →
        ∃ y : Token, y.lo = t.lo ∧ y.hi = t.hi ∧ y.tag = t.tag ∧ y.valid = t.valid ||| x.2.valid ∧
          (∀ i, i < 16 → t.valid.getLsbD i = true → x.2.valid.getLsbD i = true →
            laneAt y.payload i = (addCodes .f32 .rne false (laneAt (if side = true then x.2 else t).payload i)
              (laneAt (if side = true then t else x.2).payload i)).bits % 2 ^ 32) ∧
          exec (.reductionJoin pad j side t) s =
            .next (((put { st with wait := st.wait.erase x, closes := closes }).joinOut pad j y).joinAlone pad j)) ∧
      (x.2.lo ≠ t.lo ∨ x.2.hi ≠ t.hi → ∃ q : FaultRec, q.code = 6 ∧ q.tag = t.tag ∧ q.seq = t.seq ∧
        exec (.reductionJoin pad j side t) s = .next ((put { st with wait := st.wait.erase x, closes := closes }).raise pad q))

/-- R33, R87, R88, R221, R222, R224, R241, R287, R288, R324, R384: a seed's next record enters as its token, or error-tagged where its bytes fail
their checks; a sink keeps records for their commit and counts commits; a complete commit is published once all of its pages are translated,
but for the records on pages marked external, which leave with the held node stores when their commit is tested, STSCs and updates in
their orders; the wave reaches a unit, and the last one starts the seeds; node stores perform, behind a store of their stream that is held they are held too, and the
SC token lets a node perform up to eight accesses. The model's own choices: what a failing record gives (notes/assumptions/64.md, 65, 66), which
snapshots a commit needs (68), and how held stores keep their order (103). -/
def Obligations.SeedsSinksAndCommits : Prop :=
  (∀ (s : State) (pad k : Nat), (s.getPad pad).stop = false → (s.getPad pad).seedMay k = true →
    let p := s.getPad pad
    let sc := p.conf.seed k
    let st : SeedSt := amGet p.seeds k {}
    (st.extent < 96 * (st.next + 1) → exec (.seedTokenInject pad k) s = .next (s.closeSeed pad k)) ∧
    (96 * (st.next + 1) ≤ st.extent → ∀ s1 l s2 r c,
      (s.pageCame pad (seedWait k)).range p.ctx st.host false st.base (96 * st.next) 96 = (s1, .parts l) → s1.readParts l = (s2, r, c) →
      let s3 := match c with
        | some x => s2.report { cause := x, pad := pad, site := partsSite l }
        | none => s2
      (recSpanOk r = false → ∃ q : FaultRec, q.code = 2 ∧ exec (.seedTokenInject pad k) s = .next ((s3.updPad pad fun p => { p with
        seeds := amPut p.seeds k { (amGet p.seeds k {} : SeedSt) with closed := true } }).raise pad q)) ∧
      (recSpanOk r = true → recIsClose r = false → recField r 73 5 ≤ 2 ^ 40 - 2 →
        ∃ t : Token, t.payload.toNat = recField r 0 64 ∧ t.lo = recField r 68 5 ∧ t.hi = recField r 73 5 ∧
          t.tag = recField r 81 2 % 1024 ∧ (sc.cls = none → t.kind = 0) ∧ (st.extent < 96 * (st.next + 2) → t.close = true) ∧
          t.err = c.isSome ∧ (∀ x, c = some x → t.cause = x) ∧
          let s4 := s3.sourceSend pad k t
          exec (.seedTokenInject pad k) s = .next (if (amGet (s4.getPad pad).seeds k {}).closed = true then s4
            else s4.post (.seedTokenInject pad k))))) ∧
  (∀ (s : State) (pad k : Nat) (t : Token) (c : SinkConf), let p := s.getPad pad
    p.stop = false → p.phase = .running → p.conf.sinks[k]? = some c → t.abort = false → t.ctx = p.ctx →
    let st : SinkSt := amGet p.sinks k {}
    let put (x : SinkSt) : State := s.updPad pad fun p => { p with sinks := amPut p.sinks k x }
    (t.isCommit = true → exec (.sinkRecord pad k t) s = .next ((put { st with aligned := st.aligned + 1 }).askCommit pad)) ∧
    (t.isData = true → t.err = false → t.close = false →
      (st.extent < 96 * (t.seq + 1) → t.exc = false → ∃ q : FaultRec, q.code = 7 ∧ q.tag = t.tag ∧ q.seq = t.seq ∧
        exec (.sinkRecord pad k t) s = .next ((put st).raise pad q)) ∧
      (96 * (t.seq + 1) ≤ st.extent →
        let s1 := if t.exc = true then (put st).logAppend p.ctx (sinkEntry c 2 0 (cellSite c.cell) t) else put st
        exec (.sinkRecord pad k t) s = .next (s1.updPad pad fun p => { p with
          sinks := amUpd p.sinks k {} fun st => { st with log := st.log ++ [(st.aligned + 1, ⟨t.seq, t⟩)] } }))) ∧
    (t.isData = true → t.err = true → t.close = false →
      exec (.sinkRecord pad k t) s = .next ((put st).sinkError pad c t))) ∧
  (∀ (s : State) (pad : Nat), let p := s.getPad pad
    p.stop = false → p.phase = .running →
    let c := p.commit + 1
    (let snap : Prop := (∃ x ∈ p.snaps, p.commit < x.commit) ∨ ∃ x ∈ p.snapActors, p.commit < x.commit
     let aligned : Prop := (∀ x ∈ p.sinks, p.commit < x.2.aligned) ∧ (p.sinks ≠ [] ∨ snap)
     let jobs := p.sinks.filterMap fun x => match p.conf.sinks[x.1]? with
      | some sc => if sc.ext then none else some (x.1, sc, x.2, (upTo c x.2.log).map (·.2))
      | none => none
     (¬ (aligned ∧ s.snapshotsHeld pad c = true) → exec (.commitComplete pad) s = .next s) ∧
     (aligned → s.snapshotsHeld pad c = true →
       (∀ s1 ws r, State.translateLogs p jobs (s.pageCame pad 0) [] = (s1, some ws, r) →
         let s2 := ws.foldl (fun u w => (w.2.2.filter fun x => !x.2.any (·.ext)).foldl (fun u x => u.writeRecord pad w.2.1 x.1 x.2) u) s1
         let held (k : Nat) : List (Nat × Record) := match ws.find? fun w => w.1 == k with
           | some w => (w.2.2.filter fun x => x.2.any (·.ext)).map fun x => (c, x.1)
           | none => upTo c (amGet p.sinks k {} : SinkSt).log
         exec (.commitComplete pad) s = .next ((s2.updPad pad fun q => { q with
           sinks := q.sinks.map fun x => (x.1, { x.2 with log := after c x.2.log, held := x.2.held ++ held x.1 }) }).commitDone pad c)) ∧
       (∀ s1 va m f, State.translateLogs p jobs (s.pageCame pad 0) [] = (s1, none, .wait va m f) →
         exec (.commitComplete pad) s = .next ((s1.awaitPage pad 0 va true m f).post (.commitComplete pad))) ∧
       ∀ s1 f, State.translateLogs p jobs (s.pageCame pad 0) [] = (s1, none, .fault f) →
         exec (.commitComplete pad) s = .next (s1.raise pad f))) ∧
    let c := s.testedCommit p
    let jobs := p.sinks.filterMap fun x => match p.conf.sinks[x.1]? with
      | some sc => some (x.1, sc, x.2, (upTo c x.2.held).map (·.2))
      | none => none
    ∀ s1 ws r, State.translateLogs p jobs (s.pageCame pad 1) [] = (s1, some ws, r) →
      let s2 := (ws.foldl (fun u w => w.2.2.foldl (fun u x => u.writeRecord pad w.2.1 x.1 x.2) u) s1).updPad pad fun p =>
        { p with tested := c, sinks := p.sinks.map fun x => (x.1, { x.2 with held := after c x.2.held }) }
      let q := s2.getPad pad
      let l := s2.leaving pad c
      (∀ key x, (key, x) ∈ l ↔ ∃ u, (key, u) ∈ s2.units ∧ u.live = true ∧ u.pad = pad ∧ x ∈ u.stores ∧ x.visible = true ∧ q.gateAt x.commit ≤ c ∧
        waitsBehind q c (updSlots u.conf) u.stores x = false ∧ (x.scPos = 0 ∨ x.scPos < s2.scEnd pad c)) ∧
      l.Pairwise (fun a b => a.2.scPos ≤ b.2.scPos) ∧
      exec (.externalPublish pad) s = .next (((((l.map (·.1)).eraseDups).foldl (fun u key => (u.wake key).drainNode key)
        (l.foldl (fun u x => u.leaveStore x.1 x.2) s2)).updPad pad fun p => p.dropBelow c).checkDone pad)) ∧
  -- a held store leaves
  (∀ (s : State) (key : Nat) (x : NodeStore),
    (x.ups = [] → s.leaveStore key x = (s.putWrites x.held).updU key fun u =>
      { u with stores := u.stores.map fun z => if z == x then { x with held := [] } else z }) ∧
    ∀ h, x.held = [] → x.ups = [h] →
      let y := updEl h.upd (ofBytes (s.readMem h.sp h.addr 4)) h.v
      s.leaveStore key x = (s.storeMem h.sp h.addr (toBytes 4 y.bits)).updU key fun u =>
        { u with stores := u.stores.map fun z => if z == x then { x with
            ups := [], completion := { x.completion with exc := x.completion.exc || y.exc, sat := x.completion.sat || y.sat } }
          else z }) ∧
  (∀ (s : State) (pad i n : Nat), let p := s.getPad pad
    let u : Loc := .cell i n
    p.waveLeft.contains u = true →
    let s1 := ((s.updU u.key fun x => { x with waved := true }).updPad pad fun p => { p with waveLeft := p.waveLeft.erase u }).post
      (.handlerSelect i)
    (p.waveLeft.erase u ≠ [] → exec (.configCompleteWave pad u) s = .next s1) ∧
    (p.waveLeft.erase u = [] → p.phase = .loading → exec (.configCompleteWave pad u) s =
      .next (((s1.updPad pad fun p => { p with phase := .running }).startSeeds pad).checkDone pad))) ∧
  (∀ (s : State) (node slot : Nat) (x : NodeStore), let key := Loc.key (.node node)
    (s.getPad (s.getU key).pad).stop = false → ((s.getU key).stores.find? fun y => y.slot == slot && !y.visible) = some x →
    let pad := (s.getU key).pad
    let behind := heldBefore (s.getU key).stores x
    let y : NodeStore := { x with writes := [], held := (if behind = true then x.writes else []) ++ x.held, visible := true }
    let s1 := ((if behind = true then s else s.putWrites x.writes).updU key fun u =>
      { u with stores := u.stores.map fun z => if z == x then y else z }).drainNode key
    -- what is due with it leaves too
    let due := ∃ z ∈ s1.leaving pad (s1.getPad pad).tested, z.2.gatedPart = true
    (¬ due → exec (.nodeStoreVisible node slot) s = .next (s1.checkDone pad)) ∧
    (due → exec (.nodeStoreVisible node slot) s = .next ((s1.post (.externalPublish pad)).checkDone pad))) ∧
  ∀ (s : State) (pad node : Nat), let p := s.getPad pad
    let key := Loc.key (.node node)
    p.stop = false → p.phase = .running → nthD p.conf.scRing p.ringPos node = node →
    let s1 := (s.updU key fun u => { u with scBudget := 8 }).wake key
    let may := s1.ready.any fun r => r.1 == Loc.node node && (scSlots (s1.getU key).conf).contains r.2.1
    exec (.scRingToken pad node) s = .next (if may = true then s1
      else (s1.updU key fun u => { u with scBudget := 0 }).passScToken pad)

/-! ## Handlers and configurations -/

/-- R134, R261, R262, R266, R267, R299, R300, R303, R310: of the handlers that are runnable the one of highest priority starts when none waits with a
trap or has been passed over 64 times: its registers hold the trigger's payload, tag and span, its pc the entry; a failed firing runs again
from its entry, behind a test of its cell; a FIN that waited commits when its ports have room and its stores find permits, and waits on
otherwise; a barrier generation that every member has reached is sent to all. A handler that only its tag demand holds back raises
TAGS_EXHAUSTED at its timeout. The model's own choices: registers of a trigger with an invalid lane (notes/assumptions/43.md), what a re-run keeps (44),
a barrier's arrivals (30). -/
def Obligations.HandlersAreSelectedAndStart : Prop :=
  (∀ (s : State) (cell : Nat) (c : Cand), isFirmware cell = false → (s.coreOf cell).running = false → (s.coreOf cell).failed = false →
    (s.coreOf cell).finWait = false → pick (s.runnable cell true) = some c →
    c ∈ s.runnable cell true ∧
    ((∀ d ∈ s.runnable cell true, d.a.isTrap = false ∧ d.st.passes < 64) → ∀ d ∈ s.runnable cell true, d.a.prio ≤ c.a.prio) ∧
    ∃ t : State, exec (.handlerSelect cell) s = .next t ∧
      (t.coreOf cell).running = true ∧ (t.coreOf cell).pc = c.a.entryPc ∧ (t.coreOf cell).firing.handler = c.h ∧
      (t.coreOf cell).firing.prio = c.a.prio ∧ (t.coreOf cell).selections = (s.coreOf cell).selections + 1 ∧
      ∀ k tr, c.a.isTrap = false → (s.getU c.key).nextTrigger c.h = some (k, tr) →
        (t.coreOf cell).reg 1 = tr.payload.setWidth 64 ∧ (t.coreOf cell).reg 2 = BitVec.ofNat 64 tr.tag ∧ (t.coreOf cell).reg 4 = 0 ∧
        (t.coreOf cell).firing.tag = tr.tag ∧ (t.coreOf cell).firing.seq = tr.seq ∧ (t.coreOf cell).firing.spanLo = tr.lo ∧
        (t.coreOf cell).firing.spanHi = tr.hi ∧ (t.getU c.key).pending = (s.getU c.key).pending.erase (k, tr)) ∧
  (∀ (s : State) (cell : Nat), (s.coreOf cell).failed = true → (s.getCell cell).testing = true →
    exec (.firingRerun cell) s = .next (s.post (.firingRerun cell))) ∧
  (∀ (s : State) (cell : Nat), isFirmware cell = false → (s.coreOf cell).failed = true → (s.getCell cell).testing = false →
    let f := (s.coreOf cell).firing
    let a : HandlerConf := amGet (s.getU (Loc.key (.cell cell f.entry))).conf.actors f.handler {}
    ∃ t : State, exec (.firingRerun cell) s = .next t ∧
      (t.coreOf cell).running = true ∧ (t.coreOf cell).failed = false ∧ (t.coreOf cell).pc = a.entryPc ∧
      (t.coreOf cell).reg 1 = f.s1 ∧ (t.coreOf cell).reg 2 = f.s2 ∧ (t.coreOf cell).reg 4 = 0 ∧
      (t.coreOf cell).firing = { f with reruns := f.reruns + 1, spanLo := f.startLo, spanHi := f.startHi } ∧
      (∀ x, x ≠ cell → t.coreOf x = s.coreOf x) ∧ t.units = s.units ∧ ∀ sp, t.mem sp = s.mem sp) ∧
  (∀ (s : State) (cell : Nat),
    let s1 := { s with curCore := cell }
    let s2 := s1.updU s1.curUnitKey fun u => { u with outFull := false }
    (s2.core.finWait = false → exec (.finPortRelease cell) s = .next s2) ∧
    (s2.core.finWait = true →
      let s3 := s2.setCore { s2.core with finWait := false }
      let waits := isFirmware cell = false ∧ ∃ a v, Held.store .s a v ∈ s3.core.firing.held ∧
        s3.sliceFull s3.core.firing.pad cell (sliceOfAddr a) = true
      (¬ waits → exec (.finPortRelease cell) s = .next s3.finCommit) ∧
      (waits → exec (.finPortRelease cell) s = .next ((s3.setCore { s3.core with finWait := true }).post (.finPortRelease cell))))) ∧
  (∀ (s : State) (pad barrier member gen : Nat), let p := s.getPad pad
    p.stop = false → p.phase.stopping = false →
    let old := amGet p.roots barrier []
    let held := if old.contains (member, gen) = true then old else old ++ [(member, gen)]
    let members := amGet p.conf.members barrier []
    ((∃ m ∈ members, (m, gen) ∉ held) → exec (.streamBarrierArrival pad barrier member gen) s =
      .next (s.setPad pad { p with roots := amPut p.roots barrier held })) ∧
    ((∀ m ∈ members, (m, gen) ∈ held) → ∃ s1 : State, s1 = s.setPad pad { p with roots := amPut p.roots barrier (held.filter fun x => x.2 != gen) } ∧
      let tree := amGet p.conf.bars barrier {}
      let ends := members.filterMap fun (m : Nat) => (p.conf.units[m]?).map fun (y : Loc × UnitConf) => Dest.trigger y.1 (amGet y.2.barriers barrier 0)
      exec (.streamBarrierArrival pad barrier member gen) s = .next (s1.emit tree.root (portInput barrier) ends tree.down
        { net := .control, kind := 3, payload := 1, tag := barrier, seq := gen, ctx := p.ctx }))) ∧
  ∀ (s : State) (u : Loc) (h : Nat) (c : Cand),
    ((s.runnable u.idx false).find? fun c => c.key == u.key && c.h == h && !(s.getU u.key).tagsOk c.a) = some c →
    ∃ q : FaultRec, q.code = 0x0C ∧ q.slot = h ∧ exec (.tagsExhausted u h) s = .next (s.raise (s.getU u.key).pad q)

/-- R174, R273 to R275, R336, R372: the configuration that the oldest token of a miss buffer needs enters the cache, in a free entry or that of the
least recently used one that is idle, and the tokens that wait for it go on in order; past its timeout CFG_MISS is raised. A tile swap ends with
the tile EMPTY and its bytes kept, tainted where they fail their checks; a firing that needs the tile has it FILLING, and then READY with its
bytes back. A tainted copy is the model's own choice (notes/assumptions/52.md). -/
def Obligations.ConfigurationsAndTilesAreSwapped : Prop :=
  (∀ (s : State) (cell : Nat) (t : Token) (u : Loc) (slot : Nat) (f : Fld) (rest : List (Token × Dest)),
    (s.getCell cell).miss = (t, .field u slot f) :: rest →
    (s.getPad (s.getU u.key).pad).stop = false →
    (∃ q : FaultRec, q.code = 0x0D ∧ q.aux = (s.getU u.key).handle ∧
      exec (.cfgMiss cell) s = .next (s.raise (s.getU u.key).pad q)) ∧
    (State.fetchRoom cell u.key 5 s = none → exec (.configFetchDone cell) s = .next (s.post (.configFetchDone cell))) ∧
    ∀ s1, State.fetchRoom cell u.key 5 s = some s1 →
      let s2 := (s1.swapIn u.key ((s1.freeEntry cell).getD 0)).touch u
      let mine (x : Token × Dest) : Bool := match x.2 with
        | .field y _ _ | .trigger y _ => y == u
        | _ => false
      ∃ s3 : State, s3.units = s2.units ∧ (s3.getCell cell).miss = (s2.getCell cell).miss.filter (fun x => !mine x) ∧
        s3.events = ((((s2.getCell cell).miss.filter mine).filterMap fun x => arrivalAt x.2 x.1).map fun i => Event.mk i {}) ++ s2.events ∧
        let s4 := ((s3.wake u.key).settleUnit u.key).post (.handlerSelect cell)
        exec (.configFetchDone cell) s = .next (if s4.missed cell = [] then s4 else s4.post (.configFetchDone cell))) ∧
  -- tokens of stopped paddocks stay
  (∀ (s : State) (cell : Nat), (∀ x ∈ (s.getCell cell).miss, ∀ u, (∃ slot f, x.2 = .field u slot f) ∨ (∃ k, x.2 = .trigger u k) →
      (s.getPad (s.getU u.key).pad).stop = true) → s.engineWants cell = none →
    exec (.configFetchDone cell) s = .next s) ∧
  ∀ (s : State) (i n tile : Nat),
    let u : Loc := .cell i n
    let t := s.tile u.key tile
    (t.st = .draining → t.swapped = none → i < 384 → ∀ s1 bs c, s.checkedRead .l (tileAddr i t) t.size = (s1, bs, c) →
      let empty (bs : List Byte) (v : State) : Tile := { v.tile u.key tile with st := .empty, swapped := some bs }
      ((s.getU u.key).slotNo = none →
        exec (.tileSwapDone u tile) s = .next ((s.setTile u.key tile (empty ((s.getU u.key).savedTile tile) s)).wake u.key)) ∧
      (s.getU u.key).slotNo ≠ none →
      (c = none → exec (.tileSwapDone u tile) s = .next ((s1.setTile u.key tile (empty bs s1)).wake u.key)) ∧
      (c ≠ none → ∃ w : State, exec (.tileSwapDone u tile) s = .next w ∧ (w.tile u.key tile).st = .empty ∧
        (w.tile u.key tile).swapped = some bs ∧ (w.tile u.key tile).err = true)) ∧
    (∀ slot bs, i < 384 → (s.getU u.key).conf.needsTile slot = some tile → t.st = .empty → t.swapped = some bs →
      (s.getPad (s.getU u.key).pad).stop = true → s.askSwapIn u.key slot = s) ∧
    (∀ slot bs, i < 384 → (s.getU u.key).conf.needsTile slot = some tile → t.st = .empty → t.swapped = some bs →
      (s.getPad (s.getU u.key).pad).stop = false → s.askSwapIn u.key slot = (s.updU u.key fun x => { x with tiles := amPut x.tiles tile { t with st := .filling } }).post (.tileSwapDone u tile)) ∧
    ∀ bs, t.st = .filling → t.swapped = some bs → (s.getPad (s.getU u.key).pad).stop = false →
      let s1 := match (s.getU u.key).slotNo with
        | some _ => s.storeMem .l (tileAddr i t) bs
        | none => s.updU u.key fun x => { x with saved := x.saved.filter (fun (y : Nat × List Byte) => y.1 != tile) ++ [(tile, bs)] }
      exec (.tileSwapDone u tile) s = .next ((s1.setTile u.key tile { t with st := .ready, swapped := none }).wake u.key)

/-! ## Paging, engines, signals -/

/-- R292, R355, R358 to R360: a page response is taken for the request of its index: one that is not recorded, or of another generation, is
dropped and counted as stale; after a success the entry is walked again, and asked for again while it is not valid; after a failure every
access, seed, sink and packet that waits for the page is denied, and so is a paddock that is parked for it; past T_FAULT the paddock of the oldest waiting
access, seed or sink is parked and its page asked for. The host's invalidation of a range holds for exactly its pages, once no translated store to
host memory is on its way. The model's own choices: what a response during a live update does and which page a request names
(notes/assumptions/61.md, 62, 93). -/
def Obligations.PageResponsesResolveTheirRequests : Prop :=
  (∀ (s : State) (prg : Nat), s.update = none →
    let ctx := s.arg.ctx
    let stale (s : State) (ctx : Nat) (t : State) : Prop :=
      t = { s with ctxs := amPut s.ctxs ctx { (amGet s.ctxs ctx {} : Ctx) with stale := ((amGet s.ctxs ctx {} : Ctx).stale + 1) % 2 ^ 32 } }
    (amGet? s.prgs prg = none → ∀ i ∈ [Instr.pageResponseSuccess prg, .pageResponseFailure prg],
      ∃ t : State, exec i s = .next t.askParked ∧ stale s ctx t) ∧
    ∀ r, amGet? s.prgs prg = some r →
      let s1 := ({ s with prgs := amDel s.prgs prg } : State).retryMisses
      (r.gen ≠ (amGet s.ctxs r.ctx {} : Ctx).gen → ∀ i ∈ [Instr.pageResponseSuccess prg, .pageResponseFailure prg],
        ∃ t : State, exec i s = .next t.askParked ∧ stale s1 r.ctx t) ∧
      (r.gen = (amGet s.ctxs r.ctx {} : Ctx).gen →
        (∀ s2 w, s1.walk r.ctx r.va = (s2, w) → w ≠ .notValid →
          exec (.pageResponseSuccess prg) s = .next (s2.pageResolved r.ctx r.va).askParked) ∧
        (∀ s2, s1.walk r.ctx r.va = (s2, .notValid) → ∃ s3 n, s2.pageRequest r = (s3, n) ∧
          exec (.pageResponseSuccess prg) s = .next ({ s3 with units := s3.units.map fun x =>
            (x.1, { x.2 with withheld := x.2.withheld.map fun w => if w.prg == some prg then { w with prg := n } else w }) } : State).askParked) ∧
        ∃ t : State, exec (.pageResponseFailure prg) s = .next t.askParked ∧ t.prgs = s1.prgs ∧ t.units = s1.units ∧
          (∀ lq i, r.pkt = some (lq, i) → (t.pkt lq i).denied = true) ∧
          -- every paddock of the context that waits for the page faults: for an access of its nodes, else a wait of its own, else its parking
          ∀ x ∈ s1.pads, x.2.ctx = r.ctx →
            let waits (y : Nat × UnitSt) (w : Withheld) : Prop := y.2.live = true ∧ y.2.pad = x.1 ∧ y.2.ctx = r.ctx ∧
              (y.2.withheld.find? fun w => w.prg == some prg || pageOf w.va == r.va) = some w ∧ (s1.slotEnv y.1 w.slot).isSome = true
            let nodes := ∃ y ∈ s1.units, ∃ w, waits y w
            (nodes → ∃ q : FaultRec, q.code = 0x0E ∧ q.aux = BitVec.ofNat 64 (pageOf r.va) ∧ (∃ y ∈ s1.units, ∃ w, waits y w ∧ q.tag = w.tag) ∧
              Event.mk (.paddockFault x.1 q) {} ∈ t.events) ∧
            (¬ nodes → ∀ w, (x.2.waits.find? fun y => y.2.va == r.va) = some w → Event.mk (.paddockFault x.1 w.2.denial) {} ∈ t.events) ∧
            (¬ nodes → (x.2.waits.find? fun y => y.2.va == r.va) = none → x.2.waitPage = some r.va →
              Event.mk (.paddockFault x.1 x.2.waitDenial) {} ∈ t.events))) ∧
  (∀ (s : State) (node : Nat) (w : Withheld) (rest : List Withheld), let u := s.getU (Loc.key (.node node))
    s.arg.pad = none → u.live = true → u.withheld = w :: rest → (s.getPad u.pad).phase = .running →
    ∃ (r : FaultRec) (stores : Bool), (∀ e, s.slotEnv (Loc.key (.node node)) w.slot = some e →
        r.code = 0x0E ∧ r.aux = BitVec.ofNat 64 (pageOf w.va) ∧ r.tag = w.tag ∧
        (∀ y, e.instr = .ldn y ∨ e.instr = .ldsc y → stores = false) ∧ (∀ y, e.instr = .stn y ∨ e.instr = .stsc y ∨ e.instr = .updn y → stores = true) ∧
        ∀ y, e.instr = .xlate y → stores = e.feedsStore u) ∧
      exec (.pageFaultTimeout node) s = .next (((s.updPad u.pad fun p =>
        { p with waitPage := some (pageOf w.va), waitWrite := stores, waitDenial := r }).stopPad u.pad .parking).askParked)) ∧
  (∀ (s : State) (node q k : Nat) (w : PageWait) (rest : List (Nat × PageWait)), s.arg.pad = some q → (s.getPad q).waits = (k, w) :: rest →
    (s.getPad q).phase = .running → exec (.pageFaultTimeout node) s = .next (((s.updPad q fun p =>
      { p with waitPage := some w.va, waitWrite := w.write, waitDenial := w.denial }).stopPad q .parking).askParked)) ∧
  ∀ (s : State) (ctx base len : Nat),
    let onTheWay := ∃ x ∈ s.units, x.2.live = true ∧ x.2.ctx = ctx ∧ ∃ y ∈ x.2.stores, y.visible = false ∧ ∃ w ∈ y.writes, w.1 = .h
    (s.arg.flag = true → onTheWay → exec (.atsInvalidation ctx base len) s = .next (s.post (.atsInvalidation ctx base len) s.arg)) ∧
    ((s.arg.flag = true → ¬ onTheWay) → ∃ t, exec (.atsInvalidation ctx base len) s = .next t ∧
    ∀ c a, t.ats.contains (c, a / 4096) =
      (if c = 2 * ctx + s.arg.code % 2 ∧ base / 4096 ≤ a / 4096 ∧ a / 4096 < base / 4096 + (base % 4096 + len + 4095) / 4096 then s.arg.flag
       else s.ats.contains (c, a / 4096)))

/-- R97, R173, R174, R207, R212, R217 to R220, R264, R268, R274, R312 to R316, R320: the first open command of an engine queue waits for the commands
before its fences, for room in the fold's engines and for permits of the slices that its ranges reach. A signal update then changes its eight
bytes by its operation. A copy moves its bytes as they are, between any two spaces; one whose destination overlaps its source from above repeats
what it has written, unit by unit. A tile is copied out when it is READY and in when it or its ring's tail is EMPTY, with its
flags. GATH and SCAT move each element by its offset, and stop at one out of bounds; the members of a COLL give the root's bytes or the sum along the tree to
every destination. A completed command frees its entry and wakes the fold's cells; an append by ENQ stands as the queue's next packet;
a group of slice stores arrives with the reply that gives its permit back. The model's own choices: where an address stands (notes/assumptions/35.md),
what a line that fails gives (37 to 39), tiles (40, 98), the gate of external pages (41), appends (42) and the arrival of groups (27, 36). -/
def Obligations.EngineCommandsPerform : Prop :=
  let place (fold : Nat) (e : EngAddr) : Space × Nat := match e.space with
    | 0 => (.l, lAddr (fold * 12 + e.row) e.addr)
    | 1 => (.f, fAddr fold e.addr)
    | _ => (.s, e.addr)
  let clear (s : State) (x : Space × Nat) (n : Nat) : Prop := ((linesOf x.2 n).all fun l => s.markOf x.1 l == none) = true
  let apart (x y : Space × Nat) (n m : Nat) : Prop := x.1 ≠ y.1 ∨ x.2 + n ≤ y.2 ∨ y.2 + m ≤ x.2
  (∀ (s : State) (c : EngCmd) (a b : Part), a.len = b.len → a.len % 8 = 0 → a.addr % 8 = 0 → b.addr % 8 = 0 → a.bad = false → b.bad = false →
    b.desc = false → clear s (a.sp, a.addr) a.len → s.memWf = true →
    let s2 := s.engCopy c [a] [b]
    (a.sp ≠ b.sp ∨ b.addr ≤ a.addr ∨ a.addr + a.len ≤ b.addr → s2.readMem b.sp b.addr b.len = s.readMem a.sp a.addr a.len) ∧
    (a.sp = b.sp → a.addr < b.addr → ∀ x, x < a.len → (s2.mem b.sp).get (b.addr + x) = (s2.mem b.sp).get (a.addr + x)) ∧
    (∀ x, x < b.addr ∨ b.addr + b.len ≤ x → (s2.mem b.sp).get x = (s.mem b.sp).get x) ∧ ∀ sp, sp ≠ b.sp → s2.mem sp = s.mem sp) ∧
  (∀ (s : State) (fold : Nat) (c : EngCmd) (e : EngAddr) (n : Nat) (write : Bool),
    (c.pkt = none → e.space ≤ 2 → s.engRange fold c write e n = (s, .parts [{ sp := (place fold e).1, addr := (place fold e).2, len := n }])) ∧
    ∀ s2 pa en, e.space = 3 → 0 < n → e.addr / 65536 = (e.addr + n - 1) / 65536 → e.addr + n ≤ 2 ^ 56 →
      s.translateAny c.ctx e.addr write = (s2, .phys pa en) → s.engRange fold c write e n = (s2, .parts
        [{ sp := .m, addr := pa, len := n, ext := pteExternal en, bad := ptePoisoned en, desc := pteDescribed en }])) ∧
  (∀ (s : State) (fold q : Nat) (c : EngCmd), firstOpen (amGet s.engines (queueKey fold q) []) = some c →
    let waits := (c.deps.any fun d => s.openIds.contains d) || decide (128 ≤ s.copiesInFlight fold) || s.engFull fold c
    (c.started = false → waits = true → exec (.engineOpStart fold q) s = .next (s.postOnce (.engineOpStart fold q))) ∧
    (c.started = true ∨ waits = false → c.pkt = none →
      let s1 := (s.pageCame c.pad (engWait c.id)).engRequest fold c
      -- a try that waits for what its paddock's firings do not bring comes again
      (∀ u : State, s1.cmdEnd fold q c (.wait u false) = u.postOnce (.engineOpStart fold q)) ∧
      (∀ op a v, c.op = .sig op a v → a.space = 1 →
        let p := fAddr fold a.addr
        ((linesOf p 8).all fun l => s1.markOf .f l == none) = true → s1.memWf = true →
        ∃ s2 : State, exec (.engineOpStart fold q) s = .next (s2.cmdDone fold q c.id false) ∧
          ofBytes (s2.readMem .f p 8) = signalValue op (ofBytes (s1.readMem .f p 8)) v.toNat % 2 ^ 64 ∧
          (∀ x, x < p ∨ p + 8 ≤ x → s2.memF.get x = s1.memF.get x) ∧ s2.memL = s1.memL ∧ s2.memS = s1.memS ∧ s2.memM = s1.memM ∧
          s2.sigWriters.head? = some ((.f, p), .engine fold q c.id) ∧
          (s1.droverStop = false → ∀ lq i e, e ∈ (s1.pkt lq i).signals → (s1.pkt lq i).status = none → (s1.pkt lq i).decided = false → e.space = 1 → fAddr e.fold e.addr = p →
            Event.mk (.barrierReading lq i) {} ∈ s2.events)) ∧
      (∀ src dst n lo width clr, c.op = .cpy src dst n lo width clr → src.space ≠ 5 → dst.space ≠ 5 →
        ∀ sa ls sb ld, s1.engRange fold c false src n = (sa, .parts ls) → sa.engRange fold c true dst n = (sb, .parts ld) →
          ((ld.any (·.ext)) = true → sb.gated c = false) →
          exec (.engineOpStart fold q) s = .next ((sb.engCopy c ls ld).cmdDone fold q c.id false)) ∧
      (∀ src dst n lo width clr key, c.op = .cpy src dst n lo width clr → src.space = 5 → dst.space ≠ 5 →
        s1.engUnit c.cell c.entry c.ctx src = some key → (s1.getU key).slotNo.isSome = true →
        let t := s1.tile key src.addr
        (t.st ≠ .ready → exec (.engineOpStart fold q) s = .next (s1.cmdEnd fold q c (.wait s1 true))) ∧
        ∀ sb ld, t.st = .ready → s1.engRange fold c true dst n = (sb, .parts ld) → ((ld.any (·.ext)) = true → sb.gated c = false) →
          let s2 := sb.engCopy c [tilePart key t] ld
          exec (.engineOpStart fold q) s = .next ((if clr = true
            then (s2.setTile key src.addr { (s2.tile key src.addr).emptied with kdone := 0 }).settleUnit key
            else s2).cmdDone fold q c.id false)) ∧
      (∀ src dst n lo width clr key, c.op = .cpy src dst n lo width clr → src.space ≤ 2 → dst.space = 5 →
        s1.engUnit c.cell c.entry c.ctx dst = some key → (s1.getU key).slotNo.isSome = true →
        let t := s1.tile key dst.addr
        let d := if t.role = .op then s1.tailTile key t.ring else dst.addr
        let td := s1.tile key d
        let from' := place fold src
        let row48 (x : Nat) : Prop := (td.role = .op ∨ td.role = .plain) → ¬ (td.alt = true ∧ td.ty = .f32) → x % 64 < 48
        (t.role = .op → td.st ≠ .empty ∨ td.swapped.isSome = true →
          exec (.engineOpStart fold q) s = .next (s1.cmdEnd fold q c (.wait s1 true))) ∧
        (n = td.size → clear s1 from' n → from'.2 % 8 = 0 → apart from' (.l, tileAddr (idxOf key) td) n n → s1.memWf = true →
          (t.role = .op → td.st = .empty ∧ td.swapped = none) →
          ∃ s2 : State, (t.role ≠ .op → exec (.engineOpStart fold q) s = .next ((s2.settleUnit key).cmdDone fold q c.id false)) ∧
            (t.role = .op → exec (.engineOpStart fold q) s =
                .next (((s2.completeTail key t.ring (lo + width)).settleUnit key).cmdDone fold q c.id false) ∧
              (s2.tile key d).st = .filling ∧ (s2.tile key d).lo = lo ∧
              ∀ slot f e, (s1.getU key).conf.ringReader t.ring = some (slot, f) → s1.slotEnv key slot = some e → (s2.tile key d).tag = e.hdr.tsp * 64) ∧
            (s2.tile key d).err = false ∧ (s2.tile key d).exc = false ∧ (s2.tile key d).sat = false ∧
            (∀ x, x < n → row48 x → s2.memL.get (tileAddr (idxOf key) td + x) = (s1.mem from'.1).get (from'.2 + x)) ∧
            ∀ x, x < tileAddr (idxOf key) td ∨ tileAddr (idxOf key) td + n ≤ x → s2.memL.get x = s1.memL.get x)) ∧
      (∀ sparse list dense count esize,
        let index (i : Nat) : Nat := ofBytes (s1.readMem (place fold list).1 ((place fold list).2 + 4 * i) 4) * esize
        let x := place fold sparse
        let d := place fold dense
        let ok := sparse.space ≤ 2 ∧ dense.space ≤ 2 ∧ list.space ≤ 1 ∧ esize % 8 = 0 ∧ x.2 % 8 = 0 ∧ d.2 % 8 = 0 ∧ (place fold list).2 % 4 = 0 ∧
          clear s1 (place fold list) (4 * count) ∧ s1.memWf = true
        let gathers := c.op = .gath sparse list dense count esize
        let scatters := c.op = .scat dense sparse list count esize
        (gathers ∨ scatters → ok → 0 < count → s1.elementOk c sparse (index 0) esize = false →
          ∃ f : FaultRec, f.code = 0x17 ∧ exec (.engineOpStart fold q) s = .next (s1.cmdEnd fold q c (.fault s1 f true))) ∧
        (ok → (∀ i, i < count → s1.elementOk c sparse (index i) esize = true) →
          (gathers → apart d (place fold list) (esize * count) (4 * count) →
            (∀ i, i < count → clear s1 (x.1, x.2 + index i) esize ∧ apart d (x.1, x.2 + index i) (esize * count) esize) →
            ∃ s2 : State, exec (.engineOpStart fold q) s = .next (s2.cmdDone fold q c.id false) ∧
              (∀ i, i < count → s2.readMem d.1 (d.2 + esize * i) esize = s1.readMem x.1 (x.2 + index i) esize) ∧
              (∀ a, a < d.2 ∨ d.2 + esize * count ≤ a → (s2.mem d.1).get a = (s1.mem d.1).get a) ∧ ∀ sp, sp ≠ d.1 → s2.mem sp = s1.mem sp) ∧
          (scatters → clear s1 d (esize * count) →
            (∀ i, i < count → apart (x.1, x.2 + index i) (place fold list) esize (4 * count) ∧ apart (x.1, x.2 + index i) d esize (esize * count)) →
            ∃ s2 : State, exec (.engineOpStart fold q) s = .next (s2.cmdDone fold q c.id false) ∧
              (∀ i, i < count → (∀ j, i < j → j < count → index i + esize ≤ index j ∨ index j + esize ≤ index i) →
                s2.readMem x.1 (x.2 + index i) esize = s1.readMem d.1 (d.2 + esize * i) esize) ∧
              (∀ a, (∀ i, i < count → a < x.2 + index i ∨ x.2 + index i + esize ≤ a) → (s2.mem x.1).get a = (s1.mem x.1).get a) ∧
              ∀ sp, sp ≠ x.1 → s2.mem sp = s1.mem sp))) ∧
      (∀ op src dst len root, c.op = .coll op src dst len root →
        let s2 := s1.updCmd (queueKey fold q) c.id fun c => { c with started := true }
        (s2.members c.pad q = none → exec (.engineOpStart fold q) s = .next (s2.cmdEnd fold q c (.wait s2 (s2.noMember c.pad q)))) ∧
        ∀ ms, s2.members c.pad q = some ms →
          -- every member needs its own permits
          ((∃ m ∈ ms, s2.engFull m.1 m.2 = true) → exec (.engineOpStart fold q) s = .next (s2.cmdEnd fold q c (.wait s2 false))) ∧
          ((∀ m ∈ ms, s2.engFull m.1 m.2 = false) →
          let u := ms.foldl (fun u m => u.pageCame c.pad (engWait m.2.id)) (ms.foldl (fun u m => u.engRequest m.1 m.2) s2)
          let done (u : State) : State := ms.foldl (fun u m => u.cmdDone m.1 q m.2.id false) u
          ((∃ m ∈ ms, m.2.collKey ≠ c.collKey) → ∃ f : FaultRec, f.code = 6 ∧ exec (.engineOpStart fold q) s = .next ((done u).raise c.pad f)) ∧
          let from' (m : Member) := place m.1 m.2.collSrc
          let goal (m : Member) := place m.1 m.2.collDst
          let value (m : Member) : List (List Byte × Option Nat) :=
            (List.range (len / 8)).map fun i => (u.readMem (from' m).1 ((from' m).2 + 8 * i) 8, none)
          let rootMember := (ms.drop root).take 1
          let sum := if op = .bcast then ((rootMember.map value).headD []) else treeSum (ms.map value) (u.getPad c.pad).conf.collTree
          let targets := if op = .reduce then rootMember else ms
          (∀ m ∈ ms, m.2.collKey = c.collKey ∧ m.2.pkt = none ∧ m.2.collSrc.space ≤ 2 ∧ m.2.collDst.space ≤ 2 ∧ (from' m).2 % 8 = 0 ∧
            (goal m).2 % 8 = 0 ∧ clear u (from' m) len) → len % 8 = 0 → u.memWf = true → sum.length = len / 8 →
          targets.Pairwise (fun m k => apart (goal m) (goal k) len len) →
          ∃ s3 : State, exec (.engineOpStart fold q) s = .next (done s3) ∧
            (∀ m ∈ targets, s3.readMem (goal m).1 (goal m).2 len = sum.flatMap (·.1)) ∧
            ∀ sp x, (∀ m ∈ targets, sp ≠ (goal m).1 ∨ x < (goal m).2 ∨ (goal m).2 + len ≤ x) → (s3.mem sp).get x = (u.mem sp).get x)) ∧
      ∀ src lq, c.op = .enq src lq →
        exec (.engineOpStart fold q) s =
          .next ((s1.updCmd (queueKey fold q) c.id fun c => { c with started := true }).postOnce (.enqAppend fold q)))) ∧
  (∀ (s : State) (fold q : Nat) (c : EngCmd) (rest : List EngCmd), amGet s.engines (queueKey fold q) [] = c :: rest →
    (c.done = false → exec (.engineOpComplete fold q) s = .next s) ∧
    (c.done = true →
      let s1 := ({ s with engines := amUpd s.engines (queueKey fold q) [] fun _ => rest } : State).postOnce (.engineOpStart fold q)
      (∀ lq i, c.pkt = some (lq, i) →
        exec (.engineOpComplete fold q) s = .next (s1.post (.packetComplete lq i (if c.failed then .faulted else .complete)))) ∧
      (c.pkt = none → exec (.engineOpComplete fold q) s =
        .next (((s1.postAll ((List.range 12).map fun r => Event.mk (.handlerSelect (fold * 12 + r)) {})).checkQuiet c.pad).checkDone c.pad)))) ∧
  (∀ (s : State) (fold q : Nat) (c : EngCmd) (src : EngAddr) (lq : Nat), firstOpen (amGet s.engines (queueKey fold q) []) = some c →
    c.op = .enq src lq → c.started = true →
    let x := s.getQ lq
    let s0 := s.pageCame c.pad (engWait c.id)
    (s.engFull fold c = true → exec (.enqAppend fold q) s = .next (s.postOnce (.enqAppend fold q))) ∧
    (s.engFull fold c = false →
    (x.owner ≠ some c.ctx → ∃ f : FaultRec, f.code = 0x0F ∧
      exec (.enqAppend fold q) s = .next (s.cmdEnd fold q c (.fault s0 f false))) ∧
    (x.owner = some c.ctx → x.wr - x.rd = 2 ^ x.lg →
      exec (.enqAppend fold q) s = .next (s.cmdEnd fold q c (.wait s0 ((s0.getPad c.pad).queue == lq)))) ∧
    (x.owner = some c.ctx → x.wr - x.rd ≠ 2 ^ x.lg → src.space = 1 → c.pkt = none →
      ∀ s1 l, s0.engRange fold { c with pkt := none } true ⟨3, 0, 0, s0.pktAddr lq x.wr⟩ 64 = (s1, .parts l) →
        ((l.any (·.ext)) = true → s1.gated { c with pkt := none } = false) →
        exec (.enqAppend fold q) s = .next (s.cmdEnd fold q c
          (.done ((s1.engCopy c [{ sp := .f, addr := fAddr fold src.addr, len := 64 }] l).doorbell lq (x.wr + 1))))))) ∧
  (∀ (s : State) (cell slice : Nat) (g : SGroup), (s.groups.find? fun g => g.cell == cell && g.slice == slice) = some g →
    exec (.sliceReply cell slice) s = .next (({ s with groups := s.groups.erase g }.deliverGroup g).checkDone g.pad)) ∧
  ∀ (s : State) (cell slice : Nat), (s.groups.find? fun g => g.cell == cell && g.slice == slice) = none →
    exec (.sliceReply cell slice) s = .next ((s.pads.map (·.1)).foldl (fun s p => s.checkDone p) s)

/-! ## Launch queues and packets -/

/-- R219, R226, R280 to R285, R290, R323, R399 to R401: a doorbell makes the packets up to its index visible and one that goes back or past the ring is
ignored and counted; re-arming retires what was left, and the queue is armed once that has retired; a priority takes the low three bits (of
8 and more by the model's choice, notes/assumptions/96.md). The drover chooses among the heads: an aged queue, else the highest priority. SIGNAL,
COPY, FENCE and BARRIER packets do what their tables say, and a BARRIER takes no reading behind the one that decides it; a LAUNCH, or a paddock
that waits at the head, takes its place. A packet that has completed retires once its status is written, its signal counted, and its
predecessors are out of the way (down by 1 at COMPLETE, to −1 otherwise); a LAUNCH while it is done, and its paddock is gone then. The model's
own choices: a queue that does not exist (notes/assumptions/10.md), malformed packets and missing pages (72),
places (71), what updates a signal (102), firings in flight at the end of a launch (111). -/
def Obligations.QueuesAndPacketsAdvance : Prop :=
  (∀ (s : State) (q wr prio : Nat),
    let x := s.getQ q
    (64 ≤ q → ∀ i ∈ [Instr.queueDoorbell q wr, .queueRearm q, .queuePrioWrite q prio], exec i s = .fault .noSuchUnit) ∧
    (q < 64 →
      (x.st ≠ .disabled → x.wr ≤ wr → wr - x.rd ≤ 2 ^ x.lg → exec (.queueDoorbell q wr) s = .next (s.doorbell q wr)) ∧
      (x.st = .disabled ∨ wr < x.wr ∨ 2 ^ x.lg < wr - x.rd →
        exec (.queueDoorbell q wr) s = .next (s.updQ q fun x => { x with ignored := x.ignored + 1 })) ∧
      (x.st = .aborted → x.rearm = none → exec (.queueRearm q) s =
        .next ((((s.retireUnstarted q).updQ q fun x => { x with rearm := some x.wr }).settleRearm q).postOnce .droverSelection)) ∧
      (∀ w, x.rearm = some w →
        let left := ∃ y ∈ s.events, ∃ j, y.instr = .packetComplete q j .abortedByPredecessor ∧ j < w
        (left → s.settleRearm q = s) ∧ (¬ left → s.settleRearm q = s.updQ q fun x => { x with st := .armed, rearm := none })) ∧
      (x.st ≠ .aborted ∨ x.rearm.isSome = true → exec (.queueRearm q) s = .next s) ∧
      exec (.queuePrioWrite q prio) s = .next (s.updQ q fun x => { x with prio := prio % 8 }))) ∧
  (∀ s : State, ∀ i ∈ [Instr.droverSelection, .selectionPassTick],
    exec i s = .next s.selectPass ∧
    (s.droverStop = true ∨ s.update.isSome = true → s.selectPass = s) ∧
    (∀ (cs : List QCand) (c : QCand), s.firstQueue cs = some c → c ∈ cs ∧
      ((∃ d ∈ cs, 64 ≤ (s.getQ d.q).passes) → 64 ≤ (s.getQ c.q).passes) ∧
      ((∀ d ∈ cs, (s.getQ d.q).passes < 64) → ∀ d ∈ cs, (s.getQ d.q).prio ≤ (s.getQ c.q).prio)) ∧
    ∀ s1 cs bs, s.droverStop = false → s.update = none → State.candidates (s.queues.map (·.1)) s [] [] = (s1, cs, bs) →
      let s2 := s1.passOver bs
      (s2.choosing = true ∨ s2.firstQueue cs = none → s.selectPass = s2) ∧
      ∀ c, s2.choosing = false → s2.firstQueue cs = some c →
        let s3 := s.selectPass
        (s3.pkt c.q c.pkt).started = true ∧ s3.events = s2.events ++ [Event.mk c.instr {}] ∧
        (s3.getQ c.q).passes = 0 ∧ (s3.getQ c.q).blocked = 0 ∧ (s3.getQ c.q).lastSel = some (s2.selections + 1) ∧
        s3.selections = s2.selections + 1 ∧ s3.droverStop = (s2.droverStop || s2.pktBreak c.q c.pkt) ∧
        ∀ d ∈ cs, d.q ≠ c.q → (s2.getQ d.q).passes < (s3.getQ d.q).passes) ∧
  -- a head that only paddocks of lower priority keep waiting
  (∀ (s : State) (q : Nat) (low : List Nat),
    let s1 := s.updQ q fun x => { x with blocked := x.blocked + 1 }
    ((s.getQ q).blocked < 63 → s.passOver [(q, low)] = s1) ∧
    (63 ≤ (s.getQ q).blocked →
      s.passOver [(q, low)] = (low.foldl (fun u p => u.stopPad p .preempting) s1).updQ q fun x => { x with blocked := 0 })) ∧
  (∀ (s : State) (q i ctx : Nat) (b : List Byte) (s1 : State), (s.pkt q i).status = none → (s.getQ q).owner = some ctx →
    s.isKilling ctx = false → s.readPkt q i = (s1, .bytes b) → (∀ e, pktDone b = some e → s1.pktAddrOk ctx e 8 = true) →
    let sel (t : State) : Out := .next (t.postOnce .droverSelection)
    (∀ e, signalAddr (pktNum b 16 8) = some e → e.space = 1 → s1.pktAddrOk ctx e 8 = true →
      let p := fAddr e.fold e.addr
      ((linesOf p 8).all fun l => s1.markOf .f l == none) = true → s1.memWf = true →
      ∃ s2 : State, exec (.signalPacketStart q i) s = sel (s2.post (.packetComplete q i .complete)) ∧
        ofBytes (s2.readMem .f p 8) = signalValue (pktNum b 32 1) (ofBytes (s1.readMem .f p 8)) (pktNum b 24 8) % 2 ^ 64 ∧
        s2.sigWriters.head? = some ((.f, p), .packet q i) ∧ ∀ x, x < p ∨ p + 8 ≤ x → s2.memF.get x = s1.memF.get x) ∧
    (∀ src dst, parsePktAddr (BitVec.ofNat 64 (pktNum b 16 8)) = some src → parsePktAddr (BitVec.ofNat 64 (pktNum b 24 8)) = some dst →
      s1.pktAddrOk ctx src (pktNum b 32 8) = true → s1.pktAddrOk ctx dst (pktNum b 32 8) = true →
      exec (.copyPacketStart q i) s = sel ((({ s1 with engNext := s1.engNext + 1 } : State).updEng (queueKey 32 q) fun l =>
        l ++ [{ id := s1.engNext, op := .cpy src dst (pktNum b 32 8) 0 0 false, ctx := ctx, pkt := some (q, i) }]).postOnce
        (.engineOpStart 32 q))) ∧
    exec (.fencePacketStart q i) s = sel (s1.post (if (s1.getQ q).doneBefore i then .packetComplete q i .complete else .fencePacketStart q i)) ∧
    ((∀ e ∈ pktSignals b, s1.pktAddrOk ctx e 8 = true) → exec (.barrierPacketStart q i) s =
      sel ((s1.updPkt q i fun p => { p with signals := pktSignals b, pending := [none] }).post (.barrierReading q i)))) ∧
  (∀ (s : State) (q i ctx : Nat) (s2 : State) (vs : List (Option Nat)) (bad : Bool) (after : Option (Nat × SigWriter))
      (rest : List (Option (Nat × SigWriter))), (s.pkt q i).status = none → (s.pkt q i).pending = after :: rest →
    ((s.pkt q i).decided = true → exec (.barrierReading q i) s = .next s) ∧
    ((s.pkt q i).decided = false → s.droverStop = false →
    (s.getQ q).owner = some ctx → s.isKilling ctx = false → State.readSignals q i ctx (s.pkt q i).signals s [] = (s2, some vs, bad) →
    let s3 := s2.updPkt q i fun p => { p with pending := rest, readings := p.readings ++ [Reading.mk vs after] }
    let negative := ∃ n, some n ∈ vs ∧ 2 ^ 63 ≤ n
    let s4 := s3.updPkt q i fun p => { p with decided := true }
    (negative → exec (.barrierReading q i) s = .next (s4.post (.packetComplete q i .aborted))) ∧
    (¬ negative → (∀ v ∈ vs, v = some 0) → exec (.barrierReading q i) s = .next (s4.post (.packetComplete q i .complete))) ∧
    (¬ negative → (∃ v ∈ vs, v ≠ some 0) → exec (.barrierReading q i) s = .next s3))) ∧
  (∀ (s : State) (q i : Nat), (s.pads.find? fun x => x.2.queue == q && x.2.pkt == i) = none → (s.pkt q i).status = none →
    ∀ ctx b s1 h c, (s.getQ q).owner = some ctx → s.isKilling ctx = false → s.readPkt q i = (s1, .bytes b) →
    (∀ e, pktDone b = some e → s1.pktAddrOk ctx e 8 = true) → s1.validHandle (BitVec.ofNat 64 (pktNum b 16 8)) ctx = some h → s1.noPlace h h.conf = false →
    s1.placeFor ctx h h.conf true = some c →
    ∀ s2 l s3 bs, s1.pktRange q i ctx (pktNum b 32 8) (16 * pktNum b 40 2) false = (s2, .parts l) → s2.readParts l = (s3, bs, none) →
      ∀ s4, { (s3.cacheFor ctx h h.conf).beginCounts c with padNext := s3.padNext + 1 }.makeResident (s3.padNext + 1)
          (newPad s3 q i ctx (BitVec.ofNat 64 (pktNum b 16 8)) c (pktNum b 24 8) ((List.range (pktNum b 40 2)).map (epEntry bs))) c = some s4 →
        exec (.launchStart q i) s = .next (s4.postOnce .droverSelection)) ∧
  (∀ (s : State) (q i pad : Nat) (p : Pad), (s.pads.find? fun x => x.2.queue == q && x.2.pkt == i) = some (pad, p) →
    (p.phase = .parked → exec (.launchStart q i) s = .next ((s.launchAgain pad p).postOnce .droverSelection)) ∧
    (p.phase ≠ .parked → exec (.launchStart q i) s = .next s)) ∧
  (∀ (s : State) (q i : Nat) (st : PktStatus),
    let x := s.getQ q
    let pad := if st = .complete then s.padOfPkt q i else none
    (i < x.rd ∨ x.wr ≤ i ∨ (s.pkt q i).status.isSome = true → exec (.packetComplete q i st) s = .next s) ∧
    (∀ n, pad = some n → s.launchDone n = false → exec (.packetComplete q i st) s = .next s) ∧
    (x.rd ≤ i → i < x.wr → (s.pkt q i).status = none → (∀ n, pad = some n → s.launchDone n = true) →
      (s.droverStop = true → exec (.packetComplete q i st) s = .next (s.post (.packetComplete q i st))) ∧
      (s.droverStop = false → ∀ n, pad = some n → s.padFires n = true →
        exec (.packetComplete q i st) s = .next ((s.haltUnits n).post (.packetComplete q i st))) ∧
      (s.droverStop = false → (∀ n, pad = some n → s.padFires n = false) → ∀ ctx b s1, x.owner = some ctx → s.isKilling ctx = false →
        s.readPkt q i = (s1, .bytes b) →
        -- its completion signal waits for its page, or has counted
        (∀ e v, pktDone b = some e → s1.signalDone q i ctx e st = (v, false) → exec (.packetComplete q i st) s = .next (v.post (.packetComplete q i st))) ∧
        ∀ v, (pktDone b = none ∧ v = s1) ∨ (∃ e, pktDone b = some e ∧ s1.signalDone q i ctx e st = (v, true)) → v.breaks = [] →
        let s2 := (v.writeStatus q i ctx st).updPkt q i fun p => { p with started := true, status := some st }
        let s3 := match pad with
          | some n => s2.dropPad n
          | none => s2
        (st = .complete → exec (.packetComplete q i st) s =
          .next (((s3.updQ q fun x => x.advance (x.wr - x.rd)).settleRearm q).post .droverSelection)) ∧
        (st = .faulted ∨ st = .aborted → x.st = .armed →
          let s4 := { s3 with mailbox := { s3.mailbox with msix := s3.mailbox.msix ++ [q + 1] } }
          exec (.packetComplete q i st) s = .next (((((s4.updQ q fun x => { x with st := .aborted }).retireUnstarted q).updQ q fun x =>
            x.advance (x.wr - x.rd)).settleRearm q).post .droverSelection))))) ∧
  ∀ (s : State) (q i ctx : Nat) (e : EngAddr) (st : PktStatus), e.space = 1 →
    (s.fOwned ctx e.fold e.addr 8 = false → s.signalDone q i ctx e st = (s, true)) ∧
    (s.fOwned ctx e.fold e.addr 8 = true →
      let p := fAddr e.fold e.addr
      ((linesOf p 8).all fun l => s.markOf .f l == none) = true → s.memWf = true → ∃ v, s.signalDone q i ctx e st = (v, true) ∧
        ofBytes (v.readMem .f p 8) = (if st = .complete then ofBytes (s.readMem .f p 8) + (2 ^ 64 - 1) else 2 ^ 64 - 1) % 2 ^ 64 ∧
        v.sigWriters.head? = some ((.f, p), .packet q i) ∧ ∀ x, x < p ∨ p + 8 ≤ x → v.memF.get x = s.memF.get x)

/-! ## Faults, reports, tests -/

/-- R276, R279, R290, R322, R347, R373 to R375, R383, R386 to R388: the first fault of a paddock is recorded and stops it, later ones are counted; when it has
quiesced, a faulting one writes its record and its packet retires FAULTED, one that is preempted or parked waits at its last complete
commit, one of a retired cell at its tested one or the lowest whose snapshots it holds, a killed one is gone, a replaying one goes back. An error report of the commit scope
with a transient cause replays the interval three times, then faults; a transient one counts at its cell, and the fourth within TEST_T has it tested. A test that a
cell passes dates its tested commits; one that it fails retires it; an injected failure only counts. The model's own choices: which reports lie within TEST_T
(notes/assumptions/20.md), the causes of a record (66), which faults count (67), replays (69) and the commit of a retirement (108). -/
def Obligations.FaultsReportsAndTestsTakeTheirCourse : Prop :=
  (∀ (s : State) (pad : Nat) (f : FaultRec) (p : Pad), amGet? s.pads pad = some p →
    (p.phase = .running ∨ p.phase = .loading →
      exec (.paddockFault pad f) s = .next ((s.setPad pad { p with fault := some f }).stopPad pad .faulting)) ∧
    (p.phase = .faulting →
      ((∃ x ∈ s.events, x.instr.marks pad = true) → exec (.paddockFault pad f) s =
        .next (s.setPad pad { p with fault := p.fault.map fun x => { x with more := x.more + 1 } })) ∧
      ((∀ x ∈ s.events, x.instr.marks pad = false) → exec (.paddockFault pad f) s = .next s)) ∧
    (∀ s1, p.phase = .faulting → s.writeFault p.queue p.pkt p.ctx p.faultAddr (p.fault.getD {}) = (s1, true) →
      exec (.paddockQuiesced pad) s = .next ((s1.dropPad pad).post (.packetComplete p.queue p.pkt .faulted))) ∧
    (p.phase = .preempting ∨ p.phase = .parking ∨ p.phase = .replaying ∨ p.phase = .retiring ∨ p.phase = .parked →
      exec (.paddockFault pad f) s = .next ((s.setPad pad { p with fault := some f }).stopFor pad .faulting)) ∧
    (p.phase = .preempting → exec (.paddockQuiesced pad) s = .next (s.parkPad pad p.commit)) ∧
    (p.phase = .parking → exec (.paddockQuiesced pad) s =
      .next ((s.parkPad pad p.commit).updPad pad fun p => { p with inM := p.waitPage.isNone })) ∧
    (p.phase = .retiring → exec (.paddockQuiesced pad) s = .next (s.parkPad pad (max p.tested p.kept))) ∧
    (p.phase = .killing → exec (.paddockQuiesced pad) s = .next (s.dropPad pad)) ∧
    (p.phase = .replaying → s.testsOpen p.suspects = false → exec (.paddockQuiesced pad) s = .next (s.rollback pad))) ∧
  (∀ (s : State) (r : ErrRep) (p : Pad), amGet? s.pads r.pad = some p →
    let s1 := s.countReport r
    let q : Pad := { p with
      reports := p.reports ++ [r], transient := p.transient || !persistent r.cause
      suspects := match r.cell with
        | some i => if p.suspects.contains i then p.suspects else p.suspects ++ [i]
        | none => p.suspects }
    (r.commitScope = false ∨ p.phase ≠ .running ∨ q.transient = false →
      exec (.errorReport r) s = .next (s1.setPad r.pad q)) ∧
    (r.commitScope = true → p.phase = .running → q.transient = true → 3 ≤ p.replays → ∃ f : FaultRec, f.code = 0x13 ∧
      f.aux = BitVec.ofNat 64 p.commit ∧ exec (.errorReport r) s = .next ((s1.setPad r.pad q).raise r.pad f)) ∧
    (r.commitScope = true → p.phase = .running → q.transient = true → p.replays < 3 →
      let s2 := (s1.setPad r.pad q).setPad r.pad { q with replays := p.replays + 1 }
      let s3 := if p.replays = 2 then q.suspects.foldl (fun u i => u.postOnce (.testInterval i)) s2 else s2
      exec (.errorReport r) s = .next (s3.stopPad r.pad .replaying))) ∧
  (∀ (s : State) (r : ErrRep) (i : Nat), r.cell = some i →
    let c := s.getCell i
    let t := s.countReport r
    (r.injected = true → (t.getCell i).injectedCnt = c.injectedCnt + 1 ∧ (t.getCell i).transients = c.transients ∧ t.events = s.events) ∧
    (r.injected = false → persistent r.cause = true → t = s) ∧
    (r.injected = false → persistent r.cause = false → let n := (t.getCell i).transients
      1 ≤ n ∧ n ≤ c.transients + 1 ∧ (4 ≤ n → ∃ e ∈ t.events, e.instr = .testInterval i) ∧ (n < 4 → t.events = s.events))) ∧
  (∀ (s : State) (cell : Nat), cell < 384 →
    let c := s.getCell cell
    (c.testing = false → cell ∉ s.retired → (s.coreOf cell).running = false →
      ∃ t : State, exec (.testInterval cell) s = .next t ∧ (t.getCell cell).testing = true ∧ (t.getCell cell).testBegan = s.tests + 1 ∧
        (t.getCell cell).transients = c.transients ∧ t.tests = s.tests + 1 ∧ t.units = s.units ∧ t.cores = s.cores) ∧
    (c.testing = true →
      ((s.coreOf cell).errmask.getLsbD 8 = false →
        let s1 := s.setCell cell { c with testing := false, testedAfter := c.testBegan, transients := 0 }
        exec (.testDone cell true) s = .next (((s1.padsOn cell).foldl (fun s p => s.post (.externalPublish p)) s1).cellGoesOn cell) ∧
        exec (.testDone cell false) s = .next ((s.setCell cell { c with testing := false }).retireCell cell)) ∧
      ((s.coreOf cell).errmask.getLsbD 8 = true → ∀ ok,
        exec (.testDone cell ok) s = .next (((s.setCoreOf cell { s.coreOf cell with errmask := (s.coreOf cell).errmask &&& ~~~0x100 }).setCell
          cell { c with testing := false, injectedCnt := c.injectedCnt + 1 }).cellGoesOn cell)))) ∧
  ∀ (s : State) (cell : Nat), (s.retireCell cell).retired = s.retired ++ [cell] ∧ (s.retireCell cell).bmcRetired = s.bmcRetired ++ [cell]

/-! ## Messages between pastures -/

/-- R18, R20, R378 to R382, R389 to R392, R405: a fragment is its header, its data and the CRC-32C over both, and an erasure where any of them fails; a
good one of a message that has not left the spool is kept until k of them stand there, which decode
it; a late one is counted; an acknowledged message leaves the replay window; an entry past its time is reported, asked for again up to attempt 3
and then lost; a replay sends the same fragments; a path leaves the link while it recalibrates and comes back after it, with the m that firmware
wants where it fits, and firmware's CODERATE is
taken only where its k and m fit; a memory link is replaced once none of its frames is mapped. The model's own choices: a link that does not exist
(notes/assumptions/10.md), when an entry decodes (107), more fragments than k (77), full windows (8), when counts start (20), memory links (21) and tethers (23). -/
def Obligations.MessagesCrossTheirLinks : Prop :=
  (∀ (id k m index attempt tkind : Nat) (data : List Byte), id < 2 ^ 24 → k ∈ [2, 4, 6, 8] → m < 4 → index < k + m → attempt < 4 → tkind < 3 →
    data.length = 96 / k →
    let f := mkFragment id k m index attempt tkind data
    f.good = true ∧ f.id = id ∧ f.k = k ∧ f.m = m ∧ f.index = index ∧ f.attempt = attempt ∧ f.tkind = tkind ∧ f.data = data) ∧
  (∀ f : Fragment, f.good = true → f.injected = false ∧ f.bytes.length = 12 + 96 / f.k ∧ f.k ∈ [2, 4, 6, 8] ∧ f.index < f.k + f.m ∧
    f.tkind < 3 ∧ bitsOf f.header 63 38 = 0 ∧
    f.bytes.drop (8 + 96 / f.k) = toBytes 4 (crc32c (f.bytes.take (8 + 96 / f.k))).toNat) ∧
  (∀ (s : State) (src dst path : Nat) (f : Fragment), receives src dst = true → (∀ p, (s.getPad p).stop = false) → s.masks = [] →
    let key := linkKey src dst
    let s1 := s.countFrag key path f.good f.injected
    let l := s1.link key
    let late := idBelow f.id l.outId = true ∨ ∃ e, amGet? l.spool f.id = some e ∧ (e.msg.isSome = true ∨ e.lost = true)
    let old : SpoolEntry := amGet l.spool f.id {}
    let new : SpoolEntry := { old with k := f.k, m := f.m, net := kindNet f.tkind, frags := if old.frags.any (fun x => x.1 == f.index) then old.frags else old.frags ++ [(f.index, f.data)] }
    let s2 := s1.setLink key { l with spool := amPut l.spool f.id new }
    (f.good = false → exec (.fragmentReceive src dst path f) s = .next s1) ∧
    (f.good = true → late → exec (.fragmentReceive src dst path f) s = .next (s1.setLink key { l with late := l.late + 1 })) ∧
    (f.good = true → ¬ late → new.frags.length < f.k → exec (.fragmentReceive src dst path f) s = .next s2) ∧
    (f.good = true → ¬ late → f.k ≤ new.frags.length →
      exec (.fragmentReceive src dst path f) s = .next (s2.postOnce (.decodeAck src dst f.id)))) ∧
  (∀ (s : State) (src dst id attempt : Nat), receives src dst = true → (∀ p, (s.getPad p).stop = false) →
    let key := linkKey src dst
    let l := s.link key
    let acked (u : State) : State := u.setLink key { u.link key with window := (u.link key).window.filter fun m => m.id != id }
    let ready (e : SpoolEntry) : Prop := e.frags ≠ [] ∧ e.k ≤ e.frags.length ∧ e.msg = none ∧ e.lost = false
    (∀ e, amGet? l.spool id = some e → ready e → exec (.decodeAck src dst id) s = .next (acked (s.decodeEntry src dst id e))) ∧
    ((∀ e, amGet? l.spool id = some e → ¬ ready e) → exec (.decodeAck src dst id) s = .next (acked s)) ∧
    (∀ m, (l.window.find? fun m => m.id == id) = some m →
      exec (.replayRequest src dst id attempt) s = .next (s.sendFrags src dst m attempt)) ∧
    ∀ e, amGet? l.spool id = some e → e.msg = none → e.lost = false → (e.frags = [] ∨ e.frags.length < e.k) →
      let r : ErrRep := { cause := 0x05, pad := (s.messagePad key id).getD 0, site := some (dst * 2 ^ 14) }
      (e.attempt < 3 → exec (.spoolTimeout src dst id) s =
        .next (((s.report r).setLink key { l with losses := l.losses + 1, spool := amPut l.spool id { e with attempt := e.attempt + 1 } }).post
          (.replayRequest src dst id (e.attempt + 1)))) ∧
      (3 ≤ e.attempt →
        let s1 := s.setLink key { l with
          losses := l.losses + 1, spool := amPut l.spool id { e with lost := true }, window := l.window.filter fun m => m.id != id }
        let across := if src < 100 then s1.padsAcross src dst else []
        let s2 := if across = [] then s1.report r else across.foldl (fun u p => u.report { r with pad := p, commitScope := true }) s1
        exec (.spoolTimeout src dst id) s = .next ((s2.checkPaths key).drainSpool src dst (l.spool.length + 1)))) ∧
  ∀ (s : State) (link path : Nat),
    let l := s.link link
    (linkExists link = true → path ∈ l.away → ∃ x : LinkSt, x.away = l.away.erase path ∧ (path < 8 → l.k ≤ 8 → x.paths = (List.range 8).filter (fun n => n == path || l.paths.contains n)) ∧
      x.wantM = l.wantM ∧ (path < 8 → l.k ≤ 8 → l.wantM < 4 → x.k = l.k ∧ x.m = min l.wantM (x.paths.length - l.k)) ∧
      exec (.pathRecalibrated link path) s = .next (s.setLink link x)) ∧
    (linkExists link = true → s.arg.link = link → s.arg.path = path →
      let w : Word := BitVec.ofNat 32 s.arg.code
      let l1 : LinkSt := if s.arg.flag = true ∧ codeRateOk w = true then { l with coderate := w, wantM := bitsOf w.toNat 5 4 } else l
      (path ∈ l1.paths → l1.k < l1.paths.length →
        ∃ x : LinkSt, x.away = l1.away ++ [path] ∧ x.paths = l1.paths.filter (fun n => n != path) ∧ x.k = l1.k ∧
          exec .recalibrationStart s = .next (((s.setLink link l1).setLink link x).post (.pathRecalibrated link path))) ∧
      (path ∉ l1.paths ∨ l1.paths.length ≤ l1.k → exec .recalibrationStart s = .next (s.setLink link l1))) ∧
    (200 ≤ s.arg.link → s.arg.link < 264 → exec .recalibrationStart s = .next s) ∧
    (linkExists link = true → s.arg.link = link → s.arg.path = path →
      exec .injectDrop s = .next (s.setLink link { l with dropNext := l.dropNext ++ [path] })) ∧
    (linkExists link = false → exec (.pathRecalibrated link path) s = .fault .noSuchUnit ∧
      (s.arg.link = link → (link < 200 ∨ 264 ≤ link → exec .recalibrationStart s = .fault .noSuchUnit) ∧
        exec .injectDrop s = .fault .noSuchUnit)) ∧
    (linkExists link = true ↔ link ∈ [1, 2, 4, 7, 8, 11, 13, 14] ∨ 100 ≤ link ∧ link < 124) ∧
    (s.arg.link < 64 → s.arg.flag = true → s.linkMapped s.arg.link = true → exec .moduleReplace s = .next s) ∧
    (s.arg.link < 64 → s.arg.flag = false ∨ s.linkMapped s.arg.link = false → ∃ t : State, exec .moduleReplace s = .next t ∧ (s.arg.link ∈ t.memLinksOut ↔ s.arg.flag = true) ∧
      ∀ n, n ≠ s.arg.link → (n ∈ t.memLinksOut ↔ n ∈ s.memLinksOut))

/-! ## Service processor and drover -/

/-- R27, R244, R304, R361 to R363, R368, R372, R404, R407: power-good brings the package to what reset gives, with what survives power-off, and its cells
that fail are added to the map; heat lowers a die's clock in steps and cooling restores it; a scrub marks and then corrects or poisons a
line, a described block with code 0xFE, and reports it; a migration marks its entry, to a frame of a link in use, copies the page and rewrites the
entry; an eviction clears the entry of a page that no mark reaches; a live update without its heartbeats goes back; a halted firmware core starts
again. The model's own choices: a step of bring-up that fails (notes/assumptions/74.md, 110), clocks (75), what runs during a copy (62), memory links
(21), marks (95) and what firmware does (18). -/
def Obligations.ServiceStepsKeepThePackage : Prop :=
  (∀ s : State,
    let ok := s.arg.flag = true ∧ (amGet s.fw s.bmcSlot {} : FwSlot).verified = true
    (s.mailbox.pending ≠ some 9 → ∃ t : State, exec .powerGood s = .next t ∧ (ok → t.status = 1) ∧ (¬ ok → t.status = 2) ∧
      t.fwSlot = s.bmcSlot ∧ t.memH = s.memH ∧ t.fuseMinSvn = s.fuseMinSvn ∧ t.fw = s.fw ∧ t.pads = [] ∧ t.queues = State.reset.queues ∧
      t.ctxs = State.reset.ctxs ∧ t.memL = State.reset.memL ∧ t.memF = State.reset.memF ∧ t.memS = State.reset.memS ∧ t.memM = State.reset.memM ∧
      t.retired = t.bmcRetired ∧ (ok → ∀ i, i ∈ t.retired ↔ i ∈ s.bmcRetired ∨ (i ∈ s.arg.failed ∧ i < 384)) ∧
      (¬ ok → t.retired = s.bmcRetired)) ∧
    (s.mailbox.pending = some 9 → ∃ t : State, exec .powerGood s = .next t ∧ (ok → t.status = 1) ∧ (¬ ok → t.status = 2) ∧
      t.fwSlot = s.bmcSlot ∧ t.memH = s.memH ∧ t.fw = s.fw ∧ t.pads = [] ∧ t.memM = State.reset.memM ∧ t.breaks = s.breaks ∧
      t.mailbox.pending = none) ∧
    (s.status ≠ 0 → exec .bringupTimeout s = .next s) ∧
    (s.status = 0 → s.mailbox.pending ≠ some 9 → exec .bringupTimeout s =
      .next { s with status := 2, events := s.events.filter fun x => x.instr != .powerGood }) ∧
    (s.status = 0 → s.mailbox.pending = some 9 → ∃ t : State, exec .bringupTimeout s = .next t ∧ t.status = 2 ∧ t.mailbox.pending = none ∧
      ∀ x ∈ t.events, x.instr ≠ .powerGood) ∧
    (∃ t : State, exec .thermalThrottle s = .next t ∧ t.clock s.arg.cell = max 10 (s.clock s.arg.cell - 1) ∧
      ∀ d, d ≠ s.arg.cell → t.clock d = s.clock d) ∧
    (∃ t : State, exec .thermalRestore s = .next t ∧ t.clock s.arg.cell = 20 ∧ ∀ d, d ≠ s.arg.cell → t.clock d = s.clock d) ∧
    (let line := s.arg.addr / 64
     s.markOf .m line = none →
      (s.arg.finding = .clean → exec .memoryScrub s = .next s) ∧
      (s.arg.finding = .single → ∃ t : State, exec .memoryScrub s = .next t ∧ t.markOf .m line = none ∧ t.corrected = s.corrected + 1 ∧
        t.memM = s.memM) ∧
      (s.arg.finding = .uncorrectable → ∃ t : State, exec .memoryScrub s = .next t ∧
        (∃ e ∈ t.events, ∃ r, e.instr = .errorReport r ∧ r.cause = 6 ∧ r.site = some (frameSite (64 * line)) ∧ r.commitScope = false) ∧
        (s.isDescribed (64 * line) = false → t.markOf .m line = some .poison ∧ t.memM = s.memM) ∧
        (s.isDescribed (64 * line) = true → t.markOf .m line = none ∧ t.readMem .m (64 * line) 64 = poisonBlock))) ∧
    (∀ s1 pa en leaf size, s.walk s.arg.ctx s.arg.va = (s1, .leaf pa en leaf size) →
      (pteMigrating en = false → s.arg.frame % size = 0 → s1.frameOut s.arg.frame size = true → exec .migrationStart s = .next s1) ∧
      (pteMigrating en = false → s.arg.frame % size = 0 → s1.frameOut s.arg.frame size = false →
        let s2 := s1.putEntry leaf (en + 2 ^ 5)
        exec .migrationStart s = .next { s2 with migrations := s2.migrations ++
          [⟨s.arg.ctx, s.arg.va / size * size, size, leaf, pteAddr en, s.arg.frame⟩] }) ∧
      ((∀ x ∈ s1.units, x.2.live = true → x.2.ctx = s.arg.ctx → isCellKey x.1 = false → ∀ w ∈ x.2.conf.windows, w.2.evict = false) →
        exec .evict s = .next s1)) ∧
    (∀ m rest, s.migrations = m :: rest →
      (s.xlateQuiet m.ctx m.va (m.va + m.size) = false → exec .migrationCopyDone s = .next (s.post .migrationCopyDone s.arg)) ∧
      (s.xlateQuiet m.ctx m.va (m.va + m.size) = true → s.arg.flag = true → (∀ x ∈ s.pads, x.2.waitPage = none) → (∀ x ∈ s.units, x.2.parked = []) →
        let en := ofBytes (s.readMem .m m.leafAt 8)
        exec .migrationCopyDone s = .next ((({ s with migrations := rest } : State).putEntry m.leafAt
          (en - if pteMigrating en = true then 2 ^ 5 else 0)).post .droverSelection)) ∧
      (s.xlateQuiet m.ctx m.va (m.va + m.size) = true → s.arg.flag = false → (∀ x ∈ s.pads, x.2.waitPage = none) → (∀ x ∈ s.units, x.2.parked = []) →
        let en := ofBytes (s.readMem .m m.leafAt 8)
        let s1 := (List.range (m.size / 64)).foldl (fun u i =>
          u.copyLine (pteDescribed en) (m.oldFrame + 64 * i) (m.newFrame + 64 * i)) ({ s with migrations := rest } : State)
        exec .migrationCopyDone s = .next (((s1.putEntry m.leafAt
          ((en - if pteMigrating en = true then 2 ^ 5 else 0) - m.oldFrame + m.newFrame)).moveHeld m).post .droverSelection))) ∧
    (∀ u, s.update = some u → u.started = true → u.waiting ≠ [] →
      exec .heartbeatTimeout s = .next (({ s with
        fw := amPut s.fw s.fwSlot { (amGet s.fw s.fwSlot {} : FwSlot) with verified := false }, fwSlot := u.oldSlot, bmcSlot := u.oldSlot } : State).updateDone
        2)) ∧
    (s.arg.cell ∈ firmwareCores → (s.coreOf s.arg.cell).halted = true →
      ∃ t : State, exec .coreRestart s = .next t ∧ (t.coreOf s.arg.cell).pc = 0 ∧ (t.coreOf s.arg.cell).running = true ∧
        (t.coreOf s.arg.cell).halted = false ∧ (∀ i, i ≠ s.arg.cell → t.coreOf i = s.coreOf i) ∧ t.units = s.units ∧ t.pads = s.pads)) ∧
  ∀ s s1 pa en leaf size, s.walk s.arg.ctx s.arg.va = (s1, .leaf pa en leaf size) →
    let lo := s.arg.va / size * size
    let ws : List (Nat × Nat × Window) := s1.units.flatMap fun x =>
      if x.2.live && x.2.ctx == s.arg.ctx && !isCellKey x.1 then (x.2.conf.windows.filter fun y => y.2.evict && y.2.sp == .m).map fun y =>
        (x.1, y.1, y.2) else []
    let s2 := ws.foldl (fun u y => u.readMark y.1 y.2.1 y.2.2) s1
    let free := (∃ y ∈ ws, y.2.2.base ≤ lo ∧ lo + size ≤ y.2.2.base + y.2.2.extent) ∧
      (∀ y ∈ ws, ∀ m, windowMark (s1.getU y.1) y.2.1 y.2.2 = some m → lo + size ≤ m) ∧ s2.xlateQuiet s.arg.ctx lo (lo + size) = true
    let s3 := s2.putEntry leaf (en - if pteValid en = true then 1 else 0)
    (free → exec .evict s = .next { s3 with evicted := s3.evicted ++ [(s.arg.ctx, lo)] }) ∧ (¬ free → exec .evict s = .next s2)

/-! ## The host and the debugger -/

/-- R372, R373, R398 to R402: BAR2 reads and writes reach the package's memory once STATUS is 1 (reads before give ones), and a line that a read cannot
read is poisoned, a described block written with code 0xFE, and reported (one past 2^44 is a fault by the model's choice,
notes/assumptions/10.md); BAR0 reads as STATUS, the mailbox and the queue blocks; a register write puts
argument bytes into the mailbox, starts the command of its command word, rings a doorbell, sets a priority (its low three bits, of 8 and more by the
model's choice, notes/assumptions/96.md) or re-arms, and reaches nothing else: of another width than the register's it does nothing, which is the model's
choice too (notes/assumptions/109.md); a command written while another is pending is discarded and leaves its mark. -/
def Obligations.HostAccessesReachTheirRegisters : Prop :=
  ∀ s : State,
    let a := s.arg
    (a.addr + a.len ≤ 2 ^ 44 →
      (s.status ≠ 1 → exec .hostBar2Read s = .next { s with reads := s.reads ++ [⟨a.link, List.replicate a.len 0xFF, false⟩] }) ∧
      (s.status = 1 → ((linesOf a.addr a.len).all fun l => s.markOf .m l == none) = true → s.masks = [] →
        exec .hostBar2Read s = .next { s with reads := s.reads ++ [⟨a.link, s.readMem .m a.addr a.len, false⟩] }) ∧
      (∀ l, s.status = 1 → linesOf a.addr a.len = [l] → s.markOf .m l = some .uncorrectable → ∃ (t : State) (bs : List Byte),
        exec .hostBar2Read s = .next t ∧ t.reads = s.reads ++ [⟨a.link, bs, true⟩] ∧
        (∃ e ∈ t.events, ∃ r, e.instr = .errorReport r ∧ r.cause = 6 ∧ r.commitScope = false) ∧
        (s.isDescribed (64 * l) = false → t.markOf .m l = some .poison ∧ t.memM = s.memM) ∧
        (s.isDescribed (64 * l) = true → t.markOf .m l = none ∧ t.readMem .m (64 * l) 64 = poisonBlock)) ∧
      ∀ l, s.status = 1 → linesOf a.addr a.len = [l] → s.markOf .m l = some .poison → ∃ (t : State) (bs : List Byte),
        exec .hostBar2Read s = .next t ∧ t.reads = s.reads ++ [⟨a.link, bs, true⟩] ∧
        (∃ e ∈ t.events, ∃ r, e.instr = .errorReport r ∧ r.cause = 8 ∧ r.commitScope = false) ∧ t.markOf .m l = some .poison ∧ t.memM = s.memM) ∧
    (let get (lo n : Nat) : Nat := ofBytes ((List.range n).map fun i => s.bar0Byte (lo + i))
     get 0 4 = s.status % 2 ^ 32 ∧ (∀ o, 4 ≤ o → o < 0x1000 → s.bar0Byte o = 0) ∧
     (∀ o, o < 256 → s.bar0Byte (0x1000 + o) = s.mailbox.bytes.get o) ∧
     ∀ q, q < 64 → let b := 0x10000 + 64 * q
       get b 8 = (s.getQ q).ring % 2 ^ 64 ∧ get (b + 8) 1 = (s.getQ q).lg % 256 ∧ get (b + 9) 7 = 0 ∧ get (b + 16) 8 = (s.getQ q).wr % 2 ^ 64 ∧
       get (b + 24) 8 = (s.getQ q).rd % 2 ^ 64 ∧
       get (b + 32) 1 = (match (s.getQ q).st with
         | .disabled => 0
         | .armed => 1
         | .aborted => 2) ∧
       get (b + 33) 1 = (s.getQ q).prio % 256 ∧ get (b + 34) 30 = 0) ∧
    (a.addr + a.bytes.length ≤ 2 ^ 44 →
      (s.status ≠ 1 → exec .hostBar2Write s = .next s) ∧
      (s.status = 1 → s.memWf = true → ∃ t : State, exec .hostBar2Write s = .next t ∧
        (∀ i b, a.bytes[i]? = some b → t.memM.get (a.addr + i) = b) ∧
        (∀ x, x < a.addr ∨ a.addr + a.bytes.length ≤ x → t.memM.get x = s.memM.get x) ∧
        t.memL = s.memL ∧ t.memF = s.memF ∧ t.memS = s.memS ∧ t.memH = s.memH ∧ t.units = s.units ∧ t.pads = s.pads ∧
        ((∀ x ∈ s.queues, ∀ y ∈ x.2.pkts, y.2.signals = []) → t.queues = s.queues ∧ t.events = s.events))) ∧
    (2 ^ 44 < a.addr + a.len → exec .hostBar2Read s = .fault .noSuchUnit) ∧
    -- before STATUS is 1: nothing, but after a failed bring-up the mailbox
    (s.status = 0 → a.addr + a.bytes.length ≤ 2 ^ 20 → exec .registerWrite s = .next s) ∧
    (s.status = 2 →
      (0x1008 ≤ a.addr → a.addr + a.bytes.length ≤ 0x1100 →
        exec .registerWrite s = .next { s with mailbox := s.mailbox.put (a.addr - 0x1000) a.bytes }) ∧
      (a.addr = 0x1000 → a.bytes.length = 4 →
        exec .registerWrite s = .next (s.postFront (mailboxCommand (ofBytes a.bytes)) { code := ofBytes a.bytes, link := a.link })) ∧
      (0x10000 ≤ a.addr → a.addr + a.bytes.length ≤ 2 ^ 20 → exec .registerWrite s = .next s)) ∧
    (s.status = 1 →
      (0x1008 ≤ a.addr → a.addr + a.bytes.length ≤ 0x1100 →
        exec .registerWrite s = .next { s with mailbox := s.mailbox.put (a.addr - 0x1000) a.bytes }) ∧
      (a.addr = 0x1000 → a.bytes.length = 4 →
        exec .registerWrite s = .next (s.postFront (mailboxCommand (ofBytes a.bytes)) { code := ofBytes a.bytes, link := a.link })) ∧
      (∀ q, q < 64 →
        (a.addr = 0x10000 + 64 * q + 16 → a.bytes.length = 8 →
          exec .registerWrite s = .next (s.postFront (.queueDoorbell q (ofBytes a.bytes)) { link := a.link })) ∧
        (a.addr = 0x10000 + 64 * q + 33 → a.bytes.length = 1 →
          exec .registerWrite s = .next (s.postFront (.queuePrioWrite q (ofBytes a.bytes % 8)) { link := a.link })) ∧
        (a.addr = 0x10000 + 64 * q + 40 → ofBytes a.bytes = 1 → a.bytes.length = 1 →
          exec .registerWrite s = .next (s.postFront (.queueRearm q) { link := a.link })) ∧
        ((a.addr = 0x10000 + 64 * q + 40 ∨ a.addr = 0x10000 + 64 * q + 33) ∧ a.bytes.length ≠ 1 ∨ a.addr = 0x10000 + 64 * q + 16 ∧ a.bytes.length ≠ 8 →
          a.addr + a.bytes.length ≤ 2 ^ 20 → exec .registerWrite s = .next s)) ∧
      (0x20000 ≤ a.addr → a.addr + a.bytes.length ≤ 2 ^ 20 → exec .registerWrite s = .next s)) ∧
    ∀ p ∈ [(Instr.ctxCreate, 1), (.ctxKill, 2), (.queueBind, 3), (.invalidate, 4), (.mint, 5), (.fwLoad, 6), (.logRead, 7), (.healthRead, 8),
        (.fwActivate, 9), (.configSet, 10), (.countersRead, 11)],
      (∀ n, s.mailbox.pending = some n → s.arg.flag = false →
        exec p.1 s = .next { s with mailbox := s.mailbox.put 4 (toBytes 4 (mboxBusy + mboxOverrun)) }) ∧
      (s.mailbox.pending = none → s.status = 0 → exec p.1 s = .next s)

/-- R29, R340, R345, R347, R355, R366 to R368, R377, R402 to R404: what each mailbox command does and answers; one that goes on keeps the arguments
that it has read. The model's own choices: the mapper (notes/assumptions/16.md), what an image holds (17), results (73), the live update (18) and how a
bring-up that starts again ends (110); that MINT looks for results 4, 1, 2, 3 in this order is read from R403 (32). -/
def Obligations.MailboxCommandsDoTheirWork : Prop :=
  (∀ s : State, s.arg.flag = true →
    (s.mailbox.pending = some 2 →
      ((∃ x ∈ s.pads, x.2.ctx = s.arg.ctx) → exec .ctxKill s = .next (s.mailboxLater .ctxKill { ctx := s.arg.ctx })) ∧
      ((∀ x ∈ s.pads, x.2.ctx ≠ s.arg.ctx) →
        exec .ctxKill s = .next ((s.freeCtx s.arg.ctx).mboxFinish 0 [(12, toBytes 4 (amGet s.ctxs s.arg.ctx {} : Ctx).stale)]))) ∧
    (s.mailbox.pending = some 4 → exec .invalidate s =
      .next (if s.xlateQuiet s.arg.ctx s.arg.va (s.arg.va + s.arg.len) = true then s.mboxFinish 0 []
        else s.mailboxLater .invalidate { ctx := s.arg.ctx, va := s.arg.va, len := s.arg.len })) ∧
    ∀ u, s.mailbox.pending = some 9 → s.update = some u → u.started = false → exec .fwActivate s =
      .next (if s.updateReady = true then s.startImage else s.mailboxLater .fwActivate)) ∧
  (∀ s : State, s.arg.flag = false → s.mailbox.pending = none → s.status = 2 → (amGet s.fw (1 - s.fwSlot) {} : FwSlot).verified = true →
    ∃ (t : State) (ok : Bool) (failed : List Nat), exec .fwActivate s = .next t ∧ t.status = 0 ∧ t.fwSlot = 1 - s.fwSlot ∧ t.bmcSlot = 1 - s.fwSlot ∧
      t.mailbox.pending = some 9 ∧ Event.mk .powerGood { flag := ok, failed := failed } ∈ t.events) ∧
  ∀ s : State, s.Ready →
    let u (n : Nat) : State := s.commanded n
    let w (n off k : Nat) : Nat := (s.commanded n).mailbox.word off k
    let live (c : Nat) : Bool := (amGet s.ctxs c {} : Ctx).st == .live
    -- CTX_CREATE
    ((∀ c, c < 64 → (amGet s.ctxs c {} : Ctx).st ≠ .free) → exec .ctxCreate s = .next ((u 1).mboxFinish 1 [])) ∧
    (∀ c, c < 64 → (amGet s.ctxs c {} : Ctx).st = .free → (∀ d, d < c → (amGet s.ctxs d {} : Ctx).st ≠ .free) →
      (w 1 8 8 % 65536 = 0 → w 1 8 8 < 2 ^ 52 → w 1 16 4 < 2 ^ 20 → w 1 20 1 ≤ 1 →
        exec .ctxCreate s = .next (({ u 1 with
          ctxs := amPut s.ctxs c
            { st := .live, gen := (amGet s.ctxs c {} : Ctx).gen, root := w 1 8 8, pasid := w 1 16 4, share := w 1 20 1 == 1 } } : State).mboxFinish 0
          [(8, toBytes 1 c), (9, toBytes 2 (amGet s.ctxs c {} : Ctx).gen)])) ∧
      (w 1 8 8 % 65536 ≠ 0 ∨ 2 ^ 52 ≤ w 1 8 8 ∨ 2 ^ 20 ≤ w 1 16 4 ∨ 1 < w 1 20 1 → exec .ctxCreate s = .next ((u 1).mboxFinish 2 []))) ∧
    -- CTX_KILL
    (let c := w 2 8 1
     (64 ≤ c ∨ live c = false → exec .ctxKill s = .next ((u 2).mboxFinish 1 [])) ∧
     (c < 64 → live c = true → exec .ctxKill s = .next ((({ u 2 with
        ctxs := amPut s.ctxs c
          { (amGet s.ctxs c {} : Ctx) with st := .killing } } : State).killPads c).mailboxLater .ctxKill { ctx := c }))) ∧
    -- QUEUE_BIND
    (let n := w 3 8 1
     let q := s.getQ n
     (64 ≤ n → exec .queueBind s = .next ((u 3).mboxFinish 2 [])) ∧
     (n < 64 → w 3 9 1 = 0xFF → q.rd = q.wr → exec .queueBind s = .next (((u 3).updQ n fun q => { ignored := q.ignored }).mboxFinish 0 [])) ∧
     (n < 64 → w 3 9 1 < 64 → live (w 3 9 1) = true → w 3 10 1 ≤ 12 → w 3 11 1 ≤ 7 → w 3 16 8 % 4096 = 0 → w 3 16 8 < 2 ^ 56 →
       (q.owner = none ∨ q.owner = some (w 3 9 1)) → q.rd = q.wr →
       exec .queueBind s = .next (((u 3).updQ n fun q =>
         { owner := some (w 3 9 1), st := .armed, ring := w 3 16 8, lg := w 3 10 1, prio := w 3 11 1, ignored := q.ignored }).mboxFinish 0 []))) ∧
    -- INVALIDATE
    (w 4 8 1 < 64 → w 4 16 8 % 65536 = 0 → w 4 24 8 % 65536 = 0 → w 4 16 8 + w 4 24 8 ≤ 2 ^ 56 →
      exec .invalidate s = .next (if s.xlateQuiet (w 4 8 1) (w 4 16 8) (w 4 16 8 + w 4 24 8) = true then (u 4).mboxFinish 0 []
        else (u 4).mailboxLater .invalidate { ctx := w 4 8 1, va := w 4 16 8, len := w 4 24 8 })) ∧
    -- MINT
    (let c := w 5 8 1
     (64 ≤ c ∨ live c = false → exec .mint s = .next ((u 5).mboxFinish 4 [])) ∧
     (∀ s1 img k, c < 64 → live c = true → (u 5).readPhys (w 5 16 8) (w 5 24 8) = (s1, img, some k) →
       exec .mint s = .next ((s1.reportCtx c 0 k (some (frameSite (w 5 16 8)))).mboxFinish 1 [(16, toBytes 1 1), (17, toBytes 2 0xFFFF), (19, toBytes 1 0xFF)])) ∧
     ∀ s1 img, c < 64 → live c = true → (u 5).readPhys (w 5 16 8) (w 5 24 8) = (s1, img, none) →
       (∀ reason x, mintReject img = some (reason, x) → ∃ at', exec .mint s = .next (s1.mboxFinish 1 ((16, toBytes 1 reason) :: at'))) ∧
       let share := (amGet s.ctxs c {} : Ctx).share
       (mintReject img = none → s.mapped img [] none = none → exec .mint s = .next (s1.mboxFinish 2 [])) ∧
       ∀ p, mintReject img = none → s.mapped img [] none = some p →
         (Placement.ok p (graphOf img) s.retired [] share = false → exec .mint s = .next (s1.mboxFinish 2 [])) ∧
         (Placement.ok p (graphOf img) s.retired [] share = true → 2 ^ 26 ≤ s.handleNext → (∀ n, n < 2 ^ 26 → ∃ x ∈ s.handles, x.1 = n) →
           exec .mint s = .next (s1.mboxFinish 3 [])) ∧
         (Placement.ok p (graphOf img) s.retired [] share = true → s.handleNext < 2 ^ 26 →
           exec .mint s = .next (({ s1.cachePlace img p with
             handles := amPut s.handles s.handleNext
               { ctx := c, gen := (amGet s.ctxs c {} : Ctx).gen, live := true, conf := buildConf img (graphOf img) p s.retired, image := img
                 place := p }
             handleNext := s.handleNext + 1 } : State).mboxFinish 0
             [(8, toBytes 8 (handleWord c (amGet s.ctxs c {} : Ctx).gen s.handleNext).toNat)]))) ∧
    -- FW_LOAD
    (∀ s1 img k, (u 6).readPhys (w 6 16 8) (w 6 24 8) = (s1, img, some k) → ∃ r : ErrRep, r.cause = k ∧ r.site = some (frameSite (w 6 16 8)) ∧
      exec .fwLoad s = .next ((s1.report r).mboxFinish 3 [])) ∧
    (∀ s1 img, (u 6).readPhys (w 6 16 8) (w 6 24 8) = (s1, img, none) →
      (Config.imageFields img = none → exec .fwLoad s = .next (s1.mboxFinish 3 [])) ∧
      ∀ version svn writes accepts, Config.imageFields img = some (version, svn, writes, accepts) →
        (Config.signatureOk img = false → exec .fwLoad s = .next (s1.mboxFinish 1 [])) ∧
        (Config.signatureOk img = true → svn < s.fuseMinSvn → exec .fwLoad s = .next (s1.mboxFinish 2 [])) ∧
        (Config.signatureOk img = true → s.fuseMinSvn ≤ svn → exec .fwLoad s = .next (({ s1 with
          fw := amPut s.fw (1 - s.fwSlot)
            { verified := true, version := version, svn := svn, image := img, writes := writes, accepts := accepts } } : State).mboxFinish 0 []))) ∧
    -- LOG_READ
    (let c : Ctx := amGet s.ctxs (w 7 8 1) {}
     let l := c.log.take (w 7 24 4)
     w 7 8 1 < 64 → w 7 16 8 % 32 = 0 → w 7 16 8 + 32 * l.length ≤ 2 ^ 52 →
       exec .logRead s = .next (({ (u 7).storeMem .m (w 7 16 8) (l.flatMap logBytes) with
         ctxs := amPut s.ctxs (w 7 8 1) { c with log := c.log.drop l.length, logDropped := 0 } } : State).mboxFinish 0
         [(32, toBytes 4 l.length), (36, toBytes 4 c.logDropped)])) ∧
    -- HEALTH_READ
    (w 8 16 8 % 64 = 0 → w 8 16 8 + 48 ≤ 2 ^ 52 →
      exec .healthRead s = .next (((u 8).storeMem .m (w 8 16 8) (healthMap s.retired)).mboxFinish 0 [(8, toBytes 2 s.retiredCount)])) ∧
    -- FW_ACTIVATE
    ((amGet s.fw (1 - s.fwSlot) {} : FwSlot).verified = false → exec .fwActivate s = .next ((u 9).mboxFinish 1 [])) ∧
    ((amGet s.fw (1 - s.fwSlot) {} : FwSlot).verified = true →
      exec .fwActivate s = .next (({ u 9 with update := some ⟨false, [], s.fwSlot⟩ } : State).mailboxLater .fwActivate)) ∧
    -- CONFIG_SET
    (let i := w 10 8 1
     let v := w 10 16 8
     (7 ≤ i ∨ 2 ≤ w 10 9 1 → exec .configSet s = .next ((u 10).mboxFinish 2 [])) ∧
     (i < 7 → w 10 9 1 = 0 → exec .configSet s = .next ((u 10).mboxFinish 0 [(24, toBytes 8 (s.cfgVal i))])) ∧
     (i < 7 → w 10 9 1 = 1 → (Config.range i).1 ≤ v → v ≤ (Config.range i).2 →
       exec .configSet s = .next (({ u 10 with config := amPut s.config i v } : State).mboxFinish 0 [(24, toBytes 8 v)]))) ∧
    -- COUNTERS_READ
    (w 11 8 1 < 64 → w 11 9 1 < 64 → ∃ r, exec .countersRead s = .next ((u 11).mboxFinish 0
      [(16, toBytes 8 (s.getQ (w 11 8 1)).ignored), (24, toBytes 8 (amGet s.ctxs (w 11 9 1) {} : Ctx).logDroppedAll), (32, toBytes 8 r)])) ∧
    -- any other code
    (s.arg.code = 0 ∨ 12 ≤ s.arg.code → exec .mailboxBadCode s = .next ((u s.arg.code).mboxFinish 0xFF []))

/-- R365, R397: each SPDM request on one of the two links, in its order of negotiation: what it changes, and an error where a session or an
agreement that it needs is missing or a session is already open; the certificate chain, its digest, a signature over a challenge, and the measurements.
The model's own choices: what the digest and the signature are (notes/assumptions/17.md). PRESUMED, as the spec gives no order of requests: that version, capabilities and algorithms are agreed in this order,
that a request out of it answers an error, and payloads that the spec does not give (19). -/
def Obligations.AttestationFollowsItsSession : Prop :=
  ∀ s : State, s.arg.link < 2 →
    let x : SpdmSt := amGet s.spdm s.arg.link {}
    let set (y : SpdmSt) : State := { s with spdm := amPut s.spdm s.arg.link y }
    let ok (i : Instr) (y : SpdmSt) (r : SpdmReq) : Prop := ∃ d b, exec i s = .next (set { y with last := some (.ok r d b) })
    let err (i : Instr) (r : SpdmReq) : Prop := exec i s = .next (set { x with last := some (.error r) })
    let inside := x.session.isSome = true ∧ x.finished = true
    ok .getVersion { x with negotiated := 1 } .version ∧
    (1 ≤ x.negotiated → ok .getCapabilities { x with negotiated := max 2 x.negotiated } .capabilities) ∧
    (2 ≤ x.negotiated → ok .negotiateAlgorithms { x with negotiated := 3 } .algorithms) ∧
    (x.negotiated = 3 → 
      exec .getDigests s = .next (set { x with last := some (.ok .digests [certDigest] []) }) ∧
      exec .getCertificate s = .next (set { x with last := some (.ok .certificate [] Config.certificate) }) ∧
      (let signed := Config.digest (certDigest.toNat :: s.arg.bytes.map fun (b : Byte) => b.toNat)
       exec .challenge s = .next (set { x with last := some (.ok .challenge [certDigest] (toBytes 64 (Config.signature signed).toNat)) })) ∧
      (∀ i, s.arg.code = i → 1 ≤ i → i ≤ 6 → exec .getMeasurements s = .next (set { x with last := some (.ok (.measurements i) [s.measure i] []) })) ∧
      (s.arg.code = 0xFF → exec .getMeasurements s =
        .next (set { x with last := some (.ok (.measurements 0xFF) ([1, 2, 3, 4, 5, 6].map s.measure) []) })) ∧
      (x.session = none → ok .keyExchange { x with session := some 0, finished := false } .keyExchange) ∧
      (x.session.isSome = true → err .keyExchange .keyExchange) ∧
      (x.session.isSome = true → x.finished = false → ok .finish { x with finished := true } .finish)) ∧
    (inside → ok .keyUpdate { x with session := x.session.map (· + 1) } .keyUpdate ∧ ok .heartbeat x .heartbeat ∧
      ok .endSession { x with session := none, finished := false } .endSession ∧ ok .ideKm { x with ideKeyed := true } .ideKm) ∧
    (¬ inside → err .keyUpdate .keyUpdate ∧ err .heartbeat .heartbeat ∧ err .endSession .endSession ∧ err .ideKm .ideKm) ∧
    (x.negotiated ≠ 3 → err .getDigests .digests ∧ err .getCertificate .certificate ∧ err .challenge .challenge ∧
      err .keyExchange .keyExchange ∧ err .finish .finish)

/-- R201, R304, R329, R336, R388, R389: an injection arms its bit of a cell's ERRMASK, or of the mask that firmware holds for
another unit, and nothing else; a breakpoint is set once; a stopped
paddock steps to a slot's next firing or goes on with what has waited first; an injected swap takes a carried state tile out; an injected
pre-emption stops its paddock, or waits until a stopped one goes on, and then comes before any firing. What a stop holds back is the model's choice
(notes/assumptions/76.md). -/
def Obligations.DebuggersArmStopAndStep : Prop :=
  ∀ s : State,
    (∀ p ∈ [(Instr.errmaskScalar, 1), (.errmaskPred, 2), (.errmaskVector, 3), (.errmaskMatrix, 4), (.errmaskStore, 5),
        (.errmaskRoute, 6), (.errmaskHop, 7), (.errmaskTest, 8)],
      -- of a cell
      (s.arg.code = 0 → s.arg.cell < 384 → ∃ t : State, exec p.1 s = .next t ∧
        (∀ i, (t.coreOf s.arg.cell).errmask.getLsbD i = ((s.coreOf s.arg.cell).errmask.getLsbD i || decide (i = p.2))) ∧
        (t.coreOf s.arg.cell).regs = (s.coreOf s.arg.cell).regs ∧ (t.coreOf s.arg.cell).pc = (s.coreOf s.arg.cell).pc ∧
        (∀ c, c ≠ s.arg.cell → t.coreOf c = s.coreOf c) ∧ t.units = s.units ∧ t.pads = s.pads ∧ t.events = s.events ∧
        ∀ sp, t.mem sp = s.mem sp) ∧
      -- of a slice, a memory link, or a bridge's direction or tether
      ∀ n, (s.arg.code = 1 ∧ s.arg.cell < 384 ∧ n = s.arg.cell ∨ s.arg.code = 2 ∧ s.arg.link < 64 ∧ n = 1000 + s.arg.link ∨
          s.arg.code = 3 ∧ linkExists s.arg.link = true ∧ n = 2000 + s.arg.link) →
        ∃ t : State, exec p.1 s = .next t ∧
          (∀ i, (amGet t.masks n 0).getLsbD i = ((amGet s.masks n 0).getLsbD i || decide (i = p.2))) ∧
          (∀ k, k ≠ n → amGet t.masks k 0 = amGet s.masks k 0) ∧ t.cores = s.cores ∧ t.units = s.units ∧ t.pads = s.pads ∧
          t.events = s.events ∧ ∀ sp, t.mem sp = s.mem sp) ∧
    (∃ t : State, exec .brkPoint s = .next t ∧ t.breaks.contains s.arg.brk = true ∧ (∀ b, b ≠ s.arg.brk → (b ∈ t.breaks ↔ b ∈ s.breaks)) ∧
      t.units = s.units ∧ t.pads = s.pads) ∧
    (s.arg.pad = none → exec .resume s = .next ((({ s with droverStop := false } : State).takeReadings).postOnce .droverSelection)) ∧
    (∀ pad, s.arg.pad = some pad →
      let p := s.getPad pad
      (p.stop = false → exec .resume s = .next s ∧ exec .stepFiring s = .next s ∧
        exec .injectPreempt s = .next (s.stopPad pad .preempting)) ∧
      (p.stop = true →
        (p.preemptNext = false → exec .resume s = .next (s.goOn pad) ∧
          exec .stepFiring s = .next ((s.updPad pad fun p => { p with stepTo := some (s.arg.loc, s.arg.slot) }).goOn pad)) ∧
        (p.preemptNext = true → ∀ i ∈ [Instr.stepFiring, .resume], exec i s =
          .next (((s.updPad pad fun p => { p with stop := false, deferred := [], preemptNext := false }).haltUnits pad).stopPad pad .preempting)) ∧
        exec .injectPreempt s = .next (s.updPad pad fun p => { p with preemptNext := true }))) ∧
    ∀ i n, s.arg.loc = .cell i n →
      let key := Loc.key (.cell i n)
      let t := s.tile key s.arg.slot
      (s.getU key).live = true → (s.getU key).conf.carriedTiles.contains s.arg.slot = true → t.role = .state → t.st = .ready →
      exec .injectSwap s = .next ((s.updU key fun u => { u with tiles := amPut u.tiles s.arg.slot { t with st := .draining } }).post
        (.tileSwapDone (.cell i n) s.arg.slot))
/-- R34 to R42, R302, R307, R314, R349: an S-word is read as an instruction exactly where it is that instruction's word and the instruction
has no reserved content. -/
def Obligations.ScalarWordsEncodeAndDecode : Prop :=
  ∀ (w : Word) (i : Instr), decodeS w = .ok i ↔ (encodeS i = some w ∧ i.sOk = true)

/-- R34, R47 to R52: an E-word is read as an instruction exactly where it is that instruction's word and the bits that its operation fixes
have their values. -/
def Obligations.ElementWordsEncodeAndDecode : Prop :=
  ∀ (w : Word) (i : Instr), decodeE w = .ok i ↔ (encodeE i = some w ∧ i.layout = true)

/-- R34, R37 to R42, R47 to R49, R121, R123, R129, R302, R304: words written out from the spec's encodings. -/
def Obligations.WordsOfTheSpecDecode : Prop :=
  -- the canonical NOP
  decodeS 0x00000000 = .ok (.add 0 0 0 ⟨0, false⟩) ∧
  -- op 0x00, d 3, a 1, b 2, p0, fn 0x00
  decodeS (0b000000_00011_00001_00010_000_0_0000000 : Word) = .ok (.add 3 1 2 ⟨0, false⟩) ∧
  -- op 0x02, 00, pd 2, a 1, b 2, p2, 0000, lt 010
  decodeS (0b000010_00_010_00001_00010_010_0_0000_010 : Word) = .ok (.cmp .lt 2 1 2 ⟨2, false⟩) ∧
  -- op 0x04, d 3, a 0, p1, -1
  decodeS (0b000100_00011_00000_001_0_111111111111 : Word) = .ok (.addi 3 0 (-1) ⟨1, false⟩) ∧
  -- op 0x10, d 4, a 5, p0, w 10, 8
  decodeS (0b010000_00100_00101_000_0_10_0000001000 : Word) = .ok (.ldl 4 5 2 8 ⟨0, false⟩) ∧
  -- op 0x1C, p1 negated, -1
  decodeS (0b011100_001_1_1111111111111111111111 : Word) = .ok (.br (-1) ⟨1, true⟩) ∧
  -- op 0x3D
  decodeS (0b111101_00000_00000_000_0_000000000000 : Word) = .ok (.fin ⟨0, false⟩) ∧
  -- a reserved major opcode, a reserved function, HALT with a reserved field
  decodeS (0b011001_00000_00000_000_0_000000000000 : Word) = .error .illegalOpcode ∧
  decodeS (0b000000_00000_00000_00000_000_0_1111111 : Word) = .error (.reservedField false) ∧
  decodeS (0b111111_00000_00000_000_0_000000000001 : Word) = .error (.reservedField true) ∧
  -- VADD.f32 to slot 1's left field and no second consumer
  decodeE (0b0000001_000_0000_000000100_000000011 : Word) =
    .ok (.vadd ⟨.f32, 0, ⟨1, 0⟩, ⟨0, 3⟩⟩) ∧
  decodeE (0b0000000_000_0000_000000000_000000000 : Word) = .error .empty ∧
  decodeE (0b0000000_000_0000_000000000_000000011 : Word) = .error .unassigned

/-- R34, R37, R38, R46, R64, R73, R264, R301: what moves next. A core issues the little-endian word at its pc: at the limit of its firing, past
its code store and at a word that is no instruction it traps in the order of R38; else the step is the decoded instruction's own, which is not
taken while the word waits for a permit of a slice. A slot with a determined firing runs its E-word, the first of its unit first. An event is
taken out of the list, unless one listed before it must take effect first or it waits for room. Where the outside has chosen nothing, the
oldest determined firing goes first, then the first core that can issue, then the oldest event that can be taken (the model's choice,
notes/assumptions/3.md). -/
def Obligations.StepRunsTheDecodedInstruction : Prop :=
  ∀ s : State,
    let coreStep (c : Nat) (t : State) : Prop :=
      let k := s.coreOf c
      let a := c * 0x4000 + k.pc.toNat
      let w : Word := s.memC.get (a + 3) ++ s.memC.get (a + 2) ++ s.memC.get (a + 1) ++ s.memC.get a
      let limit := isFirmware c = false ∧ k.firing.fmax ≤ k.firing.issued
      let counted : State := t.setCoreOf c { k with firing := { k.firing with issued := k.firing.issued + 1 } }
      (limit → step s = .next (t.takeTrap .firingLimit 0)) ∧
      (¬ limit → 0x4000 ≤ k.pc.toNat → step s = .next (t.takeTrap .spaceBounds 0)) ∧
      (¬ limit → k.pc.toNat < 0x4000 →
        (∀ i, decodeS w = .ok i → step s = exec i counted) ∧
        (decodeS w = .error .illegalOpcode → step s = .next (counted.takeTrap .illegalOpcode 0)) ∧
        (decodeS w = .error (.reservedField false) → step s = .next (counted.takeTrap .reservedField 0)) ∧
        (decodeS w = .error (.reservedField true) →
          step s = .next (counted.takeTrap (if isFirmware c then .reservedField else .privilege) 0)))
    let slotStep (u : Loc) (slot tag : Nat) (t : State) : Prop :=
      ∀ w h i, amGet? (s.getU u.key).conf.slots slot = some (w, h) → decodeE w = .ok i →
        step s = exec i { t with curLoc := u, curSlot := slot, curTag := tag }
    let eventStep (n : Nat) (t : State) : Prop :=
      ∀ e, s.events[n]? = some e →
        let may := (∀ x ∈ s.events.take n, Event.before x e = false) ∧ t.waits e.instr = false
        (may → step s = exec e.instr { t with events := s.events.eraseIdx n, arg := e.arg }) ∧ (¬ may → step s = .next t)
    let moves (c : Nat) (t : State) : Prop :=
      let k := s.coreOf c
      let a := c * 0x4000 + k.pc.toNat
      let w : Word := s.memC.get (a + 3) ++ s.memC.get (a + 2) ++ s.memC.get (a + 1) ++ s.memC.get a
      k.issues = true ∧ (isFirmware c = false ∧ k.firing.fmax ≤ k.firing.issued ∨ 0x4000 ≤ k.pc.toNat ∨
        ∀ i, decodeS w = .ok i → ({ t with curCore := c } : State).wordWaits i = false)
    -- what the outside has chosen
    (∀ ts, let t : State := { s with schedule := ts }
      (∀ c, s.schedule = .core c :: ts →
        (moves c t → coreStep c { t with curCore := c }) ∧ (¬ moves c t → step s = .next t)) ∧
      (∀ u slot tag, s.schedule = .slot u slot tag :: ts →
        (t.firstOfUnit (u, slot, tag) = true → slotStep u slot tag t) ∧
        (t.firstOfUnit (u, slot, tag) = false → step s = .next t) ∧
        ((u, slot, tag) ∉ s.ready → step s = .next t)) ∧
      (∀ n, s.schedule = .event n :: ts → eventStep n t ∧ (s.events.length ≤ n → step s = .next t))) ∧
    -- what goes first where it has chosen nothing
    (s.schedule = [] →
      (∀ u slot tag l, s.mayStart = (u, slot, tag) :: l → slotStep u slot tag s) ∧
      (s.mayStart = [] →
        (∀ c k, s.cores.find? (fun x => s.coreMoves x.1) = some (c, k) → moves c s ∧
          (isFirmware c = false ∨ s.nextEvent = none → coreStep c { s with curCore := c }) ∧
          (isFirmware c = true → ∀ n, s.nextEvent = some n → eventStep n s)) ∧
        (s.cores.find? (fun x => s.coreMoves x.1) = none →
          (∀ n, s.nextEvent = some n → eventStep n s) ∧ (s.nextEvent = none → step s = .next s))))

/-- R203, R228, R239 and the storing units of R372: written bytes read back, every other byte reads as before, the other spaces stay; a
store of a whole 64-byte line clears its mark and no other mark changes; a byte that nothing has written reads zero (the model's
choice, notes/assumptions/2.md); memories in their canonical form that read alike are the same memory. -/
def Obligations.StoredBytesReadBack : Prop :=
  (∀ (m : Memory) (a : Nat) (bs : List Byte),
    (m.write a bs).read a bs.length = bs ∧ (∀ x, x < a ∨ a + bs.length ≤ x → (m.write a bs).get x = m.get x)) ∧
  (∀ x, Memory.get [] x = 0) ∧
  (∀ m n : Memory, m.wf = true → n.wf = true → (∀ x, m.get x = n.get x) → m = n) ∧
  (∀ (s : State) (sp : Space) (a : Nat) (bs : List Byte),
    (s.storeMem sp a bs).readMem sp a bs.length = bs ∧
    (∀ x, x < a ∨ a + bs.length ≤ x → ((s.storeMem sp a bs).mem sp).get x = (s.mem sp).get x) ∧
    (∀ sq, sq ≠ sp → (s.storeMem sp a bs).mem sq = s.mem sq) ∧
    (∀ sq l, (s.storeMem sp a bs).markOf sq l =
      if sq = sp ∧ a ≤ 64 * l ∧ 64 * l + 64 ≤ a + bs.length then none else s.markOf sq l) ∧
    (s.storeMem sp a bs).cores = s.cores ∧ (s.storeMem sp a bs).units = s.units ∧ (s.storeMem sp a bs).events = s.events)

/-- R203 to R206, R398: every step that goes on keeps every memory of the package in its canonical form: rising addresses, no byte listed
that reads as an unlisted one. -/
def Obligations.EveryStepKeepsMemoryCanonical : Prop :=
  ∀ s t : State, s.memWf = true → step s = .next t → t.memWf = true

/-- R29, R341, R386, R398, R404: right after reset the package boots, bring-up from power good is what comes next, every configuration value
is at its default, no context, queue, paddock, cell configuration, handle, session or retired cell is there; memories and registers hold
the model's choice, zero (notes/assumptions/2.md, notes/assumptions/4.md). -/
def Obligations.ResetLeavesTheValuesOfTheSpec : Prop :=
  let s := State.reset
  s.status = 0 ∧ s.events.map (·.instr) = [.powerGood] ∧ s.memWf = true ∧ s.ready = [] ∧
    (List.range 7).map s.cfgVal = [100000, 20000, 1000000, 200000, 50000, 50000000, 10] ∧
    (∀ c, (amGet? s.ctxs c = none) ∧ (s.coreOf c).issues = false ∧ (s.coreOf c).errmask = 0 ∧ (∀ r, (s.coreOf c).reg r = 0) ∧
      ∀ p, (s.coreOf c).pred p = decide (p = 0)) ∧
    (∀ q, amGet? s.queues q = none) ∧ (∀ p, amGet? s.pads p = none) ∧ (∀ u, (s.getU u).live = false) ∧
    (∀ h, amGet? s.handles h = none) ∧ (∀ l, amGet? s.spdm l = none) ∧ s.retired = [] ∧
    (∀ sp x, (s.mem sp).get x = 0) ∧ s.marks = []
end

