-- ==== Sys2Proof/Laws/Encoding.lean ====
section
/-!
SUPPORT. The fields of an encoded word, and a word rebuilt from its fields, format by format.
-/

namespace Sys2Proof

/-! ## Fields of joined bits -/

theorem fld_append_hi {n m : Nat} (x : BitVec n) (y : BitVec m) (lo len : Nat) (h : m ≤ lo) :
    (x ++ y).extractLsb' lo len = x.extractLsb' (lo - m) len := by
  ext i hi
  simp only [BitVec.getElem_extractLsb', BitVec.getLsbD_append]
  rw [if_neg (by omega)]
  congr 1
  omega

theorem fld_append_lo {n m : Nat} (x : BitVec n) (y : BitVec m) (lo len : Nat) (h : lo + len ≤ m) :
    (x ++ y).extractLsb' lo len = y.extractLsb' lo len := by
  ext i hi
  simp only [BitVec.getElem_extractLsb', BitVec.getLsbD_append]
  rw [if_pos (by omega)]

theorem fld_whole {n : Nat} (x : BitVec n) : x.extractLsb' 0 n = x := by simp

/-- Two neighbouring fields of a word, joined, are one field. -/
theorem fld_join {n : Nat} (x : BitVec n) (lo a b : Nat) :
    x.extractLsb' (lo + b) a ++ x.extractLsb' lo b = x.extractLsb' lo (a + b) := by
  ext i hi
  simp only [BitVec.getElem_extractLsb', BitVec.getElem_append]
  split
  · rfl
  · congr 1; omega

theorem ofBool_eq_one (b : Bool) : decide (BitVec.ofBool b = 1) = b := by cases b <;> rfl

theorem ofBool_decide_one (x : BitVec 1) : BitVec.ofBool (decide (x = 1)) = x := by revert x; decide

theorem ofBool_beq_one (x : BitVec 1) : BitVec.ofBool (x == 1) = x := by revert x; decide

/-! ## Formats of S-words -/

theorem fields_RR (op : BitVec 6) (d a b : BitVec 5) (g : Guard) (fn : BitVec 7) :
    fld (encRR op d a b g fn) 26 6 = op ∧ fld (encRR op d a b g fn) 21 5 = d ∧ fld (encRR op d a b g fn) 16 5 = a ∧
      fld (encRR op d a b g fn) 11 5 = b ∧ guardRR (encRR op d a b g fn) = g ∧ fld (encRR op d a b g fn) 0 7 = fn := by
  unfold guardRR fld encRR encGuard
  simp (disch := decide) only [fld_append_hi, fld_append_lo]
  simp only [Nat.reduceSub, Nat.reduceAdd, fld_whole, ofBool_eq_one,
    and_self]

theorem fields_RI (op : BitVec 6) (d a : BitVec 5) (g : Guard) (imm : BitVec 12) :
    fld (encRI op d a g imm) 26 6 = op ∧ fld (encRI op d a g imm) 21 5 = d ∧ fld (encRI op d a g imm) 16 5 = a ∧
      guardRI (encRI op d a g imm) = g ∧ fld (encRI op d a g imm) 0 12 = imm := by
  unfold guardRI fld encRI encGuard
  simp (disch := decide) only [fld_append_hi, fld_append_lo]
  simp only [Nat.reduceSub, Nat.reduceAdd, fld_whole, ofBool_eq_one,
    and_self]

theorem fields_MEM (op : BitVec 6) (d a : BitVec 5) (g : Guard) (sz : BitVec 2) (off : BitVec 10) :
    fld (encMEM op d a g sz off) 26 6 = op ∧ fld (encMEM op d a g sz off) 21 5 = d ∧ fld (encMEM op d a g sz off) 16 5 = a ∧
      guardRI (encMEM op d a g sz off) = g ∧ fld (encMEM op d a g sz off) 10 2 = sz ∧ fld (encMEM op d a g sz off) 0 10 = off := by
  unfold guardRI fld encMEM encGuard
  simp (disch := decide) only [fld_append_hi, fld_append_lo]
  simp only [Nat.reduceSub, Nat.reduceAdd, fld_whole, ofBool_eq_one,
    and_self]

theorem fields_LI (op : BitVec 6) (d : BitVec 5) (imm : BitVec 21) :
    fld (encLI op d imm) 26 6 = op ∧ fld (encLI op d imm) 21 5 = d ∧ fld (encLI op d imm) 0 21 = imm := by
  unfold fld encLI
  simp (disch := decide) only [fld_append_hi, fld_append_lo]
  simp only [Nat.reduceSub, fld_whole, and_self]

theorem fields_BR (op : BitVec 6) (g : Guard) (off : BitVec 22) :
    fld (encBR op g off) 26 6 = op ∧ guardBR (encBR op g off) = g ∧ fld (encBR op g off) 0 22 = off := by
  unfold guardBR fld encBR encGuard
  simp (disch := decide) only [fld_append_hi, fld_append_lo]
  simp only [Nat.reduceSub, Nat.reduceAdd, fld_whole, ofBool_eq_one,
    and_self]

theorem fields_ENG (op : BitVec 6) (q : BitVec 4) (a b : BitVec 5) (g : Guard) (fn : BitVec 8) :
    fld (encENG op q a b g fn) 26 6 = op ∧ fld (encENG op q a b g fn) 22 4 = q ∧ fld (encENG op q a b g fn) 17 5 = a ∧
      fld (encENG op q a b g fn) 12 5 = b ∧ guardENG (encENG op q a b g fn) = g ∧ fld (encENG op q a b g fn) 0 8 = fn := by
  unfold guardENG fld encENG encGuard
  simp (disch := decide) only [fld_append_hi, fld_append_lo]
  simp only [Nat.reduceSub, Nat.reduceAdd, fld_whole, ofBool_eq_one,
    and_self]

/-! ## Formats of E-words -/

theorem consumer_ofCode_enc (c : Consumer) : Consumer.ofCode (encConsumer c) = c := by
  unfold Consumer.ofCode encConsumer
  simp (disch := decide) only [fld_append_hi, fld_append_lo]
  simp only [Nat.reduceSub, fld_whole]

theorem consumer_enc_ofCode (b : BitVec 9) : encConsumer (Consumer.ofCode b) = b := by
  unfold Consumer.ofCode encConsumer
  exact (fld_join b 0 7 2).trans (fld_whole b)

theorem ty_ofCode_code (t : Ty) : Ty.ofCode t.code = t := by cases t <;> rfl

theorem ty_code_ofCode (b : BitVec 3) : (Ty.ofCode b).code = b := by revert b; decide

theorem cond_ofCode_code (c : Cond) : Cond.ofCode c.code = c := by cases c <;> rfl

theorem cond_code_ofCode (b : BitVec 3) : (Cond.ofCode b).code = b := by revert b; decide

theorem condI_ofCode_code (c : CondI) : CondI.ofCode c.code = c := by cases c <;> rfl

theorem condI_code_ofCode (b : BitVec 2) : (CondI.ofCode b).code = b := by revert b; decide

theorem fields_EW (op : BitVec 7) (e : EW) : fld (encEW op e) 25 7 = op ∧ ewOf (encEW op e) = e := by
  unfold ewOf fld encEW
  simp (disch := decide) only [fld_append_hi, fld_append_lo]
  simp only [Nat.reduceSub, fld_whole, ty_ofCode_code,
    consumer_ofCode_enc, and_self]

theorem fields_mat (op : BitVec 7) (m : MatW) : fld (encMat op m) 25 7 = op ∧ matOf (encMat op m) = m := by
  unfold matOf fld encMat
  simp (disch := decide) only [fld_append_hi, fld_append_lo]
  simp only [Nat.reduceSub, fld_whole, ty_ofCode_code,
    true_and]
  obtain ⟨_, _, _, _, _, _, ac, tb, em⟩ := m
  cases ac <;> cases tb <;> cases em <;> rfl

theorem fields_tile (op : BitVec 7) (t : TileW) :
    fld (encTile op t) 25 7 = op ∧ fld (encTile op t) 0 3 = 0 ∧ tileOf (encTile op t) = t := by
  unfold tileOf fld encTile
  simp (disch := decide) only [fld_append_hi, fld_append_lo]
  simp only [Nat.reduceSub, fld_whole, ty_ofCode_code,
    and_self]

/-! ## Words rebuilt from their fields -/

theorem guardRR_enc (w : Word) : encGuard (guardRR w) = fld w 7 4 := by
  unfold guardRR encGuard fld
  rw [ofBool_decide_one]
  exact fld_join w 7 3 1

theorem guardRI_enc (w : Word) : encGuard (guardRI w) = fld w 12 4 := by
  unfold guardRI encGuard fld
  rw [ofBool_decide_one]
  exact fld_join w 12 3 1

theorem guardBR_enc (w : Word) : encGuard (guardBR w) = fld w 22 4 := by
  unfold guardBR encGuard fld
  rw [ofBool_decide_one]
  exact fld_join w 22 3 1

theorem guardENG_enc (w : Word) : encGuard (guardENG w) = fld w 8 4 := by
  unfold guardENG encGuard fld
  rw [ofBool_decide_one]
  exact fld_join w 8 3 1

theorem join_RR (w : Word) : encRR (fld w 26 6) (fld w 21 5) (fld w 16 5) (fld w 11 5) (guardRR w) (fld w 0 7) = w := by
  unfold encRR
  rw [guardRR_enc]
  have h1 := fld_join w 21 6 5
  have h2 := fld_join w 16 11 5
  have h3 := fld_join w 11 16 5
  have h4 := fld_join w 7 21 4
  have h5 := fld_join w 0 25 7
  unfold fld
  exact (congrArg (fun x => x ++ _ ++ _ ++ _ ++ _) h1).trans <| (congrArg (fun x => x ++ _ ++ _ ++ _) h2).trans <|
    (congrArg (fun x => x ++ _ ++ _) h3).trans <| (congrArg (fun x => x ++ _) h4).trans <| h5.trans (fld_whole w)

theorem join_RI (w : Word) : encRI (fld w 26 6) (fld w 21 5) (fld w 16 5) (guardRI w) (fld w 0 12) = w := by
  unfold encRI
  rw [guardRI_enc]
  have h1 := fld_join w 21 6 5
  have h2 := fld_join w 16 11 5
  have h3 := fld_join w 12 16 4
  have h4 := fld_join w 0 20 12
  unfold fld
  exact (congrArg (fun x => x ++ _ ++ _ ++ _) h1).trans <| (congrArg (fun x => x ++ _ ++ _) h2).trans <|
    (congrArg (fun x => x ++ _) h3).trans <| h4.trans (fld_whole w)

theorem join_MEM (w : Word) :
    encMEM (fld w 26 6) (fld w 21 5) (fld w 16 5) (guardRI w) (fld w 10 2) (fld w 0 10) = w := by
  unfold encMEM
  rw [guardRI_enc]
  have h1 := fld_join w 21 6 5
  have h2 := fld_join w 16 11 5
  have h3 := fld_join w 12 16 4
  have h4 := fld_join w 10 20 2
  have h5 := fld_join w 0 22 10
  unfold fld
  exact (congrArg (fun x => x ++ _ ++ _ ++ _ ++ _) h1).trans <| (congrArg (fun x => x ++ _ ++ _ ++ _) h2).trans <|
    (congrArg (fun x => x ++ _ ++ _) h3).trans <| (congrArg (fun x => x ++ _) h4).trans <| h5.trans (fld_whole w)

theorem join_LI (w : Word) : encLI (fld w 26 6) (fld w 21 5) (fld w 0 21) = w := by
  unfold encLI
  have h1 := fld_join w 21 6 5
  have h2 := fld_join w 0 11 21
  unfold fld
  exact (congrArg (fun x => x ++ _) h1).trans <| h2.trans (fld_whole w)

theorem join_BR (w : Word) : encBR (fld w 26 6) (guardBR w) (fld w 0 22) = w := by
  unfold encBR
  rw [guardBR_enc]
  have h1 := fld_join w 22 6 4
  have h2 := fld_join w 0 10 22
  unfold fld
  exact (congrArg (fun x => x ++ _) h1).trans <| h2.trans (fld_whole w)

theorem join_ENG (w : Word) :
    encENG (fld w 26 6) (fld w 22 4) (fld w 17 5) (fld w 12 5) (guardENG w) (fld w 0 8) = w := by
  unfold encENG
  rw [guardENG_enc]
  have h1 := fld_join w 22 6 4
  have h2 := fld_join w 17 10 5
  have h3 := fld_join w 12 15 5
  have h4 := fld_join w 8 20 4
  have h5 := fld_join w 0 24 8
  unfold fld
  exact (congrArg (fun x => x ++ _ ++ _ ++ _ ++ _) h1).trans <| (congrArg (fun x => x ++ _ ++ _ ++ _) h2).trans <|
    (congrArg (fun x => x ++ _ ++ _) h3).trans <| (congrArg (fun x => x ++ _) h4).trans <| h5.trans (fld_whole w)

theorem join_EW (w : Word) : encEW (fld w 25 7) (ewOf w) = w := by
  unfold encEW ewOf
  rw [ty_code_ofCode, consumer_enc_ofCode, consumer_enc_ofCode]
  have h1 := fld_join w 22 7 3
  have h2 := fld_join w 18 10 4
  have h3 := fld_join w 9 14 9
  have h4 := fld_join w 0 23 9
  unfold fld
  exact (congrArg (fun x => x ++ _ ++ _ ++ _) h1).trans <| (congrArg (fun x => x ++ _ ++ _) h2).trans <|
    (congrArg (fun x => x ++ _) h3).trans <| h4.trans (fld_whole w)

theorem join_tile (w : Word) (h : fld w 0 3 = 0) : encTile (fld w 25 7) (tileOf w) = w := by
  unfold encTile tileOf
  rw [ty_code_ofCode, ty_code_ofCode, ← h]
  have h1 := fld_join w 22 7 3
  have h2 := fld_join w 18 10 4
  have h3 := fld_join w 12 14 6
  have h4 := fld_join w 6 20 6
  have h5 := fld_join w 3 26 3
  have h6 := fld_join w 0 29 3
  unfold fld
  exact (congrArg (fun x => x ++ _ ++ _ ++ _ ++ _ ++ _) h1).trans <| (congrArg (fun x => x ++ _ ++ _ ++ _ ++ _) h2).trans <|
    (congrArg (fun x => x ++ _ ++ _ ++ _) h3).trans <| (congrArg (fun x => x ++ _ ++ _) h4).trans <|
    (congrArg (fun x => x ++ _) h5).trans <| h6.trans (fld_whole w)

theorem join_mat (w : Word) : encMat (fld w 25 7) (matOf w) = w := by
  unfold encMat matOf
  rw [ty_code_ofCode, ty_code_ofCode, ofBool_beq_one, ofBool_beq_one, ofBool_beq_one]
  have h1 := fld_join w 22 7 3
  have h2 := fld_join w 18 10 4
  have h3 := fld_join w 15 14 3
  have h4 := fld_join w 12 17 3
  have h5 := fld_join w 6 20 6
  have h6 := fld_join w 3 26 3
  have h7 := fld_join w 2 29 1
  have h8 := fld_join w 1 30 1
  have h9 := fld_join w 0 31 1
  unfold fld
  exact (congrArg (fun x => x ++ _ ++ _ ++ _ ++ _ ++ _ ++ _ ++ _ ++ _) h1).trans <|
    (congrArg (fun x => x ++ _ ++ _ ++ _ ++ _ ++ _ ++ _ ++ _) h2).trans <|
    (congrArg (fun x => x ++ _ ++ _ ++ _ ++ _ ++ _ ++ _) h3).trans <| (congrArg (fun x => x ++ _ ++ _ ++ _ ++ _ ++ _) h4).trans <|
    (congrArg (fun x => x ++ _ ++ _ ++ _ ++ _) h5).trans <| (congrArg (fun x => x ++ _ ++ _ ++ _) h6).trans <|
    (congrArg (fun x => x ++ _ ++ _) h7).trans <| (congrArg (fun x => x ++ _) h8).trans <| h9.trans (fld_whole w)

end Sys2Proof
end

