-- ==== Sys2Proof/Laws/Handles.lean ====
section
/-!
SUPPORT. What a minted handle's word says (R345): its fields read back, and it is valid for its context while its entry stands.
-/

namespace Sys2Proof.Machine

theorem handleWord_toNat (ctx gen serial : Nat) (hc : ctx < 64) (hg : gen < 2 ^ 16) (hs : serial < 2 ^ 26) :
    ∃ c, c < 2 ^ 16 ∧ (handleWord ctx gen serial).toNat = (ctx * 2 ^ 42 + gen * 2 ^ 26 + serial) * 2 ^ 16 + c := by
  refine ⟨(Config.handleCheck (BitVec.ofNat 48 (ctx * 2 ^ 42 + gen * 2 ^ 26 + serial))).toNat, BitVec.isLt _, ?_⟩
  have h : ctx * 2 ^ 42 + gen * 2 ^ 26 + serial < 2 ^ 48 := by omega
  simp only [handleWord, BitVec.toNat_append, BitVec.toNat_ofNat, Nat.mod_eq_of_lt h]
  rw [← Nat.shiftLeft_add_eq_or_of_lt (BitVec.isLt _), Nat.shiftLeft_eq]

/-- The fields of a handle's word. -/
theorem handleWord_fields {ctx gen serial : Nat} (hc : ctx < 64) (hg : gen < 2 ^ 16) (hs : serial < 2 ^ 26) :
    handleCtx (handleWord ctx gen serial) = ctx ∧ handleGen (handleWord ctx gen serial) = gen ∧ handleSerial (handleWord ctx gen serial) = serial := by
  obtain ⟨c, h, e⟩ := handleWord_toNat ctx gen serial hc hg hs
  simp only [handleCtx, handleGen, handleSerial, bitsOf, e]
  refine ⟨?_, ?_, ?_⟩ <;> simp only [Nat.reduceSub, Nat.reduceAdd] <;> omega

theorem extract_top (t : BitVec 48) (c : BitVec 16) : (t ++ c).extractLsb' 16 48 = t := by
  ext i hi
  rw [BitVec.getElem_extractLsb']
  exact (BitVec.getLsbD_append (x := t) (y := c)).trans (by simp [hi])

theorem extract_check (t : BitVec 48) (c : BitVec 16) : (t ++ c).extractLsb' 0 16 = c := by
  ext i hi
  rw [BitVec.getElem_extractLsb']
  exact (BitVec.getLsbD_append (x := t) (y := c)).trans (by simp [hi])

/-- A minted handle is valid while its entry lives in its context's generation. -/
theorem validHandle_handleWord {s : State} {ctx gen serial : Nat} {e : Handle} (hc : ctx < 64) (hg : gen < 2 ^ 16) (hs : serial < 2 ^ 26)
    (he : amGet? s.handles serial = some e) (hl : e.live = true) (hx : e.ctx = ctx) (hy : e.gen = gen)
    (hz : (amGet s.ctxs ctx {} : Ctx).gen = gen) : s.validHandle (handleWord ctx gen serial) ctx = some e := by
  obtain ⟨h1, h2, h3⟩ := handleWord_fields hc hg hs
  have h4 : ((handleWord ctx gen serial).extractLsb' 0 16 == Config.handleCheck ((handleWord ctx gen serial).extractLsb' 16 48)) = true := by
    unfold handleWord
    rw [extract_check, extract_top, beq_self_eq_true]
  generalize handleWord ctx gen serial = w at h1 h2 h3 h4 ⊢
  simp only [State.validHandle, h3, he, h1, h2, hz, h4, hl, hx, hy, beq_self_eq_true, Bool.and_self, if_true]

end Sys2Proof.Machine
end

