-- ==== Sys2Proof/Laws/Memory.lean ====
section
/-!
SUPPORT. The canonical form of memories, and that every memory operation keeps it.
-/

namespace Sys2Proof.Machine

theorem wfFrom_mono {m : Memory} {lo lo' : Nat} (h : Memory.wfFrom lo m = true) (hl : lo' ≤ lo) : Memory.wfFrom lo' m = true := by
  cases m with
  | nil => rfl
  | cons c m =>
    simp only [Memory.wfFrom, Bool.and_eq_true, decide_eq_true_eq] at h ⊢
    exact ⟨⟨by omega, h.1.2⟩, h.2⟩

theorem wfFrom_del {m : Memory} {lo : Nat} (a : Nat) (h : Memory.wfFrom lo m = true) : Memory.wfFrom lo (amDel m a) = true := by
  induction m generalizing lo with
  | nil => rfl
  | cons c m ih =>
    simp only [Memory.wfFrom, Bool.and_eq_true, decide_eq_true_eq] at h
    unfold amDel
    split
    · exact wfFrom_mono (ih h.2) (by omega)
    · simp only [Memory.wfFrom, Bool.and_eq_true, decide_eq_true_eq]
      exact ⟨h.1, ih h.2⟩

theorem wfFrom_put {m : Memory} {lo a : Nat} {b : Byte} (h : Memory.wfFrom lo m = true) (hl : lo ≤ a) (hb : b ≠ Memory.blankByte) :
    Memory.wfFrom lo (amPut m a b) = true := by
  induction m generalizing lo with
  | nil => simp [amPut, Memory.wfFrom, hl, hb]
  | cons c m ih =>
    simp only [Memory.wfFrom, Bool.and_eq_true, decide_eq_true_eq] at h
    obtain ⟨⟨h1, h2⟩, h3⟩ := h
    unfold amPut
    split
    · rename_i e; subst e; simp [Memory.wfFrom, hl, hb, h3]
    · split
      · simp only [Memory.wfFrom, Bool.and_eq_true, decide_eq_true_eq]
        exact ⟨⟨hl, hb⟩, ⟨by omega, h2⟩, h3⟩
      · simp only [Memory.wfFrom, Bool.and_eq_true, decide_eq_true_eq]
        exact ⟨⟨h1, h2⟩, ih h3 (by omega)⟩

theorem Memory.wf_nil : Memory.wf [] = true := rfl

theorem Memory.wf_set {m : Memory} (a : Nat) (b : Byte) (h : m.wf = true) : (m.set a b).wf = true := by
  unfold Memory.set Memory.wf
  split
  · exact wfFrom_del a h
  · exact wfFrom_put h (Nat.zero_le _) ‹_›

theorem Memory.wf_write {m : Memory} (a : Nat) (bs : List Byte) (h : m.wf = true) : (m.write a bs).wf = true := by
  induction bs generalizing m a with
  | nil => exact h
  | cons b bs ih => exact ih (a + 1) (wf_set a b h)

theorem wfFrom_filter {m : Memory} {lo : Nat} (p : Host.Cell → Bool) (h : Memory.wfFrom lo m = true) :
    Memory.wfFrom lo (m.filter p) = true := by
  induction m generalizing lo with
  | nil => rfl
  | cons c m ih =>
    simp only [Memory.wfFrom, Bool.and_eq_true, decide_eq_true_eq] at h
    rw [List.filter_cons]
    split
    · simp only [Memory.wfFrom, Bool.and_eq_true, decide_eq_true_eq]
      exact ⟨h.1, ih h.2⟩
    · exact wfFrom_mono (ih h.2) (by omega)

theorem Memory.wf_clearRange {m : Memory} (a n : Nat) (h : m.wf = true) : (m.clearRange a n).wf = true := wfFrom_filter _ h

/-! ## The memories of a state -/

theorem memWf_iff {s : State} : s.memWf = true ↔ ∀ m ∈ s.mems, Memory.wf m = true := by simp [State.memWf]

/-- A state with the memories of a canonical one is canonical. -/
theorem memWf_of_mems {s t : State} (h : t.mems = s.mems) (hs : s.memWf = true) : t.memWf = true := by
  unfold State.memWf at *; rw [h]; exact hs

theorem memWf_mem {s : State} (sp : Space) (h : s.memWf = true) : (s.mem sp).wf = true := by
  rw [memWf_iff] at h
  cases sp <;> exact h _ (by simp [State.mems, State.mem])

theorem memWf_setMem {s : State} (sp : Space) {m : Memory} (h : s.memWf = true) (hm : m.wf = true) : (s.setMem sp m).memWf = true := by
  simp only [State.memWf, State.mems, List.all_cons, List.all_nil, Bool.and_true, Bool.and_eq_true] at h ⊢
  cases sp <;> simp_all [State.setMem]

theorem memWf_writeMem {s : State} (sp : Space) (a : Nat) (bs : List Byte) (h : s.memWf = true) : (s.writeMem sp a bs).memWf = true :=
  memWf_setMem sp h (Memory.wf_write a bs (memWf_mem sp h))

theorem mems_clearMark (s : State) (sp : Space) (l : Nat) : (s.clearMark sp l).mems = s.mems := rfl

theorem mems_setMark (s : State) (sp : Space) (l : Nat) (k : LineMark) : (s.setMark sp l k).mems = s.mems := rfl

theorem memWf_storeMem {s : State} (sp : Space) (a : Nat) (bs : List Byte) (h : s.memWf = true) : (s.storeMem sp a bs).memWf = true := by
  unfold State.storeMem
  apply memWf_writeMem
  generalize List.filter _ _ = l
  induction l generalizing s with
  | nil => exact h
  | cons x l ih => exact ih (memWf_of_mems (mems_clearMark s sp x) h)

end Sys2Proof.Machine
end

