-- ==== Sys2Proof/Laws/State.lean ====
section
/-!
SUPPORT. What each named update leaves of each field of the state, and what it writes.
-/

namespace Sys2Proof.Machine

/-! ## setCoreOf -/

@[simp] theorem State.setCoreOf_status (s : State) (c : Nat) (k : CoreSt) : (s.setCoreOf c k).status = s.status := rfl
@[simp] theorem State.setCoreOf_events (s : State) (c : Nat) (k : CoreSt) : (s.setCoreOf c k).events = s.events := rfl
@[simp] theorem State.setCoreOf_arg (s : State) (c : Nat) (k : CoreSt) : (s.setCoreOf c k).arg = s.arg := rfl
@[simp] theorem State.setCoreOf_ready (s : State) (c : Nat) (k : CoreSt) : (s.setCoreOf c k).ready = s.ready := rfl
@[simp] theorem State.setCoreOf_schedule (s : State) (c : Nat) (k : CoreSt) : (s.setCoreOf c k).schedule = s.schedule := rfl
@[simp] theorem State.setCoreOf_curCore (s : State) (c : Nat) (k : CoreSt) : (s.setCoreOf c k).curCore = s.curCore := rfl
@[simp] theorem State.setCoreOf_curLoc (s : State) (c : Nat) (k : CoreSt) : (s.setCoreOf c k).curLoc = s.curLoc := rfl
@[simp] theorem State.setCoreOf_curSlot (s : State) (c : Nat) (k : CoreSt) : (s.setCoreOf c k).curSlot = s.curSlot := rfl
@[simp] theorem State.setCoreOf_curTag (s : State) (c : Nat) (k : CoreSt) : (s.setCoreOf c k).curTag = s.curTag := rfl
@[simp] theorem State.setCoreOf_units (s : State) (c : Nat) (k : CoreSt) : (s.setCoreOf c k).units = s.units := rfl
@[simp] theorem State.setCoreOf_cells (s : State) (c : Nat) (k : CoreSt) : (s.setCoreOf c k).cells = s.cells := rfl
@[simp] theorem State.setCoreOf_engines (s : State) (c : Nat) (k : CoreSt) : (s.setCoreOf c k).engines = s.engines := rfl
@[simp] theorem State.setCoreOf_engNext (s : State) (c : Nat) (k : CoreSt) : (s.setCoreOf c k).engNext = s.engNext := rfl
@[simp] theorem State.setCoreOf_groups (s : State) (c : Nat) (k : CoreSt) : (s.setCoreOf c k).groups = s.groups := rfl
@[simp] theorem State.setCoreOf_memC (s : State) (c : Nat) (k : CoreSt) : (s.setCoreOf c k).memC = s.memC := rfl
@[simp] theorem State.setCoreOf_memL (s : State) (c : Nat) (k : CoreSt) : (s.setCoreOf c k).memL = s.memL := rfl
@[simp] theorem State.setCoreOf_memF (s : State) (c : Nat) (k : CoreSt) : (s.setCoreOf c k).memF = s.memF := rfl
@[simp] theorem State.setCoreOf_memS (s : State) (c : Nat) (k : CoreSt) : (s.setCoreOf c k).memS = s.memS := rfl
@[simp] theorem State.setCoreOf_memM (s : State) (c : Nat) (k : CoreSt) : (s.setCoreOf c k).memM = s.memM := rfl
@[simp] theorem State.setCoreOf_memH (s : State) (c : Nat) (k : CoreSt) : (s.setCoreOf c k).memH = s.memH := rfl
@[simp] theorem State.setCoreOf_marks (s : State) (c : Nat) (k : CoreSt) : (s.setCoreOf c k).marks = s.marks := rfl
@[simp] theorem State.setCoreOf_owners (s : State) (c : Nat) (k : CoreSt) : (s.setCoreOf c k).owners = s.owners := rfl
@[simp] theorem State.setCoreOf_pads (s : State) (c : Nat) (k : CoreSt) : (s.setCoreOf c k).pads = s.pads := rfl
@[simp] theorem State.setCoreOf_padNext (s : State) (c : Nat) (k : CoreSt) : (s.setCoreOf c k).padNext = s.padNext := rfl
@[simp] theorem State.setCoreOf_ctxs (s : State) (c : Nat) (k : CoreSt) : (s.setCoreOf c k).ctxs = s.ctxs := rfl
@[simp] theorem State.setCoreOf_handles (s : State) (c : Nat) (k : CoreSt) : (s.setCoreOf c k).handles = s.handles := rfl
@[simp] theorem State.setCoreOf_handleNext (s : State) (c : Nat) (k : CoreSt) : (s.setCoreOf c k).handleNext = s.handleNext := rfl
@[simp] theorem State.setCoreOf_queues (s : State) (c : Nat) (k : CoreSt) : (s.setCoreOf c k).queues = s.queues := rfl
@[simp] theorem State.setCoreOf_selections (s : State) (c : Nat) (k : CoreSt) : (s.setCoreOf c k).selections = s.selections := rfl
@[simp] theorem State.setCoreOf_prgs (s : State) (c : Nat) (k : CoreSt) : (s.setCoreOf c k).prgs = s.prgs := rfl
@[simp] theorem State.setCoreOf_prgNext (s : State) (c : Nat) (k : CoreSt) : (s.setCoreOf c k).prgNext = s.prgNext := rfl
@[simp] theorem State.setCoreOf_ats (s : State) (c : Nat) (k : CoreSt) : (s.setCoreOf c k).ats = s.ats := rfl
@[simp] theorem State.setCoreOf_evicted (s : State) (c : Nat) (k : CoreSt) : (s.setCoreOf c k).evicted = s.evicted := rfl
@[simp] theorem State.setCoreOf_migrations (s : State) (c : Nat) (k : CoreSt) : (s.setCoreOf c k).migrations = s.migrations := rfl
@[simp] theorem State.setCoreOf_links (s : State) (c : Nat) (k : CoreSt) : (s.setCoreOf c k).links = s.links := rfl
@[simp] theorem State.setCoreOf_retired (s : State) (c : Nat) (k : CoreSt) : (s.setCoreOf c k).retired = s.retired := rfl
@[simp] theorem State.setCoreOf_bmcRetired (s : State) (c : Nat) (k : CoreSt) : (s.setCoreOf c k).bmcRetired = s.bmcRetired := rfl
@[simp] theorem State.setCoreOf_tests (s : State) (c : Nat) (k : CoreSt) : (s.setCoreOf c k).tests = s.tests := rfl
@[simp] theorem State.setCoreOf_fw (s : State) (c : Nat) (k : CoreSt) : (s.setCoreOf c k).fw = s.fw := rfl
@[simp] theorem State.setCoreOf_fwSlot (s : State) (c : Nat) (k : CoreSt) : (s.setCoreOf c k).fwSlot = s.fwSlot := rfl
@[simp] theorem State.setCoreOf_bmcSlot (s : State) (c : Nat) (k : CoreSt) : (s.setCoreOf c k).bmcSlot = s.bmcSlot := rfl
@[simp] theorem State.setCoreOf_fuseMinSvn (s : State) (c : Nat) (k : CoreSt) : (s.setCoreOf c k).fuseMinSvn = s.fuseMinSvn := rfl
@[simp] theorem State.setCoreOf_update (s : State) (c : Nat) (k : CoreSt) : (s.setCoreOf c k).update = s.update := rfl
@[simp] theorem State.setCoreOf_mailbox (s : State) (c : Nat) (k : CoreSt) : (s.setCoreOf c k).mailbox = s.mailbox := rfl
@[simp] theorem State.setCoreOf_spdm (s : State) (c : Nat) (k : CoreSt) : (s.setCoreOf c k).spdm = s.spdm := rfl
@[simp] theorem State.setCoreOf_config (s : State) (c : Nat) (k : CoreSt) : (s.setCoreOf c k).config = s.config := rfl
@[simp] theorem State.setCoreOf_clocks (s : State) (c : Nat) (k : CoreSt) : (s.setCoreOf c k).clocks = s.clocks := rfl
@[simp] theorem State.setCoreOf_breaks (s : State) (c : Nat) (k : CoreSt) : (s.setCoreOf c k).breaks = s.breaks := rfl
@[simp] theorem State.setCoreOf_droverStop (s : State) (c : Nat) (k : CoreSt) : (s.setCoreOf c k).droverStop = s.droverStop := rfl
@[simp] theorem State.setCoreOf_reads (s : State) (c : Nat) (k : CoreSt) : (s.setCoreOf c k).reads = s.reads := rfl
@[simp] theorem State.setCoreOf_corrected (s : State) (c : Nat) (k : CoreSt) : (s.setCoreOf c k).corrected = s.corrected := rfl
@[simp] theorem State.setCoreOf_sigWriters (s : State) (c : Nat) (k : CoreSt) : (s.setCoreOf c k).sigWriters = s.sigWriters := rfl
@[simp] theorem State.setCoreOf_placed (s : State) (c : Nat) (k : CoreSt) : (s.setCoreOf c k).placed = s.placed := rfl
@[simp] theorem State.setCoreOf_memLinksOut (s : State) (c : Nat) (k : CoreSt) : (s.setCoreOf c k).memLinksOut = s.memLinksOut := rfl
@[simp] theorem State.setCoreOf_masks (s : State) (c : Nat) (k : CoreSt) : (s.setCoreOf c k).masks = s.masks := rfl
@[simp] theorem State.setCoreOf_hopBufs (s : State) (c : Nat) (k : CoreSt) : (s.setCoreOf c k).hopBufs = s.hopBufs := rfl
@[simp] theorem State.setCoreOf_freeCtr (s : State) (c : Nat) (k : CoreSt) : (s.setCoreOf c k).freeCtr = s.freeCtr := rfl

/-! ## setCore -/

@[simp] theorem State.setCore_status (s : State) (k : CoreSt) : (s.setCore k).status = s.status := rfl
@[simp] theorem State.setCore_events (s : State) (k : CoreSt) : (s.setCore k).events = s.events := rfl
@[simp] theorem State.setCore_arg (s : State) (k : CoreSt) : (s.setCore k).arg = s.arg := rfl
@[simp] theorem State.setCore_ready (s : State) (k : CoreSt) : (s.setCore k).ready = s.ready := rfl
@[simp] theorem State.setCore_schedule (s : State) (k : CoreSt) : (s.setCore k).schedule = s.schedule := rfl
@[simp] theorem State.setCore_curCore (s : State) (k : CoreSt) : (s.setCore k).curCore = s.curCore := rfl
@[simp] theorem State.setCore_curLoc (s : State) (k : CoreSt) : (s.setCore k).curLoc = s.curLoc := rfl
@[simp] theorem State.setCore_curSlot (s : State) (k : CoreSt) : (s.setCore k).curSlot = s.curSlot := rfl
@[simp] theorem State.setCore_curTag (s : State) (k : CoreSt) : (s.setCore k).curTag = s.curTag := rfl
@[simp] theorem State.setCore_units (s : State) (k : CoreSt) : (s.setCore k).units = s.units := rfl
@[simp] theorem State.setCore_cells (s : State) (k : CoreSt) : (s.setCore k).cells = s.cells := rfl
@[simp] theorem State.setCore_engines (s : State) (k : CoreSt) : (s.setCore k).engines = s.engines := rfl
@[simp] theorem State.setCore_engNext (s : State) (k : CoreSt) : (s.setCore k).engNext = s.engNext := rfl
@[simp] theorem State.setCore_groups (s : State) (k : CoreSt) : (s.setCore k).groups = s.groups := rfl
@[simp] theorem State.setCore_memC (s : State) (k : CoreSt) : (s.setCore k).memC = s.memC := rfl
@[simp] theorem State.setCore_memL (s : State) (k : CoreSt) : (s.setCore k).memL = s.memL := rfl
@[simp] theorem State.setCore_memF (s : State) (k : CoreSt) : (s.setCore k).memF = s.memF := rfl
@[simp] theorem State.setCore_memS (s : State) (k : CoreSt) : (s.setCore k).memS = s.memS := rfl
@[simp] theorem State.setCore_memM (s : State) (k : CoreSt) : (s.setCore k).memM = s.memM := rfl
@[simp] theorem State.setCore_memH (s : State) (k : CoreSt) : (s.setCore k).memH = s.memH := rfl
@[simp] theorem State.setCore_marks (s : State) (k : CoreSt) : (s.setCore k).marks = s.marks := rfl
@[simp] theorem State.setCore_owners (s : State) (k : CoreSt) : (s.setCore k).owners = s.owners := rfl
@[simp] theorem State.setCore_pads (s : State) (k : CoreSt) : (s.setCore k).pads = s.pads := rfl
@[simp] theorem State.setCore_padNext (s : State) (k : CoreSt) : (s.setCore k).padNext = s.padNext := rfl
@[simp] theorem State.setCore_ctxs (s : State) (k : CoreSt) : (s.setCore k).ctxs = s.ctxs := rfl
@[simp] theorem State.setCore_handles (s : State) (k : CoreSt) : (s.setCore k).handles = s.handles := rfl
@[simp] theorem State.setCore_handleNext (s : State) (k : CoreSt) : (s.setCore k).handleNext = s.handleNext := rfl
@[simp] theorem State.setCore_queues (s : State) (k : CoreSt) : (s.setCore k).queues = s.queues := rfl
@[simp] theorem State.setCore_selections (s : State) (k : CoreSt) : (s.setCore k).selections = s.selections := rfl
@[simp] theorem State.setCore_prgs (s : State) (k : CoreSt) : (s.setCore k).prgs = s.prgs := rfl
@[simp] theorem State.setCore_prgNext (s : State) (k : CoreSt) : (s.setCore k).prgNext = s.prgNext := rfl
@[simp] theorem State.setCore_ats (s : State) (k : CoreSt) : (s.setCore k).ats = s.ats := rfl
@[simp] theorem State.setCore_evicted (s : State) (k : CoreSt) : (s.setCore k).evicted = s.evicted := rfl
@[simp] theorem State.setCore_migrations (s : State) (k : CoreSt) : (s.setCore k).migrations = s.migrations := rfl
@[simp] theorem State.setCore_links (s : State) (k : CoreSt) : (s.setCore k).links = s.links := rfl
@[simp] theorem State.setCore_retired (s : State) (k : CoreSt) : (s.setCore k).retired = s.retired := rfl
@[simp] theorem State.setCore_bmcRetired (s : State) (k : CoreSt) : (s.setCore k).bmcRetired = s.bmcRetired := rfl
@[simp] theorem State.setCore_tests (s : State) (k : CoreSt) : (s.setCore k).tests = s.tests := rfl
@[simp] theorem State.setCore_fw (s : State) (k : CoreSt) : (s.setCore k).fw = s.fw := rfl
@[simp] theorem State.setCore_fwSlot (s : State) (k : CoreSt) : (s.setCore k).fwSlot = s.fwSlot := rfl
@[simp] theorem State.setCore_bmcSlot (s : State) (k : CoreSt) : (s.setCore k).bmcSlot = s.bmcSlot := rfl
@[simp] theorem State.setCore_fuseMinSvn (s : State) (k : CoreSt) : (s.setCore k).fuseMinSvn = s.fuseMinSvn := rfl
@[simp] theorem State.setCore_update (s : State) (k : CoreSt) : (s.setCore k).update = s.update := rfl
@[simp] theorem State.setCore_mailbox (s : State) (k : CoreSt) : (s.setCore k).mailbox = s.mailbox := rfl
@[simp] theorem State.setCore_spdm (s : State) (k : CoreSt) : (s.setCore k).spdm = s.spdm := rfl
@[simp] theorem State.setCore_config (s : State) (k : CoreSt) : (s.setCore k).config = s.config := rfl
@[simp] theorem State.setCore_clocks (s : State) (k : CoreSt) : (s.setCore k).clocks = s.clocks := rfl
@[simp] theorem State.setCore_breaks (s : State) (k : CoreSt) : (s.setCore k).breaks = s.breaks := rfl
@[simp] theorem State.setCore_droverStop (s : State) (k : CoreSt) : (s.setCore k).droverStop = s.droverStop := rfl
@[simp] theorem State.setCore_reads (s : State) (k : CoreSt) : (s.setCore k).reads = s.reads := rfl
@[simp] theorem State.setCore_corrected (s : State) (k : CoreSt) : (s.setCore k).corrected = s.corrected := rfl
@[simp] theorem State.setCore_sigWriters (s : State) (k : CoreSt) : (s.setCore k).sigWriters = s.sigWriters := rfl
@[simp] theorem State.setCore_placed (s : State) (k : CoreSt) : (s.setCore k).placed = s.placed := rfl
@[simp] theorem State.setCore_memLinksOut (s : State) (k : CoreSt) : (s.setCore k).memLinksOut = s.memLinksOut := rfl
@[simp] theorem State.setCore_masks (s : State) (k : CoreSt) : (s.setCore k).masks = s.masks := rfl
@[simp] theorem State.setCore_hopBufs (s : State) (k : CoreSt) : (s.setCore k).hopBufs = s.hopBufs := rfl
@[simp] theorem State.setCore_freeCtr (s : State) (k : CoreSt) : (s.setCore k).freeCtr = s.freeCtr := rfl

/-! ## setU -/

@[simp] theorem State.setU_status (s : State) (n : Nat) (u : UnitSt) : (s.setU n u).status = s.status := rfl
@[simp] theorem State.setU_events (s : State) (n : Nat) (u : UnitSt) : (s.setU n u).events = s.events := rfl
@[simp] theorem State.setU_arg (s : State) (n : Nat) (u : UnitSt) : (s.setU n u).arg = s.arg := rfl
@[simp] theorem State.setU_ready (s : State) (n : Nat) (u : UnitSt) : (s.setU n u).ready = s.ready := rfl
@[simp] theorem State.setU_schedule (s : State) (n : Nat) (u : UnitSt) : (s.setU n u).schedule = s.schedule := rfl
@[simp] theorem State.setU_curCore (s : State) (n : Nat) (u : UnitSt) : (s.setU n u).curCore = s.curCore := rfl
@[simp] theorem State.setU_curLoc (s : State) (n : Nat) (u : UnitSt) : (s.setU n u).curLoc = s.curLoc := rfl
@[simp] theorem State.setU_curSlot (s : State) (n : Nat) (u : UnitSt) : (s.setU n u).curSlot = s.curSlot := rfl
@[simp] theorem State.setU_curTag (s : State) (n : Nat) (u : UnitSt) : (s.setU n u).curTag = s.curTag := rfl
@[simp] theorem State.setU_cores (s : State) (n : Nat) (u : UnitSt) : (s.setU n u).cores = s.cores := rfl
@[simp] theorem State.setU_cells (s : State) (n : Nat) (u : UnitSt) : (s.setU n u).cells = s.cells := rfl
@[simp] theorem State.setU_engines (s : State) (n : Nat) (u : UnitSt) : (s.setU n u).engines = s.engines := rfl
@[simp] theorem State.setU_engNext (s : State) (n : Nat) (u : UnitSt) : (s.setU n u).engNext = s.engNext := rfl
@[simp] theorem State.setU_groups (s : State) (n : Nat) (u : UnitSt) : (s.setU n u).groups = s.groups := rfl
@[simp] theorem State.setU_memC (s : State) (n : Nat) (u : UnitSt) : (s.setU n u).memC = s.memC := rfl
@[simp] theorem State.setU_memL (s : State) (n : Nat) (u : UnitSt) : (s.setU n u).memL = s.memL := rfl
@[simp] theorem State.setU_memF (s : State) (n : Nat) (u : UnitSt) : (s.setU n u).memF = s.memF := rfl
@[simp] theorem State.setU_memS (s : State) (n : Nat) (u : UnitSt) : (s.setU n u).memS = s.memS := rfl
@[simp] theorem State.setU_memM (s : State) (n : Nat) (u : UnitSt) : (s.setU n u).memM = s.memM := rfl
@[simp] theorem State.setU_memH (s : State) (n : Nat) (u : UnitSt) : (s.setU n u).memH = s.memH := rfl
@[simp] theorem State.setU_marks (s : State) (n : Nat) (u : UnitSt) : (s.setU n u).marks = s.marks := rfl
@[simp] theorem State.setU_owners (s : State) (n : Nat) (u : UnitSt) : (s.setU n u).owners = s.owners := rfl
@[simp] theorem State.setU_pads (s : State) (n : Nat) (u : UnitSt) : (s.setU n u).pads = s.pads := rfl
@[simp] theorem State.setU_padNext (s : State) (n : Nat) (u : UnitSt) : (s.setU n u).padNext = s.padNext := rfl
@[simp] theorem State.setU_ctxs (s : State) (n : Nat) (u : UnitSt) : (s.setU n u).ctxs = s.ctxs := rfl
@[simp] theorem State.setU_handles (s : State) (n : Nat) (u : UnitSt) : (s.setU n u).handles = s.handles := rfl
@[simp] theorem State.setU_handleNext (s : State) (n : Nat) (u : UnitSt) : (s.setU n u).handleNext = s.handleNext := rfl
@[simp] theorem State.setU_queues (s : State) (n : Nat) (u : UnitSt) : (s.setU n u).queues = s.queues := rfl
@[simp] theorem State.setU_selections (s : State) (n : Nat) (u : UnitSt) : (s.setU n u).selections = s.selections := rfl
@[simp] theorem State.setU_prgs (s : State) (n : Nat) (u : UnitSt) : (s.setU n u).prgs = s.prgs := rfl
@[simp] theorem State.setU_prgNext (s : State) (n : Nat) (u : UnitSt) : (s.setU n u).prgNext = s.prgNext := rfl
@[simp] theorem State.setU_ats (s : State) (n : Nat) (u : UnitSt) : (s.setU n u).ats = s.ats := rfl
@[simp] theorem State.setU_evicted (s : State) (n : Nat) (u : UnitSt) : (s.setU n u).evicted = s.evicted := rfl
@[simp] theorem State.setU_migrations (s : State) (n : Nat) (u : UnitSt) : (s.setU n u).migrations = s.migrations := rfl
@[simp] theorem State.setU_links (s : State) (n : Nat) (u : UnitSt) : (s.setU n u).links = s.links := rfl
@[simp] theorem State.setU_retired (s : State) (n : Nat) (u : UnitSt) : (s.setU n u).retired = s.retired := rfl
@[simp] theorem State.setU_bmcRetired (s : State) (n : Nat) (u : UnitSt) : (s.setU n u).bmcRetired = s.bmcRetired := rfl
@[simp] theorem State.setU_tests (s : State) (n : Nat) (u : UnitSt) : (s.setU n u).tests = s.tests := rfl
@[simp] theorem State.setU_fw (s : State) (n : Nat) (u : UnitSt) : (s.setU n u).fw = s.fw := rfl
@[simp] theorem State.setU_fwSlot (s : State) (n : Nat) (u : UnitSt) : (s.setU n u).fwSlot = s.fwSlot := rfl
@[simp] theorem State.setU_bmcSlot (s : State) (n : Nat) (u : UnitSt) : (s.setU n u).bmcSlot = s.bmcSlot := rfl
@[simp] theorem State.setU_fuseMinSvn (s : State) (n : Nat) (u : UnitSt) : (s.setU n u).fuseMinSvn = s.fuseMinSvn := rfl
@[simp] theorem State.setU_update (s : State) (n : Nat) (u : UnitSt) : (s.setU n u).update = s.update := rfl
@[simp] theorem State.setU_mailbox (s : State) (n : Nat) (u : UnitSt) : (s.setU n u).mailbox = s.mailbox := rfl
@[simp] theorem State.setU_spdm (s : State) (n : Nat) (u : UnitSt) : (s.setU n u).spdm = s.spdm := rfl
@[simp] theorem State.setU_config (s : State) (n : Nat) (u : UnitSt) : (s.setU n u).config = s.config := rfl
@[simp] theorem State.setU_clocks (s : State) (n : Nat) (u : UnitSt) : (s.setU n u).clocks = s.clocks := rfl
@[simp] theorem State.setU_breaks (s : State) (n : Nat) (u : UnitSt) : (s.setU n u).breaks = s.breaks := rfl
@[simp] theorem State.setU_droverStop (s : State) (n : Nat) (u : UnitSt) : (s.setU n u).droverStop = s.droverStop := rfl
@[simp] theorem State.setU_reads (s : State) (n : Nat) (u : UnitSt) : (s.setU n u).reads = s.reads := rfl
@[simp] theorem State.setU_corrected (s : State) (n : Nat) (u : UnitSt) : (s.setU n u).corrected = s.corrected := rfl
@[simp] theorem State.setU_sigWriters (s : State) (n : Nat) (u : UnitSt) : (s.setU n u).sigWriters = s.sigWriters := rfl
@[simp] theorem State.setU_placed (s : State) (n : Nat) (u : UnitSt) : (s.setU n u).placed = s.placed := rfl
@[simp] theorem State.setU_memLinksOut (s : State) (n : Nat) (u : UnitSt) : (s.setU n u).memLinksOut = s.memLinksOut := rfl
@[simp] theorem State.setU_masks (s : State) (n : Nat) (u : UnitSt) : (s.setU n u).masks = s.masks := rfl
@[simp] theorem State.setU_hopBufs (s : State) (n : Nat) (u : UnitSt) : (s.setU n u).hopBufs = s.hopBufs := rfl
@[simp] theorem State.setU_freeCtr (s : State) (n : Nat) (u : UnitSt) : (s.setU n u).freeCtr = s.freeCtr := rfl

/-! ## updU -/

@[simp] theorem State.updU_status (s : State) (n : Nat) (f : UnitSt → UnitSt) : (s.updU n f).status = s.status := rfl
@[simp] theorem State.updU_events (s : State) (n : Nat) (f : UnitSt → UnitSt) : (s.updU n f).events = s.events := rfl
@[simp] theorem State.updU_arg (s : State) (n : Nat) (f : UnitSt → UnitSt) : (s.updU n f).arg = s.arg := rfl
@[simp] theorem State.updU_ready (s : State) (n : Nat) (f : UnitSt → UnitSt) : (s.updU n f).ready = s.ready := rfl
@[simp] theorem State.updU_schedule (s : State) (n : Nat) (f : UnitSt → UnitSt) : (s.updU n f).schedule = s.schedule := rfl
@[simp] theorem State.updU_curCore (s : State) (n : Nat) (f : UnitSt → UnitSt) : (s.updU n f).curCore = s.curCore := rfl
@[simp] theorem State.updU_curLoc (s : State) (n : Nat) (f : UnitSt → UnitSt) : (s.updU n f).curLoc = s.curLoc := rfl
@[simp] theorem State.updU_curSlot (s : State) (n : Nat) (f : UnitSt → UnitSt) : (s.updU n f).curSlot = s.curSlot := rfl
@[simp] theorem State.updU_curTag (s : State) (n : Nat) (f : UnitSt → UnitSt) : (s.updU n f).curTag = s.curTag := rfl
@[simp] theorem State.updU_cores (s : State) (n : Nat) (f : UnitSt → UnitSt) : (s.updU n f).cores = s.cores := rfl
@[simp] theorem State.updU_cells (s : State) (n : Nat) (f : UnitSt → UnitSt) : (s.updU n f).cells = s.cells := rfl
@[simp] theorem State.updU_engines (s : State) (n : Nat) (f : UnitSt → UnitSt) : (s.updU n f).engines = s.engines := rfl
@[simp] theorem State.updU_engNext (s : State) (n : Nat) (f : UnitSt → UnitSt) : (s.updU n f).engNext = s.engNext := rfl
@[simp] theorem State.updU_groups (s : State) (n : Nat) (f : UnitSt → UnitSt) : (s.updU n f).groups = s.groups := rfl
@[simp] theorem State.updU_memC (s : State) (n : Nat) (f : UnitSt → UnitSt) : (s.updU n f).memC = s.memC := rfl
@[simp] theorem State.updU_memL (s : State) (n : Nat) (f : UnitSt → UnitSt) : (s.updU n f).memL = s.memL := rfl
@[simp] theorem State.updU_memF (s : State) (n : Nat) (f : UnitSt → UnitSt) : (s.updU n f).memF = s.memF := rfl
@[simp] theorem State.updU_memS (s : State) (n : Nat) (f : UnitSt → UnitSt) : (s.updU n f).memS = s.memS := rfl
@[simp] theorem State.updU_memM (s : State) (n : Nat) (f : UnitSt → UnitSt) : (s.updU n f).memM = s.memM := rfl
@[simp] theorem State.updU_memH (s : State) (n : Nat) (f : UnitSt → UnitSt) : (s.updU n f).memH = s.memH := rfl
@[simp] theorem State.updU_marks (s : State) (n : Nat) (f : UnitSt → UnitSt) : (s.updU n f).marks = s.marks := rfl
@[simp] theorem State.updU_owners (s : State) (n : Nat) (f : UnitSt → UnitSt) : (s.updU n f).owners = s.owners := rfl
@[simp] theorem State.updU_pads (s : State) (n : Nat) (f : UnitSt → UnitSt) : (s.updU n f).pads = s.pads := rfl
@[simp] theorem State.updU_padNext (s : State) (n : Nat) (f : UnitSt → UnitSt) : (s.updU n f).padNext = s.padNext := rfl
@[simp] theorem State.updU_ctxs (s : State) (n : Nat) (f : UnitSt → UnitSt) : (s.updU n f).ctxs = s.ctxs := rfl
@[simp] theorem State.updU_handles (s : State) (n : Nat) (f : UnitSt → UnitSt) : (s.updU n f).handles = s.handles := rfl
@[simp] theorem State.updU_handleNext (s : State) (n : Nat) (f : UnitSt → UnitSt) : (s.updU n f).handleNext = s.handleNext := rfl
@[simp] theorem State.updU_queues (s : State) (n : Nat) (f : UnitSt → UnitSt) : (s.updU n f).queues = s.queues := rfl
@[simp] theorem State.updU_selections (s : State) (n : Nat) (f : UnitSt → UnitSt) : (s.updU n f).selections = s.selections := rfl
@[simp] theorem State.updU_prgs (s : State) (n : Nat) (f : UnitSt → UnitSt) : (s.updU n f).prgs = s.prgs := rfl
@[simp] theorem State.updU_prgNext (s : State) (n : Nat) (f : UnitSt → UnitSt) : (s.updU n f).prgNext = s.prgNext := rfl
@[simp] theorem State.updU_ats (s : State) (n : Nat) (f : UnitSt → UnitSt) : (s.updU n f).ats = s.ats := rfl
@[simp] theorem State.updU_evicted (s : State) (n : Nat) (f : UnitSt → UnitSt) : (s.updU n f).evicted = s.evicted := rfl
@[simp] theorem State.updU_migrations (s : State) (n : Nat) (f : UnitSt → UnitSt) : (s.updU n f).migrations = s.migrations := rfl
@[simp] theorem State.updU_links (s : State) (n : Nat) (f : UnitSt → UnitSt) : (s.updU n f).links = s.links := rfl
@[simp] theorem State.updU_retired (s : State) (n : Nat) (f : UnitSt → UnitSt) : (s.updU n f).retired = s.retired := rfl
@[simp] theorem State.updU_bmcRetired (s : State) (n : Nat) (f : UnitSt → UnitSt) : (s.updU n f).bmcRetired = s.bmcRetired := rfl
@[simp] theorem State.updU_tests (s : State) (n : Nat) (f : UnitSt → UnitSt) : (s.updU n f).tests = s.tests := rfl
@[simp] theorem State.updU_fw (s : State) (n : Nat) (f : UnitSt → UnitSt) : (s.updU n f).fw = s.fw := rfl
@[simp] theorem State.updU_fwSlot (s : State) (n : Nat) (f : UnitSt → UnitSt) : (s.updU n f).fwSlot = s.fwSlot := rfl
@[simp] theorem State.updU_bmcSlot (s : State) (n : Nat) (f : UnitSt → UnitSt) : (s.updU n f).bmcSlot = s.bmcSlot := rfl
@[simp] theorem State.updU_fuseMinSvn (s : State) (n : Nat) (f : UnitSt → UnitSt) : (s.updU n f).fuseMinSvn = s.fuseMinSvn := rfl
@[simp] theorem State.updU_update (s : State) (n : Nat) (f : UnitSt → UnitSt) : (s.updU n f).update = s.update := rfl
@[simp] theorem State.updU_mailbox (s : State) (n : Nat) (f : UnitSt → UnitSt) : (s.updU n f).mailbox = s.mailbox := rfl
@[simp] theorem State.updU_spdm (s : State) (n : Nat) (f : UnitSt → UnitSt) : (s.updU n f).spdm = s.spdm := rfl
@[simp] theorem State.updU_config (s : State) (n : Nat) (f : UnitSt → UnitSt) : (s.updU n f).config = s.config := rfl
@[simp] theorem State.updU_clocks (s : State) (n : Nat) (f : UnitSt → UnitSt) : (s.updU n f).clocks = s.clocks := rfl
@[simp] theorem State.updU_breaks (s : State) (n : Nat) (f : UnitSt → UnitSt) : (s.updU n f).breaks = s.breaks := rfl
@[simp] theorem State.updU_droverStop (s : State) (n : Nat) (f : UnitSt → UnitSt) : (s.updU n f).droverStop = s.droverStop := rfl
@[simp] theorem State.updU_reads (s : State) (n : Nat) (f : UnitSt → UnitSt) : (s.updU n f).reads = s.reads := rfl
@[simp] theorem State.updU_corrected (s : State) (n : Nat) (f : UnitSt → UnitSt) : (s.updU n f).corrected = s.corrected := rfl
@[simp] theorem State.updU_sigWriters (s : State) (n : Nat) (f : UnitSt → UnitSt) : (s.updU n f).sigWriters = s.sigWriters := rfl
@[simp] theorem State.updU_placed (s : State) (n : Nat) (f : UnitSt → UnitSt) : (s.updU n f).placed = s.placed := rfl
@[simp] theorem State.updU_memLinksOut (s : State) (n : Nat) (f : UnitSt → UnitSt) : (s.updU n f).memLinksOut = s.memLinksOut := rfl
@[simp] theorem State.updU_masks (s : State) (n : Nat) (f : UnitSt → UnitSt) : (s.updU n f).masks = s.masks := rfl
@[simp] theorem State.updU_hopBufs (s : State) (n : Nat) (f : UnitSt → UnitSt) : (s.updU n f).hopBufs = s.hopBufs := rfl
@[simp] theorem State.updU_freeCtr (s : State) (n : Nat) (f : UnitSt → UnitSt) : (s.updU n f).freeCtr = s.freeCtr := rfl

/-! ## setPad -/

@[simp] theorem State.setPad_status (s : State) (p : Nat) (x : Pad) : (s.setPad p x).status = s.status := rfl
@[simp] theorem State.setPad_events (s : State) (p : Nat) (x : Pad) : (s.setPad p x).events = s.events := rfl
@[simp] theorem State.setPad_arg (s : State) (p : Nat) (x : Pad) : (s.setPad p x).arg = s.arg := rfl
@[simp] theorem State.setPad_ready (s : State) (p : Nat) (x : Pad) : (s.setPad p x).ready = s.ready := rfl
@[simp] theorem State.setPad_schedule (s : State) (p : Nat) (x : Pad) : (s.setPad p x).schedule = s.schedule := rfl
@[simp] theorem State.setPad_curCore (s : State) (p : Nat) (x : Pad) : (s.setPad p x).curCore = s.curCore := rfl
@[simp] theorem State.setPad_curLoc (s : State) (p : Nat) (x : Pad) : (s.setPad p x).curLoc = s.curLoc := rfl
@[simp] theorem State.setPad_curSlot (s : State) (p : Nat) (x : Pad) : (s.setPad p x).curSlot = s.curSlot := rfl
@[simp] theorem State.setPad_curTag (s : State) (p : Nat) (x : Pad) : (s.setPad p x).curTag = s.curTag := rfl
@[simp] theorem State.setPad_cores (s : State) (p : Nat) (x : Pad) : (s.setPad p x).cores = s.cores := rfl
@[simp] theorem State.setPad_units (s : State) (p : Nat) (x : Pad) : (s.setPad p x).units = s.units := rfl
@[simp] theorem State.setPad_cells (s : State) (p : Nat) (x : Pad) : (s.setPad p x).cells = s.cells := rfl
@[simp] theorem State.setPad_engines (s : State) (p : Nat) (x : Pad) : (s.setPad p x).engines = s.engines := rfl
@[simp] theorem State.setPad_engNext (s : State) (p : Nat) (x : Pad) : (s.setPad p x).engNext = s.engNext := rfl
@[simp] theorem State.setPad_groups (s : State) (p : Nat) (x : Pad) : (s.setPad p x).groups = s.groups := rfl
@[simp] theorem State.setPad_memC (s : State) (p : Nat) (x : Pad) : (s.setPad p x).memC = s.memC := rfl
@[simp] theorem State.setPad_memL (s : State) (p : Nat) (x : Pad) : (s.setPad p x).memL = s.memL := rfl
@[simp] theorem State.setPad_memF (s : State) (p : Nat) (x : Pad) : (s.setPad p x).memF = s.memF := rfl
@[simp] theorem State.setPad_memS (s : State) (p : Nat) (x : Pad) : (s.setPad p x).memS = s.memS := rfl
@[simp] theorem State.setPad_memM (s : State) (p : Nat) (x : Pad) : (s.setPad p x).memM = s.memM := rfl
@[simp] theorem State.setPad_memH (s : State) (p : Nat) (x : Pad) : (s.setPad p x).memH = s.memH := rfl
@[simp] theorem State.setPad_marks (s : State) (p : Nat) (x : Pad) : (s.setPad p x).marks = s.marks := rfl
@[simp] theorem State.setPad_owners (s : State) (p : Nat) (x : Pad) : (s.setPad p x).owners = s.owners := rfl
@[simp] theorem State.setPad_padNext (s : State) (p : Nat) (x : Pad) : (s.setPad p x).padNext = s.padNext := rfl
@[simp] theorem State.setPad_ctxs (s : State) (p : Nat) (x : Pad) : (s.setPad p x).ctxs = s.ctxs := rfl
@[simp] theorem State.setPad_handles (s : State) (p : Nat) (x : Pad) : (s.setPad p x).handles = s.handles := rfl
@[simp] theorem State.setPad_handleNext (s : State) (p : Nat) (x : Pad) : (s.setPad p x).handleNext = s.handleNext := rfl
@[simp] theorem State.setPad_queues (s : State) (p : Nat) (x : Pad) : (s.setPad p x).queues = s.queues := rfl
@[simp] theorem State.setPad_selections (s : State) (p : Nat) (x : Pad) : (s.setPad p x).selections = s.selections := rfl
@[simp] theorem State.setPad_prgs (s : State) (p : Nat) (x : Pad) : (s.setPad p x).prgs = s.prgs := rfl
@[simp] theorem State.setPad_prgNext (s : State) (p : Nat) (x : Pad) : (s.setPad p x).prgNext = s.prgNext := rfl
@[simp] theorem State.setPad_ats (s : State) (p : Nat) (x : Pad) : (s.setPad p x).ats = s.ats := rfl
@[simp] theorem State.setPad_evicted (s : State) (p : Nat) (x : Pad) : (s.setPad p x).evicted = s.evicted := rfl
@[simp] theorem State.setPad_migrations (s : State) (p : Nat) (x : Pad) : (s.setPad p x).migrations = s.migrations := rfl
@[simp] theorem State.setPad_links (s : State) (p : Nat) (x : Pad) : (s.setPad p x).links = s.links := rfl
@[simp] theorem State.setPad_retired (s : State) (p : Nat) (x : Pad) : (s.setPad p x).retired = s.retired := rfl
@[simp] theorem State.setPad_bmcRetired (s : State) (p : Nat) (x : Pad) : (s.setPad p x).bmcRetired = s.bmcRetired := rfl
@[simp] theorem State.setPad_tests (s : State) (p : Nat) (x : Pad) : (s.setPad p x).tests = s.tests := rfl
@[simp] theorem State.setPad_fw (s : State) (p : Nat) (x : Pad) : (s.setPad p x).fw = s.fw := rfl
@[simp] theorem State.setPad_fwSlot (s : State) (p : Nat) (x : Pad) : (s.setPad p x).fwSlot = s.fwSlot := rfl
@[simp] theorem State.setPad_bmcSlot (s : State) (p : Nat) (x : Pad) : (s.setPad p x).bmcSlot = s.bmcSlot := rfl
@[simp] theorem State.setPad_fuseMinSvn (s : State) (p : Nat) (x : Pad) : (s.setPad p x).fuseMinSvn = s.fuseMinSvn := rfl
@[simp] theorem State.setPad_update (s : State) (p : Nat) (x : Pad) : (s.setPad p x).update = s.update := rfl
@[simp] theorem State.setPad_mailbox (s : State) (p : Nat) (x : Pad) : (s.setPad p x).mailbox = s.mailbox := rfl
@[simp] theorem State.setPad_spdm (s : State) (p : Nat) (x : Pad) : (s.setPad p x).spdm = s.spdm := rfl
@[simp] theorem State.setPad_config (s : State) (p : Nat) (x : Pad) : (s.setPad p x).config = s.config := rfl
@[simp] theorem State.setPad_clocks (s : State) (p : Nat) (x : Pad) : (s.setPad p x).clocks = s.clocks := rfl
@[simp] theorem State.setPad_breaks (s : State) (p : Nat) (x : Pad) : (s.setPad p x).breaks = s.breaks := rfl
@[simp] theorem State.setPad_droverStop (s : State) (p : Nat) (x : Pad) : (s.setPad p x).droverStop = s.droverStop := rfl
@[simp] theorem State.setPad_reads (s : State) (p : Nat) (x : Pad) : (s.setPad p x).reads = s.reads := rfl
@[simp] theorem State.setPad_corrected (s : State) (p : Nat) (x : Pad) : (s.setPad p x).corrected = s.corrected := rfl
@[simp] theorem State.setPad_sigWriters (s : State) (p : Nat) (x : Pad) : (s.setPad p x).sigWriters = s.sigWriters := rfl
@[simp] theorem State.setPad_placed (s : State) (p : Nat) (x : Pad) : (s.setPad p x).placed = s.placed := rfl
@[simp] theorem State.setPad_memLinksOut (s : State) (p : Nat) (x : Pad) : (s.setPad p x).memLinksOut = s.memLinksOut := rfl
@[simp] theorem State.setPad_masks (s : State) (p : Nat) (x : Pad) : (s.setPad p x).masks = s.masks := rfl
@[simp] theorem State.setPad_hopBufs (s : State) (p : Nat) (x : Pad) : (s.setPad p x).hopBufs = s.hopBufs := rfl
@[simp] theorem State.setPad_freeCtr (s : State) (p : Nat) (x : Pad) : (s.setPad p x).freeCtr = s.freeCtr := rfl

/-! ## setCell -/

@[simp] theorem State.setCell_status (s : State) (c : Nat) (x : CellSt) : (s.setCell c x).status = s.status := rfl
@[simp] theorem State.setCell_events (s : State) (c : Nat) (x : CellSt) : (s.setCell c x).events = s.events := rfl
@[simp] theorem State.setCell_arg (s : State) (c : Nat) (x : CellSt) : (s.setCell c x).arg = s.arg := rfl
@[simp] theorem State.setCell_ready (s : State) (c : Nat) (x : CellSt) : (s.setCell c x).ready = s.ready := rfl
@[simp] theorem State.setCell_schedule (s : State) (c : Nat) (x : CellSt) : (s.setCell c x).schedule = s.schedule := rfl
@[simp] theorem State.setCell_curCore (s : State) (c : Nat) (x : CellSt) : (s.setCell c x).curCore = s.curCore := rfl
@[simp] theorem State.setCell_curLoc (s : State) (c : Nat) (x : CellSt) : (s.setCell c x).curLoc = s.curLoc := rfl
@[simp] theorem State.setCell_curSlot (s : State) (c : Nat) (x : CellSt) : (s.setCell c x).curSlot = s.curSlot := rfl
@[simp] theorem State.setCell_curTag (s : State) (c : Nat) (x : CellSt) : (s.setCell c x).curTag = s.curTag := rfl
@[simp] theorem State.setCell_cores (s : State) (c : Nat) (x : CellSt) : (s.setCell c x).cores = s.cores := rfl
@[simp] theorem State.setCell_units (s : State) (c : Nat) (x : CellSt) : (s.setCell c x).units = s.units := rfl
@[simp] theorem State.setCell_engines (s : State) (c : Nat) (x : CellSt) : (s.setCell c x).engines = s.engines := rfl
@[simp] theorem State.setCell_engNext (s : State) (c : Nat) (x : CellSt) : (s.setCell c x).engNext = s.engNext := rfl
@[simp] theorem State.setCell_groups (s : State) (c : Nat) (x : CellSt) : (s.setCell c x).groups = s.groups := rfl
@[simp] theorem State.setCell_memC (s : State) (c : Nat) (x : CellSt) : (s.setCell c x).memC = s.memC := rfl
@[simp] theorem State.setCell_memL (s : State) (c : Nat) (x : CellSt) : (s.setCell c x).memL = s.memL := rfl
@[simp] theorem State.setCell_memF (s : State) (c : Nat) (x : CellSt) : (s.setCell c x).memF = s.memF := rfl
@[simp] theorem State.setCell_memS (s : State) (c : Nat) (x : CellSt) : (s.setCell c x).memS = s.memS := rfl
@[simp] theorem State.setCell_memM (s : State) (c : Nat) (x : CellSt) : (s.setCell c x).memM = s.memM := rfl
@[simp] theorem State.setCell_memH (s : State) (c : Nat) (x : CellSt) : (s.setCell c x).memH = s.memH := rfl
@[simp] theorem State.setCell_marks (s : State) (c : Nat) (x : CellSt) : (s.setCell c x).marks = s.marks := rfl
@[simp] theorem State.setCell_owners (s : State) (c : Nat) (x : CellSt) : (s.setCell c x).owners = s.owners := rfl
@[simp] theorem State.setCell_pads (s : State) (c : Nat) (x : CellSt) : (s.setCell c x).pads = s.pads := rfl
@[simp] theorem State.setCell_padNext (s : State) (c : Nat) (x : CellSt) : (s.setCell c x).padNext = s.padNext := rfl
@[simp] theorem State.setCell_ctxs (s : State) (c : Nat) (x : CellSt) : (s.setCell c x).ctxs = s.ctxs := rfl
@[simp] theorem State.setCell_handles (s : State) (c : Nat) (x : CellSt) : (s.setCell c x).handles = s.handles := rfl
@[simp] theorem State.setCell_handleNext (s : State) (c : Nat) (x : CellSt) : (s.setCell c x).handleNext = s.handleNext := rfl
@[simp] theorem State.setCell_queues (s : State) (c : Nat) (x : CellSt) : (s.setCell c x).queues = s.queues := rfl
@[simp] theorem State.setCell_selections (s : State) (c : Nat) (x : CellSt) : (s.setCell c x).selections = s.selections := rfl
@[simp] theorem State.setCell_prgs (s : State) (c : Nat) (x : CellSt) : (s.setCell c x).prgs = s.prgs := rfl
@[simp] theorem State.setCell_prgNext (s : State) (c : Nat) (x : CellSt) : (s.setCell c x).prgNext = s.prgNext := rfl
@[simp] theorem State.setCell_ats (s : State) (c : Nat) (x : CellSt) : (s.setCell c x).ats = s.ats := rfl
@[simp] theorem State.setCell_evicted (s : State) (c : Nat) (x : CellSt) : (s.setCell c x).evicted = s.evicted := rfl
@[simp] theorem State.setCell_migrations (s : State) (c : Nat) (x : CellSt) : (s.setCell c x).migrations = s.migrations := rfl
@[simp] theorem State.setCell_links (s : State) (c : Nat) (x : CellSt) : (s.setCell c x).links = s.links := rfl
@[simp] theorem State.setCell_retired (s : State) (c : Nat) (x : CellSt) : (s.setCell c x).retired = s.retired := rfl
@[simp] theorem State.setCell_bmcRetired (s : State) (c : Nat) (x : CellSt) : (s.setCell c x).bmcRetired = s.bmcRetired := rfl
@[simp] theorem State.setCell_tests (s : State) (c : Nat) (x : CellSt) : (s.setCell c x).tests = s.tests := rfl
@[simp] theorem State.setCell_fw (s : State) (c : Nat) (x : CellSt) : (s.setCell c x).fw = s.fw := rfl
@[simp] theorem State.setCell_fwSlot (s : State) (c : Nat) (x : CellSt) : (s.setCell c x).fwSlot = s.fwSlot := rfl
@[simp] theorem State.setCell_bmcSlot (s : State) (c : Nat) (x : CellSt) : (s.setCell c x).bmcSlot = s.bmcSlot := rfl
@[simp] theorem State.setCell_fuseMinSvn (s : State) (c : Nat) (x : CellSt) : (s.setCell c x).fuseMinSvn = s.fuseMinSvn := rfl
@[simp] theorem State.setCell_update (s : State) (c : Nat) (x : CellSt) : (s.setCell c x).update = s.update := rfl
@[simp] theorem State.setCell_mailbox (s : State) (c : Nat) (x : CellSt) : (s.setCell c x).mailbox = s.mailbox := rfl
@[simp] theorem State.setCell_spdm (s : State) (c : Nat) (x : CellSt) : (s.setCell c x).spdm = s.spdm := rfl
@[simp] theorem State.setCell_config (s : State) (c : Nat) (x : CellSt) : (s.setCell c x).config = s.config := rfl
@[simp] theorem State.setCell_clocks (s : State) (c : Nat) (x : CellSt) : (s.setCell c x).clocks = s.clocks := rfl
@[simp] theorem State.setCell_breaks (s : State) (c : Nat) (x : CellSt) : (s.setCell c x).breaks = s.breaks := rfl
@[simp] theorem State.setCell_droverStop (s : State) (c : Nat) (x : CellSt) : (s.setCell c x).droverStop = s.droverStop := rfl
@[simp] theorem State.setCell_reads (s : State) (c : Nat) (x : CellSt) : (s.setCell c x).reads = s.reads := rfl
@[simp] theorem State.setCell_corrected (s : State) (c : Nat) (x : CellSt) : (s.setCell c x).corrected = s.corrected := rfl
@[simp] theorem State.setCell_sigWriters (s : State) (c : Nat) (x : CellSt) : (s.setCell c x).sigWriters = s.sigWriters := rfl
@[simp] theorem State.setCell_placed (s : State) (c : Nat) (x : CellSt) : (s.setCell c x).placed = s.placed := rfl
@[simp] theorem State.setCell_memLinksOut (s : State) (c : Nat) (x : CellSt) : (s.setCell c x).memLinksOut = s.memLinksOut := rfl
@[simp] theorem State.setCell_masks (s : State) (c : Nat) (x : CellSt) : (s.setCell c x).masks = s.masks := rfl
@[simp] theorem State.setCell_hopBufs (s : State) (c : Nat) (x : CellSt) : (s.setCell c x).hopBufs = s.hopBufs := rfl
@[simp] theorem State.setCell_freeCtr (s : State) (c : Nat) (x : CellSt) : (s.setCell c x).freeCtr = s.freeCtr := rfl

/-! ## post -/

@[simp] theorem State.post_status (s : State) (i : Instr) (a : Arg) : (s.post i a).status = s.status := rfl
@[simp] theorem State.post_arg (s : State) (i : Instr) (a : Arg) : (s.post i a).arg = s.arg := rfl
@[simp] theorem State.post_ready (s : State) (i : Instr) (a : Arg) : (s.post i a).ready = s.ready := rfl
@[simp] theorem State.post_schedule (s : State) (i : Instr) (a : Arg) : (s.post i a).schedule = s.schedule := rfl
@[simp] theorem State.post_curCore (s : State) (i : Instr) (a : Arg) : (s.post i a).curCore = s.curCore := rfl
@[simp] theorem State.post_curLoc (s : State) (i : Instr) (a : Arg) : (s.post i a).curLoc = s.curLoc := rfl
@[simp] theorem State.post_curSlot (s : State) (i : Instr) (a : Arg) : (s.post i a).curSlot = s.curSlot := rfl
@[simp] theorem State.post_curTag (s : State) (i : Instr) (a : Arg) : (s.post i a).curTag = s.curTag := rfl
@[simp] theorem State.post_cores (s : State) (i : Instr) (a : Arg) : (s.post i a).cores = s.cores := rfl
@[simp] theorem State.post_units (s : State) (i : Instr) (a : Arg) : (s.post i a).units = s.units := rfl
@[simp] theorem State.post_cells (s : State) (i : Instr) (a : Arg) : (s.post i a).cells = s.cells := rfl
@[simp] theorem State.post_engines (s : State) (i : Instr) (a : Arg) : (s.post i a).engines = s.engines := rfl
@[simp] theorem State.post_engNext (s : State) (i : Instr) (a : Arg) : (s.post i a).engNext = s.engNext := rfl
@[simp] theorem State.post_groups (s : State) (i : Instr) (a : Arg) : (s.post i a).groups = s.groups := rfl
@[simp] theorem State.post_memC (s : State) (i : Instr) (a : Arg) : (s.post i a).memC = s.memC := rfl
@[simp] theorem State.post_memL (s : State) (i : Instr) (a : Arg) : (s.post i a).memL = s.memL := rfl
@[simp] theorem State.post_memF (s : State) (i : Instr) (a : Arg) : (s.post i a).memF = s.memF := rfl
@[simp] theorem State.post_memS (s : State) (i : Instr) (a : Arg) : (s.post i a).memS = s.memS := rfl
@[simp] theorem State.post_memM (s : State) (i : Instr) (a : Arg) : (s.post i a).memM = s.memM := rfl
@[simp] theorem State.post_memH (s : State) (i : Instr) (a : Arg) : (s.post i a).memH = s.memH := rfl
@[simp] theorem State.post_marks (s : State) (i : Instr) (a : Arg) : (s.post i a).marks = s.marks := rfl
@[simp] theorem State.post_owners (s : State) (i : Instr) (a : Arg) : (s.post i a).owners = s.owners := rfl
@[simp] theorem State.post_pads (s : State) (i : Instr) (a : Arg) : (s.post i a).pads = s.pads := rfl
@[simp] theorem State.post_padNext (s : State) (i : Instr) (a : Arg) : (s.post i a).padNext = s.padNext := rfl
@[simp] theorem State.post_ctxs (s : State) (i : Instr) (a : Arg) : (s.post i a).ctxs = s.ctxs := rfl
@[simp] theorem State.post_handles (s : State) (i : Instr) (a : Arg) : (s.post i a).handles = s.handles := rfl
@[simp] theorem State.post_handleNext (s : State) (i : Instr) (a : Arg) : (s.post i a).handleNext = s.handleNext := rfl
@[simp] theorem State.post_queues (s : State) (i : Instr) (a : Arg) : (s.post i a).queues = s.queues := rfl
@[simp] theorem State.post_selections (s : State) (i : Instr) (a : Arg) : (s.post i a).selections = s.selections := rfl
@[simp] theorem State.post_prgs (s : State) (i : Instr) (a : Arg) : (s.post i a).prgs = s.prgs := rfl
@[simp] theorem State.post_prgNext (s : State) (i : Instr) (a : Arg) : (s.post i a).prgNext = s.prgNext := rfl
@[simp] theorem State.post_ats (s : State) (i : Instr) (a : Arg) : (s.post i a).ats = s.ats := rfl
@[simp] theorem State.post_evicted (s : State) (i : Instr) (a : Arg) : (s.post i a).evicted = s.evicted := rfl
@[simp] theorem State.post_migrations (s : State) (i : Instr) (a : Arg) : (s.post i a).migrations = s.migrations := rfl
@[simp] theorem State.post_links (s : State) (i : Instr) (a : Arg) : (s.post i a).links = s.links := rfl
@[simp] theorem State.post_retired (s : State) (i : Instr) (a : Arg) : (s.post i a).retired = s.retired := rfl
@[simp] theorem State.post_bmcRetired (s : State) (i : Instr) (a : Arg) : (s.post i a).bmcRetired = s.bmcRetired := rfl
@[simp] theorem State.post_tests (s : State) (i : Instr) (a : Arg) : (s.post i a).tests = s.tests := rfl
@[simp] theorem State.post_fw (s : State) (i : Instr) (a : Arg) : (s.post i a).fw = s.fw := rfl
@[simp] theorem State.post_fwSlot (s : State) (i : Instr) (a : Arg) : (s.post i a).fwSlot = s.fwSlot := rfl
@[simp] theorem State.post_bmcSlot (s : State) (i : Instr) (a : Arg) : (s.post i a).bmcSlot = s.bmcSlot := rfl
@[simp] theorem State.post_fuseMinSvn (s : State) (i : Instr) (a : Arg) : (s.post i a).fuseMinSvn = s.fuseMinSvn := rfl
@[simp] theorem State.post_update (s : State) (i : Instr) (a : Arg) : (s.post i a).update = s.update := rfl
@[simp] theorem State.post_mailbox (s : State) (i : Instr) (a : Arg) : (s.post i a).mailbox = s.mailbox := rfl
@[simp] theorem State.post_spdm (s : State) (i : Instr) (a : Arg) : (s.post i a).spdm = s.spdm := rfl
@[simp] theorem State.post_config (s : State) (i : Instr) (a : Arg) : (s.post i a).config = s.config := rfl
@[simp] theorem State.post_clocks (s : State) (i : Instr) (a : Arg) : (s.post i a).clocks = s.clocks := rfl
@[simp] theorem State.post_breaks (s : State) (i : Instr) (a : Arg) : (s.post i a).breaks = s.breaks := rfl
@[simp] theorem State.post_droverStop (s : State) (i : Instr) (a : Arg) : (s.post i a).droverStop = s.droverStop := rfl
@[simp] theorem State.post_reads (s : State) (i : Instr) (a : Arg) : (s.post i a).reads = s.reads := rfl
@[simp] theorem State.post_corrected (s : State) (i : Instr) (a : Arg) : (s.post i a).corrected = s.corrected := rfl
@[simp] theorem State.post_sigWriters (s : State) (i : Instr) (a : Arg) : (s.post i a).sigWriters = s.sigWriters := rfl
@[simp] theorem State.post_placed (s : State) (i : Instr) (a : Arg) : (s.post i a).placed = s.placed := rfl
@[simp] theorem State.post_memLinksOut (s : State) (i : Instr) (a : Arg) : (s.post i a).memLinksOut = s.memLinksOut := rfl
@[simp] theorem State.post_masks (s : State) (i : Instr) (a : Arg) : (s.post i a).masks = s.masks := rfl
@[simp] theorem State.post_hopBufs (s : State) (i : Instr) (a : Arg) : (s.post i a).hopBufs = s.hopBufs := rfl
@[simp] theorem State.post_freeCtr (s : State) (i : Instr) (a : Arg) : (s.post i a).freeCtr = s.freeCtr := rfl

/-! ## postAll -/

@[simp] theorem State.postAll_status (s : State) (l : List Event) : (s.postAll l).status = s.status := rfl
@[simp] theorem State.postAll_arg (s : State) (l : List Event) : (s.postAll l).arg = s.arg := rfl
@[simp] theorem State.postAll_ready (s : State) (l : List Event) : (s.postAll l).ready = s.ready := rfl
@[simp] theorem State.postAll_schedule (s : State) (l : List Event) : (s.postAll l).schedule = s.schedule := rfl
@[simp] theorem State.postAll_curCore (s : State) (l : List Event) : (s.postAll l).curCore = s.curCore := rfl
@[simp] theorem State.postAll_curLoc (s : State) (l : List Event) : (s.postAll l).curLoc = s.curLoc := rfl
@[simp] theorem State.postAll_curSlot (s : State) (l : List Event) : (s.postAll l).curSlot = s.curSlot := rfl
@[simp] theorem State.postAll_curTag (s : State) (l : List Event) : (s.postAll l).curTag = s.curTag := rfl
@[simp] theorem State.postAll_cores (s : State) (l : List Event) : (s.postAll l).cores = s.cores := rfl
@[simp] theorem State.postAll_units (s : State) (l : List Event) : (s.postAll l).units = s.units := rfl
@[simp] theorem State.postAll_cells (s : State) (l : List Event) : (s.postAll l).cells = s.cells := rfl
@[simp] theorem State.postAll_engines (s : State) (l : List Event) : (s.postAll l).engines = s.engines := rfl
@[simp] theorem State.postAll_engNext (s : State) (l : List Event) : (s.postAll l).engNext = s.engNext := rfl
@[simp] theorem State.postAll_groups (s : State) (l : List Event) : (s.postAll l).groups = s.groups := rfl
@[simp] theorem State.postAll_memC (s : State) (l : List Event) : (s.postAll l).memC = s.memC := rfl
@[simp] theorem State.postAll_memL (s : State) (l : List Event) : (s.postAll l).memL = s.memL := rfl
@[simp] theorem State.postAll_memF (s : State) (l : List Event) : (s.postAll l).memF = s.memF := rfl
@[simp] theorem State.postAll_memS (s : State) (l : List Event) : (s.postAll l).memS = s.memS := rfl
@[simp] theorem State.postAll_memM (s : State) (l : List Event) : (s.postAll l).memM = s.memM := rfl
@[simp] theorem State.postAll_memH (s : State) (l : List Event) : (s.postAll l).memH = s.memH := rfl
@[simp] theorem State.postAll_marks (s : State) (l : List Event) : (s.postAll l).marks = s.marks := rfl
@[simp] theorem State.postAll_owners (s : State) (l : List Event) : (s.postAll l).owners = s.owners := rfl
@[simp] theorem State.postAll_pads (s : State) (l : List Event) : (s.postAll l).pads = s.pads := rfl
@[simp] theorem State.postAll_padNext (s : State) (l : List Event) : (s.postAll l).padNext = s.padNext := rfl
@[simp] theorem State.postAll_ctxs (s : State) (l : List Event) : (s.postAll l).ctxs = s.ctxs := rfl
@[simp] theorem State.postAll_handles (s : State) (l : List Event) : (s.postAll l).handles = s.handles := rfl
@[simp] theorem State.postAll_handleNext (s : State) (l : List Event) : (s.postAll l).handleNext = s.handleNext := rfl
@[simp] theorem State.postAll_queues (s : State) (l : List Event) : (s.postAll l).queues = s.queues := rfl
@[simp] theorem State.postAll_selections (s : State) (l : List Event) : (s.postAll l).selections = s.selections := rfl
@[simp] theorem State.postAll_prgs (s : State) (l : List Event) : (s.postAll l).prgs = s.prgs := rfl
@[simp] theorem State.postAll_prgNext (s : State) (l : List Event) : (s.postAll l).prgNext = s.prgNext := rfl
@[simp] theorem State.postAll_ats (s : State) (l : List Event) : (s.postAll l).ats = s.ats := rfl
@[simp] theorem State.postAll_evicted (s : State) (l : List Event) : (s.postAll l).evicted = s.evicted := rfl
@[simp] theorem State.postAll_migrations (s : State) (l : List Event) : (s.postAll l).migrations = s.migrations := rfl
@[simp] theorem State.postAll_links (s : State) (l : List Event) : (s.postAll l).links = s.links := rfl
@[simp] theorem State.postAll_retired (s : State) (l : List Event) : (s.postAll l).retired = s.retired := rfl
@[simp] theorem State.postAll_bmcRetired (s : State) (l : List Event) : (s.postAll l).bmcRetired = s.bmcRetired := rfl
@[simp] theorem State.postAll_tests (s : State) (l : List Event) : (s.postAll l).tests = s.tests := rfl
@[simp] theorem State.postAll_fw (s : State) (l : List Event) : (s.postAll l).fw = s.fw := rfl
@[simp] theorem State.postAll_fwSlot (s : State) (l : List Event) : (s.postAll l).fwSlot = s.fwSlot := rfl
@[simp] theorem State.postAll_bmcSlot (s : State) (l : List Event) : (s.postAll l).bmcSlot = s.bmcSlot := rfl
@[simp] theorem State.postAll_fuseMinSvn (s : State) (l : List Event) : (s.postAll l).fuseMinSvn = s.fuseMinSvn := rfl
@[simp] theorem State.postAll_update (s : State) (l : List Event) : (s.postAll l).update = s.update := rfl
@[simp] theorem State.postAll_mailbox (s : State) (l : List Event) : (s.postAll l).mailbox = s.mailbox := rfl
@[simp] theorem State.postAll_spdm (s : State) (l : List Event) : (s.postAll l).spdm = s.spdm := rfl
@[simp] theorem State.postAll_config (s : State) (l : List Event) : (s.postAll l).config = s.config := rfl
@[simp] theorem State.postAll_clocks (s : State) (l : List Event) : (s.postAll l).clocks = s.clocks := rfl
@[simp] theorem State.postAll_breaks (s : State) (l : List Event) : (s.postAll l).breaks = s.breaks := rfl
@[simp] theorem State.postAll_droverStop (s : State) (l : List Event) : (s.postAll l).droverStop = s.droverStop := rfl
@[simp] theorem State.postAll_reads (s : State) (l : List Event) : (s.postAll l).reads = s.reads := rfl
@[simp] theorem State.postAll_corrected (s : State) (l : List Event) : (s.postAll l).corrected = s.corrected := rfl
@[simp] theorem State.postAll_sigWriters (s : State) (l : List Event) : (s.postAll l).sigWriters = s.sigWriters := rfl
@[simp] theorem State.postAll_placed (s : State) (l : List Event) : (s.postAll l).placed = s.placed := rfl
@[simp] theorem State.postAll_memLinksOut (s : State) (l : List Event) : (s.postAll l).memLinksOut = s.memLinksOut := rfl
@[simp] theorem State.postAll_masks (s : State) (l : List Event) : (s.postAll l).masks = s.masks := rfl
@[simp] theorem State.postAll_hopBufs (s : State) (l : List Event) : (s.postAll l).hopBufs = s.hopBufs := rfl
@[simp] theorem State.postAll_freeCtr (s : State) (l : List Event) : (s.postAll l).freeCtr = s.freeCtr := rfl

/-! ## raise -/

@[simp] theorem State.raise_status (s : State) (p : Nat) (f : FaultRec) : (s.raise p f).status = s.status := rfl
@[simp] theorem State.raise_arg (s : State) (p : Nat) (f : FaultRec) : (s.raise p f).arg = s.arg := rfl
@[simp] theorem State.raise_ready (s : State) (p : Nat) (f : FaultRec) : (s.raise p f).ready = s.ready := rfl
@[simp] theorem State.raise_schedule (s : State) (p : Nat) (f : FaultRec) : (s.raise p f).schedule = s.schedule := rfl
@[simp] theorem State.raise_curCore (s : State) (p : Nat) (f : FaultRec) : (s.raise p f).curCore = s.curCore := rfl
@[simp] theorem State.raise_curLoc (s : State) (p : Nat) (f : FaultRec) : (s.raise p f).curLoc = s.curLoc := rfl
@[simp] theorem State.raise_curSlot (s : State) (p : Nat) (f : FaultRec) : (s.raise p f).curSlot = s.curSlot := rfl
@[simp] theorem State.raise_curTag (s : State) (p : Nat) (f : FaultRec) : (s.raise p f).curTag = s.curTag := rfl
@[simp] theorem State.raise_cores (s : State) (p : Nat) (f : FaultRec) : (s.raise p f).cores = s.cores := rfl
@[simp] theorem State.raise_units (s : State) (p : Nat) (f : FaultRec) : (s.raise p f).units = s.units := rfl
@[simp] theorem State.raise_cells (s : State) (p : Nat) (f : FaultRec) : (s.raise p f).cells = s.cells := rfl
@[simp] theorem State.raise_engines (s : State) (p : Nat) (f : FaultRec) : (s.raise p f).engines = s.engines := rfl
@[simp] theorem State.raise_engNext (s : State) (p : Nat) (f : FaultRec) : (s.raise p f).engNext = s.engNext := rfl
@[simp] theorem State.raise_groups (s : State) (p : Nat) (f : FaultRec) : (s.raise p f).groups = s.groups := rfl
@[simp] theorem State.raise_memC (s : State) (p : Nat) (f : FaultRec) : (s.raise p f).memC = s.memC := rfl
@[simp] theorem State.raise_memL (s : State) (p : Nat) (f : FaultRec) : (s.raise p f).memL = s.memL := rfl
@[simp] theorem State.raise_memF (s : State) (p : Nat) (f : FaultRec) : (s.raise p f).memF = s.memF := rfl
@[simp] theorem State.raise_memS (s : State) (p : Nat) (f : FaultRec) : (s.raise p f).memS = s.memS := rfl
@[simp] theorem State.raise_memM (s : State) (p : Nat) (f : FaultRec) : (s.raise p f).memM = s.memM := rfl
@[simp] theorem State.raise_memH (s : State) (p : Nat) (f : FaultRec) : (s.raise p f).memH = s.memH := rfl
@[simp] theorem State.raise_marks (s : State) (p : Nat) (f : FaultRec) : (s.raise p f).marks = s.marks := rfl
@[simp] theorem State.raise_owners (s : State) (p : Nat) (f : FaultRec) : (s.raise p f).owners = s.owners := rfl
@[simp] theorem State.raise_pads (s : State) (p : Nat) (f : FaultRec) : (s.raise p f).pads = s.pads := rfl
@[simp] theorem State.raise_padNext (s : State) (p : Nat) (f : FaultRec) : (s.raise p f).padNext = s.padNext := rfl
@[simp] theorem State.raise_ctxs (s : State) (p : Nat) (f : FaultRec) : (s.raise p f).ctxs = s.ctxs := rfl
@[simp] theorem State.raise_handles (s : State) (p : Nat) (f : FaultRec) : (s.raise p f).handles = s.handles := rfl
@[simp] theorem State.raise_handleNext (s : State) (p : Nat) (f : FaultRec) : (s.raise p f).handleNext = s.handleNext := rfl
@[simp] theorem State.raise_queues (s : State) (p : Nat) (f : FaultRec) : (s.raise p f).queues = s.queues := rfl
@[simp] theorem State.raise_selections (s : State) (p : Nat) (f : FaultRec) : (s.raise p f).selections = s.selections := rfl
@[simp] theorem State.raise_prgs (s : State) (p : Nat) (f : FaultRec) : (s.raise p f).prgs = s.prgs := rfl
@[simp] theorem State.raise_prgNext (s : State) (p : Nat) (f : FaultRec) : (s.raise p f).prgNext = s.prgNext := rfl
@[simp] theorem State.raise_ats (s : State) (p : Nat) (f : FaultRec) : (s.raise p f).ats = s.ats := rfl
@[simp] theorem State.raise_evicted (s : State) (p : Nat) (f : FaultRec) : (s.raise p f).evicted = s.evicted := rfl
@[simp] theorem State.raise_migrations (s : State) (p : Nat) (f : FaultRec) : (s.raise p f).migrations = s.migrations := rfl
@[simp] theorem State.raise_links (s : State) (p : Nat) (f : FaultRec) : (s.raise p f).links = s.links := rfl
@[simp] theorem State.raise_retired (s : State) (p : Nat) (f : FaultRec) : (s.raise p f).retired = s.retired := rfl
@[simp] theorem State.raise_bmcRetired (s : State) (p : Nat) (f : FaultRec) : (s.raise p f).bmcRetired = s.bmcRetired := rfl
@[simp] theorem State.raise_tests (s : State) (p : Nat) (f : FaultRec) : (s.raise p f).tests = s.tests := rfl
@[simp] theorem State.raise_fw (s : State) (p : Nat) (f : FaultRec) : (s.raise p f).fw = s.fw := rfl
@[simp] theorem State.raise_fwSlot (s : State) (p : Nat) (f : FaultRec) : (s.raise p f).fwSlot = s.fwSlot := rfl
@[simp] theorem State.raise_bmcSlot (s : State) (p : Nat) (f : FaultRec) : (s.raise p f).bmcSlot = s.bmcSlot := rfl
@[simp] theorem State.raise_fuseMinSvn (s : State) (p : Nat) (f : FaultRec) : (s.raise p f).fuseMinSvn = s.fuseMinSvn := rfl
@[simp] theorem State.raise_update (s : State) (p : Nat) (f : FaultRec) : (s.raise p f).update = s.update := rfl
@[simp] theorem State.raise_mailbox (s : State) (p : Nat) (f : FaultRec) : (s.raise p f).mailbox = s.mailbox := rfl
@[simp] theorem State.raise_spdm (s : State) (p : Nat) (f : FaultRec) : (s.raise p f).spdm = s.spdm := rfl
@[simp] theorem State.raise_config (s : State) (p : Nat) (f : FaultRec) : (s.raise p f).config = s.config := rfl
@[simp] theorem State.raise_clocks (s : State) (p : Nat) (f : FaultRec) : (s.raise p f).clocks = s.clocks := rfl
@[simp] theorem State.raise_breaks (s : State) (p : Nat) (f : FaultRec) : (s.raise p f).breaks = s.breaks := rfl
@[simp] theorem State.raise_droverStop (s : State) (p : Nat) (f : FaultRec) : (s.raise p f).droverStop = s.droverStop := rfl
@[simp] theorem State.raise_reads (s : State) (p : Nat) (f : FaultRec) : (s.raise p f).reads = s.reads := rfl
@[simp] theorem State.raise_corrected (s : State) (p : Nat) (f : FaultRec) : (s.raise p f).corrected = s.corrected := rfl
@[simp] theorem State.raise_sigWriters (s : State) (p : Nat) (f : FaultRec) : (s.raise p f).sigWriters = s.sigWriters := rfl
@[simp] theorem State.raise_placed (s : State) (p : Nat) (f : FaultRec) : (s.raise p f).placed = s.placed := rfl
@[simp] theorem State.raise_memLinksOut (s : State) (p : Nat) (f : FaultRec) : (s.raise p f).memLinksOut = s.memLinksOut := rfl
@[simp] theorem State.raise_masks (s : State) (p : Nat) (f : FaultRec) : (s.raise p f).masks = s.masks := rfl
@[simp] theorem State.raise_hopBufs (s : State) (p : Nat) (f : FaultRec) : (s.raise p f).hopBufs = s.hopBufs := rfl
@[simp] theorem State.raise_freeCtr (s : State) (p : Nat) (f : FaultRec) : (s.raise p f).freeCtr = s.freeCtr := rfl

/-! ## report -/

@[simp] theorem State.report_status (s : State) (r : ErrRep) : (s.report r).status = s.status := rfl
@[simp] theorem State.report_arg (s : State) (r : ErrRep) : (s.report r).arg = s.arg := rfl
@[simp] theorem State.report_ready (s : State) (r : ErrRep) : (s.report r).ready = s.ready := rfl
@[simp] theorem State.report_schedule (s : State) (r : ErrRep) : (s.report r).schedule = s.schedule := rfl
@[simp] theorem State.report_curCore (s : State) (r : ErrRep) : (s.report r).curCore = s.curCore := rfl
@[simp] theorem State.report_curLoc (s : State) (r : ErrRep) : (s.report r).curLoc = s.curLoc := rfl
@[simp] theorem State.report_curSlot (s : State) (r : ErrRep) : (s.report r).curSlot = s.curSlot := rfl
@[simp] theorem State.report_curTag (s : State) (r : ErrRep) : (s.report r).curTag = s.curTag := rfl
@[simp] theorem State.report_cores (s : State) (r : ErrRep) : (s.report r).cores = s.cores := rfl
@[simp] theorem State.report_units (s : State) (r : ErrRep) : (s.report r).units = s.units := rfl
@[simp] theorem State.report_cells (s : State) (r : ErrRep) : (s.report r).cells = s.cells := rfl
@[simp] theorem State.report_engines (s : State) (r : ErrRep) : (s.report r).engines = s.engines := rfl
@[simp] theorem State.report_engNext (s : State) (r : ErrRep) : (s.report r).engNext = s.engNext := rfl
@[simp] theorem State.report_groups (s : State) (r : ErrRep) : (s.report r).groups = s.groups := rfl
@[simp] theorem State.report_memC (s : State) (r : ErrRep) : (s.report r).memC = s.memC := rfl
@[simp] theorem State.report_memL (s : State) (r : ErrRep) : (s.report r).memL = s.memL := rfl
@[simp] theorem State.report_memF (s : State) (r : ErrRep) : (s.report r).memF = s.memF := rfl
@[simp] theorem State.report_memS (s : State) (r : ErrRep) : (s.report r).memS = s.memS := rfl
@[simp] theorem State.report_memM (s : State) (r : ErrRep) : (s.report r).memM = s.memM := rfl
@[simp] theorem State.report_memH (s : State) (r : ErrRep) : (s.report r).memH = s.memH := rfl
@[simp] theorem State.report_marks (s : State) (r : ErrRep) : (s.report r).marks = s.marks := rfl
@[simp] theorem State.report_owners (s : State) (r : ErrRep) : (s.report r).owners = s.owners := rfl
@[simp] theorem State.report_pads (s : State) (r : ErrRep) : (s.report r).pads = s.pads := rfl
@[simp] theorem State.report_padNext (s : State) (r : ErrRep) : (s.report r).padNext = s.padNext := rfl
@[simp] theorem State.report_ctxs (s : State) (r : ErrRep) : (s.report r).ctxs = s.ctxs := rfl
@[simp] theorem State.report_handles (s : State) (r : ErrRep) : (s.report r).handles = s.handles := rfl
@[simp] theorem State.report_handleNext (s : State) (r : ErrRep) : (s.report r).handleNext = s.handleNext := rfl
@[simp] theorem State.report_queues (s : State) (r : ErrRep) : (s.report r).queues = s.queues := rfl
@[simp] theorem State.report_selections (s : State) (r : ErrRep) : (s.report r).selections = s.selections := rfl
@[simp] theorem State.report_prgs (s : State) (r : ErrRep) : (s.report r).prgs = s.prgs := rfl
@[simp] theorem State.report_prgNext (s : State) (r : ErrRep) : (s.report r).prgNext = s.prgNext := rfl
@[simp] theorem State.report_ats (s : State) (r : ErrRep) : (s.report r).ats = s.ats := rfl
@[simp] theorem State.report_evicted (s : State) (r : ErrRep) : (s.report r).evicted = s.evicted := rfl
@[simp] theorem State.report_migrations (s : State) (r : ErrRep) : (s.report r).migrations = s.migrations := rfl
@[simp] theorem State.report_links (s : State) (r : ErrRep) : (s.report r).links = s.links := rfl
@[simp] theorem State.report_retired (s : State) (r : ErrRep) : (s.report r).retired = s.retired := rfl
@[simp] theorem State.report_bmcRetired (s : State) (r : ErrRep) : (s.report r).bmcRetired = s.bmcRetired := rfl
@[simp] theorem State.report_tests (s : State) (r : ErrRep) : (s.report r).tests = s.tests := rfl
@[simp] theorem State.report_fw (s : State) (r : ErrRep) : (s.report r).fw = s.fw := rfl
@[simp] theorem State.report_fwSlot (s : State) (r : ErrRep) : (s.report r).fwSlot = s.fwSlot := rfl
@[simp] theorem State.report_bmcSlot (s : State) (r : ErrRep) : (s.report r).bmcSlot = s.bmcSlot := rfl
@[simp] theorem State.report_fuseMinSvn (s : State) (r : ErrRep) : (s.report r).fuseMinSvn = s.fuseMinSvn := rfl
@[simp] theorem State.report_update (s : State) (r : ErrRep) : (s.report r).update = s.update := rfl
@[simp] theorem State.report_mailbox (s : State) (r : ErrRep) : (s.report r).mailbox = s.mailbox := rfl
@[simp] theorem State.report_spdm (s : State) (r : ErrRep) : (s.report r).spdm = s.spdm := rfl
@[simp] theorem State.report_config (s : State) (r : ErrRep) : (s.report r).config = s.config := rfl
@[simp] theorem State.report_clocks (s : State) (r : ErrRep) : (s.report r).clocks = s.clocks := rfl
@[simp] theorem State.report_breaks (s : State) (r : ErrRep) : (s.report r).breaks = s.breaks := rfl
@[simp] theorem State.report_droverStop (s : State) (r : ErrRep) : (s.report r).droverStop = s.droverStop := rfl
@[simp] theorem State.report_reads (s : State) (r : ErrRep) : (s.report r).reads = s.reads := rfl
@[simp] theorem State.report_corrected (s : State) (r : ErrRep) : (s.report r).corrected = s.corrected := rfl
@[simp] theorem State.report_sigWriters (s : State) (r : ErrRep) : (s.report r).sigWriters = s.sigWriters := rfl
@[simp] theorem State.report_placed (s : State) (r : ErrRep) : (s.report r).placed = s.placed := rfl
@[simp] theorem State.report_memLinksOut (s : State) (r : ErrRep) : (s.report r).memLinksOut = s.memLinksOut := rfl
@[simp] theorem State.report_masks (s : State) (r : ErrRep) : (s.report r).masks = s.masks := rfl
@[simp] theorem State.report_hopBufs (s : State) (r : ErrRep) : (s.report r).hopBufs = s.hopBufs := rfl
@[simp] theorem State.report_freeCtr (s : State) (r : ErrRep) : (s.report r).freeCtr = s.freeCtr := rfl

/-! ## hold -/

@[simp] theorem State.hold_status (s : State) (h : Held) : (s.hold h).status = s.status := rfl
@[simp] theorem State.hold_events (s : State) (h : Held) : (s.hold h).events = s.events := rfl
@[simp] theorem State.hold_arg (s : State) (h : Held) : (s.hold h).arg = s.arg := rfl
@[simp] theorem State.hold_ready (s : State) (h : Held) : (s.hold h).ready = s.ready := rfl
@[simp] theorem State.hold_schedule (s : State) (h : Held) : (s.hold h).schedule = s.schedule := rfl
@[simp] theorem State.hold_curCore (s : State) (h : Held) : (s.hold h).curCore = s.curCore := rfl
@[simp] theorem State.hold_curLoc (s : State) (h : Held) : (s.hold h).curLoc = s.curLoc := rfl
@[simp] theorem State.hold_curSlot (s : State) (h : Held) : (s.hold h).curSlot = s.curSlot := rfl
@[simp] theorem State.hold_curTag (s : State) (h : Held) : (s.hold h).curTag = s.curTag := rfl
@[simp] theorem State.hold_units (s : State) (h : Held) : (s.hold h).units = s.units := rfl
@[simp] theorem State.hold_cells (s : State) (h : Held) : (s.hold h).cells = s.cells := rfl
@[simp] theorem State.hold_engines (s : State) (h : Held) : (s.hold h).engines = s.engines := rfl
@[simp] theorem State.hold_engNext (s : State) (h : Held) : (s.hold h).engNext = s.engNext := rfl
@[simp] theorem State.hold_groups (s : State) (h : Held) : (s.hold h).groups = s.groups := rfl
@[simp] theorem State.hold_memC (s : State) (h : Held) : (s.hold h).memC = s.memC := rfl
@[simp] theorem State.hold_memL (s : State) (h : Held) : (s.hold h).memL = s.memL := rfl
@[simp] theorem State.hold_memF (s : State) (h : Held) : (s.hold h).memF = s.memF := rfl
@[simp] theorem State.hold_memS (s : State) (h : Held) : (s.hold h).memS = s.memS := rfl
@[simp] theorem State.hold_memM (s : State) (h : Held) : (s.hold h).memM = s.memM := rfl
@[simp] theorem State.hold_memH (s : State) (h : Held) : (s.hold h).memH = s.memH := rfl
@[simp] theorem State.hold_marks (s : State) (h : Held) : (s.hold h).marks = s.marks := rfl
@[simp] theorem State.hold_owners (s : State) (h : Held) : (s.hold h).owners = s.owners := rfl
@[simp] theorem State.hold_pads (s : State) (h : Held) : (s.hold h).pads = s.pads := rfl
@[simp] theorem State.hold_padNext (s : State) (h : Held) : (s.hold h).padNext = s.padNext := rfl
@[simp] theorem State.hold_ctxs (s : State) (h : Held) : (s.hold h).ctxs = s.ctxs := rfl
@[simp] theorem State.hold_handles (s : State) (h : Held) : (s.hold h).handles = s.handles := rfl
@[simp] theorem State.hold_handleNext (s : State) (h : Held) : (s.hold h).handleNext = s.handleNext := rfl
@[simp] theorem State.hold_queues (s : State) (h : Held) : (s.hold h).queues = s.queues := rfl
@[simp] theorem State.hold_selections (s : State) (h : Held) : (s.hold h).selections = s.selections := rfl
@[simp] theorem State.hold_prgs (s : State) (h : Held) : (s.hold h).prgs = s.prgs := rfl
@[simp] theorem State.hold_prgNext (s : State) (h : Held) : (s.hold h).prgNext = s.prgNext := rfl
@[simp] theorem State.hold_ats (s : State) (h : Held) : (s.hold h).ats = s.ats := rfl
@[simp] theorem State.hold_evicted (s : State) (h : Held) : (s.hold h).evicted = s.evicted := rfl
@[simp] theorem State.hold_migrations (s : State) (h : Held) : (s.hold h).migrations = s.migrations := rfl
@[simp] theorem State.hold_links (s : State) (h : Held) : (s.hold h).links = s.links := rfl
@[simp] theorem State.hold_retired (s : State) (h : Held) : (s.hold h).retired = s.retired := rfl
@[simp] theorem State.hold_bmcRetired (s : State) (h : Held) : (s.hold h).bmcRetired = s.bmcRetired := rfl
@[simp] theorem State.hold_tests (s : State) (h : Held) : (s.hold h).tests = s.tests := rfl
@[simp] theorem State.hold_fw (s : State) (h : Held) : (s.hold h).fw = s.fw := rfl
@[simp] theorem State.hold_fwSlot (s : State) (h : Held) : (s.hold h).fwSlot = s.fwSlot := rfl
@[simp] theorem State.hold_bmcSlot (s : State) (h : Held) : (s.hold h).bmcSlot = s.bmcSlot := rfl
@[simp] theorem State.hold_fuseMinSvn (s : State) (h : Held) : (s.hold h).fuseMinSvn = s.fuseMinSvn := rfl
@[simp] theorem State.hold_update (s : State) (h : Held) : (s.hold h).update = s.update := rfl
@[simp] theorem State.hold_mailbox (s : State) (h : Held) : (s.hold h).mailbox = s.mailbox := rfl
@[simp] theorem State.hold_spdm (s : State) (h : Held) : (s.hold h).spdm = s.spdm := rfl
@[simp] theorem State.hold_config (s : State) (h : Held) : (s.hold h).config = s.config := rfl
@[simp] theorem State.hold_clocks (s : State) (h : Held) : (s.hold h).clocks = s.clocks := rfl
@[simp] theorem State.hold_breaks (s : State) (h : Held) : (s.hold h).breaks = s.breaks := rfl
@[simp] theorem State.hold_droverStop (s : State) (h : Held) : (s.hold h).droverStop = s.droverStop := rfl
@[simp] theorem State.hold_reads (s : State) (h : Held) : (s.hold h).reads = s.reads := rfl
@[simp] theorem State.hold_corrected (s : State) (h : Held) : (s.hold h).corrected = s.corrected := rfl
@[simp] theorem State.hold_sigWriters (s : State) (h : Held) : (s.hold h).sigWriters = s.sigWriters := rfl
@[simp] theorem State.hold_placed (s : State) (h : Held) : (s.hold h).placed = s.placed := rfl
@[simp] theorem State.hold_memLinksOut (s : State) (h : Held) : (s.hold h).memLinksOut = s.memLinksOut := rfl
@[simp] theorem State.hold_masks (s : State) (h : Held) : (s.hold h).masks = s.masks := rfl
@[simp] theorem State.hold_hopBufs (s : State) (h : Held) : (s.hold h).hopBufs = s.hopBufs := rfl
@[simp] theorem State.hold_freeCtr (s : State) (h : Held) : (s.hold h).freeCtr = s.freeCtr := rfl

/-! ## retire -/

@[simp] theorem State.retire_status (s : State) : (s.retire).status = s.status := rfl
@[simp] theorem State.retire_events (s : State) : (s.retire).events = s.events := rfl
@[simp] theorem State.retire_arg (s : State) : (s.retire).arg = s.arg := rfl
@[simp] theorem State.retire_ready (s : State) : (s.retire).ready = s.ready := rfl
@[simp] theorem State.retire_schedule (s : State) : (s.retire).schedule = s.schedule := rfl
@[simp] theorem State.retire_curCore (s : State) : (s.retire).curCore = s.curCore := rfl
@[simp] theorem State.retire_curLoc (s : State) : (s.retire).curLoc = s.curLoc := rfl
@[simp] theorem State.retire_curSlot (s : State) : (s.retire).curSlot = s.curSlot := rfl
@[simp] theorem State.retire_curTag (s : State) : (s.retire).curTag = s.curTag := rfl
@[simp] theorem State.retire_units (s : State) : (s.retire).units = s.units := rfl
@[simp] theorem State.retire_cells (s : State) : (s.retire).cells = s.cells := rfl
@[simp] theorem State.retire_engines (s : State) : (s.retire).engines = s.engines := rfl
@[simp] theorem State.retire_engNext (s : State) : (s.retire).engNext = s.engNext := rfl
@[simp] theorem State.retire_groups (s : State) : (s.retire).groups = s.groups := rfl
@[simp] theorem State.retire_memC (s : State) : (s.retire).memC = s.memC := rfl
@[simp] theorem State.retire_memL (s : State) : (s.retire).memL = s.memL := rfl
@[simp] theorem State.retire_memF (s : State) : (s.retire).memF = s.memF := rfl
@[simp] theorem State.retire_memS (s : State) : (s.retire).memS = s.memS := rfl
@[simp] theorem State.retire_memM (s : State) : (s.retire).memM = s.memM := rfl
@[simp] theorem State.retire_memH (s : State) : (s.retire).memH = s.memH := rfl
@[simp] theorem State.retire_marks (s : State) : (s.retire).marks = s.marks := rfl
@[simp] theorem State.retire_owners (s : State) : (s.retire).owners = s.owners := rfl
@[simp] theorem State.retire_pads (s : State) : (s.retire).pads = s.pads := rfl
@[simp] theorem State.retire_padNext (s : State) : (s.retire).padNext = s.padNext := rfl
@[simp] theorem State.retire_ctxs (s : State) : (s.retire).ctxs = s.ctxs := rfl
@[simp] theorem State.retire_handles (s : State) : (s.retire).handles = s.handles := rfl
@[simp] theorem State.retire_handleNext (s : State) : (s.retire).handleNext = s.handleNext := rfl
@[simp] theorem State.retire_queues (s : State) : (s.retire).queues = s.queues := rfl
@[simp] theorem State.retire_selections (s : State) : (s.retire).selections = s.selections := rfl
@[simp] theorem State.retire_prgs (s : State) : (s.retire).prgs = s.prgs := rfl
@[simp] theorem State.retire_prgNext (s : State) : (s.retire).prgNext = s.prgNext := rfl
@[simp] theorem State.retire_ats (s : State) : (s.retire).ats = s.ats := rfl
@[simp] theorem State.retire_evicted (s : State) : (s.retire).evicted = s.evicted := rfl
@[simp] theorem State.retire_migrations (s : State) : (s.retire).migrations = s.migrations := rfl
@[simp] theorem State.retire_links (s : State) : (s.retire).links = s.links := rfl
@[simp] theorem State.retire_retired (s : State) : (s.retire).retired = s.retired := rfl
@[simp] theorem State.retire_bmcRetired (s : State) : (s.retire).bmcRetired = s.bmcRetired := rfl
@[simp] theorem State.retire_tests (s : State) : (s.retire).tests = s.tests := rfl
@[simp] theorem State.retire_fw (s : State) : (s.retire).fw = s.fw := rfl
@[simp] theorem State.retire_fwSlot (s : State) : (s.retire).fwSlot = s.fwSlot := rfl
@[simp] theorem State.retire_bmcSlot (s : State) : (s.retire).bmcSlot = s.bmcSlot := rfl
@[simp] theorem State.retire_fuseMinSvn (s : State) : (s.retire).fuseMinSvn = s.fuseMinSvn := rfl
@[simp] theorem State.retire_update (s : State) : (s.retire).update = s.update := rfl
@[simp] theorem State.retire_mailbox (s : State) : (s.retire).mailbox = s.mailbox := rfl
@[simp] theorem State.retire_spdm (s : State) : (s.retire).spdm = s.spdm := rfl
@[simp] theorem State.retire_config (s : State) : (s.retire).config = s.config := rfl
@[simp] theorem State.retire_clocks (s : State) : (s.retire).clocks = s.clocks := rfl
@[simp] theorem State.retire_breaks (s : State) : (s.retire).breaks = s.breaks := rfl
@[simp] theorem State.retire_droverStop (s : State) : (s.retire).droverStop = s.droverStop := rfl
@[simp] theorem State.retire_reads (s : State) : (s.retire).reads = s.reads := rfl
@[simp] theorem State.retire_corrected (s : State) : (s.retire).corrected = s.corrected := rfl
@[simp] theorem State.retire_sigWriters (s : State) : (s.retire).sigWriters = s.sigWriters := rfl
@[simp] theorem State.retire_placed (s : State) : (s.retire).placed = s.placed := rfl
@[simp] theorem State.retire_memLinksOut (s : State) : (s.retire).memLinksOut = s.memLinksOut := rfl
@[simp] theorem State.retire_masks (s : State) : (s.retire).masks = s.masks := rfl
@[simp] theorem State.retire_hopBufs (s : State) : (s.retire).hopBufs = s.hopBufs := rfl
@[simp] theorem State.retire_freeCtr (s : State) : (s.retire).freeCtr = s.freeCtr := rfl

/-! ## countIssue -/

@[simp] theorem State.countIssue_status (s : State) : (s.countIssue).status = s.status := rfl
@[simp] theorem State.countIssue_events (s : State) : (s.countIssue).events = s.events := rfl
@[simp] theorem State.countIssue_arg (s : State) : (s.countIssue).arg = s.arg := rfl
@[simp] theorem State.countIssue_ready (s : State) : (s.countIssue).ready = s.ready := rfl
@[simp] theorem State.countIssue_schedule (s : State) : (s.countIssue).schedule = s.schedule := rfl
@[simp] theorem State.countIssue_curCore (s : State) : (s.countIssue).curCore = s.curCore := rfl
@[simp] theorem State.countIssue_curLoc (s : State) : (s.countIssue).curLoc = s.curLoc := rfl
@[simp] theorem State.countIssue_curSlot (s : State) : (s.countIssue).curSlot = s.curSlot := rfl
@[simp] theorem State.countIssue_curTag (s : State) : (s.countIssue).curTag = s.curTag := rfl
@[simp] theorem State.countIssue_units (s : State) : (s.countIssue).units = s.units := rfl
@[simp] theorem State.countIssue_cells (s : State) : (s.countIssue).cells = s.cells := rfl
@[simp] theorem State.countIssue_engines (s : State) : (s.countIssue).engines = s.engines := rfl
@[simp] theorem State.countIssue_engNext (s : State) : (s.countIssue).engNext = s.engNext := rfl
@[simp] theorem State.countIssue_groups (s : State) : (s.countIssue).groups = s.groups := rfl
@[simp] theorem State.countIssue_memC (s : State) : (s.countIssue).memC = s.memC := rfl
@[simp] theorem State.countIssue_memL (s : State) : (s.countIssue).memL = s.memL := rfl
@[simp] theorem State.countIssue_memF (s : State) : (s.countIssue).memF = s.memF := rfl
@[simp] theorem State.countIssue_memS (s : State) : (s.countIssue).memS = s.memS := rfl
@[simp] theorem State.countIssue_memM (s : State) : (s.countIssue).memM = s.memM := rfl
@[simp] theorem State.countIssue_memH (s : State) : (s.countIssue).memH = s.memH := rfl
@[simp] theorem State.countIssue_marks (s : State) : (s.countIssue).marks = s.marks := rfl
@[simp] theorem State.countIssue_owners (s : State) : (s.countIssue).owners = s.owners := rfl
@[simp] theorem State.countIssue_pads (s : State) : (s.countIssue).pads = s.pads := rfl
@[simp] theorem State.countIssue_padNext (s : State) : (s.countIssue).padNext = s.padNext := rfl
@[simp] theorem State.countIssue_ctxs (s : State) : (s.countIssue).ctxs = s.ctxs := rfl
@[simp] theorem State.countIssue_handles (s : State) : (s.countIssue).handles = s.handles := rfl
@[simp] theorem State.countIssue_handleNext (s : State) : (s.countIssue).handleNext = s.handleNext := rfl
@[simp] theorem State.countIssue_queues (s : State) : (s.countIssue).queues = s.queues := rfl
@[simp] theorem State.countIssue_selections (s : State) : (s.countIssue).selections = s.selections := rfl
@[simp] theorem State.countIssue_prgs (s : State) : (s.countIssue).prgs = s.prgs := rfl
@[simp] theorem State.countIssue_prgNext (s : State) : (s.countIssue).prgNext = s.prgNext := rfl
@[simp] theorem State.countIssue_ats (s : State) : (s.countIssue).ats = s.ats := rfl
@[simp] theorem State.countIssue_evicted (s : State) : (s.countIssue).evicted = s.evicted := rfl
@[simp] theorem State.countIssue_migrations (s : State) : (s.countIssue).migrations = s.migrations := rfl
@[simp] theorem State.countIssue_links (s : State) : (s.countIssue).links = s.links := rfl
@[simp] theorem State.countIssue_retired (s : State) : (s.countIssue).retired = s.retired := rfl
@[simp] theorem State.countIssue_bmcRetired (s : State) : (s.countIssue).bmcRetired = s.bmcRetired := rfl
@[simp] theorem State.countIssue_tests (s : State) : (s.countIssue).tests = s.tests := rfl
@[simp] theorem State.countIssue_fw (s : State) : (s.countIssue).fw = s.fw := rfl
@[simp] theorem State.countIssue_fwSlot (s : State) : (s.countIssue).fwSlot = s.fwSlot := rfl
@[simp] theorem State.countIssue_bmcSlot (s : State) : (s.countIssue).bmcSlot = s.bmcSlot := rfl
@[simp] theorem State.countIssue_fuseMinSvn (s : State) : (s.countIssue).fuseMinSvn = s.fuseMinSvn := rfl
@[simp] theorem State.countIssue_update (s : State) : (s.countIssue).update = s.update := rfl
@[simp] theorem State.countIssue_mailbox (s : State) : (s.countIssue).mailbox = s.mailbox := rfl
@[simp] theorem State.countIssue_spdm (s : State) : (s.countIssue).spdm = s.spdm := rfl
@[simp] theorem State.countIssue_config (s : State) : (s.countIssue).config = s.config := rfl
@[simp] theorem State.countIssue_clocks (s : State) : (s.countIssue).clocks = s.clocks := rfl
@[simp] theorem State.countIssue_breaks (s : State) : (s.countIssue).breaks = s.breaks := rfl
@[simp] theorem State.countIssue_droverStop (s : State) : (s.countIssue).droverStop = s.droverStop := rfl
@[simp] theorem State.countIssue_reads (s : State) : (s.countIssue).reads = s.reads := rfl
@[simp] theorem State.countIssue_corrected (s : State) : (s.countIssue).corrected = s.corrected := rfl
@[simp] theorem State.countIssue_sigWriters (s : State) : (s.countIssue).sigWriters = s.sigWriters := rfl
@[simp] theorem State.countIssue_placed (s : State) : (s.countIssue).placed = s.placed := rfl
@[simp] theorem State.countIssue_memLinksOut (s : State) : (s.countIssue).memLinksOut = s.memLinksOut := rfl
@[simp] theorem State.countIssue_masks (s : State) : (s.countIssue).masks = s.masks := rfl
@[simp] theorem State.countIssue_hopBufs (s : State) : (s.countIssue).hopBufs = s.hopBufs := rfl
@[simp] theorem State.countIssue_freeCtr (s : State) : (s.countIssue).freeCtr = s.freeCtr := rfl

/-! ## clearMark -/

@[simp] theorem State.clearMark_status (s : State) (sp : Space) (l : Nat) : (s.clearMark sp l).status = s.status := rfl
@[simp] theorem State.clearMark_events (s : State) (sp : Space) (l : Nat) : (s.clearMark sp l).events = s.events := rfl
@[simp] theorem State.clearMark_arg (s : State) (sp : Space) (l : Nat) : (s.clearMark sp l).arg = s.arg := rfl
@[simp] theorem State.clearMark_ready (s : State) (sp : Space) (l : Nat) : (s.clearMark sp l).ready = s.ready := rfl
@[simp] theorem State.clearMark_schedule (s : State) (sp : Space) (l : Nat) : (s.clearMark sp l).schedule = s.schedule := rfl
@[simp] theorem State.clearMark_curCore (s : State) (sp : Space) (l : Nat) : (s.clearMark sp l).curCore = s.curCore := rfl
@[simp] theorem State.clearMark_curLoc (s : State) (sp : Space) (l : Nat) : (s.clearMark sp l).curLoc = s.curLoc := rfl
@[simp] theorem State.clearMark_curSlot (s : State) (sp : Space) (l : Nat) : (s.clearMark sp l).curSlot = s.curSlot := rfl
@[simp] theorem State.clearMark_curTag (s : State) (sp : Space) (l : Nat) : (s.clearMark sp l).curTag = s.curTag := rfl
@[simp] theorem State.clearMark_cores (s : State) (sp : Space) (l : Nat) : (s.clearMark sp l).cores = s.cores := rfl
@[simp] theorem State.clearMark_units (s : State) (sp : Space) (l : Nat) : (s.clearMark sp l).units = s.units := rfl
@[simp] theorem State.clearMark_cells (s : State) (sp : Space) (l : Nat) : (s.clearMark sp l).cells = s.cells := rfl
@[simp] theorem State.clearMark_engines (s : State) (sp : Space) (l : Nat) : (s.clearMark sp l).engines = s.engines := rfl
@[simp] theorem State.clearMark_engNext (s : State) (sp : Space) (l : Nat) : (s.clearMark sp l).engNext = s.engNext := rfl
@[simp] theorem State.clearMark_groups (s : State) (sp : Space) (l : Nat) : (s.clearMark sp l).groups = s.groups := rfl
@[simp] theorem State.clearMark_memC (s : State) (sp : Space) (l : Nat) : (s.clearMark sp l).memC = s.memC := rfl
@[simp] theorem State.clearMark_memL (s : State) (sp : Space) (l : Nat) : (s.clearMark sp l).memL = s.memL := rfl
@[simp] theorem State.clearMark_memF (s : State) (sp : Space) (l : Nat) : (s.clearMark sp l).memF = s.memF := rfl
@[simp] theorem State.clearMark_memS (s : State) (sp : Space) (l : Nat) : (s.clearMark sp l).memS = s.memS := rfl
@[simp] theorem State.clearMark_memM (s : State) (sp : Space) (l : Nat) : (s.clearMark sp l).memM = s.memM := rfl
@[simp] theorem State.clearMark_memH (s : State) (sp : Space) (l : Nat) : (s.clearMark sp l).memH = s.memH := rfl
@[simp] theorem State.clearMark_owners (s : State) (sp : Space) (l : Nat) : (s.clearMark sp l).owners = s.owners := rfl
@[simp] theorem State.clearMark_pads (s : State) (sp : Space) (l : Nat) : (s.clearMark sp l).pads = s.pads := rfl
@[simp] theorem State.clearMark_padNext (s : State) (sp : Space) (l : Nat) : (s.clearMark sp l).padNext = s.padNext := rfl
@[simp] theorem State.clearMark_ctxs (s : State) (sp : Space) (l : Nat) : (s.clearMark sp l).ctxs = s.ctxs := rfl
@[simp] theorem State.clearMark_handles (s : State) (sp : Space) (l : Nat) : (s.clearMark sp l).handles = s.handles := rfl
@[simp] theorem State.clearMark_handleNext (s : State) (sp : Space) (l : Nat) : (s.clearMark sp l).handleNext = s.handleNext := rfl
@[simp] theorem State.clearMark_queues (s : State) (sp : Space) (l : Nat) : (s.clearMark sp l).queues = s.queues := rfl
@[simp] theorem State.clearMark_selections (s : State) (sp : Space) (l : Nat) : (s.clearMark sp l).selections = s.selections := rfl
@[simp] theorem State.clearMark_prgs (s : State) (sp : Space) (l : Nat) : (s.clearMark sp l).prgs = s.prgs := rfl
@[simp] theorem State.clearMark_prgNext (s : State) (sp : Space) (l : Nat) : (s.clearMark sp l).prgNext = s.prgNext := rfl
@[simp] theorem State.clearMark_ats (s : State) (sp : Space) (l : Nat) : (s.clearMark sp l).ats = s.ats := rfl
@[simp] theorem State.clearMark_evicted (s : State) (sp : Space) (l : Nat) : (s.clearMark sp l).evicted = s.evicted := rfl
@[simp] theorem State.clearMark_migrations (s : State) (sp : Space) (l : Nat) : (s.clearMark sp l).migrations = s.migrations := rfl
@[simp] theorem State.clearMark_links (s : State) (sp : Space) (l : Nat) : (s.clearMark sp l).links = s.links := rfl
@[simp] theorem State.clearMark_retired (s : State) (sp : Space) (l : Nat) : (s.clearMark sp l).retired = s.retired := rfl
@[simp] theorem State.clearMark_bmcRetired (s : State) (sp : Space) (l : Nat) : (s.clearMark sp l).bmcRetired = s.bmcRetired := rfl
@[simp] theorem State.clearMark_tests (s : State) (sp : Space) (l : Nat) : (s.clearMark sp l).tests = s.tests := rfl
@[simp] theorem State.clearMark_fw (s : State) (sp : Space) (l : Nat) : (s.clearMark sp l).fw = s.fw := rfl
@[simp] theorem State.clearMark_fwSlot (s : State) (sp : Space) (l : Nat) : (s.clearMark sp l).fwSlot = s.fwSlot := rfl
@[simp] theorem State.clearMark_bmcSlot (s : State) (sp : Space) (l : Nat) : (s.clearMark sp l).bmcSlot = s.bmcSlot := rfl
@[simp] theorem State.clearMark_fuseMinSvn (s : State) (sp : Space) (l : Nat) : (s.clearMark sp l).fuseMinSvn = s.fuseMinSvn := rfl
@[simp] theorem State.clearMark_update (s : State) (sp : Space) (l : Nat) : (s.clearMark sp l).update = s.update := rfl
@[simp] theorem State.clearMark_mailbox (s : State) (sp : Space) (l : Nat) : (s.clearMark sp l).mailbox = s.mailbox := rfl
@[simp] theorem State.clearMark_spdm (s : State) (sp : Space) (l : Nat) : (s.clearMark sp l).spdm = s.spdm := rfl
@[simp] theorem State.clearMark_config (s : State) (sp : Space) (l : Nat) : (s.clearMark sp l).config = s.config := rfl
@[simp] theorem State.clearMark_clocks (s : State) (sp : Space) (l : Nat) : (s.clearMark sp l).clocks = s.clocks := rfl
@[simp] theorem State.clearMark_breaks (s : State) (sp : Space) (l : Nat) : (s.clearMark sp l).breaks = s.breaks := rfl
@[simp] theorem State.clearMark_droverStop (s : State) (sp : Space) (l : Nat) : (s.clearMark sp l).droverStop = s.droverStop := rfl
@[simp] theorem State.clearMark_reads (s : State) (sp : Space) (l : Nat) : (s.clearMark sp l).reads = s.reads := rfl
@[simp] theorem State.clearMark_corrected (s : State) (sp : Space) (l : Nat) : (s.clearMark sp l).corrected = s.corrected := rfl
@[simp] theorem State.clearMark_sigWriters (s : State) (sp : Space) (l : Nat) : (s.clearMark sp l).sigWriters = s.sigWriters := rfl
@[simp] theorem State.clearMark_placed (s : State) (sp : Space) (l : Nat) : (s.clearMark sp l).placed = s.placed := rfl
@[simp] theorem State.clearMark_memLinksOut (s : State) (sp : Space) (l : Nat) : (s.clearMark sp l).memLinksOut = s.memLinksOut := rfl
@[simp] theorem State.clearMark_masks (s : State) (sp : Space) (l : Nat) : (s.clearMark sp l).masks = s.masks := rfl
@[simp] theorem State.clearMark_hopBufs (s : State) (sp : Space) (l : Nat) : (s.clearMark sp l).hopBufs = s.hopBufs := rfl
@[simp] theorem State.clearMark_freeCtr (s : State) (sp : Space) (l : Nat) : (s.clearMark sp l).freeCtr = s.freeCtr := rfl

/-! ## setMark -/

@[simp] theorem State.setMark_status (s : State) (sp : Space) (l : Nat) (k : LineMark) : (s.setMark sp l k).status = s.status := rfl
@[simp] theorem State.setMark_events (s : State) (sp : Space) (l : Nat) (k : LineMark) : (s.setMark sp l k).events = s.events := rfl
@[simp] theorem State.setMark_arg (s : State) (sp : Space) (l : Nat) (k : LineMark) : (s.setMark sp l k).arg = s.arg := rfl
@[simp] theorem State.setMark_ready (s : State) (sp : Space) (l : Nat) (k : LineMark) : (s.setMark sp l k).ready = s.ready := rfl
@[simp] theorem State.setMark_schedule (s : State) (sp : Space) (l : Nat) (k : LineMark) : (s.setMark sp l k).schedule = s.schedule := rfl
@[simp] theorem State.setMark_curCore (s : State) (sp : Space) (l : Nat) (k : LineMark) : (s.setMark sp l k).curCore = s.curCore := rfl
@[simp] theorem State.setMark_curLoc (s : State) (sp : Space) (l : Nat) (k : LineMark) : (s.setMark sp l k).curLoc = s.curLoc := rfl
@[simp] theorem State.setMark_curSlot (s : State) (sp : Space) (l : Nat) (k : LineMark) : (s.setMark sp l k).curSlot = s.curSlot := rfl
@[simp] theorem State.setMark_curTag (s : State) (sp : Space) (l : Nat) (k : LineMark) : (s.setMark sp l k).curTag = s.curTag := rfl
@[simp] theorem State.setMark_cores (s : State) (sp : Space) (l : Nat) (k : LineMark) : (s.setMark sp l k).cores = s.cores := rfl
@[simp] theorem State.setMark_units (s : State) (sp : Space) (l : Nat) (k : LineMark) : (s.setMark sp l k).units = s.units := rfl
@[simp] theorem State.setMark_cells (s : State) (sp : Space) (l : Nat) (k : LineMark) : (s.setMark sp l k).cells = s.cells := rfl
@[simp] theorem State.setMark_engines (s : State) (sp : Space) (l : Nat) (k : LineMark) : (s.setMark sp l k).engines = s.engines := rfl
@[simp] theorem State.setMark_engNext (s : State) (sp : Space) (l : Nat) (k : LineMark) : (s.setMark sp l k).engNext = s.engNext := rfl
@[simp] theorem State.setMark_groups (s : State) (sp : Space) (l : Nat) (k : LineMark) : (s.setMark sp l k).groups = s.groups := rfl
@[simp] theorem State.setMark_memC (s : State) (sp : Space) (l : Nat) (k : LineMark) : (s.setMark sp l k).memC = s.memC := rfl
@[simp] theorem State.setMark_memL (s : State) (sp : Space) (l : Nat) (k : LineMark) : (s.setMark sp l k).memL = s.memL := rfl
@[simp] theorem State.setMark_memF (s : State) (sp : Space) (l : Nat) (k : LineMark) : (s.setMark sp l k).memF = s.memF := rfl
@[simp] theorem State.setMark_memS (s : State) (sp : Space) (l : Nat) (k : LineMark) : (s.setMark sp l k).memS = s.memS := rfl
@[simp] theorem State.setMark_memM (s : State) (sp : Space) (l : Nat) (k : LineMark) : (s.setMark sp l k).memM = s.memM := rfl
@[simp] theorem State.setMark_memH (s : State) (sp : Space) (l : Nat) (k : LineMark) : (s.setMark sp l k).memH = s.memH := rfl
@[simp] theorem State.setMark_owners (s : State) (sp : Space) (l : Nat) (k : LineMark) : (s.setMark sp l k).owners = s.owners := rfl
@[simp] theorem State.setMark_pads (s : State) (sp : Space) (l : Nat) (k : LineMark) : (s.setMark sp l k).pads = s.pads := rfl
@[simp] theorem State.setMark_padNext (s : State) (sp : Space) (l : Nat) (k : LineMark) : (s.setMark sp l k).padNext = s.padNext := rfl
@[simp] theorem State.setMark_ctxs (s : State) (sp : Space) (l : Nat) (k : LineMark) : (s.setMark sp l k).ctxs = s.ctxs := rfl
@[simp] theorem State.setMark_handles (s : State) (sp : Space) (l : Nat) (k : LineMark) : (s.setMark sp l k).handles = s.handles := rfl
@[simp] theorem State.setMark_handleNext (s : State) (sp : Space) (l : Nat) (k : LineMark) : (s.setMark sp l k).handleNext = s.handleNext := rfl
@[simp] theorem State.setMark_queues (s : State) (sp : Space) (l : Nat) (k : LineMark) : (s.setMark sp l k).queues = s.queues := rfl
@[simp] theorem State.setMark_selections (s : State) (sp : Space) (l : Nat) (k : LineMark) : (s.setMark sp l k).selections = s.selections := rfl
@[simp] theorem State.setMark_prgs (s : State) (sp : Space) (l : Nat) (k : LineMark) : (s.setMark sp l k).prgs = s.prgs := rfl
@[simp] theorem State.setMark_prgNext (s : State) (sp : Space) (l : Nat) (k : LineMark) : (s.setMark sp l k).prgNext = s.prgNext := rfl
@[simp] theorem State.setMark_ats (s : State) (sp : Space) (l : Nat) (k : LineMark) : (s.setMark sp l k).ats = s.ats := rfl
@[simp] theorem State.setMark_evicted (s : State) (sp : Space) (l : Nat) (k : LineMark) : (s.setMark sp l k).evicted = s.evicted := rfl
@[simp] theorem State.setMark_migrations (s : State) (sp : Space) (l : Nat) (k : LineMark) : (s.setMark sp l k).migrations = s.migrations := rfl
@[simp] theorem State.setMark_links (s : State) (sp : Space) (l : Nat) (k : LineMark) : (s.setMark sp l k).links = s.links := rfl
@[simp] theorem State.setMark_retired (s : State) (sp : Space) (l : Nat) (k : LineMark) : (s.setMark sp l k).retired = s.retired := rfl
@[simp] theorem State.setMark_bmcRetired (s : State) (sp : Space) (l : Nat) (k : LineMark) : (s.setMark sp l k).bmcRetired = s.bmcRetired := rfl
@[simp] theorem State.setMark_tests (s : State) (sp : Space) (l : Nat) (k : LineMark) : (s.setMark sp l k).tests = s.tests := rfl
@[simp] theorem State.setMark_fw (s : State) (sp : Space) (l : Nat) (k : LineMark) : (s.setMark sp l k).fw = s.fw := rfl
@[simp] theorem State.setMark_fwSlot (s : State) (sp : Space) (l : Nat) (k : LineMark) : (s.setMark sp l k).fwSlot = s.fwSlot := rfl
@[simp] theorem State.setMark_bmcSlot (s : State) (sp : Space) (l : Nat) (k : LineMark) : (s.setMark sp l k).bmcSlot = s.bmcSlot := rfl
@[simp] theorem State.setMark_fuseMinSvn (s : State) (sp : Space) (l : Nat) (k : LineMark) : (s.setMark sp l k).fuseMinSvn = s.fuseMinSvn := rfl
@[simp] theorem State.setMark_update (s : State) (sp : Space) (l : Nat) (k : LineMark) : (s.setMark sp l k).update = s.update := rfl
@[simp] theorem State.setMark_mailbox (s : State) (sp : Space) (l : Nat) (k : LineMark) : (s.setMark sp l k).mailbox = s.mailbox := rfl
@[simp] theorem State.setMark_spdm (s : State) (sp : Space) (l : Nat) (k : LineMark) : (s.setMark sp l k).spdm = s.spdm := rfl
@[simp] theorem State.setMark_config (s : State) (sp : Space) (l : Nat) (k : LineMark) : (s.setMark sp l k).config = s.config := rfl
@[simp] theorem State.setMark_clocks (s : State) (sp : Space) (l : Nat) (k : LineMark) : (s.setMark sp l k).clocks = s.clocks := rfl
@[simp] theorem State.setMark_breaks (s : State) (sp : Space) (l : Nat) (k : LineMark) : (s.setMark sp l k).breaks = s.breaks := rfl
@[simp] theorem State.setMark_droverStop (s : State) (sp : Space) (l : Nat) (k : LineMark) : (s.setMark sp l k).droverStop = s.droverStop := rfl
@[simp] theorem State.setMark_reads (s : State) (sp : Space) (l : Nat) (k : LineMark) : (s.setMark sp l k).reads = s.reads := rfl
@[simp] theorem State.setMark_corrected (s : State) (sp : Space) (l : Nat) (k : LineMark) : (s.setMark sp l k).corrected = s.corrected := rfl
@[simp] theorem State.setMark_sigWriters (s : State) (sp : Space) (l : Nat) (k : LineMark) : (s.setMark sp l k).sigWriters = s.sigWriters := rfl
@[simp] theorem State.setMark_placed (s : State) (sp : Space) (l : Nat) (k : LineMark) : (s.setMark sp l k).placed = s.placed := rfl
@[simp] theorem State.setMark_memLinksOut (s : State) (sp : Space) (l : Nat) (k : LineMark) : (s.setMark sp l k).memLinksOut = s.memLinksOut := rfl
@[simp] theorem State.setMark_masks (s : State) (sp : Space) (l : Nat) (k : LineMark) : (s.setMark sp l k).masks = s.masks := rfl
@[simp] theorem State.setMark_hopBufs (s : State) (sp : Space) (l : Nat) (k : LineMark) : (s.setMark sp l k).hopBufs = s.hopBufs := rfl
@[simp] theorem State.setMark_freeCtr (s : State) (sp : Space) (l : Nat) (k : LineMark) : (s.setMark sp l k).freeCtr = s.freeCtr := rfl

/-! ## updPad -/

@[simp] theorem State.updPad_status (s : State) (p : Nat) (g : Pad → Pad) : (s.updPad p g).status = s.status := by
  unfold State.updPad
  split <;> rfl
@[simp] theorem State.updPad_events (s : State) (p : Nat) (g : Pad → Pad) : (s.updPad p g).events = s.events := by
  unfold State.updPad
  split <;> rfl
@[simp] theorem State.updPad_arg (s : State) (p : Nat) (g : Pad → Pad) : (s.updPad p g).arg = s.arg := by
  unfold State.updPad
  split <;> rfl
@[simp] theorem State.updPad_ready (s : State) (p : Nat) (g : Pad → Pad) : (s.updPad p g).ready = s.ready := by
  unfold State.updPad
  split <;> rfl
@[simp] theorem State.updPad_schedule (s : State) (p : Nat) (g : Pad → Pad) : (s.updPad p g).schedule = s.schedule := by
  unfold State.updPad
  split <;> rfl
@[simp] theorem State.updPad_curCore (s : State) (p : Nat) (g : Pad → Pad) : (s.updPad p g).curCore = s.curCore := by
  unfold State.updPad
  split <;> rfl
@[simp] theorem State.updPad_curLoc (s : State) (p : Nat) (g : Pad → Pad) : (s.updPad p g).curLoc = s.curLoc := by
  unfold State.updPad
  split <;> rfl
@[simp] theorem State.updPad_curSlot (s : State) (p : Nat) (g : Pad → Pad) : (s.updPad p g).curSlot = s.curSlot := by
  unfold State.updPad
  split <;> rfl
@[simp] theorem State.updPad_curTag (s : State) (p : Nat) (g : Pad → Pad) : (s.updPad p g).curTag = s.curTag := by
  unfold State.updPad
  split <;> rfl
@[simp] theorem State.updPad_cores (s : State) (p : Nat) (g : Pad → Pad) : (s.updPad p g).cores = s.cores := by
  unfold State.updPad
  split <;> rfl
@[simp] theorem State.updPad_units (s : State) (p : Nat) (g : Pad → Pad) : (s.updPad p g).units = s.units := by
  unfold State.updPad
  split <;> rfl
@[simp] theorem State.updPad_cells (s : State) (p : Nat) (g : Pad → Pad) : (s.updPad p g).cells = s.cells := by
  unfold State.updPad
  split <;> rfl
@[simp] theorem State.updPad_engines (s : State) (p : Nat) (g : Pad → Pad) : (s.updPad p g).engines = s.engines := by
  unfold State.updPad
  split <;> rfl
@[simp] theorem State.updPad_engNext (s : State) (p : Nat) (g : Pad → Pad) : (s.updPad p g).engNext = s.engNext := by
  unfold State.updPad
  split <;> rfl
@[simp] theorem State.updPad_groups (s : State) (p : Nat) (g : Pad → Pad) : (s.updPad p g).groups = s.groups := by
  unfold State.updPad
  split <;> rfl
@[simp] theorem State.updPad_memC (s : State) (p : Nat) (g : Pad → Pad) : (s.updPad p g).memC = s.memC := by
  unfold State.updPad
  split <;> rfl
@[simp] theorem State.updPad_memL (s : State) (p : Nat) (g : Pad → Pad) : (s.updPad p g).memL = s.memL := by
  unfold State.updPad
  split <;> rfl
@[simp] theorem State.updPad_memF (s : State) (p : Nat) (g : Pad → Pad) : (s.updPad p g).memF = s.memF := by
  unfold State.updPad
  split <;> rfl
@[simp] theorem State.updPad_memS (s : State) (p : Nat) (g : Pad → Pad) : (s.updPad p g).memS = s.memS := by
  unfold State.updPad
  split <;> rfl
@[simp] theorem State.updPad_memM (s : State) (p : Nat) (g : Pad → Pad) : (s.updPad p g).memM = s.memM := by
  unfold State.updPad
  split <;> rfl
@[simp] theorem State.updPad_memH (s : State) (p : Nat) (g : Pad → Pad) : (s.updPad p g).memH = s.memH := by
  unfold State.updPad
  split <;> rfl
@[simp] theorem State.updPad_marks (s : State) (p : Nat) (g : Pad → Pad) : (s.updPad p g).marks = s.marks := by
  unfold State.updPad
  split <;> rfl
@[simp] theorem State.updPad_owners (s : State) (p : Nat) (g : Pad → Pad) : (s.updPad p g).owners = s.owners := by
  unfold State.updPad
  split <;> rfl
@[simp] theorem State.updPad_padNext (s : State) (p : Nat) (g : Pad → Pad) : (s.updPad p g).padNext = s.padNext := by
  unfold State.updPad
  split <;> rfl
@[simp] theorem State.updPad_ctxs (s : State) (p : Nat) (g : Pad → Pad) : (s.updPad p g).ctxs = s.ctxs := by
  unfold State.updPad
  split <;> rfl
@[simp] theorem State.updPad_handles (s : State) (p : Nat) (g : Pad → Pad) : (s.updPad p g).handles = s.handles := by
  unfold State.updPad
  split <;> rfl
@[simp] theorem State.updPad_handleNext (s : State) (p : Nat) (g : Pad → Pad) : (s.updPad p g).handleNext = s.handleNext := by
  unfold State.updPad
  split <;> rfl
@[simp] theorem State.updPad_queues (s : State) (p : Nat) (g : Pad → Pad) : (s.updPad p g).queues = s.queues := by
  unfold State.updPad
  split <;> rfl
@[simp] theorem State.updPad_selections (s : State) (p : Nat) (g : Pad → Pad) : (s.updPad p g).selections = s.selections := by
  unfold State.updPad
  split <;> rfl
@[simp] theorem State.updPad_prgs (s : State) (p : Nat) (g : Pad → Pad) : (s.updPad p g).prgs = s.prgs := by
  unfold State.updPad
  split <;> rfl
@[simp] theorem State.updPad_prgNext (s : State) (p : Nat) (g : Pad → Pad) : (s.updPad p g).prgNext = s.prgNext := by
  unfold State.updPad
  split <;> rfl
@[simp] theorem State.updPad_ats (s : State) (p : Nat) (g : Pad → Pad) : (s.updPad p g).ats = s.ats := by
  unfold State.updPad
  split <;> rfl
@[simp] theorem State.updPad_evicted (s : State) (p : Nat) (g : Pad → Pad) : (s.updPad p g).evicted = s.evicted := by
  unfold State.updPad
  split <;> rfl
@[simp] theorem State.updPad_migrations (s : State) (p : Nat) (g : Pad → Pad) : (s.updPad p g).migrations = s.migrations := by
  unfold State.updPad
  split <;> rfl
@[simp] theorem State.updPad_links (s : State) (p : Nat) (g : Pad → Pad) : (s.updPad p g).links = s.links := by
  unfold State.updPad
  split <;> rfl
@[simp] theorem State.updPad_retired (s : State) (p : Nat) (g : Pad → Pad) : (s.updPad p g).retired = s.retired := by
  unfold State.updPad
  split <;> rfl
@[simp] theorem State.updPad_bmcRetired (s : State) (p : Nat) (g : Pad → Pad) : (s.updPad p g).bmcRetired = s.bmcRetired := by
  unfold State.updPad
  split <;> rfl
@[simp] theorem State.updPad_tests (s : State) (p : Nat) (g : Pad → Pad) : (s.updPad p g).tests = s.tests := by
  unfold State.updPad
  split <;> rfl
@[simp] theorem State.updPad_fw (s : State) (p : Nat) (g : Pad → Pad) : (s.updPad p g).fw = s.fw := by
  unfold State.updPad
  split <;> rfl
@[simp] theorem State.updPad_fwSlot (s : State) (p : Nat) (g : Pad → Pad) : (s.updPad p g).fwSlot = s.fwSlot := by
  unfold State.updPad
  split <;> rfl
@[simp] theorem State.updPad_bmcSlot (s : State) (p : Nat) (g : Pad → Pad) : (s.updPad p g).bmcSlot = s.bmcSlot := by
  unfold State.updPad
  split <;> rfl
@[simp] theorem State.updPad_fuseMinSvn (s : State) (p : Nat) (g : Pad → Pad) : (s.updPad p g).fuseMinSvn = s.fuseMinSvn := by
  unfold State.updPad
  split <;> rfl
@[simp] theorem State.updPad_update (s : State) (p : Nat) (g : Pad → Pad) : (s.updPad p g).update = s.update := by
  unfold State.updPad
  split <;> rfl
@[simp] theorem State.updPad_mailbox (s : State) (p : Nat) (g : Pad → Pad) : (s.updPad p g).mailbox = s.mailbox := by
  unfold State.updPad
  split <;> rfl
@[simp] theorem State.updPad_spdm (s : State) (p : Nat) (g : Pad → Pad) : (s.updPad p g).spdm = s.spdm := by
  unfold State.updPad
  split <;> rfl
@[simp] theorem State.updPad_config (s : State) (p : Nat) (g : Pad → Pad) : (s.updPad p g).config = s.config := by
  unfold State.updPad
  split <;> rfl
@[simp] theorem State.updPad_clocks (s : State) (p : Nat) (g : Pad → Pad) : (s.updPad p g).clocks = s.clocks := by
  unfold State.updPad
  split <;> rfl
@[simp] theorem State.updPad_breaks (s : State) (p : Nat) (g : Pad → Pad) : (s.updPad p g).breaks = s.breaks := by
  unfold State.updPad
  split <;> rfl
@[simp] theorem State.updPad_droverStop (s : State) (p : Nat) (g : Pad → Pad) : (s.updPad p g).droverStop = s.droverStop := by
  unfold State.updPad
  split <;> rfl
@[simp] theorem State.updPad_reads (s : State) (p : Nat) (g : Pad → Pad) : (s.updPad p g).reads = s.reads := by
  unfold State.updPad
  split <;> rfl
@[simp] theorem State.updPad_corrected (s : State) (p : Nat) (g : Pad → Pad) : (s.updPad p g).corrected = s.corrected := by
  unfold State.updPad
  split <;> rfl
@[simp] theorem State.updPad_sigWriters (s : State) (p : Nat) (g : Pad → Pad) : (s.updPad p g).sigWriters = s.sigWriters := by
  unfold State.updPad
  split <;> rfl
@[simp] theorem State.updPad_placed (s : State) (p : Nat) (g : Pad → Pad) : (s.updPad p g).placed = s.placed := by
  unfold State.updPad
  split <;> rfl
@[simp] theorem State.updPad_memLinksOut (s : State) (p : Nat) (g : Pad → Pad) : (s.updPad p g).memLinksOut = s.memLinksOut := by
  unfold State.updPad
  split <;> rfl
@[simp] theorem State.updPad_masks (s : State) (p : Nat) (g : Pad → Pad) : (s.updPad p g).masks = s.masks := by
  unfold State.updPad
  split <;> rfl
@[simp] theorem State.updPad_hopBufs (s : State) (p : Nat) (g : Pad → Pad) : (s.updPad p g).hopBufs = s.hopBufs := by
  unfold State.updPad
  split <;> rfl
@[simp] theorem State.updPad_freeCtr (s : State) (p : Nat) (g : Pad → Pad) : (s.updPad p g).freeCtr = s.freeCtr := by
  unfold State.updPad
  split <;> rfl

/-! ## Memories -/

@[simp] theorem State.setMem_status (s : State) (sp : Space) (m : Memory) : (s.setMem sp m).status = s.status := by cases sp <;> rfl
@[simp] theorem State.writeMem_status (s : State) (sp : Space) (a : Nat) (b : List Byte) : (s.writeMem sp a b).status = s.status :=
  State.setMem_status s sp _
@[simp] theorem State.setMem_events (s : State) (sp : Space) (m : Memory) : (s.setMem sp m).events = s.events := by cases sp <;> rfl
@[simp] theorem State.writeMem_events (s : State) (sp : Space) (a : Nat) (b : List Byte) : (s.writeMem sp a b).events = s.events :=
  State.setMem_events s sp _
@[simp] theorem State.setMem_arg (s : State) (sp : Space) (m : Memory) : (s.setMem sp m).arg = s.arg := by cases sp <;> rfl
@[simp] theorem State.writeMem_arg (s : State) (sp : Space) (a : Nat) (b : List Byte) : (s.writeMem sp a b).arg = s.arg :=
  State.setMem_arg s sp _
@[simp] theorem State.setMem_ready (s : State) (sp : Space) (m : Memory) : (s.setMem sp m).ready = s.ready := by cases sp <;> rfl
@[simp] theorem State.writeMem_ready (s : State) (sp : Space) (a : Nat) (b : List Byte) : (s.writeMem sp a b).ready = s.ready :=
  State.setMem_ready s sp _
@[simp] theorem State.setMem_schedule (s : State) (sp : Space) (m : Memory) : (s.setMem sp m).schedule = s.schedule := by cases sp <;> rfl
@[simp] theorem State.writeMem_schedule (s : State) (sp : Space) (a : Nat) (b : List Byte) : (s.writeMem sp a b).schedule = s.schedule :=
  State.setMem_schedule s sp _
@[simp] theorem State.setMem_curCore (s : State) (sp : Space) (m : Memory) : (s.setMem sp m).curCore = s.curCore := by cases sp <;> rfl
@[simp] theorem State.writeMem_curCore (s : State) (sp : Space) (a : Nat) (b : List Byte) : (s.writeMem sp a b).curCore = s.curCore :=
  State.setMem_curCore s sp _
@[simp] theorem State.setMem_curLoc (s : State) (sp : Space) (m : Memory) : (s.setMem sp m).curLoc = s.curLoc := by cases sp <;> rfl
@[simp] theorem State.writeMem_curLoc (s : State) (sp : Space) (a : Nat) (b : List Byte) : (s.writeMem sp a b).curLoc = s.curLoc :=
  State.setMem_curLoc s sp _
@[simp] theorem State.setMem_curSlot (s : State) (sp : Space) (m : Memory) : (s.setMem sp m).curSlot = s.curSlot := by cases sp <;> rfl
@[simp] theorem State.writeMem_curSlot (s : State) (sp : Space) (a : Nat) (b : List Byte) : (s.writeMem sp a b).curSlot = s.curSlot :=
  State.setMem_curSlot s sp _
@[simp] theorem State.setMem_curTag (s : State) (sp : Space) (m : Memory) : (s.setMem sp m).curTag = s.curTag := by cases sp <;> rfl
@[simp] theorem State.writeMem_curTag (s : State) (sp : Space) (a : Nat) (b : List Byte) : (s.writeMem sp a b).curTag = s.curTag :=
  State.setMem_curTag s sp _
@[simp] theorem State.setMem_cores (s : State) (sp : Space) (m : Memory) : (s.setMem sp m).cores = s.cores := by cases sp <;> rfl
@[simp] theorem State.writeMem_cores (s : State) (sp : Space) (a : Nat) (b : List Byte) : (s.writeMem sp a b).cores = s.cores :=
  State.setMem_cores s sp _
@[simp] theorem State.setMem_units (s : State) (sp : Space) (m : Memory) : (s.setMem sp m).units = s.units := by cases sp <;> rfl
@[simp] theorem State.writeMem_units (s : State) (sp : Space) (a : Nat) (b : List Byte) : (s.writeMem sp a b).units = s.units :=
  State.setMem_units s sp _
@[simp] theorem State.setMem_cells (s : State) (sp : Space) (m : Memory) : (s.setMem sp m).cells = s.cells := by cases sp <;> rfl
@[simp] theorem State.writeMem_cells (s : State) (sp : Space) (a : Nat) (b : List Byte) : (s.writeMem sp a b).cells = s.cells :=
  State.setMem_cells s sp _
@[simp] theorem State.setMem_engines (s : State) (sp : Space) (m : Memory) : (s.setMem sp m).engines = s.engines := by cases sp <;> rfl
@[simp] theorem State.writeMem_engines (s : State) (sp : Space) (a : Nat) (b : List Byte) : (s.writeMem sp a b).engines = s.engines :=
  State.setMem_engines s sp _
@[simp] theorem State.setMem_engNext (s : State) (sp : Space) (m : Memory) : (s.setMem sp m).engNext = s.engNext := by cases sp <;> rfl
@[simp] theorem State.writeMem_engNext (s : State) (sp : Space) (a : Nat) (b : List Byte) : (s.writeMem sp a b).engNext = s.engNext :=
  State.setMem_engNext s sp _
@[simp] theorem State.setMem_groups (s : State) (sp : Space) (m : Memory) : (s.setMem sp m).groups = s.groups := by cases sp <;> rfl
@[simp] theorem State.writeMem_groups (s : State) (sp : Space) (a : Nat) (b : List Byte) : (s.writeMem sp a b).groups = s.groups :=
  State.setMem_groups s sp _
@[simp] theorem State.setMem_marks (s : State) (sp : Space) (m : Memory) : (s.setMem sp m).marks = s.marks := by cases sp <;> rfl
@[simp] theorem State.writeMem_marks (s : State) (sp : Space) (a : Nat) (b : List Byte) : (s.writeMem sp a b).marks = s.marks :=
  State.setMem_marks s sp _
@[simp] theorem State.setMem_owners (s : State) (sp : Space) (m : Memory) : (s.setMem sp m).owners = s.owners := by cases sp <;> rfl
@[simp] theorem State.writeMem_owners (s : State) (sp : Space) (a : Nat) (b : List Byte) : (s.writeMem sp a b).owners = s.owners :=
  State.setMem_owners s sp _
@[simp] theorem State.setMem_pads (s : State) (sp : Space) (m : Memory) : (s.setMem sp m).pads = s.pads := by cases sp <;> rfl
@[simp] theorem State.writeMem_pads (s : State) (sp : Space) (a : Nat) (b : List Byte) : (s.writeMem sp a b).pads = s.pads :=
  State.setMem_pads s sp _
@[simp] theorem State.setMem_padNext (s : State) (sp : Space) (m : Memory) : (s.setMem sp m).padNext = s.padNext := by cases sp <;> rfl
@[simp] theorem State.writeMem_padNext (s : State) (sp : Space) (a : Nat) (b : List Byte) : (s.writeMem sp a b).padNext = s.padNext :=
  State.setMem_padNext s sp _
@[simp] theorem State.setMem_ctxs (s : State) (sp : Space) (m : Memory) : (s.setMem sp m).ctxs = s.ctxs := by cases sp <;> rfl
@[simp] theorem State.writeMem_ctxs (s : State) (sp : Space) (a : Nat) (b : List Byte) : (s.writeMem sp a b).ctxs = s.ctxs :=
  State.setMem_ctxs s sp _
@[simp] theorem State.setMem_handles (s : State) (sp : Space) (m : Memory) : (s.setMem sp m).handles = s.handles := by cases sp <;> rfl
@[simp] theorem State.writeMem_handles (s : State) (sp : Space) (a : Nat) (b : List Byte) : (s.writeMem sp a b).handles = s.handles :=
  State.setMem_handles s sp _
@[simp] theorem State.setMem_handleNext (s : State) (sp : Space) (m : Memory) : (s.setMem sp m).handleNext = s.handleNext := by cases sp <;> rfl
@[simp] theorem State.writeMem_handleNext (s : State) (sp : Space) (a : Nat) (b : List Byte) : (s.writeMem sp a b).handleNext = s.handleNext :=
  State.setMem_handleNext s sp _
@[simp] theorem State.setMem_queues (s : State) (sp : Space) (m : Memory) : (s.setMem sp m).queues = s.queues := by cases sp <;> rfl
@[simp] theorem State.writeMem_queues (s : State) (sp : Space) (a : Nat) (b : List Byte) : (s.writeMem sp a b).queues = s.queues :=
  State.setMem_queues s sp _
@[simp] theorem State.setMem_selections (s : State) (sp : Space) (m : Memory) : (s.setMem sp m).selections = s.selections := by cases sp <;> rfl
@[simp] theorem State.writeMem_selections (s : State) (sp : Space) (a : Nat) (b : List Byte) : (s.writeMem sp a b).selections = s.selections :=
  State.setMem_selections s sp _
@[simp] theorem State.setMem_prgs (s : State) (sp : Space) (m : Memory) : (s.setMem sp m).prgs = s.prgs := by cases sp <;> rfl
@[simp] theorem State.writeMem_prgs (s : State) (sp : Space) (a : Nat) (b : List Byte) : (s.writeMem sp a b).prgs = s.prgs :=
  State.setMem_prgs s sp _
@[simp] theorem State.setMem_prgNext (s : State) (sp : Space) (m : Memory) : (s.setMem sp m).prgNext = s.prgNext := by cases sp <;> rfl
@[simp] theorem State.writeMem_prgNext (s : State) (sp : Space) (a : Nat) (b : List Byte) : (s.writeMem sp a b).prgNext = s.prgNext :=
  State.setMem_prgNext s sp _
@[simp] theorem State.setMem_ats (s : State) (sp : Space) (m : Memory) : (s.setMem sp m).ats = s.ats := by cases sp <;> rfl
@[simp] theorem State.writeMem_ats (s : State) (sp : Space) (a : Nat) (b : List Byte) : (s.writeMem sp a b).ats = s.ats :=
  State.setMem_ats s sp _
@[simp] theorem State.setMem_evicted (s : State) (sp : Space) (m : Memory) : (s.setMem sp m).evicted = s.evicted := by cases sp <;> rfl
@[simp] theorem State.writeMem_evicted (s : State) (sp : Space) (a : Nat) (b : List Byte) : (s.writeMem sp a b).evicted = s.evicted :=
  State.setMem_evicted s sp _
@[simp] theorem State.setMem_migrations (s : State) (sp : Space) (m : Memory) : (s.setMem sp m).migrations = s.migrations := by cases sp <;> rfl
@[simp] theorem State.writeMem_migrations (s : State) (sp : Space) (a : Nat) (b : List Byte) : (s.writeMem sp a b).migrations = s.migrations :=
  State.setMem_migrations s sp _
@[simp] theorem State.setMem_links (s : State) (sp : Space) (m : Memory) : (s.setMem sp m).links = s.links := by cases sp <;> rfl
@[simp] theorem State.writeMem_links (s : State) (sp : Space) (a : Nat) (b : List Byte) : (s.writeMem sp a b).links = s.links :=
  State.setMem_links s sp _
@[simp] theorem State.setMem_retired (s : State) (sp : Space) (m : Memory) : (s.setMem sp m).retired = s.retired := by cases sp <;> rfl
@[simp] theorem State.writeMem_retired (s : State) (sp : Space) (a : Nat) (b : List Byte) : (s.writeMem sp a b).retired = s.retired :=
  State.setMem_retired s sp _
@[simp] theorem State.setMem_bmcRetired (s : State) (sp : Space) (m : Memory) : (s.setMem sp m).bmcRetired = s.bmcRetired := by cases sp <;> rfl
@[simp] theorem State.writeMem_bmcRetired (s : State) (sp : Space) (a : Nat) (b : List Byte) : (s.writeMem sp a b).bmcRetired = s.bmcRetired :=
  State.setMem_bmcRetired s sp _
@[simp] theorem State.setMem_tests (s : State) (sp : Space) (m : Memory) : (s.setMem sp m).tests = s.tests := by cases sp <;> rfl
@[simp] theorem State.writeMem_tests (s : State) (sp : Space) (a : Nat) (b : List Byte) : (s.writeMem sp a b).tests = s.tests :=
  State.setMem_tests s sp _
@[simp] theorem State.setMem_fw (s : State) (sp : Space) (m : Memory) : (s.setMem sp m).fw = s.fw := by cases sp <;> rfl
@[simp] theorem State.writeMem_fw (s : State) (sp : Space) (a : Nat) (b : List Byte) : (s.writeMem sp a b).fw = s.fw :=
  State.setMem_fw s sp _
@[simp] theorem State.setMem_fwSlot (s : State) (sp : Space) (m : Memory) : (s.setMem sp m).fwSlot = s.fwSlot := by cases sp <;> rfl
@[simp] theorem State.writeMem_fwSlot (s : State) (sp : Space) (a : Nat) (b : List Byte) : (s.writeMem sp a b).fwSlot = s.fwSlot :=
  State.setMem_fwSlot s sp _
@[simp] theorem State.setMem_bmcSlot (s : State) (sp : Space) (m : Memory) : (s.setMem sp m).bmcSlot = s.bmcSlot := by cases sp <;> rfl
@[simp] theorem State.writeMem_bmcSlot (s : State) (sp : Space) (a : Nat) (b : List Byte) : (s.writeMem sp a b).bmcSlot = s.bmcSlot :=
  State.setMem_bmcSlot s sp _
@[simp] theorem State.setMem_fuseMinSvn (s : State) (sp : Space) (m : Memory) : (s.setMem sp m).fuseMinSvn = s.fuseMinSvn := by cases sp <;> rfl
@[simp] theorem State.writeMem_fuseMinSvn (s : State) (sp : Space) (a : Nat) (b : List Byte) : (s.writeMem sp a b).fuseMinSvn = s.fuseMinSvn :=
  State.setMem_fuseMinSvn s sp _
@[simp] theorem State.setMem_update (s : State) (sp : Space) (m : Memory) : (s.setMem sp m).update = s.update := by cases sp <;> rfl
@[simp] theorem State.writeMem_update (s : State) (sp : Space) (a : Nat) (b : List Byte) : (s.writeMem sp a b).update = s.update :=
  State.setMem_update s sp _
@[simp] theorem State.setMem_mailbox (s : State) (sp : Space) (m : Memory) : (s.setMem sp m).mailbox = s.mailbox := by cases sp <;> rfl
@[simp] theorem State.writeMem_mailbox (s : State) (sp : Space) (a : Nat) (b : List Byte) : (s.writeMem sp a b).mailbox = s.mailbox :=
  State.setMem_mailbox s sp _
@[simp] theorem State.setMem_spdm (s : State) (sp : Space) (m : Memory) : (s.setMem sp m).spdm = s.spdm := by cases sp <;> rfl
@[simp] theorem State.writeMem_spdm (s : State) (sp : Space) (a : Nat) (b : List Byte) : (s.writeMem sp a b).spdm = s.spdm :=
  State.setMem_spdm s sp _
@[simp] theorem State.setMem_config (s : State) (sp : Space) (m : Memory) : (s.setMem sp m).config = s.config := by cases sp <;> rfl
@[simp] theorem State.writeMem_config (s : State) (sp : Space) (a : Nat) (b : List Byte) : (s.writeMem sp a b).config = s.config :=
  State.setMem_config s sp _
@[simp] theorem State.setMem_clocks (s : State) (sp : Space) (m : Memory) : (s.setMem sp m).clocks = s.clocks := by cases sp <;> rfl
@[simp] theorem State.writeMem_clocks (s : State) (sp : Space) (a : Nat) (b : List Byte) : (s.writeMem sp a b).clocks = s.clocks :=
  State.setMem_clocks s sp _
@[simp] theorem State.setMem_breaks (s : State) (sp : Space) (m : Memory) : (s.setMem sp m).breaks = s.breaks := by cases sp <;> rfl
@[simp] theorem State.writeMem_breaks (s : State) (sp : Space) (a : Nat) (b : List Byte) : (s.writeMem sp a b).breaks = s.breaks :=
  State.setMem_breaks s sp _
@[simp] theorem State.setMem_droverStop (s : State) (sp : Space) (m : Memory) : (s.setMem sp m).droverStop = s.droverStop := by cases sp <;> rfl
@[simp] theorem State.writeMem_droverStop (s : State) (sp : Space) (a : Nat) (b : List Byte) : (s.writeMem sp a b).droverStop = s.droverStop :=
  State.setMem_droverStop s sp _
@[simp] theorem State.setMem_reads (s : State) (sp : Space) (m : Memory) : (s.setMem sp m).reads = s.reads := by cases sp <;> rfl
@[simp] theorem State.writeMem_reads (s : State) (sp : Space) (a : Nat) (b : List Byte) : (s.writeMem sp a b).reads = s.reads :=
  State.setMem_reads s sp _
@[simp] theorem State.setMem_corrected (s : State) (sp : Space) (m : Memory) : (s.setMem sp m).corrected = s.corrected := by cases sp <;> rfl
@[simp] theorem State.writeMem_corrected (s : State) (sp : Space) (a : Nat) (b : List Byte) : (s.writeMem sp a b).corrected = s.corrected :=
  State.setMem_corrected s sp _
@[simp] theorem State.setMem_sigWriters (s : State) (sp : Space) (m : Memory) : (s.setMem sp m).sigWriters = s.sigWriters := by cases sp <;> rfl
@[simp] theorem State.writeMem_sigWriters (s : State) (sp : Space) (a : Nat) (b : List Byte) : (s.writeMem sp a b).sigWriters = s.sigWriters :=
  State.setMem_sigWriters s sp _
@[simp] theorem State.setMem_placed (s : State) (sp : Space) (m : Memory) : (s.setMem sp m).placed = s.placed := by cases sp <;> rfl
@[simp] theorem State.writeMem_placed (s : State) (sp : Space) (a : Nat) (b : List Byte) : (s.writeMem sp a b).placed = s.placed :=
  State.setMem_placed s sp _
@[simp] theorem State.setMem_memLinksOut (s : State) (sp : Space) (m : Memory) : (s.setMem sp m).memLinksOut = s.memLinksOut := by cases sp <;> rfl
@[simp] theorem State.writeMem_memLinksOut (s : State) (sp : Space) (a : Nat) (b : List Byte) : (s.writeMem sp a b).memLinksOut = s.memLinksOut :=
  State.setMem_memLinksOut s sp _
@[simp] theorem State.setMem_masks (s : State) (sp : Space) (m : Memory) : (s.setMem sp m).masks = s.masks := by cases sp <;> rfl
@[simp] theorem State.writeMem_masks (s : State) (sp : Space) (a : Nat) (b : List Byte) : (s.writeMem sp a b).masks = s.masks :=
  State.setMem_masks s sp _
@[simp] theorem State.setMem_hopBufs (s : State) (sp : Space) (m : Memory) : (s.setMem sp m).hopBufs = s.hopBufs := by cases sp <;> rfl
@[simp] theorem State.writeMem_hopBufs (s : State) (sp : Space) (a : Nat) (b : List Byte) : (s.writeMem sp a b).hopBufs = s.hopBufs :=
  State.setMem_hopBufs s sp _
@[simp] theorem State.setMem_freeCtr (s : State) (sp : Space) (m : Memory) : (s.setMem sp m).freeCtr = s.freeCtr := by cases sp <;> rfl
@[simp] theorem State.writeMem_freeCtr (s : State) (sp : Space) (a : Nat) (b : List Byte) : (s.writeMem sp a b).freeCtr = s.freeCtr :=
  State.setMem_freeCtr s sp _

/-! ## What an update writes reads back -/

@[simp] theorem State.setCoreOf_coreOf_same (s : State) (c : Nat) (k : CoreSt) : (s.setCoreOf c k).coreOf c = k := by
  simp [State.setCoreOf, State.coreOf]

theorem State.setCoreOf_coreOf_other (s : State) (c d : Nat) (k : CoreSt) (h : d ≠ c) :
    (s.setCoreOf c k).coreOf d = s.coreOf d := by
  simp [State.setCoreOf, State.coreOf, amGet_amPut_other _ _ _ _ _ h]

@[simp] theorem State.setCore_core (s : State) (k : CoreSt) : (s.setCore k).core = k := by
  simp [State.setCore, State.core]

@[simp] theorem State.setU_getU_same (s : State) (n : Nat) (u : UnitSt) : (s.setU n u).getU n = u := by
  simp [State.setU, State.getU]

theorem State.setU_getU_other (s : State) (n m : Nat) (u : UnitSt) (h : m ≠ n) : (s.setU n u).getU m = s.getU m := by
  simp [State.setU, State.getU, amGet_amPut_other _ _ _ _ _ h]

@[simp] theorem State.setPad_getPad_same (s : State) (p : Nat) (x : Pad) : (s.setPad p x).getPad p = x := by
  simp [State.setPad, State.getPad]

@[simp] theorem State.setCell_getCell_same (s : State) (c : Nat) (x : CellSt) : (s.setCell c x).getCell c = x := by
  simp [State.setCell, State.getCell]

theorem amPut_amPut {α : Type} (m : AMap α) (i : Nat) (x y : α) : amPut (amPut m i x) i y = amPut m i y := by
  induction m with
  | nil => simp [amPut]
  | cons p m ih =>
    obtain ⟨k, v⟩ := p
    by_cases h : k = i
    · simp [amPut, h]
    · by_cases h2 : i < k
      · simp [amPut, h, h2]
      · simp [amPut, h, h2, ih]

/-- Of two updates of the current core, the second stands. -/
@[simp] theorem State.setCore_setCore (s : State) (k l : CoreSt) : (s.setCore k).setCore l = s.setCore l := by
  simp [State.setCore, State.setCoreOf, amPut_amPut]

/-! ## What does not change with the current core's record -/

@[simp] theorem State.setCore_getU (s : State) (k : CoreSt) (n : Nat) : (s.setCore k).getU n = s.getU n := rfl
@[simp] theorem State.setCore_getPad (s : State) (k : CoreSt) (p : Nat) : (s.setCore k).getPad p = s.getPad p := rfl
@[simp] theorem State.setCore_getCell (s : State) (k : CoreSt) (c : Nat) : (s.setCore k).getCell c = s.getCell c := rfl
@[simp] theorem State.setCore_mem (s : State) (k : CoreSt) (sp : Space) : (s.setCore k).mem sp = s.mem sp := by
  cases sp <;> rfl
@[simp] theorem State.hold_mem (s : State) (h : Held) (sp : Space) : (s.hold h).mem sp = s.mem sp := by
  cases sp <;> rfl
@[simp] theorem State.retire_mem (s : State) (sp : Space) : s.retire.mem sp = s.mem sp := by
  cases sp <;> rfl

end Sys2Proof.Machine
end

