-- ==== Sys2Proof/Laws/Operands.lean ====
section
/-!
SUPPORT. Bytes, memories and loads: what each operation gives, said once.
-/

namespace Sys2Proof.Machine

/-- An effective address: the base and the offset, counted in accesses. -/
theorem memEa_eq_add (b : DWord) (sz : BitVec 2) (off : BitVec 10) :
    memEa b sz off = b + BitVec.ofInt 64 (off.toInt * (2 ^ sz.toNat : Nat)) := by
  unfold memEa szBytes
  congr 1
  apply BitVec.eq_of_toInt_eq
  rw [BitVec.toInt_mul, BitVec.toInt_signExtend_of_le (by omega), BitVec.toInt_ofInt]
  have : (BitVec.ofNat 64 (2 ^ sz.toNat)).toInt = ((2 ^ sz.toNat : Nat) : Int) := by
    have := sz.isLt
    interval_cases h : sz.toNat <;> rfl
  rw [this]

/-- A number of n bytes. -/
theorem ofBytes_lt (bs : List Byte) : ofBytes bs < 2^(8 * bs.length) := by
  induction bs with
  | nil => simp [ofBytes]
  | cons b bs ih => simp only [ofBytes, List.length_cons]; have := b.isLt; rw [Nat.mul_add, pow_add]; omega

/-- Byte i of the number that bytes make. -/
theorem extractByte_ofBytes (bs : List Byte) (i : Nat) (h : i < bs.length) (hl : bs.length ≤ 8) :
    (BitVec.ofNat 64 (ofBytes bs)).extractLsb' (8*i) 8 = bs[i] := by
  apply BitVec.eq_of_toNat_eq
  have h1 := ofBytes_lt bs
  have h2 : (2:Nat)^(8 * bs.length) ≤ 2^64 := Nat.pow_le_pow_right (by omega) (by omega)
  simp only [BitVec.extractLsb'_toNat, BitVec.toNat_ofNat, Nat.shiftRight_eq_div_pow]
  rw [Nat.mod_eq_of_lt (by omega : ofBytes bs < 2^64)]
  clear h1 h2 hl
  induction bs generalizing i with
  | nil => simp at h
  | cons b bs ih =>
    cases i with
    | zero => simp [ofBytes]; have := b.isLt; omega
    | succ i =>
      simp only [ofBytes, List.getElem_cons_succ]
      rw [← ih i (by simpa using h)]
      have := b.isLt
      rw [Nat.mul_add, pow_add, Nat.mul_comm (2^(8*i)), ← Nat.div_div_eq_div_mul]
      congr 2
      omega

theorem toBytes_length : ∀ n v, (toBytes n v).length = n := by
  intro n; induction n with
  | zero => intro v; rfl
  | succ n ih => intro v; simp [toBytes, ih]

theorem toBytes_getElem : ∀ n v i, i < n → (toBytes n v)[i]? = some (BitVec.ofNat 8 (v / 2^(8*i))) := by
  intro n; induction n with
  | zero => intro v i h; omega
  | succ n ih => intro v i h; cases i with
    | zero => simp [toBytes]
    | succ i => simp [toBytes]; rw [ih _ i (by omega), Nat.div_div_eq_div_mul]; congr 3; rw [Nat.mul_add, pow_add]; norm_num; ring

/-- The signed reading of a number of w bits. -/
theorem asInt_eq_toInt (w u : Nat) (hw : 0 < w) : asInt w u = (BitVec.ofNat w u).toInt := by
  unfold asInt
  rw [BitVec.toInt_eq_toNat_cond, BitVec.toNat_ofNat]
  have : 2 ^ w = 2 * 2 ^ (w-1) := by rw [← pow_succ']; congr 1; omega
  split <;> split <;> omega

/-- An access has at most eight bytes. -/
theorem accessBytes_le (sz : BitVec 2) : 2^sz.toNat ≤ 8 := by
  have := sz.isLt; interval_cases h : sz.toNat <;> simp

theorem Memory.read_length (m : Memory) : ∀ n a, (m.read a n).length = n := by
  intro n; induction n with
  | zero => intro a; rfl
  | succ n ih => intro a; simp [Memory.read, ih]

theorem Memory.read_getElem (m : Memory) : ∀ n a i, i < n → (m.read a n)[i]? = some (m.get (a+i)) := by
  intro n; induction n with
  | zero => intro a i h; omega
  | succ n ih => intro a i h; cases i with
    | zero => simp [Memory.read]
    | succ i => simp [Memory.read]; rw [ih (a+1) i (by omega)]; congr 2; omega

/-- A byte after the write of one. -/
theorem Memory.get_set (m : Memory) (a b : Nat) (v : Byte) : (m.set a v).get b = if b = a then v else m.get b := by
  have del : ∀ (m : Memory) , amGet (amDel m a) b Memory.blankByte = if b = a then Memory.blankByte else amGet m b Memory.blankByte := by
    intro m
    induction m with
    | nil => simp [amDel, amGet, amGet?]
    | cons c m ih =>
      obtain ⟨k, w⟩ := c
      unfold amDel
      split
      · rename_i h; subst h; rw [ih]; split
        · rfl
        · rename_i h; simp [amGet, amGet?, Ne.symm h]
      · rename_i h
        simp only [amGet, amGet?] at ih ⊢
        split
        · rename_i h2; subst h2; simp [h]
        · exact ih
  unfold Memory.set
  split
  · rename_i h; rw [h]; exact del m
  · split
    · rename_i h; rw [h]; exact amGet_amPut_same _ _ _ _
    · rename_i h; exact amGet_amPut_other _ _ _ _ _ h

/-- A byte after the write of several. -/
theorem Memory.get_write : ∀ (bs : List Byte) (m : Memory) (a b : Nat),
    (m.write a bs).get b = if a ≤ b ∧ b < a + bs.length then bs.getD (b - a) 0 else m.get b := by
  intro bs
  induction bs with
  | nil => intro m a b; simp [Memory.write]
  | cons v bs ih =>
    intro m a b
    rw [Memory.write, ih, Memory.get_set]
    simp only [List.length_cons]
    by_cases h1 : b = a
    · subst h1; simp
    · by_cases h2 : a + 1 ≤ b ∧ b < a + 1 + bs.length
      · rw [if_pos h2, if_pos (by omega)]
        have : b - a = (b - (a+1)) + 1 := by omega
        rw [this]; simp
      · rw [if_neg h2, if_neg h1, if_neg (by omega)]

/-- The memories after a store: only the one that is written changes. -/
theorem State.storeMem_mem (s : State) (sp q a bs) : (s.storeMem sp a bs).mem q = if q = sp then (s.mem sp).write a bs else s.mem q := by
  unfold State.storeMem
  generalize List.filter _ _ = l
  have h : ∀ q, (l.foldl (fun s line => s.clearMark sp line) s).mem q = s.mem q := by
    intro q
    induction l generalizing s with
    | nil => rfl
    | cons x l ih => rw [List.foldl_cons, ih]; cases q <;> rfl
  unfold State.writeMem
  dsimp only
  by_cases hq : q = sp
  · subst hq; rw [if_pos rfl, h]; cases q <;> rfl
  · rw [if_neg hq, ← h q]; cases q <;> cases sp <;> first | rfl | (exact absurd rfl hq)

/-- A line without a mark reads clean. -/
theorem checkLine_unmarked (s : State) (sp l) (h : s.markOf sp l = none) : s.checkLine sp l = (s, none) := by simp [State.checkLine, h]

/-- Lines without a mark read clean, one after the other. -/
theorem checkLines_unmarked (sp : Space) : ∀ (ls : List Nat) (s : State), (ls.all fun l => s.markOf sp l == none) = true →
    ls.foldl (init := (s, (none : Option Nat))) (fun (acc : State × Option Nat) line =>
    let (s', c) := acc.1.checkLine sp line
    (s', acc.2.or c)) = (s, none) := by
  intro ls s h
  induction ls with
  | nil => rfl
  | cons l ls ih => simp at h ih; simp [checkLine_unmarked _ _ _ h.1]; exact ih h.2

/-- Where firmware holds no mask, a read spends none. -/
theorem spendMasks_none (s : State) (sp a n) (h : s.masks = []) : s.spendMasks sp a n = s := by simp [State.spendMasks, h]

/-- A read over lines without a mark gives the bytes, and reports nothing. -/
theorem checkedRead_unmarked (s : State) (sp a n) (hm : s.masks = []) (h : ((linesOf a n).all fun l => s.markOf sp l == none) = true) :
    s.checkedRead sp a n = (s, s.readMem sp a n, none) := by
  simp [State.checkedRead, spendMasks_none s sp a n hm]; have := checkLines_unmarked sp _ _ h; simp at this; rw [this]; simp

theorem mergeHeld_length (sp held) : ∀ (bs : List Byte) a, (mergeHeld sp held a bs).length = bs.length := by
  intro bs; induction bs with
  | nil => intro a; rfl
  | cons b bs ih => intro a; simp [mergeHeld, ih]

/-- A byte that the core still holds back stands before the one in memory (R230). -/
theorem mergeHeld_getElem (sp held) : ∀ (bs : List Byte) a i (h : i < bs.length),
    (mergeHeld sp held a bs)[i]? = some ((heldByte sp (a+i) held).getD bs[i]) := by
  intro bs; induction bs with
  | nil => intro a i h; simp at h
  | cons b bs ih =>
    intro a i h
    cases i with
    | zero => simp [mergeHeld]
    | succ i => simp [mergeHeld]; rw [ih (a+1) i (by simpa using h)]; congr 3; omega

/-- With no group to deliver nothing happens. -/
theorem deliver_of_none (s : State) (p : SGroup → Bool) (h : s.groups.any p = false) : s.deliver p = s := by
  unfold State.deliver
  have e : s.groups.filter p = [] := by simp at h ⊢; intro a ha; simp [h a ha]
  have e2 : s.groups.filter (fun g => !p g) = s.groups := by simp at h ⊢; intro a ha; simp [h a ha]
  simp only [e, e2]; rfl

/-- An access to a slice without a group of its own to deliver moves nothing. -/
theorem settleSlice_settled (s : State) (sp x) (hd : s.Settled sp x) : s.settleSlice sp x = s := by
  unfold State.settleSlice
  split
  · rename_i h
    simp only [State.Settled, h, Bool.true_and, Bool.or_eq_false_iff, Bool.and_eq_false_iff, Bool.not_eq_false'] at hd
    rw [deliver_of_none _ _ hd.1]
    rcases hd.2 with h2 | h2
    · simp [State.sliceRequest, h2]
    · have hn : (s.groups.find? fun g => foldOf g.cell == foldOf s.curCore && g.slice == sliceOfAddr x) = none := by
        simpa [List.find?_eq_none, List.any_eq_false] using h2
      simp only [State.sliceRequest, hn, ite_self]
  · rfl

/-- What a load brings: the bytes of memory, those that the core still holds back before them. -/
theorem loadBytes_readsWell (s : State) (sp x n) (hr : s.ReadsWell sp x n) (hd : s.Settled sp x) :
   ∃ bs, loadBytes s sp x n = (s, bs, none) ∧ bs.length = n ∧
      ∀ i, i < n → bs[i]? = some ((heldByte sp (x+i) s.core.firing.held).getD ((s.mem sp).get (x+i))) := by
  unfold loadBytes
  have e1 : s.settleSlice sp x = s := settleSlice_settled s sp x hd
  have e2 : s.spendStoreInjection sp = s := by
    unfold State.spendStoreInjection
    simp only [hr.2.1, Bool.and_false, Bool.false_eq_true, if_false]
  simp only [e1, e2]
  split
  · rename_i h
    refine ⟨_, rfl, by simp [mergeHeld_length], ?_⟩
    intro i hi
    rw [mergeHeld_getElem _ _ _ _ _ (by simpa using hi)]
    simp at h
    have := h i hi
    cases hq : heldByte sp (x+i) s.core.firing.held <;> simp_all
  · rw [checkedRead_unmarked _ _ _ _ hr.2.2 hr.1]
    refine ⟨_, rfl, by simp [mergeHeld_length, State.readMem, Memory.read_length], ?_⟩
    intro i hi
    rw [mergeHeld_getElem _ _ _ _ _ (by simpa [State.readMem, Memory.read_length] using hi)]
    congr 2
    have := Memory.read_getElem (s.mem sp) n x i hi
    have h2 : i < (Memory.read (s.mem sp) x n).length := by simpa [Memory.read_length]
    rw [List.getElem?_eq_getElem h2] at this
    exact Option.some.inj this

/-- What a load leaves in its register. -/
theorem loadInto_readsWell (s : State) (sp d ea x n) (hn : n ≤ 8) (hr : s.ReadsWell sp x n) (hd : s.Settled sp x) :
   ∃ v : DWord, loadInto s sp d ea x n = .done (s.setCore (s.core.setReg d v)) ∧ v.toNat < 2^(8*n) ∧ 
     ∀ i, i < n → v.extractLsb' (8 * i) 8 = (heldByte sp (x + i) s.core.firing.held).getD ((s.mem sp).get (x + i)) := by
  obtain ⟨bs, hb, hl, hg⟩ := loadBytes_readsWell s sp x n hr hd
  refine ⟨BitVec.ofNat 64 (ofBytes bs), by simp [loadInto, hb], ?_, ?_⟩
  · rw [BitVec.toNat_ofNat]; have := ofBytes_lt bs; rw [hl] at this; exact lt_of_le_of_lt (Nat.mod_le _ _) this
  · intro i hi
    rw [extractByte_ofBytes bs i (by omega) (by omega)]
    have := hg i hi
    rw [List.getElem?_eq_getElem (by omega)] at this
    exact Option.some.inj this

end Sys2Proof.Machine
end

