-- ==== Sys2Proof/Laws/PerInstr.lean ====
section
/-!
SUPPORT. Said of every instruction: a word of one kind is no word of the other, and an S-word fixes no bits of an E-word's layout.
-/

namespace Sys2Proof.Laws.OneWord

/-- An instruction that has an S-word has no E-word, and no E-word's layout binds it. -/
def Statement (i : Sys2Proof.Instr) : Prop :=
  (Sys2Proof.encodeS i).isSome = true → Sys2Proof.encodeE i = none ∧ Sys2Proof.Instr.layout i = true

theorem add (d a b : RegNum) (g : Guard) : Statement (.add d a b g) := fun _ => ⟨rfl, rfl⟩
theorem sub (d a b : RegNum) (g : Guard) : Statement (.sub d a b g) := fun _ => ⟨rfl, rfl⟩
theorem and (d a b : RegNum) (g : Guard) : Statement (.and d a b g) := fun _ => ⟨rfl, rfl⟩
theorem or (d a b : RegNum) (g : Guard) : Statement (.or d a b g) := fun _ => ⟨rfl, rfl⟩
theorem xor (d a b : RegNum) (g : Guard) : Statement (.xor d a b g) := fun _ => ⟨rfl, rfl⟩
theorem andn (d a b : RegNum) (g : Guard) : Statement (.andn d a b g) := fun _ => ⟨rfl, rfl⟩
theorem shl (d a b : RegNum) (g : Guard) : Statement (.shl d a b g) := fun _ => ⟨rfl, rfl⟩
theorem shr (d a b : RegNum) (g : Guard) : Statement (.shr d a b g) := fun _ => ⟨rfl, rfl⟩
theorem sra (d a b : RegNum) (g : Guard) : Statement (.sra d a b g) := fun _ => ⟨rfl, rfl⟩
theorem rol (d a b : RegNum) (g : Guard) : Statement (.rol d a b g) := fun _ => ⟨rfl, rfl⟩
theorem ror (d a b : RegNum) (g : Guard) : Statement (.ror d a b g) := fun _ => ⟨rfl, rfl⟩
theorem min (d a b : RegNum) (g : Guard) : Statement (.min d a b g) := fun _ => ⟨rfl, rfl⟩
theorem max (d a b : RegNum) (g : Guard) : Statement (.max d a b g) := fun _ => ⟨rfl, rfl⟩
theorem minn (d a b : RegNum) (g : Guard) : Statement (.minn d a b g) := fun _ => ⟨rfl, rfl⟩
theorem maxn (d a b : RegNum) (g : Guard) : Statement (.maxn d a b g) := fun _ => ⟨rfl, rfl⟩
theorem sel (d a b : RegNum) (g : Guard) : Statement (.sel d a b g) := fun _ => ⟨rfl, rfl⟩
theorem clz (d a : RegNum) (g : Guard) : Statement (.clz d a g) := fun _ => ⟨rfl, rfl⟩
theorem ctz (d a : RegNum) (g : Guard) : Statement (.ctz d a g) := fun _ => ⟨rfl, rfl⟩
theorem popc (d a : RegNum) (g : Guard) : Statement (.popc d a g) := fun _ => ⟨rfl, rfl⟩
theorem sext8 (d a : RegNum) (g : Guard) : Statement (.sext8 d a g) := fun _ => ⟨rfl, rfl⟩
theorem sext16 (d a : RegNum) (g : Guard) : Statement (.sext16 d a g) := fun _ => ⟨rfl, rfl⟩
theorem sext32 (d a : RegNum) (g : Guard) : Statement (.sext32 d a g) := fun _ => ⟨rfl, rfl⟩
theorem zext8 (d a : RegNum) (g : Guard) : Statement (.zext8 d a g) := fun _ => ⟨rfl, rfl⟩
theorem zext16 (d a : RegNum) (g : Guard) : Statement (.zext16 d a g) := fun _ => ⟨rfl, rfl⟩
theorem zext32 (d a : RegNum) (g : Guard) : Statement (.zext32 d a g) := fun _ => ⟨rfl, rfl⟩
theorem mov (d a : RegNum) (g : Guard) : Statement (.mov d a g) := fun _ => ⟨rfl, rfl⟩
theorem abs (d a : RegNum) (g : Guard) : Statement (.abs d a g) := fun _ => ⟨rfl, rfl⟩
theorem neg (d a : RegNum) (g : Guard) : Statement (.neg d a g) := fun _ => ⟨rfl, rfl⟩
theorem addw (d a b : RegNum) (g : Guard) : Statement (.addw d a b g) := fun _ => ⟨rfl, rfl⟩
theorem subw (d a b : RegNum) (g : Guard) : Statement (.subw d a b g) := fun _ => ⟨rfl, rfl⟩
theorem mul (d a b : RegNum) (g : Guard) : Statement (.mul d a b g) := fun _ => ⟨rfl, rfl⟩
theorem mulh (d a b : RegNum) (g : Guard) : Statement (.mulh d a b g) := fun _ => ⟨rfl, rfl⟩
theorem mulhn (d a b : RegNum) (g : Guard) : Statement (.mulhn d a b g) := fun _ => ⟨rfl, rfl⟩
theorem div (d a b : RegNum) (g : Guard) : Statement (.div d a b g) := fun _ => ⟨rfl, rfl⟩
theorem divn (d a b : RegNum) (g : Guard) : Statement (.divn d a b g) := fun _ => ⟨rfl, rfl⟩
theorem rem (d a b : RegNum) (g : Guard) : Statement (.rem d a b g) := fun _ => ⟨rfl, rfl⟩
theorem remn (d a b : RegNum) (g : Guard) : Statement (.remn d a b g) := fun _ => ⟨rfl, rfl⟩
theorem mulw (d a b : RegNum) (g : Guard) : Statement (.mulw d a b g) := fun _ => ⟨rfl, rfl⟩
theorem cmp (c : Cond) (pd : PredNum) (a b : RegNum) (g : Guard) : Statement (.cmp c pd a b g) := fun _ => ⟨rfl, rfl⟩
theorem cmpi (c : CondI) (pd : PredNum) (a : RegNum) (imm : BitVec 12) (g : Guard) : Statement (.cmpi c pd a imm g) := fun _ => ⟨rfl, rfl⟩
theorem pand (pd pa pb : PredNum) (g : Guard) : Statement (.pand pd pa pb g) := fun _ => ⟨rfl, rfl⟩
theorem por (pd pa pb : PredNum) (g : Guard) : Statement (.por pd pa pb g) := fun _ => ⟨rfl, rfl⟩
theorem pxor (pd pa pb : PredNum) (g : Guard) : Statement (.pxor pd pa pb g) := fun _ => ⟨rfl, rfl⟩
theorem pandn (pd pa pb : PredNum) (g : Guard) : Statement (.pandn pd pa pb g) := fun _ => ⟨rfl, rfl⟩
theorem pnot (pd pa : PredNum) (g : Guard) : Statement (.pnot pd pa g) := fun _ => ⟨rfl, rfl⟩
theorem pmov (pd pa : PredNum) (g : Guard) : Statement (.pmov pd pa g) := fun _ => ⟨rfl, rfl⟩
theorem pset (pd : PredNum) (g : Guard) : Statement (.pset pd g) := fun _ => ⟨rfl, rfl⟩
theorem pclr (pd : PredNum) (g : Guard) : Statement (.pclr pd g) := fun _ => ⟨rfl, rfl⟩
theorem addi (d a : RegNum) (imm : BitVec 12) (g : Guard) : Statement (.addi d a imm g) := fun _ => ⟨rfl, rfl⟩
theorem andi (d a : RegNum) (imm : BitVec 12) (g : Guard) : Statement (.andi d a imm g) := fun _ => ⟨rfl, rfl⟩
theorem ori (d a : RegNum) (imm : BitVec 12) (g : Guard) : Statement (.ori d a imm g) := fun _ => ⟨rfl, rfl⟩
theorem xori (d a : RegNum) (imm : BitVec 12) (g : Guard) : Statement (.xori d a imm g) := fun _ => ⟨rfl, rfl⟩
theorem shli (d a : RegNum) (imm : BitVec 12) (g : Guard) : Statement (.shli d a imm g) := fun _ => ⟨rfl, rfl⟩
theorem shri (d a : RegNum) (imm : BitVec 12) (g : Guard) : Statement (.shri d a imm g) := fun _ => ⟨rfl, rfl⟩
theorem srai (d a : RegNum) (imm : BitVec 12) (g : Guard) : Statement (.srai d a imm g) := fun _ => ⟨rfl, rfl⟩
theorem muli (d a : RegNum) (imm : BitVec 12) (g : Guard) : Statement (.muli d a imm g) := fun _ => ⟨rfl, rfl⟩
theorem li (d : RegNum) (imm : BitVec 21) : Statement (.li d imm) := fun _ => ⟨rfl, rfl⟩
theorem lui (d : RegNum) (imm : BitVec 21) : Statement (.lui d imm) := fun _ => ⟨rfl, rfl⟩
theorem luih (d : RegNum) (imm : BitVec 21) : Statement (.luih d imm) := fun _ => ⟨rfl, rfl⟩
theorem ldl (d a : RegNum) (sz : BitVec 2) (off : BitVec 10) (g : Guard) : Statement (.ldl d a sz off g) := fun _ => ⟨rfl, rfl⟩
theorem stl (d a : RegNum) (sz : BitVec 2) (off : BitVec 10) (g : Guard) : Statement (.stl d a sz off g) := fun _ => ⟨rfl, rfl⟩
theorem ldf (d a : RegNum) (sz : BitVec 2) (off : BitVec 10) (g : Guard) : Statement (.ldf d a sz off g) := fun _ => ⟨rfl, rfl⟩
theorem stf (d a : RegNum) (sz : BitVec 2) (off : BitVec 10) (g : Guard) : Statement (.stf d a sz off g) := fun _ => ⟨rfl, rfl⟩
theorem lds (d a : RegNum) (sz : BitVec 2) (off : BitVec 10) (g : Guard) : Statement (.lds d a sz off g) := fun _ => ⟨rfl, rfl⟩
theorem sts (d a : RegNum) (sz : BitVec 2) (off : BitVec 10) (g : Guard) : Statement (.sts d a sz off g) := fun _ => ⟨rfl, rfl⟩
theorem amof (op : AmoOp) (d a : RegNum) (dbl : Bool) (off : BitVec 6) (g : Guard) : Statement (.amof op d a dbl off g) := fun _ => ⟨rfl, rfl⟩
theorem amos (op : AmoOp) (d a : RegNum) (dbl : Bool) (off : BitVec 6) (g : Guard) : Statement (.amos op d a dbl off g) := fun _ => ⟨rfl, rfl⟩
theorem fence (k : FenceKind) (spaces : BitVec 5) (sc : Scope) (g : Guard) : Statement (.fence k spaces sc g) := fun _ => ⟨rfl, rfl⟩
theorem br (off : BitVec 22) (g : Guard) : Statement (.br off g) := fun _ => ⟨rfl, rfl⟩
theorem jal (d : RegNum) (off : BitVec 21) : Statement (.jal d off) := fun _ => ⟨rfl, rfl⟩
theorem jr (d a : RegNum) (g : Guard) : Statement (.jr d a g) := fun _ => ⟨rfl, rfl⟩
theorem loopn (a : RegNum) (len : BitVec 12) (g : Guard) : Statement (.loopn a len g) := fun _ => ⟨rfl, rfl⟩
theorem advp (b : BitVec 4) (count : BitVec 8) (g : Guard) : Statement (.advp b count g) := fun _ => ⟨rfl, rfl⟩
theorem advc (b : BitVec 4) (count : BitVec 8) (g : Guard) : Statement (.advc b count g) := fun _ => ⟨rfl, rfl⟩
theorem cbrd (d a : RegNum) (sz : BitVec 2) (b : BitVec 4) (slot : BitVec 6) (g : Guard) : Statement (.cbrd d a sz b slot g) := fun _ => ⟨rfl, rfl⟩
theorem cbwr (d a : RegNum) (sz : BitVec 2) (b : BitVec 4) (slot : BitVec 6) (g : Guard) : Statement (.cbwr d a sz b slot g) := fun _ => ⟨rfl, rfl⟩
theorem send (cls : BitVec 3) (a b : RegNum) (g : Guard) : Statement (.send cls a b g) := fun _ => ⟨rfl, rfl⟩
theorem bind (cls : BitVec 3) (h : BitVec 4) (g : Guard) : Statement (.bind cls h g) := fun _ => ⟨rfl, rfl⟩
theorem hmask (m : BitVec 8) (g : Guard) : Statement (.hmask m g) := fun _ => ⟨rfl, rfl⟩
theorem hunmask (m : BitVec 8) (g : Guard) : Statement (.hunmask m g) := fun _ => ⟨rfl, rfl⟩
theorem taga (d : RegNum) (space : BitVec 4) (g : Guard) : Statement (.taga d space g) := fun _ => ⟨rfl, rfl⟩
theorem tagf (d : RegNum) (space : BitVec 4) (g : Guard) : Statement (.tagf d space g) := fun _ => ⟨rfl, rfl⟩
theorem cpy (q : BitVec 4) (a b : RegNum) (clr : Bool) (g : Guard) : Statement (.cpy q a b clr g) := fun _ => ⟨rfl, rfl⟩
theorem gath (q : BitVec 4) (a b : RegNum) (g : Guard) : Statement (.gath q a b g) := fun _ => ⟨rfl, rfl⟩
theorem scat (q : BitVec 4) (a b : RegNum) (g : Guard) : Statement (.scat q a b g) := fun _ => ⟨rfl, rfl⟩
theorem coll (q : BitVec 4) (a b : RegNum) (op : CollOp) (g : Guard) : Statement (.coll q a b op g) := fun _ => ⟨rfl, rfl⟩
theorem qfence (q : BitVec 4) (m : BitVec 8) (g : Guard) : Statement (.qfence q m g) := fun _ => ⟨rfl, rfl⟩
theorem siginc (q : BitVec 4) (a b : RegNum) (g : Guard) : Statement (.siginc q a b g) := fun _ => ⟨rfl, rfl⟩
theorem sigdec (q : BitVec 4) (a b : RegNum) (g : Guard) : Statement (.sigdec q a b g) := fun _ => ⟨rfl, rfl⟩
theorem sigset (q : BitVec 4) (a b : RegNum) (g : Guard) : Statement (.sigset q a b g) := fun _ => ⟨rfl, rfl⟩
theorem tset (a b : RegNum) (g : Guard) : Statement (.tset a b g) := fun _ => ⟨rfl, rfl⟩
theorem tqry (a b : RegNum) (g : Guard) : Statement (.tqry a b g) := fun _ => ⟨rfl, rfl⟩
theorem cfgld (entry : BitVec 4) (a b : RegNum) (row : BitVec 4) (g : Guard) : Statement (.cfgld entry a b row g) := fun _ => ⟨rfl, rfl⟩
theorem seed (k : BitVec 4) (a : RegNum) (g : Guard) : Statement (.seed k a g) := fun _ => ⟨rfl, rfl⟩
theorem enq (q : BitVec 4) (a b : RegNum) (g : Guard) : Statement (.enq q a b g) := fun _ => ⟨rfl, rfl⟩
theorem commit (a : RegNum) (g : Guard) : Statement (.commit a g) := fun _ => ⟨rfl, rfl⟩
theorem mfs (d : RegNum) (idx : BitVec 12) (g : Guard) : Statement (.mfs d idx g) := fun _ => ⟨rfl, rfl⟩
theorem mts (idx : BitVec 12) (a : RegNum) (g : Guard) : Statement (.mts idx a g) := fun _ => ⟨rfl, rfl⟩
theorem sysc (d : RegNum) (svc : BitVec 12) (g : Guard) : Statement (.sysc d svc g) := fun _ => ⟨rfl, rfl⟩
theorem trap (d : RegNum) (code : BitVec 12) (g : Guard) : Statement (.trap d code g) := fun _ => ⟨rfl, rfl⟩
theorem brk (code : BitVec 12) (g : Guard) : Statement (.brk code g) := fun _ => ⟨rfl, rfl⟩
theorem fin (g : Guard) : Statement (.fin g) := fun _ => ⟨rfl, rfl⟩
theorem ckpt (g : Guard) : Statement (.ckpt g) := fun _ => ⟨rfl, rfl⟩
theorem halt (g : Guard) : Statement (.halt g) := fun _ => ⟨rfl, rfl⟩
theorem vadd (e : EW) : Statement (.vadd e) := fun h => nomatch h
theorem vsub (e : EW) : Statement (.vsub e) := fun h => nomatch h
theorem vmul (e : EW) : Statement (.vmul e) := fun h => nomatch h
theorem vmac (e : EW) : Statement (.vmac e) := fun h => nomatch h
theorem vfmak (e : EW) : Statement (.vfmak e) := fun h => nomatch h
theorem vmin (e : EW) : Statement (.vmin e) := fun h => nomatch h
theorem vmax (e : EW) : Statement (.vmax e) := fun h => nomatch h
theorem vabs (e : EW) : Statement (.vabs e) := fun h => nomatch h
theorem vneg (e : EW) : Statement (.vneg e) := fun h => nomatch h
theorem vrcp (e : EW) : Statement (.vrcp e) := fun h => nomatch h
theorem vrsq (e : EW) : Statement (.vrsq e) := fun h => nomatch h
theorem vsqrt (e : EW) : Statement (.vsqrt e) := fun h => nomatch h
theorem vdiv (e : EW) : Statement (.vdiv e) := fun h => nomatch h
theorem vexp2 (e : EW) : Statement (.vexp2 e) := fun h => nomatch h
theorem vlog2 (e : EW) : Statement (.vlog2 e) := fun h => nomatch h
theorem vtanh (e : EW) : Statement (.vtanh e) := fun h => nomatch h
theorem vsig (e : EW) : Statement (.vsig e) := fun h => nomatch h
theorem vcvt (e : EW) : Statement (.vcvt e) := fun h => nomatch h
theorem vround (e : EW) : Statement (.vround e) := fun h => nomatch h
theorem vclass (e : EW) : Statement (.vclass e) := fun h => nomatch h
theorem viadd (e : EW) : Statement (.viadd e) := fun h => nomatch h
theorem visub (e : EW) : Statement (.visub e) := fun h => nomatch h
theorem vimul (e : EW) : Statement (.vimul e) := fun h => nomatch h
theorem vimac (e : EW) : Statement (.vimac e) := fun h => nomatch h
theorem vshl (e : EW) : Statement (.vshl e) := fun h => nomatch h
theorem vshr (e : EW) : Statement (.vshr e) := fun h => nomatch h
theorem vsra (e : EW) : Statement (.vsra e) := fun h => nomatch h
theorem vand (e : EW) : Statement (.vand e) := fun h => nomatch h
theorem vor (e : EW) : Statement (.vor e) := fun h => nomatch h
theorem vxor (e : EW) : Statement (.vxor e) := fun h => nomatch h
theorem vimin (e : EW) : Statement (.vimin e) := fun h => nomatch h
theorem vimax (e : EW) : Statement (.vimax e) := fun h => nomatch h
theorem vclz (e : EW) : Statement (.vclz e) := fun h => nomatch h
theorem vpopc (e : EW) : Statement (.vpopc e) := fun h => nomatch h
theorem viabs (e : EW) : Statement (.viabs e) := fun h => nomatch h
theorem vmulh (e : EW) : Statement (.vmulh e) := fun h => nomatch h
theorem vcmp (e : EW) : Statement (.vcmp e) := fun h => nomatch h
theorem vsel (e : EW) : Statement (.vsel e) := fun h => nomatch h
theorem steer (e : EW) : Statement (.steer e) := fun h => nomatch h
theorem merge (e : EW) : Statement (.merge e) := fun h => nomatch h
theorem compact (e : EW) : Statement (.compact e) := fun h => nomatch h
theorem expand (e : EW) : Statement (.expand e) := fun h => nomatch h
theorem vmask (e : EW) : Statement (.vmask e) := fun h => nomatch h
theorem vany (e : EW) : Statement (.vany e) := fun h => nomatch h
theorem vperm (e : EW) : Statement (.vperm e) := fun h => nomatch h
theorem vbcast (e : EW) : Statement (.vbcast e) := fun h => nomatch h
theorem vrev (e : EW) : Statement (.vrev e) := fun h => nomatch h
theorem vextr (e : EW) : Statement (.vextr e) := fun h => nomatch h
theorem vins (e : EW) : Statement (.vins e) := fun h => nomatch h
theorem zip (e : EW) : Statement (.zip e) := fun h => nomatch h
theorem unzip (e : EW) : Statement (.unzip e) := fun h => nomatch h
theorem vlshift (e : EW) : Statement (.vlshift e) := fun h => nomatch h
theorem vred (e : EW) : Statement (.vred e) := fun h => nomatch h
theorem rsend (e : EW) : Statement (.rsend e) := fun h => nomatch h
theorem scan (e : EW) : Statement (.scan e) := fun h => nomatch h
theorem lrec (e : EW) : Statement (.lrec e) := fun h => nomatch h
theorem ema (e : EW) : Statement (.ema e) := fun h => nomatch h
theorem fir (e : EW) : Statement (.fir e) := fun h => nomatch h
theorem segset (e : EW) : Statement (.segset e) := fun h => nomatch h
theorem carry (e : EW) : Statement (.carry e) := fun h => nomatch h
theorem span (e : EW) : Statement (.span e) := fun h => nomatch h
theorem split (e : EW) : Statement (.split e) := fun h => nomatch h
theorem delay (e : EW) : Statement (.delay e) := fun h => nomatch h
theorem window (e : EW) : Statement (.window e) := fun h => nomatch h
theorem close (e : EW) : Statement (.close e) := fun h => nomatch h
theorem spanq (e : EW) : Statement (.spanq e) := fun h => nomatch h
theorem coalesce (e : EW) : Statement (.coalesce e) := fun h => nomatch h
theorem mma (m : MatW) : Statement (.mma m) := fun h => nomatch h
theorem mmab (m : MatW) : Statement (.mmab m) := fun h => nomatch h
theorem mmaw (m : MatW) : Statement (.mmaw m) := fun h => nomatch h
theorem bmm4 (e : EW) : Statement (.bmm4 e) := fun h => nomatch h
theorem tclr (t : TileW) : Statement (.tclr t) := fun h => nomatch h
theorem tcvt (t : TileW) : Statement (.tcvt t) := fun h => nomatch h
theorem ttrn (t : TileW) : Statement (.ttrn t) := fun h => nomatch h
theorem trow (e : EW) : Statement (.trow e) := fun h => nomatch h
theorem tfill (t : TileW) : Statement (.tfill t) := fun h => nomatch h
theorem tear (e : EW) : Statement (.tear e) := fun h => nomatch h
theorem muster (e : EW) : Statement (.muster e) := fun h => nomatch h
theorem astr (e : EW) : Statement (.astr e) := fun h => nomatch h
theorem ldn (e : EW) : Statement (.ldn e) := fun h => nomatch h
theorem stn (e : EW) : Statement (.stn e) := fun h => nomatch h
theorem updn (e : EW) : Statement (.updn e) := fun h => nomatch h
theorem ldsc (e : EW) : Statement (.ldsc e) := fun h => nomatch h
theorem stsc (e : EW) : Statement (.stsc e) := fun h => nomatch h
theorem sbar (e : EW) : Statement (.sbar e) := fun h => nomatch h
theorem xlate (e : EW) : Statement (.xlate e) := fun h => nomatch h
theorem gate (e : EW) : Statement (.gate e) := fun h => nomatch h
theorem cand (e : EW) : Statement (.cand e) := fun h => nomatch h
theorem cor (e : EW) : Statement (.cor e) := fun h => nomatch h
theorem tokenArrival (u : Loc) (slot : Nat) (f : Fld) (t : Token) : Statement (.tokenArrival u slot f t) := fun h => nomatch h
theorem overflowReinject (pad : Nat) (u : Loc) (slot : Nat) : Statement (.overflowReinject pad u slot) := fun h => nomatch h
theorem commitTokenArrival (u : Loc) (slot : Nat) (f : Fld) (t : Token) : Statement (.commitTokenArrival u slot f t) := fun h => nomatch h
theorem seedTokenInject (pad : Nat) (seed : Nat) : Statement (.seedTokenInject pad seed) := fun h => nomatch h
theorem sinkRecord (pad : Nat) (sink : Nat) (t : Token) : Statement (.sinkRecord pad sink t) := fun h => nomatch h
theorem commitComplete (pad : Nat) : Statement (.commitComplete pad) := fun h => nomatch h
theorem externalPublish (pad : Nat) : Statement (.externalPublish pad) := fun h => nomatch h
theorem configCompleteWave (pad : Nat) (u : Loc) : Statement (.configCompleteWave pad u) := fun h => nomatch h
theorem triggerArrival (u : Loc) (cls : Nat) (t : Token) : Statement (.triggerArrival u cls t) := fun h => nomatch h
theorem handlerSelect (cell : Nat) : Statement (.handlerSelect cell) := fun h => nomatch h
theorem finPortRelease (cell : Nat) : Statement (.finPortRelease cell) := fun h => nomatch h
theorem firingRerun (cell : Nat) : Statement (.firingRerun cell) := fun h => nomatch h
theorem streamBarrierArrival (pad : Nat) (barrier : Nat) (member : Nat) (gen : Nat) : Statement (.streamBarrierArrival pad barrier member gen) := fun h => nomatch h
theorem reductionJoin (pad : Nat) (join : Nat) (side : Bool) (t : Token) : Statement (.reductionJoin pad join side t) := fun h => nomatch h
theorem switchTokenCheck (h : Hop) : Statement (.switchTokenCheck h) := fun h => nomatch h
theorem abortMark (pad : Nat) (u : Loc) : Statement (.abortMark pad u) := fun h => nomatch h
theorem configFetchDone (cell : Nat) : Statement (.configFetchDone cell) := fun h => nomatch h
theorem tileSwapDone (u : Loc) (tile : Nat) : Statement (.tileSwapDone u tile) := fun h => nomatch h
theorem cfgMiss (cell : Nat) : Statement (.cfgMiss cell) := fun h => nomatch h
theorem tagsExhausted (u : Loc) (h : Nat) : Statement (.tagsExhausted u h) := fun h => nomatch h
theorem musterTimeout (u : Loc) (slot : Nat) : Statement (.musterTimeout u slot) := fun h => nomatch h
theorem pageResponseSuccess (prg : Nat) : Statement (.pageResponseSuccess prg) := fun h => nomatch h
theorem pageResponseFailure (prg : Nat) : Statement (.pageResponseFailure prg) := fun h => nomatch h
theorem pageFaultTimeout (node : Nat) : Statement (.pageFaultTimeout node) := fun h => nomatch h
theorem atsInvalidation (ctx : Nat) (base len : Nat) : Statement (.atsInvalidation ctx base len) := fun h => nomatch h
theorem scRingToken (pad : Nat) (node : Nat) : Statement (.scRingToken pad node) := fun h => nomatch h
theorem nodeStoreVisible (node : Nat) (slot : Nat) : Statement (.nodeStoreVisible node slot) := fun h => nomatch h
theorem sliceReply (cell : Nat) (slice : Nat) : Statement (.sliceReply cell slice) := fun h => nomatch h
theorem engineOpStart (fold q : Nat) : Statement (.engineOpStart fold q) := fun h => nomatch h
theorem engineOpComplete (fold q : Nat) : Statement (.engineOpComplete fold q) := fun h => nomatch h
theorem enqAppend (fold q : Nat) : Statement (.enqAppend fold q) := fun h => nomatch h
theorem queueDoorbell (q : Nat) (wr : Nat) : Statement (.queueDoorbell q wr) := fun h => nomatch h
theorem queueRearm (q : Nat) : Statement (.queueRearm q) := fun h => nomatch h
theorem queuePrioWrite (q : Nat) (prio : Nat) : Statement (.queuePrioWrite q prio) := fun h => nomatch h
theorem paddockQuiesced (pad : Nat) : Statement (.paddockQuiesced pad) := fun h => nomatch h
theorem launchStart (q i : Nat) : Statement (.launchStart q i) := fun h => nomatch h
theorem barrierPacketStart (q i : Nat) : Statement (.barrierPacketStart q i) := fun h => nomatch h
theorem barrierReading (q i : Nat) : Statement (.barrierReading q i) := fun h => nomatch h
theorem signalPacketStart (q i : Nat) : Statement (.signalPacketStart q i) := fun h => nomatch h
theorem copyPacketStart (q i : Nat) : Statement (.copyPacketStart q i) := fun h => nomatch h
theorem fencePacketStart (q i : Nat) : Statement (.fencePacketStart q i) := fun h => nomatch h
theorem packetComplete (q i : Nat) (st : PktStatus) : Statement (.packetComplete q i st) := fun h => nomatch h
theorem paddockFault (pad : Nat) (f : FaultRec) : Statement (.paddockFault pad f) := fun h => nomatch h
theorem errorReport (r : ErrRep) : Statement (.errorReport r) := fun h => nomatch h
theorem testInterval (cell : Nat) : Statement (.testInterval cell) := fun h => nomatch h
theorem testDone (cell : Nat) (passed : Bool) : Statement (.testDone cell passed) := fun h => nomatch h
theorem fragmentReceive (src dst : Nat) (path : Nat) (f : Fragment) : Statement (.fragmentReceive src dst path f) := fun h => nomatch h
theorem decodeAck (src dst : Nat) (id : Nat) : Statement (.decodeAck src dst id) := fun h => nomatch h
theorem spoolTimeout (src dst : Nat) (id : Nat) : Statement (.spoolTimeout src dst id) := fun h => nomatch h
theorem replayRequest (src dst : Nat) (id : Nat) (attempt : Nat) : Statement (.replayRequest src dst id attempt) := fun h => nomatch h
theorem pathRecalibrated (link : Nat) (path : Nat) : Statement (.pathRecalibrated link path) := fun h => nomatch h
theorem droverSelection : Statement (.droverSelection) := fun h => nomatch h
theorem selectionPassTick : Statement (.selectionPassTick) := fun h => nomatch h
theorem memoryScrub : Statement (.memoryScrub) := fun h => nomatch h
theorem migrationStart : Statement (.migrationStart) := fun h => nomatch h
theorem migrationCopyDone : Statement (.migrationCopyDone) := fun h => nomatch h
theorem evict : Statement (.evict) := fun h => nomatch h
theorem heartbeatTimeout : Statement (.heartbeatTimeout) := fun h => nomatch h
theorem powerGood : Statement (.powerGood) := fun h => nomatch h
theorem bringupTimeout : Statement (.bringupTimeout) := fun h => nomatch h
theorem thermalThrottle : Statement (.thermalThrottle) := fun h => nomatch h
theorem thermalRestore : Statement (.thermalRestore) := fun h => nomatch h
theorem hostBar2Read : Statement (.hostBar2Read) := fun h => nomatch h
theorem hostBar2Write : Statement (.hostBar2Write) := fun h => nomatch h
theorem registerWrite : Statement (.registerWrite) := fun h => nomatch h
theorem ctxCreate : Statement (.ctxCreate) := fun h => nomatch h
theorem ctxKill : Statement (.ctxKill) := fun h => nomatch h
theorem queueBind : Statement (.queueBind) := fun h => nomatch h
theorem invalidate : Statement (.invalidate) := fun h => nomatch h
theorem mint : Statement (.mint) := fun h => nomatch h
theorem fwLoad : Statement (.fwLoad) := fun h => nomatch h
theorem logRead : Statement (.logRead) := fun h => nomatch h
theorem healthRead : Statement (.healthRead) := fun h => nomatch h
theorem fwActivate : Statement (.fwActivate) := fun h => nomatch h
theorem configSet : Statement (.configSet) := fun h => nomatch h
theorem countersRead : Statement (.countersRead) := fun h => nomatch h
theorem mailboxBadCode : Statement (.mailboxBadCode) := fun h => nomatch h
theorem getVersion : Statement (.getVersion) := fun h => nomatch h
theorem getCapabilities : Statement (.getCapabilities) := fun h => nomatch h
theorem negotiateAlgorithms : Statement (.negotiateAlgorithms) := fun h => nomatch h
theorem getDigests : Statement (.getDigests) := fun h => nomatch h
theorem getCertificate : Statement (.getCertificate) := fun h => nomatch h
theorem challenge : Statement (.challenge) := fun h => nomatch h
theorem getMeasurements : Statement (.getMeasurements) := fun h => nomatch h
theorem keyExchange : Statement (.keyExchange) := fun h => nomatch h
theorem finish : Statement (.finish) := fun h => nomatch h
theorem keyUpdate : Statement (.keyUpdate) := fun h => nomatch h
theorem heartbeat : Statement (.heartbeat) := fun h => nomatch h
theorem endSession : Statement (.endSession) := fun h => nomatch h
theorem ideKm : Statement (.ideKm) := fun h => nomatch h
theorem errmaskTest : Statement (.errmaskTest) := fun h => nomatch h
theorem errmaskHop : Statement (.errmaskHop) := fun h => nomatch h
theorem errmaskRoute : Statement (.errmaskRoute) := fun h => nomatch h
theorem errmaskStore : Statement (.errmaskStore) := fun h => nomatch h
theorem errmaskMatrix : Statement (.errmaskMatrix) := fun h => nomatch h
theorem errmaskVector : Statement (.errmaskVector) := fun h => nomatch h
theorem errmaskPred : Statement (.errmaskPred) := fun h => nomatch h
theorem errmaskScalar : Statement (.errmaskScalar) := fun h => nomatch h
theorem brkPoint : Statement (.brkPoint) := fun h => nomatch h
theorem stepFiring : Statement (.stepFiring) := fun h => nomatch h
theorem resume : Statement (.resume) := fun h => nomatch h
theorem injectSwap : Statement (.injectSwap) := fun h => nomatch h
theorem injectPreempt : Statement (.injectPreempt) := fun h => nomatch h
theorem injectDrop : Statement (.injectDrop) := fun h => nomatch h
theorem moduleReplace : Statement (.moduleReplace) := fun h => nomatch h
theorem coreRestart : Statement (.coreRestart) := fun h => nomatch h
theorem recalibrationStart : Statement (.recalibrationStart) := fun h => nomatch h

end Sys2Proof.Laws.OneWord
end

