-- ==== Sys2Proof/Laws/Slots.lean ====
section
/-!
SUPPORT. What a slot's firing can do, and what a lane-wise effect gives, said once.
-/

namespace Sys2Proof.Machine

/-! ## A firing -/

/-- No injection is armed: nothing is spent and nothing is reported. -/
theorem injection_none {s : State} {e : SlotEnv} (bit cause : Nat) (commit : Bool)
    (h : ∀ i, Loc.cell? e.loc = some i → (s.coreOf i).errmask.getLsbD bit = false) : s.injection e bit cause commit = (s, false) := by
  unfold State.injection
  split
  · rfl
  · rename_i i hi
    simp only [h i hi, Bool.false_eq_true, if_false]

/-- With no injection armed, bit 4 of its cell's ERRMASK is clear. -/
theorem armed_unarmed {s : State} {e : SlotEnv} (h : s.unarmed e = true) : s.armed e 4 = false := by
  unfold State.unarmed at h
  unfold State.armed
  split
  · rfl
  · rename_i i hi
    simp only [hi, Bool.and_eq_true, Bool.not_eq_true'] at h
    exact h.1.2

/-- A slot that fires runs its operation on the operands of its next choice, and is taken, or parks. -/
theorem runSlot_fires {s : State} {e : SlotEnv} {c : Choice} (body : SlotEnv → Fire → State → Eff) (h : s.Fires e c)
    (hb : ∀ s' outs, body e (s.firing e c) s = .done s' outs → s'.cores = s.cores) :
    runSlot s body = match body e (s.firing e c) s with
      | .park s' => .next (s'.park s.curLoc.key s.curSlot s.curTag)
      | .done s' outs => .next (s'.taken e s.curTag c.hi outs) := by
  obtain ⟨h1, h2, h3, h4, h5, h6, h7, h8, h9, h10⟩ := h
  unfold runSlot
  simp only [h1, h2, Bool.not_true, Bool.false_eq_true, if_false, h3, h4, h5, h6]
  have e7 : e.gateOpen (e.fire (s.getU s.curLoc.key).ctx s.curTag c) = true := h7
  have e10 : s.readTiles e (e.fire (s.getU s.curLoc.key).ctx s.curTag c) = s := by
    unfold State.readTiles; rw [if_pos h10]
  simp only [e7, h8, armed_unarmed h9, Bool.and_false, Bool.not_true, Bool.false_eq_true, if_false, e10]
  cases hx : body e (e.fire (s.getU s.curLoc.key).ctx s.curTag c) s with
  | park s' => rfl
  | done s' outs =>
    have hc : s'.cores = s.cores := hb s' outs hx
    have hi : ∀ bit, bit = 3 ∨ bit = 4 ∨ bit = 5 → ∀ i, Loc.cell? e.loc = some i → (s'.coreOf i).errmask.getLsbD bit = false := by
      intro bit hbit i hloc
      have : s'.coreOf i = s.coreOf i := by unfold State.coreOf; rw [hc]
      rw [this]
      unfold State.unarmed at h9
      simp only [hloc] at h9
      rw [Bool.and_eq_true, Bool.and_eq_true] at h9
      rcases hbit with rfl | rfl | rfl
      · simpa using h9.1.1
      · simpa using h9.1.2
      · simpa using h9.2
    simp only [injection_none 5 _ _ (hi 5 (by simp))]
    rw [injection_none _ _ _ (hi (if e.instr.isMatrix = true then 4 else 3) (by split <;> simp))]

/-- An operation without slot state puts out its one result. -/
theorem runLanes_fires {s : State} {e : SlotEnv} {c : Choice} (f : SlotEnv → Fire → LaneRes) (h : s.Fires e c) :
    runLanes s f = .next (s.emits e c (f e (s.firing e c))) :=
  runSlot_fires _ h (by intro s' outs hx; cases hx; rfl)

/-- A two-output operation puts out its two results. -/
theorem runTwo_fires {s : State} {e : SlotEnv} {c : Choice} (f : Fire → LaneRes × LaneRes) (h : s.Fires e c) :
    runTwo s f = .next (s.emitsTwo e c (f (s.firing e c)).1 (f (s.firing e c)).2) :=
  runSlot_fires _ h (by intro s' outs hx; cases hx; rfl)

/-! ## Masks -/

/-- Bit j of a number made of bits. -/
theorem foldr_bits_testBit (f : Nat → Bool) (l : List Nat) (j : Nat) :
    (l.foldr (fun i acc => b2n (f i) + 2 * acc) 0).testBit j = (l[j]?).any f := by
  induction l generalizing j with
  | nil => simp
  | cons a l ih =>
    have hd : (b2n (f a) + 2 * l.foldr (fun i acc => b2n (f i) + 2 * acc) 0) / 2 = l.foldr (fun i acc => b2n (f i) + 2 * acc) 0 := by
      cases f a <;> simp [b2n] <;> omega
    cases j with
    | zero => cases h : f a <;> simp [b2n, h, Nat.testBit_zero, Nat.add_mul_mod_self_left]
    | succ j => rw [List.foldr_cons, Nat.testBit_succ, hd, ih]; simp

theorem maskOf_getLsbD (f : Nat → Bool) (i : Nat) (h : i < 16) : (maskOf f).getLsbD i = f i := by
  unfold maskOf
  rw [BitVec.getLsbD_ofNat, foldr_bits_testBit]
  simp [h]

/-- An element of a formed result is valid where it was valid (R144). -/
theorem elValid_pairValid (w : Nat) (v : BitVec 16) (j : Nat) (hj : j < elCount w) : elValid w (pairValid w v) j = elValid w v j := by
  unfold pairValid
  by_cases h : w = 64
  · subst h
    have : j < 8 := hj
    simp only [elValid, beq_self_eq_true, if_true]
    rw [maskOf_getLsbD _ _ (by omega), maskOf_getLsbD _ _ (by omega)]
    have e1 : 2 * j / 2 = j := by omega
    have e2 : (2 * j + 1) / 2 = j := by omega
    rw [e1, e2]; simp [Bool.and_self]
  · simp [h]

/-- The one token that a firing puts out, from a state that the operation left. -/
theorem taken_one (s s' : State) (e : SlotEnv) (c : Choice) (t : Token) (h : s'.curTag = s.curTag) :
    s'.taken e s.curTag c.hi ((s.firing e c).one t) = s'.emitsTok e c t := by
  unfold State.emitsTok; rw [h]; rfl

/-! ## Elements of a payload -/

theorem foldr_pack_lt (w : Nat) (l : List Nat) : l.foldr (fun x acc => x % 2 ^ w + 2 ^ w * acc) 0 < 2 ^ (w * l.length) := by
  induction l with
  | nil => simp
  | cons x l ih =>
    simp only [List.foldr_cons, List.length_cons]
    have h1 : x % 2 ^ w < 2 ^ w := Nat.mod_lt _ (Nat.two_pow_pos w)
    have h2 : 2 ^ (w * (l.length + 1)) = 2 ^ w * 2 ^ (w * l.length) := by rw [Nat.mul_succ, Nat.pow_add, Nat.mul_comm]
    rw [h2]
    calc _ < 2 ^ w + 2 ^ w * l.foldr (fun x acc => x % 2 ^ w + 2 ^ w * acc) 0 := by omega
      _ = 2 ^ w * (l.foldr (fun x acc => x % 2 ^ w + 2 ^ w * acc) 0 + 1) := by rw [Nat.mul_succ, Nat.add_comm]
      _ ≤ _ := Nat.mul_le_mul_left _ ih

theorem foldr_pack_at (w : Nat) (l : List Nat) (j : Nat) (h : j < l.length) :
    l.foldr (fun x acc => x % 2 ^ w + 2 ^ w * acc) 0 / 2 ^ (w * j) % 2 ^ w = l[j] % 2 ^ w := by
  induction l generalizing j with
  | nil => simp at h
  | cons x l ih =>
    cases j with
    | zero => simp [Nat.add_mul_mod_self_left]
    | succ j =>
      have h2 : 2 ^ (w * (j + 1)) = 2 ^ w * 2 ^ (w * j) := by rw [Nat.mul_succ, Nat.pow_add, Nat.mul_comm]
      simp only [List.foldr_cons, List.getElem_cons_succ]
      rw [h2, ← Nat.div_div_eq_div_mul, Nat.add_mul_div_left _ _ (Nat.two_pow_pos w),
        Nat.div_eq_of_lt (Nat.mod_lt _ (Nat.two_pow_pos w)), Nat.zero_add]
      exact ih j (by simpa using h)

/-- Element j of packed elements. -/
theorem elAt_packEls (w : Nat) (l : List Nat) (j : Nat) (hj : j < l.length) (hl : w * l.length ≤ 512) :
    elAt w (packEls w l) j = l[j] % 2 ^ w := by
  unfold elAt packEls
  rw [BitVec.toNat_ofNat,
    Nat.mod_eq_of_lt (Nat.lt_of_lt_of_le (foldr_pack_lt w l) (Nat.pow_le_pow_right (by decide) hl) : _ < 2 ^ 512)]
  exact foldr_pack_at w l j hj

/-- The elements of a width fit into a payload. -/
theorem mul_elCount_le (w : Nat) : w * elCount w ≤ 512 := Nat.mul_div_le 512 w

/-- A lane-wise effect gives f of every valid element, zero elsewhere, and the conditions of the valid ones (R144). -/
theorem lanewise_elementwise (w : Nat) (valid reset : BitVec 16) (f : Nat → El) :
    (lanewise w valid reset f).Elementwise w valid reset f := by
  refine ⟨rfl, rfl, ?_, ?_, ?_⟩
  · intro j hj
    unfold lanewise
    simp only
    rw [elAt_packEls w _ j (by simpa using hj) (by simpa using mul_elCount_le w)]
    simp only [List.getElem_map, List.getElem_range]
    split <;> simp
  · simp only [lanewise, List.any_map, List.any_eq_true, List.mem_range, Function.comp]
    constructor
    · rintro ⟨j, hj, h⟩
      refine ⟨j, hj, ?_⟩
      split at h
      · exact ⟨‹_›, h⟩
      · simp at h
    · rintro ⟨j, hj, hv, h⟩
      exact ⟨j, hj, by rw [if_pos hv]; exact h⟩
  · simp only [lanewise, List.any_map, List.any_eq_true, List.mem_range, Function.comp]
    constructor
    · rintro ⟨j, hj, h⟩
      refine ⟨j, hj, ?_⟩
      split at h
      · exact ⟨‹_›, h⟩
      · simp at h
    · rintro ⟨j, hj, hv, h⟩
      exact ⟨j, hj, by rw [if_pos hv]; exact h⟩

end Sys2Proof.Machine
end

