-- ==== Sys2Proof/Laws/Stores.lean ====
section
/-!
SUPPORT. What a store changes: one memory and the marks of the lines that it writes whole, and nothing else.
-/

namespace Sys2Proof.Machine

/-- A store is the write of one memory of a state in which marks alone may be gone. -/
theorem State.storeMem_eq (s : State) (sp : Space) (a : Nat) (bs : List Byte) :
    ∃ marks, s.storeMem sp a bs = ({ s with marks := marks } : State).setMem sp ((s.mem sp).write a bs) := by
  have h : ∀ (l : List Nat) (t : State), ∃ marks, l.foldl (fun s line => s.clearMark sp line) t = { t with marks := marks } := by
    intro l
    induction l with
    | nil => intro t; exact ⟨t.marks, rfl⟩
    | cons x l ih =>
      intro t
      obtain ⟨k, hk⟩ := ih (t.clearMark sp x)
      exact ⟨k, by rw [List.foldl_cons, hk]; rfl⟩
  obtain ⟨k, hk⟩ := h ((linesOf a bs.length).filter fun line => decide (a ≤ 64 * line ∧ 64 * line + 64 ≤ a + bs.length)) s
  refine ⟨k, ?_⟩
  unfold State.storeMem State.writeMem
  dsimp only
  rw [hk]
  cases sp <;> rfl

@[simp] theorem State.storeMem_sigWriters (s : State) (sp : Space) (a : Nat) (bs : List Byte) : (s.storeMem sp a bs).sigWriters = s.sigWriters := by
  obtain ⟨k, hk⟩ := s.storeMem_eq sp a bs; rw [hk, State.setMem_sigWriters]
@[simp] theorem State.storeMem_placed (s : State) (sp : Space) (a : Nat) (bs : List Byte) : (s.storeMem sp a bs).placed = s.placed := by
  obtain ⟨k, hk⟩ := s.storeMem_eq sp a bs; rw [hk, State.setMem_placed]
@[simp] theorem State.storeMem_status (s : State) (sp : Space) (a : Nat) (bs : List Byte) : (s.storeMem sp a bs).status = s.status := by
  obtain ⟨k, hk⟩ := s.storeMem_eq sp a bs; rw [hk, State.setMem_status]
@[simp] theorem State.storeMem_events (s : State) (sp : Space) (a : Nat) (bs : List Byte) : (s.storeMem sp a bs).events = s.events := by
  obtain ⟨k, hk⟩ := s.storeMem_eq sp a bs; rw [hk, State.setMem_events]
@[simp] theorem State.storeMem_arg (s : State) (sp : Space) (a : Nat) (bs : List Byte) : (s.storeMem sp a bs).arg = s.arg := by
  obtain ⟨k, hk⟩ := s.storeMem_eq sp a bs; rw [hk, State.setMem_arg]
@[simp] theorem State.storeMem_ready (s : State) (sp : Space) (a : Nat) (bs : List Byte) : (s.storeMem sp a bs).ready = s.ready := by
  obtain ⟨k, hk⟩ := s.storeMem_eq sp a bs; rw [hk, State.setMem_ready]
@[simp] theorem State.storeMem_schedule (s : State) (sp : Space) (a : Nat) (bs : List Byte) : (s.storeMem sp a bs).schedule = s.schedule := by
  obtain ⟨k, hk⟩ := s.storeMem_eq sp a bs; rw [hk, State.setMem_schedule]
@[simp] theorem State.storeMem_curCore (s : State) (sp : Space) (a : Nat) (bs : List Byte) : (s.storeMem sp a bs).curCore = s.curCore := by
  obtain ⟨k, hk⟩ := s.storeMem_eq sp a bs; rw [hk, State.setMem_curCore]
@[simp] theorem State.storeMem_curLoc (s : State) (sp : Space) (a : Nat) (bs : List Byte) : (s.storeMem sp a bs).curLoc = s.curLoc := by
  obtain ⟨k, hk⟩ := s.storeMem_eq sp a bs; rw [hk, State.setMem_curLoc]
@[simp] theorem State.storeMem_curSlot (s : State) (sp : Space) (a : Nat) (bs : List Byte) : (s.storeMem sp a bs).curSlot = s.curSlot := by
  obtain ⟨k, hk⟩ := s.storeMem_eq sp a bs; rw [hk, State.setMem_curSlot]
@[simp] theorem State.storeMem_curTag (s : State) (sp : Space) (a : Nat) (bs : List Byte) : (s.storeMem sp a bs).curTag = s.curTag := by
  obtain ⟨k, hk⟩ := s.storeMem_eq sp a bs; rw [hk, State.setMem_curTag]
@[simp] theorem State.storeMem_cores (s : State) (sp : Space) (a : Nat) (bs : List Byte) : (s.storeMem sp a bs).cores = s.cores := by
  obtain ⟨k, hk⟩ := s.storeMem_eq sp a bs; rw [hk, State.setMem_cores]
@[simp] theorem State.storeMem_units (s : State) (sp : Space) (a : Nat) (bs : List Byte) : (s.storeMem sp a bs).units = s.units := by
  obtain ⟨k, hk⟩ := s.storeMem_eq sp a bs; rw [hk, State.setMem_units]
@[simp] theorem State.storeMem_cells (s : State) (sp : Space) (a : Nat) (bs : List Byte) : (s.storeMem sp a bs).cells = s.cells := by
  obtain ⟨k, hk⟩ := s.storeMem_eq sp a bs; rw [hk, State.setMem_cells]
@[simp] theorem State.storeMem_engines (s : State) (sp : Space) (a : Nat) (bs : List Byte) : (s.storeMem sp a bs).engines = s.engines := by
  obtain ⟨k, hk⟩ := s.storeMem_eq sp a bs; rw [hk, State.setMem_engines]
@[simp] theorem State.storeMem_engNext (s : State) (sp : Space) (a : Nat) (bs : List Byte) : (s.storeMem sp a bs).engNext = s.engNext := by
  obtain ⟨k, hk⟩ := s.storeMem_eq sp a bs; rw [hk, State.setMem_engNext]
@[simp] theorem State.storeMem_groups (s : State) (sp : Space) (a : Nat) (bs : List Byte) : (s.storeMem sp a bs).groups = s.groups := by
  obtain ⟨k, hk⟩ := s.storeMem_eq sp a bs; rw [hk, State.setMem_groups]
@[simp] theorem State.storeMem_owners (s : State) (sp : Space) (a : Nat) (bs : List Byte) : (s.storeMem sp a bs).owners = s.owners := by
  obtain ⟨k, hk⟩ := s.storeMem_eq sp a bs; rw [hk, State.setMem_owners]
@[simp] theorem State.storeMem_pads (s : State) (sp : Space) (a : Nat) (bs : List Byte) : (s.storeMem sp a bs).pads = s.pads := by
  obtain ⟨k, hk⟩ := s.storeMem_eq sp a bs; rw [hk, State.setMem_pads]
@[simp] theorem State.storeMem_padNext (s : State) (sp : Space) (a : Nat) (bs : List Byte) : (s.storeMem sp a bs).padNext = s.padNext := by
  obtain ⟨k, hk⟩ := s.storeMem_eq sp a bs; rw [hk, State.setMem_padNext]
@[simp] theorem State.storeMem_ctxs (s : State) (sp : Space) (a : Nat) (bs : List Byte) : (s.storeMem sp a bs).ctxs = s.ctxs := by
  obtain ⟨k, hk⟩ := s.storeMem_eq sp a bs; rw [hk, State.setMem_ctxs]
@[simp] theorem State.storeMem_handles (s : State) (sp : Space) (a : Nat) (bs : List Byte) : (s.storeMem sp a bs).handles = s.handles := by
  obtain ⟨k, hk⟩ := s.storeMem_eq sp a bs; rw [hk, State.setMem_handles]
@[simp] theorem State.storeMem_handleNext (s : State) (sp : Space) (a : Nat) (bs : List Byte) : (s.storeMem sp a bs).handleNext = s.handleNext := by
  obtain ⟨k, hk⟩ := s.storeMem_eq sp a bs; rw [hk, State.setMem_handleNext]
@[simp] theorem State.storeMem_queues (s : State) (sp : Space) (a : Nat) (bs : List Byte) : (s.storeMem sp a bs).queues = s.queues := by
  obtain ⟨k, hk⟩ := s.storeMem_eq sp a bs; rw [hk, State.setMem_queues]
@[simp] theorem State.storeMem_selections (s : State) (sp : Space) (a : Nat) (bs : List Byte) : (s.storeMem sp a bs).selections = s.selections := by
  obtain ⟨k, hk⟩ := s.storeMem_eq sp a bs; rw [hk, State.setMem_selections]
@[simp] theorem State.storeMem_prgs (s : State) (sp : Space) (a : Nat) (bs : List Byte) : (s.storeMem sp a bs).prgs = s.prgs := by
  obtain ⟨k, hk⟩ := s.storeMem_eq sp a bs; rw [hk, State.setMem_prgs]
@[simp] theorem State.storeMem_prgNext (s : State) (sp : Space) (a : Nat) (bs : List Byte) : (s.storeMem sp a bs).prgNext = s.prgNext := by
  obtain ⟨k, hk⟩ := s.storeMem_eq sp a bs; rw [hk, State.setMem_prgNext]
@[simp] theorem State.storeMem_ats (s : State) (sp : Space) (a : Nat) (bs : List Byte) : (s.storeMem sp a bs).ats = s.ats := by
  obtain ⟨k, hk⟩ := s.storeMem_eq sp a bs; rw [hk, State.setMem_ats]
@[simp] theorem State.storeMem_evicted (s : State) (sp : Space) (a : Nat) (bs : List Byte) : (s.storeMem sp a bs).evicted = s.evicted := by
  obtain ⟨k, hk⟩ := s.storeMem_eq sp a bs; rw [hk, State.setMem_evicted]
@[simp] theorem State.storeMem_migrations (s : State) (sp : Space) (a : Nat) (bs : List Byte) : (s.storeMem sp a bs).migrations = s.migrations := by
  obtain ⟨k, hk⟩ := s.storeMem_eq sp a bs; rw [hk, State.setMem_migrations]
@[simp] theorem State.storeMem_links (s : State) (sp : Space) (a : Nat) (bs : List Byte) : (s.storeMem sp a bs).links = s.links := by
  obtain ⟨k, hk⟩ := s.storeMem_eq sp a bs; rw [hk, State.setMem_links]
@[simp] theorem State.storeMem_retired (s : State) (sp : Space) (a : Nat) (bs : List Byte) : (s.storeMem sp a bs).retired = s.retired := by
  obtain ⟨k, hk⟩ := s.storeMem_eq sp a bs; rw [hk, State.setMem_retired]
@[simp] theorem State.storeMem_bmcRetired (s : State) (sp : Space) (a : Nat) (bs : List Byte) : (s.storeMem sp a bs).bmcRetired = s.bmcRetired := by
  obtain ⟨k, hk⟩ := s.storeMem_eq sp a bs; rw [hk, State.setMem_bmcRetired]
@[simp] theorem State.storeMem_tests (s : State) (sp : Space) (a : Nat) (bs : List Byte) : (s.storeMem sp a bs).tests = s.tests := by
  obtain ⟨k, hk⟩ := s.storeMem_eq sp a bs; rw [hk, State.setMem_tests]
@[simp] theorem State.storeMem_fw (s : State) (sp : Space) (a : Nat) (bs : List Byte) : (s.storeMem sp a bs).fw = s.fw := by
  obtain ⟨k, hk⟩ := s.storeMem_eq sp a bs; rw [hk, State.setMem_fw]
@[simp] theorem State.storeMem_fwSlot (s : State) (sp : Space) (a : Nat) (bs : List Byte) : (s.storeMem sp a bs).fwSlot = s.fwSlot := by
  obtain ⟨k, hk⟩ := s.storeMem_eq sp a bs; rw [hk, State.setMem_fwSlot]
@[simp] theorem State.storeMem_bmcSlot (s : State) (sp : Space) (a : Nat) (bs : List Byte) : (s.storeMem sp a bs).bmcSlot = s.bmcSlot := by
  obtain ⟨k, hk⟩ := s.storeMem_eq sp a bs; rw [hk, State.setMem_bmcSlot]
@[simp] theorem State.storeMem_fuseMinSvn (s : State) (sp : Space) (a : Nat) (bs : List Byte) : (s.storeMem sp a bs).fuseMinSvn = s.fuseMinSvn := by
  obtain ⟨k, hk⟩ := s.storeMem_eq sp a bs; rw [hk, State.setMem_fuseMinSvn]
@[simp] theorem State.storeMem_update (s : State) (sp : Space) (a : Nat) (bs : List Byte) : (s.storeMem sp a bs).update = s.update := by
  obtain ⟨k, hk⟩ := s.storeMem_eq sp a bs; rw [hk, State.setMem_update]
@[simp] theorem State.storeMem_mailbox (s : State) (sp : Space) (a : Nat) (bs : List Byte) : (s.storeMem sp a bs).mailbox = s.mailbox := by
  obtain ⟨k, hk⟩ := s.storeMem_eq sp a bs; rw [hk, State.setMem_mailbox]
@[simp] theorem State.storeMem_spdm (s : State) (sp : Space) (a : Nat) (bs : List Byte) : (s.storeMem sp a bs).spdm = s.spdm := by
  obtain ⟨k, hk⟩ := s.storeMem_eq sp a bs; rw [hk, State.setMem_spdm]
@[simp] theorem State.storeMem_config (s : State) (sp : Space) (a : Nat) (bs : List Byte) : (s.storeMem sp a bs).config = s.config := by
  obtain ⟨k, hk⟩ := s.storeMem_eq sp a bs; rw [hk, State.setMem_config]
@[simp] theorem State.storeMem_clocks (s : State) (sp : Space) (a : Nat) (bs : List Byte) : (s.storeMem sp a bs).clocks = s.clocks := by
  obtain ⟨k, hk⟩ := s.storeMem_eq sp a bs; rw [hk, State.setMem_clocks]
@[simp] theorem State.storeMem_breaks (s : State) (sp : Space) (a : Nat) (bs : List Byte) : (s.storeMem sp a bs).breaks = s.breaks := by
  obtain ⟨k, hk⟩ := s.storeMem_eq sp a bs; rw [hk, State.setMem_breaks]
@[simp] theorem State.storeMem_droverStop (s : State) (sp : Space) (a : Nat) (bs : List Byte) : (s.storeMem sp a bs).droverStop = s.droverStop := by
  obtain ⟨k, hk⟩ := s.storeMem_eq sp a bs; rw [hk, State.setMem_droverStop]
@[simp] theorem State.storeMem_reads (s : State) (sp : Space) (a : Nat) (bs : List Byte) : (s.storeMem sp a bs).reads = s.reads := by
  obtain ⟨k, hk⟩ := s.storeMem_eq sp a bs; rw [hk, State.setMem_reads]
@[simp] theorem State.storeMem_corrected (s : State) (sp : Space) (a : Nat) (bs : List Byte) : (s.storeMem sp a bs).corrected = s.corrected := by
  obtain ⟨k, hk⟩ := s.storeMem_eq sp a bs; rw [hk, State.setMem_corrected]
@[simp] theorem State.storeMem_memLinksOut (s : State) (sp : Space) (a : Nat) (bs : List Byte) : (s.storeMem sp a bs).memLinksOut = s.memLinksOut := by
  obtain ⟨k, hk⟩ := s.storeMem_eq sp a bs; rw [hk, State.setMem_memLinksOut]
@[simp] theorem State.storeMem_freeCtr (s : State) (sp : Space) (a : Nat) (bs : List Byte) : (s.storeMem sp a bs).freeCtr = s.freeCtr := by
  obtain ⟨k, hk⟩ := s.storeMem_eq sp a bs; rw [hk, State.setMem_freeCtr]

@[simp] theorem State.setTileBytes_status (s : State) (key : Nat) (t : Tile) (off : Nat) (bs : List Byte) :
    (s.setTileBytes key t off bs).status = s.status := State.storeMem_status s .l _ bs
@[simp] theorem State.setTileBytes_events (s : State) (key : Nat) (t : Tile) (off : Nat) (bs : List Byte) :
    (s.setTileBytes key t off bs).events = s.events := State.storeMem_events s .l _ bs
@[simp] theorem State.setTileBytes_arg (s : State) (key : Nat) (t : Tile) (off : Nat) (bs : List Byte) :
    (s.setTileBytes key t off bs).arg = s.arg := State.storeMem_arg s .l _ bs
@[simp] theorem State.setTileBytes_ready (s : State) (key : Nat) (t : Tile) (off : Nat) (bs : List Byte) :
    (s.setTileBytes key t off bs).ready = s.ready := State.storeMem_ready s .l _ bs
@[simp] theorem State.setTileBytes_schedule (s : State) (key : Nat) (t : Tile) (off : Nat) (bs : List Byte) :
    (s.setTileBytes key t off bs).schedule = s.schedule := State.storeMem_schedule s .l _ bs
@[simp] theorem State.setTileBytes_curCore (s : State) (key : Nat) (t : Tile) (off : Nat) (bs : List Byte) :
    (s.setTileBytes key t off bs).curCore = s.curCore := State.storeMem_curCore s .l _ bs
@[simp] theorem State.setTileBytes_curLoc (s : State) (key : Nat) (t : Tile) (off : Nat) (bs : List Byte) :
    (s.setTileBytes key t off bs).curLoc = s.curLoc := State.storeMem_curLoc s .l _ bs
@[simp] theorem State.setTileBytes_curSlot (s : State) (key : Nat) (t : Tile) (off : Nat) (bs : List Byte) :
    (s.setTileBytes key t off bs).curSlot = s.curSlot := State.storeMem_curSlot s .l _ bs
@[simp] theorem State.setTileBytes_curTag (s : State) (key : Nat) (t : Tile) (off : Nat) (bs : List Byte) :
    (s.setTileBytes key t off bs).curTag = s.curTag := State.storeMem_curTag s .l _ bs
@[simp] theorem State.setTileBytes_cores (s : State) (key : Nat) (t : Tile) (off : Nat) (bs : List Byte) :
    (s.setTileBytes key t off bs).cores = s.cores := State.storeMem_cores s .l _ bs
@[simp] theorem State.setTileBytes_units (s : State) (key : Nat) (t : Tile) (off : Nat) (bs : List Byte) :
    (s.setTileBytes key t off bs).units = s.units := State.storeMem_units s .l _ bs
@[simp] theorem State.setTileBytes_cells (s : State) (key : Nat) (t : Tile) (off : Nat) (bs : List Byte) :
    (s.setTileBytes key t off bs).cells = s.cells := State.storeMem_cells s .l _ bs
@[simp] theorem State.setTileBytes_engines (s : State) (key : Nat) (t : Tile) (off : Nat) (bs : List Byte) :
    (s.setTileBytes key t off bs).engines = s.engines := State.storeMem_engines s .l _ bs
@[simp] theorem State.setTileBytes_engNext (s : State) (key : Nat) (t : Tile) (off : Nat) (bs : List Byte) :
    (s.setTileBytes key t off bs).engNext = s.engNext := State.storeMem_engNext s .l _ bs
@[simp] theorem State.setTileBytes_groups (s : State) (key : Nat) (t : Tile) (off : Nat) (bs : List Byte) :
    (s.setTileBytes key t off bs).groups = s.groups := State.storeMem_groups s .l _ bs
@[simp] theorem State.setTileBytes_owners (s : State) (key : Nat) (t : Tile) (off : Nat) (bs : List Byte) :
    (s.setTileBytes key t off bs).owners = s.owners := State.storeMem_owners s .l _ bs
@[simp] theorem State.setTileBytes_pads (s : State) (key : Nat) (t : Tile) (off : Nat) (bs : List Byte) :
    (s.setTileBytes key t off bs).pads = s.pads := State.storeMem_pads s .l _ bs
@[simp] theorem State.setTileBytes_padNext (s : State) (key : Nat) (t : Tile) (off : Nat) (bs : List Byte) :
    (s.setTileBytes key t off bs).padNext = s.padNext := State.storeMem_padNext s .l _ bs
@[simp] theorem State.setTileBytes_ctxs (s : State) (key : Nat) (t : Tile) (off : Nat) (bs : List Byte) :
    (s.setTileBytes key t off bs).ctxs = s.ctxs := State.storeMem_ctxs s .l _ bs
@[simp] theorem State.setTileBytes_handles (s : State) (key : Nat) (t : Tile) (off : Nat) (bs : List Byte) :
    (s.setTileBytes key t off bs).handles = s.handles := State.storeMem_handles s .l _ bs
@[simp] theorem State.setTileBytes_handleNext (s : State) (key : Nat) (t : Tile) (off : Nat) (bs : List Byte) :
    (s.setTileBytes key t off bs).handleNext = s.handleNext := State.storeMem_handleNext s .l _ bs
@[simp] theorem State.setTileBytes_queues (s : State) (key : Nat) (t : Tile) (off : Nat) (bs : List Byte) :
    (s.setTileBytes key t off bs).queues = s.queues := State.storeMem_queues s .l _ bs
@[simp] theorem State.setTileBytes_selections (s : State) (key : Nat) (t : Tile) (off : Nat) (bs : List Byte) :
    (s.setTileBytes key t off bs).selections = s.selections := State.storeMem_selections s .l _ bs
@[simp] theorem State.setTileBytes_prgs (s : State) (key : Nat) (t : Tile) (off : Nat) (bs : List Byte) :
    (s.setTileBytes key t off bs).prgs = s.prgs := State.storeMem_prgs s .l _ bs
@[simp] theorem State.setTileBytes_prgNext (s : State) (key : Nat) (t : Tile) (off : Nat) (bs : List Byte) :
    (s.setTileBytes key t off bs).prgNext = s.prgNext := State.storeMem_prgNext s .l _ bs
@[simp] theorem State.setTileBytes_ats (s : State) (key : Nat) (t : Tile) (off : Nat) (bs : List Byte) :
    (s.setTileBytes key t off bs).ats = s.ats := State.storeMem_ats s .l _ bs
@[simp] theorem State.setTileBytes_evicted (s : State) (key : Nat) (t : Tile) (off : Nat) (bs : List Byte) :
    (s.setTileBytes key t off bs).evicted = s.evicted := State.storeMem_evicted s .l _ bs
@[simp] theorem State.setTileBytes_migrations (s : State) (key : Nat) (t : Tile) (off : Nat) (bs : List Byte) :
    (s.setTileBytes key t off bs).migrations = s.migrations := State.storeMem_migrations s .l _ bs
@[simp] theorem State.setTileBytes_links (s : State) (key : Nat) (t : Tile) (off : Nat) (bs : List Byte) :
    (s.setTileBytes key t off bs).links = s.links := State.storeMem_links s .l _ bs
@[simp] theorem State.setTileBytes_retired (s : State) (key : Nat) (t : Tile) (off : Nat) (bs : List Byte) :
    (s.setTileBytes key t off bs).retired = s.retired := State.storeMem_retired s .l _ bs
@[simp] theorem State.setTileBytes_bmcRetired (s : State) (key : Nat) (t : Tile) (off : Nat) (bs : List Byte) :
    (s.setTileBytes key t off bs).bmcRetired = s.bmcRetired := State.storeMem_bmcRetired s .l _ bs
@[simp] theorem State.setTileBytes_tests (s : State) (key : Nat) (t : Tile) (off : Nat) (bs : List Byte) :
    (s.setTileBytes key t off bs).tests = s.tests := State.storeMem_tests s .l _ bs
@[simp] theorem State.setTileBytes_fw (s : State) (key : Nat) (t : Tile) (off : Nat) (bs : List Byte) :
    (s.setTileBytes key t off bs).fw = s.fw := State.storeMem_fw s .l _ bs
@[simp] theorem State.setTileBytes_fwSlot (s : State) (key : Nat) (t : Tile) (off : Nat) (bs : List Byte) :
    (s.setTileBytes key t off bs).fwSlot = s.fwSlot := State.storeMem_fwSlot s .l _ bs
@[simp] theorem State.setTileBytes_bmcSlot (s : State) (key : Nat) (t : Tile) (off : Nat) (bs : List Byte) :
    (s.setTileBytes key t off bs).bmcSlot = s.bmcSlot := State.storeMem_bmcSlot s .l _ bs
@[simp] theorem State.setTileBytes_fuseMinSvn (s : State) (key : Nat) (t : Tile) (off : Nat) (bs : List Byte) :
    (s.setTileBytes key t off bs).fuseMinSvn = s.fuseMinSvn := State.storeMem_fuseMinSvn s .l _ bs
@[simp] theorem State.setTileBytes_update (s : State) (key : Nat) (t : Tile) (off : Nat) (bs : List Byte) :
    (s.setTileBytes key t off bs).update = s.update := State.storeMem_update s .l _ bs
@[simp] theorem State.setTileBytes_mailbox (s : State) (key : Nat) (t : Tile) (off : Nat) (bs : List Byte) :
    (s.setTileBytes key t off bs).mailbox = s.mailbox := State.storeMem_mailbox s .l _ bs
@[simp] theorem State.setTileBytes_spdm (s : State) (key : Nat) (t : Tile) (off : Nat) (bs : List Byte) :
    (s.setTileBytes key t off bs).spdm = s.spdm := State.storeMem_spdm s .l _ bs
@[simp] theorem State.setTileBytes_config (s : State) (key : Nat) (t : Tile) (off : Nat) (bs : List Byte) :
    (s.setTileBytes key t off bs).config = s.config := State.storeMem_config s .l _ bs
@[simp] theorem State.setTileBytes_clocks (s : State) (key : Nat) (t : Tile) (off : Nat) (bs : List Byte) :
    (s.setTileBytes key t off bs).clocks = s.clocks := State.storeMem_clocks s .l _ bs
@[simp] theorem State.setTileBytes_breaks (s : State) (key : Nat) (t : Tile) (off : Nat) (bs : List Byte) :
    (s.setTileBytes key t off bs).breaks = s.breaks := State.storeMem_breaks s .l _ bs
@[simp] theorem State.setTileBytes_droverStop (s : State) (key : Nat) (t : Tile) (off : Nat) (bs : List Byte) :
    (s.setTileBytes key t off bs).droverStop = s.droverStop := State.storeMem_droverStop s .l _ bs
@[simp] theorem State.setTileBytes_reads (s : State) (key : Nat) (t : Tile) (off : Nat) (bs : List Byte) :
    (s.setTileBytes key t off bs).reads = s.reads := State.storeMem_reads s .l _ bs
@[simp] theorem State.setTileBytes_corrected (s : State) (key : Nat) (t : Tile) (off : Nat) (bs : List Byte) :
    (s.setTileBytes key t off bs).corrected = s.corrected := State.storeMem_corrected s .l _ bs
@[simp] theorem State.setTileBytes_memLinksOut (s : State) (key : Nat) (t : Tile) (off : Nat) (bs : List Byte) :
    (s.setTileBytes key t off bs).memLinksOut = s.memLinksOut := State.storeMem_memLinksOut s .l _ bs
@[simp] theorem State.setTileBytes_sigWriters (s : State) (key : Nat) (t : Tile) (off : Nat) (bs : List Byte) :
    (s.setTileBytes key t off bs).sigWriters = s.sigWriters := State.storeMem_sigWriters s .l _ bs
@[simp] theorem State.setTileBytes_placed (s : State) (key : Nat) (t : Tile) (off : Nat) (bs : List Byte) :
    (s.setTileBytes key t off bs).placed = s.placed := State.storeMem_placed s .l _ bs
@[simp] theorem State.setTileBytes_freeCtr (s : State) (key : Nat) (t : Tile) (off : Nat) (bs : List Byte) :
    (s.setTileBytes key t off bs).freeCtr = s.freeCtr := State.storeMem_freeCtr s .l _ bs

@[simp] theorem State.storeMem_core (s : State) (sp : Space) (a : Nat) (bs : List Byte) : (s.storeMem sp a bs).core = s.core := by
  unfold State.core State.coreOf; rw [State.storeMem_cores, State.storeMem_curCore]

@[simp] theorem State.storeMem_getU (s : State) (sp : Space) (a : Nat) (bs : List Byte) (key : Nat) :
    (s.storeMem sp a bs).getU key = s.getU key := by
  unfold State.getU; rw [State.storeMem_units]

@[simp] theorem State.setTileBytes_getU (s : State) (k : Nat) (t : Tile) (off : Nat) (bs : List Byte) (key : Nat) :
    (s.setTileBytes k t off bs).getU key = s.getU key := State.storeMem_getU s .l _ bs key

@[simp] theorem State.setTileBytes_tile (s : State) (k : Nat) (t : Tile) (off : Nat) (bs : List Byte) (key n : Nat) :
    (s.setTileBytes k t off bs).tile key n = s.tile key n := by
  unfold State.tile; rw [State.setTileBytes_getU]

end Sys2Proof.Machine
end

