-- ==== Sys2Proof/Laws/Recurrence.lean ====
section
/-!
SUPPORT. Recurrences: what their firings do to the state, said once.
-/

namespace Sys2Proof.Machine

@[simp] theorem State.setCarry_cores (s : State) (k n tag w v : Nat) : (s.setCarry k n tag w v).cores = s.cores := by
  simp only [State.setCarry, State.setCarryValid]; split <;> simp

@[simp] theorem State.setCarryValid_cores (s : State) (k n tag : Nat) (v : Bool) : (s.setCarryValid k n tag v).cores = s.cores := by
  simp only [State.setCarryValid]; split <;> simp

@[simp] theorem State.setMasks_cores (s : State) (k n tag : Nat) (t : Token) : (s.setMasks k n tag t).cores = s.cores := by
  simp [State.setMasks]

@[simp] theorem State.setCarry_curTag (s : State) (k n tag w v : Nat) : (s.setCarry k n tag w v).curTag = s.curTag := by
  simp only [State.setCarry, State.setCarryValid]; split <;> simp

@[simp] theorem State.setCarryValid_curTag (s : State) (k n tag : Nat) (v : Bool) : (s.setCarryValid k n tag v).curTag = s.curTag := by
  simp only [State.setCarryValid]; split <;> simp

@[simp] theorem State.setMasks_curTag (s : State) (k n tag : Nat) (t : Token) : (s.setMasks k n tag t).curTag = s.curTag := by
  simp [State.setMasks]

/-- SCAN, LREC and EMA: the elements from the carry or the register, the carry and the masks that a chained firing leaves. -/
theorem runRec_fires (s : State) (e : SlotEnv) (c : Choice) (x : EW) (h : s.Fires e c) (rd : Bool)
    (f : RecParam → Fire → Nat → List Bool → List El)
    (hc : let p := recParamOf x.ty (e.conf.constTok e.hdr.kreg).payload
      p.chain = false ∨ (s.tile e.key p.tile).st = .ready ∧ s.ownerMayGo e (s.firing e c) p.tile = true) :
    let fi := s.firing e c
    let l := fi.l
    let r := fi.r
    let w := elWidth x.ty false
    let p := recParamOf x.ty (e.conf.constTok e.hdr.kreg).payload
    let carry : Option Nat := if p.chain then s.carryOf e.key p.tile s.curTag w else none
    let start := carry.getD p.rv
    let cut := cuts w l (p.chain && carry.isNone)
    let es := f p fi start cut
    let s1 : State := if p.chain then
          (s.setCarry e.key p.tile s.curTag w (es.getLast?.getD { bits := 0 }).bits).setMasks e.key p.tile s.curTag l else s
    let o := (recResult w (if rd then l.valid &&& r.valid else l.valid) l.reset es)
    runRec s x rd f =
      .next (s1.emitsTok e c (if p.chain then tagTainted (s.tile e.key p.tile) (fi.result e.hdr o) else fi.result e.hdr o)) := by
      intro fi l r w p carry start cut es s1 o
      have hcur : s1.curTag = s.curTag := by
        dsimp only [s1]; split
        · rw [State.setMasks_curTag, State.setCarry_curTag]
        · rfl
      have hco : s1.cores = s.cores := by
        dsimp only [s1]; split
        · rw [State.setMasks_cores, State.setCarry_cores]
        · rfl
      unfold runRec runState
      rw [runSlot_fires _ h]
      · have hb : (p.chain && ((s.tile e.key p.tile).st != .ready || (p.chain && !s.ownerMayGo e fi p.tile))) = false := by
          rcases hc with hc | ⟨h1, h2⟩
          · simp [p, hc]
          · simp [p, fi, h1, h2]
        dsimp only
        rw [if_neg (by simpa [p, fi] using hb)]
        dsimp only
        rw [← taken_one s s1 e c _ hcur]
        rfl
      · intro s' outs hx
        dsimp only at hx
        split at hx
        · cases hx
        · injection hx with hx _
          subst hx
          exact hco

/-- The elements of a result over the masks of l (R144). -/
theorem recResult_elements (w : Nat) (v r : BitVec 16) (es : List El) :
    (recResult w v r es).valid = pairValid w v ∧
      ∀ j, j < elCount w → elValid w (recResult w v r es).valid j = true →
        elAt w (recResult w v r es).payload j = (nthD es j { bits := 0 }).bits % 2 ^ w := by
      refine ⟨rfl, fun j hj hv => ?_⟩
      have := (lanewise_elementwise w v r fun i => { bits := (nthD es i { bits := 0 }).bits }).2.2.1 j hj
      rw [if_pos (show elValid w (lanewise w v r fun i => { bits := (nthD es i { bits := 0 }).bits }).valid j = true from hv)] at this
      exact this

end Sys2Proof.Machine
end

