-- ==== Sys2Proof/Laws/Residue.lean ====
section
/-!
SUPPORT. Every check of R133 passes on the value that the word computes, so no word ends in it without a physical fault.
-/

namespace Sys2Proof.Machine

@[simp] theorem twice_true (f : DWord → DWord → DWord) (a b : DWord) : twice f a b = true := by simp [twice]

@[simp] theorem carried_true (a b : DWord) : carried a b = true := rfl

/-- A multiple of 3 below 2^64 that a sign extension adds leaves the residue. -/
theorem signExtend_mod3 (x : BitVec 32) : (x.signExtend 64).toNat % 3 = x.toNat % 3 := by
  rw [BitVec.toNat_signExtend]
  cases x.msb <;> simp [BitVec.toNat_setWidth] <;> omega

@[simp] theorem addCheck_true (a b : DWord) : addCheck a b = true := by
  simp only [addCheck, beq_iff_eq, BitVec.toNat_add]
  split <;> omega

/-- A difference modulo n, with the borrow that it takes. -/
theorem sub_mod_borrow {n x y : Nat} (hx : x < n) (hy : y < n) : (n - y + x) % n = x + (if x < y then n else 0) - y := by
  split
  · rw [Nat.mod_eq_of_lt (by omega)]; omega
  · rw [show n - y + x = x - y + n by omega, Nat.add_mod_right, Nat.mod_eq_of_lt (by omega)]; omega

@[simp] theorem subCheck_true (a b : DWord) : subCheck a b = true := by
  simp only [subCheck, beq_iff_eq, BitVec.toNat_sub, sub_mod_borrow a.isLt b.isLt]
  split <;> omega

@[simp] theorem addwCheck_true (a b : DWord) : addwCheck a b = true := by
  simp only [addwCheck, beq_iff_eq, signExtend_mod3, BitVec.toNat_add, BitVec.toNat_setWidth]
  split <;> omega

@[simp] theorem subwCheck_true (a b : DWord) : subwCheck a b = true := by
  have h := sub_mod_borrow (Nat.mod_lt a.toNat (Nat.two_pow_pos 32)) (Nat.mod_lt b.toNat (Nat.two_pow_pos 32))
  simp only [subwCheck, beq_iff_eq, signExtend_mod3, BitVec.toNat_sub, BitVec.toNat_setWidth, h]
  split <;> omega

@[simp] theorem productCheck_true (a b : DWord) : productCheck a b = true := by
  simp only [productCheck, beq_iff_eq, ← Nat.mul_mod]
  omega

/-- The high half of the signed product is the unsigned one less b where a is negative and less a where b is. -/
theorem mulhValue_eq (a b : DWord) : mulhValue a b = highOf a b := by
  have h : a.toInt * b.toInt / 2 ^ 64 =
      (a.toNat : Int) * b.toNat / 2 ^ 64 - (if a.msb then (b.toNat : Int) else 0) - (if b.msb then (a.toNat : Int) else 0) +
        (if a.msb && b.msb then 2 ^ 64 else 0) := by
    simp only [BitVec.toInt_eq_msb_cond]
    cases a.msb <;> cases b.msb <;> simp [Int.mul_sub, Int.sub_mul] <;> omega
  apply BitVec.eq_of_toInt_eq
  simp only [mulhValue, highOf, h]
  cases a.msb <;> cases b.msb <;> simp [BitVec.toInt_eq_toNat_bmod, Int.bmod_def] <;> omega

@[simp] theorem mulhCheck_true (a b : DWord) : mulhCheck a b = true := by simp [mulhCheck, mulhValue_eq]

@[simp] theorem mulwCheck_true (a b : DWord) : mulwCheck a b = true := by
  simp only [mulwCheck, productCheck_true, Bool.true_and, beq_iff_eq, mulwValue]
  congr 1
  apply BitVec.eq_of_toNat_eq
  simp [BitVec.toNat_mul, BitVec.toNat_setWidth, Nat.mul_mod]

/-- Quotient and remainder of any division satisfy the division's residue equation. -/
theorem divisionCheck_true {a b q r : Int} (h : a = q * b + r) : divisionCheck a b q r = true := by
  simp only [divisionCheck, beq_iff_eq, h, ← Int.mul_emod, Int.add_emod, Int.emod_emod]

@[simp] theorem divCheck_true (a b : DWord) : divCheck a b = true := by
  simp only [divCheck, Bool.or_eq_true]
  exact .inr (divisionCheck_true (by omega))

@[simp] theorem divnCheck_true (a b : DWord) : divnCheck a b = true := by
  simp only [divnCheck, Bool.or_eq_true]
  refine .inr (divisionCheck_true ?_)
  have := Nat.div_add_mod a.toNat b.toNat
  rw [Nat.mul_comm] at this
  exact_mod_cast this.symm

end Sys2Proof.Machine
end

