-- ==== Sys2Proof/Laws/Words.lean ====
section
/-!
SUPPORT. What running an S-word can do, said once.
-/

namespace Sys2Proof.Machine

/-- The predicate check of a word passes over good predicates while no injection is armed for it (R133, R388). -/
theorem checkPreds_ok {s : State} {ps : List PredNum} (h2 : s.core.errmask.getLsbD 2 = false)
    (hp : ps.all s.core.predOk = true) : s.checkPreds ps = (s, .ok) := by
  have hn : (ps.find? fun p => !s.core.predOk p) = none := by simpa [List.find?_eq_none] using hp
  unfold State.checkPreds
  cases ps.find? fun p => p != 0 <;> simp only [h2, hn, Bool.false_eq_true, if_false]

/-- The register check of a word passes over good registers while no injection is armed for it (R133, R388). -/
theorem checkRegs_ok {s : State} {rs : List RegNum} (h1 : s.core.errmask.getLsbD 1 = false)
    (hr : rs.all s.core.regOk = true) : s.checkRegs rs = (s, .ok) := by
  have hn : (rs.find? fun r => !s.core.regOk r) = none := by simpa [List.find?_eq_none] using hr
  simp only [State.checkRegs, h1, hn, Bool.false_eq_true, if_false]

/-- A word that executes runs its body and finishes as the body says. -/
theorem runWord_executes {s : State} {g : Guard} {rs : List RegNum} {ps : List PredNum} (sc : Bool) (body : State → WordEnd)
    (h : s.Executes g rs ps) :
    runWord s g rs ps sc body = s.finishWord (body s) := by
  obtain ⟨⟨h1, h2, h3, h4, h5⟩, hg⟩ := h
  have e1 : s.checkPreds [g.p] = (s, .ok) := checkPreds_ok h2 (by simpa using h3)
  cases sc <;> simp [runWord, e1, checkPreds_ok h2 h5, checkRegs_ok h1 h4, hg]

/-- A word that only computes registers leaves the core that f gives, moved on. -/
theorem runReg_executes {s : State} {g : Guard} {rs : List RegNum} {ps : List PredNum} (sc : Bool) (f : CoreSt → CoreSt)
    (h : s.Executes g rs ps) : runReg s g rs ps sc f = .next (s.setCore (f s.core).retire) := by
  simp [runReg, runWord_executes sc _ h, State.finishWord, State.retire]

/-- A word whose result passes its check writes it and moves on (R133). -/
theorem runChecked_executes {s : State} {g : Guard} {rs : List RegNum} (d : RegNum) (v : CoreSt → DWord) (ok : CoreSt → Bool)
    (h : s.Executes g rs []) (hok : ok s.core = true) :
    runChecked s g rs d v ok = .next (s.setCore (s.core.setReg d (v s.core)).retire) := by
  simp [runChecked, runWord_executes true _ h, hok, State.finishWord, State.retire]

/-- A word whose guard does not hold only moves the pc on (R37). -/
theorem runWord_skipped {s : State} {g : Guard} {rs : List RegNum} {ps : List PredNum} (sc : Bool) (body : State → WordEnd)
    (h2 : s.core.errmask.getLsbD 2 = false) (h3 : s.core.predOk g.p = true) (hg : s.core.guard g = false) :
    runWord s g rs ps sc body = s.retire := by
  have e1 : s.checkPreds [g.p] = (s, .ok) := checkPreds_ok h2 (by simpa using h3)
  unfold runWord
  simp [e1, hg]

end Sys2Proof.Machine
end

