-- ==== Sys2Proof/Tests/Slice0.lean ====
section
/-!
SUPPORT. Tests: ill-formed terms that WellFormed refuses, words written out from the spec's encodings, one step of a few instructions on
a small state with the result that the spec gives, and for each statement a state that meets its hypotheses.
-/

namespace Sys2Proof.Tests

set_option Elab.async false

open Sys2Proof.Machine

def always : Guard := ⟨0, false⟩
def noOne : Consumer := ⟨0, 3⟩
def ew (ty : Ty) (md : BitVec 4) : EW := ⟨ty, md, ⟨1, 0⟩, noOne⟩

/-! ## WellFormed refuses an ill-formed term of each check -/

-- a CAS whose second register would be s32 (R233)
theorem test_wf_cas_s31 : (Instr.amof .cas 31 2 true 0 always).wellFormed = false := by decide
-- a body of no words (R302)
theorem test_wf_loopn_zero : (Instr.loopn 1 0 always).wellFormed = false := by decide
-- an advance by nothing (R307)
theorem test_wf_advp_zero : (Instr.advp 1 0 always).wellFormed = false := by decide
-- unassigned special registers (R349)
theorem test_wf_mfs_unassigned : (Instr.mfs 1 0x00E always).wellFormed = false := by decide
theorem test_wf_mts_readonly : (Instr.mts 0x003 1 always).wellFormed = false := by decide
-- fixed mode bits, a type outside F, an integer type under ftz (R150, R154, R158)
theorem test_wf_vsel_mode : (Instr.vsel (ew .f32 2)).wellFormed = false := by decide
theorem test_wf_vadd_int : (Instr.vadd (ew .i32 0)).wellFormed = false := by decide
theorem test_wf_viadd_ftz : (Instr.viadd (ew .i32 2)).wellFormed = false := by decide
-- consumers: a missing one with a slot, both the same field, a port with a field (R47, R48)
theorem test_wf_no_consumer_slot : (Instr.vadd ⟨.f32, 0, ⟨1, 3⟩, noOne⟩).wellFormed = false := by decide
theorem test_wf_same_consumers : (Instr.vadd ⟨.f32, 0, ⟨1, 0⟩, ⟨1, 0⟩⟩).wellFormed = false := by decide
theorem test_wf_port_field : (Instr.vadd ⟨.f32, 0, ⟨0x70, 1⟩, noOne⟩).wellFormed = false := by decide
-- a node slot's consumer past its slots (R51)
theorem test_wf_node_reach : (Instr.ldn ⟨.f32, 0, ⟨0x10, 0⟩, noOne⟩).wellFormed = false := by decide
-- matrix and tile forms (R181, R187)
theorem test_wf_mma_types : (Instr.mma ⟨.f32, 0, 0, 1, 2, .f64, false, false, false⟩).wellFormed = false := by decide
theorem test_wf_tcvt_types : (Instr.tcvt ⟨.f8e4x4, 0, 1, 2, .f32⟩).wellFormed = false := by decide
theorem test_wf_good : (Instr.vadd (ew .f32 0)).wellFormed = true := by decide

/-! ## Words written out from the spec's encodings -/

-- op[31:26] d[25:21] a[20:16] b[15:11] g[10:8] gn[7] fn[6:0] (R37, R41, R123)
theorem test_decode_add : (decodeS 0b000000_00011_00001_00010_000_0_0000000).toOption = some (.add 3 1 2 always) := by decide
theorem test_decode_max : (decodeS 0b000000_00011_00011_01000_000_0_0001100).toOption = some (.max 3 3 8 always) := by decide
-- MULDIV, fn 3 DIV (R125)
theorem test_decode_div : (decodeS 0b000001_00111_00001_00010_011_1_0000011).toOption = some (.div 7 1 2 ⟨3, true⟩) := by decide
-- CMP: 00 pd, 0000 c (R129)
theorem test_decode_cmp_lt : (decodeS 0b000010_00_010_00001_00010_010_0_0000_010).toOption = some (.cmp .lt 2 1 2 ⟨2, false⟩) := by decide
-- PRED, fn 4 PNOT (R131)
theorem test_decode_pnot : (decodeS 0b000011_00_101_00_110_00000_000_0_0000100).toOption = some (.pnot 5 6 always) := by decide
-- RI: op d a g gn imm12 (R37, R127)
theorem test_decode_addi : (decodeS 0b000100_00011_00000_001_0_111111111111).toOption = some (.addi 3 0 (-1) ⟨1, false⟩) := by decide
-- CMPI: c[25:24] pd[23:21] (R130)
theorem test_decode_cmpi_ge : (decodeS 0b001011_11_100_00111_000_0_111111111111).toOption = some (.cmpi .ge 4 7 (-1) always) := by decide
-- LI: op d imm21 (R128)
theorem test_decode_luih : (decodeS 0b001110_00101_100000000000000000000).toOption = some (.luih 5 0x100000) := by decide
-- MEM: op d a g gn sz off10 (R42, R229)
theorem test_decode_ldl : (decodeS 0b010000_00100_00101_000_0_10_0000001000).toOption = some (.ldl 4 5 2 8 always) := by decide
theorem test_decode_lds : (decodeS 0b010100_00111_00011_000_0_11_1111111110).toOption = some (.lds 7 3 3 (-2) always) := by decide
-- AMO: op d a g gn 1 dbl op4 off6 (R42, R233)
theorem test_decode_amof_add : (decodeS 0b010110_00100_00101_000_0_1_0_0000_000010).toOption = some (.amof .add 4 5 false 2 always) := by decide
-- FENCE: sc[9:7] kind[6:5] spaces[4:0] (R42)
theorem test_decode_fence_full : (decodeS 0b011000_00000_00000_000_0_00_001_10_00010).toOption = some (.fence .full 2 .fold always) := by decide
-- BR: op g gn off22; JAL: op d imm21; LOOPN (R37, R301, R302)
theorem test_decode_br : (decodeS 0b011100_001_1_1111111111111111111111).toOption = some (.br (-1) ⟨1, true⟩) := by decide
theorem test_decode_loopn : (decodeS 0b011111_00000_00110_000_0_000000000011).toOption = some (.loopn 6 3 always) := by decide
-- ENG: op q[25:22] a[21:17] b[16:12] g[11:9] gn[8] fn[7:0] (R37, R306, R313)
theorem test_decode_advp : (decodeS 0b100000_0011_00000_00000_000_0_00000001).toOption = some (.advp 3 1 always) := by decide
theorem test_decode_cpy : (decodeS 0b101010_0010_00101_00111_000_0_0000000_1).toOption = some (.cpy 2 5 7 true always) := by decide
theorem test_decode_siginc : (decodeS 0b101111_0001_00101_00000_000_0_00000000).toOption = some (.siginc 1 5 0 always) := by decide
-- MFS, FIN (R304, R349)
theorem test_decode_mfs : (decodeS 0b111000_00101_00000_000_0_000000000011).toOption = some (.mfs 5 3 always) := by decide
theorem test_decode_fin : (decodeS 0b111101_00000_00000_000_0_000000000000).toOption = some (.fin always) := by decide
-- op7 ty3 md4 c0 (slot7 fld2) c1 (R47)
theorem test_decode_vadd : (decodeE 0b0000001_000_0000_0000001_00_0000000_11).toOption = some (.vadd (ew .f32 0)) := by decide
theorem test_decode_viadd : (decodeE 0b0100000_110_0100_0000001_00_0000000_11).toOption = some (.viadd (ew .i32 4)) := by decide
theorem test_decode_steer : (decodeE 0b0110010_000_0000_0000001_00_0000010_01).toOption = some (.steer ⟨.f32, 0, ⟨1, 0⟩, ⟨2, 1⟩⟩) := by decide
theorem test_decode_span : (decodeE 0b1001000_000_0000_0000001_00_0000000_11).toOption = some (.span (ew .f32 0)) := by decide
theorem test_decode_vred : (decodeE 0b1000000_000_0000_0000001_00_0000000_11).toOption = some (.vred (ew .f32 0)) := by decide
theorem test_decode_tear : (decodeE 0b1100000_000_0000_0000001_00_0000000_11).toOption = some (.tear (ew .f32 0)) := by decide
theorem test_decode_ldn : (decodeE 0b1101001_000_0000_0000001_00_0000000_11).toOption = some (.ldn (ew .f32 0)) := by decide
theorem test_decode_gate : (decodeE 0b1110000_000_0000_0000001_00_0000000_11).toOption = some (.gate (ew .f32 0)) := by decide
-- MMA: ty md ringA3 ringB3 acc6 tyB3 ac tb em (R49); TCLR: ty md src6 dst6 tyD3 000 (R49)
theorem test_decode_mma :
    (decodeE 0b1010000_000_0000_001_010_000011_000_1_0_0).toOption = some (.mma ⟨.f32, 0, 1, 2, 3, .f32, true, false, false⟩) := by decide
theorem test_decode_tclr : (decodeE 0b1010100_000_0000_000000_000101_000_000).toOption = some (.tclr ⟨.f32, 0, 0, 5, .f32⟩) := by decide

/-! ## States -/

/-- A register that passes its check. -/
def goodReg (v : DWord) : RegCell := ⟨v, residue3 v.toNat⟩

def goodRegs (l : List (Nat × DWord)) : AMap RegCell := l.map fun x => (x.1, goodReg x.2)

/-- A configuration with a tile, a buffer, a channel, an actor and its trap handler, a barrier, a tag space. -/
def conf0 : UnitConf :=
  { tiles := [(3, { role := .acc, base := 64 }), (4, { role := .op, base := 66 })]
    bufs := [(1, { sp := .l, base := 0x100000, slots := 4, name := 1 }), (2, { sp := .f, base := 0x1000, slots := 4, name := 2 })]
    chans := [(0, { data := true, cls := 2, dest := .sink 0 0 }), (1, { data := false, cls := 2, dest := .sink 0 0 })]
    actors := [(0, { cls := some 2, trap := some 1 }), (1, { isTrap := true })], barriers := [(0, 1)], tags := [(1, 8)] }

def firing0 : Firing :=
  { ctx := 1, tag := 5, seq := 9, spanLo := 4, spanHi := 8, take := [(1, 2), (2, 2)], give := [(1, 2), (2, 2)], engd := [(0, 1), (2, 1)]
    granted := [(1, 2), (1, 3)], taken := [(1, 2)] }

/-- A scalar token on [lo, lo + 4). -/
def plain0 (lo : Nat) : Token := Token.sealed { net := .scalar, payload := 7, valid := 1, lo := lo, hi := lo + 4, tag := 5, ctx := 1 }

/-- Cell 0 runs a firing: registers, what it has held, what its unit declares. -/
def core0 (regs : List (Nat × DWord)) (f : Firing := firing0) : State :=
  { State.reset with
    events := []
    status := 1
    cores := [(0, { running := true, regs := goodRegs regs, preds := [(1, (true, true)), (2, (false, false))], firing := f })]
    units := [(0, { live := true, waved := true, slotNo := some 0, ctx := 1, conf := conf0, tiles := conf0.tiles, tags := [(1, { alloc := [4] })] })]
    pads := [(0, { phase := .running, ctx := 1, conf := { folds := [0], slices := [0, 97], permits := [(0, [1]), (97, [1])] } })]
    ctxs := [(1, { st := .live })] }

/-- The drover runs. -/
def drover0 (regs : List (Nat × DWord)) : State :=
  { core0 [] with curCore := 416, cores := [(416, { running := true, regs := goodRegs regs })] }

/-- 256 stores are held. -/
def full0 (regs : List (Nat × DWord)) : State := core0 regs { firing0 with held := List.replicate 256 (.store .l 0 [1]) }

/-! ## Hypotheses of the statements on S-words are met -/

-- sources past every shift, −2^63 over −1, a zero divisor, a guard that holds by a negated predicate
theorem wit_alu : ∃ (s : State) (a b : RegNum) (g : Guard), s.Executes g [a, b] [] ∧ 64 ≤ (s.core.reg b).toNat :=
  ⟨core0 [(1, 5), (2, 64)], 1, 2, ⟨2, true⟩, by decide +kernel⟩
theorem wit_alu_corners : ∃ (s : State) (a b c : RegNum) (g : Guard), s.Executes g [a, b] [] ∧ s.Executes g [a, c] [] ∧
    (s.core.reg a).toInt = -2 ^ 63 ∧ (s.core.reg b).toInt = -1 ∧ s.core.reg c = 0 :=
  ⟨core0 [(1, 0x8000000000000000), (2, 0xFFFFFFFFFFFFFFFF)], 1, 2, 0, always, by decide +kernel⟩
theorem wit_sel : ∃ (s : State) (a b : RegNum) (g : Guard), s.Executes Guard.always [a, b] [g.p] ∧ s.core.guard g = false :=
  ⟨core0 [(1, 5), (2, 6)], 1, 2, ⟨2, false⟩, by decide +kernel⟩
theorem wit_unary : ∃ (s : State) (a : RegNum) (g : Guard), s.Executes g [a] [] ∧ s.core.reg a = 0 := ⟨core0 [(1, 0)], 1, always, by decide +kernel⟩
theorem wit_imm : ∃ (s : State) (a : RegNum) (g : Guard), s.Executes g [a] [] ∧ s.Executes Guard.always [a] [] := ⟨core0 [(1, 7)], 1, ⟨1, false⟩, by decide +kernel⟩
theorem wit_cmp : ∃ (s : State) (a b : RegNum) (g : Guard), s.Executes g [a, b] [] ∧ s.Executes g [a] [] := ⟨core0 [(1, 7), (2, 7)], 1, 2, always, by decide +kernel⟩
theorem wit_pred : ∃ (s : State) (a b : PredNum) (g : Guard), s.Executes g [] [a, b] ∧ s.Executes g [] [a] ∧ s.Executes g [] [] :=
  ⟨core0 [], 1, 2, always, by decide +kernel⟩
theorem wit_unguarded : ∃ (s : State) (g : Guard), s.core.guard g = false ∧ s.core.predOk g.p = true ∧ s.core.errmask.getLsbD 2 = false :=
  ⟨core0 [], ⟨0, true⟩, by decide +kernel⟩

-- the last legal doubleword of L, of F and the first of slice 97; a byte held by the firing itself
theorem wit_load_l : ∃ (s : State) (x : Nat), s.Executes always [1] [] ∧ (s.core.reg 1).toNat % 8 = 0 ∧ s.spaceAddr .l (s.core.reg 1).toNat 8 = some x ∧
    s.ReadsWell .l x 8 ∧ s.Settled .l x := ⟨core0 [(1, 0x17FFF8)], 0x17FFF8, by decide +kernel⟩
theorem wit_load_f : ∃ (s : State) (x : Nat), s.Executes always [1] [] ∧ (s.core.reg 1).toNat % 8 = 0 ∧ s.spaceAddr .f (s.core.reg 1).toNat 8 = some x ∧
    s.ReadsWell .f x 8 ∧ s.Settled .f x := ⟨core0 [(1, 0xFEFFF8)], 0xFEFFF8, by decide +kernel⟩
theorem wit_load_s : ∃ (s : State) (x : Nat), s.Executes always [1] [] ∧ (s.core.reg 1).toNat % 8 = 0 ∧ s.spaceAddr .s (s.core.reg 1).toNat 8 = some x ∧
    s.ReadsWell .s x 8 ∧ s.Settled .s x := ⟨core0 [(1, 0x40400000)], 0x40400000, by decide +kernel⟩
theorem wit_store : ∃ (s t : State), (s.Executes always [1, 2] [] ∧ s.spaceAddr .l (s.core.reg 1).toNat 1 = some 0 ∧
      countIf Held.entry s.core.firing.held < 256) ∧
    t.Executes always [1, 2] [] ∧ t.spaceAddr .l (t.core.reg 1).toNat 1 = some 0 ∧ 256 ≤ countIf Held.entry t.core.firing.held :=
  ⟨core0 [(1, 0), (2, 9)], full0 [(1, 0), (2, 9)], by decide +kernel⟩
theorem wit_access_traps : ∃ (s : State), s.Executes always [1, 2] [] ∧ (s.core.reg 1).toNat % 8 ≠ 0 ∧ (s.core.reg 2).toNat % 8 = 0 ∧
    s.spaceAddr .l (s.core.reg 2).toNat 8 = none ∧ s.spaceAddr .f (s.core.reg 2).toNat 8 = none ∧ s.spaceAddr .s (s.core.reg 2).toNat 8 = none :=
  ⟨core0 [(1, 1), (2, 0x3000000)], by decide +kernel⟩
theorem wit_atomic : ∃ (s : State) (x y : Nat), s.Executes always ([1, 2] ++ [3]) [] ∧ (s.core.reg 1).toNat % 8 = 0 ∧
    s.spaceAddr .f (s.core.reg 1).toNat 8 = some x ∧ s.ReadsWell .f x 8 ∧ s.Settled .f x ∧ s.spaceAddr .s (s.core.reg 1).toNat 8 = some y ∧
    s.ReadsWell .s y 8 ∧ s.Settled .s y := ⟨core0 [(1, 64), (2, 1), (3, 2)], 64, 64, by decide +kernel⟩
theorem wit_fence : ∃ s : State, s.Executes always [] [] ∧ s.groups ≠ [] :=
  ⟨{ core0 [] with groups := [⟨0, 0, 0, [(0, [1])]⟩] }, by decide +kernel⟩
theorem wit_branch : ∃ s : State, s.Executes ⟨1, false⟩ [1] [] ∧ s.Executes Guard.always [] [] ∧ (s.core.reg 1).toNat = 0x3FFC :=
  ⟨core0 [(1, 0x3FFC)], by decide +kernel⟩
theorem wit_loop : ∃ (s : State) (k : CoreSt) (f : LoopFrame), s.Executes always [1] [] ∧ s.core.reg 1 = 0 ∧ k.firing.loops = [f] ∧
    f.stop = k.pc + 4 ∧ 1 < f.remaining :=
  ⟨core0 [], { firing := { loops := [⟨0, 4, 2⟩] } }, ⟨0, 4, 2⟩, by decide +kernel⟩
theorem wit_loop_last : ∃ (k : CoreSt) (f : LoopFrame), k.firing.loops = [f] ∧ f.stop = k.pc + 4 ∧ f.remaining ≤ 1 :=
  ⟨{ firing := { loops := [⟨0, 4, 1⟩] } }, ⟨0, 4, 1⟩, by decide +kernel⟩
theorem wit_loop_inside : ∃ (k : CoreSt) (f : LoopFrame), k.firing.loops = [f] ∧ f.stop ≠ k.pc + 4 :=
  ⟨{ firing := { loops := [⟨0, 8, 2⟩] } }, ⟨0, 8, 2⟩, by decide +kernel⟩

theorem wit_buffer : ∃ (s : State) (b c : BufConf), amGet? s.curUnit.conf.bufs 1 = some b ∧ amGet? s.curUnit.conf.bufs 2 = some c ∧
    s.Executes always [1, 2] [] ∧ (s.core.reg 1).toNat ≤ 63 ∧ (s.core.reg 1).toNat % 8 = 0 ∧ 1 < amGet s.core.firing.take 1 0 ∧
    1 < amGet s.core.firing.give 2 0 ∧ s.ReadsWell .l (b.base + 64) 8 ∧ s.Settled .f (c.base + 64) ∧
    countIf Held.entry s.core.firing.held < 256 :=
  ⟨core0 [(1, 56), (2, 1)], { sp := .l, base := 0x100000, slots := 4, name := 1 }, { sp := .f, base := 0x1000, slots := 4, name := 2 },
    by decide +kernel⟩
theorem wit_buffer_traps : ∃ (s : State), (amGet? s.curUnit.conf.bufs 1).isSome = true ∧ s.Executes always [1, 2] [] ∧ 63 < (s.core.reg 1).toNat ∧
    (s.core.reg 2).toNat ≤ 63 ∧ (s.core.reg 2).toNat % 2 ≠ 0 ∧ (s.core.reg 2).toNat % 1 = 0 ∧ amGet s.core.firing.take 1 0 ≤ 2 ∧
    amGet s.core.firing.give 1 0 ≤ 2 := ⟨core0 [(1, 64), (2, 63)], by decide +kernel⟩
-- handle 9 is not declared; 256 stores are held
theorem wit_buffer_none : ∃ (s : State), amGet? s.curUnit.conf.bufs 9 = none ∧ s.Executes always [1, 2] [] := ⟨core0 [], by decide +kernel⟩
theorem wit_buffer_full : ∃ (s : State), s.Executes always [1, 2] [] ∧ (s.core.reg 1).toNat = 63 ∧ 1 < amGet s.core.firing.give 1 0 ∧
    (amGet? s.curUnit.conf.bufs 1).isSome = true ∧ 256 ≤ countIf Held.entry s.core.firing.held := ⟨full0 [(1, 63), (2, 1)], by decide +kernel⟩
theorem wit_send_traps : ∃ (s t : State) (ch : ChanConf), s.Executes always [1, 2] [] ∧ amGet? s.curUnit.conf.chans ((s.core.reg 1).toNat % 64) = some ch ∧
    ch.cls ≠ 3 ∧ ch.cls = 2 ∧ s.core.firing.spanLo < s.core.firing.spanHi ∧ s.core.firing.spanLo ≠ openHi ∧ 256 ≤ countIf Held.entry s.core.firing.held ∧
    t.core.firing.spanHi ≤ t.core.firing.spanLo :=
  ⟨full0 [(1, 1), (2, 0)], core0 [] { firing0 with spanLo := 8 }, { data := false, cls := 2, dest := .sink 0 0 }, by decide +kernel⟩
theorem wit_send : ∃ (s : State) (ch : ChanConf), s.Executes always [1, 2] [] ∧ amGet? s.curUnit.conf.chans ((s.core.reg 1).toNat % 64) = some ch ∧
    ch.cls = 2 ∧ s.core.firing.spanLo < s.core.firing.spanHi ∧ s.core.firing.spanLo ≠ openHi ∧ countIf Held.entry s.core.firing.held < 256 ∧
    amGet? s.curUnit.conf.chans ((s.core.reg 2).toNat % 64) = none :=
  ⟨core0 [(1, 1), (2, 63)], { data := false, cls := 2, dest := .sink 0 0 }, by decide +kernel⟩
theorem wit_bind : ∃ (s : State) (a b : HandlerConf), s.Executes always [] [] ∧ amGet? s.curUnit.conf.actors 0 = some a ∧ a.isTrap = false ∧
    amGet? s.curUnit.conf.actors 1 = some b ∧ b.isTrap = true ∧ amGet? s.curUnit.conf.actors 15 = none :=
  ⟨core0 [], { cls := some 2, trap := some 1 }, { isTrap := true }, by decide +kernel⟩
theorem wit_tag : ∃ (s t : State), s.Executes always [] [] ∧ (1, 3) ∈ s.core.firing.granted ∧ (1, 3) ∉ s.core.firing.taken ∧
    t.Executes always [] [] ∧ t.core.firing.granted = [] ∧ s.Executes always [1] [] ∧
    tagAllocated s.curUnit s.core.firing 1 ((s.core.reg 1).toNat % 64) = true :=
  ⟨core0 [(1, 68)], core0 [] { firing0 with granted := [] }, by decide +kernel⟩

-- engine addresses: L of row 0, F, M; the fold's own accumulator and operand tiles
theorem wit_copy : ∃ (s : State) (src dst : EngAddr), s.Executes always [1, 1 + 1, 3] [] ∧ parseEng (s.core.reg 1) = some src ∧
    parseEng (s.core.reg 3) = some dst ∧ src.space ≠ 5 ∧ dst.space ≠ 5 ∧ (s.core.reg (1 + 1)).toNat < 2 ^ 32 ∧ (s.core.reg (1 + 1)).toNat % 8 = 0 ∧
    src.addr % 8 = 0 ∧ dst.addr % 8 = 0 ∧ s.engOk src 64 = true ∧ s.engOk dst 64 = true :=
  ⟨core0 [(1, 0), (2, 64), (3, 0x2000000000000000)], ⟨0, 0, 0, 0⟩, ⟨1, 0, 0, 0⟩, by decide +kernel⟩
theorem wit_copy_misaligned : ∃ (s : State), s.Executes always [1, 1 + 1, 3] [] ∧ (parseEng (s.core.reg 1)).isSome = true ∧
    (parseEng (s.core.reg 3)).isSome = true ∧ (s.core.reg (1 + 1)).toNat % 8 ≠ 0 := ⟨core0 [(1, 0), (2, 63), (3, 0)], by decide +kernel⟩
theorem wit_copy_acc : ∃ (s : State) (src dst : EngAddr) (t : Tile), s.Executes always [1, 1 + 1, 3] [] ∧ parseEng (s.core.reg 1) = some src ∧
    parseEng (s.core.reg 3) = some dst ∧ src.space = 5 ∧ dst.space ≠ 5 ∧ s.engTile src = some t ∧ t.role = .acc ∧ dst.addr % 8 = 0 ∧
    s.engOk dst t.size = true :=
  ⟨core0 [(1, 0xA000000000000003), (2, 0), (3, 0x2000000000000000)], ⟨5, 0, 0, 3⟩, ⟨1, 0, 0, 0⟩, { role := .acc, base := 64 }, by decide +kernel⟩
theorem wit_copy_op : ∃ (s : State) (src dst : EngAddr) (t : Tile), s.Executes always [1, 1 + 1, 3] [] ∧ parseEng (s.core.reg 1) = some src ∧
    parseEng (s.core.reg 3) = some dst ∧ src.space ≠ 5 ∧ dst.space = 5 ∧ s.engTile dst = some t ∧ t.role = .op ∧
    (s.core.reg (3 + 1)).toNat / 2 ^ 40 ≠ 0 ∧ src.addr % 8 = 0 ∧ s.engOk src t.size = true :=
  ⟨core0 [(1, 0), (2, 0), (3, 0xA000000000000004), (4, 0x10000000000)], ⟨0, 0, 0, 0⟩, ⟨5, 0, 0, 4⟩, { role := .op, base := 66 },
    by decide +kernel⟩
theorem wit_gather : ∃ (s : State) (dense sparse list : EngAddr), s.Executes always [1, 1 + 1, 3, 3 + 1] [] ∧ parseEng (s.core.reg 3) = some dense ∧
    parseEng (s.core.reg 1) = some sparse ∧ parseEng (s.core.reg (1 + 1)) = some list ∧
    ((s.core.reg (3 + 1)).toNat / 2 ^ 32, 64) ∈ [(0, 8), (1, 64), (2, 1024)] ∧ dense.space ≠ 5 ∧ sparse.space ≠ 5 ∧ list.space ≤ 1 ∧
    (s.core.reg (3 + 1)).toNat % 2 ^ 32 = 65536 ∧ dense.addr % 64 = 0 ∧ sparse.addr % 64 = 0 ∧ list.addr % 4 = 0 ∧
    s.engOk dense (65536 * 64) = true ∧ s.engOk sparse 0 = true ∧ s.engOk list (65536 * 4) = true :=
  ⟨core0 [(1, 0x6000000000000000), (2, 0x2000000000800000), (3, 0x2000000000000000), (4, 0x100010000)], ⟨1, 0, 0, 0⟩, ⟨3, 0, 0, 0⟩,
    ⟨1, 0, 0, 0x800000⟩, by decide +kernel⟩
theorem wit_scatter : ∃ (s : State) (dense sparse list : EngAddr), s.Executes always [1, 1 + 1, 3, 3 + 1] [] ∧ parseEng (s.core.reg 1) = some dense ∧
    parseEng (s.core.reg 3) = some sparse ∧ parseEng (s.core.reg (3 + 1)) = some list ∧
    ((s.core.reg (1 + 1)).toNat / 2 ^ 32, 8) ∈ [(0, 8), (1, 64), (2, 1024)] ∧ dense.space ≠ 5 ∧ sparse.space ≠ 5 ∧ list.space ≤ 1 ∧
    (s.core.reg (1 + 1)).toNat % 2 ^ 32 = 1 ∧ dense.addr % 8 = 0 ∧ sparse.addr % 8 = 0 ∧ list.addr % 4 = 0 ∧
    s.engOk dense 8 = true ∧ s.engOk sparse 0 = true ∧ s.engOk list 4 = true :=
  ⟨core0 [(1, 0x2000000000000000), (2, 1), (3, 0x6000000000000000), (4, 0)], ⟨1, 0, 0, 0⟩, ⟨3, 0, 0, 0⟩, ⟨0, 0, 0, 0⟩, by decide +kernel⟩
theorem wit_coll : ∃ (s : State) (src dst : EngAddr), s.Executes always [1, 1 + 1, 3, 3 + 1] [] ∧ parseEng (s.core.reg 1) = some src ∧
    parseEng (s.core.reg 3) = some dst ∧ src.space ≠ 5 ∧ dst.space ≠ 5 ∧
    (s.core.reg (3 + 1)).toNat % 32 < (s.getPad s.core.firing.pad).conf.folds.length ∧ (s.core.reg (1 + 1)).toNat % 64 = 0 ∧ src.addr % 8 = 0 ∧
    dst.addr % 8 = 0 ∧ s.engOk src 64 = true ∧ s.engOk dst 64 = true :=
  ⟨core0 [(1, 0x2000000000000000), (2, 64), (3, 0x2000000000000040), (4, 0)], ⟨1, 0, 0, 0⟩, ⟨1, 0, 0, 64⟩, by decide +kernel⟩
theorem wit_signal_enq : ∃ (s : State) (e : EngAddr), s.Executes always [1, 2] [] ∧ parseEng (s.core.reg 1) = some e ∧ e.space = 1 ∧ e.addr % 64 = 0 ∧
    s.engOk e 64 = true ∧ s.engOk e 8 = true ∧ (s.core.reg 2).toNat < 64 ∧ s.Executes always [] [] :=
  ⟨core0 [(1, 0x2000000000000000), (2, 63)], ⟨1, 0, 0, 0⟩, by decide +kernel⟩
theorem wit_tile_entry : ∃ (s : State), s.Executes always [1] [] ∧ s.Executes always [1, 2] [] ∧ (s.core.reg 1).toNat = 256 * 2 + 3 :=
  ⟨core0 [(1, 515), (2, 0x40)], by decide +kernel⟩
theorem wit_tile_entry_reserved : ∃ (s : State), s.Executes always [1, 2] [] ∧ 768 ≤ (s.core.reg 1).toNat ∧ (s.core.reg 2).toNat / 64 % 4 ≠ 0 :=
  ⟨core0 [(1, 768), (2, 64)], by decide +kernel⟩
theorem wit_cfgld : ∃ (s : State), s.Executes always [1] [] ∧ s.cfgldTarget 0 = some 0 ∧ s.cfgldTarget 1 = none ∧
    s.validHandle (s.core.reg 1) s.core.firing.ctx = none := ⟨core0 [(1, 0)], by decide +kernel⟩

/-- Context 1 has a handle of this configuration, and its word stands in s1; the running firing is that of cell 0's entry 0. -/
def loads0 (c : Conf) : State :=
  { core0 [(1, handleWord 1 0 0)] with
    handles := [(0, { ctx := 1, gen := 0, live := true, conf := c, image := [], place := default })], pads := [] }
theorem loads0_executes (c : Conf) : (loads0 c).Executes always [1] [] ∧ (loads0 c).core.reg 1 = handleWord 1 0 0 := by
  have h (n : Nat) : (0 : DWord).getLsbD n = false := BitVec.getLsbD_zero
  refine ⟨⟨⟨h 1, h 2, rfl, ?_, rfl⟩, rfl⟩, rfl⟩
  show [1].all (loads0 c).core.regOk = true
  simp only [List.all_cons, List.all_nil, Bool.and_true]
  show (goodReg (handleWord 1 0 0)).2 == residue3 (handleWord 1 0 0).toNat
  simp [goodReg]
theorem loads0_valid (c : Conf) : (loads0 c).validHandle ((loads0 c).core.reg 1) 1 =
    some { ctx := 1, gen := 0, live := true, conf := c, image := [], place := default } := by
  rw [(loads0_executes c).2]
  exact validHandle_handleWord (by decide) (by decide) (by decide) rfl rfl rfl rfl rfl
-- entry 0 is busy with the firing; in entry 3 a handle without a unit for the cell is rejected, one with an empty unit is loaded, and one whose
-- slot 0 holds an unassigned word is rejected
def here0 (c : UnitConf) : Conf := { units := [(.cell 0 0, c)] }
theorem wit_cfgld_busy : ∃ x, (((loads0 {}).units.filter fun x => isCellKey x.1 && idxOf x.1 == 0 && x.2.live).find? fun x => x.2.slotNo == some 0) = some x ∧
    (loads0 {}).unitBusy x.1 = true := ⟨(0, (core0 []).getU 0), by decide +kernel⟩
theorem wit_cfgld_loads : (((loads0 {}).units.filter fun x => isCellKey x.1 && idxOf x.1 == 0 && x.2.live).find? fun x => x.2.slotNo == some 3) = none ∧
    ({} : Conf).onCell 0 = none ∧ (here0 {}).onCell 0 = some (.cell 0 0, {}) ∧
    (loads0 (here0 {})).loadReject (here0 {}) (.cell 0 1) {} 1 = none ∧
    ((loads0 (here0 {})).loadReject (here0 { slots := [(0, 0x00000001, 0)] }) (.cell 0 1) { slots := [(0, 0x00000001, 0)] } 1).isSome = true := by
  decide +kernel

/-- Cell 0 with a local seed, and a record of 16 lanes of 1 on [2, 6) under tag 7 at 0x200 of its L. -/
def seed0 : State :=
  let s := core0 [(1, 0x200)]
  { (s.writeMem .l 0x200 (List.replicate 64 1 ++ [0xFF, 0xFF, 0, 0, 2, 0, 0, 0, 0, 6, 0, 0, 0, 0, 0, 0, 0, 7, 0, 0])) with
    pads := [(0, { phase := .running, ctx := 1, conf := { seeds := [{ loc := true, ofCell := 0, number := 3 }] } })] }

theorem wit_seed : ∃ (s : State) (i : Nat) (e : EngAddr) (x : Nat), s.Executes always [1] [] ∧ countIf Held.entry s.core.firing.held < 256 ∧
    isFirmware s.curCore = false ∧ localSeed (s.getPad s.core.firing.pad).conf s.curCore 3 = some i ∧ parseEng (s.core.reg 1) = some e ∧
    e.space = 0 ∧ e.row = rowOf s.curCore ∧ e.addr % 32 = 0 ∧ s.spaceAddr .l e.addr 96 = some x ∧ s.ReadsWell .l x 96 ∧
    bitOf (recField (mergeHeld .l s.core.firing.held x (s.readMem .l x 96)) 83 1) 3 = false ∧
    recSpanOk (mergeHeld .l s.core.firing.held x (s.readMem .l x 96)) = true :=
  ⟨seed0, 0, ⟨0, 0, 0, 0x200⟩, 0x200, by decide +kernel⟩
theorem wit_seed_traps : ∃ (s : State), s.Executes always [1] [] ∧ localSeed (s.getPad s.core.firing.pad).conf s.curCore 3 = some 0 ∧
    localSeed (s.getPad s.core.firing.pad).conf s.curCore 4 = none ∧ parseEng 0x0010000000000200 = some ⟨0, 0, 1, 0x200⟩ ∧ parseEng 0xE000000000000000 = none ∧
    (0x210 : Nat) % 32 ≠ 0 ∧ s.spaceAddr .l 0x180000 96 = none ∧ s.ReadsWell .l 0x400 96 ∧
    recSpanOk (mergeHeld .l s.core.firing.held 0x400 (s.readMem .l 0x400 96)) = false := ⟨seed0, by decide +kernel⟩
theorem wit_commit_full : ∃ (s : State), s.Executes always [1] [] ∧ (∀ n, n < 64 → (s.core.reg 1).getLsbD n = true → n = 0) ∧
    256 ≤ countIf Held.entry s.core.firing.held := ⟨full0 [(1, 1)], by decide +kernel⟩
theorem wit_commit : ∃ (s : State), s.Executes always [1] [] ∧ s.Executes always [2] [] ∧ (s.core.reg 1).toNat = 1 ∧
    (∃ ch, amGet? s.curUnit.conf.chans 0 = some ch ∧ ch.data = true) ∧ (s.core.reg 2).getLsbD 63 = true ∧ amGet? s.curUnit.conf.chans 63 = none :=
  ⟨core0 [(1, 1), (2, 0x8000000000000000)], by decide +kernel, by decide +kernel, by decide +kernel,
    ⟨{ data := true, cls := 2, dest := .sink 0 0 }, by decide +kernel⟩, by decide +kernel, by decide +kernel⟩

-- MFS and MTS on a cell and on the drover, values at the edge of each register's width
theorem wit_special : ∃ (s t : State), s.Executes always [1] [] ∧ s.Executes always [] [] ∧ isFirmware s.curCore = false ∧
    (s.core.reg 1).toNat < 2 ^ 40 ∧ 2 ^ 40 ≤ (s.core.reg 2).toNat ∧ t.Executes always [1] [] ∧ t.Executes always [] [] ∧
    isFirmware t.curCore = true ∧ t.core.reg 1 &&& ~~~0x1FE = 0 ∧ t.core.reg 2 &&& ~~~0x1FE ≠ 0 ∧ (t.core.reg 3).toNat < 64 ∧
    (t.core.reg 4).toNat % 2 ^ 16 = 0 ∧ (t.core.reg 4).toNat < 2 ^ 52 ∧ (t.core.reg 5).toNat < 2 ^ 32 ∧ t.update = none :=
  ⟨core0 [(1, 0xFFFFFFFFFF), (2, 0x10000000000)], drover0 [(1, 0x1FE), (2, 1), (3, 63), (4, 0xFFFFFFFFF0000), (5, 0xFFFFFFFF)], by decide +kernel⟩
theorem wit_service : ∃ (s : State), s.Executes always [1] [] ∧ (s.core.reg 1).toNat < 8 ∧
    (amGet? s.curUnit.conf.barriers (s.core.reg 1).toNat).isSome = true ∧ s.Executes always [2] [] ∧ 8 ≤ (s.core.reg 2).toNat :=
  ⟨core0 [(1, 0), (2, 8)], by decide +kernel⟩
theorem wit_trap : ∃ (s t : State), s.Executes always [] [] ∧ isFirmware s.curCore = false ∧ s.breaksFiring s.curCore = false ∧
    s.curUnit.trapHandler s.core.firing = some 1 ∧ t.curUnit.trapHandler t.core.firing = none ∧ 2 ≠ s.core.firing.ctx :=
  ⟨core0 [], core0 [] { firing0 with trapHandler := true }, by decide +kernel⟩
theorem wit_fin : ∃ (s t : State), s.Executes always [] [] ∧ isFirmware s.curCore = false ∧
    (s.curUnit.outFull && s.core.firing.held.any Held.sends) = false ∧ s.core.firing.held ≠ [] ∧
    (∀ h ∈ s.core.firing.held, h = .store .l 0 [7]) ∧ t.Executes always [] [] ∧ isFirmware t.curCore = true :=
  ⟨core0 [] { firing0 with held := [.store .l 0 [7]] }, drover0 [], by decide +kernel⟩
-- a firing that stores to S, one that sends, one that seeds, one that commits
theorem wit_fin_effects : ∃ (s t u v : State), (∀ x ∈ [s, t, u, v], x.Executes always [] [] ∧ isFirmware x.curCore = false ∧ x.curUnit.outFull = false) ∧
    s.core.firing.held = [.store .s 0 [7], .store .s 1 [8], .advp 1 3, .bind 2 1, .mask 4, .engine 0 (.enq ⟨1, 0, 0, 64⟩ 0), .excClear, .tagFree 1 4] ∧
    (s.core.firing.held.any fun h => match h with
      | .store .s a _ => s.sliceFull s.core.firing.pad s.curCore (sliceOfAddr a) || !s.permitFree s.core.firing.pad (permitKey 0 (sliceOfAddr a) 0)
      | _ => false) = false ∧
    t.core.firing.held = [.send 1 (plain0 4)] ∧ u.core.firing.held = [.seed 0 (plain0 4)] ∧ (amGet? u.pads u.core.firing.pad).isSome = true ∧
    v.core.firing.held = [.commitOn 1] :=
  ⟨core0 [] { firing0 with held := [.store .s 0 [7], .store .s 1 [8], .advp 1 3, .bind 2 1, .mask 4, .engine 0 (.enq ⟨1, 0, 0, 64⟩ 0), .excClear, .tagFree 1 4] },
    core0 [] { firing0 with held := [.send 1 (plain0 4)] }, { seed0 with cores := (core0 [] { firing0 with held := [.seed 0 (plain0 4)] }).cores },
    core0 [] { firing0 with held := [.commitOn 1] }, by decide +kernel⟩
theorem wit_fin_waits : ∃ (s : State), s.Executes always [] [] ∧ isFirmware s.curCore = false ∧
    (s.curUnit.outFull && s.core.firing.held.any Held.sends) = true :=
  ⟨let s := core0 [] { firing0 with held := [.send 0 {}] }
   s.setU 0 { s.getU 0 with outFull := true }, by decide +kernel⟩
theorem wit_fin_waits_slice : ∃ (s : State), s.Executes always [] [] ∧ isFirmware s.curCore = false ∧
    (s.core.firing.held.any fun h => match h with
      | .store .s a _ => s.sliceFull s.core.firing.pad s.curCore (sliceOfAddr a)
      | _ => false) = true :=
  ⟨let s := core0 [] { firing0 with held := [.store .s 0 [7]] }
   { s with pads := s.pads.map fun x => (x.1, { x.2 with permits := [(permitKey 0 0 0, 1)] }) }, by decide +kernel⟩

/-! ## Hypotheses of the statements on slot firings are met -/

/-- A token with a payload from its lanes, over [lo, hi), of context 1. -/
def tok (lo hi : Nat) (lanes : List Nat) : Token :=
  Token.sealed { payload := packEls 32 lanes, valid := 0xFFFF, lo := lo, hi := hi, ctx := 1 }

/-- A slot of cell 0 (or of node 0) that holds one token on each of its fields. -/
def slot0 (i : Instr) (hdr : Word) (t : Fld → Token) (consts : AMap (BitVec 16 × BitVec 512) := [])
    (f : UnitConf → UnitConf := id) : State :=
  match encodeE i with
  | some w =>
    let loc : Loc := if i.isNodeOp then .node 0 else .cell 0 0
    let conf : UnitConf := f { slots := [(0, w, hdr)], consts := consts }
    let field (x : Fld) : FieldSt :=
      { rows := [t x], frontier := (t x).hi, firstLo := some (t x).lo, closed := if (t x).hi = openHi then some openHi else none }
    let fields := (netFields conf 0 i (Hdr.ofWord hdr)).map fun x => (fkey x 0 0, field x)
    { State.reset with
      events := []
      status := 1
      curLoc := loc
      units := [(loc.key,
        { live := true, waved := true, slotNo := some 0, ctx := 1, conf := conf, tiles := conf.tiles, slots := [(0, { fields := fields })] })]
      pads := [(0, { phase := .running, ctx := 1 })]
      ctxs := [(1, { st := .live })] }
  | none => State.reset

/-- The current slot fires, and its choice is as asked. -/
def firesWith (s : State) (p : SlotEnv → Choice → Bool) : Bool :=
  match s.slotEnv s.curLoc.key s.curSlot with
  | some e =>
    match e.next (s.slotSt s.curLoc.key s.curSlot) s.curTag with
    | some c => decide (s.Fires e c) && p e c
    | none => false
  | none => false

/-- What `firesWith` tests is that the hypothesis `Fires` is met. -/
theorem firesWith_met {s : State} {p : SlotEnv → Choice → Bool} (h : firesWith s p = true) : ∃ e c, s.Fires e c ∧ p e c = true := by
  unfold firesWith at h
  split at h
  · split at h
    · rw [Bool.and_eq_true, decide_eq_true_eq] at h
      exact ⟨_, _, h⟩
    · exact Bool.noConfusion h
  · exact Bool.noConfusion h

def plain (_ : Fld) : Token := tok 2 6 [1, 2, 3, 4]

def zeros : EW := ew .f32 0

theorem wit_float : firesWith (slot0 (.vadd zeros) 0 plain) (fun _ c => decide (c.lo = 2 ∧ c.hi = 6)) = true := by decide +kernel
theorem wit_int : firesWith (slot0 (.viadd (ew .i32 4)) 0 plain) (fun _ _ => true) = true := by decide +kernel
theorem wit_vcmp : firesWith (slot0 (.vcmp (ew .f32 2)) 0 plain) (fun _ _ => true) = true := by decide +kernel
-- a conversion of bf16 to f32 in part 1, and of f64 to f16 (header: csel 10, stype)
theorem wit_vcvt : firesWith (slot0 (.vcvt zeros) 0x02000100 plain [(0, 1, 1)]) (fun e _ => decide (e.hdr.csel = 2 ∧ e.hdr.stype = .bf16x2)) =
    true := by decide +kernel
theorem wit_vmac : firesWith (slot0 (.vmac zeros) 0x400 plain) (fun _ _ => true) = true := by decide +kernel
theorem wit_vsel : firesWith (slot0 (.vsel zeros) 0 plain) (fun e _ => e.nets.contains .p) = true := by decide +kernel
theorem wit_gate : firesWith (slot0 (.gate zeros) 0 plain) (fun e _ => decide (e.hdr.net ≠ 1)) = true := by decide +kernel
theorem wit_cand : firesWith (slot0 (.cand zeros) 0 fun _ => Token.sealed { net := .control, kind := 1, payload := 1, lo := 2, hi := 6, ctx := 1 })
    (fun _ _ => true) = true := by decide +kernel
theorem wit_vperm : firesWith (slot0 (.vperm zeros) 0 plain) (fun _ _ => true) = true := by decide +kernel

-- an error-flagged left token; a closed gate by a constant without a valid lane 0 (csel 11)
def errState : State := slot0 (.vadd zeros) 0 fun f => { plain f with err := true, cause := 1 }
def gateState : State := slot0 (.vadd zeros) 0x03000000 plain
def envOf (s : State) : SlotEnv := (s.slotEnv 0 0).getD default
def choiceOf (s : State) : Choice := ((envOf s).next (s.slotSt 0 0) 0).getD default

theorem wit_error : ∃ (s : State) (e : SlotEnv) (c : Choice), s.slotEnv s.curLoc.key s.curSlot = some e ∧ s.mayFire s.curLoc.key = true ∧
    e.next (s.slotSt s.curLoc.key s.curSlot) s.curTag = some c ∧ s.fireBreak e s.curTag c.lo = false ∧
    c.faultTok = none ∧ (Instr.vadd zeros).ew?.isSome = true ∧ (Instr.vadd zeros).keepsState = false ∧ e.chainTile = none ∧
    e.instr = .vadd zeros ∧ e.errSegs (operandTy e.instr e.hdr) c ≠ [] :=
  ⟨errState, envOf errState, choiceOf errState, by decide +kernel⟩
theorem wit_closed_gate : ∃ (s : State) (e : SlotEnv) (c : Choice), s.slotEnv s.curLoc.key s.curSlot = some e ∧ s.mayFire s.curLoc.key = true ∧
    e.next (s.slotSt s.curLoc.key s.curSlot) s.curTag = some c ∧ s.fireBreak e s.curTag c.lo = false ∧
    c.faultTok = none ∧ (Instr.vadd zeros).ew?.isSome = true ∧ (Instr.vadd zeros).keepsState = false ∧ e.chainTile = none ∧
    e.instr = .vadd zeros ∧ e.errSegs (operandTy e.instr e.hdr) c = [] ∧ e.gateOpen (s.firing e c) = false :=
  ⟨gateState, envOf gateState, choiceOf gateState, by decide +kernel⟩

/-- A slot whose constant parameter has q in lanes 0 and 1 (csel 11). -/
def param0 (i : Instr) (q : Nat) (t : Fld → Token) : State := slot0 i 0x03000000 t [(0, 0xFFFF, BitVec.ofNat 512 q)]

def openTok (_ : Fld) : Token := tok 2 openHi [1]

theorem wit_span : firesWith (slot0 (.span zeros) 0 fun f => if f = .r then tok 2 6 [8, 0, 9, 0] else plain f)
    (fun _ _ => true) = true := by decide +kernel
theorem wit_span_order : firesWith (slot0 (.span zeros) 0 fun f => if f = .r then tok 2 6 [9, 0, 9, 0] else plain f)
    (fun _ _ => true) = true := by decide +kernel
theorem wit_delay : firesWith (param0 (.delay zeros) (2 ^ 40 - 2 - 6) plain)
    (fun e c => decide (c.hi + q40 e.constR 0 = 2 ^ 40 - 2)) = true := by decide +kernel
theorem wit_delay_open : firesWith (param0 (.delay zeros) 3 openTok) (fun e c => decide (c.hi = openHi ∧ c.lo + q40 e.constR 0 ≤ 2 ^ 40 - 2)) = true := by
  decide +kernel
-- lo + d is a bound still, hi + d would be the open one
theorem wit_delay_limit_hi : firesWith (param0 (.delay zeros) (2 ^ 40 - 1 - 6) plain)
    (fun e c => decide (c.lo + q40 e.constR 0 ≤ 2 ^ 40 - 2 ∧ c.hi ≠ openHi ∧ 2 ^ 40 - 2 < c.hi + q40 e.constR 0)) = true := by decide +kernel
theorem wit_delay_limit : firesWith (param0 (.delay zeros) (2 ^ 40 - 2) plain) (fun e c => decide (2 ^ 40 - 2 < c.lo + q40 e.constR 0)) = true := by
  decide +kernel
theorem wit_split : firesWith (param0 (.split zeros) 3 plain)
    (fun e c => decide (c.hi ≠ openHi ∧ 0 < q40 e.constR 0 ∧ (c.hi - c.lo + q40 e.constR 0 - 1) / q40 e.constR 0 = 2)) = true := by decide +kernel
theorem wit_split_open : firesWith (param0 (.split zeros) 3 openTok) (fun _ c => decide (c.hi = openHi)) = true := by decide +kernel
theorem wit_split_many : firesWith (param0 (.split zeros) 1 fun _ => tok 2 67 [1]) (fun e c =>
    decide (c.hi ≠ openHi ∧ (c.hi - c.lo + q40 e.constR 0 - 1) / q40 e.constR 0 = 65)) = true := by decide +kernel
theorem wit_close_before : firesWith (param0 (.close zeros) 7 plain) (fun e c => decide (c.lo < q40 e.constR 0 ∧ c.hi < q40 e.constR 0)) = true := by
  decide +kernel
theorem wit_close_at : firesWith (param0 (.close zeros) 6 plain) (fun e c => decide (c.lo < q40 e.constR 0 ∧ q40 e.constR 0 ≤ c.hi)) = true := by
  decide +kernel
theorem wit_close_after : firesWith (param0 (.close zeros) 2 plain) (fun e c => decide (q40 e.constR 0 ≤ c.lo)) = true := by decide +kernel

/-- The state of tag 0 of slot 0 of the unit under key 0. -/
def withAcc (s : State) (a : AccSt) : State := s.updSlot 0 0 fun st => { st with acc := [(0, a)] }

theorem wit_window : firesWith (param0 (.window zeros) 4 plain)
    (fun e _ => decide ((amGet (((param0 (.window zeros) 4 plain).slotSt e.key e.slot).acc) 0 {} : AccSt).window = none)) = true := by decide +kernel
theorem wit_window_same : firesWith (withAcc (param0 (.window zeros) 4 plain) { window := some 0 })
    (fun e c => decide (c.lo / q40 e.constR 0 ≤ 0)) = true := by decide +kernel
theorem wit_window_later : firesWith (withAcc (param0 (.window zeros) 1 plain) { window := some 1 })
    (fun e c => decide (1 < c.lo / q40 e.constR 0)) = true := by decide +kernel
-- a close ends a window within the last bound, one past it, and a pending token
def closedState (i : Instr) (q : Nat) (a : AccSt) : State := (withAcc (param0 i q openTok) a).updSlot 0 0 fun st => { st with doneTo := [(0, openHi)] }
theorem wit_window_close : (envOf (closedState (.window zeros) 4 {})).closePoint ((closedState (.window zeros) 4 {}).slotSt 0 0) 0 = some openHi ∧
    q40 (envOf (closedState (.window zeros) 4 {})).constR 0 = 4 ∧ 0 * 4 + 4 ≤ 2 ^ 40 - 2 ∧
    2 ^ 40 - 2 < 1 * q40 (envOf (closedState (.window zeros) (2 ^ 40 - 2) {})).constR 0 + (2 ^ 40 - 2) ∧
    (envOf (closedState (.coalesce zeros) 4 {})).closePoint ((closedState (.coalesce zeros) 4 { pending := some (plain .l) }).slotSt 0 0) 0 = some openHi := by
  decide +kernel
theorem wit_window_ends : firesWith (withAcc (param0 (.window zeros) 1 plain) { window := some 1 })
    (fun e c => decide (1 < c.lo / q40 e.constR 0 ∧ 1 * q40 e.constR 0 + q40 e.constR 0 ≤ 2 ^ 40 - 2)) = true := by decide +kernel
theorem wit_close_shut : firesWith (withAcc (param0 (.close zeros) 7 plain) { closedBit := true }) (fun _ _ => true) = true := by decide +kernel
theorem wit_spanq : firesWith (slot0 (.spanq zeros) 0 plain) (fun _ _ => true) = true := by decide +kernel
theorem wit_coalesce : firesWith (slot0 (.coalesce zeros) 0x400 plain) (fun e _ =>
    decide ((amGet ((slot0 (.coalesce zeros) 0x400 plain).slotSt e.key e.slot).acc 0 {} : AccSt).pending = none)) = true := by decide +kernel
/-- COALESCE's token against a pending one. -/
def joins0 (p : Token) (ok : Bool) : Bool :=
  firesWith (withAcc (slot0 (.coalesce zeros) 0x400 plain) { pending := some p }) fun e c =>
    let t := ((slot0 (.coalesce zeros) 0x400 plain).firing e c).moved e.hdr c.lo c.hi
    (decide (t.lo = p.hi) && sameValues p t) == ok
theorem wit_coalesce_same : joins0 (tok 0 2 [1, 2, 3, 4]) true = true := by decide +kernel
theorem wit_coalesce_gap : joins0 (tok 0 1 [1, 2, 3, 4]) false = true := by decide +kernel
theorem wit_coalesce_other : joins0 (tok 0 2 [1, 2, 3, 5]) false = true := by decide +kernel
theorem wit_vred : firesWith (slot0 (.vred (ew .f64 0)) 0x2000 plain) (fun _ _ => true) = true := by decide +kernel
theorem wit_bmm4 : firesWith (slot0 (.bmm4 zeros) 0x03000000 plain [(0, 0xFFFF, 0x04040404)]) (fun _ _ => true) = true := by decide +kernel

/-- A configuration with a state tile 5 and an accumulator 3, ring 0 of tiles 8 and 9, ring 1 of tiles 10 and 11. -/
def tiles0 (c : UnitConf) : UnitConf :=
  { c with
    tiles := [(3, { role := .acc, base := 64, kcount := 4, st := .filling }), (5, { role := .state, base := 66, st := .ready }),
      (6, { role := .acc, base := 68, st := .ready, kcount := 1, kdone := 1 })] ++
      ((List.range 4).map fun i => (8 + i, ({ role := .op, base := 70 + i, ring := i / 2, pos := i % 2 } : Tile)))
    rings := [(0, [8, 9]), (1, [10, 11])] }

theorem wit_recurrence : firesWith (slot0 (.lrec zeros) 0x03000000 plain [(0, 0xFFFF, 5)] tiles0)
    (fun e _ => (recParamOf .f32 (e.conf.constTok e.hdr.kreg).payload).chain == false) = true := by decide +kernel
theorem wit_fir : firesWith (slot0 (.fir zeros) 0x03000000 plain [(0, 0xFFFF, 5)] tiles0)
    (fun e _ => ((slot0 (.fir zeros) 0x03000000 plain [(0, 0xFFFF, 5)] tiles0).tile e.key 5).st == .ready) = true := by decide +kernel
theorem wit_fir_waits : firesWith (slot0 (.fir zeros) 0x03000000 plain [(0, 0xFFFF, 8)] tiles0)
    (fun e _ => ((slot0 (.fir zeros) 0x03000000 plain [(0, 0xFFFF, 8)] tiles0).tile e.key 8).st != .ready) = true := by decide +kernel

def mat0 : MatW := ⟨.f16x2, 0, 0, 1, 3, .f16x2, true, false, false⟩
/-- Bytes of weights under ring B, a READY accumulator; described blocks. -/
def mat1 : MatW := { mat0 with acc := 6, tyB := .i8x4 }
def mat2 : MatW := { mat0 with ty := .f32, tyB := .f32, md := 1 }

theorem wit_matrix : firesWith (slot0 (.mma mat0) 0 plain [] tiles0) (fun e c =>
    let s := slot0 (.mma mat0) 0 plain [] tiles0
    let t := s.tile e.key mat0.acc.toNat
    t.st == .filling && s.ownerMayGo e (s.firing e c) 3 && s.ringTurn e (s.firing e c) && decide (t.kdone + 1 < t.kcount)) = true := by decide +kernel
/-- The accumulator is EMPTY, or has one block left. -/
def accAt (st : TileState) (done : Nat) (c : UnitConf) : UnitConf :=
  { tiles0 c with tiles := (tiles0 c).tiles.map fun x => (x.1, if x.1 = 3 then { x.2 with st := st, kdone := done } else x.2) }
theorem wit_matrix_opens : firesWith (slot0 (.mma mat0) 0 plain [] (accAt .empty 4)) (fun e c =>
    let s := slot0 (.mma mat0) 0 plain [] (accAt .empty 4)
    (s.tile e.key mat0.acc.toNat).st == .empty && s.ownerMayGo e (s.firing e c) 3 && s.ringTurn e (s.firing e c)) = true := by decide +kernel
theorem wit_matrix_completes : firesWith (slot0 (.mma mat0) 0 plain [] (accAt .filling 3)) (fun e c =>
    let s := slot0 (.mma mat0) 0 plain [] (accAt .filling 3)
    let t := s.tile e.key mat0.acc.toNat
    t.st == .filling && s.ownerMayGo e (s.firing e c) 3 && s.ringTurn e (s.firing e c) && decide (t.kdone + 1 = t.kcount)) = true := by decide +kernel
-- sixteen rows of [0, 16), of [0, 15) none fits
theorem wit_emit : ∃ (t u : Tile), (t.hi - t.lo) / (t.size / 64) ≠ 0 ∧ t.hi ≠ openHi ∧ (u.hi - u.lo) / (u.size / 64) = 0 :=
  ⟨{ role := .acc, hi := 16 }, { role := .acc, hi := 15 }, by decide +kernel⟩
theorem wit_matrix_waits : firesWith (slot0 (.mmaw mat1) 0 plain [] tiles0) (fun e _ =>
    ((slot0 (.mmaw mat1) 0 plain [] tiles0).tile e.key mat1.acc.toNat).st == .ready) = true := by decide +kernel
-- zero bytes are no block with a valid 0x61#8, 0x74#8, 0x60#8, 0x25#8
theorem wit_block_error : firesWith (slot0 (.mmab mat2) 0 plain [] tiles0) (fun e c =>
    let s := slot0 (.mmab mat2) 0 plain [] tiles0
    match checkBlock ((s.tileBytes e.key (s.tile e.key (e.conf.ringTile 0 (s.firing e c).l.cnum)) 0 1024).take 64) with
    | .error _ => true
    | .ok _ => false) = true := by decide +kernel
/-- A zero block with its 0x61#8, 0x74#8, 0x60#8, 0x25#8. -/
def zeroBlock : List Byte := 0x0F#8 :: List.replicate 55 0#8 ++ [0x61#8, 0x74#8, 0x60#8, 0x25#8] ++ List.replicate 4 0#8
def blockState : State :=
  let bytes := zeroBlock.zipIdx.filter fun x => x.1 != 0
  { slot0 (.mmab mat2) 0 plain [] tiles0 with
    memL := [70, 72].flatMap fun k => (List.range 16).flatMap fun i => bytes.map fun x => ⟨k * 1024 + 64 * i + x.2, x.1⟩ }
def zeroChecked : Block := ⟨0x0F, 0, List.replicate 6 0, List.replicate 48 0⟩
-- both tiles hold it in every row; row 0 is read
theorem wit_blocks : firesWith blockState (fun e c =>
    decide (e.conf.ringTile 0 (blockState.firing e c).l.cnum = 8 ∧ e.conf.ringTile 1 (blockState.firing e c).r.cnum = 10) &&
      [8, 10].all fun n => blockState.tileBytes e.key (blockState.tile e.key n) 0 64 == zeroBlock) = true := by
  decide +kernel
theorem wit_blocks_check : (match checkBlock zeroBlock with
    | .ok b => decide (b = zeroChecked)
    | .error _ => false) = true ∧ (accBlocks false (some 0) zeroChecked zeroChecked).isSome = true := by decide +kernel

def tclr (n : BitVec 6) : Instr := .tclr ⟨.f32, 0, 0, n, .f32⟩
def tileOp (src dst : BitVec 6) : TileW := ⟨.f32, 0, src, dst, .f32⟩

/-- The destination of a tile operation waits for no side access and is not swapped out. -/
def sideFree (s : State) (n : Nat) (p : Tile → Bool) : Bool :=
  firesWith s fun e c => s.sideMayGo e (s.firing e c) n && decide ((s.tile e.key n).swapped = none) && p (s.tile e.key n)

theorem wit_tclr_ready : sideFree (slot0 (tclr 6) 0 plain [] tiles0) 6 (fun t => decide (t.role = .acc ∧ t.st = .ready)) = true := by decide +kernel
theorem wit_tclr_filling : sideFree (slot0 (tclr 3) 0 plain [] tiles0) 3 (fun t => decide (t.role = .acc ∧ t.st = .filling)) = true := by decide +kernel
theorem wit_tclr_state : sideFree (slot0 (tclr 5) 0 plain [] tiles0) 5 (fun t => decide (t.role ≠ .acc ∧ t.st = .ready)) = true := by decide +kernel
theorem wit_tcvt_filling : sideFree (slot0 (.tcvt (tileOp 3 8)) 0 plain [] tiles0) 3 (fun t => decide (t.st = .filling)) = true := by decide +kernel
theorem wit_tcvt : firesWith (slot0 (.tcvt (tileOp 6 8)) 0 plain [] tiles0) (fun e c =>
    let s := slot0 (.tcvt (tileOp 6 8)) 0 plain [] tiles0
    s.sideMayGo e (s.firing e c) 6 && decide ((s.tile e.key 6).st = .ready ∧ e.writes = some 0) && (s.ringTail e c.lo s.curTag).isSome) = true := by
  decide +kernel
/-- The tail of ring 0 is READY. -/
def tailReady (c : UnitConf) : UnitConf :=
  { tiles0 c with tiles := (tiles0 c).tiles.map fun x => (x.1, if x.1 = 8 then { x.2 with st := .ready } else x.2) }
theorem wit_tcvt_waits : firesWith (slot0 (.tcvt (tileOp 6 8)) 0 plain [] tailReady) (fun e c =>
    let s := slot0 (.tcvt (tileOp 6 8)) 0 plain [] tailReady
    s.sideMayGo e (s.firing e c) 6 && decide ((s.tile e.key 6).st = .ready) && (s.ringTail e c.lo s.curTag).isNone) = true := by decide +kernel
theorem wit_tile_tail_waits : firesWith (slot0 (.tfill (tileOp 0 8)) 0 plain [] tailReady) (fun e c =>
    ((slot0 (.tfill (tileOp 0 8)) 0 plain [] tailReady).ringTail e c.lo 0).isNone) = true := by decide +kernel
theorem wit_tile_tail : firesWith (slot0 (.trow ⟨.f32, 0, noOne, noOne⟩) 0 plain [] tiles0) (fun e c =>
    match (slot0 (.trow ⟨.f32, 0, noOne, noOne⟩) 0 plain [] tiles0).ringTail e c.lo 0 with
    | some (s1, _) => decide (e.writes = some 0) && s1.memWf
    | none => false) = true := by decide +kernel

theorem wit_carry : firesWith (slot0 (.carry (ew .f32 1)) 0x03000000 plain [(0, 0xFFFF, 5)] tiles0) (fun e c =>
    let s := slot0 (.carry (ew .f32 1)) 0x03000000 plain [(0, 0xFFFF, 5)] tiles0
    s.sideMayGo e (s.firing e c) 5 && decide ((s.tile e.key 5).st = .ready) && elValid 32 (s.firing e c).l.valid 0) = true := by decide +kernel
theorem wit_carry_empty_lane : firesWith (slot0 (.carry (ew .f32 1)) 0x03000000 (fun f => { plain f with valid := 0xFFFE }) [(0, 0xFFFF, 5)] tiles0)
    (fun e c =>
      let s := slot0 (.carry (ew .f32 1)) 0x03000000 (fun f => { plain f with valid := 0xFFFE }) [(0, 0xFFFF, 5)] tiles0
      s.sideMayGo e (s.firing e c) 5 && decide ((s.tile e.key 5).st = .ready) && !elValid 32 (s.firing e c).l.valid 0) = true := by decide +kernel
theorem wit_carry_waits : firesWith (slot0 (.carry (ew .f32 2)) 0x03000000 plain [(0, 0xFFFF, 8)] tiles0)
    (fun e _ => ((slot0 (.carry (ew .f32 2)) 0x03000000 plain [(0, 0xFFFF, 8)] tiles0).tile e.key 8).st != .ready) = true := by decide +kernel
-- TEAR with K 1, W 4 and 8: [2, 6) crosses a batch of 4, not one of 8
theorem wit_tear_crosses : firesWith (slot0 (.tear zeros) 0x03000000 plain [(0, 0xFFFF, packEls 32 [1, 4, 0, 1])])
    (fun e c => decide (c.lo / e.tearParam.w ≠ (c.hi - 1) / e.tearParam.w)) = true := by decide +kernel
theorem wit_tear : firesWith (slot0 (.tear zeros) 0x03000000 plain [(0, 0xFFFF, packEls 32 [1, 8, 0, 1])])
    (fun e c => decide (c.hi ≠ openHi ∧ c.lo / e.tearParam.w = (c.hi - 1) / e.tearParam.w)) = true := by decide +kernel

/-- Rank 0 goes to destination 0, rank 1 to destination 1. -/
def route0 : Token := Token.sealed { payload := packEls 32 [0, 1, 0, 0, 5, 6], valid := 0x33, lo := 2, hi := 3, ctx := 1 }
def tearing (policy cap0 : Nat) : TearParam := ⟨1, policy, true, 8, 2, [cap0, 4]⟩
-- room at rank 0; none there: held, placed at rank 1, dropped
theorem wit_tear_copies : ∃ (x : TearSt) (y : TearRec), (x.recs.find? fun z => z.id == 0) = some y ∧
    (∀ p ∈ [tearing 0 0, tearing 1 0, tearing 2 0, tearing 0 1], tearUsable p route0 y.copies 0 = true) ∧ tearUsable (tearing 2 0) route0 y.copies 1 = true ∧
    tearUsable (tearing 0 0) route0 y.copies 2 = false ∧ x.usedAt 0 < nthD (tearing 0 1).cap 0 0 ∧ ¬ x.usedAt 0 < nthD (tearing 1 0).cap 0 0 ∧
    (x.heldAt 0).length < 16 ∧ x.usedAt 1 < nthD (tearing 2 0).cap 1 0 :=
  ⟨{ batch := some 0, recs := [⟨0, route0, List.replicate 4 .none⟩] }, ⟨0, route0, List.replicate 4 .none⟩, by decide +kernel⟩
theorem wit_tear_record : nthD ([.placed 0 16 0 5, .none, .none, .none] : List CopySt) 0 .none = .placed 0 16 0 5 := by decide

/-- One record with one claim, at destination 0 for lo 5, and what it has met. -/
def record0 (met : Option Token) (decided : Bool) : MusterRec :=
  { tok := Token.sealed { payload := packEls 32 [0, 0, 0, 0, 0x3F800000, 0, 0, 0, 5], valid := 0x311, lo := 2, hi := 6, ctx := 1 }
    met := [met, none, none, none], decided := [decided, true, true, true] }
def muster0 (met : Option Token) (decided : Bool) : State :=
  (slot0 (.muster zeros) 0 plain).updU 0 fun u => { u with muster := [record0 met decided] }

/-- A predicate of this value over [2, 6) gates the MUSTER of a cell. -/
def gated0 (value : Nat) : State :=
  (slot0 (.muster zeros) 0 (fun f => if f = .p then Token.sealed { net := .control, kind := 1, payload := BitVec.ofNat 512 value, lo := 2, hi := 6, ctx := 1 } else plain f) []
    fun c => { c with fed := [(0, .p, .control)] }).updU 0
    fun u => { u with muster := [record0 (some (plain .l)) true] }
/-- A MUSTER fires, and its record and choice are as asked. -/
def musters (s : State) (p : SlotEnv → MusterRec → Choice → Bool) : Bool :=
  match s.slotEnv s.curLoc.key s.curSlot with
  | some e =>
    match e.musterFire (s.getU s.curLoc.key) s.curTag with
    | some (r, c) => s.mayFire s.curLoc.key && !s.fireBreak e s.curTag c.lo &&
        ((c.segs.flatMap (·.2.tokens) ++ r.tok :: r.copies.map (·.2)).all fun t => !t.err && !t.isFault && !residueBad t) && e.hdr.net != 1 &&
        s.unarmed e && p e r c
    | none => false
  | none => false
theorem wit_muster : musters (muster0 (some (plain .l)) true) (fun e _ c => !e.nets.contains .p &&
    e.gateOpen ((muster0 (some (plain .l)) true).firing e c)) = true := by decide +kernel
theorem wit_muster_gate : musters (gated0 1) (fun e r c => e.nets.contains .p && e.gateOpen ((gated0 1).firing e c) &&
      e.musterOver ((gated0 1).slotSt 0 0) r c.hi) = true ∧
    musters (gated0 0) (fun e _ c => e.nets.contains .p && !e.gateOpen ((gated0 0).firing e c)) = true := by decide +kernel
theorem wit_muster_timeout : ∃ (s : State) (u : Loc) (r : MusterRec) (p : Nat × Nat × Nat), (s.getU u.key).muster.head? = some r ∧
    (s.getPad (s.getU u.key).pad).stop = false ∧ ((musterClaims r.tok).find? fun y => !nthD r.decided y.1 true) = some p :=
  ⟨muster0 none false, .cell 0 0, record0 none false, (0, 0, 5), by decide +kernel⟩

/-! Nodes. -/

/-- Node 0 with a window onto its slice and one onto M. -/
def node0 (i : Instr) (hdr : Word) (consts : AMap (BitVec 16 × BitVec 512) := []) : State :=
  slot0 i hdr plain consts fun c =>
    { c with windows := [(0, { sp := .s, extent := 1024 }), (1, { sp := .m, extent := 2 ^ 20 })] }

theorem wit_astr : firesWith (node0 (.astr (ew .i32 0)) 0x02000000 [(0, 0xFFFF, packEls 32 [8, 17])]) (fun e c =>
    let s := node0 (.astr (ew .i32 0)) 0x02000000 [(0, 0xFFFF, packEls 32 [8, 17])]
    (s.firing e c).l.valid.getLsbD 0 && decide (c.hi ≠ openHi ∧ (c.hi - c.lo) / ((laneAt e.constR 1 + 15) / 16) ≠ 0)) = true := by
  decide +kernel

/-- An access of node 0 reaches its bytes. -/
def reaches (s : State) (x : EW) (write : Bool) (p : SlotEnv → Choice → Bool := fun _ _ => true) : Bool :=
  firesWith s fun e c =>
    let fi := s.firing e c
    !s.heldBack e s.curTag && s.sbarsPassed e fi && p e c &&
      match (NodeAcc.mk e fi x write fi.r.valid).reach s with
      | .refs s1 l => !l.isEmpty && l.all fun r => decide (r.bad = none ∧ r.lane < 16 ∧ r.ext = false) &&
          ((linesOf r.addr 4).all fun y => (s1.unhold e s.curTag).markOf r.sp y == none)
      | _ => false

theorem wit_ldn : firesWith (node0 (.ldn zeros) 0) (fun e c =>
    let s := node0 (.ldn zeros) 0
    let fi := s.firing e c
    !s.heldBack e s.curTag && s.sbarsPassed e fi &&
      match (NodeAcc.mk e fi zeros false 0xFFFF).reach s with
      | .refs s1 l => l.all fun r => decide (r.bad = none ∧ r.lane < 16) &&
          ((linesOf r.addr 4).all fun y => (s1.unhold e s.curTag).markOf r.sp y == none)
      | _ => false) = true := by decide +kernel
theorem wit_stn : reaches (node0 (.stn zeros) 0) zeros true = true := by decide +kernel
theorem wit_ldsc_waits : firesWith (node0 (.ldsc zeros) 0) (fun e c =>
    let s := node0 (.ldsc zeros) 0
    !s.heldBack e s.curTag && s.sbarsPassed e (s.firing e c) && decide ((s.getU e.key).scBudget = 0)) = true := by decide +kernel
theorem wit_stsc : reaches ((node0 (.stsc zeros) 0).updU 1 fun u => { u with scBudget := 8 }) zeros true = true := by decide +kernel
theorem wit_updn : reaches (node0 (.updn zeros) 0) zeros true (fun e c =>
    (node0 (.updn zeros) 0).updMayGo e ((node0 (.updn zeros) 0).firing e c) && !(e.window zeros).described) = true := by decide +kernel

/-- Address pairs 0x1000 and 0x2000; M holds a table of one level and a page of 1 GiB that maps them. -/
def xlate0 (leaf : Nat) : State :=
  let s := slot0 (.xlate (ew .i32 2)) 0 (fun _ => Token.sealed { payload := packEls 64 [0x1000, 0x2000], valid := 0xF, lo := 2, hi := 6, ctx := 1 }) []
    fun c => { c with windows := [(1, { sp := .m, extent := 2 ^ 20 })] }
  { (s.writeMem .m 0x10000 (toBytes 8 0x20001)).writeMem .m 0x20000 (toBytes 8 leaf) with ctxs := [(1, { st := .live, root := 0x10000 })] }

def xlates (s : State) (p : List (Nat × PairRes) → Bool) : Bool :=
  firesWith s fun e c => !s.heldBack e s.curTag && p (s.xlatePairs e (e.window (ew .i32 2)) (s.firing e c) [0, 1]).2

theorem wit_xlate : xlates (xlate0 0x40000007) (fun rs => decide (rs = [(0, .phys 0x40001000), (1, .phys 0x40002000)])) = true := by decide +kernel
theorem wit_xlate_fault : xlates (xlate0 0x40000087) (fun rs => decide (rs = [(0, .fault 0x0200000000001000), (1, .fault 0x0200000000002000)])) =
    true := by decide +kernel

/-! ## Hypotheses of the statements on tokens, sources and commits are met -/

/-- A cell with a VADD in slot 0 whose fields are empty, in a running paddock. -/
def way0 : State := (slot0 (.vadd zeros) 0 plain [] fun c => { c with tags := [(0, 8)] }).updSlot 0 0 fun _ => {}
def free0 : FieldSt := {}
def conf1 : Conf :=
  { seeds := [{ dest := .field (.cell 0 0) 0 .l }], sinks := [{}], folds := [0], units := [(.cell 0 0, {}), (.node 0, {})]
    members := [(0, [0, 1])], joins := [{}, { dest := .sink 0 0 }], scRing := [0] }
def pad0 : Pad := { phase := .running, ctx := 1, conf := conf1 }
def padOn (p : Pad) : State := { way0 with pads := [(0, p)] }

-- a token of the slot's tag space finds a free row; one of tag space 1 does not; a field whose stream stands at 6 and one that is closed
theorem wit_arrival : ∃ (s : State) (u : Loc) (t : Token) (e : SlotEnv), (s.getPad (s.padOfUnit u)).stop = false ∧
    s.tokenBreak (s.padOfUnit u) (.token u 0 .l) = false ∧ t.abort = false ∧ (s.getU u.key).live = true ∧ (s.getU u.key).ctx = t.ctx ∧
    (s.getU u.key).out u = false ∧ s.slotEnv u.key 0 = some e ∧ e.instr = .vadd zeros ∧ t.isData = true ∧ t.tag / 64 = e.hdr.tsp ∧
    ({ t with tag := 64 } : Token).tag / 64 ≠ e.hdr.tsp ∧ e.takesNet .l t.net = true ∧ e.takesNet .l .scalar = false ∧
    t.tag % 64 < amGet e.conf.tags e.hdr.tsp 1 ∧ free0.broken = false ∧ free0.rows.length ≤ e.hdr.dep ∧
    e.epoch (s.slotSt u.key 0) .l 0 ≤ (s.slotSt u.key 0).aligned ∧ free0.closed = none ∧ free0.frontier ≤ t.lo :=
  ⟨way0, .cell 0 0, plain .l, envOf way0, by decide +kernel⟩
theorem wit_arrival_order : ∃ (s : State) (x : FieldSt), x = (s.slotSt 0 0).field .l 0 ∧ x.broken = false ∧ (plain .l).lo < x.frontier ∧
    x.rows.length ≤ (envOf s).hdr.dep ∧ (s.getPad 0).stop = false :=
  ⟨slot0 (.vadd zeros) 0x800 plain, ((slot0 (.vadd zeros) 0x800 plain).slotSt 0 0).field .l 0, by decide +kernel⟩
theorem wit_arrival_full : ∃ (s : State), ¬ ((s.slotSt 0 0).field .l 0).rows.length ≤ (envOf s).hdr.dep ∧
    ((s.slotSt 0 0).field .l 0).broken = false ∧ (s.getU 0).out (.cell 0 0) = false :=
  ⟨slot0 (.vadd zeros) 0 plain, by decide +kernel⟩
theorem wit_arrival_abort : ∃ (t : Token), t.abort = true ∧ (way0.getPad (way0.padOfUnit (.cell 0 0))).stop = false := ⟨{ abort := true }, by decide +kernel⟩
theorem wit_arrival_other : ∃ (t : Token), t.abort = false ∧ (way0.getU 0).ctx ≠ t.ctx := ⟨{ ctx := 2 }, by decide +kernel⟩
theorem wit_arrival_miss : ∃ (s : State), (s.getU 0).live = true ∧ (s.getU 0).ctx = (plain .l).ctx ∧ (s.getU 0).out (.cell 0 0) = true :=
  ⟨way0.updU 0 fun u => { u with slotNo := none }, by decide +kernel⟩
theorem wit_commit_arrival : ∃ (s : State) (e : SlotEnv), s.slotEnv 0 0 = some e ∧ e.conf.loopFed.contains (0, .l) = false ∧
    (commitToken 1 1 0 0).isCommit = true ∧ (commitToken 1 1 0 0).abort = false ∧ (s.getU 0).ctx = (commitToken 1 1 0 0).ctx :=
  ⟨way0, envOf way0, by decide +kernel⟩

/-- Two tokens of two tags wait in the overflow queue. -/
def waiting0 : State :=
  { way0 with pads := [(0, { pad0 with overflow := [⟨.cell 0 0, 0, .l, 0, { plain .l with tag := 3 }⟩, ⟨.cell 0 0, 0, .l, 0, plain .l⟩] })] }
theorem wit_reinject : ∃ (s : State) (e : SlotEnv) (x : OvEntry), (s.getPad 0).stop = false ∧ s.slotEnv 0 0 = some e ∧
    firstEntry (s.reinjectable e) = some x ∧ x.tok.tag = 0 ∧ (s.reinjectable e).length = 2 :=
  ⟨waiting0, envOf waiting0, ⟨.cell 0 0, 0, .l, 0, plain .l⟩, by decide +kernel⟩
theorem wit_trigger : ∃ (t : Token), (way0.getPad (way0.padOfUnit (.cell 0 0))).stop = false ∧ t.abort = false ∧ (way0.getU 0).ctx = t.ctx ∧
    t.net ≠ .control ∧ t.isClose = false ∧ t.valid.getLsbD 0 = true := ⟨{ net := .scalar, kind := 2, valid := 1, ctx := 1 }, by decide +kernel⟩

/-- A token that holds to its checks and comes by output port 0 of a cell to its switch box. -/
def hop0 : Hop := { tok := plain .l, ends := [.field (.cell 0 0) 0 .l], crc := hopCrc (plain .l), site := (Loc.cell 0 0).site, inp := 4 }
theorem wit_hop : hop0.crcOk = true ∧ hop0.tok.route = hop0.routeWant ∧ Token.kindOk hop0.tok = true ∧ Token.spanOk hop0.tok = true ∧
    hop0.tok.net ≠ .control ∧ hop0.tok.residue = laneResidues hop0.tok.net hop0.tok.payload ∧
    ({ hop0.tok with residue := 1 } : Token).residue ≠ laneResidues hop0.tok.net hop0.tok.payload := ⟨beq_self_eq_true _, by decide +kernel⟩
/-- Words of a box: net 01 and class 0 from one input to one output. -/
def through (inp out : Nat) : BitVec 16 := BitVec.ofNat 16 (2 ^ 14 + out * 2 ^ 11 + inp * 2 ^ 7)
/-- The paddock's switch words stand at cell 0's box, or at the same row of the last column and of a column between. -/
def box0 (inp out : Nat) (sites : List Nat) : State := padOn { pad0 with conf := { conf1 with switches := sites.map fun x => (x, through inp out) } }
theorem wit_hop_ends : (box0 4 4 [(Loc.cell 0 0).site]).endsHere hop0 (.field (.cell 0 0) 0 .l) = true ∧
    (arrivalAt (.field (.cell 0 0) 0 .l) hop0.tok).isSome = true := by decide +kernel
theorem wit_hop_goes : ∃ h : Hop, h.ends = [.field (.cell 0 0) 0 .l] ∧
    (box0 4 1 [h.site]).endsHere h (.field (.cell 0 0) 0 .l) = false ∧ (((box0 4 1 [h.site]).hopOuts h).filter fun o => decide (o < 4)) = [1] ∧
    (neighbour h.site 1).any (fun x => sitePasture x == sitePasture h.site) = true := ⟨{ hop0 with site := siteOf 0 3 0 }, by decide +kernel⟩
theorem wit_hop_crosses : ∃ h : Hop, h.ends = [.field (.cell 0 0) 0 .l] ∧ h.tok.abort = false ∧
    (box0 4 1 [h.site]).endsHere h (.field (.cell 0 0) 0 .l) = false ∧ (((box0 4 1 [h.site]).hopOuts h).filter fun o => decide (o < 4)) = [1] ∧
    (neighbour h.site 1).any (fun x => sitePasture x != sitePasture h.site) = true := ⟨{ hop0 with site := siteOf 0 15 0 }, by decide +kernel⟩
/-- Every paddock runs, nothing stops at a breakpoint, and no injection is armed. -/
def freely (s : State) : Bool := (s.pads.all fun x => !x.2.stop) && s.breaks.isEmpty && s.masks.isEmpty && s.cores.all fun x => x.2.errmask == 0
theorem amGet_of_all {α : Type} {p : α → Prop} {m : AMap α} {d : α} (h : ∀ x ∈ m, p x.2) (hd : p d) (k : Nat) : p (amGet m k d) := by
  unfold amGet
  induction m with
  | nil => exact hd
  | cons x m ih =>
    unfold amGet?
    split
    · exact h _ (List.mem_cons_self ..)
    · exact ih fun y hy => h y (List.mem_cons_of_mem _ hy)
theorem freely_met {s : State} (h : freely s = true) :
    (∀ p, (s.getPad p).stop = false) ∧ (∀ i, (s.coreOf i).errmask = 0) ∧ s.masks = [] ∧ ∀ p x, s.portBreak p x = none := by
  simp only [freely, Bool.and_eq_true, List.all_eq_true, Bool.not_eq_true', beq_iff_eq, List.isEmpty_iff] at h
  exact ⟨amGet_of_all (p := fun x : Pad => x.stop = false) h.1.1.1 rfl, amGet_of_all (p := fun x : CoreSt => x.errmask = 0) h.2 rfl, h.1.2,
    fun p x => by simp [State.portBreak, h.1.1.2]⟩
theorem wit_hop_state : freely way0 = true := by decide +kernel
theorem wit_join : ∃ (s : State) (t : Token) (x : Bool × Token), (s.getPad 0).stop = false ∧ t.abort = false ∧ (s.getPad 0).ctx = t.ctx ∧
    t.isCommit = false ∧ t.isClose = false ∧
    ((amGet (s.getPad 0).joins 0 ({} : JoinSt)).wait.find? fun x => x.1 != true && x.2.cls == t.cls && x.2.tag == t.tag && x.2.seq == t.seq) = some x ∧
    x.2.lo = t.lo ∧ x.2.hi = t.hi ∧ t.close = false ∧ x.2.close = false :=
  ⟨padOn { pad0 with joins := [(0, { wait := [(false, plain .l)] })] }, plain .r, (false, plain .l), by decide +kernel⟩
theorem wit_join_span : ∃ (s : State) (x : Bool × Token),
    ((amGet (s.getPad 0).joins 0 ({} : JoinSt)).wait.find? fun x => x.1 != true && x.2.cls == 0 && x.2.tag == 0 && x.2.seq == 0) = some x ∧
    x.2.hi ≠ (plain .l).hi ∧ (s.getPad 0).ctx = 1 :=
  ⟨padOn { pad0 with joins := [(0, { wait := [(false, { plain .l with hi := 7 })] })] }, (false, { plain .l with hi := 7 }), by decide +kernel⟩
theorem wit_join_first : ∃ (s : State), ((amGet (s.getPad 0).joins 0 ({} : JoinSt)).wait.find? fun x =>
    x.1 != true && x.2.cls == 0 && x.2.tag == 0 && x.2.seq == 0) = none ∧ (s.getPad 0).ctx = 1 := ⟨padOn pad0, by decide +kernel⟩

/-- A seed with two records in the host's memory; the first stands on [2, 6) under tag 7. -/
def seeds0 : State :=
  let s := padOn { pad0 with seeds := [(0, { extent := 192, host := true })] }
  s.writeMem .h 0 (List.replicate 64 1 ++ [0xFF, 0xFF, 0, 0, 2, 0, 0, 0, 0, 6, 0, 0, 0, 0, 0, 0, 0, 7, 0, 0])
/-- What the seed reads. -/
def seedBytes (s : State) : Option (List Byte) :=
  match s.range 1 true false 0 0 96 with
  | (s1, .parts l) =>
    match s1.readParts l with
    | (_, r, none) => some r
    | _ => none
  | _ => none
theorem wit_seed_token : (seeds0.getPad 0).stop = false ∧ (seeds0.getPad 0).seedMay 0 = true ∧
    ((seedBytes seeds0).any fun r => recSpanOk r && !recIsClose r && decide (recField r 73 5 ≤ 2 ^ 40 - 2)) = true := by decide +kernel
/-- The seed's records stand in M, whose first line is poisoned; another one's span is empty. -/
theorem wit_seed_fails : ((({ seeds0 with marks := [(.h, 0, .poison)] } : State).readParts [{ sp := .h, addr := 0, len := 96 }]).2.2).isSome = true ∧
    ((seedBytes (seeds0.writeMem .h 73 (zeroBytes 5))).any fun r => !recSpanOk r) = true := by decide +kernel
theorem wit_seed_end : ∃ (s : State), (s.getPad 0).stop = false ∧ (s.getPad 0).seedMay 0 = true ∧
    (amGet (s.getPad 0).seeds 0 ({} : SeedSt)).extent < 96 * ((amGet (s.getPad 0).seeds 0 ({} : SeedSt)).next + 1) :=
  ⟨padOn { pad0 with seeds := [(0, { extent := 95 })] }, by decide +kernel⟩
theorem wit_sink : ∃ (p : Pad) (c : SinkConf) (t : Token), p.stop = false ∧ p.phase = .running ∧ p.conf.sinks[0]? = some c ∧ t.abort = false ∧
    t.ctx = p.ctx ∧ t.isData = true ∧ t.err = false ∧ t.close = false ∧ (amGet p.sinks 0 ({} : SinkSt)).extent < 96 * (t.seq + 1) ∧ t.exc = false :=
  ⟨pad0, {}, plain .l, by decide +kernel⟩
theorem wit_sink_room : ∃ (p : Pad) (t : Token), p.phase = .running ∧ 96 * (t.seq + 1) ≤ (amGet p.sinks 0 ({} : SinkSt)).extent ∧ t.ctx = p.ctx :=
  ⟨{ pad0 with sinks := [(0, { extent := 96 })] }, plain .l, by decide +kernel⟩

/-- A sink in the host's memory that has one record of commit 1, and has aligned it. -/
def commit0 : State :=
  (padOn { pad0 with conf := { conf1 with units := [] }, sinks := [(0, { extent := 96, host := true, aligned := 1, log := [(1, ⟨0, plain .l⟩)] })] }).updSlot 0
    0 fun st => { st with aligned := 1 }
def jobs0 : List (Nat × SinkConf × SinkSt × List Record) :=
  [(0, {}, { extent := 96, host := true, aligned := 1, log := [(1, ⟨0, plain .l⟩)] }, [⟨0, plain .l⟩])]
theorem wit_commit_complete : (commit0.getPad 0).phase = .running ∧ (commit0.getPad 0).sinks ≠ [] ∧
    (∀ x ∈ (commit0.getPad 0).sinks, (commit0.getPad 0).commit + 1 ≤ x.2.aligned) ∧ commit0.snapshotsHeld 0 1 = true ∧
    (State.translateLogs (commit0.getPad 0) jobs0 (commit0.pageCame 0 0) []).2.1.isSome = true := by decide +kernel
-- the host refuses the sink's page
theorem wit_commit_fault : (match State.translateLogs (commit0.getPad 0) jobs0 { commit0 with ats := [(2, 0)] } [] with
    | (_, none, .fault f) => f.code == 0x11
    | _ => false) = true := by decide +kernel
-- the package's tables do not map the sink's page
theorem wit_commit_wait : (match State.translateLogs (commit0.getPad 0) [(0, {}, { extent := 96, aligned := 1, log := [(1, ⟨0, plain .l⟩)] }, [⟨0, plain .l⟩])]
      (commit0.pageCame 0 0) [] with
    | (_, none, .wait _ _ _) => true
    | _ => false) = true := by decide +kernel
theorem wit_publish_held : (State.translateLogs (commit0.getPad 0) jobs0 (commit0.pageCame 0 1) []).2.1.isSome = true := by decide +kernel
theorem wit_publish : ∃ (s : State), (s.getPad 0).phase = .running ∧ s.testedCommit (s.getPad 0) = 0 ∧ (∀ x ∈ s.units, x.2.stores = []) :=
  ⟨commit0, by decide +kernel⟩
theorem wit_wave : ∃ (p q : Pad), p.waveLeft.contains (.cell 0 0) = true ∧ p.waveLeft.erase (.cell 0 0) ≠ [] ∧ p.phase = .loading ∧
    q.waveLeft.contains (.cell 0 0) = true ∧ q.waveLeft.erase (.cell 0 0) = [] ∧ q.phase = .loading :=
  ⟨{ waveLeft := [.cell 0 0, .node 0] }, { waveLeft := [.cell 0 0] }, by decide +kernel⟩
theorem wit_store_visible : ∃ (u : UnitSt) (x : NodeStore), (u.stores.find? fun y => y.slot == 0 && !y.visible) = some x :=
  ⟨{ stores := [{ slot := 0, writes := [(.s, 0, [7])], completion := plain .l }] }, { slot := 0, writes := [(.s, 0, [7])], completion := plain .l }, by decide +kernel⟩
theorem wit_store_behind : ∃ (u : UnitSt) (x : NodeStore), (u.stores.find? fun y => y.slot == 0 && !y.visible) = some x ∧ heldBefore u.stores x = true :=
  ⟨{ stores := [{ slot := 0, writes := [], held := [(.h, 0, [7])], visible := true, completion := plain .l },
      { slot := 0, writes := [(.s, 0, [7])], completion := plain .l }] }, { slot := 0, writes := [(.s, 0, [7])], completion := plain .l }, by decide +kernel⟩
theorem wit_sc_token : ∃ (p : Pad), p.stop = false ∧ p.phase = .running ∧ nthD p.conf.scRing p.ringPos 0 = 0 := ⟨pad0, by decide +kernel⟩

/-! ## Hypotheses of the statements on handlers, configurations and pages are met -/

/-- Cell 0 with a handler of class 2 and two of its triggers. -/
def actor0 : State :=
  let t : Token := Token.sealed { net := .scalar, kind := 2, payload := 77, valid := 1, lo := 4, hi := 8, tag := 5, seq := 9, ctx := 1 }
  let s := core0 []
  { s with
    cores := []
    units := s.units.map fun x => (x.1, { x.2 with bound := [(2, 0)], pending := [(2, t), (2, t)] }) }
theorem wit_select : isFirmware 0 = false ∧ (actor0.coreOf 0).running = false ∧ (actor0.coreOf 0).failed = false ∧ (actor0.coreOf 0).finWait = false ∧
    ((pick (actor0.runnable 0 true)).any fun c => c.h == 0 && !c.a.isTrap && ((actor0.getU c.key).nextTrigger c.h).isSome) = true ∧
    ((actor0.runnable 0 true).all fun d => !d.a.isTrap && decide (d.st.passes < 64)) = true := by decide +kernel
theorem wit_rerun : ∃ (s : State), isFirmware 0 = false ∧ (s.coreOf 0).failed = true :=
  ⟨{ actor0 with cores := [(0, { failed := true, firing := { firing0 with trigger := some (plain .l) } })] }, by decide +kernel⟩
theorem wit_rerun_tested : ∃ (s : State), (s.coreOf 0).failed = true ∧ (s.getCell 0).testing = true :=
  ⟨{ actor0 with cores := [(0, { failed := true })], cells := [(0, { testing := true })] }, by decide +kernel⟩
theorem wit_port_permit : ∃ (s : State), s.core.finWait = true ∧ Held.store .s 0 [7] ∈ s.core.firing.held ∧
    s.sliceFull s.core.firing.pad 0 (sliceOfAddr 0) = true :=
  ⟨let s := core0 [] { firing0 with held := [.store .s 0 [7]] }
   { s with cores := s.cores.map fun x => (x.1, { x.2 with finWait := true }), pads := s.pads.map fun x => (x.1, { x.2 with permits := [(permitKey 0 0 0, 1)] }) },
    by decide +kernel⟩
theorem wit_port_release : ∃ (s t : State), (s.coreOf 0).finWait = false ∧ (t.coreOf 0).finWait = true :=
  ⟨actor0, { actor0 with cores := [(0, { finWait := true })] }, by decide +kernel⟩
-- one of the two members of barrier 0 has arrived, then the other
theorem wit_barrier : ∃ (p : Pad), p.stop = false ∧ p.phase.stopping = false ∧ amGet p.conf.members 0 [] = [0, 1] ∧ amGet p.roots 0 [] = [(0, 0)] :=
  ⟨{ pad0 with roots := [(0, [(0, 0)])] }, by decide +kernel⟩
/-- The handler wants nine tags of a space of eight. -/
def tags0 : State :=
  { actor0 with units := actor0.units.map fun x => (x.1, { x.2 with conf := { x.2.conf with actors := [(0, { cls := some 2, tagd := some (1, 9) })] } }) }
theorem wit_tags : ((tags0.runnable 0 false).find? fun c => c.key == 0 && c.h == 0 && !(tags0.getU 0).tagsOk c.a).isSome = true := by decide +kernel

def missing0 (n : Nat) : State :=
  let s := way0.setU (Loc.key (.cell 0 1)) { live := true, ctx := 1 }
  let s := (List.range n).foldl (fun s k => s.setU (Loc.key (.cell 0 (k + 2))) { live := true, ctx := 1, slotNo := some (k + 1) }) s
  { s with
    cells := [(0, { miss := [(plain .l, .field (.cell 0 1) 0 .l)] })]
    cores := if n = 3 then (List.range 1).map fun _ => (0, { running := true }) else [] }
-- an entry is free; the four are taken, the oldest idle one makes room
theorem wit_miss : ∃ (s t : State), (s.getCell 0).miss = [(plain .l, .field (.cell 0 1) 0 .l)] ∧ (s.getPad (s.getU (Loc.key (.cell 0 1))).pad).stop = false ∧
    (State.fetchRoom 0 (Loc.key (.cell 0 1)) 5 s).isSome = true ∧ (t.freeEntry 0).isNone = true ∧
    (State.fetchRoom 0 (Loc.key (.cell 0 1)) 5 t).isSome = true := ⟨missing0 0, missing0 3, by decide +kernel⟩
-- the one configuration whose going would make room has a firing in flight
theorem wit_miss_waits : ∃ (s : State), (s.getCell 0).miss = [(plain .l, .field (.cell 0 1) 0 .l)] ∧
    State.fetchRoom 0 (Loc.key (.cell 0 1)) 5 s = none :=
  ⟨{ missing0 3 with units := ((missing0 3).units.filter fun x => x.1 == 0 || x.1 == Loc.key (.cell 0 1)).map fun x =>
      (x.1, if x.1 = 0 then { x.2 with conf := { x.2.conf with tags := [(0, 2000)] } } else { x.2 with conf := (way0.getU 0).conf }) }, by decide +kernel⟩
def swap0 (t : Tile) : State := way0.updU 0 fun u => { u with tiles := [(5, t)] }
theorem wit_swap : ∃ (a b c : Tile), (swap0 a).tile 0 5 = a ∧ a.st = .draining ∧ a.swapped = none ∧
    ((swap0 a).checkedRead .l (tileAddr 0 a) a.size).2.2 = none ∧
    (({ swap0 a with marks := [(.l, 0, .poison)] } : State).checkedRead .l (tileAddr 0 a) a.size).2.2 ≠ none ∧
    (swap0 b).tile 0 5 = b ∧ b.st = .empty ∧ b.swapped = some [1, 2] ∧
    ((slot0 (.fir zeros) 0x03000000 plain [(0, 0xFFFF, 5)] tiles0).getU 0).conf.needsTile 0 = some 5 ∧
    (swap0 c).tile 0 5 = c ∧ c.st = .filling ∧ c.swapped = some [1, 2] ∧ ((swap0 c).getPad ((swap0 c).getU 0).pad).stop = false :=
  ⟨{ st := .draining }, { swapped := some [1, 2] }, { st := .filling, swapped := some [1, 2] }, by decide +kernel⟩

/-- A page request for 0x1000 of context 1; the tables map the page, or nothing. -/
def req0 (gen : Nat) : PageReq := { ctx := 1, gen := gen, va := 0x1000, node := 0 }
theorem wit_response : ∃ (s : State) (r : PageReq), s.update = none ∧ amGet? s.prgs 7 = some r ∧ r.gen = (amGet s.ctxs r.ctx ({} : Ctx)).gen ∧
    (s.walk r.ctx r.va).2 ≠ .notValid ∧ amGet? s.prgs 8 = none :=
  ⟨{ xlate0 0x40000007 with prgs := [(7, req0 0)] }, req0 0, by decide +kernel⟩
theorem wit_response_again : ∃ (s : State) (r : PageReq), amGet? s.prgs 7 = some r ∧ r.gen = (amGet s.ctxs r.ctx ({} : Ctx)).gen ∧
    (s.walk r.ctx r.va).2 = .notValid := ⟨{ way0 with prgs := [(7, req0 0)] }, req0 0, by decide +kernel⟩
theorem wit_response_stale : ∃ (s : State) (r : PageReq), amGet? s.prgs 7 = some r ∧ r.gen ≠ (amGet s.ctxs r.ctx ({} : Ctx)).gen :=
  ⟨{ way0 with prgs := [(7, req0 3)] }, req0 3, by decide +kernel⟩
def withheld0 : Withheld := { slot := 0, tag := 0, va := 0x1000, prg := some 7 }
def denied0 : State := ((node0 (.ldn zeros) 0).updU 1 fun u => { u with withheld := [withheld0] })
theorem wit_response_denied : ∃ (e : SlotEnv), (∃ x ∈ denied0.units, x.2.live = true ∧ x.2.ctx = 1 ∧
    (x.2.withheld.find? fun w => w.prg == some 7 || pageOf w.va == 0) = some withheld0 ∧ denied0.slotEnv x.1 withheld0.slot = some e) :=
  ⟨(denied0.slotEnv 1 0).getD default, (1, denied0.getU 1), by decide +kernel, by decide +kernel, by decide +kernel, by decide +kernel, by decide +kernel⟩
theorem wit_page_timeout : ∃ (s : State), s.arg.pad = none ∧ (s.getU 1).live = true ∧ (s.getU 1).withheld = [withheld0] ∧
    (s.getPad (s.getU 1).pad).phase = .running := ⟨(node0 (.ldn zeros) 0).updU 1 fun u => { u with withheld := [withheld0] }, by decide +kernel⟩

theorem wit_response_waiters : ∃ (p q : Pad) (r : PageReq), r.pad = some 0 ∧ (({ padOn p with prgs := [(7, r)] } : State).getPad 0).waitPage = none ∧
    q.waitPage = some r.va ∧ q.ctx = r.ctx ∧ r.pkt = some (0, 1) :=
  ⟨pad0, { pad0 with waitPage := some 0x1000 }, { req0 0 with pad := some 0, pkt := some (0, 1) }, by decide +kernel⟩
theorem wit_seed_timeout : ∃ (s : State), s.arg.pad = some 0 ∧ (s.getPad 0).waits = [(seedWait 0, ⟨0x1000, false, {}⟩)] ∧ (s.getPad 0).phase = .running :=
  ⟨{ padOn { pad0 with waits := [(seedWait 0, ⟨0x1000, false, {}⟩)] } with arg := { pad := some 0 } }, by decide +kernel⟩
-- a translated store to the host's memory is on its way, or none is
theorem wit_ats_waits : ∃ (s t : State), s.arg.flag = true ∧ (∃ x ∈ s.units, x.2.live = true ∧ x.2.ctx = 1 ∧ ∃ y ∈ x.2.stores, y.visible = false ∧ ∃ w ∈ y.writes, w.1 = .h) ∧
    t.arg.flag = true ∧ ∀ x ∈ t.units, x.2.stores = [] :=
  ⟨{ way0.updU 0 fun u => { u with stores := [{ slot := 0, writes := [(.h, 0, [7])], completion := plain .l }] } with arg := { flag := true } },
    { way0 with arg := { flag := true } }, by decide +kernel⟩

/-! ## Hypotheses of the statements on engines, queues and faults are met -/

def eng0 (c : EngCmd) : State := { core0 [] with engines := [(0, [c])] }
def sig0 : EngCmd := { id := 5, op := .sig 1 ⟨1, 0, 0, 64⟩ 1, ctx := 1 }
theorem wit_engine_signal : firstOpen (amGet (eng0 sig0).engines (queueKey 0 0) []) = some sig0 ∧ sig0.started = false ∧ sig0.pkt = none ∧
    (sig0.deps.any fun d => (eng0 sig0).openIds.contains d) = false ∧ ¬ 128 ≤ (eng0 sig0).copiesInFlight 0 ∧
    (eng0 sig0).engFull 0 sig0 = false ∧ ((linesOf (fAddr 0 64) 8).all fun l => ((eng0 sig0).engRequest 0 sig0).markOf .f l == none) = true ∧
    ((eng0 sig0).engRequest 0 sig0).memWf = true := by decide +kernel
def cpy0 : EngCmd := { id := 5, op := .cpy ⟨0, 0, 0, 64⟩ ⟨1, 0, 0, 128⟩ 16 0 0 false, ctx := 1 }
theorem wit_engine_copy : firstOpen (amGet (eng0 cpy0).engines (queueKey 0 0) []) = some cpy0 ∧ fAddr 0 128 % 8 = 0 ∧ lAddr 0 64 % 8 = 0 ∧
    (eng0 cpy0).engFull 0 cpy0 = false ∧ ((linesOf (lAddr 0 64) 16).all fun l => ((eng0 cpy0).engRequest 0 cpy0).markOf .l l == none) = true ∧
    ((eng0 cpy0).engRequest 0 cpy0).memWf = true := by decide +kernel
theorem wit_engine_waits : ((({ sig0 with deps := [5] } : EngCmd).deps).any fun d => (eng0 { sig0 with deps := [5] }).openIds.contains d) = true := by
  decide +kernel
theorem wit_engine_complete : ∃ (c d : EngCmd), amGet (eng0 c).engines (queueKey 0 0) [] = [c] ∧ c.done = false ∧ d.done = true ∧ d.pkt = some (0, 0) :=
  ⟨sig0, { sig0 with done := true, pkt := some (0, 0) }, by decide +kernel⟩

/-- Cell 0's configuration is in its cache; the engine moves one of its tiles. -/
def engOn (c : EngCmd) (st : TileState) : State :=
  let s := eng0 c
  { s with units := s.units.map fun x => (x.1, { x.2 with tiles := x.2.tiles.map fun y => (y.1, { y.2 with st := st }) }) }
def tileCmd (src dst : EngAddr) : EngCmd := { id := 5, op := .cpy src dst 1024 4 8 false, ctx := 1, started := true }
theorem wit_engine_tile : ∃ (c d : EngCmd), (engOn c .ready).engUnit 0 0 1 ⟨5, 0, 0, 3⟩ = some 0 ∧ (((engOn c .ready).engRequest 0 c).getU 0).slotNo.isSome = true ∧
    (((engOn c .ready).engRequest 0 c).tile 0 3).st = .ready ∧ (((engOn c .empty).engRequest 0 c).tile 0 3).st ≠ .ready ∧
    (((engOn d .empty).engRequest 0 d).tile 0 4).role = .op ∧
    (((engOn d .empty).engRequest 0 d).tile 0 (((engOn d .empty).engRequest 0 d).tailTile 0 0)).st = .empty ∧
    c.op = .cpy ⟨5, 0, 0, 3⟩ ⟨1, 0, 0, 128⟩ 1024 4 8 false ∧ d.op = .cpy ⟨1, 0, 0, 128⟩ ⟨5, 0, 0, 4⟩ 1024 4 8 false :=
  ⟨tileCmd ⟨5, 0, 0, 3⟩ ⟨1, 0, 0, 128⟩, tileCmd ⟨1, 0, 0, 128⟩ ⟨5, 0, 0, 4⟩, by decide +kernel⟩
-- offset 0 lies in F, one of 2^21 elements past its end
def gath0 (off : Nat) : State :=
  (eng0 { id := 5, op := .gath ⟨1, 0, 0, 0⟩ ⟨1, 0, 0, 0x800⟩ ⟨1, 0, 0, 0x1000⟩ 1 8, ctx := 1, started := true }).writeMem .f 0x800 (toBytes 4 off)
def gathCmd : EngCmd := { id := 5, op := .gath ⟨1, 0, 0, 0⟩ ⟨1, 0, 0, 0x800⟩ ⟨1, 0, 0, 0x1000⟩ 1 8, ctx := 1, started := true }
theorem wit_engine_gather : (gath0 0).elementOk gathCmd ⟨1, 0, 0, 0⟩ 0 8 = true ∧ (gath0 (2 ^ 21)).elementOk gathCmd ⟨1, 0, 0, 0⟩ (2 ^ 21 * 8) 8 = false ∧
    ofBytes ((gath0 (2 ^ 21)).readMem .f 0x800 4) = 2 ^ 21 ∧ ((linesOf 0x800 4).all fun l => (gath0 0).markOf .f l == none) = true := by decide +kernel
-- the one member of a collective stands ready; while nothing stands in its queue it does not
def collCmd (len : Nat) : EngCmd := { id := 5, op := .coll .bcast ⟨1, 0, 0, 0⟩ ⟨1, 0, 0, 128⟩ len 0, ctx := 1, started := true }
theorem wit_engine_coll : ((eng0 (collCmd 64)).members 0 0).isSome = true ∧ ((core0 []).members 0 0) = none ∧ (collCmd 64).collKey ≠ (collCmd 128).collKey ∧
    (List.range (64 / 8)).length = 64 / 8 := by decide +kernel
theorem wit_engine_range : (match (xlate0 0x40000007).translateAny 1 0x1000 true with
    | (_, .phys pa _) => pa == 0x40001000
    | _ => false) = true := by decide +kernel
theorem wit_slice_none : (core0 []).groups = [] := by decide +kernel

/-- Queue 0 of context 1, its ring at virtual 0x1000 (physical 0x40001000); it holds one packet. -/
def queue0 (pkt : List Byte) (x : Queue := {}) : State :=
  { (xlate0 0x40000007).writeMem .m 0x40001000 pkt with
    queues := [(0, { x with owner := some 1, st := .armed, ring := 0x1000, lg := 2, wr := 1 })]
    pads := [(0, { phase := .running, ctx := 1, queue := 9, conf := { folds := [0] } })], owners := [(ownF 0 0, 1)] }
def sigPkt : List Byte := [3] ++ zeroBytes 15 ++ toBytes 8 0x2000000000000040 ++ toBytes 8 5 ++ [0]
/-- What reading packet 0 gives. -/
def packet0 (s : State) (p : State → List Byte → Bool) : Bool :=
  match s.readPkt 0 0 with
  | (s1, .bytes b) => p s1 b
  | _ => false

def enq0 : EngCmd := { id := 5, op := .enq ⟨1, 0, 0, 128⟩ 0, ctx := 1, started := true }
theorem wit_enq : ∃ (s : State), firstOpen (amGet s.engines (queueKey 0 0) []) = some enq0 ∧ (s.getQ 0).owner = some enq0.ctx ∧
    (s.getQ 0).wr - (s.getQ 0).rd ≠ 2 ^ (s.getQ 0).lg ∧
    (match s.engRange 0 enq0 true ⟨3, 0, 0, s.pktAddr 0 1⟩ 64 with
      | (_, .parts _) => true
      | _ => false) = true := ⟨{ queue0 [] with engines := [(0, [enq0])] }, by decide +kernel⟩
theorem wit_enq_full : ((({ (queue0 []).getQ 0 with wr := 4 } : Queue).wr) - ((queue0 []).getQ 0).rd) = 2 ^ ((queue0 []).getQ 0).lg := by decide +kernel
theorem wit_slice_reply : ∃ (s : State) (g : SGroup), (s.groups.find? fun g => g.cell == 0 && g.slice == 97) = some g :=
  ⟨{ core0 [] with groups := [⟨0, 97, 0, []⟩] }, ⟨0, 97, 0, []⟩, by decide +kernel⟩

-- a full ring of four is still taken, five packets are not, and no doorbell goes back
theorem wit_doorbell : ((queue0 []).getQ 0).st ≠ .disabled ∧ ((queue0 []).getQ 0).wr ≤ 4 ∧ 4 - ((queue0 []).getQ 0).rd ≤ 2 ^ ((queue0 []).getQ 0).lg ∧
    2 ^ ((queue0 []).getQ 0).lg < 5 - ((queue0 []).getQ 0).rd ∧ 0 < ((queue0 []).getQ 0).wr := by decide +kernel
theorem wit_first_queue : ∃ (s : State) (c : QCand), (s.firstQueue [⟨0, .droverSelection, 0⟩, ⟨1, .droverSelection, 0⟩]).isSome = true ∧ c.q = 0 ∧
    ((s.getQ 0).passes < 64 ∧ (s.getQ 1).passes < 64) := ⟨queue0 [], ⟨0, .droverSelection, 0⟩, by decide +kernel⟩
theorem wit_packet_signal : ((queue0 sigPkt).pkt 0 0).status = none ∧ ((queue0 sigPkt).getQ 0).owner = some 1 ∧ (queue0 sigPkt).isKilling 1 = false ∧
    packet0 (queue0 sigPkt) (fun s1 b => (pktDone b).isNone && s1.memWf && match signalAddr (pktNum b 16 8) with
      | some e => e.space == 1 && s1.pktAddrOk 1 e 8 && (linesOf (fAddr e.fold e.addr) 8).all fun l => s1.markOf .f l == none
      | none => false) = true := by decide +kernel
def copyPkt : List Byte := [4] ++ zeroBytes 15 ++ toBytes 8 0x2000000000000000 ++ toBytes 8 0x2000000000000040 ++ toBytes 8 64
theorem wit_packet_copy : packet0 (queue0 copyPkt) (fun s1 b => (pktDone b).isNone &&
    match parsePktAddr (BitVec.ofNat 64 (pktNum b 16 8)), parsePktAddr (BitVec.ofNat 64 (pktNum b 24 8)) with
    | some x, some y => s1.pktAddrOk 1 x 64 && s1.pktAddrOk 1 y 64
    | _, _ => false) = true := by decide +kernel
def barrierPkt : List Byte := [2] ++ zeroBytes 15 ++ toBytes 8 0x2000000000000040 ++ zeroBytes 24 ++ [1]
theorem wit_packet_barrier : packet0 (queue0 barrierPkt) (fun s1 b => (pktDone b).isNone && (pktSignals b).length == 1 &&
    (pktSignals b).all fun e => s1.pktAddrOk 1 e 8) = true := by decide +kernel
/-- A BARRIER that has started, with its first reading to take. -/
def waiting1 : State :=
  (queue0 barrierPkt).updPkt 0 0 fun p => { p with started := true, signals := [⟨1, 0, 0, 64⟩], pending := [none] }
/-- The values that its signals have. -/
def readings (s : State) : Option (List (Option Nat)) := (State.readSignals 0 0 1 (s.pkt 0 0).signals s []).2.1
theorem wit_reading : readings waiting1 = some [some 0] ∧ readings (waiting1.writeMem .f 64 [1]) = some [some 1] ∧
    readings (waiting1.writeMem .f 64 (List.replicate 8 0xFF)) = some [some (2 ^ 64 - 1)] ∧ waiting1.droverStop = false ∧
    (waiting1.pkt 0 0).pending = [none] ∧ (waiting1.pkt 0 0).status = none ∧ (waiting1.getQ 0).owner = some 1 ∧ waiting1.isKilling 1 = false := by
  decide +kernel
-- its signal is the one that wit_engine_signal's command updates
theorem wit_engine_waiter : ∃ e, e ∈ (waiting1.pkt 0 0).signals ∧ e.space = 1 ∧ fAddr e.fold e.addr = fAddr 0 64 := ⟨⟨1, 0, 0, 64⟩, by decide +kernel⟩
-- a LAUNCH's handle is checked with a key that the model leaves open (Config.handleCheck), and its place may be the mapper's
-- (Config.mapper): no closed state decides that clause
theorem wit_rearm : ∃ (x y : Queue), x.st = .aborted ∧ x.rearm = none ∧ ({ x with rearm := some 1 } : Queue).rearm = some 1 ∧ y.st ≠ .aborted :=
  ⟨{ st := .aborted }, {}, by decide⟩
theorem wit_rearm_left : ∃ (s : State), (∃ y ∈ s.events, ∃ j, y.instr = .packetComplete 0 j .abortedByPredecessor ∧ j < 1) :=
  ⟨{ way0 with events := [⟨.packetComplete 0 0 .abortedByPredecessor, {}⟩] }, ⟨.packetComplete 0 0 .abortedByPredecessor, {}⟩, by decide +kernel, 0, rfl, by decide⟩
theorem wit_reading_decided : ∃ (s : State), (s.pkt 0 0).decided = true ∧ (s.pkt 0 0).status = none ∧ (s.pkt 0 0).pending = [none] :=
  ⟨waiting1.updPkt 0 0 fun p => { p with decided := true }, by decide +kernel⟩
/-- Packet 0 of queue 0 is a LAUNCH whose paddock is resident. -/
def launched (p : Pad) : State := { queue0 [] with pads := [(3, { p with ctx := 1 })] }
theorem wit_launch_again : ∃ (p q : Pad), ((launched p).pads.find? fun x => x.2.queue == 0 && x.2.pkt == 0) = some (3, p) ∧ p.phase = .parked ∧
    ((launched q).pads.find? fun x => x.2.queue == 0 && x.2.pkt == 0) = some (3, q) ∧ q.phase ≠ .parked :=
  ⟨{ phase := .parked, ctx := 1 }, { phase := .running, ctx := 1 }, by decide +kernel⟩
-- a launch that is done, one that is not, one of which a firing is in flight
theorem wit_retire_launch : ∃ (p q : Pad), (launched p).padOfPkt 0 0 = some 3 ∧ (launched p).launchDone 3 = true ∧ (launched p).padFires 3 = false ∧
    (launched q).launchDone 3 = false ∧ (({ launched p with cores := [(0, { running := true, firing := { firing0 with pad := 3 } })] } : State).padFires 3) = true :=
  ⟨{ phase := .running, ctx := 1 }, { phase := .loading, ctx := 1 }, by decide +kernel⟩
theorem wit_retire : ∃ (s : State), (s.getQ 0).rd ≤ 0 ∧ 0 < (s.getQ 0).wr ∧ (s.pkt 0 0).status = none ∧ s.droverStop = false ∧ (s.getQ 0).owner = some 1 ∧
    s.isKilling 1 = false ∧ (s.getQ 0).st = .armed ∧ packet0 s (fun s1 b => (pktDone b).isNone && !s1.pktBreak 0 0) = true :=
  ⟨queue0 sigPkt, by decide +kernel⟩

theorem wit_fault : ∃ (p q r t u : Pad), amGet? (padOn p).pads 0 = some p ∧ p.phase = .running ∧ q.phase = .faulting ∧ r.phase = .preempting ∧
    t.phase = .retiring ∧ u.phase = .killing :=
  ⟨pad0, { phase := .faulting }, { phase := .preempting }, { phase := .retiring }, { phase := .killing }, by decide +kernel⟩
theorem wit_fault_counts : ∃ (s t : State), (∃ x ∈ s.events, x.instr.marks 0 = true) ∧ ∀ x ∈ t.events, x.instr.marks 0 = false :=
  ⟨{ way0 with events := [⟨.abortMark 0 (.cell 0 0), {}⟩] }, way0, by decide +kernel⟩
theorem wit_fault_written : ((queue0 []).writeFault 0 0 1 0x2000 {}).2 = true := by decide +kernel
theorem wit_replay : ∃ (p : Pad), p.phase = .replaying ∧ (padOn p).testsOpen p.suspects = false := ⟨{ phase := .replaying, suspects := [3] }, by decide +kernel⟩
theorem wit_report : ∃ (p q : Pad) (r : ErrRep), amGet? (padOn p).pads r.pad = some p ∧ r.commitScope = true ∧ p.phase = .running ∧
    (p.transient || !persistent r.cause) = true ∧ p.replays < 2 ∧ 3 ≤ q.replays :=
  ⟨pad0, { pad0 with replays := 3 }, { cause := 1, pad := 0, cell := some 0, commitScope := true }, by decide +kernel⟩
theorem wit_fault_later : ∀ ph ∈ [PadPhase.preempting, .parking, .replaying, .retiring, .parked], (padOn { pad0 with phase := ph }).getPad 0 = { pad0 with phase := ph } := by
  decide +kernel
-- which reports lie within one TEST_T is open (Config): no closed state counts four
theorem wit_report_counts : ∃ (r : ErrRep), r.cell = some 0 ∧ r.injected = false ∧ persistent r.cause = false ∧ persistent 0x12 = true ∧
    ({ r with injected := true } : ErrRep).injected = true := ⟨{ cause := 1, pad := 0, cell := some 0 }, by decide⟩
theorem wit_report_kept : ∃ (r : ErrRep), r.commitScope = false := ⟨{ cause := 1, pad := 0 }, by decide⟩
theorem wit_test : (way0.getCell 383).testing = false ∧ 383 ∉ way0.retired ∧ (way0.coreOf 383).running = false ∧ (383 : Nat) < 384 := by decide +kernel
theorem wit_test_done : ∃ (s t : State), (s.getCell 0).testing = true ∧ (s.coreOf 0).errmask.getLsbD 8 = false ∧ (t.getCell 0).testing = true ∧
    (t.coreOf 0).errmask.getLsbD 8 = true :=
  ⟨{ way0 with cells := [(0, { testing := true })] }, { way0 with cells := [(0, { testing := true })], cores := [(0, { errmask := 0x100 })] }, by decide +kernel⟩

/-! ## Hypotheses of the statements on messages, services, the host and the debugger are met -/

/-- Id 3, k 4, m 1, index 0: the header, 24 zero bytes, the CRC-32C computed by hand. -/
def frag0 : Fragment := ⟨[3, 0, 0, 0x40, 1, 0, 0, 0] ++ List.replicate 24 0#8 ++ [0x0E, 0xAE, 0xEA, 0x46], false⟩
theorem wit_fragment_good : frag0.good = true := by decide +kernel
theorem wit_fragment_fields : frag0.id = 3 ∧ frag0.k = 4 ∧ frag0.m = 1 ∧ frag0.index = 0 ∧ frag0.attempt = 0 ∧ frag0.tkind = 0 := by decide +kernel
def linked (l : LinkSt) : State := { way0 with links := [(linkKey 0 1, l)] }
theorem wit_fragment : receives 0 1 = true ∧ way0.masks = [] ∧ (way0.getPad 0).stop = false ∧
    idBelow frag0.id ((way0.countFrag (linkKey 0 1) 0 true false).link (linkKey 0 1)).outId = false ∧
    amGet? ((way0.countFrag (linkKey 0 1) 0 true false).link (linkKey 0 1)).spool frag0.id = none := by decide +kernel
theorem wit_fragment_decodes : ∃ (l : LinkSt) (e : SpoolEntry), ((linked l).countFrag (linkKey 0 1) 0 true false).link (linkKey 0 1) =
    { l with frags := [(0, (1, []))] } ∧ amGet? l.spool frag0.id = some e ∧ e.msg = none ∧ e.lost = false ∧
    (e.frags.any fun x => x.1 == frag0.index) = false ∧ frag0.k ≤ e.frags.length + 1 :=
  ⟨{ spool := [(3, { frags := [(1, zeroBytes 24), (2, zeroBytes 24), (3, zeroBytes 24)] })] },
    { frags := [(1, zeroBytes 24), (2, zeroBytes 24), (3, zeroBytes 24)] }, by decide +kernel⟩
theorem wit_fragment_late : idBelow 3 (linked { outId := 4 } |>.link (linkKey 0 1)).outId = true := by decide +kernel
-- a fragment of the send that has decoded, and one that it has had already
theorem wit_fragment_same : ∃ (d : Decoded), d.id = frag0.id ∧ d.attempt = frag0.attempt ∧ frag0.index ∉ d.got ∧ 1 ∈ d.got :=
  ⟨{ id := 3, attempt := 0, k := 4, got := [1, 2, 3, 4], net := .vector, ends := [] }, by decide +kernel⟩
theorem wit_coderate : codeRateOk 0x0000FF14 = true ∧ codeRateOk 0x0000FF15 = false ∧ ({} : LinkSt).k = 4 ∧ (8 : Nat) ∉ ({} : LinkSt).paths := by decide +kernel
theorem wit_spool : ∃ (e f : SpoolEntry), amGet? (({ spool := [(3, e)] } : LinkSt).spool) 3 = some e ∧ e.msg = none ∧ e.lost = false ∧ e.attempt < 3 ∧
    3 ≤ f.attempt ∧ f.msg = none ∧ f.lost = false := ⟨{}, { attempt := 3 }, by decide +kernel⟩
theorem wit_replay_request : ∃ (m : Msg), (({ window := [m] } : LinkSt).window.find? fun m => m.id == 3) = some m :=
  ⟨{ id := 3, bytes := [], hop := { tok := plain .l, ends := [], crc := 0 } }, by decide +kernel⟩
theorem wit_path : ∃ (l : LinkSt), linkExists 100 = true ∧ linkExists 124 = false ∧ linkExists 0 = false ∧ linkExists 1 = true ∧ 7 ∈ l.paths ∧ l.k < l.paths.length ∧ 3 ∈ ({ l with away := [3] } : LinkSt).away ∧ l.k ≤ 8 := ⟨{}, by decide +kernel⟩
-- which link a frame stands behind is open (Config.frameLink): where no context is live none is mapped
theorem wit_module : ∃ (s : State), s.arg.link < 64 ∧ s.arg.flag = true ∧ s.linkMapped s.arg.link = false :=
  ⟨{ State.reset with arg := { link := 63, flag := true } }, by decide +kernel⟩

theorem wit_power_good : ∃ (s t : State), s.mailbox.pending ≠ some 9 ∧ s.arg.flag = true ∧ (amGet s.fw s.bmcSlot ({} : FwSlot)).verified = true ∧ t.arg.flag = false :=
  ⟨{ State.reset with arg := { flag := true, failed := [5] } }, State.reset, by decide +kernel⟩
theorem wit_bringup : ∃ (s t u : State), s.status ≠ 0 ∧ t.status = 0 ∧ t.mailbox.pending ≠ some 9 ∧ u.status = 0 ∧ u.mailbox.pending = some 9 :=
  ⟨way0, State.reset, { State.reset with mailbox := { pending := some 9 } }, by decide +kernel⟩
theorem wit_power_asked : ∃ (s : State), s.mailbox.pending = some 9 ∧ s.arg.flag = true ∧ (amGet s.fw s.bmcSlot ({} : FwSlot)).verified = true :=
  ⟨{ State.reset with mailbox := { pending := some 9 }, arg := { flag := true } }, by decide +kernel⟩
theorem wit_scrub : ∃ (s t u : State), s.markOf .m 1 = none ∧ s.arg.addr / 64 = 1 ∧ s.arg.finding = .clean ∧ t.arg.finding = .single ∧
    u.arg.finding = .uncorrectable ∧ u.markOf .m (u.arg.addr / 64) = none ∧ u.isDescribed (64 * (u.arg.addr / 64)) = false :=
  ⟨{ way0 with arg := { addr := 64 } }, { way0 with arg := { addr := 64, finding := .single } },
    { way0 with ctxs := [], arg := { addr := 64, finding := .uncorrectable } }, by decide +kernel⟩
def page0 (a : Arg) : State := { xlate0 0x40000007 with arg := a }
/-- The leaf that maps 0x1000, and its page size. -/
def leafOf (s : State) : Option (Nat × Nat) :=
  match s.walk s.arg.ctx s.arg.va with
  | (_, .leaf _ en _ size) => some (en, size)
  | _ => none
theorem wit_migrate : leafOf (page0 { ctx := 1, va := 0x1000, frame := 2 ^ 31 }) = some (0x40000007, 2 ^ 30) ∧ pteMigrating 0x40000007 = false ∧
    2 ^ 31 % 2 ^ 30 = 0 ∧ ((page0 {}).units.all fun x => isCellKey x.1 || x.2.conf.windows.all fun w => !w.2.evict) = true := by decide +kernel
def evict0 : State :=
  { page0 { ctx := 1, va := 0x1000 } with
    units := [(1, { live := true, ctx := 1, conf := { windows := [(1, { sp := .m, extent := 2 ^ 31, evict := true })] } })] }
theorem mem_leavesFrom_leaf {s : State} {l : WalkLevel} {ls : List WalkLevel} {table i e : Nat} (hi : i < 2 ^ l.bits)
    (he : ofBytes (s.readMem .m (table + 8 * i) 8) = e) (h : (pteValid e && pteLeaf e && l.leafOk) = true) :
    (pteAddr e, 2 ^ l.shift, e) ∈ leavesFrom s (l :: ls) table := by
  simp only [Bool.and_eq_true] at h
  exact List.mem_flatMap.2 ⟨i, List.mem_range.2 hi, by simp [he, h]⟩
theorem mem_leavesFrom_next {s : State} {l : WalkLevel} {ls : List WalkLevel} {table i e : Nat} {x : Nat × Nat × Nat} (hi : i < 2 ^ l.bits)
    (he : ofBytes (s.readMem .m (table + 8 * i) 8) = e) (h : (pteValid e && !pteLeaf e) = true) (hx : x ∈ leavesFrom s ls (pteAddr e)) :
    x ∈ leavesFrom s (l :: ls) table := by
  simp only [Bool.and_eq_true, Bool.not_eq_true'] at h
  exact List.mem_flatMap.2 ⟨i, List.mem_range.2 hi, by simpa [he, h] using hx⟩
/-- The page at 0x40000000 holds described blocks. -/
theorem wit_scrub_described : (xlate0 0x4000000F).isDescribed 0x40000000 = true := by
  refine List.any_eq_true.2 ⟨(1, { st := .live, root := 0x10000 }), by decide +kernel, ?_⟩
  rw [Bool.and_eq_true]
  refine ⟨by decide, List.any_eq_true.2 ⟨(0x40000000, 2 ^ 30, 0x4000000F), ?_, by decide⟩⟩
  exact mem_leavesFrom_next (i := 0) (e := 0x20001) (by decide) (by decide +kernel) (by decide)
    (mem_leavesFrom_leaf (i := 0) (e := 0x4000000F) (by decide) (by decide +kernel) (by decide))
theorem wit_evict : (leafOf evict0).isSome = true ∧
    (evict0.readMark 1 1 { sp := .m, extent := 2 ^ 31, evict := true }).xlateQuiet 1 0 (2 ^ 30) = true ∧
    windowMark (evict0.getU 1) 1 { sp := .m, extent := 2 ^ 31, evict := true } = none := by decide +kernel
def migration0 : Migration := ⟨1, 0, 2 ^ 30, 0x20000, 0x40000000, 2 ^ 31⟩
theorem wit_copy_done : ∃ (s : State), s.migrations = [migration0] ∧ s.arg.flag = true ∧ s.xlateQuiet migration0.ctx migration0.va (migration0.va + migration0.size) = true ∧
    (∀ x ∈ s.pads, x.2.waitPage = none) ∧ (∀ x ∈ s.units, x.2.parked = []) :=
  ⟨{ evict0 with migrations := [migration0], arg := { flag := true } }, by decide +kernel⟩
theorem wit_heartbeat : ∃ (s : State) (u : Update), s.update = some u ∧ u.started = true ∧ u.waiting ≠ [] :=
  ⟨{ way0 with update := some ⟨true, [416], 0⟩ }, ⟨true, [416], 0⟩, by decide +kernel⟩
theorem wit_restart : ∃ (s : State), s.arg.cell ∈ firmwareCores ∧ (s.coreOf s.arg.cell).halted = true :=
  ⟨{ way0 with cores := [(416, { halted := true })], arg := { cell := 416 } }, by decide +kernel⟩

def host0 (a : Arg) : State := { way0 with arg := a }
theorem wit_bar2 : ∃ (s : State), s.status = 1 ∧ s.arg.addr + s.arg.len ≤ 2 ^ 44 ∧ s.memWf = true ∧
    ((linesOf s.arg.addr s.arg.len).all fun l => s.markOf .m l == none) = true := ⟨host0 { addr := 2 ^ 44 - 4, len := 4 }, by decide +kernel⟩
theorem wit_bar2_uncorrectable : ∃ (s : State), s.status = 1 ∧ linesOf s.arg.addr s.arg.len = [1] ∧ s.markOf .m 1 = some .uncorrectable ∧ s.isDescribed 64 = false :=
  ⟨{ host0 { addr := 64, len := 4 } with ctxs := [], marks := [(.m, 1, .uncorrectable)] }, by decide +kernel⟩
theorem wit_register_width : ∃ (a : Arg), a.addr = 0x10000 + 64 * 63 + 40 ∧ a.bytes.length ≠ 1 ∧ a.addr + a.bytes.length ≤ 2 ^ 20 :=
  ⟨{ addr := 0x10000 + 64 * 63 + 40, bytes := [1, 0, 0, 0] }, by decide⟩
theorem wit_bar2_past : 2 ^ 44 < (host0 { addr := 2 ^ 44, len := 1 }).arg.addr + 1 := by decide +kernel
theorem wit_register : ∃ (a b c d e : Arg), 0x1008 ≤ a.addr ∧ a.addr + a.bytes.length ≤ 0x1100 ∧ b.addr = 0x1000 ∧ b.bytes.length = 4 ∧
    c.addr = 0x10000 + 64 * 63 + 16 ∧ c.bytes.length = 8 ∧ d.addr = 0x10000 + 64 * 63 + 40 ∧ ofBytes d.bytes = 1 ∧ d.bytes.length = 1 ∧ 0x20000 ≤ e.addr :=
  ⟨{ addr := 0x10FF, bytes := [1] }, { addr := 0x1000, bytes := [1, 0, 0, 0] }, { addr := 0x10000 + 64 * 63 + 16, bytes := zeroBytes 8 },
    { addr := 0x10000 + 64 * 63 + 40, bytes := [1] }, { addr := 0x20000 }, by decide +kernel⟩
theorem wit_command_pending : ∃ (s : State), s.mailbox.pending = some 5 ∧ s.arg.flag = false := ⟨{ way0 with mailbox := { pending := some 5 } }, by decide +kernel⟩

/-- The mailbox holds these argument bytes. -/
def mail0 (l : List (Nat × List Byte)) : State :=
  { way0 with mailbox := { bytes := l.foldl (fun (m : Memory) x => m.write x.1 x.2) [] } }
theorem wit_ready : (mail0 []).Ready := by decide +kernel
-- context 1 lives: the first free one is 0
theorem wit_ctx_create : (amGet (mail0 [(8, toBytes 8 0x10000)]).ctxs 0 ({} : Ctx)).st = .free ∧
    ((mail0 [(8, toBytes 8 0x10000)]).commanded 1).mailbox.word 8 8 % 65536 = 0 ∧ ((mail0 [(8, toBytes 8 0x10000)]).commanded 1).mailbox.word 20 1 ≤ 1 ∧
    ((mail0 [(8, toBytes 8 0x10001)]).commanded 1).mailbox.word 8 8 % 65536 ≠ 0 := by decide +kernel
theorem wit_ctx_full : ∃ (s : State), ∀ c, c < 64 → (amGet s.ctxs c ({} : Ctx)).st ≠ .free :=
  ⟨{ way0 with ctxs := (List.range 64).map fun c => (c, { st := .live }) }, by decide +kernel⟩
theorem wit_ctx_kill : ((mail0 [(8, [1])]).commanded 2).mailbox.word 8 1 < 64 ∧ (amGet (mail0 []).ctxs 1 ({} : Ctx)).st = .live ∧
    (amGet (mail0 []).ctxs 2 ({} : Ctx)).st ≠ .live := by decide +kernel
-- commands that go on: a kill while a paddock of the context is there and when none is, an invalidation, an update
theorem wit_goes_on : ∃ (s t u v : State), s.arg.flag = true ∧ s.mailbox.pending = some 2 ∧ (∃ x ∈ s.pads, x.2.ctx = s.arg.ctx) ∧
    t.arg.flag = true ∧ t.mailbox.pending = some 2 ∧ (∀ x ∈ t.pads, x.2.ctx ≠ t.arg.ctx) ∧ u.arg.flag = true ∧ u.mailbox.pending = some 4 ∧
    v.arg.flag = true ∧ v.mailbox.pending = some 9 ∧ (v.update.any fun x => !x.started) = true :=
  let at' (n c : Nat) : State := { way0 with mailbox := { pending := some n }, arg := { flag := true, ctx := c }, update := some ⟨false, [], 0⟩ }
  ⟨at' 2 1, at' 2 2, at' 4 1, at' 9 0, by decide +kernel⟩
theorem wit_restarts : ∃ (s : State), s.arg.flag = false ∧ s.mailbox.pending = none ∧ s.status = 2 ∧ (amGet s.fw (1 - s.fwSlot) ({} : FwSlot)).verified = true :=
  ⟨{ way0 with status := 2, fw := [(1, { verified := true })] }, by decide +kernel⟩
theorem wit_queue_bind : ∃ (s : State), (s.commanded 3).mailbox.word 8 1 < 64 ∧ (s.commanded 3).mailbox.word 9 1 = 1 ∧ (s.commanded 3).mailbox.word 10 1 ≤ 12 ∧
    (s.commanded 3).mailbox.word 11 1 ≤ 7 ∧ (s.commanded 3).mailbox.word 16 8 % 4096 = 0 ∧ (s.getQ 63).owner = none ∧ (s.getQ 63).rd = (s.getQ 63).wr :=
  ⟨mail0 [(8, [63, 1, 12, 7]), (16, toBytes 8 0x1000)], by decide +kernel⟩
theorem wit_queue_unbind : ((mail0 [(8, [0, 0xFF])]).commanded 3).mailbox.word 9 1 = 0xFF := by decide +kernel
theorem wit_invalidate : ((mail0 [(24, toBytes 8 0x10000)]).commanded 4).mailbox.word 24 8 % 65536 = 0 := by decide +kernel
-- an image of no bytes is rejected (Config.mapper decides what becomes of one that is not: no closed state shows it)
theorem wit_mint : ((mail0 [(8, [1])]).commanded 5).mailbox.word 24 8 = 0 ∧ (mintReject []).isSome = true := by decide +kernel
-- what a firmware image says and whether its signature verifies are open (Config.imageFields, Config.signatureOk)
theorem wit_log_read : ((mail0 [(8, [1])]).commanded 7).mailbox.word 8 1 < 64 ∧ ((mail0 [(8, [1])]).commanded 7).mailbox.word 16 8 % 32 = 0 := by decide +kernel
theorem wit_health_read : ((mail0 [(16, [64])]).commanded 8).mailbox.word 16 8 % 64 = 0 := by decide +kernel
theorem wit_activate : ∃ (s t : State), (amGet s.fw (1 - s.fwSlot) ({} : FwSlot)).verified = false ∧ (amGet t.fw (1 - t.fwSlot) ({} : FwSlot)).verified = true ∧
    t.pads = [] := ⟨mail0 [], { mail0 [] with fw := [(0, {}), (1, { verified := true })], pads := [] }, by decide +kernel⟩
theorem wit_config : ((mail0 [(8, [6, 1]), (16, toBytes 8 1000)]).commanded 10).mailbox.word 8 1 = 6 ∧
    (Config.range 6).1 ≤ ((mail0 [(8, [6, 1]), (16, toBytes 8 1000)]).commanded 10).mailbox.word 16 8 ∧
    ((mail0 [(8, [6, 1]), (16, toBytes 8 1000)]).commanded 10).mailbox.word 16 8 ≤ (Config.range 6).2 := by decide +kernel
theorem wit_counters : ((mail0 [(8, [63, 63])]).commanded 11).mailbox.word 9 1 < 64 := by decide +kernel
theorem wit_bad_code : ∃ (s : State), s.Ready ∧ 12 ≤ s.arg.code := ⟨{ mail0 [] with arg := { code := 12 } }, by decide +kernel⟩

def spdm0 (x : SpdmSt) : State := { way0 with spdm := [(1, x)], arg := { link := 1, code := 6 } }
theorem wit_spdm : ∃ (x y z : SpdmSt), (spdm0 x).arg.link < 2 ∧ amGet (spdm0 x).spdm 1 ({} : SpdmSt) = x ∧ x.negotiated = 3 ∧ x.session = none ∧
    y.negotiated = 3 ∧ y.session.isSome = true ∧ y.finished = false ∧ z.session.isSome = true ∧ z.finished = true :=
  ⟨{ negotiated := 3 }, { negotiated := 3, session := some 0 }, { negotiated := 3, session := some 0, finished := true }, by decide +kernel⟩
theorem wit_debugger : ∃ (s t : State), s.arg.pad = some 0 ∧ (s.getPad 0).stop = false ∧ (t.getPad 0).stop = true ∧ (t.getPad 0).preemptNext = true :=
  ⟨{ way0 with arg := { pad := some 0 } }, padOn { pad0 with stop := true, preemptNext := true }, by decide +kernel⟩
theorem wit_swap_out : ∃ (s : State), (s.getU 0).live = true ∧ (s.getU 0).conf.carriedTiles.contains 5 = true ∧ (s.tile 0 5).role = .state ∧
    (s.tile 0 5).st = .ready :=
  ⟨way0.updU 0 fun u => { u with conf := { u.conf with carriedTiles := [5] }, tiles := [(5, { role := .state, st := .ready })] }, by decide +kernel⟩

/-! ## Hypotheses of the statements on the whole machine are met -/

/-- Cell 0 is at this address of a code store that holds the word. -/
def fetch0 (pc : DWord) (w : Word) : State :=
  let s := core0 []
  { s.writeMem .c pc.toNat (toBytes 4 w.toNat) with
    pads := [], events := [⟨.droverSelection, {}⟩], cores := [(0, { running := true, pc := pc, regs := goodRegs [(1, 5)], firing := firing0 })] }
theorem wit_step_core : (fetch0 0x3FFC 0x10220008).schedule = [] ∧ (fetch0 0x3FFC 0x10220008).mayStart = [] ∧
    (fetch0 0x3FFC 0x10220008).cores.find? (fun x => (fetch0 0x3FFC 0x10220008).coreMoves x.1) =
      some (0, (fetch0 0x3FFC 0x10220008).coreOf 0) ∧ (fetch0 0x3FFC 0x10220008).core.pc.toNat < 0x4000 ∧
    ¬ (fetch0 0x3FFC 0x10220008).core.firing.fmax ≤ (fetch0 0x3FFC 0x10220008).core.firing.issued := by decide +kernel
theorem wit_step_limit : ∃ (s : State), s.core.firing.fmax ≤ s.core.firing.issued ∧ s.coreMoves 0 = true :=
  ⟨core0 [] { firing0 with issued := 4096 }, by decide +kernel⟩
-- LDS s1, [s1] to slice 0, whose one permit a group of the fold holds
theorem wit_step_waits : ∃ (s : State) (i : Instr), s.core.issues = true ∧ decodeS s.fetchWord = .ok i ∧ s.wordWaits i = true :=
  ⟨let s := core0 [(1, 0)]
   { s.writeMem .c 0 (toBytes 4 0x50210000) with
     pads := s.pads.map fun x => (x.1, { x.2 with permits := [(permitKey 0 0 0, 1)] }) }, .lds 1 1 0 0 always, by decide +kernel, rfl, by decide +kernel⟩
theorem wit_step_past : 0x4000 ≤ (fetch0 0x4000 0).core.pc.toNat := by decide +kernel
theorem wit_step_slot : ∃ (s : State) (w h : Word) (i : Instr), s.schedule = [] ∧ s.mayStart = [(.cell 0 0, 0, 0)] ∧ s.firstOfUnit (.cell 0 0, 0, 0) = true ∧
    amGet? (s.getU 0).conf.slots 0 = some (w, h) ∧ decodeE w = .ok i :=
  ⟨{ slot0 (.vadd zeros) 0 plain with ready := [(.cell 0 0, 0, 0)] }, 0x02000803, 0, .vadd zeros, by decide +kernel, by decide +kernel, by decide +kernel, by decide +kernel, rfl⟩
theorem wit_step_event : ∃ (s : State), s.schedule = [] ∧ s.mayStart = [] ∧ s.cores.find? (fun x => s.coreMoves x.1) = none ∧ s.nextEvent = some 0 :=
  ⟨State.reset, by decide +kernel⟩
theorem wit_step_chosen : ∃ (s : State) (e : Event), s.schedule = [.event 1] ∧ s.events[1]? = some e ∧
    (∃ x ∈ s.events.take 1, Event.before x e = true) ∧ s.waits e.instr = false :=
  ⟨{ way0 with schedule := [.event 1], events := [⟨.sinkRecord 0 0 {}, {}⟩, ⟨.sinkRecord 0 0 {}, {}⟩] }, ⟨.sinkRecord 0 0 {}, {}⟩, by decide +kernel,
    by decide +kernel, ⟨⟨.sinkRecord 0 0 {}, {}⟩, by decide +kernel, by decide +kernel⟩, by decide +kernel⟩
-- a ninth trigger of its class waits
theorem wit_step_room : ∃ (s : State) (t : Token), s.waits (.triggerArrival (.cell 0 0) 2 t) = true :=
  ⟨{ actor0 with units := actor0.units.map fun x => (x.1, { x.2 with pending := List.replicate 8 (2, {}) }) }, { ctx := 1 }, by decide +kernel⟩
theorem wit_canonical : State.reset.memWf = true ∧ (match step State.reset with
    | .next t => t.status == 1 && t.memWf
    | _ => false) = true := by decide +kernel
theorem wit_canonical_memories : ∃ (m n : Memory), m.wf = true ∧ n.wf = true ∧ m = n := ⟨[⟨3, 1⟩], [⟨3, 1⟩], by decide⟩

/-! ## Clauses on what stands beside, waits or stops -/

-- one firing that holds several of each kind, two seeds of one port
theorem wit_fin_held : ∃ (s t : State), (∀ x ∈ [s, t], x.Executes always [] [] ∧ isFirmware x.curCore = false ∧ x.curUnit.outFull = false) ∧
    s.core.firing.held = [.commitOn 2, .send 1 (plain0 4), .tset 3 1 7, .send 1 (plain0 8), .commitOn 2, .pbar 0, .pbar 0, .log 5, .prefault 0x1000, .ckpt] ∧
    (amGet s.curUnit.conf.chans 1 ({} : ChanConf)).dest ≠ .nowhere ∧ (amGet? s.pads s.core.firing.pad).isSome = true ∧
    t.core.firing.held = [.seed 0 (plain0 4), .seed 0 (plain0 8)] ∧ (amGet? t.pads t.core.firing.pad).isSome = true :=
  ⟨core0 [] { firing0 with held := [.commitOn 2, .send 1 (plain0 4), .tset 3 1 7, .send 1 (plain0 8), .commitOn 2, .pbar 0, .pbar 0, .log 5, .prefault 0x1000, .ckpt] },
    { seed0 with cores := (core0 [] { firing0 with held := [.seed 0 (plain0 4), .seed 0 (plain0 8)] }).cores }, by decide +kernel⟩
-- values with a bit too many; a live update that waits for this core alone, or for another too
theorem wit_special_reserved : ∃ (s : State), s.Executes always [1] [] ∧ isFirmware s.curCore = true ∧ (s.core.reg 1).toNat = 64 ∧
    (s.core.reg 1).toNat % 2 ^ 16 ≠ 0 ∧ (s.core.reg 2).toNat = 2 ^ 52 ∧ 2 ^ 32 ≤ (s.core.reg 3).toNat :=
  ⟨drover0 [(1, 64), (2, 0x10000000000000), (3, 0x100000000)], by decide +kernel⟩
theorem wit_special_update : ∃ (s : State) (u v : Update), s.Executes always [1] [] ∧ isFirmware s.curCore = true ∧ s.update = some u ∧ u.started = true ∧
    u.waiting.filter (· != s.curCore) = [] ∧ v.started = true ∧ v.waiting.filter (· != s.curCore) ≠ [] :=
  ⟨{ drover0 [(1, 7)] with update := some ⟨true, [416], 0⟩ }, ⟨true, [416], 0⟩, ⟨true, [416, 417], 0⟩, by decide +kernel⟩
theorem wit_next_some : ∃ (e : SlotEnv) (st : SlotSt), ∃ d ∈ choices (e.nets.map fun f => (f, (st.field f 0).segs (fillOf e.instr f (e.hdr.gap f)))),
    d.real = true ∧ amGet st.doneTo 0 0 ≤ d.lo :=
  ⟨envOf (slot0 (.vadd zeros) 0 plain), (slot0 (.vadd zeros) 0 plain).slotSt 0 0, choiceOf (slot0 (.vadd zeros) 0 plain), by decide +kernel⟩
-- a batch of width 8 is open at 0, the row stands in batch 2
theorem wit_tear_later : ∃ (p : TearParam) (x y : TearSt) (out : Token), x.batch = some 0 ∧ y.batch = some 0 ∧ (0 : Nat) < out.lo / p.w ∧
    x.begun = true ∧ y.begun = false :=
  ⟨tearing 0 0, { batch := some 0, got := true }, { batch := some 0 }, { route0 with lo := 16, hi := 17 }, by decide +kernel⟩
theorem wit_log_full : ∃ (s : State), s.logFull 1 = true := by
  refine ⟨{ way0 with units := [(1, { stores := [{ slot := 0, writes := [], held := [(.h, 0, List.replicate (Config.heldLog + 1) 0)], visible := true, completion := plain .l }] })] }, ?_⟩
  simp [State.logFull, State.getU, amGet, amGet?]
theorem wit_log_room : (node0 (.stn zeros) 0).logFull 1 = false ∧ (node0 (.stn zeros) 0).masks = [] := by decide +kernel
/-- The window and the slot of the translation. -/
def pairOf (s : State) (va : Nat) : Option PairRes := (s.slotEnv 1 0).map fun e => (s.xlatePair e (e.window (ew .i32 2)) va).2
theorem wit_xlate_pair : pairOf (xlate0 0x40000007) (2 ^ 20) = some (.fault (2 ^ 20 + 2 ^ 56)) ∧
    pairOf (xlate0 0x40000007) 0xFFFFF = some (.phys 0x400FFFFF) ∧ pairOf (xlate0 0x40000087) 0xFFFFF = some (.fault (0xFFFFF + 2 * 2 ^ 56)) := by decide +kernel

-- a breakpoint at a field, and one at an output port
theorem wit_token_break : ∃ (s : State) (t : Token), (s.getPad (s.padOfUnit (.cell 0 0))).stop = false ∧ t.abort = false ∧ (s.getU 0).live = true ∧
    (s.getU 0).ctx = t.ctx ∧ (s.getU 0).out (.cell 0 0) = false ∧ s.tokenBreak (s.padOfUnit (.cell 0 0)) (.token (.cell 0 0) 0 .l) = true :=
  ⟨{ way0 with breaks := [.token (.cell 0 0) 0 .l] }, plain .l, by decide +kernel⟩
theorem wit_port_break : ∃ (s : State) (h : Hop) (b : BreakPoint), h.isMark = false ∧ h.padOf s.padOfUnit = some 0 ∧ (s.getPad 0).stop = false ∧
    s.portBreak 0 h = some b ∧ s.tokenBreak 0 b = true :=
  ⟨{ way0.updU 0 fun u => { u with conf := { u.conf with portRoute := [(0, { id := hop0.routeWant })] } } with breaks := [.port (.cell 0 0) 0] }, hop0,
    .port (.cell 0 0) 0, by decide +kernel⟩
/-- An abort mark on its way to cell 0. -/
def markTok : Token := Token.sealed { net := .control, kind := 4, ctx := 1 }
def mark0 : Hop := { tok := markTok, ends := [.wave 0 (.cell 0 0)], crc := hopCrc markTok, site := (Loc.cell 0 0).site, inp := 11 }
theorem wit_hop_mark : mark0.crcOk = true ∧ mark0.isMark = true ∧ mark0.tok.route = mark0.routeWant ∧ Token.kindOk mark0.tok = true ∧
    Token.spanOk mark0.tok = true ∧ mark0.tok.parity = mark0.tok.parityBit ∧ freely way0 = true := ⟨beq_self_eq_true _, by decide +kernel⟩
def marking0 : State :=
  { padOn { pad0 with conf := { conf1 with units := [(.cell 0 0, { portRoute := [(0, { id := (plain .l).route })] })] } } with
    events := [⟨.switchTokenCheck hop0, {}⟩], hopBufs := [(hop0.site * 32, (0, [hop0.tok]))] }
theorem wit_mark_box : Event.mk (.switchTokenCheck hop0) {} ∈ marking0.events ∧ (hop0.site * 32, (0, [hop0.tok])) ∈ marking0.hopBufs ∧
    hop0.padOf marking0.padOfUnit = some 0 ∧ hop0.tok.net ≠ .control ∧ hop0.tok.ctx = (marking0.getPad 0).ctx ∧
    (marking0.getPad 0).conf.routeIds.contains hop0.tok.route = true := ⟨List.Mem.head _, List.Mem.head _, by decide +kernel⟩

/-- Node 0 in a running paddock, with one store. -/
def storing0 (x : NodeStore) : State := { node0 (.stn zeros) 0 with units := (node0 (.stn zeros) 0).units.map fun u => (u.1, { u.2 with stores := [x] }) }
def heldStore : NodeStore := { slot := 0, writes := [], held := [(.h, 0, [7])], visible := true, completion := plain .l }
def update0 : NodeStore := { slot := 0, writes := [], ups := [⟨.h, 0, 0, 5⟩], completion := plain .l }
theorem wit_publish_due : (storing0 heldStore).leaving 0 ((storing0 heldStore).testedCommit ((storing0 heldStore).getPad 0)) = [(1, heldStore)] ∧
    heldStore.ups = [] ∧ update0.held = [] ∧ update0.ups = [⟨.h, 0, 0, 5⟩] ∧ ((storing0 heldStore).getPad 0).phase = .running := by decide +kernel
-- what becomes visible is itself due, or nothing is
theorem wit_store_due : ∃ (s t : State) (x y : NodeStore), s = storing0 update0 ∧ ((s.getU 1).stores.find? fun z => z.slot == 0 && !z.visible) = some x ∧
    (let s1 := (s.updU 1 fun u => { u with stores := u.stores.map fun z => if z == x then { x with writes := [], held := x.held, visible := true } else z }).drainNode 1
     ∃ z ∈ s1.leaving 0 (s1.getPad 0).tested, z.2.gatedPart = true) ∧
    t = storing0 { slot := 0, writes := [(.s, 0, [7])], completion := plain .l } ∧ ((t.getU 1).stores.find? fun z => z.slot == 0 && !z.visible) = some y ∧
    (let s1 := ((t.putWrites y.writes).updU 1 fun u => { u with stores := u.stores.map fun z => if z == y then { y with writes := [], visible := true } else z }).drainNode 1
     ¬ ∃ z ∈ s1.leaving 0 (s1.getPad 0).tested, z.2.gatedPart = true) :=
  ⟨storing0 update0, storing0 { slot := 0, writes := [(.s, 0, [7])], completion := plain .l }, update0,
    { slot := 0, writes := [(.s, 0, [7])], completion := plain .l }, by decide +kernel⟩
theorem wit_miss_stopped : ∃ (s : State), s.engineWants 0 = none ∧ (s.getCell 0).miss = [(plain .l, .field (.cell 0 1) 0 .l)] ∧
    (s.getPad (s.getU (Loc.key (.cell 0 1))).pad).stop = true :=
  ⟨{ missing0 0 with pads := (missing0 0).pads.map fun x => (x.1, { x.2 with stop := true }) }, by decide +kernel⟩
theorem wit_swap_evicted : ∃ (s : State), (s.tile 0 5).st = .draining ∧ (s.tile 0 5).swapped = none ∧ (s.getU 0).slotNo = none :=
  ⟨(swap0 { st := .draining }).updU 0 fun u => { u with slotNo := none }, by decide +kernel⟩
theorem wit_swap_stopped : ∃ (s t : State), (s.getU 0).conf.needsTile 0 = some 5 ∧ (s.tile 0 5).st = .empty ∧ (s.tile 0 5).swapped = some [1, 2] ∧
    (s.getPad (s.getU 0).pad).stop = true ∧ (t.tile 0 5).st = .filling ∧ (t.tile 0 5).swapped = some [1, 2] ∧ (t.getU 0).slotNo = none ∧
    (t.getPad (t.getU 0).pad).stop = false :=
  ⟨let s := (slot0 (.fir zeros) 0x03000000 plain [(0, 0xFFFF, 5)] tiles0).updU 0 fun u => { u with tiles := [(5, { swapped := some [1, 2] })] }
   { s with pads := s.pads.map fun x => (x.1, { x.2 with stop := true }) },
   (swap0 { st := .filling, swapped := some [1, 2] }).updU 0 fun u => { u with slotNo := none }, by decide +kernel⟩
-- a page denied to an access, to a paddock with a wait of its own, to a parked one
theorem wit_denied : ∃ (s t u : State) (r : PageReq), (∀ x ∈ [s, t, u], x.update = none ∧ amGet? x.prgs 7 = some r) ∧ r.gen = (amGet s.ctxs r.ctx ({} : Ctx)).gen ∧
    (∃ y ∈ s.units, y.2.live = true ∧ y.2.pad = 0 ∧ y.2.ctx = r.ctx ∧ ((y.2.withheld.find? fun w => w.prg == some 7 || pageOf w.va == r.va) = some withheld0) ∧
      (s.slotEnv y.1 withheld0.slot).isSome = true) ∧ (s.getPad 0).ctx = r.ctx ∧
    ((t.getPad 0).waits.find? fun y => y.2.va == r.va) = some (seedWait 0, ⟨r.va, false, {}⟩) ∧ (t.getPad 0).ctx = r.ctx ∧ (∀ y ∈ t.units, y.2.withheld = []) ∧
    (u.getPad 0).waitPage = some r.va ∧ (u.getPad 0).waits = [] ∧ (∀ y ∈ u.units, y.2.withheld = []) :=
  ⟨{ denied0 with prgs := [(7, req0 0)] }, { padOn { pad0 with waits := [(seedWait 0, ⟨0x1000, false, {}⟩)] } with prgs := [(7, req0 0)] },
    { padOn { pad0 with waitPage := some 0x1000 } with prgs := [(7, req0 0)] }, req0 0,
    by decide +kernel⟩
-- permits of slice 0 are all taken: a collective of S ranges waits, and an append
def noPermit (s : State) : State := { s with pads := s.pads.map fun x => (x.1, { x.2 with permits := [(permitKey 0 0 0, 1)] }) }
theorem wit_engine_coll_full : ∃ (c : EngCmd), c.op = .coll .bcast ⟨2, 0, 0, 0⟩ ⟨2, 0, 0, 64⟩ 64 0 ∧ c.started = true ∧
    ((noPermit (eng0 c)).members 0 0).isSome = true ∧ (noPermit (eng0 c)).engFull 0 c = true :=
  ⟨{ id := 5, op := .coll .bcast ⟨2, 0, 0, 0⟩ ⟨2, 0, 0, 64⟩ 64 0, ctx := 1, started := true }, by decide +kernel⟩
theorem wit_enq_full_slice : ∃ (c : EngCmd), c.op = .enq ⟨2, 0, 0, 0⟩ 0 ∧ c.started = true ∧ firstOpen (amGet (noPermit (eng0 c)).engines (queueKey 0 0) []) = some c ∧
    (noPermit (eng0 c)).engFull 0 c = true := ⟨{ id := 5, op := .enq ⟨2, 0, 0, 0⟩ 0, ctx := 1, started := true }, by decide +kernel⟩
theorem wit_enq_room : (eng0 enq0).engFull 0 enq0 = false := by decide +kernel

theorem wit_first_queue_aged : ∃ (s : State), (s.getQ 0).passes = 64 ∧ (s.firstQueue [⟨1, .droverSelection, 0⟩, ⟨0, .droverSelection, 0⟩]).any (fun c => c.q == 0) = true ∧
    (s.getQ 1).prio = 7 := ⟨{ (queue0 [] { passes := 64 }) with queues := (queue0 [] { passes := 64 }).queues ++ [(1, { prio := 7 })] }, by decide +kernel⟩
/-- A selection pass looks at the heads, and what it finds is as asked. -/
def selects (s : State) (p : State → List QCand → Bool) : Bool :=
  let (s1, cs, bs) := State.candidates (s.queues.map (·.1)) s [] []
  !s.droverStop && s.update.isNone && p (s1.passOver bs) cs
theorem wit_select_pass : selects (queue0 sigPkt) (fun s2 cs => !s2.choosing && (s2.firstQueue cs).any fun c => c.q == 0 && c.pkt == 0) = true ∧
    selects (queue0 sigPkt { st := .disabled } |>.updQ 0 fun x => { x with wr := 0 }) (fun s2 cs => (s2.firstQueue cs).isNone) = true ∧
    selects { queue0 sigPkt with events := [⟨.launchStart 1 0, {}⟩] } (fun s2 _ => s2.choosing) = true := by decide +kernel
theorem wit_pass_over : ((queue0 [] { blocked := 62 }).getQ 0).blocked < 63 ∧ 63 ≤ ((queue0 [] { blocked := 63 }).getQ 0).blocked := by decide +kernel
/-- A SIGNAL with a completion signal in F of fold 0, which its context owns, or of fold 1, which it does not. -/
def donePkt (fold : Nat) : List Byte := [3, 2] ++ zeroBytes 6 ++ toBytes 8 (0x2000000000000080 + fold * 2 ^ 56) ++ toBytes 8 0x2000000000000040 ++ toBytes 8 5 ++ [0]
theorem wit_packet_done : packet0 (queue0 (donePkt 0)) (fun s1 b => match pktDone b with
      | some e => e.space == 1 && s1.pktAddrOk 1 e 8 && s1.fOwned 1 e.fold e.addr 8 && (s1.signalDone 0 0 1 e .complete).2 && s1.memWf &&
        (linesOf (fAddr e.fold e.addr) 8).all fun l => s1.markOf .f l == none
      | none => false) = true ∧
    (queue0 []).fOwned 1 1 0x80 8 = false ∧ (queue0 (donePkt 0)).breaks = [] := by decide +kernel
-- the signal's page is not mapped
theorem wit_packet_done_waits : ((queue0 sigPkt).signalDone 0 0 1 ⟨3, 0, 0, 2 ^ 40⟩ .complete).2 = false := by decide +kernel
theorem wit_decode : ∃ (e f : SpoolEntry), e.frags ≠ [] ∧ e.k ≤ e.frags.length ∧ e.msg = none ∧ e.lost = false ∧
    amGet? ((linked { spool := [(3, e)] }).link (linkKey 0 1)).spool 3 = some e ∧ f.frags ≠ [] ∧ f.frags.length < f.k :=
  ⟨{ k := 2, m := 0, frags := [(0, zeroBytes 48), (1, zeroBytes 48)] }, { k := 2, m := 0, frags := [(0, zeroBytes 48)] }, by decide +kernel⟩
theorem wit_bar2_poison : ∃ (s : State), s.status = 1 ∧ linesOf s.arg.addr s.arg.len = [1] ∧ s.markOf .m 1 = some .poison ∧ s.masks = [] :=
  ⟨{ host0 { addr := 64, len := 4 } with marks := [(.m, 1, .poison)] }, by decide +kernel⟩
theorem wit_register_early : ∃ (s t : State), s.status = 0 ∧ t.status = 2 ∧ t.arg.addr = 0x1000 ∧ t.arg.bytes.length = 4 ∧
    t.arg.addr + t.arg.bytes.length ≤ 2 ^ 20 :=
  ⟨{ host0 { addr := 0x1000, bytes := [1, 0, 0, 0] } with status := 0 }, { host0 { addr := 0x1000, bytes := [1, 0, 0, 0] } with status := 2 }, by decide +kernel⟩
-- masks of a slice, of the last memory link, of the last tether
theorem wit_errmask : ∃ (a b c : Arg), a.code = 1 ∧ a.cell < 384 ∧ b.code = 2 ∧ b.link < 64 ∧ c.code = 3 ∧ linkExists c.link = true :=
  ⟨{ code := 1, cell := 383 }, { code := 2, link := 63 }, { code := 3, link := 123 }, by decide⟩
/-- Cell 0 with a plain tile 5 and a ring tile 4; s1 names tile 5 or 3 and s3 tile 5. -/
def tileCore (src dst : Nat) : State :=
  let s := core0 [(1, BitVec.ofNat 64 (0xA000000000000000 + src)), (2, 0), (3, BitVec.ofNat 64 (0xA000000000000000 + dst)), (4, BitVec.ofNat 64 (8 * 2 ^ 40 + 4))]
  s.updU 0 fun u => { u with tiles := u.tiles ++ [(5, { role := .plain, base := 68 }), (6, { role := .plain, base := 70 })] }
theorem wit_cpy_tiles : ∃ (s t u : State), (∀ x ∈ [s, t, u], x.Executes always [1, 2, 3] [] ∧ (parseEng (x.core.reg 1)).isSome = true ∧
      (parseEng (x.core.reg 3)).isSome = true) ∧
    (s.engTile ⟨5, 0, 0, 5⟩).any (fun x => x.role == .plain) = true ∧ (parseEng (s.core.reg 1)) = some ⟨5, 0, 0, 5⟩ ∧
    (parseEng (s.core.reg 3)) = some ⟨5, 0, 0, 6⟩ ∧ (s.engTile ⟨5, 0, 0, 6⟩).any (fun x => x.role == .plain) = true ∧
    (t.engTile ⟨5, 0, 0, 3⟩).any (fun x => x.role == .acc) = true ∧ (parseEng (t.core.reg 3)) = some ⟨5, 0, 0, 4⟩ ∧
    (t.engTile ⟨5, 0, 0, 4⟩).any (fun x => x.role == .op) = true ∧ (t.core.reg 4).toNat / 2 ^ 40 ≠ 0 ∧
    (parseEng (u.core.reg 1)) = some ⟨5, 0, 0, 4⟩ ∧ (u.engTile ⟨5, 0, 0, 4⟩).any (fun x => x.role == .op) = true :=
  ⟨tileCore 5 6, tileCore 3 4, tileCore 4 5, by decide +kernel⟩
-- MINT and FW_LOAD of an image whose first line fails, or whose line fails as no other
theorem wit_image_unread : (match ((({ mail0 [(8, [1]), (16, toBytes 8 0x1000), (24, toBytes 8 64)] with marks := [(.m, 0x40, .poison)] } : State).commanded 5).readPhys
      0x1000 64).2.2 with
    | some k => decide (k = 8)
    | none => false) = true := by decide +kernel

end Sys2Proof.Tests
end

section
/-!
PROOFS. What reset leaves (O60).
-/

namespace Sys2Proof.Machine

/-- In a fresh machine every register of every core reads zero. -/
theorem reset_reg (c : Nat) (r : RegNum) : (State.reset.coreOf c).reg r = 0 := by
  unfold CoreSt.reg
  split <;> rfl

/-- In a fresh machine p0 alone reads true. -/
theorem reset_pred (c : Nat) (p : PredNum) : (State.reset.coreOf c).pred p = decide (p = 0) := by
  unfold CoreSt.pred
  split <;> simp_all [State.coreOf, State.reset, amGet, amGet?]

/-- In a fresh machine every byte of every space is blank. -/
theorem reset_mem (sp : Space) (x : Nat) : (State.reset.mem sp).get x = 0 := by
  cases sp <;> rfl

/-- Settles O60: each value of `State.reset` read off its field. -/
theorem resetLeavesTheValuesOfTheSpec : Obligations.ResetLeavesTheValuesOfTheSpec :=
  ⟨rfl, rfl, rfl, rfl, rfl, fun c => ⟨rfl, rfl, rfl, reset_reg c, reset_pred c⟩, fun _ => rfl, fun _ => rfl, fun _ => rfl, fun _ => rfl,
    fun _ => rfl, rfl, reset_mem, rfl⟩

end Sys2Proof.Machine
end

section
/-!
PROOFS. Messages between pastures (O48): running paddocks, fragments, CODERATE, the spool, the paths of a link.
-/

namespace Sys2Proof.Machine

theorem ofBytes_toBytes (n x : Nat) : ofBytes (toBytes n x) = x % 256 ^ n := by
  induction n generalizing x with
  | zero => simp [toBytes, ofBytes, Nat.mod_one]
  | succ n ih =>
    simp only [toBytes, ofBytes, ih, BitVec.toNat_ofNat]
    rw [show x % 256 ^ (n + 1) = x % (256 * 256 ^ n) by rw [Nat.pow_succ']]
    exact Nat.mod_mul.symm

/-! ### Running paddocks and unarmed units -/

/-- In a paddock that runs an event is taken at once. -/
theorem whileRunning_of_running {s : State} {pad : Nat} (i : Instr) (body : State → Out) (h : (s.getPad pad).stop = false) :
    s.whileRunning pad i body = body s := by
  simp [State.whileRunning, h]

/-- Where every paddock runs, a message moves. -/
theorem whileMoving_of_running {s : State} (key id : Nat) (i : Instr) (body : State → Out) (h : ∀ p, (s.getPad p).stop = false) :
    s.whileMoving key id i body = body s := by
  unfold State.whileMoving
  split
  · exact whileRunning_of_running i body (h _)
  · rfl

/-- No mask held, no injection taken. -/
theorem takeMask_of_no_masks {s : State} (unit bit : Nat) (h : s.masks = []) : s.takeMask unit bit = (s, false) := by
  simp [State.takeMask, h, amGet, amGet?]

/-! ### Fragments (R379) -/

/-- The number that a header's eight bytes hold. -/
def headerNum (id k m index attempt tkind : Nat) : Nat :=
  id % 2 ^ 24 + index % 16 * 2 ^ 24 + k % 16 * 2 ^ 28 + m % 4 * 2 ^ 32 + attempt % 4 * 2 ^ 34 + tkind % 4 * 2 ^ 36

section
variable (id k m index attempt tkind : Nat) (data : List Byte)

theorem fragHeader_length : (fragHeader id k m index attempt tkind).length = 8 := toBytes_length _ _

theorem mkFragment_header : (mkFragment id k m index attempt tkind data).header = headerNum id k m index attempt tkind := by
  have hlt : headerNum id k m index attempt tkind < 256 ^ 8 := by unfold headerNum; omega
  simp only [Fragment.header, mkFragment, List.append_assoc]
  rw [List.take_left' (fragHeader_length ..), fragHeader, ofBytes_toBytes]
  exact Nat.mod_eq_of_lt hlt

theorem mkFragment_id (h : id < 2 ^ 24) : (mkFragment id k m index attempt tkind data).id = id := by
  simp only [Fragment.id, mkFragment_header, headerNum, bitsOf]; omega
theorem mkFragment_index (h : index < 16) : (mkFragment id k m index attempt tkind data).index = index := by
  simp only [Fragment.index, mkFragment_header, headerNum, bitsOf]; omega
theorem mkFragment_k (h : k < 16) : (mkFragment id k m index attempt tkind data).k = k := by
  simp only [Fragment.k, mkFragment_header, headerNum, bitsOf]; omega
theorem mkFragment_m (h : m < 4) : (mkFragment id k m index attempt tkind data).m = m := by
  simp only [Fragment.m, mkFragment_header, headerNum, bitsOf]; omega
theorem mkFragment_attempt (h : attempt < 4) : (mkFragment id k m index attempt tkind data).attempt = attempt := by
  simp only [Fragment.attempt, mkFragment_header, headerNum, bitsOf]; omega
theorem mkFragment_tkind (h : tkind < 4) : (mkFragment id k m index attempt tkind data).tkind = tkind := by
  simp only [Fragment.tkind, mkFragment_header, headerNum, bitsOf]; omega
theorem mkFragment_reserved : bitsOf (mkFragment id k m index attempt tkind data).header 63 38 = 0 := by
  simp only [mkFragment_header, headerNum, bitsOf]; omega

end

/-- A fragment as it is sent is no erasure, and its fields read back. -/
theorem mkFragment_reads_back {id k m index attempt tkind : Nat} {data : List Byte} (hid : id < 2 ^ 24) (hk : k ∈ [2, 4, 6, 8]) (hm : m < 4)
    (hindex : index < k + m) (hattempt : attempt < 4) (htkind : tkind < 3) (hdata : data.length = 96 / k) :
    let f := mkFragment id k m index attempt tkind data
    f.good = true ∧ f.id = id ∧ f.k = k ∧ f.m = m ∧ f.index = index ∧ f.attempt = attempt ∧ f.tkind = tkind ∧ f.data = data := by
  intro f
  have hk8 : k ≤ 8 := by revert hk; simp; omega
  have fid : f.id = id := mkFragment_id _ _ _ _ _ _ _ hid
  have fk : f.k = k := mkFragment_k _ _ _ _ _ _ _ (by omega)
  have fm : f.m = m := mkFragment_m _ _ _ _ _ _ _ hm
  have findex : f.index = index := mkFragment_index _ _ _ _ _ _ _ (by omega)
  have fattempt : f.attempt = attempt := mkFragment_attempt _ _ _ _ _ _ _ hattempt
  have ftkind : f.tkind = tkind := mkFragment_tkind _ _ _ _ _ _ _ (by omega)
  have fields : f.fieldsOk = true := by
    simp only [Fragment.fieldsOk, fk, fm, findex, ftkind, show bitsOf f.header 63 38 = 0 from mkFragment_reserved .., hindex]
    simp only [List.mem_cons, List.not_mem_nil, or_false] at hk
    simp
    omega
  let body := fragHeader id k m index attempt tkind ++ data
  have hbody : body.length = 8 + 96 / k := by simp [body, fragHeader_length, hdata]
  have hbytes : f.bytes = body ++ toBytes 4 (crc32c body).toNat := rfl
  have htake : f.bytes.take (8 + 96 / f.k) = body := by rw [fk, hbytes, ← hbody, List.take_left]
  refine ⟨?_, fid, fk, fm, findex, fattempt, ftkind, ?_⟩
  · unfold Fragment.good
    rw [htake]
    simp [fields, hbody, fk, hbytes, show f.injected = false from rfl]
  · have hdrop : f.bytes.drop 8 = data ++ toBytes 4 (crc32c body).toNat := by
      rw [hbytes, List.append_assoc, List.drop_left' (fragHeader_length ..)]
    rw [Fragment.data, hdrop, fk, ← hdata, List.take_left]

/-- What the check of a fragment has made sure of. -/
theorem good_fragment {f : Fragment} (h : f.good = true) : f.injected = false ∧ f.bytes.length = 12 + 96 / f.k ∧ f.k ∈ [2, 4, 6, 8] ∧
    f.index < f.k + f.m ∧ f.tkind < 3 ∧ bitsOf f.header 63 38 = 0 ∧
    f.bytes.drop (8 + 96 / f.k) = toBytes 4 (crc32c (f.bytes.take (8 + 96 / f.k))).toNat := by
  simp only [Fragment.good, Fragment.fieldsOk, Bool.and_eq_true, Bool.not_eq_true', Bool.or_eq_true, beq_iff_eq, bne_iff_ne, decide_eq_true_eq] at h
  obtain ⟨⟨⟨hinj, ⟨⟨hres, hkind⟩, hk⟩, hindex⟩, hbytes⟩, hlen⟩ := h
  refine ⟨hinj, ?_, by simpa [or_assoc] using hk, hindex, ?_, hres, ?_⟩
  · have := congrArg List.length hbytes
    rw [List.length_append, hlen, toBytes_length] at this
    omega
  · have : f.tkind < 4 := Nat.mod_lt _ (by decide)
    omega
  · conv_lhs => rw [hbytes]
    exact List.drop_left' hlen

/-! ### CODERATE (R380, R390) -/

theorem bitOf_eq_testBit (x i : Nat) : bitOf x i = x.testBit i := by
  rw [bitOf, Nat.testBit_eq_decide_div_mod_eq]; rfl

/-- The path mask of the paths below n that p names. -/
def pathMask (p : Nat → Bool) (n : Nat) : Nat := (((List.range n).filter p).map fun i => 2 ^ i).sum

theorem pathMask_succ (p : Nat → Bool) (n : Nat) : pathMask p (n + 1) = (if p n then 2 ^ n else 0) + pathMask p n := by
  unfold pathMask
  rw [List.range_succ, List.filter_append, Nat.add_comm]
  by_cases h : p n <;> simp [h]

theorem pathMask_lt (p : Nat → Bool) (n : Nat) : pathMask p n < 2 ^ n := by
  induction n with
  | zero => simp [pathMask]
  | succ n ih =>
    rw [pathMask_succ, Nat.pow_succ]
    split <;> omega

theorem pathMask_testBit (p : Nat → Bool) {n i : Nat} (h : i < n) : (pathMask p n).testBit i = p i := by
  induction n with
  | zero => omega
  | succ n ih =>
    rw [pathMask_succ]
    rcases Nat.lt_succ_iff_lt_or_eq.mp h with hlt | rfl
    · split
      · rw [Nat.testBit_two_pow_add_gt hlt, ih hlt]
      · rw [Nat.zero_add, ih hlt]
    · have low : (pathMask p i).testBit i = false := Nat.testBit_lt_two_pow (pathMask_lt p i)
      cases hp : p i <;> simp [Nat.testBit_two_pow_add_eq, low]

/-- The value that `codeRate` packs, and its fields, as long as m and k fit into the byte below the mask. -/
theorem codeRate_toNat (p : Nat → Bool) {m k : Nat} (h : m * 2 ^ 4 + k < 2 ^ 8) :
    (codeRate ((List.range 8).filter p) m k).toNat = pathMask p 8 * 2 ^ 8 + (m * 2 ^ 4 + k) := by
  have := pathMask_lt p 8
  have hsum : (((List.range 8).filter p).map fun n => 2 ^ n).sum = pathMask p 8 := rfl
  rw [codeRate, hsum, BitVec.toNat_ofNat]
  omega

theorem codeRate_paths (p : Nat → Bool) {m k : Nat} (h : m * 2 ^ 4 + k < 2 ^ 8) :
    ((List.range 8).filter fun n => bitOf (codeRate ((List.range 8).filter p) m k).toNat (8 + n)) = (List.range 8).filter p := by
  refine List.filter_congr fun n hn => ?_
  rw [codeRate_toNat p h, bitOf_eq_testBit, Nat.mul_comm, Nat.testBit_two_pow_mul_add _ h, if_neg (by omega), Nat.add_sub_cancel_left]
  exact pathMask_testBit p (List.mem_range.mp hn)

theorem LinkSt.k_lt (l : LinkSt) : l.k < 16 := Nat.mod_lt _ (by decide)

/-- m and k of a link whose paths change fit below its path mask. -/
theorem withPaths_fits (l : LinkSt) (p : Nat → Bool) :
    min l.wantM (((List.range 8).filter p).length - l.k) * 2 ^ 4 + l.k < 2 ^ 8 := by
  have hlen : ((List.range 8).filter p).length ≤ 8 := (List.length_filter_le ..).trans (by simp)
  have hk := l.k_lt
  omega

theorem withPaths_paths (l : LinkSt) (p : Nat → Bool) : (l.withPaths ((List.range 8).filter p)).paths = (List.range 8).filter p :=
  codeRate_paths p (withPaths_fits l p)

theorem withPaths_k (l : LinkSt) (p : Nat → Bool) : (l.withPaths ((List.range 8).filter p)).k = l.k := by
  have hk := l.k_lt
  have h : (l.withPaths ((List.range 8).filter p)).k = _ := congrArg (bitsOf · 3 0) (codeRate_toNat p (withPaths_fits l p))
  rw [h, bitsOf]
  omega

theorem withPaths_m (l : LinkSt) (p : Nat → Bool) (hm : l.wantM < 4) :
    (l.withPaths ((List.range 8).filter p)).m = min l.wantM (((List.range 8).filter p).length - l.k) := by
  have hk := l.k_lt
  have h : (l.withPaths ((List.range 8).filter p)).m = _ := congrArg (bitsOf · 5 4) (codeRate_toNat p (withPaths_fits l p))
  rw [h, bitsOf]
  omega

/-! ### Receiving (R379, R381, R382) -/

/-- The spool entry of a fragment's message, once it holds the fragment. -/
def SpoolEntry.keep (e : SpoolEntry) (f : Fragment) : SpoolEntry :=
  { e with
    k := f.k, m := f.m, net := kindNet f.tkind
    frags := if e.frags.any (fun x => x.1 == f.index) then e.frags else e.frags ++ [(f.index, f.data)] }

/-- A fragment of this id comes too late for the spool: its id has left it, or its entry has decoded or is lost. -/
def LinkSt.lateFor (l : LinkSt) (id : Nat) : Prop :=
  idBelow id l.outId = true ∨ ∃ e, amGet? l.spool id = some e ∧ (e.msg.isSome = true ∨ e.lost = true)

/-- A message that has decoded or is lost is acknowledged: it leaves the sender's replay window. -/
def State.acked (s : State) (key id : Nat) : State :=
  s.setLink key { s.link key with window := (s.link key).window.filter fun m => m.id != id }

theorem SpoolEntry.enough_iff (e : SpoolEntry) : e.enough = true ↔ e.frags ≠ [] ∧ e.k ≤ e.frags.length := by
  simp [SpoolEntry.enough]

theorem SpoolEntry.not_enough {e : SpoolEntry} (h : e.frags = [] ∨ e.frags.length < e.k) : e.enough = false := by
  rw [Bool.eq_false_iff, Ne, SpoolEntry.enough_iff]
  rintro ⟨hne, hk⟩
  exact h.elim hne (Nat.not_lt.mpr hk)

section Receiving
variable {s : State} {src dst : Nat} (hr : receives src dst = true) (hrun : ∀ p, (s.getPad p).stop = false)
include hr hrun

section
variable {path : Nat} {f : Fragment} (hmasks : s.masks = [])
include hmasks

theorem exec_fragmentReceive_erasure (hg : f.good = false) :
    exec (.fragmentReceive src dst path f) s = .next (s.countFrag (linkKey src dst) path f.good f.injected) := by
  show execFragmentReceive src dst path f s = _
  simp [execFragmentReceive, hr, whileMoving_of_running _ _ _ _ hrun, takeMask_of_no_masks _ _ hmasks, hg]

theorem exec_fragmentReceive_late {s1 : State} (h1 : s.countFrag (linkKey src dst) path f.good f.injected = s1) (hg : f.good = true)
    (hlate : (s1.link (linkKey src dst)).lateFor f.id) :
    exec (.fragmentReceive src dst path f) s =
      .next (s1.setLink (linkKey src dst) { s1.link (linkKey src dst) with late := (s1.link (linkKey src dst)).late + 1 }) := by
  show execFragmentReceive src dst path f s = _
  cases f
  simp only [hg] at h1
  simp only [execFragmentReceive, hr, whileMoving_of_running _ _ _ _ hrun, takeMask_of_no_masks _ _ hmasks, Bool.or_false, hg, h1]
  obtain hid | ⟨e, he, hdone⟩ := hlate
  · simp [hid]
  · simp [he, hdone]

theorem exec_fragmentReceive_kept {s1 : State} (h1 : s.countFrag (linkKey src dst) path f.good f.injected = s1) (hg : f.good = true)
    (hlate : ¬ (s1.link (linkKey src dst)).lateFor f.id) {e : SpoolEntry}
    (he : (amGet (s1.link (linkKey src dst)).spool f.id {} : SpoolEntry).keep f = e) :
    let s2 := s1.setLink (linkKey src dst) { s1.link (linkKey src dst) with spool := amPut (s1.link (linkKey src dst)).spool f.id e }
    exec (.fragmentReceive src dst path f) s = .next (if e.enough = true then s2.postOnce (.decodeAck src dst f.id) else s2) := by
  intro s2
  show execFragmentReceive src dst path f s = _
  simp only [LinkSt.lateFor, not_or, Bool.not_eq_true, not_exists, not_and] at hlate
  obtain ⟨hid, hopen⟩ := hlate
  cases f
  simp only [hg] at h1
  simp only [execFragmentReceive, hr, whileMoving_of_running _ _ _ _ hrun, takeMask_of_no_masks _ _ hmasks, Bool.or_false, hg, h1]
  cases hx : amGet? (s1.link (linkKey src dst)).spool (Fragment.id _) with
  | none => simp [hid, s2, ← he, SpoolEntry.keep]
  | some x => simp [hid, hopen x hx, s2, ← he, SpoolEntry.keep]

end

theorem exec_decodeAck (id : Nat) :
    let e : SpoolEntry := amGet (s.link (linkKey src dst)).spool id {}
    exec (.decodeAck src dst id) s =
      .next ((if (e.enough && e.msg.isNone && !e.lost) = true then s.decodeEntry src dst id e else s).acked (linkKey src dst) id) := by
  show execDecodeAck src dst id s = _
  simp only [execDecodeAck, hr, whileMoving_of_running _ _ _ _ hrun]
  rfl

theorem exec_decodeAck_ready {id : Nat} {e : SpoolEntry} (he : amGet? (s.link (linkKey src dst)).spool id = some e)
    (hready : e.frags ≠ [] ∧ e.k ≤ e.frags.length ∧ e.msg = none ∧ e.lost = false) :
    exec (.decodeAck src dst id) s = .next ((s.decodeEntry src dst id e).acked (linkKey src dst) id) := by
  obtain ⟨hfrags, hk, hmsg, hlost⟩ := hready
  have hget : amGet (s.link (linkKey src dst)).spool id ({} : SpoolEntry) = e := by simp [amGet, he]
  have henough := e.enough_iff.mpr ⟨hfrags, hk⟩
  simp [exec_decodeAck hr hrun, hget, henough, hmsg, hlost]

theorem exec_decodeAck_not_ready {id : Nat}
    (hready : ∀ e, amGet? (s.link (linkKey src dst)).spool id = some e →
      ¬ (e.frags ≠ [] ∧ e.k ≤ e.frags.length ∧ e.msg = none ∧ e.lost = false)) :
    exec (.decodeAck src dst id) s = .next (s.acked (linkKey src dst) id) := by
  rw [exec_decodeAck hr hrun]
  rw [if_neg]
  cases hx : amGet? (s.link (linkKey src dst)).spool id with
  | none => simp [amGet, hx, SpoolEntry.enough]
  | some e =>
    have := hready e hx
    simp [amGet, hx, SpoolEntry.enough_iff]
    grind

omit hrun in
theorem exec_replayRequest {id : Nat} (attempt : Nat) {m : Msg} (hm : ((s.link (linkKey src dst)).window.find? fun m => m.id == id) = some m) :
    exec (.replayRequest src dst id attempt) s = .next (s.sendFrags src dst m attempt) := by
  show execReplayRequest src dst id attempt s = _
  simp [execReplayRequest, hr, hm]

section
variable {id : Nat} {e : SpoolEntry} (he : amGet? (s.link (linkKey src dst)).spool id = some e) (hmsg : e.msg = none) (hlost : e.lost = false)
  (hfew : e.frags = [] ∨ e.frags.length < e.k)
include he hmsg hlost hfew

/-- An entry past its time is reported and asked for again. -/
theorem exec_spoolTimeout_again (hattempt : e.attempt < 3) :
    let l := s.link (linkKey src dst)
    exec (.spoolTimeout src dst id) s =
      .next (((s.report { cause := 0x05, pad := (s.messagePad (linkKey src dst) id).getD 0, site := some (dst * 2 ^ 14) }).setLink (linkKey src dst)
        { l with losses := l.losses + 1, spool := amPut l.spool id { e with attempt := e.attempt + 1 } }).post
          (.replayRequest src dst id (e.attempt + 1))) := by
  show execSpoolTimeout src dst id s = _
  simp [execSpoolTimeout, hr, whileMoving_of_running _ _ _ _ hrun, he, hmsg, hlost, SpoolEntry.not_enough hfew, hattempt]

/-- After attempt 3 the message is lost, for every paddock across the bridge. -/
theorem exec_spoolTimeout_lost (hattempt : 3 ≤ e.attempt) :
    let l := s.link (linkKey src dst)
    let r : ErrRep := { cause := 0x05, pad := (s.messagePad (linkKey src dst) id).getD 0, site := some (dst * 2 ^ 14) }
    let s1 := s.setLink (linkKey src dst) { l with
      losses := l.losses + 1, spool := amPut l.spool id { e with lost := true }, window := l.window.filter fun m => m.id != id }
    let across := if src < 100 then s1.padsAcross src dst else []
    let s2 := if across = [] then s1.report r else across.foldl (fun u p => u.report { r with pad := p, commitScope := true }) s1
    exec (.spoolTimeout src dst id) s = .next ((s2.checkPaths (linkKey src dst)).drainSpool src dst (l.spool.length + 1)) := by
  intro l r s1 across s2
  have hs2 : across.foldl (fun u p => u.report { r with pad := p, commitScope := true })
      (if across.isEmpty = true then s1.report r else s1) = s2 := by
    cases h : across <;> simp [s2, h]
  rw [← hs2]
  show execSpoolTimeout src dst id s = _
  have hopen : (e.msg.isSome || e.lost || e.enough) = false := by simp [hmsg, hlost, SpoolEntry.not_enough hfew]
  simp only [execSpoolTimeout, hr, whileMoving_of_running _ _ _ _ hrun, he, hopen, Nat.not_lt.mpr hattempt, Bool.not_true, Bool.false_eq_true,
    if_false]
  rfl

end
end Receiving

/-! ### Paths of a link (R390 to R392) -/

/-- The two directions of the four bridges, and the 24 tethers (R18, R19). -/
theorem linkExists_iff (link : Nat) : linkExists link = true ↔ link ∈ [1, 2, 4, 7, 8, 11, 13, 14] ∨ 100 ≤ link ∧ link < 124 := by
  by_cases h : link < 100
  · interval_cases link <;> decide
  · simp [linkExists, h]
    omega

theorem linkExists_lt {link : Nat} (h : linkExists link = true) : link < 124 := by
  rcases (linkExists_iff link).mp h with h | h
  · simp only [List.mem_cons, List.not_mem_nil, or_false] at h
    omega
  · exact h.2

/-- The link of a path that has recalibrated. -/
def LinkSt.restored (l : LinkSt) (path : Nat) : LinkSt :=
  let x := { l.withPaths ((List.range 8).filter fun n => n == path || l.paths.contains n) with away := l.away.erase path }
  { x with down := x.down && decide (x.paths.length < x.k) }

theorem exec_pathRecalibrated {s : State} {link path : Nat} (hl : linkExists link = true) (hp : path ∈ (s.link link).away) :
    exec (.pathRecalibrated link path) s = .next (s.setLink link ((s.link link).restored path)) := by
  show execPathRecalibrated link path s = _
  simp only [execPathRecalibrated, hl, List.contains_iff_mem.mpr hp, Bool.not_true, Bool.false_eq_true, if_false]
  rfl

/-- The link whose path recalibrates. -/
def LinkSt.without (l : LinkSt) (path : Nat) : LinkSt :=
  { l.withPaths (l.paths.filter (· != path)) with away := l.away ++ [path] }

/-- The paths that are left are again some of the eight. -/
theorem paths_filter (l : LinkSt) (path : Nat) : l.paths.filter (· != path) =
    (List.range 8).filter fun n => n != path && bitOf l.coderate.toNat (8 + n) := by
  rw [LinkSt.paths, List.filter_filter]

theorem without_paths (l : LinkSt) (path : Nat) : (l.without path).paths = l.paths.filter (· != path) := by
  have h := withPaths_paths l fun n => n != path && bitOf l.coderate.toNat (8 + n)
  rwa [← paths_filter] at h

theorem without_k (l : LinkSt) (path : Nat) : (l.without path).k = l.k := by
  have h := withPaths_k l fun n => n != path && bitOf l.coderate.toNat (8 + n)
  rwa [← paths_filter] at h

section
variable {s : State} (hl : linkExists s.arg.link = true)
include hl

/-- The link as firmware's CODERATE, where s.arg brings one, leaves it. -/
def State.ratedLink (s : State) : LinkSt :=
  if s.arg.flag then (s.link s.arg.link).writeRate (BitVec.ofNat 32 s.arg.code) else s.link s.arg.link

theorem exec_recalibrationStart :
    exec .recalibrationStart s = .next (if s.arg.path ∈ s.ratedLink.paths ∧ s.ratedLink.k < s.ratedLink.paths.length then
      ((s.setLink s.arg.link s.ratedLink).setLink s.arg.link (s.ratedLink.without s.arg.path)).post (.pathRecalibrated s.arg.link s.arg.path)
    else s.setLink s.arg.link s.ratedLink) := by
  have hlt := linkExists_lt hl
  have hmem : (200 ≤ s.arg.link && s.arg.link < 200 + Config.memLinks) = false := by
    simp only [Bool.and_eq_false_iff, decide_eq_false_iff_not]; omega
  show execRecalibrationStart s = _
  simp only [execRecalibrationStart, hmem, hl, Bool.not_true, Bool.false_eq_true, if_false]
  show (if (!s.ratedLink.paths.contains s.arg.path || s.ratedLink.paths.length - 1 < s.ratedLink.k) = true then _ else _) = _
  by_cases h : s.arg.path ∈ s.ratedLink.paths ∧ s.ratedLink.k < s.ratedLink.paths.length
  · have hgo : (!s.ratedLink.paths.contains s.arg.path || decide (s.ratedLink.paths.length - 1 < s.ratedLink.k)) = false := by
      simp [h.1]; omega
    rw [hgo, if_pos h]
    rfl
  · have hstay : (!s.ratedLink.paths.contains s.arg.path || decide (s.ratedLink.paths.length - 1 < s.ratedLink.k)) = true := by
      by_cases hp : s.arg.path ∈ s.ratedLink.paths
      · have hpos : 0 < s.ratedLink.paths.length := List.length_pos_of_mem hp
        have hk : ¬ s.ratedLink.k < s.ratedLink.paths.length := fun hk => h ⟨hp, hk⟩
        simp; omega
      · simp [hp]
    rw [hstay, if_neg h]
    rfl

end

theorem exec_injectDrop {s : State} (hl : linkExists s.arg.link = true) :
    exec .injectDrop s = .next (s.setLink s.arg.link { s.link s.arg.link with dropNext := (s.link s.arg.link).dropNext ++ [s.arg.path] }) := by
  show execInjectDrop s = _
  simp [execInjectDrop, hl]

theorem exec_recalibrationStart_memLink {s : State} (h1 : 200 ≤ s.arg.link) (h2 : s.arg.link < 264) : exec .recalibrationStart s = .next s := by
  show execRecalibrationStart s = _
  simp [execRecalibrationStart, h1, Config.memLinks, h2]

/-- A link that does not exist: its events name no unit (notes/assumptions/10.md). -/
theorem exec_pathRecalibrated_noLink {s : State} {link path : Nat} (hl : linkExists link = false) :
    exec (.pathRecalibrated link path) s = .fault .noSuchUnit := by
  show execPathRecalibrated link path s = _
  simp [execPathRecalibrated, hl]

theorem exec_recalibrationStart_noLink {s : State} (hl : linkExists s.arg.link = false) (h : s.arg.link < 200 ∨ 264 ≤ s.arg.link) :
    exec .recalibrationStart s = .fault .noSuchUnit := by
  have hmem : (200 ≤ s.arg.link && s.arg.link < 200 + Config.memLinks) = false := by
    rw [← Bool.decide_and, decide_eq_false_iff_not, Config.memLinks]; omega
  show execRecalibrationStart s = _
  simp [execRecalibrationStart, hl, hmem]

theorem exec_injectDrop_noLink {s : State} (hl : linkExists s.arg.link = false) : exec .injectDrop s = .fault .noSuchUnit := by
  show execInjectDrop s = _
  simp [execInjectDrop, hl]

theorem exec_moduleReplace_mapped {s : State} (hlt : s.arg.link < 64) (hflag : s.arg.flag = true) (hmap : s.linkMapped s.arg.link = true) :
    exec .moduleReplace s = .next s := by
  show execModuleReplace s = _
  simp [execModuleReplace, Config.memLinks, Nat.not_le.mpr hlt, hflag, hmap]

theorem exec_moduleReplace {s : State} (hlt : s.arg.link < 64) (h : s.arg.flag = false ∨ s.linkMapped s.arg.link = false) :
    ∃ t : State, exec .moduleReplace s = .next t ∧ (s.arg.link ∈ t.memLinksOut ↔ s.arg.flag = true) ∧
      ∀ n, n ≠ s.arg.link → (n ∈ t.memLinksOut ↔ n ∈ s.memLinksOut) := by
  have hgo : (s.arg.flag && s.linkMapped s.arg.link) = false := Bool.and_eq_false_iff.mpr h
  let rest := s.memLinksOut.filter (· != s.arg.link)
  refine ⟨{ s with memLinksOut := if s.arg.flag then rest ++ [s.arg.link] else rest }, ?_, ?_, ?_⟩
  · show execModuleReplace s = _
    simp only [execModuleReplace, Config.memLinks, Nat.not_le.mpr hlt, hgo, Bool.false_eq_true, if_false]
    rfl
  · cases hf : s.arg.flag <;> simp [rest]
  · intro n hn
    cases hf : s.arg.flag <;> simp [rest, hn]

/-- Settles O48: the fragments, the spool, then the paths of the links, each from its own lemma. -/
theorem messagesCrossTheirLinks : Obligations.MessagesCrossTheirLinks := by
  unfold Obligations.MessagesCrossTheirLinks
  refine ⟨fun id k m index attempt tkind data => mkFragment_reads_back, fun f => good_fragment, ?_, ?_, ?_⟩
  · intro s src dst path f hr hrun hmasks key s1 l late old new s2
    have hkept := fun hg hlate => exec_fragmentReceive_kept hr hrun hmasks (path := path) (f := f) (s1 := s1) rfl hg hlate (e := new) rfl
    refine ⟨exec_fragmentReceive_erasure hr hrun hmasks, exec_fragmentReceive_late hr hrun hmasks rfl,
      fun hg hlate hlen => ?_, fun hg hlate hlen => ?_⟩
    · rw [hkept hg hlate, SpoolEntry.not_enough (.inr hlen)]
      rfl
    · have hk : 0 < f.k := by
        obtain ⟨-, -, hk, -⟩ := good_fragment hg
        revert hk; simp; omega
      have hne : new.frags ≠ [] := List.ne_nil_of_length_pos (hk.trans_le hlen)
      rw [hkept hg hlate, if_pos (new.enough_iff.mpr ⟨hne, hlen⟩)]
  · intro s src dst id attempt hr hrun key l acked ready
    refine ⟨fun e he hready => exec_decodeAck_ready hr hrun he hready, exec_decodeAck_not_ready hr hrun,
      fun m => exec_replayRequest hr attempt, fun e he hmsg hlost hfew => ?_⟩
    exact ⟨exec_spoolTimeout_again hr hrun he hmsg hlost hfew, exec_spoolTimeout_lost hr hrun he hmsg hlost hfew⟩
  · intro s link path l
    refine ⟨fun hl hp => ?_, ?_, exec_recalibrationStart_memLink, ?_, fun hl => ?_, linkExists_iff link, exec_moduleReplace_mapped,
      exec_moduleReplace⟩
    · exact ⟨l.restored path, rfl, fun _ _ => withPaths_paths .., rfl, fun _ _ hm => by
        have hpaths : (l.restored path).paths = _ := withPaths_paths l _
        rw [hpaths]
        exact ⟨withPaths_k .., withPaths_m _ _ hm⟩, exec_pathRecalibrated hl hp⟩
    · rintro hl rfl rfl w l1
      have hl1 : s.ratedLink = l1 := by
        simp only [State.ratedLink, LinkSt.writeRate, l1, l, w]
        cases s.arg.flag <;> simp
      rw [exec_recalibrationStart hl, hl1]
      refine ⟨fun hp hk => ⟨l1.without s.arg.path, rfl, without_paths .., without_k .., ?_⟩, fun h => ?_⟩
      · rw [if_pos ⟨hp, hk⟩]
      · rw [if_neg fun h' => h.elim (absurd h'.1) (Nat.not_le.mpr h'.2)]
    · rintro hl rfl rfl
      exact exec_injectDrop hl
    · refine ⟨exec_pathRecalibrated_noLink hl, ?_⟩
      rintro rfl
      exact ⟨exec_recalibrationStart_noLink hl, exec_injectDrop_noLink hl⟩

end Sys2Proof.Machine
end

section
/-!
PROOFS. Tokens on their way (O40).
-/

namespace Sys2Proof.Machine

/-- A box that an abort mark of an unlisted paddock passes records nothing: there is no record to hold it. -/
theorem markBox_markedAt_of_absent (s : State) (pad site : Nat) (h : amGet? s.pads pad = none) :
    ((s.markBox pad site).getPad pad).markedAt = [] := by
  simp [State.markBox, State.updPad, State.getPad, amGet, h]

/-- Refutes O40: its clause on a box that an abort mark has passed says of every paddock number that the paddock then lists the site, and a
number that no paddock has, as every number in the machine after reset, has no list of sites. -/
theorem not_tokensReachTheirPlaces : ¬ Obligations.TokensReachTheirPlaces := by
  unfold Obligations.TokensReachTheirPlaces
  intro h
  obtain ⟨-, -, -, -, -, -, -, -, -, -, hbox, -⟩ := h
  have hmark := (hbox State.reset 0 0).1
  rw [markBox_markedAt_of_absent _ _ _ rfl] at hmark
  exact absurd hmark (by decide)

end Sys2Proof.Machine
end

section
/-!
PROOFS. Seeds, sinks, commits and node stores (O41).
-/

namespace Sys2Proof.Machine

/-! ### What a read with checks changes (R372, R388) -/

/-- t is s but for what checks may change: reports under way, marks of lines, injections that they spend, the count of corrected errors. -/
def State.ReadOf (s t : State) : Prop :=
  { s with events := t.events, marks := t.marks, masks := t.masks, corrected := t.corrected } = t

namespace State.ReadOf

theorem refl (s : State) : s.ReadOf s := rfl

theorem trans {s t u : State} (hst : s.ReadOf t) (htu : t.ReadOf u) : s.ReadOf u := by
  unfold State.ReadOf at htu
  rw [← hst] at htu
  exact htu

theorem pads {s t : State} (h : s.ReadOf t) : t.pads = s.pads := (congrArg State.pads h).symm
theorem units {s t : State} (h : s.ReadOf t) : t.units = s.units := (congrArg State.units h).symm

/-- A run of steps over a list, each of which only checks, only checks. -/
theorem foldl {α β : Type} (g : β → State) (f : β → α → β) (hf : ∀ b x, (g b).ReadOf (g (f b x))) (l : List α) (b : β) :
    (g b).ReadOf (g (l.foldl f b)) := by
  induction l generalizing b with
  | nil => exact refl _
  | cons x l ih => exact (hf b x).trans (ih (f b x))

end State.ReadOf

theorem takeMask_readOf (s : State) (unit bit : Nat) : s.ReadOf (s.takeMask unit bit).1 := by
  unfold State.takeMask
  dsimp only
  split <;> rfl

theorem report_readOf (s : State) (r : ErrRep) : s.ReadOf (s.report r) := rfl

theorem spendLine_readOf (s : State) (sp : Space) (line : Nat) : s.ReadOf (s.spendLine sp line) := by
  unfold State.spendLine
  extract_lets fail
  have hfail (s : State) (unit bit cause site : Nat) : s.ReadOf (fail s unit bit cause site) := by
    have h := takeMask_readOf s unit bit
    simp only [fail]
    generalize s.takeMask unit bit = r at h ⊢
    obtain ⟨t, _ | _⟩ := r
    · exact h
    · exact h.trans (report_readOf ..)
  cases sp with
  | s => exact hfail ..
  | m => exact (hfail ..).trans (hfail ..)
  | l | f | h | c => exact .refl s

theorem spendMasks_readOf (s : State) (sp : Space) (a n : Nat) : s.ReadOf (s.spendMasks sp a n) := by
  unfold State.spendMasks
  split
  · exact .refl s
  · exact .foldl id _ (fun s l => spendLine_readOf s sp l) _ s

theorem checkLine_readOf (s : State) (sp : Space) (line : Nat) : s.ReadOf (s.checkLine sp line).1 := by
  unfold State.checkLine
  split <;> rfl

theorem checkedRead_readOf (s : State) (sp : Space) (a n : Nat) : s.ReadOf (s.checkedRead sp a n).1 := by
  unfold State.checkedRead
  dsimp only
  refine (spendMasks_readOf s sp a n).trans (State.ReadOf.foldl Prod.fst _ ?_ _ (s.spendMasks sp a n, none))
  exact fun b l => checkLine_readOf b.1 sp l

theorem walkFrom_readOf (ls : List WalkLevel) (s : State) (table va : Nat) : s.ReadOf (walkFrom ls s table va).1 := by
  induction ls generalizing s table with
  | nil => exact .refl s
  | cons l ls ih =>
    have h := checkedRead_readOf s .m (table + 8 * (va / 2 ^ l.shift % 2 ^ l.bits)) 8
    unfold walkFrom
    dsimp only
    generalize s.checkedRead .m (table + 8 * (va / 2 ^ l.shift % 2 ^ l.bits)) 8 = r at h ⊢
    cases r.2.2 with
    | some c => exact h
    | none =>
      dsimp only
      split
      · exact h
      · split
        · exact h
        · split
          · split <;> exact h
          · split
            · exact h
            · exact h.trans (ih ..)

theorem walk_readOf (s : State) (ctx va : Nat) : s.ReadOf (s.walk ctx va).1 := walkFrom_readOf ..

theorem translate_readOf (s : State) (ctx va : Nat) (write described : Bool) : s.ReadOf (s.translate ctx va write described).1 := by
  have h := walk_readOf s ctx va
  unfold State.translate
  generalize s.walk ctx va = r at h ⊢
  obtain ⟨t, r⟩ := r
  cases r with
  | leaf pa en at' size =>
    dsimp only
    split
    · exact h
    · split
      · exact h
      · split <;> exact h
  | notValid | malformed | lineError => exact h

theorem rangeM_readOf (ctx : Nat) (write : Bool) (ps : List (Nat × Nat)) (s : State) (acc : List Part) :
    s.ReadOf (State.rangeM ctx write ps s acc).1 := by
  induction ps generalizing s acc with
  | nil => exact .refl s
  | cons p ps ih =>
    have h := translate_readOf s ctx p.1 write false
    unfold State.rangeM
    generalize s.translate ctx p.1 write false = r at h ⊢
    obtain ⟨t, _ | _ | _ | _⟩ := r
    · exact h.trans (ih ..)
    all_goals exact h

theorem range_readOf (s : State) (ctx : Nat) (host write : Bool) (base off n : Nat) : s.ReadOf (s.range ctx host write base off n).1 := by
  unfold State.range
  split
  · exact .refl s
  · exact rangeM_readOf ..

theorem readParts_readOf (s : State) (l : List Part) : s.ReadOf (s.readParts l).1 := by
  unfold State.readParts
  refine State.ReadOf.foldl Prod.fst _ ?_ l (s, [], none)
  exact fun b p => checkedRead_readOf b.1 p.sp p.addr p.len

/-! ### Paddocks that are listed -/

/-- A paddock that is past its loading is listed. -/
theorem getPad_listed {s : State} {pad : Nat} (h : (s.getPad pad).phase = .running) : amGet? s.pads pad = some (s.getPad pad) := by
  unfold State.getPad amGet at h ⊢
  cases hx : amGet? s.pads pad with
  | none => simp [hx] at h
  | some p => rfl

theorem updPad_listed {s : State} {pad : Nat} {p : Pad} (h : amGet? s.pads pad = some p) (f : Pad → Pad) :
    s.updPad pad f = s.setPad pad (f (s.getPad pad)) := by
  simp [State.updPad, State.getPad, amGet, h]

theorem updPad_listed_get {s : State} {pad : Nat} {p : Pad} (h : amGet? s.pads pad = some p) (f : Pad → Pad) :
    (s.updPad pad f).getPad pad = f (s.getPad pad) := by
  rw [updPad_listed h, State.setPad_getPad_same]

/-- An update of a listed paddock leaves it listed. -/
theorem updPad_stays_listed {s : State} {pad : Nat} {p : Pad} (h : amGet? s.pads pad = some p) (f : Pad → Pad) :
    amGet? (s.updPad pad f).pads pad = some (f (s.getPad pad)) := by
  rw [updPad_listed h]
  exact amGet?_amPut_same ..

/-! ### The SC order (R224) -/

theorem mem_scInsert {α : Type} {pos : α → Nat} {x a : α} {l : List α} : a ∈ scInsert pos x l ↔ a = x ∨ a ∈ l := by
  induction l with
  | nil => simp [scInsert]
  | cons y ys ih =>
    unfold scInsert
    split
    · simp
    · simp only [List.mem_cons, ih]
      exact or_left_comm

theorem scInsert_sorted {α : Type} {pos : α → Nat} (x : α) {l : List α} (h : l.Pairwise fun a b => pos a ≤ pos b) :
    (scInsert pos x l).Pairwise fun a b => pos a ≤ pos b := by
  induction l with
  | nil => simp [scInsert]
  | cons y ys ih =>
    obtain ⟨hy, hys⟩ := List.pairwise_cons.mp h
    unfold scInsert
    split
    · rename_i hlt
      refine List.pairwise_cons.mpr ⟨fun a ha => ?_, h⟩
      rcases List.mem_cons.mp ha with rfl | ha
      · exact hlt.le
      · exact hlt.le.trans (hy a ha)
    · rename_i hle
      refine List.pairwise_cons.mpr ⟨fun a ha => ?_, ih hys⟩
      rcases mem_scInsert.mp ha with rfl | ha
      · exact Nat.not_lt.mp hle
      · exact hy a ha

/-- Insertion one by one keeps what is sorted and collects every member. -/
theorem scSorted_spec {α : Type} (pos : α → Nat) (l : List α) :
    (scSorted pos l).Pairwise (fun a b => pos a ≤ pos b) ∧ ∀ a, a ∈ scSorted pos l ↔ a ∈ l := by
  have h (acc : List α) (hacc : acc.Pairwise fun a b => pos a ≤ pos b) :
      (l.foldl (fun acc x => scInsert pos x acc) acc).Pairwise (fun a b => pos a ≤ pos b) ∧
        ∀ a, a ∈ l.foldl (fun acc x => scInsert pos x acc) acc ↔ a ∈ acc ∨ a ∈ l := by
    induction l generalizing acc with
    | nil => exact ⟨hacc, by simp⟩
    | cons x l ih =>
      obtain ⟨hsorted, hmem⟩ := ih (scInsert pos x acc) (scInsert_sorted x hacc)
      refine ⟨hsorted, fun a => ?_⟩
      rw [List.foldl_cons, hmem, mem_scInsert, List.mem_cons, or_assoc]
      exact or_left_comm
  obtain ⟨hsorted, hmem⟩ := h [] List.Pairwise.nil
  exact ⟨hsorted, fun a => (hmem a).trans (by simp)⟩

/-- The stores of a paddock that leave leave in the SC order. -/
theorem leaving_sorted (s : State) (pad c : Nat) : (s.leaving pad c).Pairwise fun a b => a.2.scPos ≤ b.2.scPos :=
  (scSorted_spec (fun x : Nat × NodeStore => x.2.scPos) _).1

/-- Which stores of a paddock leave when the tested commit is c (R222, R241, R384). -/
theorem mem_leaving (s : State) (pad c key : Nat) (x : NodeStore) : (key, x) ∈ s.leaving pad c ↔ ∃ u, (key, u) ∈ s.units ∧ u.live = true ∧
    u.pad = pad ∧ x ∈ u.stores ∧ x.visible = true ∧ (s.getPad pad).gateAt x.commit ≤ c ∧
      waitsBehind (s.getPad pad) c (updSlots u.conf) u.stores x = false ∧ (x.scPos = 0 ∨ x.scPos < s.scEnd pad c) := by
  rw [State.leaving, (scSorted_spec _ _).2, List.mem_flatMap]
  simp only [storesDue, List.mem_map, List.mem_filter, Prod.mk.injEq, Bool.and_eq_true, Bool.or_eq_true, Bool.not_eq_true', beq_iff_eq,
    decide_eq_true_eq, List.isEmpty_eq_false_iff, Prod.exists]
  constructor
  · rintro ⟨k, u, ⟨hu, ⟨hlive, hpad⟩, -⟩, y, ⟨hy, ⟨⟨hvis, hgate⟩, hwait⟩, hsc⟩, rfl, rfl⟩
    exact ⟨u, hu, hlive, hpad, hy, hvis, hgate, hwait, hsc⟩
  · rintro ⟨u, hu, hlive, hpad, hx, hvis, hgate, hwait, hsc⟩
    exact ⟨key, u, ⟨hu, ⟨hlive, hpad⟩, List.ne_nil_of_mem hx⟩, x, ⟨hx, ⟨⟨hvis, hgate⟩, hwait⟩, hsc⟩, rfl, rfl⟩

/-! ### Commits (R88, R288, R384) -/

theorem allAligned_iff (p : Pad) : p.allAligned = true ↔ (∀ x ∈ p.sinks, p.commit < x.2.aligned) ∧
    (p.sinks ≠ [] ∨ (∃ x ∈ p.snaps, p.commit < x.commit) ∨ ∃ x ∈ p.snapActors, p.commit < x.commit) := by
  simp [Pad.allAligned, or_assoc]

/-- The jobs of a complete commit: of each sink that is not external the records up to it. -/
def Pad.commitJobs (p : Pad) : List (Nat × SinkConf × SinkSt × List Record) :=
  p.sinks.filterMap fun x => match p.conf.sinks[x.1]? with
    | some sc => if sc.ext then none else some (x.1, sc, x.2, (upTo (p.commit + 1) x.2.log).map (·.2))
    | none => none

/-- The jobs of a tested commit: of each sink the held records up to it. -/
def Pad.testedJobs (p : Pad) (c : Nat) : List (Nat × SinkConf × SinkSt × List Record) :=
  p.sinks.filterMap fun x => match p.conf.sinks[x.1]? with
    | some sc => some (x.1, sc, x.2, (upTo c x.2.held).map (·.2))
    | none => none

/-- The writes of translated logs, those of one sink after those of another: the records that p names. -/
def State.writeLogs (s : State) (pad : Nat) (p : Record × List Part → Bool) (ws : List (Nat × SinkConf × List (Record × List Part))) : State :=
  ws.foldl (fun u w => (w.2.2.filter p).foldl (fun u x => u.writeRecord pad w.2.1 x.1 x.2) u) s

/-- The records of sink k that a complete commit c holds for in-field test: those on external pages, and every one of an external sink. -/
def Pad.heldBack (p : Pad) (ws : List (Nat × SinkConf × List (Record × List Part))) (c k : Nat) : List (Nat × Record) :=
  match ws.find? fun w => w.1 == k with
  | some (_, _, l) => (l.filter fun x => x.2.any (·.ext)).map fun x => (c, x.1)
  | none => upTo c (amGet p.sinks k {} : SinkSt).log

theorem heldBack_eq (p : Pad) (ws : List (Nat × SinkConf × List (Record × List Part))) (c k : Nat) :
    p.heldBack ws c k = match ws.find? fun w => w.1 == k with
      | some w => (w.2.2.filter fun x => x.2.any (·.ext)).map fun x => (c, x.1)
      | none => upTo c (amGet p.sinks k {} : SinkSt).log := by
  unfold Pad.heldBack
  cases ws.find? fun w => w.1 == k <;> rfl

section
variable {s : State} {pad : Nat} (hrun : (s.getPad pad).stop = false)
include hrun

theorem exec_commitComplete_early (hphase : (s.getPad pad).phase = .running)
    (h : ¬ ((s.getPad pad).allAligned = true ∧ s.snapshotsHeld pad ((s.getPad pad).commit + 1) = true)) :
    exec (.commitComplete pad) s = .next s := by
  have hstay : ((s.getPad pad).phase != .running || !(s.getPad pad).allAligned || !s.snapshotsHeld pad ((s.getPad pad).commit + 1)) = true := by
    cases ha : (s.getPad pad).allAligned <;> simp_all
  show execCommitComplete pad s = _
  simp only [execCommitComplete, whileRunning_of_running _ _ hrun, hstay, if_true]

section
variable (hphase : (s.getPad pad).phase = .running) (hal : (s.getPad pad).allAligned = true)
  (hheld : s.snapshotsHeld pad ((s.getPad pad).commit + 1) = true)
include hphase hal hheld

/-- A complete commit whose snapshots are held does what the translation of its logs says. -/
theorem exec_commitComplete {T : State × Option (List (Nat × SinkConf × List (Record × List Part))) × PubRes}
    (hT : State.translateLogs (s.getPad pad) (s.getPad pad).commitJobs (s.pageCame pad 0) [] = T) :
    let p := s.getPad pad
    let c := p.commit + 1
    (∀ ws, T.2.1 = some ws →
      exec (.commitComplete pad) s = .next (((T.1.writeLogs pad (fun x => !x.2.any (·.ext)) ws).updPad pad fun q => { q with
      sinks := q.sinks.map fun x => (x.1, { x.2 with log := after c x.2.log, held := x.2.held ++ p.heldBack ws c x.1 }) }).commitDone pad c)) ∧
    (∀ va m f, T.2 = (none, .wait va m f) →
      exec (.commitComplete pad) s = .next ((T.1.awaitPage pad 0 va true m f).post (.commitComplete pad))) ∧
    ∀ f, T.2 = (none, .fault f) → exec (.commitComplete pad) s = .next (T.1.raise pad f) := by
  have hgo : ((s.getPad pad).phase != .running || !(s.getPad pad).allAligned || !s.snapshotsHeld pad ((s.getPad pad).commit + 1)) = false := by
    simp [hphase, hal, hheld]
  have hexec : exec (.commitComplete pad) s = execCommitComplete pad s := rfl
  simp only [hexec, execCommitComplete, whileRunning_of_running _ _ hrun, hgo, Bool.false_eq_true, if_false]
  generalize hT' : State.translateLogs (s.getPad pad) _ (s.pageCame pad 0) [] = T'
  obtain rfl : T = T' := hT.symm.trans hT'
  obtain ⟨s1, ws, r⟩ := T
  refine ⟨?_, ?_, ?_⟩
  · intro ws' h
    cases h
    rfl
  · rintro va m f h
    cases h
    rfl
  · rintro f h
    cases h
    rfl

end

/-- What leaves with a tested commit: first the records, then the held stores of nodes. -/
theorem exec_externalPublish (hphase : (s.getPad pad).phase = .running) {s1 : State}
    {ws : List (Nat × SinkConf × List (Record × List Part))} {r : PubRes}
    (hT : State.translateLogs (s.getPad pad) ((s.getPad pad).testedJobs (s.testedCommit (s.getPad pad))) (s.pageCame pad 1) [] = (s1, some ws, r)) :
    let c := s.testedCommit (s.getPad pad)
    let s2 := (ws.foldl (fun u w => w.2.2.foldl (fun u x => u.writeRecord pad w.2.1 x.1 x.2) u) s1).updPad pad fun p =>
      { p with tested := c, sinks := p.sinks.map fun x => (x.1, { x.2 with held := after c x.2.held }) }
    let l := s2.leaving pad c
    exec (.externalPublish pad) s = .next (((((l.map (·.1)).eraseDups).foldl (fun u key => (u.wake key).drainNode key)
      (l.foldl (fun u x => u.leaveStore x.1 x.2) s2)).updPad pad fun p => p.dropBelow c).checkDone pad) := by
  have hgo : ((s.getPad pad).phase != .running) = false := by simp [hphase]
  show execExternalPublish pad s = _
  simp only [execExternalPublish, whileRunning_of_running _ _ hrun, hgo, Bool.false_eq_true, if_false]
  generalize hT' : State.translateLogs (s.getPad pad) _ (s.pageCame pad 1) [] = T'
  obtain rfl : (s1, some ws, r) = T' := hT.symm.trans hT'
  rfl

end

/-! ### Seeds (R324) -/

/-- The token of a record: what its bytes say, and how the read of them ended. -/
def seedToken (sc : SeedConf) (bytes : List Byte) (bad : Option Nat) (last : Bool) : Token :=
  let t := asSeedToken sc (recToken bytes)
  let t := if last && !t.isClose then { t with close := true } else t
  match bad with
  | some c => { t with err := true, cause := c }
  | none => t

/-- A failed line of a seed's record is reported. -/
def State.reportParts (s : State) (pad : Nat) (l : List Part) : Option Nat → State
  | some x => s.report { cause := x, pad := pad, site := partsSite l }
  | none => s

theorem reportParts_readOf (s : State) (pad : Nat) (l : List Part) (c : Option Nat) : s.ReadOf (s.reportParts pad l c) := by
  cases c <;> rfl

theorem payload_of_record (r : List Byte) : (BitVec.ofNat 512 (recField r 0 64)).toNat = recField r 0 64 := by
  have hlen : 8 * ((r.drop 0).take 64).length ≤ 512 := by
    have := List.length_take_le 64 (r.drop 0)
    omega
  have hpow := Nat.pow_le_pow_right Nat.two_pos hlen
  rw [BitVec.toNat_ofNat, recField, Nat.mod_eq_of_lt ((ofBytes_lt _).trans_le hpow)]

theorem asSeedToken_recToken {r : List Byte} (sc : SeedConf) (h : recIsClose r = false) :
    let t := asSeedToken sc (recToken r)
    t.payload.toNat = recField r 0 64 ∧ t.lo = recField r 68 5 ∧ t.hi = recField r 73 5 ∧ t.tag = recField r 81 2 % 1024 ∧
      (sc.cls = none → t.kind = 0) ∧ t.isClose = false ∧ t.err = false := by
  have hpay := payload_of_record r
  unfold asSeedToken
  cases sc.cls with
  | none => simp [recToken, Token.sealed, h, hpay, Token.isClose]
  | some c => simp [recToken, Token.sealed, h, hpay, Token.isClose]

/-- A data record's token has the record's payload, span and tag, closes the stream when it is the last one, and carries the
cause of a failed read. -/
theorem seedToken_spec {r : List Byte} (sc : SeedConf) (bad : Option Nat) (last : Bool) (h : recIsClose r = false) :
    let t := seedToken sc r bad last
    t.payload.toNat = recField r 0 64 ∧ t.lo = recField r 68 5 ∧ t.hi = recField r 73 5 ∧ t.tag = recField r 81 2 % 1024 ∧
      (sc.cls = none → t.kind = 0) ∧ (last = true → t.close = true) ∧ t.err = bad.isSome ∧ ∀ x, bad = some x → t.cause = x := by
  obtain ⟨hpay, hlo, hhi, htag, hkind, hclose, herr⟩ := asSeedToken_recToken sc h
  unfold seedToken
  cases bad <;> cases last <;> simp_all

theorem seedRecord_badSpan {s : State} {pad : Nat} {p : Pad} {r : List Byte} (hpad : amGet? s.pads pad = some p) (k : Nat) (bad : Option Nat)
    (last : Bool) (h : recSpanOk r = false) :
    ∃ q : FaultRec, q.code = 2 ∧ s.seedRecord pad k r bad last = (s.updPad pad fun p => { p with
      seeds := amPut p.seeds k { (amGet p.seeds k {} : SeedSt) with closed := true } }).raise pad q := by
  rw [updPad_listed hpad]
  unfold State.seedRecord
  simp only [h, Bool.not_false, Bool.true_or, if_true]
  exact ⟨_, rfl, rfl⟩

theorem seedRecord_token {r : List Byte} (s : State) (pad k : Nat) (bad : Option Nat) (last : Bool) (hok : recSpanOk r = true)
    (hhi : recField r 73 5 ≤ 2 ^ 40 - 2) :
    let s1 := s.sourceSend pad k (seedToken ((s.getPad pad).conf.seed k) r bad last)
    s.seedRecord pad k r bad last = if (amGet (s1.getPad pad).seeds k {}).closed = true then s1 else s1.post (.seedTokenInject pad k) := by
  have hgo : (!recSpanOk r || (!recIsClose r && 2 ^ 40 - 2 < recField r 73 5 && recField r 73 5 != openHi)) = false := by
    simp [hok, show ¬ 1099511627774 < recField r 73 5 from Nat.not_lt.mpr hhi]
  unfold State.seedRecord
  simp only [hgo, Bool.false_eq_true, if_false]
  cases bad <;> rfl

section
variable {s : State} {pad k : Nat} (hrun : (s.getPad pad).stop = false) (hmay : (s.getPad pad).seedMay k = true)
include hmay

theorem listed_of_seedMay : amGet? s.pads pad = some (s.getPad pad) :=
  getPad_listed (by simp_all [Pad.seedMay])

/-- Reading a record's bytes leaves the paddock as it is but for the page that it waited for. -/
theorem seed_read_pads {s1 s2 : State} {l : List Part} {r : List Byte} {c : Option Nat} {ctx base off : Nat} {host : Bool}
    (hrange : (s.pageCame pad (seedWait k)).range ctx host false base off 96 = (s1, .parts l)) (hread : s1.readParts l = (s2, r, c)) :
    amGet? (s2.reportParts pad l c).pads pad =
      some { s.getPad pad with waits := amDel (s.getPad pad).waits (seedWait k) } := by
  have h1 : (s.pageCame pad (seedWait k)).ReadOf s1 := by simpa [hrange] using range_readOf (s.pageCame pad (seedWait k)) ctx host false base off 96
  have h2 : s1.ReadOf s2 := by simpa [hread] using readParts_readOf s1 l
  rw [((h1.trans h2).trans (reportParts_readOf s2 pad l c)).pads]
  exact updPad_stays_listed (listed_of_seedMay hmay) _

include hrun

theorem exec_seedTokenInject_short (h : (amGet (s.getPad pad).seeds k {}).extent < 96 * ((amGet (s.getPad pad).seeds k {}).next + 1)) :
    exec (.seedTokenInject pad k) s = .next (s.closeSeed pad k) := by
  show execSeedTokenInject pad k s = _
  simp [execSeedTokenInject, whileRunning_of_running _ _ hrun, hmay, h]

/-- A record whose bytes are there becomes its token. -/
theorem exec_seedTokenInject_record {s1 s2 : State} {l : List Part} {r : List Byte} {c : Option Nat}
    (h : 96 * ((amGet (s.getPad pad).seeds k {}).next + 1) ≤ (amGet (s.getPad pad).seeds k {}).extent)
    (hrange : (s.pageCame pad (seedWait k)).range (s.getPad pad).ctx (amGet (s.getPad pad).seeds k {}).host false
      (amGet (s.getPad pad).seeds k {}).base (96 * (amGet (s.getPad pad).seeds k {}).next) 96 = (s1, .parts l))
    (hread : s1.readParts l = (s2, r, c)) :
    exec (.seedTokenInject pad k) s = .next ((s2.reportParts pad l c).seedRecord pad k r c
      (decide ((amGet (s.getPad pad).seeds k {}).extent < 96 * ((amGet (s.getPad pad).seeds k {}).next + 2)))) := by
  show execSeedTokenInject pad k s = _
  simp only [execSeedTokenInject, whileRunning_of_running _ _ hrun, hmay, Bool.not_true, Bool.false_eq_true, if_false,
    Nat.not_lt.mpr h, hrange, hread]
  cases c <;> rfl

end

/-- A seed's record with a wrong span faults and closes the seed; a data record within its bounds enters as its token. -/
theorem seedRecord_enters {s s1 s2 : State} {pad k : Nat} {l : List Part} {r : List Byte} {c : Option Nat}
    (hrun : (s.getPad pad).stop = false) (hmay : (s.getPad pad).seedMay k = true)
    (h : 96 * ((amGet (s.getPad pad).seeds k {}).next + 1) ≤ (amGet (s.getPad pad).seeds k {}).extent)
    (hrange : (s.pageCame pad (seedWait k)).range (s.getPad pad).ctx (amGet (s.getPad pad).seeds k {}).host false
      (amGet (s.getPad pad).seeds k {}).base (96 * (amGet (s.getPad pad).seeds k {}).next) 96 = (s1, .parts l))
    (hread : s1.readParts l = (s2, r, c)) :
    let s3 := s2.reportParts pad l c
    (recSpanOk r = false → ∃ q : FaultRec, q.code = 2 ∧ exec (.seedTokenInject pad k) s = .next ((s3.updPad pad fun p => { p with
      seeds := amPut p.seeds k { (amGet p.seeds k {} : SeedSt) with closed := true } }).raise pad q)) ∧
    (recSpanOk r = true → recIsClose r = false → recField r 73 5 ≤ 2 ^ 40 - 2 →
      ∃ t : Token, t.payload.toNat = recField r 0 64 ∧ t.lo = recField r 68 5 ∧ t.hi = recField r 73 5 ∧
        t.tag = recField r 81 2 % 1024 ∧ (((s.getPad pad).conf.seed k).cls = none → t.kind = 0) ∧
        ((amGet (s.getPad pad).seeds k {}).extent < 96 * ((amGet (s.getPad pad).seeds k {}).next + 2) → t.close = true) ∧
        t.err = c.isSome ∧ (∀ x, c = some x → t.cause = x) ∧
        let s4 := s3.sourceSend pad k t
        exec (.seedTokenInject pad k) s = .next (if (amGet (s4.getPad pad).seeds k {}).closed = true then s4
          else s4.post (.seedTokenInject pad k))) := by
  have hexec := exec_seedTokenInject_record hrun hmay h hrange hread
  have hlisted := seed_read_pads hmay hrange hread
  have hseed : ((s2.reportParts pad l c).getPad pad).conf.seed k = (s.getPad pad).conf.seed k := by
    simp only [State.getPad, amGet, hlisted, Option.getD_some]
  refine ⟨fun hbad => ?_, fun hok hdata hhi => ?_⟩
  · obtain ⟨q, hq, hrec⟩ := seedRecord_badSpan hlisted k c _ hbad
    exact ⟨q, hq, hexec.trans (congrArg Host.Outcome.next hrec)⟩
  · obtain ⟨hpay, hlo, hhi', htag, hkind, hlast, herr, hcause⟩ := seedToken_spec ((s.getPad pad).conf.seed k) c
      (decide ((amGet (s.getPad pad).seeds k {}).extent < 96 * ((amGet (s.getPad pad).seeds k {}).next + 2))) hdata
    refine ⟨_, hpay, hlo, hhi', htag, hkind, fun h => hlast (decide_eq_true h), herr, hcause, ?_⟩
    rw [hexec, seedRecord_token _ pad k c _ hok hhi, hseed]

theorem updPad_congr {s : State} {pad : Nat} {f g : Pad → Pad} (h : f (s.getPad pad) = g (s.getPad pad)) : s.updPad pad f = s.updPad pad g := by
  unfold State.updPad
  cases hp : amGet? s.pads pad with
  | none => rfl
  | some p => simp_all [State.getPad, amGet]

/-! ### Sinks (R88, R376) -/

section
variable {s : State} {pad k : Nat} {t : Token} {c : SinkConf} (hrun : (s.getPad pad).stop = false) (hphase : (s.getPad pad).phase = .running)
  (hc : (s.getPad pad).conf.sinks[k]? = some c) (habort : t.abort = false) (hctx : t.ctx = (s.getPad pad).ctx)
include hrun hphase hc habort hctx

theorem exec_sinkRecord_commit (h : t.isCommit = true) :
    exec (.sinkRecord pad k t) s = .next ((s.updPad pad fun p => { p with
      sinks := amPut p.sinks k { (amGet (s.getPad pad).sinks k {} : SinkSt) with
        aligned := (amGet (s.getPad pad).sinks k {}).aligned + 1 } }).askCommit pad) := by
  show execSinkRecord pad k t s = _
  simp [execSinkRecord, whileRunning_of_running _ _ hrun, hc, habort, hphase, hctx, h]

section
variable (hdata : t.isData = true) (hclose : t.close = false)
include hdata hclose

theorem exec_sinkRecord_error (herr : t.err = true) :
    exec (.sinkRecord pad k t) s =
      .next ((s.updPad pad fun p => { p with sinks := amPut p.sinks k (amGet (s.getPad pad).sinks k {}) }).sinkError pad c t) := by
  obtain ⟨hnet, hkind⟩ : t.net ≠ .control ∧ t.kind = 0 := by simpa [Token.isData] using hdata
  show execSinkRecord pad k t s = _
  simp [execSinkRecord, whileRunning_of_running _ _ hrun, hc, habort, hphase, hctx, Token.isCommit, Token.isClose, hnet, hkind, hclose, herr]

/-- A data token's record stands in the log of the next commit, an exception in the log ring; one beyond the sink's endpoint range is a fault. -/
theorem exec_sinkRecord_data (herr : t.err = false) :
    let st : SinkSt := amGet (s.getPad pad).sinks k {}
    let s1 := s.updPad pad fun p => { p with sinks := amPut p.sinks k st }
    let s2 := if t.exc = true then s1.logAppend (s.getPad pad).ctx (sinkEntry c 2 0 (cellSite c.cell) t) else s1
    exec (.sinkRecord pad k t) s = .next (if st.extent < 96 * (t.seq + 1) then s2.raise pad (sinkFault (s.getPad pad) c 7 t 0)
      else s2.updPad pad fun p => { p with
        sinks := amUpd p.sinks k {} fun st => { st with log := st.log ++ [(st.aligned + 1, ⟨t.seq, t⟩)] } }) := by
  intro st s1 s2
  obtain ⟨hnet, hkind⟩ : t.net ≠ .control ∧ t.kind = 0 := by simpa [Token.isData] using hdata
  show execSinkRecord pad k t s = _
  simp [execSinkRecord, whileRunning_of_running _ _ hrun, hc, habort, hphase, hctx, Token.isCommit, Token.isClose, Token.isFault, hnet, hkind,
    hclose, herr]
  have hs1 : amGet (s1.getPad pad).sinks k {} = st := by simp [s1, updPad_listed_get (getPad_listed hphase)]
  have hs2 : amGet (s2.getPad pad).sinks k {} = st := by
    simp only [s2]
    split <;> exact hs1
  split
  · rfl
  · exact congrArg Host.Outcome.next (updPad_congr (s := s2) (by simp only [amUpd, hs2, st]))

end

end

/-! ### Held stores, the wave, node stores and the SC token (R33, R222, R224, R241) -/

theorem leaveStore_no_updates (s : State) (key : Nat) {x : NodeStore} (h : x.ups = []) :
    s.leaveStore key x = (s.putWrites x.held).updU key fun u =>
      { u with stores := u.stores.map fun z => if z == x then { x with held := [] } else z } := by
  obtain ⟨⟩ := x
  subst h
  simp [State.leaveStore]

theorem leaveStore_update (s : State) (key : Nat) {x : NodeStore} {h : HeldUpd} (hheld : x.held = []) (hups : x.ups = [h]) :
    let y := updEl h.upd (ofBytes (s.readMem h.sp h.addr 4)) h.v
    s.leaveStore key x = (s.storeMem h.sp h.addr (toBytes 4 y.bits)).updU key fun u =>
      { u with stores := u.stores.map fun z => if z == x then { x with
          ups := [], completion := { x.completion with exc := x.completion.exc || y.exc, sat := x.completion.sat || y.sat } }
        else z } := by
  obtain ⟨⟩ := x
  subst hheld hups
  simp [State.leaveStore, State.putUpd, State.putWrites]

/-- The wave has reached a cell's unit. -/
def State.reachUnit (s : State) (pad i n : Nat) : State :=
  ((s.updU (Loc.key (.cell i n)) fun x => { x with waved := true }).updPad pad fun p => { p with waveLeft := p.waveLeft.erase (.cell i n) }).post
    (.handlerSelect i)

theorem reachUnit_waveLeft {s : State} {pad i n : Nat} (h : (s.getPad pad).waveLeft.contains (.cell i n) = true) :
    ((s.reachUnit pad i n).getPad pad).waveLeft = (s.getPad pad).waveLeft.erase (.cell i n) := by
  have hpad : amGet? (s.updU (Loc.key (.cell i n)) fun x => { x with waved := true }).pads pad = some (s.getPad pad) := by
    unfold State.getPad amGet at h ⊢
    rw [State.updU_pads]
    cases hx : amGet? s.pads pad with
    | none => simp [hx] at h
    | some p => rfl
  exact congrArg Pad.waveLeft (updPad_listed_get hpad fun p => { p with waveLeft := p.waveLeft.erase (.cell i n) })

/-- The wave reaches a cell's unit; the last unit of a paddock that loads starts its seeds. -/
theorem exec_configCompleteWave {s : State} {pad i n : Nat} (h : (s.getPad pad).waveLeft.contains (.cell i n) = true) :
    exec (.configCompleteWave pad (.cell i n)) s = if ((s.getPad pad).waveLeft.erase (.cell i n)).isEmpty && (s.getPad pad).phase == .loading then
      .next ((((s.reachUnit pad i n).updPad pad fun p => { p with phase := .running }).startSeeds pad).checkDone pad)
      else .next (s.reachUnit pad i n) := by
  have hleft := reachUnit_waveLeft h
  unfold State.reachUnit at hleft ⊢
  show execConfigCompleteWave pad (.cell i n) s = _
  simp only [execConfigCompleteWave, h, Bool.not_true, Bool.false_eq_true, if_false, hleft]

theorem exec_scRingToken {s : State} {pad node : Nat} (hrun : (s.getPad pad).stop = false) (hphase : (s.getPad pad).phase = .running)
    (hring : nthD (s.getPad pad).conf.scRing (s.getPad pad).ringPos node = node) :
    let key := Loc.key (.node node)
    let s1 := (s.updU key fun u => { u with scBudget := 8 }).wake key
    exec (.scRingToken pad node) s = .next (if (s1.ready.any fun r => r.1 == Loc.node node && (scSlots (s1.getU key).conf).contains r.2.1) = true
      then s1 else (s1.updU key fun u => { u with scBudget := 0 }).passScToken pad) := by
  show execScRingToken pad node s = _
  simp only [execScRingToken, whileRunning_of_running _ _ hrun, hphase, hring, bne_self_eq_false, Bool.or_self, Bool.false_eq_true, if_false]
  split <;> rfl

theorem exec_nodeStoreVisible {s : State} {node slot : Nat} {x : NodeStore} (hrun : (s.getPad (s.getU (Loc.key (.node node))).pad).stop = false)
    (hx : ((s.getU (Loc.key (.node node))).stores.find? fun y => y.slot == slot && !y.visible) = some x) :
    let key := Loc.key (.node node)
    exec (.nodeStoreVisible node slot) s =
      .next ((((s.showStore key x).drainNode key).publishDue (s.getU key).pad).checkDone (s.getU key).pad) := by
  show execNodeStoreVisible node slot s = _
  simp only [execNodeStoreVisible, whileRunning_of_running _ _ hrun, hx]

theorem publishDue_due {s : State} {pad : Nat} (h : ∃ z ∈ s.leaving pad (s.getPad pad).tested, z.2.gatedPart = true) :
    s.publishDue pad = s.post (.externalPublish pad) :=
  if_pos (List.any_eq_true.mpr h)

theorem publishDue_not_due {s : State} {pad : Nat} (h : ¬ ∃ z ∈ s.leaving pad (s.getPad pad).tested, z.2.gatedPart = true) :
    s.publishDue pad = s :=
  if_neg fun hany => h (List.any_eq_true.mp hany)

theorem showStore_eq (s : State) (key : Nat) (x : NodeStore) :
    let behind := heldBefore (s.getU key).stores x
    s.showStore key x = (if behind = true then s else s.putWrites x.writes).updU key fun u => { u with stores := u.stores.map fun z =>
      if z == x then { x with writes := [], held := (if behind = true then x.writes else []) ++ x.held, visible := true } else z } := rfl

/-- Settles O41: each clause is one of the equations above. -/
theorem seedsSinksAndCommits : Obligations.SeedsSinksAndCommits := by
  unfold Obligations.SeedsSinksAndCommits
  refine ⟨fun s pad k hrun hmay => ⟨exec_seedTokenInject_short hrun hmay, fun hlen s1 l s2 r c hrange hread => ?_⟩,
    fun s pad k t c hrun hphase hc habort hctx =>
      ⟨exec_sinkRecord_commit hrun hphase hc habort hctx, fun hdata herr hclose => ?_,
        fun hdata herr hclose => exec_sinkRecord_error hrun hphase hc habort hctx hdata hclose herr⟩,
    fun s pad hrun hphase => ⟨⟨fun h => ?_, fun hal hheld => ?_⟩, fun s1 ws r hT =>
      ⟨fun key x => mem_leaving _ pad _ key x, leaving_sorted _ pad _, exec_externalPublish hrun hphase hT⟩⟩,
    fun s key x => ⟨leaveStore_no_updates s key, fun h => leaveStore_update s key⟩,
    fun s pad i n h => ⟨fun hleft => ?_, fun hleft hphase => ?_⟩,
    fun s node slot x hrun hx => ⟨fun hdue => ?_, fun hdue => ?_⟩,
    fun s pad node hrun hphase hring => exec_scRingToken hrun hphase hring⟩
  · have h := seedRecord_enters hrun hmay hlen hrange hread
    cases c <;> exact h
  · have hexec := exec_sinkRecord_data hrun hphase hc habort hctx hdata hclose herr
    refine ⟨fun hshort hexc => ⟨sinkFault (s.getPad pad) c 7 t 0, rfl, rfl, rfl, ?_⟩, fun hlen => ?_⟩
    · exact hexec.trans (by simp only [hshort, hexc, if_true, Bool.false_eq_true, if_false])
    · exact hexec.trans (congrArg Host.Outcome.next (if_neg (Nat.not_lt.mpr hlen)))
  · exact exec_commitComplete_early hrun hphase fun ⟨hal, hheld⟩ => h ⟨(allAligned_iff _).mp hal, hheld⟩
  · have hal := (allAligned_iff _).mpr hal
    refine ⟨fun s1 ws r hT => ?_, fun s1 va m f hT => ?_, fun s1 f hT => ?_⟩
    · rw [(exec_commitComplete hrun hphase hal hheld hT).1 ws rfl]
      simp only [heldBack_eq]
      rfl
    · exact (exec_commitComplete hrun hphase hal hheld hT).2.1 va m f rfl
    · exact (exec_commitComplete hrun hphase hal hheld hT).2.2 f rfl
  · rw [exec_configCompleteWave h, if_neg (by simp [hleft])]
    rfl
  · rw [exec_configCompleteWave h, if_pos (by simp [hleft, hphase])]
    rfl
  · rw [← showStore_eq] at hdue ⊢
    rw [exec_nodeStoreVisible hrun hx, publishDue_not_due hdue]
  · rw [← showStore_eq] at hdue ⊢
    rw [exec_nodeStoreVisible hrun hx, publishDue_due hdue]

end Sys2Proof.Machine
end

section
/-!
PROOFS. The service processor and the board's management controller (O49).
-/

namespace Sys2Proof.Machine

/-! ### Marks and stores of a line (R372) -/

theorem markOf_setMark_same (s : State) (sp : Space) (line : Nat) (k : LineMark) : (s.setMark sp line k).markOf sp line = some k := by
  simp [State.markOf, State.setMark]

theorem markOf_clearMark_same (s : State) (sp : Space) (line : Nat) : (s.clearMark sp line).markOf sp line = none := by
  simp only [State.markOf, State.clearMark, Option.map_eq_none_iff, List.find?_eq_none, List.mem_filter]
  exact fun m hm => by simpa [imp_iff_not_or] using hm.2

/-- A store of a whole line clears the line's mark. -/
theorem markOf_storeMem_line (s : State) (sp : Space) (line : Nat) {bs : List Byte} (h : bs.length = 64) :
    (s.storeMem sp (64 * line) bs).markOf sp line = none := by
  have hlines : linesOf (64 * line) 64 = [line] := by
    rw [linesOf, show (64 * line + 64 - 1) / 64 + 1 - 64 * line / 64 = 1 by omega, show 64 * line / 64 = line by omega]
    simp
  have hw (t : State) : (t.writeMem sp (64 * line) bs).markOf sp line = t.markOf sp line := by cases sp <;> rfl
  unfold State.storeMem
  dsimp only
  rw [hw, h, hlines]
  simpa using markOf_clearMark_same s sp line

theorem markOf_report (s : State) (r : ErrRep) (sp : Space) (line : Nat) : (s.report r).markOf sp line = s.markOf sp line := rfl

theorem readMem_report (s : State) (r : ErrRep) (sp : Space) (a n : Nat) : (s.report r).readMem sp a n = s.readMem sp a n := by
  cases sp <;> rfl

theorem Memory.read_write_same (m : Memory) (a : Nat) (bs : List Byte) : (m.write a bs).read a bs.length = bs := by
  refine List.ext_getElem? fun i => ?_
  by_cases hi : i < bs.length
  · rw [Memory.read_getElem _ _ _ _ hi, Memory.get_write, if_pos (by omega)]
    simp [hi]
  · rw [List.getElem?_eq_none (by rw [Memory.read_length]; omega), List.getElem?_eq_none (by omega)]

theorem readMem_storeMem_line (s : State) (sp : Space) (a : Nat) {bs : List Byte} (h : bs.length = 64) :
    (s.storeMem sp a bs).readMem sp a 64 = bs := by
  rw [State.readMem, State.storeMem_mem, if_pos rfl, ← h]
  exact Memory.read_write_same ..

theorem poisonBlock_length : poisonBlock.length = 64 := by
  simp [poisonBlock, toBytes_length, zeroBytes]

/-! ### Described pages (R353) -/

theorem leavesFrom_congr {s t : State} (h : t.memM = s.memM) (ls : List WalkLevel) (table : Nat) : leavesFrom t ls table = leavesFrom s ls table := by
  have hread (a n : Nat) : t.readMem .m a n = s.readMem .m a n := congrArg (fun m => Memory.read m a n) h
  induction ls generalizing table with
  | nil => rfl
  | cons l ls ih => simp only [leavesFrom, hread, ih]

theorem isDescribed_congr {s t : State} (hmem : t.memM = s.memM) (hctxs : t.ctxs = s.ctxs) (pa : Nat) : t.isDescribed pa = s.isDescribed pa := by
  simp only [State.isDescribed, hctxs, leavesFrom_congr hmem]

/-! ### The scrubber (R372) -/

section
variable {s : State} (h : s.markOf .m (s.arg.addr / 64) = none)
include h

theorem exec_memoryScrub_clean (hf : s.arg.finding = .clean) : exec .memoryScrub s = .next s := by
  show execMemoryScrub s = _
  simp [execMemoryScrub, hf, h, checkLine_unmarked]

/-- A single-bit error is marked, corrected and counted. -/
theorem exec_memoryScrub_single (hf : s.arg.finding = .single) :
    exec .memoryScrub s = .next { (s.setMark .m (s.arg.addr / 64) .single).clearMark .m (s.arg.addr / 64) with corrected := s.corrected + 1 } := by
  show execMemoryScrub s = _
  simp [execMemoryScrub, hf, h, State.checkLine, markOf_setMark_same]

/-- An uncorrectable line is poisoned, one in a described page by a block of code 0xFE, and reported. -/
theorem exec_memoryScrub_uncorrectable (hf : s.arg.finding = .uncorrectable) :
    let line := s.arg.addr / 64
    let s1 := (s.setMark .m line .uncorrectable).setMark .m line .poison
    exec .memoryScrub s = .next ((if s.isDescribed (64 * line) = true then s1.storeMem .m (64 * line) poisonBlock else s1).report
      { cause := 6, pad := 0, site := some (frameSite (64 * line)) }) := by
  have hdesc : (s.setMark .m (s.arg.addr / 64) .uncorrectable).isDescribed (64 * (s.arg.addr / 64)) = s.isDescribed (64 * (s.arg.addr / 64)) :=
    isDescribed_congr rfl rfl _
  show execMemoryScrub s = _
  simp [execMemoryScrub, hf, h, State.checkLine, markOf_setMark_same, hdesc]

end

/-! ### Power-good and heat (R27, R404, R407) -/

/-- Bring-up has ended in t: with or without success, from the slot that the board names, with the cells that are out of use. -/
def State.broughtUp (s t : State) (ok : Bool) : State :=
  let bad := (s.arg.failed.filter fun i => i < 384 && !s.bmcRetired.contains i).eraseDups
  let map := if ok then s.bmcRetired ++ bad else s.bmcRetired
  { t with status := if ok then 1 else 2, fwSlot := s.bmcSlot, retired := map, bmcRetired := map }

/-- Every step of bring-up completes in time, and the image of the slot that the board names is verified. -/
def State.bringupOk (s : State) : Bool := s.arg.flag && (amGet s.fw s.bmcSlot {}).verified

theorem bringupOk_iff (s : State) : s.bringupOk = true ↔ s.arg.flag = true ∧ (amGet s.fw s.bmcSlot {} : FwSlot).verified = true := by
  simp [State.bringupOk]

theorem exec_powerGood {s : State} (h : s.mailbox.pending ≠ some 9) : exec .powerGood s = .next (s.broughtUp s.powerCycled s.bringupOk) := by
  have hreboot : s.rebooted = s.powerCycled := by simp [State.rebooted, h]
  show execPowerGood s = _
  simp only [execPowerGood, hreboot]
  rfl

/-- The state in which a bring-up starts that FW_ACTIVATE asks for. -/
def State.restarted (s : State) : State := { s.powerCycled with events := s.events, mailbox := s.mailbox, breaks := s.breaks }

theorem exec_powerGood_pending {s : State} (h : s.mailbox.pending = some 9) :
    let t := s.broughtUp s.restarted s.bringupOk
    exec .powerGood s = .next (t.mboxFinish 0 [(8, [BitVec.ofNat 8 t.fwSlotWord])]) := by
  have hreboot : s.rebooted = s.restarted := by simp [State.rebooted, State.restarted, h]
  have hpend : s.restarted.mailbox.pending = some 9 := h
  show execPowerGood s = _
  simp only [execPowerGood, hreboot, hpend, beq_self_eq_true, if_true]
  rfl

theorem broughtUp_status (s t : State) (ok : Bool) :
    (ok = true → (s.broughtUp t ok).status = 1) ∧ (¬ ok = true → (s.broughtUp t ok).status = 2) := by
  cases ok <;> simp [State.broughtUp]

/-- The cells out of use after a bring-up: those that the map lists, and after one that succeeds those that failed its tests. -/
theorem broughtUp_retired (s t : State) (ok : Bool) :
    (ok = true → ∀ i, i ∈ (s.broughtUp t ok).retired ↔ i ∈ s.bmcRetired ∨ (i ∈ s.arg.failed ∧ i < 384)) ∧
      (¬ ok = true → (s.broughtUp t ok).retired = s.bmcRetired) := by
  cases ok with
  | false => simp [State.broughtUp]
  | true =>
    refine ⟨fun _ i => ?_, by simp⟩
    by_cases hi : i ∈ s.bmcRetired <;> simp [State.broughtUp, hi, List.mem_eraseDups]

/-- What bring-up from power-off leaves of the package: what survives power-off; the rest is as reset gives it. -/
theorem powerGood_spec {s : State} (h : s.mailbox.pending ≠ some 9) :
    let ok := s.arg.flag = true ∧ (amGet s.fw s.bmcSlot {} : FwSlot).verified = true
    ∃ t : State, exec .powerGood s = .next t ∧ (ok → t.status = 1) ∧ (¬ ok → t.status = 2) ∧
      t.fwSlot = s.bmcSlot ∧ t.memH = s.memH ∧ t.fuseMinSvn = s.fuseMinSvn ∧ t.fw = s.fw ∧ t.pads = [] ∧ t.queues = State.reset.queues ∧
      t.ctxs = State.reset.ctxs ∧ t.memL = State.reset.memL ∧ t.memF = State.reset.memF ∧ t.memS = State.reset.memS ∧ t.memM = State.reset.memM ∧
      t.retired = t.bmcRetired ∧ (ok → ∀ i, i ∈ t.retired ↔ i ∈ s.bmcRetired ∨ (i ∈ s.arg.failed ∧ i < 384)) ∧
      (¬ ok → t.retired = s.bmcRetired) := by
  intro ok
  obtain ⟨hup, hdown⟩ := broughtUp_status s s.powerCycled s.bringupOk
  obtain ⟨hmap, hkept⟩ := broughtUp_retired s s.powerCycled s.bringupOk
  rw [bringupOk_iff] at hup hdown hmap hkept
  exact ⟨_, exec_powerGood h, hup, hdown, rfl, rfl, rfl, rfl, rfl, rfl, rfl, rfl, rfl, rfl, rfl, rfl, hmap, hkept⟩

/-- A bring-up that FW_ACTIVATE has asked for answers it. -/
theorem powerGood_pending_spec {s : State} (h : s.mailbox.pending = some 9) :
    let ok := s.arg.flag = true ∧ (amGet s.fw s.bmcSlot {} : FwSlot).verified = true
    ∃ t : State, exec .powerGood s = .next t ∧ (ok → t.status = 1) ∧ (¬ ok → t.status = 2) ∧
      t.fwSlot = s.bmcSlot ∧ t.memH = s.memH ∧ t.fw = s.fw ∧ t.pads = [] ∧ t.memM = State.reset.memM ∧ t.breaks = s.breaks ∧
      t.mailbox.pending = none := by
  intro ok
  obtain ⟨hup, hdown⟩ := broughtUp_status s s.restarted s.bringupOk
  rw [bringupOk_iff] at hup hdown
  exact ⟨_, exec_powerGood_pending h, hup, hdown, rfl, rfl, rfl, rfl, rfl, rfl, rfl⟩

theorem exec_bringupTimeout_up {s : State} (h : s.status ≠ 0) : exec .bringupTimeout s = .next s := by
  show execBringupTimeout s = _
  simp [execBringupTimeout, h]

/-- A bring-up that overruns ends with STATUS 2 and does not end otherwise. -/
theorem exec_bringupTimeout {s : State} (h : s.status = 0) :
    let t : State := { s with status := 2, events := s.events.filter fun x => x.instr != .powerGood }
    exec .bringupTimeout s = .next (if s.mailbox.pending = some 9 then t.mboxFinish 0 [(8, [BitVec.ofNat 8 t.fwSlotWord])] else t) := by
  show execBringupTimeout s = _
  simp [execBringupTimeout, h]

theorem clock_amPut_same (s : State) (d v : Nat) : ({ s with clocks := amPut s.clocks d v } : State).clock d = v := amGet_amPut_same ..

theorem clock_amPut_other (s : State) {d e : Nat} (v : Nat) (h : e ≠ d) : ({ s with clocks := amPut s.clocks d v } : State).clock e = s.clock e :=
  amGet_amPut_other _ _ _ _ _ h

/-! ### Migration (R361, R362) -/

section
variable {s s1 : State} {pa en leaf size : Nat} (hwalk : s.walk s.arg.ctx s.arg.va = (s1, .leaf pa en leaf size))
include hwalk

theorem exec_migrationStart_out (h : s1.frameOut s.arg.frame size = true) : exec .migrationStart s = .next s1 := by
  show execMigrationStart s = _
  simp [execMigrationStart, hwalk, h]

theorem exec_migrationStart (hmig : pteMigrating en = false) (halign : s.arg.frame % size = 0) (h : s1.frameOut s.arg.frame size = false) :
    let s2 := s1.putEntry leaf (en + 2 ^ 5)
    exec .migrationStart s = .next { s2 with migrations := s2.migrations ++
      [⟨s.arg.ctx, s.arg.va / size * size, size, leaf, pteAddr en, s.arg.frame⟩] } := by
  show execMigrationStart s = _
  simp [execMigrationStart, hwalk, h, hmig, halign]

end

theorem putEntry_pads (s : State) (a e : Nat) : (s.putEntry a e).pads = s.pads := State.storeMem_pads ..
theorem putEntry_units (s : State) (a e : Nat) : (s.putEntry a e).units = s.units := State.storeMem_units ..

/-- The copy of a line changes no paddock and no unit. -/
theorem copyLine_keeps (s : State) (described : Bool) (src dst : Nat) :
    (s.copyLine described src dst).pads = s.pads ∧ (s.copyLine described src dst).units = s.units := by
  have h := checkedRead_readOf s .m src 64
  unfold State.copyLine
  generalize s.checkedRead .m src 64 = r at h ⊢
  obtain ⟨t, bs, c⟩ := r
  have hpads : t.pads = s.pads := h.pads
  have hunits : t.units = s.units := h.units
  cases c with
  | none => simp [hpads, hunits]
  | some _ => cases described <;> simp [hpads, hunits]

theorem copyLines_keep (described : Bool) (src dst : Nat → Nat) (l : List Nat) (s : State) :
    (l.foldl (fun u i => u.copyLine described (src i) (dst i)) s).pads = s.pads ∧
      (l.foldl (fun u i => u.copyLine described (src i) (dst i)) s).units = s.units := by
  induction l generalizing s with
  | nil => exact ⟨rfl, rfl⟩
  | cons i l ih =>
    obtain ⟨hpads, hunits⟩ := ih (s.copyLine described (src i) (dst i))
    obtain ⟨hpads', hunits'⟩ := copyLine_keeps s described (src i) (dst i)
    exact ⟨hpads.trans hpads', hunits.trans hunits'⟩

/-- Whether a paddock is parked for a page that a migration moves. -/
def Pad.waitsFor (p : Pad) (m : Migration) : Bool :=
  match p.waitPage with
  | some va => p.ctx == m.ctx && m.va ≤ va && va < m.va + m.size
  | none => false

/-- The end of a migration: what waited for the page goes on. -/
def State.migrationEnd (s : State) (m : Migration) : State :=
  let s := { s with pads := s.pads.map fun (x : Nat × Pad) => let (n, p) := x; (n, if p.waitsFor m then { p with waitPage := none } else p) }
  let keys := (s.units.filter fun (x : Nat × UnitSt) => !isCellKey x.1 && x.2.live && x.2.ctx == m.ctx && !x.2.parked.isEmpty).map (·.1)
  (keys.foldl (fun s k => s.wake k) s).post .droverSelection

/-- Where nothing waits, the end of a migration only has the drover look. -/
theorem migrationEnd_nothing_waits {s : State} (m : Migration) (hpads : ∀ x ∈ s.pads, x.2.waitPage = none)
    (hunits : ∀ x ∈ s.units, x.2.parked = []) : s.migrationEnd m = s.post .droverSelection := by
  have hmap : (s.pads.map fun (x : Nat × Pad) => let (n, p) := x; (n, if p.waitsFor m then { p with waitPage := none } else p)) = s.pads := by
    refine (List.map_congr_left fun x hx => ?_).trans (List.map_id s.pads)
    have hno : x.2.waitsFor m = false := by simp [Pad.waitsFor, hpads x hx]
    simp [hno]
  have hkeys : (s.units.filter fun (x : Nat × UnitSt) => !isCellKey x.1 && x.2.live && x.2.ctx == m.ctx && !x.2.parked.isEmpty) = [] :=
    List.filter_eq_nil_iff.mpr fun x hx => by simp [hunits x hx]
  unfold State.migrationEnd
  simp only [hmap, hkeys, List.map_nil, List.foldl_nil]

theorem moveHeld_waitPage {s : State} (m : Migration) (h : ∀ x ∈ s.pads, x.2.waitPage = none) :
    ∀ x ∈ (s.moveHeld m).pads, x.2.waitPage = none := by
  intro x hx
  obtain ⟨y, hy, rfl⟩ := List.mem_map.mp hx
  exact h y hy

theorem moveHeld_parked {s : State} (m : Migration) (h : ∀ x ∈ s.units, x.2.parked = []) : ∀ x ∈ (s.moveHeld m).units, x.2.parked = [] := by
  intro x hx
  obtain ⟨y, hy, rfl⟩ := List.mem_map.mp hx
  exact h y hy

section
variable {s : State} {m : Migration} {rest : List Migration} (hm : s.migrations = m :: rest)
include hm

theorem exec_migrationCopyDone_waits (h : s.xlateQuiet m.ctx m.va (m.va + m.size) = false) :
    exec .migrationCopyDone s = .next (s.post .migrationCopyDone s.arg) := by
  show execMigrationCopyDone s = _
  simp [execMigrationCopyDone, hm, h]

section
variable (h : s.xlateQuiet m.ctx m.va (m.va + m.size) = true)
include h

/-- Once no access uses the old translation the page is copied, or the copy given up, and the migration ends. -/
theorem exec_migrationCopyDone :
    let en := ofBytes (s.readMem .m m.leafAt 8)
    let clear := en - if pteMigrating en = true then 2 ^ 5 else 0
    let s0 : State := { s with migrations := rest }
    exec .migrationCopyDone s = .next (State.migrationEnd (if s.arg.flag = true then s0.putEntry m.leafAt clear
      else (((List.range (m.size / 64)).foldl (fun u i =>
        u.copyLine (pteDescribed en) (m.oldFrame + 64 * i) (m.newFrame + 64 * i)) s0).putEntry m.leafAt (clear - m.oldFrame + m.newFrame)).moveHeld m) m) := by
  show execMigrationCopyDone s = _
  simp only [execMigrationCopyDone, hm, h, Bool.not_true, Bool.false_eq_true, if_false]
  rfl

variable (hpads : ∀ x ∈ s.pads, x.2.waitPage = none) (hunits : ∀ x ∈ s.units, x.2.parked = [])
include hpads hunits

theorem exec_migrationCopyDone_fails (hflag : s.arg.flag = true) :
    let en := ofBytes (s.readMem .m m.leafAt 8)
    exec .migrationCopyDone s = .next ((({ s with migrations := rest } : State).putEntry m.leafAt
      (en - if pteMigrating en = true then 2 ^ 5 else 0)).post .droverSelection) := by
  intro en
  rw [exec_migrationCopyDone hm h, if_pos hflag, migrationEnd_nothing_waits]
  · rwa [putEntry_pads]
  · rwa [putEntry_units]

theorem exec_migrationCopyDone_copies (hflag : s.arg.flag = false) :
    let en := ofBytes (s.readMem .m m.leafAt 8)
    let s1 := (List.range (m.size / 64)).foldl (fun u i =>
      u.copyLine (pteDescribed en) (m.oldFrame + 64 * i) (m.newFrame + 64 * i)) ({ s with migrations := rest } : State)
    exec .migrationCopyDone s = .next (((s1.putEntry m.leafAt
      ((en - if pteMigrating en = true then 2 ^ 5 else 0) - m.oldFrame + m.newFrame)).moveHeld m).post .droverSelection) := by
  intro en s1
  obtain ⟨hpads', hunits'⟩ := copyLines_keep (pteDescribed en) (fun i => m.oldFrame + 64 * i) (fun i => m.newFrame + 64 * i)
    (List.range (m.size / 64)) ({ s with migrations := rest } : State)
  rw [exec_migrationCopyDone hm h, if_neg (by simp [hflag]), migrationEnd_nothing_waits]
  · refine moveHeld_waitPage m ?_
    rw [putEntry_pads, hpads']
    exact hpads
  · refine moveHeld_parked m ?_
    rw [putEntry_units, hunits']
    exact hunits

end
end

/-! ### Eviction (R244, R363) -/

/-- The evict windows of M of a context's nodes, each with its node and its number. -/
def State.evictWindows (s : State) (ctx : Nat) : List (Nat × Nat × Window) :=
  s.units.flatMap fun x => if x.2.live && x.2.ctx == ctx && !isCellKey x.1 then
    (x.2.conf.windows.filter fun y => y.2.evict && y.2.sp == .m).map fun y => (x.1, y.1, y.2) else []

section
variable {s s1 : State} {pa en leaf size : Nat} (hwalk : s.walk s.arg.ctx s.arg.va = (s1, .leaf pa en leaf size))
include hwalk

/-- The evictor reads the marks of the context's evict windows, and frees a page in one of them that none of these marks reaches. -/
theorem exec_evict :
    let lo := s.arg.va / size * size
    let ws := s1.evictWindows s.arg.ctx
    let s2 := ws.foldl (fun u y => u.readMark y.1 y.2.1 y.2.2) s1
    let free := (∃ y ∈ ws, y.2.2.base ≤ lo ∧ lo + size ≤ y.2.2.base + y.2.2.extent) ∧
      (∀ y ∈ ws, ∀ m, windowMark (s1.getU y.1) y.2.1 y.2.2 = some m → lo + size ≤ m) ∧ s2.xlateQuiet s.arg.ctx lo (lo + size) = true
    let s3 := s2.putEntry leaf (en - if pteValid en = true then 1 else 0)
    (free → exec .evict s = .next { s3 with evicted := s3.evicted ++ [(s.arg.ctx, lo)] }) ∧ (¬ free → exec .evict s = .next s2) := by
  intro lo ws s2 free s3
  have hfree : (((ws.any fun y => decide (y.2.2.base ≤ lo) && decide (lo + size ≤ y.2.2.base + y.2.2.extent)) &&
      (ws.filterMap fun y => windowMark (s1.getU y.1) y.2.1 y.2.2).all fun m => decide (lo + size ≤ m)) &&
      s2.xlateQuiet s.arg.ctx lo (lo + size)) = true ↔ free := by
    simp only [free, Bool.and_eq_true, List.any_eq_true, decide_eq_true_eq, List.all_eq_true, List.mem_filterMap, forall_exists_index, and_imp,
      and_assoc]
    refine and_congr_right fun _ => and_congr_left fun _ => ⟨fun h y hy m hm => h m y hy hm, fun h m y hy hm => h y hy m hm⟩
  have hexec : exec .evict s = if ((ws.any fun y => decide (y.2.2.base ≤ lo) && decide (lo + size ≤ y.2.2.base + y.2.2.extent)) &&
      (ws.filterMap fun y => windowMark (s1.getU y.1) y.2.1 y.2.2).all fun m => decide (lo + size ≤ m)) &&
      s2.xlateQuiet s.arg.ctx lo (lo + size) then .next { s3 with evicted := s3.evicted ++ [(s.arg.ctx, lo)] } else .next s2 := by
    show execEvict s = _
    simp only [execEvict, hwalk]
    rfl
  exact ⟨fun h => hexec.trans (if_pos (hfree.mpr h)), fun h => hexec.trans (if_neg (mt hfree.mp h))⟩

/-- Without an evict window in the context no page is freed. -/
theorem exec_evict_no_windows (h : ∀ x ∈ s1.units, x.2.live = true → x.2.ctx = s.arg.ctx → isCellKey x.1 = false →
    ∀ w ∈ x.2.conf.windows, w.2.evict = false) : exec .evict s = .next s1 := by
  have hws : s1.evictWindows s.arg.ctx = [] := by
    refine List.flatMap_eq_nil_iff.mpr fun x hx => ?_
    split
    · rename_i hc
      simp only [Bool.and_eq_true, beq_iff_eq, Bool.not_eq_true'] at hc
      refine List.map_eq_nil_iff.mpr (List.filter_eq_nil_iff.mpr fun w hw => ?_)
      simp [h x hx hc.1.1 hc.1.2 hc.2 w hw]
    · rfl
  have hexec := (exec_evict hwalk).2
  rw [hws] at hexec
  exact hexec (by simp)

end

/-! ### Live update and firmware cores (R304, R368) -/

/-- A live update without its heartbeats goes back to the old slot. -/
theorem exec_heartbeatTimeout {s : State} {u : Update} (hu : s.update = some u) (hstarted : u.started = true) (hwait : u.waiting ≠ []) :
    exec .heartbeatTimeout s = .next (({ s with
      fw := amPut s.fw s.fwSlot { (amGet s.fw s.fwSlot {} : FwSlot) with verified := false }, fwSlot := u.oldSlot, bmcSlot := u.oldSlot } : State).updateDone
      2) := by
  show execHeartbeatTimeout s = _
  simp [execHeartbeatTimeout, hu, hstarted, hwait]

/-- A halted core of firmware issues from the start of its code again. -/
theorem exec_coreRestart {s : State} (hcore : s.arg.cell ∈ firmwareCores) (hhalt : (s.coreOf s.arg.cell).halted = true) :
    exec .coreRestart s = .next (s.setCoreOf s.arg.cell { (s.coreOf s.arg.cell).endFiring with running := true, halted := false, pc := 0 }) := by
  show execCoreRestart s = _
  simp [execCoreRestart, hcore, hhalt]

/-- Settles O49: each clause is one of the equations above. -/
theorem serviceStepsKeepThePackage : Obligations.ServiceStepsKeepThePackage := by
  unfold Obligations.ServiceStepsKeepThePackage
  refine ⟨fun s => ⟨powerGood_spec, powerGood_pending_spec, exec_bringupTimeout_up, fun h hpend => ?_, fun h hpend => ?_,
    ⟨_, rfl, clock_amPut_same .., fun d hd => clock_amPut_other _ _ hd⟩, ⟨_, rfl, clock_amPut_same .., fun d hd => clock_amPut_other _ _ hd⟩,
    fun h => ⟨exec_memoryScrub_clean h, fun hf => ⟨_, exec_memoryScrub_single h hf, markOf_clearMark_same .., rfl, rfl⟩,
      fun hf => ⟨_, exec_memoryScrub_uncorrectable h hf, ⟨_, List.mem_append_right _ (List.mem_singleton_self _), _, rfl, rfl, rfl, rfl⟩,
        fun hd => ?_, fun hd => ?_⟩⟩,
    fun s1 pa en leaf size hwalk => ⟨fun _ _ => exec_migrationStart_out hwalk, exec_migrationStart hwalk, exec_evict_no_windows hwalk⟩,
    fun m rest hm => ⟨exec_migrationCopyDone_waits hm, fun h hflag hpads hunits => exec_migrationCopyDone_fails hm h hpads hunits hflag,
      fun h hflag hpads hunits => exec_migrationCopyDone_copies hm h hpads hunits hflag⟩,
    fun u => exec_heartbeatTimeout,
    fun hcore hhalt => ⟨_, exec_coreRestart hcore hhalt, ?_, ?_, ?_, fun i hi => ?_, rfl, rfl⟩⟩,
    fun s s1 pa en leaf size hwalk => exec_evict hwalk⟩
  · rw [exec_bringupTimeout h, if_neg hpend]
  · refine ⟨_, (exec_bringupTimeout h).trans (congrArg Host.Outcome.next (if_pos hpend)), rfl, rfl, fun x hx => ?_⟩
    simpa using (List.mem_filter.mp hx).2
  · rw [if_neg (by simp [hd])]
    exact ⟨markOf_setMark_same .., rfl⟩
  · rw [if_pos hd]
    refine ⟨(markOf_report ..).trans (markOf_storeMem_line _ _ _ poisonBlock_length), ?_⟩
    exact (readMem_report ..).trans (readMem_storeMem_line _ _ _ poisonBlock_length)
  · simp
  · simp
  · simp
  · exact State.setCoreOf_coreOf_other _ _ _ _ hi

end Sys2Proof.Machine
end

section
/-!
PROOFS. Mailbox commands (O51).
-/

namespace Sys2Proof.Machine

/-! ### The mailbox (R402) -/

/-- A command that is written to the ready package runs with its code and busy bit in the mailbox. -/
theorem mailboxRun_ready {s : State} (h : s.Ready) (code : Nat) (run : State → State) : s.mailboxRun code run = .next (run (s.commanded code)) := by
  obtain ⟨hstatus, hpend, hflag⟩ := h
  have htaken : (s.arg.flag || s.status == 0 || (s.status == 2 && !([6, 8, 9].contains code))) = false := by simp [hflag, hstatus]
  simp only [State.mailboxRun, hpend, htaken, Bool.false_eq_true, if_false]
  rfl

/-- A command that is pending goes on. -/
theorem mailboxRun_goes_on {s : State} {code : Nat} (hflag : s.arg.flag = true) (hpend : s.mailbox.pending = some code) (run : State → State) :
    s.mailboxRun code run = .next (run s) := by
  simp [State.mailboxRun, hpend, hflag]

/-- After a failed bring-up FW_ACTIVATE is taken. -/
theorem mailboxRun_fwActivate_down {s : State} (hflag : s.arg.flag = false) (hpend : s.mailbox.pending = none) (hstatus : s.status = 2)
    (run : State → State) : s.mailboxRun 9 run = .next (run (s.commanded 9)) := by
  have htaken : (s.arg.flag || s.status == 0 || (s.status == 2 && !([6, 8, 9].contains 9))) = false := by simp [hflag, hstatus]
  simp only [State.mailboxRun, hpend, htaken, Bool.false_eq_true, if_false]
  rfl

section
variable (s : State) (n : Nat)
theorem commanded_arg : (s.commanded n).arg = s.arg := rfl
theorem commanded_ctxs : (s.commanded n).ctxs = s.ctxs := rfl
theorem commanded_status : (s.commanded n).status = s.status := rfl
theorem commanded_getQ (q : Nat) : (s.commanded n).getQ q = s.getQ q := rfl
theorem commanded_fw : (s.commanded n).fw = s.fw := rfl
theorem commanded_fwSlot : (s.commanded n).fwSlot = s.fwSlot := rfl
theorem commanded_xlateQuiet (ctx lo hi : Nat) : (s.commanded n).xlateQuiet ctx lo hi = s.xlateQuiet ctx lo hi := rfl
end

/-- The test of a command's context: 64 and more are none, and one that is not live does not count. -/
theorem live_test_true {st : CtxState} {c : Nat} (h : 64 ≤ c ∨ (st == .live) = false) : (decide (64 ≤ c) || st != .live) = true := by
  simpa using h

theorem live_test_false {st : CtxState} {c : Nat} (hc : c < 64) (h : (st == .live) = true) : (decide (64 ≤ c) || st != .live) = false := by
  simp_all

/-! ### Reads of M by firmware (R372) -/

/-- t is s but for what a checked read of M may change: what checks change, and bytes of M. -/
def State.PhysReadOf (s t : State) : Prop :=
  { s with events := t.events, marks := t.marks, masks := t.masks, corrected := t.corrected, memM := t.memM } = t

theorem State.PhysReadOf.trans {s t u : State} (hst : s.PhysReadOf t) (htu : t.PhysReadOf u) : s.PhysReadOf u := by
  unfold State.PhysReadOf at htu
  rw [← hst] at htu
  exact htu

theorem State.ReadOf.physReadOf {s t : State} (h : s.ReadOf t) : s.PhysReadOf t := by
  unfold State.PhysReadOf State.ReadOf at *
  rw [← h]

theorem storeMem_physReadOf (s : State) (a : Nat) (bs : List Byte) : s.PhysReadOf (s.storeMem .m a bs) := by
  obtain ⟨marks, h⟩ := State.storeMem_eq s .m a bs
  rw [h]
  rfl

theorem readPhys_physReadOf (s : State) (a n : Nat) : s.PhysReadOf (s.readPhys a n).1 := by
  have hstores (l : List Nat) (t : State) : t.PhysReadOf (l.foldl (fun s l => s.storeMem .m (64 * l) poisonBlock) t) := by
    induction l generalizing t with
    | nil => rfl
    | cons x l ih => exact (storeMem_physReadOf ..).trans (ih _)
  exact (checkedRead_readOf s .m a n).physReadOf.trans (hstores _ _)

namespace State.PhysReadOf
variable {s t : State} (h : s.PhysReadOf t)
include h
theorem ctxs : t.ctxs = s.ctxs := (congrArg State.ctxs h).symm
theorem fw : t.fw = s.fw := (congrArg State.fw h).symm
theorem fwSlot : t.fwSlot = s.fwSlot := (congrArg State.fwSlot h).symm
theorem fuseMinSvn : t.fuseMinSvn = s.fuseMinSvn := (congrArg State.fuseMinSvn h).symm
theorem placed : t.placed = s.placed := (congrArg State.placed h).symm
theorem retired : t.retired = s.retired := (congrArg State.retired h).symm
theorem handles : t.handles = s.handles := (congrArg State.handles h).symm
theorem handleNext : t.handleNext = s.handleNext := (congrArg State.handleNext h).symm

/-- Where a placement stands does not depend on what a read changes. -/
theorem mapped (img : List Byte) (busy : List Nat) (shapes : Option (List FoldTree × FoldTree)) :
    t.mapped img busy shapes = s.mapped img busy shapes := by
  simp only [State.mapped, h.placed, h.retired]

theorem freeSerial : t.freeSerial = s.freeSerial := by
  simp only [State.freeSerial, h.handles, h.handleNext]

end State.PhysReadOf

/-! ### The handle table (R345) -/

theorem freeSerial_next {s : State} (h : s.handleNext < 2 ^ 26) : s.freeSerial = s.handleNext := if_pos h

/-- With every entry taken there is no serial number for a further handle. -/
theorem freeSerial_full {s : State} (hnext : 2 ^ 26 ≤ s.handleNext) (hfull : ∀ n, n < 2 ^ 26 → ∃ x ∈ s.handles, x.1 = n) :
    2 ^ 26 ≤ s.freeSerial := by
  rw [State.freeSerial, if_neg (Nat.not_lt.mpr hnext)]
  cases hfind : (List.range (s.handles.length + 1)).find? fun n => !(s.handles.any fun x => x.1 == n) with
  | none => exact le_rfl
  | some n =>
    have hfree : ∀ x ∈ s.handles, x.1 ≠ n := by simpa using List.find?_some hfind
    by_contra hlt
    obtain ⟨x, hx, hxn⟩ := hfull n (Nat.not_le.mp hlt)
    exact hfree x hx hxn

/-- With every entry taken MINT answers 3. -/
theorem mintHandle_full {s : State} (ctx : Nat) (img : List Byte) (p : Placement) (h : 2 ^ 26 ≤ s.freeSerial) :
    s.mintHandle ctx img p = s.mboxFinish 3 [] := by
  unfold State.mintHandle
  simp only [h, if_true]

/-- Until 2^26 handles have been minted each takes the next entry. -/
theorem mintHandle_next {s : State} (ctx : Nat) (img : List Byte) (p : Placement) (h : s.handleNext < 2 ^ 26) :
    s.mintHandle ctx img p = ({ s.cachePlace img p with
      handles := amPut s.handles s.handleNext
        { ctx := ctx, gen := (amGet s.ctxs ctx {} : Ctx).gen, live := true, conf := buildConf img (graphOf img) p s.retired, image := img
          place := p }
      handleNext := s.handleNext + 1 } : State).mboxFinish 0
      [(8, toBytes 8 (handleWord ctx (amGet s.ctxs ctx {} : Ctx).gen s.handleNext).toNat)] := by
  have hcache : (s.cachePlace img p).handles = s.handles ∧ (s.cachePlace img p).handleNext = s.handleNext := by
    unfold State.cachePlace
    dsimp only
    split <;> exact ⟨rfl, rfl⟩
  obtain ⟨hh, hn⟩ := hcache
  unfold State.mintHandle
  simp only [freeSerial_next h, Nat.not_le.mpr h, if_false, hh, hn, Nat.max_eq_right (Nat.le_succ _)]

/-! ### Commands that go on (R340, R355, R367) -/

section
variable {s : State} (hflag : s.arg.flag = true)
include hflag

theorem exec_ctxKill_waits (hpend : s.mailbox.pending = some 2) (h : ∃ x ∈ s.pads, x.2.ctx = s.arg.ctx) :
    exec .ctxKill s = .next (s.mailboxLater .ctxKill { ctx := s.arg.ctx }) := by
  have hany : (s.pads.any fun x => x.2.ctx == s.arg.ctx) = true := by simpa using h
  show execCtxKill s = _
  rw [execCtxKill, mailboxRun_goes_on hflag hpend]
  simp only [hflag, hany, Bool.not_true, Bool.false_eq_true, if_true, if_false]

theorem exec_ctxKill_ends (hpend : s.mailbox.pending = some 2) (h : ∀ x ∈ s.pads, x.2.ctx ≠ s.arg.ctx) :
    exec .ctxKill s = .next ((s.freeCtx s.arg.ctx).mboxFinish 0 [(12, toBytes 4 (amGet s.ctxs s.arg.ctx {} : Ctx).stale)]) := by
  have hany : (s.pads.any fun x => x.2.ctx == s.arg.ctx) = false := by simpa using h
  show execCtxKill s = _
  rw [execCtxKill, mailboxRun_goes_on hflag hpend]
  simp only [hflag, hany, Bool.not_true, Bool.false_eq_true, if_true, if_false]

theorem exec_invalidate_goes_on (hpend : s.mailbox.pending = some 4) :
    exec .invalidate s = .next (if s.xlateQuiet s.arg.ctx s.arg.va (s.arg.va + s.arg.len) = true then s.mboxFinish 0 []
      else s.mailboxLater .invalidate { ctx := s.arg.ctx, va := s.arg.va, len := s.arg.len }) := by
  show execInvalidate s = _
  rw [execInvalidate, mailboxRun_goes_on hflag hpend]
  simp only [hflag, Bool.not_true, Bool.false_and, Bool.false_eq_true, if_true, if_false]

theorem exec_fwActivate_goes_on {u : Update} (hpend : s.mailbox.pending = some 9) (hu : s.update = some u) (hstart : u.started = false) :
    exec .fwActivate s = .next (if s.updateReady = true then s.startImage else s.mailboxLater .fwActivate) := by
  show execFwActivate s = _
  rw [execFwActivate, mailboxRun_goes_on hflag hpend]
  simp only [hflag, hu, hstart, Bool.false_eq_true, if_true, if_false]

end

/-! ### Contexts and queues (R340, R347, R399) -/

section
variable {s : State} (h : s.Ready)
include h

theorem exec_ctxCreate_none (hfull : ∀ c, c < 64 → (amGet s.ctxs c {} : Ctx).st ≠ .free) :
    exec .ctxCreate s = .next ((s.commanded 1).mboxFinish 1 []) := by
  have hfind : ((List.range 64).find? fun c => (amGet s.ctxs c {} : Ctx).st == .free) = none := by
    simpa [List.find?_eq_none] using hfull
  show execCtxCreate s = _
  rw [execCtxCreate, mailboxRun_ready h]
  simp only [commanded_ctxs, hfind]

section
variable {c : Nat} (hc : c < 64) (hfree : (amGet s.ctxs c {} : Ctx).st = .free) (hfirst : ∀ d, d < c → (amGet s.ctxs d {} : Ctx).st ≠ .free)
include hc hfree hfirst

/-- CTX_CREATE takes the lowest free context, unless an argument is out of its bounds. -/
theorem exec_ctxCreate :
    let w (off k : Nat) : Nat := (s.commanded 1).mailbox.word off k
    let bad := w 8 8 % 65536 ≠ 0 ∨ 2 ^ 52 ≤ w 8 8 ∨ 2 ^ 20 ≤ w 16 4 ∨ 1 < w 20 1
    (¬ bad → exec .ctxCreate s = .next (({ s.commanded 1 with
      ctxs := amPut s.ctxs c
        { st := .live, gen := (amGet s.ctxs c {} : Ctx).gen, root := w 8 8, pasid := w 16 4, share := w 20 1 == 1 } } : State).mboxFinish 0
      [(8, toBytes 1 c), (9, toBytes 2 (amGet s.ctxs c {} : Ctx).gen)])) ∧
    (bad → exec .ctxCreate s = .next ((s.commanded 1).mboxFinish 2 [])) := by
  intro w bad
  have hfind : ((List.range 64).find? fun c => (amGet s.ctxs c {} : Ctx).st == .free) = some c := by
    simpa [List.find?_range_eq_some, hfree, hc] using hfirst
  have hbad : (w 8 8 % 65536 != 0 || decide (2 ^ 52 ≤ w 8 8) || decide (2 ^ 20 ≤ w 16 4) || decide (1 < w 20 1)) = true ↔ bad := by
    simp only [bad, Bool.or_eq_true, bne_iff_ne, decide_eq_true_eq, or_assoc]
  show (¬ bad → execCtxCreate s = _) ∧ (bad → execCtxCreate s = _)
  rw [execCtxCreate, mailboxRun_ready h]
  simp only [commanded_ctxs, hfind]
  exact ⟨fun hok => congrArg Host.Outcome.next (if_neg (mt hbad.mp hok)), fun hb => congrArg Host.Outcome.next (if_pos (hbad.mpr hb))⟩

end

theorem exec_ctxKill_not_live (hc : 64 ≤ (s.commanded 2).mailbox.word 8 1 ∨
    ((amGet s.ctxs ((s.commanded 2).mailbox.word 8 1) {} : Ctx).st == .live) = false) :
    exec .ctxKill s = .next ((s.commanded 2).mboxFinish 1 []) := by
  show execCtxKill s = _
  rw [execCtxKill, mailboxRun_ready h]
  simp only [commanded_arg, commanded_ctxs, h.2.2, live_test_true hc, Bool.not_false, Bool.false_eq_true, if_true, if_false]

theorem exec_ctxKill_live (hc : (s.commanded 2).mailbox.word 8 1 < 64)
    (hlive : ((amGet s.ctxs ((s.commanded 2).mailbox.word 8 1) {} : Ctx).st == .live) = true) :
    let c := (s.commanded 2).mailbox.word 8 1
    exec .ctxKill s = .next ((({ s.commanded 2 with ctxs := amPut s.ctxs c { (amGet s.ctxs c {} : Ctx) with st := .killing } } : State).killPads
      c).mailboxLater .ctxKill { ctx := c }) := by
  show execCtxKill s = _
  rw [execCtxKill, mailboxRun_ready h]
  simp only [commanded_arg, commanded_ctxs, h.2.2, live_test_false hc hlive, Bool.not_false, Bool.false_eq_true, if_true, if_false]

theorem exec_queueBind_no_queue (hn : 64 ≤ (s.commanded 3).mailbox.word 8 1) : exec .queueBind s = .next ((s.commanded 3).mboxFinish 2 []) := by
  show execQueueBind s = _
  rw [execQueueBind, mailboxRun_ready h]
  simp only [hn, if_true]

section
variable (hn : (s.commanded 3).mailbox.word 8 1 < 64)
  (hdone : (s.getQ ((s.commanded 3).mailbox.word 8 1)).rd = (s.getQ ((s.commanded 3).mailbox.word 8 1)).wr)
include hn hdone

theorem exec_queueBind_unbind (hctx : (s.commanded 3).mailbox.word 9 1 = 0xFF) :
    exec .queueBind s = .next (((s.commanded 3).updQ ((s.commanded 3).mailbox.word 8 1) fun q => { ignored := q.ignored }).mboxFinish 0 []) := by
  show execQueueBind s = _
  rw [execQueueBind, mailboxRun_ready h]
  simp only [Nat.not_le.mpr hn, hctx, commanded_getQ, hdone, bne_self_eq_false, beq_self_eq_true, Bool.false_eq_true, if_true, if_false]

theorem exec_queueBind {ctx : Nat} (hw : (s.commanded 3).mailbox.word 9 1 = ctx) (hctx : ctx < 64)
    (hlive : ((amGet s.ctxs ctx {} : Ctx).st == .live) = true) (hlg : (s.commanded 3).mailbox.word 10 1 ≤ 12) (hprio : (s.commanded 3).mailbox.word 11 1 ≤ 7)
    (halign : (s.commanded 3).mailbox.word 16 8 % 4096 = 0) (hring : (s.commanded 3).mailbox.word 16 8 < 2 ^ 56)
    (howner : (s.getQ ((s.commanded 3).mailbox.word 8 1)).owner = none ∨ (s.getQ ((s.commanded 3).mailbox.word 8 1)).owner = some ctx) :
    exec .queueBind s = .next (((s.commanded 3).updQ ((s.commanded 3).mailbox.word 8 1) fun q =>
      { owner := some ctx, st := .armed, ring := (s.commanded 3).mailbox.word 16 8, lg := (s.commanded 3).mailbox.word 10 1,
        prio := (s.commanded 3).mailbox.word 11 1, ignored := q.ignored }).mboxFinish 0 []) := by
  subst hw
  have hnot : ((s.commanded 3).mailbox.word 9 1 == 0xFF) = false := by simp; omega
  have hargs : (decide (64 ≤ (s.commanded 3).mailbox.word 9 1) || (amGet s.ctxs ((s.commanded 3).mailbox.word 9 1) {} : Ctx).st != .live ||
      decide (12 < (s.commanded 3).mailbox.word 10 1) || decide (7 < (s.commanded 3).mailbox.word 11 1) ||
      (s.commanded 3).mailbox.word 16 8 % 4096 != 0 || decide (2 ^ 56 ≤ (s.commanded 3).mailbox.word 16 8)) = false := by
    simp_all
  have hfree : (((s.getQ ((s.commanded 3).mailbox.word 8 1)).owner.isSome &&
      (s.getQ ((s.commanded 3).mailbox.word 8 1)).owner != some ((s.commanded 3).mailbox.word 9 1)) ||
      (s.getQ ((s.commanded 3).mailbox.word 8 1)).rd != (s.getQ ((s.commanded 3).mailbox.word 8 1)).wr) = false := by
    rcases howner with ho | ho <;> simp [ho, hdone]
  show execQueueBind s = _
  rw [execQueueBind, mailboxRun_ready h]
  simp only [Nat.not_le.mpr hn, hnot, hargs, hfree, commanded_getQ, commanded_ctxs, Bool.false_eq_true, if_false]

end

theorem exec_invalidate (hctx : (s.commanded 4).mailbox.word 8 1 < 64) (hbase : (s.commanded 4).mailbox.word 16 8 % 65536 = 0)
    (hlen : (s.commanded 4).mailbox.word 24 8 % 65536 = 0)
    (hend : (s.commanded 4).mailbox.word 16 8 + (s.commanded 4).mailbox.word 24 8 ≤ 2 ^ 56) :
    let w (off k : Nat) : Nat := (s.commanded 4).mailbox.word off k
    exec .invalidate s = .next (if s.xlateQuiet (w 8 1) (w 16 8) (w 16 8 + w 24 8) = true then (s.commanded 4).mboxFinish 0 []
      else (s.commanded 4).mailboxLater .invalidate { ctx := w 8 1, va := w 16 8, len := w 24 8 }) := by
  have hargs : (decide (64 ≤ (s.commanded 4).mailbox.word 8 1) || (s.commanded 4).mailbox.word 16 8 % 65536 != 0 ||
      (s.commanded 4).mailbox.word 24 8 % 65536 != 0 ||
      decide (2 ^ 56 < (s.commanded 4).mailbox.word 16 8 + (s.commanded 4).mailbox.word 24 8)) = false := by
    simp [Nat.not_le.mpr hctx, hbase, hlen]
    omega
  show execInvalidate s = _
  rw [execInvalidate, mailboxRun_ready h]
  simp only [commanded_arg, commanded_xlateQuiet, h.2.2, hargs, Bool.not_false, Bool.true_and, Bool.false_eq_true, if_false]

end

/-! ### Graph objects (R345, R403) -/

section
variable {s : State} (h : s.Ready)
include h

theorem exec_mint_not_live (hc : 64 ≤ (s.commanded 5).mailbox.word 8 1 ∨
    ((amGet s.ctxs ((s.commanded 5).mailbox.word 8 1) {} : Ctx).st == .live) = false) :
    exec .mint s = .next ((s.commanded 5).mboxFinish 4 []) := by
  show execMint s = _
  rw [execMint, mailboxRun_ready h]
  simp only [commanded_ctxs, live_test_true hc, if_true]

section
variable {c : Nat} (hw : (s.commanded 5).mailbox.word 8 1 = c) (hc : c < 64) (hlive : ((amGet s.ctxs c {} : Ctx).st == .live) = true)
  {s1 : State} {img : List Byte}
include hw hc hlive

theorem exec_mint_unreadable {k : Nat}
    (hread : (s.commanded 5).readPhys ((s.commanded 5).mailbox.word 16 8) ((s.commanded 5).mailbox.word 24 8) = (s1, img, some k)) :
    exec .mint s = .next ((s1.reportCtx c 0 k (some (frameSite ((s.commanded 5).mailbox.word 16 8)))).mboxFinish 1
      [(16, toBytes 1 1), (17, toBytes 2 0xFFFF), (19, toBytes 1 0xFF)]) := by
  subst hw
  show execMint s = _
  rw [execMint, mailboxRun_ready h]
  simp only [commanded_ctxs, live_test_false hc hlive, hread, Bool.false_eq_true, if_false]
  rfl

variable (hread : (s.commanded 5).readPhys ((s.commanded 5).mailbox.word 16 8) ((s.commanded 5).mailbox.word 24 8) = (s1, img, none))
include hread

theorem exec_mint_reject {reason : Nat} {x : Option (Nat × Nat)} (hrej : mintReject img = some (reason, x)) :
    ∃ at', exec .mint s = .next (s1.mboxFinish 1 ((16, toBytes 1 reason) :: at')) := by
  subst hw
  refine ⟨[(17, toBytes 2 (x.getD (0xFFFF, 0xFF)).1), (19, toBytes 1 (x.getD (0xFFFF, 0xFF)).2)], ?_⟩
  show execMint s = _
  rw [execMint, mailboxRun_ready h]
  simp only [commanded_ctxs, live_test_false hc hlive, hread, hrej, Bool.false_eq_true, if_false]
  rfl

/-- An image that is not rejected is minted where it has a placement that is in order. -/
theorem exec_mint (hok : mintReject img = none) :
    exec .mint s = .next ((s.mapped img [] none).elim (s1.mboxFinish 2 []) fun p =>
      if Placement.ok p (graphOf img) s.retired [] (amGet s.ctxs c {} : Ctx).share then s1.mintHandle c img p else s1.mboxFinish 2 []) := by
  subst hw
  have hkept := readPhys_physReadOf (s.commanded 5) ((s.commanded 5).mailbox.word 16 8) ((s.commanded 5).mailbox.word 24 8)
  rw [hread] at hkept
  have hmapped : s1.mapped img [] none = s.mapped img [] none := hkept.mapped ..
  have hretired : s1.retired = s.retired := hkept.retired
  have hctxs : s1.ctxs = s.ctxs := hkept.ctxs
  show execMint s = _
  rw [execMint, mailboxRun_ready h]
  simp only [commanded_ctxs, live_test_false hc hlive, hread, hok, Bool.false_eq_true, if_false, Option.isSome_none, State.reportRead, hmapped,
    hretired, hctxs]
  cases s.mapped img [] none <;> rfl

end

/-! ### Firmware images (R366 to R368) -/

theorem exec_fwLoad_unreadable {s1 : State} {img : List Byte} {k : Nat}
    (hread : (s.commanded 6).readPhys ((s.commanded 6).mailbox.word 16 8) ((s.commanded 6).mailbox.word 24 8) = (s1, img, some k)) :
    exec .fwLoad s = .next ((s1.report { cause := k, pad := 0, site := some (frameSite ((s.commanded 6).mailbox.word 16 8)) }).mboxFinish 3 []) := by
  show execFwLoad s = _
  rw [execFwLoad, mailboxRun_ready h]
  simp only [hread, Option.isSome_some, if_true]

section
variable {s1 : State} {img : List Byte}
  (hread : (s.commanded 6).readPhys ((s.commanded 6).mailbox.word 16 8) ((s.commanded 6).mailbox.word 24 8) = (s1, img, none))
include hread

theorem exec_fwLoad_no_image (himg : Config.imageFields img = none) : exec .fwLoad s = .next (s1.mboxFinish 3 []) := by
  show execFwLoad s = _
  rw [execFwLoad, mailboxRun_ready h]
  simp only [hread, himg, ite_self]

variable {version : BitVec 64} {svn writes : Nat} {accepts : List Nat} (himg : Config.imageFields img = some (version, svn, writes, accepts))
include himg

theorem exec_fwLoad_unsigned (hsig : Config.signatureOk img = false) : exec .fwLoad s = .next (s1.mboxFinish 1 []) := by
  show execFwLoad s = _
  rw [execFwLoad, mailboxRun_ready h]
  simp only [hread, himg, hsig, Option.isSome_none, Bool.false_eq_true, Bool.not_false, if_true, if_false]

/-- A signed image fills the other slot, unless its security version is below the fused minimum. -/
theorem exec_fwLoad_signed (hsig : Config.signatureOk img = true) :
    exec .fwLoad s = .next (if svn < s.fuseMinSvn then s1.mboxFinish 2 [] else ({ s1 with
      fw := amPut s.fw (1 - s.fwSlot)
        { verified := true, version := version, svn := svn, image := img, writes := writes, accepts := accepts } } : State).mboxFinish 0 []) := by
  have hkept := readPhys_physReadOf (s.commanded 6) ((s.commanded 6).mailbox.word 16 8) ((s.commanded 6).mailbox.word 24 8)
  rw [hread] at hkept
  have hfuse : s1.fuseMinSvn = s.fuseMinSvn := hkept.fuseMinSvn
  have hfw : s1.fw = s.fw := hkept.fw
  have hslot : s1.fwSlot = s.fwSlot := hkept.fwSlot
  show execFwLoad s = _
  rw [execFwLoad, mailboxRun_ready h]
  simp only [hread, himg, hsig, hfuse, hfw, hslot, Option.isSome_none, Bool.false_eq_true, Bool.not_true, if_false]

end

theorem exec_fwActivate_unverified (hv : (amGet s.fw (1 - s.fwSlot) {} : FwSlot).verified = false) :
    exec .fwActivate s = .next ((s.commanded 9).mboxFinish 1 []) := by
  show execFwActivate s = _
  rw [execFwActivate, mailboxRun_ready h]
  simp only [commanded_arg, commanded_fw, commanded_fwSlot, h.2.2, hv, Bool.not_false, Bool.false_eq_true, if_true, if_false]

/-- FW_ACTIVATE of a verified slot starts a live update. -/
theorem exec_fwActivate (hv : (amGet s.fw (1 - s.fwSlot) {} : FwSlot).verified = true) :
    exec .fwActivate s = .next (({ s.commanded 9 with update := some ⟨false, [], s.fwSlot⟩ } : State).mailboxLater .fwActivate) := by
  have hup : ((1 : Nat) == 2) = false := rfl
  show execFwActivate s = _
  rw [execFwActivate, mailboxRun_ready h]
  simp only [commanded_arg, commanded_fw, commanded_fwSlot, commanded_status, h.1, h.2.2, hv, hup, Bool.not_true, Bool.false_eq_true, if_false]

/-! ### Reports and values (R29, R377) -/

theorem exec_logRead (hctx : (s.commanded 7).mailbox.word 8 1 < 64) (halign : (s.commanded 7).mailbox.word 16 8 % 32 = 0) :
    let w (off k : Nat) : Nat := (s.commanded 7).mailbox.word off k
    let c : Ctx := amGet s.ctxs (w 8 1) {}
    let l := c.log.take (w 24 4)
    w 16 8 + 32 * l.length ≤ 2 ^ 52 → exec .logRead s = .next (({ (s.commanded 7).storeMem .m (w 16 8) (l.flatMap logBytes) with
      ctxs := amPut s.ctxs (w 8 1) { c with log := c.log.drop l.length, logDropped := 0 } } : State).mboxFinish 0
      [(32, toBytes 4 l.length), (36, toBytes 4 c.logDropped)]) := by
  intro w c l hlen
  have hargs : (decide (64 ≤ (s.commanded 7).mailbox.word 8 1) || (s.commanded 7).mailbox.word 16 8 % 32 != 0 ||
      decide (2 ^ 52 < (s.commanded 7).mailbox.word 16 8 + 32 *
        ((amGet (s.commanded 7).ctxs ((s.commanded 7).mailbox.word 8 1) {} : Ctx).log.take ((s.commanded 7).mailbox.word 24 4)).length)) = false := by
    rw [Bool.or_eq_false_iff]
    exact ⟨by simp [hctx, halign], decide_eq_false (Nat.not_lt.mpr hlen)⟩
  show execLogRead s = _
  rw [execLogRead, mailboxRun_ready h]
  simp only [hargs, State.storeMem_ctxs, Bool.false_eq_true, if_false]
  rfl

theorem exec_healthRead (halign : (s.commanded 8).mailbox.word 16 8 % 64 = 0) (hend : (s.commanded 8).mailbox.word 16 8 + 48 ≤ 2 ^ 52) :
    exec .healthRead s = .next (((s.commanded 8).storeMem .m ((s.commanded 8).mailbox.word 16 8) (healthMap s.retired)).mboxFinish 0
      [(8, toBytes 2 s.retiredCount)]) := by
  have hargs : ((s.commanded 8).mailbox.word 16 8 % 64 != 0 || decide (2 ^ 52 < (s.commanded 8).mailbox.word 16 8 + 48)) = false := by
    simp [halign]; omega
  show execHealthRead s = _
  rw [execHealthRead, mailboxRun_ready h]
  simp only [hargs, Bool.false_eq_true, if_false]
  rfl

theorem exec_configSet_bad (hbad : 7 ≤ (s.commanded 10).mailbox.word 8 1 ∨ 2 ≤ (s.commanded 10).mailbox.word 9 1) :
    exec .configSet s = .next ((s.commanded 10).mboxFinish 2 []) := by
  show execConfigSet s = _
  rw [execConfigSet, mailboxRun_ready h]
  refine congrArg Host.Outcome.next (if_pos ?_)
  simp only [Bool.or_eq_true, decide_eq_true_eq]
  exact .inl hbad

section
variable (hi : (s.commanded 10).mailbox.word 8 1 < 7)
include hi

theorem exec_configSet_get (hop : (s.commanded 10).mailbox.word 9 1 = 0) :
    exec .configSet s = .next ((s.commanded 10).mboxFinish 0 [(24, toBytes 8 (s.cfgVal ((s.commanded 10).mailbox.word 8 1)))]) := by
  have hargs : (decide (7 ≤ (s.commanded 10).mailbox.word 8 1) || decide (2 ≤ 0) || (((0 : Nat) == 1) &&
      (decide ((s.commanded 10).mailbox.word 16 8 < (Config.range ((s.commanded 10).mailbox.word 8 1)).1) ||
        decide ((Config.range ((s.commanded 10).mailbox.word 8 1)).2 < (s.commanded 10).mailbox.word 16 8)))) = false := by
    simp [hi]
  have hget : ((0 : Nat) == 1) = false := rfl
  show execConfigSet s = _
  rw [execConfigSet, mailboxRun_ready h]
  simp only [hop, hargs, Bool.false_eq_true, if_false]
  simp only [hget, Bool.false_eq_true, if_false]
  rfl

theorem exec_configSet_set (hop : (s.commanded 10).mailbox.word 9 1 = 1)
    (hlo : (Config.range ((s.commanded 10).mailbox.word 8 1)).1 ≤ (s.commanded 10).mailbox.word 16 8)
    (hhi : (s.commanded 10).mailbox.word 16 8 ≤ (Config.range ((s.commanded 10).mailbox.word 8 1)).2) :
    exec .configSet s = .next (({ s.commanded 10 with
      config := amPut s.config ((s.commanded 10).mailbox.word 8 1) ((s.commanded 10).mailbox.word 16 8) } : State).mboxFinish 0
      [(24, toBytes 8 ((s.commanded 10).mailbox.word 16 8))]) := by
  have hargs : (decide (7 ≤ (s.commanded 10).mailbox.word 8 1) || decide (2 ≤ 1) || (true &&
      (decide ((s.commanded 10).mailbox.word 16 8 < (Config.range ((s.commanded 10).mailbox.word 8 1)).1) ||
        decide ((Config.range ((s.commanded 10).mailbox.word 8 1)).2 < (s.commanded 10).mailbox.word 16 8)))) = false := by
    simp [hi, hlo, hhi]
  show execConfigSet s = _
  rw [execConfigSet, mailboxRun_ready h]
  simp only [hop, hargs, beq_self_eq_true, Bool.false_eq_true, if_true, if_false, State.cfgVal, amGet_amPut_same]
  rfl

end

theorem exec_countersRead (hq : (s.commanded 11).mailbox.word 8 1 < 64) (hctx : (s.commanded 11).mailbox.word 9 1 < 64) :
    exec .countersRead s = .next ((s.commanded 11).mboxFinish 0
      [(16, toBytes 8 (s.getQ ((s.commanded 11).mailbox.word 8 1)).ignored),
        (24, toBytes 8 (amGet s.ctxs ((s.commanded 11).mailbox.word 9 1) {} : Ctx).logDroppedAll),
        (32, toBytes 8 ((s.links.map fun x => x.2.late).sum))]) := by
  show execCountersRead s = _
  rw [execCountersRead, mailboxRun_ready h]
  simp only [Nat.not_le.mpr hq, Nat.not_le.mpr hctx, decide_false, Bool.or_self, Bool.false_eq_true, if_false]
  rfl

theorem exec_mailboxBadCode (hcode : s.arg.code = 0 ∨ 12 ≤ s.arg.code) :
    exec .mailboxBadCode s = .next ((s.commanded s.arg.code).mboxFinish 0xFF []) := by
  have hno : (decide (1 ≤ s.arg.code) && decide (s.arg.code ≤ 11)) = false := by
    rw [Bool.eq_false_iff, ne_eq, Bool.and_eq_true, decide_eq_true_eq, decide_eq_true_eq]; omega
  show execMailboxBadCode s = _
  rw [execMailboxBadCode, mailboxRun_ready h]
  simp only [hno, Bool.false_eq_true, if_false]

end

/-- After a failed bring-up FW_ACTIVATE restarts it from the other slot. -/
theorem exec_fwActivate_down {s : State} (hflag : s.arg.flag = false) (hpend : s.mailbox.pending = none) (hstatus : s.status = 2)
    (hv : (amGet s.fw (1 - s.fwSlot) {} : FwSlot).verified = true) :
    ∃ (t : State) (ok : Bool) (failed : List Nat), exec .fwActivate s = .next t ∧ t.status = 0 ∧ t.fwSlot = 1 - s.fwSlot ∧
      t.bmcSlot = 1 - s.fwSlot ∧ t.mailbox.pending = some 9 ∧ Event.mk .powerGood { flag := ok, failed := failed } ∈ t.events := by
  let r := (s.commanded 9).bringupOutcome
  refine ⟨({ r.1 with status := 0, fwSlot := 1 - s.fwSlot, bmcSlot := 1 - s.fwSlot } : State).post .powerGood { flag := r.2.1, failed := r.2.2 },
    r.2.1, r.2.2, ?_, rfl, rfl, rfl, ?_, List.mem_append_right _ (List.mem_singleton_self _)⟩
  · have hdown : ((2 : Nat) == 2) = true := rfl
    show execFwActivate s = _
    rw [execFwActivate, mailboxRun_fwActivate_down hflag hpend hstatus]
    simp only [commanded_arg, commanded_fw, commanded_fwSlot, commanded_status, hflag, hv, hstatus, hdown, Bool.not_true, Bool.false_eq_true, if_true,
      if_false]
    rfl
  · rfl

/-- A command whose image is placed mints a handle, or answers why it does not. -/
theorem exec_mint_placed {s s1 : State} {img : List Byte} {c : Nat} (h : s.Ready) (hw : (s.commanded 5).mailbox.word 8 1 = c) (hc : c < 64)
    (hlive : ((amGet s.ctxs c {} : Ctx).st == .live) = true)
    (hread : (s.commanded 5).readPhys ((s.commanded 5).mailbox.word 16 8) ((s.commanded 5).mailbox.word 24 8) = (s1, img, none))
    (hok : mintReject img = none) {p : Placement} (hp : s.mapped img [] none = some p) :
    (Placement.ok p (graphOf img) s.retired [] (amGet s.ctxs c {} : Ctx).share = false → exec .mint s = .next (s1.mboxFinish 2 [])) ∧
    (Placement.ok p (graphOf img) s.retired [] (amGet s.ctxs c {} : Ctx).share = true → 2 ^ 26 ≤ s.handleNext →
      (∀ n, n < 2 ^ 26 → ∃ x ∈ s.handles, x.1 = n) → exec .mint s = .next (s1.mboxFinish 3 [])) ∧
    (Placement.ok p (graphOf img) s.retired [] (amGet s.ctxs c {} : Ctx).share = true → s.handleNext < 2 ^ 26 →
      exec .mint s = .next (({ s1.cachePlace img p with
        handles := amPut s.handles s.handleNext
          { ctx := c, gen := (amGet s.ctxs c {} : Ctx).gen, live := true, conf := buildConf img (graphOf img) p s.retired, image := img, place := p }
        handleNext := s.handleNext + 1 } : State).mboxFinish 0
        [(8, toBytes 8 (handleWord c (amGet s.ctxs c {} : Ctx).gen s.handleNext).toNat)])) := by
  have hkept := readPhys_physReadOf (s.commanded 5) ((s.commanded 5).mailbox.word 16 8) ((s.commanded 5).mailbox.word 24 8)
  rw [hread] at hkept
  have hserial : s1.freeSerial = s.freeSerial := hkept.freeSerial
  have hretired : s1.retired = s.retired := hkept.retired
  have hctxs : s1.ctxs = s.ctxs := hkept.ctxs
  have hhandles : s1.handles = s.handles := hkept.handles
  have hnext : s1.handleNext = s.handleNext := hkept.handleNext
  have hexec := exec_mint h hw hc hlive hread hok
  simp only [hp, Option.elim] at hexec
  refine ⟨fun hno => ?_, fun hyes hfull htable => ?_, fun hyes hlt => ?_⟩
  · rw [hexec, if_neg (by simp [hno])]
  · rw [hexec, if_pos hyes, mintHandle_full c img p (hserial ▸ freeSerial_full hfull htable)]
  · rw [hexec, if_pos hyes, mintHandle_next c img p (hnext ▸ hlt), hretired, hctxs, hhandles, hnext]

/-- Settles O51: each clause is one of the equations above. -/
theorem mailboxCommandsDoTheirWork : Obligations.MailboxCommandsDoTheirWork := by
  unfold Obligations.MailboxCommandsDoTheirWork
  refine ⟨fun s hflag => ⟨fun hpend => ⟨exec_ctxKill_waits hflag hpend, exec_ctxKill_ends hflag hpend⟩, exec_invalidate_goes_on hflag,
      fun u => exec_fwActivate_goes_on hflag⟩,
    fun s => exec_fwActivate_down,
    fun s h => ⟨exec_ctxCreate_none h, fun c hc hfree hfirst => ⟨fun h1 h2 h3 h4 => ?_, (exec_ctxCreate h hc hfree hfirst).2⟩,
      ⟨exec_ctxKill_not_live h, exec_ctxKill_live h⟩,
      ⟨exec_queueBind_no_queue h, fun hn hctx hdone => exec_queueBind_unbind h hn hdone hctx,
        fun hn hctx hlive hlg hprio halign hring howner hdone => exec_queueBind h hn hdone rfl hctx hlive hlg hprio halign hring howner⟩,
      exec_invalidate h,
      ⟨exec_mint_not_live h, fun s1 img k hc hlive hread => exec_mint_unreadable h rfl hc hlive hread, fun s1 img hc hlive hread =>
        ⟨fun reason x hrej => exec_mint_reject h rfl hc hlive hread hrej, fun hok hnone => ?_,
          fun p hok hp => exec_mint_placed h rfl hc hlive hread hok hp⟩⟩,
      fun s1 img k hread => ⟨_, rfl, rfl, exec_fwLoad_unreadable h hread⟩,
      fun s1 img hread => ⟨exec_fwLoad_no_image h hread, fun version svn writes accepts himg => ⟨exec_fwLoad_unsigned h hread himg,
        fun hsig hlow => ?_, fun hsig hlow => ?_⟩⟩,
      fun hctx halign => exec_logRead h hctx halign, exec_healthRead h, exec_fwActivate_unverified h, exec_fwActivate h,
      ⟨exec_configSet_bad h, exec_configSet_get h, exec_configSet_set h⟩,
      fun hq hctx => ⟨_, exec_countersRead h hq hctx⟩, exec_mailboxBadCode h⟩⟩
  · refine (exec_ctxCreate h hc hfree hfirst).1 ?_
    rintro (hroot | hroot | hpasid | hshare)
    · exact hroot h1
    · exact Nat.not_le.mpr h2 hroot
    · exact Nat.not_le.mpr h3 hpasid
    · exact Nat.not_lt.mpr h4 hshare
  · have hexec := exec_mint h rfl hc hlive hread hok
    simpa only [hnone, Option.elim] using hexec
  · rw [exec_fwLoad_signed h hread himg hsig, if_pos hlow]
  · rw [exec_fwLoad_signed h hread himg hsig, if_neg (Nat.not_lt.mpr hlow)]

end Sys2Proof.Machine
end

section
/-!
PROOFS. A word decodes to an instruction exactly where it is that instruction's word: S-words (O54), E-words (O55), words written out from
the spec (O56).
-/

namespace Sys2Proof

/-! ### Words by their fields (R36)

A word is what an encoder makes of some fields exactly where it has these fields. -/

theorem encodes_RR_iff {op : BitVec 6} {d a b : RegNum} {g : Guard} {fn : BitVec 7} {w : Word} : some (encRR op d a b g fn) = some w ↔
    fld w 26 6 = op ∧ fld w 21 5 = d ∧ fld w 16 5 = a ∧ fld w 11 5 = b ∧ guardRR w = g ∧ fld w 0 7 = fn := by
  constructor
  · rintro ⟨⟩; exact fields_RR ..
  · rintro ⟨rfl, rfl, rfl, rfl, rfl, rfl⟩; exact congrArg some (join_RR w)

theorem encodes_RI_iff {op : BitVec 6} {d a : RegNum} {g : Guard} {imm : BitVec 12} {w : Word} : some (encRI op d a g imm) = some w ↔
    fld w 26 6 = op ∧ fld w 21 5 = d ∧ fld w 16 5 = a ∧ guardRI w = g ∧ fld w 0 12 = imm := by
  constructor
  · rintro ⟨⟩; exact fields_RI ..
  · rintro ⟨rfl, rfl, rfl, rfl, rfl⟩; exact congrArg some (join_RI w)

theorem encodes_MEM_iff {op : BitVec 6} {d a : RegNum} {g : Guard} {sz : BitVec 2} {off : BitVec 10} {w : Word} :
    some (encMEM op d a g sz off) = some w ↔
      fld w 26 6 = op ∧ fld w 21 5 = d ∧ fld w 16 5 = a ∧ guardRI w = g ∧ fld w 10 2 = sz ∧ fld w 0 10 = off := by
  constructor
  · rintro ⟨⟩; exact fields_MEM ..
  · rintro ⟨rfl, rfl, rfl, rfl, rfl, rfl⟩; exact congrArg some (join_MEM w)

theorem encodes_LI_iff {op : BitVec 6} {d : RegNum} {imm : BitVec 21} {w : Word} :
    some (encLI op d imm) = some w ↔ fld w 26 6 = op ∧ fld w 21 5 = d ∧ fld w 0 21 = imm := by
  constructor
  · rintro ⟨⟩; exact fields_LI ..
  · rintro ⟨rfl, rfl, rfl⟩; exact congrArg some (join_LI w)

theorem encodes_BR_iff {op : BitVec 6} {g : Guard} {off : BitVec 22} {w : Word} :
    some (encBR op g off) = some w ↔ fld w 26 6 = op ∧ guardBR w = g ∧ fld w 0 22 = off := by
  constructor
  · rintro ⟨⟩; exact fields_BR ..
  · rintro ⟨rfl, rfl, rfl⟩; exact congrArg some (join_BR w)

theorem encodes_ENG_iff {op : BitVec 6} {q : BitVec 4} {a b : RegNum} {g : Guard} {fn : BitVec 8} {w : Word} :
    some (encENG op q a b g fn) = some w ↔
      fld w 26 6 = op ∧ fld w 22 4 = q ∧ fld w 17 5 = a ∧ fld w 12 5 = b ∧ guardENG w = g ∧ fld w 0 8 = fn := by
  constructor
  · rintro ⟨⟩; exact fields_ENG ..
  · rintro ⟨rfl, rfl, rfl, rfl, rfl, rfl⟩; exact congrArg some (join_ENG w)

/-- A field of two joined parts is read part by part. -/
theorem fld_eq_append_iff {w : Word} {lo m n : Nat} {x : BitVec m} {y : BitVec n} :
    fld w lo (m + n) = x ++ y ↔ fld w (lo + n) m = x ∧ fld w lo n = y := by
  rw [fld, ← fld_join w lo m n]
  constructor
  · intro h
    have hhi := congrArg (BitVec.extractLsb' n m) h
    have hlo := congrArg (BitVec.extractLsb' 0 n) h
    rw [fld_append_hi _ _ n m (Nat.le_refl n), fld_append_hi _ _ n m (Nat.le_refl n), Nat.sub_self, fld_whole, fld_whole] at hhi
    rw [fld_append_lo _ _ 0 n (by omega), fld_append_lo _ _ 0 n (by omega), fld_whole, fld_whole] at hlo
    exact ⟨hhi, hlo⟩
  · rintro ⟨rfl, rfl⟩
    rfl

/-- Reserved bits that span two fields are zero where both fields are. -/
theorem fld_eq_zero_iff {w : Word} {lo m n : Nat} : fld w lo (m + n) = 0#(m + n) ↔ fld w (lo + n) m = 0#m ∧ fld w lo n = 0#n := by
  rw [← fld_eq_append_iff, BitVec.zero_append_zero]

/-- Fields d and a of an RI word. -/
theorem fld_da_eq_zero_iff {w : Word} : fld w 16 10 = 0#10 ↔ fld w 21 5 = 0#5 ∧ fld w 16 5 = 0#5 := fld_eq_zero_iff (m := 5) (n := 5)

/-- Fields a and b of an RR word. -/
theorem fld_ab_eq_zero_iff {w : Word} : fld w 11 10 = 0#10 ↔ fld w 16 5 = 0#5 ∧ fld w 11 5 = 0#5 := fld_eq_zero_iff (m := 5) (n := 5)

/-- Fields a and b of an ENG word. -/
theorem fld_eaeb_eq_zero_iff {w : Word} : fld w 12 10 = 0#10 ↔ fld w 17 5 = 0#5 ∧ fld w 12 5 = 0#5 := fld_eq_zero_iff (m := 5) (n := 5)

/-- Fields q, a and b of an ENG word. -/
theorem fld_qeaeb_eq_zero_iff {w : Word} : fld w 12 14 = 0#14 ↔ fld w 22 4 = 0#4 ∧ fld w 17 5 = 0#5 ∧ fld w 12 5 = 0#5 :=
  (fld_eq_zero_iff (m := 4) (n := 10)).trans (and_congr Iff.rfl fld_eaeb_eq_zero_iff)

theorem fld_eq_pField_iff {w : Word} {lo : Nat} {p : PredNum} : fld w lo 5 = pField p ↔ fld w (lo + 3) 2 = 0 ∧ fld w lo 3 = p :=
  fld_eq_append_iff (m := 2) (n := 3)

/-! ### Codes, and bits as truth values -/

theorem condI_ofCode_eq_iff {x : BitVec 2} {c : CondI} : x = c.code ↔ CondI.ofCode x = c :=
  ⟨fun h => h ▸ condI_ofCode_code c, fun h => h ▸ (condI_code_ofCode x).symm⟩

theorem amoOp_ofCode_eq_iff {x : BitVec 4} {op : AmoOp} : x = op.code ↔ AmoOp.ofCode x = some op := by
  revert x; cases op <;> decide

theorem fenceKind_ofCode_eq_iff {x : BitVec 2} {k : FenceKind} : x = k.code ↔ FenceKind.ofCode x = some k := by
  revert x; cases k <;> decide

theorem scope_ofCode_eq_iff {x : BitVec 3} {sc : Scope} : x = sc.code ↔ Scope.ofCode x = some sc := by
  revert x; cases sc <;> decide

theorem collOp_ofCode_eq_iff {x : BitVec 2} {op : CollOp} : x = op.code ↔ CollOp.ofCode x = some op := by
  revert x; cases op <;> decide

theorem eq_ofBool_iff {x : BitVec 1} {b : Bool} : x = BitVec.ofBool b ↔ (x == 1) = b := by
  revert x; cases b <;> decide

/-! ### S-words -/

theorem rsvdZero_eq_ok {c : Bool} {i j : Instr} : rsvdZero c i = .ok j ↔ c = true ∧ i = j := by
  cases c <;> simp [rsvdZero]

/-- An atomic whose fields are those of its word. -/
theorem decodeAmo_of_fields {op : AmoOp} {d a : RegNum} {dbl : Bool} {off : BitVec 6} {g : Guard} {w : Word}
    (k : AmoOp → RegNum → RegNum → Bool → BitVec 6 → Guard → Instr) (hok : (!(op == .cas && d == 31)) = true)
    (hd : fld w 21 5 = d) (ha : fld w 16 5 = a) (hg : guardRI w = g)
    (hsz : fld w 10 2 = (1 : BitVec 1) ++ BitVec.ofBool dbl) (hoff : fld w 0 10 = op.code ++ off) :
    decodeAmo w k = .ok (k op d a dbl off g) := by
  obtain ⟨hone, hdbl⟩ := (fld_eq_append_iff (m := 1) (n := 1)).1 hsz
  obtain ⟨hopc, hoff⟩ := (fld_eq_append_iff (m := 4) (n := 6)).1 hoff
  simp only [decodeAmo, amoOp_ofCode_eq_iff.1 hopc, eq_ofBool_iff.1 hdbl, hd, ha, hg, hoff, hone]
  exact rsvdZero_eq_ok.2 ⟨hok, rfl⟩

/-- The word of an instruction without reserved content decodes to it: the bits that the instruction fixes choose its branch of the decoder,
and the branch gives the other fields back. -/
theorem decodeS_encodeS {i : Instr} {w : Word} (h : encodeS i = some w) (hok : i.sOk = true) : decodeS w = .ok i := by
  unfold decodeS
  cases i
  case add | sub | and | or | xor | andn | shl | shr | sra | rol | ror | min | max | minn | maxn | sel | addw | subw =>
    obtain ⟨hop, rfl, rfl, rfl, rfl, hfn⟩ := encodes_RR_iff.1 h
    rw [hop]
    unfold decodeAlu
    rw [hfn]
    rfl
  case clz | ctz | popc | sext8 | sext16 | sext32 | zext8 | zext16 | zext32 | mov | abs | neg =>
    obtain ⟨hop, rfl, rfl, hb, rfl, hfn⟩ := encodes_RR_iff.1 h
    rw [hop]
    unfold decodeAlu
    rw [hfn, hb]
    rfl
  case mul | mulh | mulhn | div | divn | rem | remn | mulw =>
    obtain ⟨hop, rfl, rfl, rfl, rfl, hfn⟩ := encodes_RR_iff.1 h
    rw [hop]
    unfold decodeMulDiv
    rw [hfn]
    rfl
  case cmp =>
    obtain ⟨hop, hd, rfl, rfl, rfl, hfn⟩ := encodes_RR_iff.1 h
    obtain ⟨hz, rfl⟩ := fld_eq_pField_iff.1 hd
    obtain ⟨hz2, hc⟩ := (fld_eq_append_iff (m := 4) (n := 3)).1 hfn
    rw [hop]
    exact (if_pos ⟨hz, hz2⟩).trans (by rw [hc, cond_ofCode_code])
  case cmpi =>
    obtain ⟨hop, hd, rfl, rfl, rfl⟩ := encodes_RI_iff.1 h
    obtain ⟨hc, rfl⟩ := (fld_eq_append_iff (m := 2) (n := 3)).1 hd
    rw [hop, ← condI_ofCode_eq_iff.1 hc]
    rfl
  case pand | por | pxor | pandn =>
    obtain ⟨hop, hd, ha, hb, rfl, hfn⟩ := encodes_RR_iff.1 h
    obtain ⟨hdz, rfl⟩ := fld_eq_pField_iff.1 hd
    obtain ⟨haz, rfl⟩ := fld_eq_pField_iff.1 ha
    obtain ⟨hbz, rfl⟩ := fld_eq_pField_iff.1 hb
    rw [hop]
    unfold decodePred
    rw [hfn, hdz, haz, hbz]
    rfl
  case pnot | pmov =>
    obtain ⟨hop, hd, ha, hb, rfl, hfn⟩ := encodes_RR_iff.1 h
    obtain ⟨hdz, rfl⟩ := fld_eq_pField_iff.1 hd
    obtain ⟨haz, rfl⟩ := fld_eq_pField_iff.1 ha
    rw [hop]
    unfold decodePred
    rw [hfn, hdz, haz, hb]
    rfl
  case pset | pclr =>
    obtain ⟨hop, hd, ha, hb, rfl, hfn⟩ := encodes_RR_iff.1 h
    obtain ⟨hdz, rfl⟩ := fld_eq_pField_iff.1 hd
    rw [hop]
    unfold decodePred
    rw [hfn, hdz, fld_ab_eq_zero_iff.2 ⟨ha, hb⟩]
    rfl
  case addi | andi | ori | xori | shli | shri | srai | muli =>
    obtain ⟨hop, rfl, rfl, rfl, rfl⟩ := encodes_RI_iff.1 h
    rw [hop]
    rfl
  case sysc | trap =>
    obtain ⟨hop, rfl, ha, rfl, rfl⟩ := encodes_RI_iff.1 h
    rw [hop, ha]
    rfl
  case brk =>
    obtain ⟨hop, hd, ha, rfl, rfl⟩ := encodes_RI_iff.1 h
    rw [hop, fld_da_eq_zero_iff.2 ⟨hd, ha⟩]
    rfl
  case fin | ckpt | halt =>
    obtain ⟨hop, hd, ha, rfl, himm⟩ := encodes_RI_iff.1 h
    rw [hop, fld_da_eq_zero_iff.2 ⟨hd, ha⟩, himm]
    rfl
  case mfs =>
    obtain ⟨hop, rfl, ha, rfl, rfl⟩ := encodes_RI_iff.1 h
    rw [hop, ha]
    exact rsvdZero_eq_ok.2 ⟨hok, rfl⟩
  case loopn =>
    obtain ⟨hop, hd, rfl, rfl, rfl⟩ := encodes_RI_iff.1 h
    rw [hop, hd]
    exact rsvdZero_eq_ok.2 ⟨hok, rfl⟩
  case mts =>
    obtain ⟨hop, hd, rfl, rfl, rfl⟩ := encodes_RI_iff.1 h
    rw [hop]
    exact if_pos ⟨hd, hok⟩
  case taga | tagf =>
    obtain ⟨hop, rfl, ha, rfl, himm⟩ := encodes_RI_iff.1 h
    obtain ⟨hz, rfl⟩ := (fld_eq_append_iff (m := 8) (n := 4)).1 himm
    rw [hop, ha, hz]
    rfl
  case fence =>
    obtain ⟨hop, hd, ha, rfl, himm⟩ := encodes_RI_iff.1 h
    obtain ⟨hhi, rfl⟩ := (fld_eq_append_iff (m := 7) (n := 5)).1 himm
    obtain ⟨htop, hk⟩ := (fld_eq_append_iff (m := 5) (n := 2)).1 hhi
    obtain ⟨hz, hsc⟩ := (fld_eq_append_iff (m := 2) (n := 3)).1 htop
    rw [hop]
    unfold decodeFence
    rw [fenceKind_ofCode_eq_iff.1 hk, scope_ofCode_eq_iff.1 hsc, fld_da_eq_zero_iff.2 ⟨hd, ha⟩, hz]
    rfl
  case li | lui | luih | jal =>
    obtain ⟨hop, rfl, rfl⟩ := encodes_LI_iff.1 h
    rw [hop]
    rfl
  case br =>
    obtain ⟨hop, rfl, rfl⟩ := encodes_BR_iff.1 h
    rw [hop]
    rfl
  case jr =>
    obtain ⟨hop, rfl, rfl, hb, rfl, hfn⟩ := encodes_RR_iff.1 h
    rw [hop, hb, hfn]
    rfl
  case ldl | stl | ldf | stf | lds | sts =>
    obtain ⟨hop, rfl, rfl, rfl, rfl, rfl⟩ := encodes_MEM_iff.1 h
    rw [hop]
    rfl
  case cbrd | cbwr =>
    obtain ⟨hop, rfl, rfl, rfl, rfl, hoff⟩ := encodes_MEM_iff.1 h
    obtain ⟨rfl, rfl⟩ := (fld_eq_append_iff (m := 4) (n := 6)).1 hoff
    rw [hop]
    rfl
  case amof | amos =>
    obtain ⟨hop, hd, ha, hg, hsz, hoff⟩ := encodes_MEM_iff.1 h
    rw [hop]
    exact decodeAmo_of_fields _ hok hd ha hg hsz hoff
  case gath | scat | enq =>
    obtain ⟨hop, rfl, rfl, rfl, rfl, hfn⟩ := encodes_ENG_iff.1 h
    rw [hop, hfn]
    rfl
  case tset | tqry =>
    obtain ⟨hop, hq, rfl, rfl, rfl, hfn⟩ := encodes_ENG_iff.1 h
    rw [hop, hq, hfn]
    rfl
  case seed =>
    obtain ⟨hop, rfl, rfl, hb, rfl, hfn⟩ := encodes_ENG_iff.1 h
    rw [hop, hb, hfn]
    rfl
  case commit =>
    obtain ⟨hop, hq, rfl, hb, rfl, hfn⟩ := encodes_ENG_iff.1 h
    rw [hop, hq, hb, hfn]
    rfl
  case siginc | sigdec | sigset =>
    obtain ⟨hop, rfl, rfl, rfl, rfl, hfn⟩ := encodes_ENG_iff.1 h
    rw [hop]
    unfold decodeSigop
    rw [hfn]
    rfl
  case hmask | hunmask =>
    obtain ⟨hop, hq, ha, hb, rfl, rfl⟩ := encodes_ENG_iff.1 h
    rw [hop, fld_qeaeb_eq_zero_iff.2 ⟨hq, ha, hb⟩]
    rfl
  case qfence =>
    obtain ⟨hop, rfl, ha, hb, rfl, rfl⟩ := encodes_ENG_iff.1 h
    rw [hop, fld_eaeb_eq_zero_iff.2 ⟨ha, hb⟩]
    rfl
  case advp | advc =>
    obtain ⟨hop, rfl, ha, hb, rfl, rfl⟩ := encodes_ENG_iff.1 h
    rw [hop, fld_eaeb_eq_zero_iff.2 ⟨ha, hb⟩]
    exact rsvdZero_eq_ok.2 ⟨hok, rfl⟩
  case send =>
    obtain ⟨hop, hq, rfl, rfl, rfl, hfn⟩ := encodes_ENG_iff.1 h
    obtain ⟨hz, rfl⟩ := (fld_eq_append_iff (m := 1) (n := 3)).1 hq
    rw [hop, hz, hfn]
    rfl
  case bind =>
    obtain ⟨hop, hq, ha, hb, rfl, hfn⟩ := encodes_ENG_iff.1 h
    obtain ⟨hqz, rfl⟩ := (fld_eq_append_iff (m := 1) (n := 3)).1 hq
    obtain ⟨haz, rfl⟩ := (fld_eq_append_iff (m := 1) (n := 4)).1 ha
    rw [hop, hqz, haz, hb, hfn]
    rfl
  case cpy =>
    obtain ⟨hop, rfl, rfl, rfl, rfl, hfn⟩ := encodes_ENG_iff.1 h
    obtain ⟨hz, hclr⟩ := (fld_eq_append_iff (m := 7) (n := 1)).1 hfn
    rw [hop, hz, ← eq_ofBool_iff.1 hclr]
    rfl
  case coll =>
    obtain ⟨hop, rfl, rfl, rfl, rfl, hfn⟩ := encodes_ENG_iff.1 h
    obtain ⟨hz, hco⟩ := (fld_eq_append_iff (m := 6) (n := 2)).1 hfn
    rw [hop]
    unfold decodeColl
    rw [collOp_ofCode_eq_iff.1 hco, hz]
    rfl
  case cfgld =>
    obtain ⟨hop, rfl, rfl, rfl, rfl, hfn⟩ := encodes_ENG_iff.1 h
    obtain ⟨hz, rfl⟩ := (fld_eq_append_iff (m := 4) (n := 4)).1 hfn
    rw [hop, hz]
    rfl
  all_goals exact nomatch h

theorem fld_of_toNat {w : Word} {lo len n : Nat} (h : (fld w lo len).toNat = n) : fld w lo len = BitVec.ofNat len n := by
  rw [← h, BitVec.ofNat_toNat, BitVec.setWidth_eq]

/-- The word is the instruction's, and the instruction has no reserved content. -/
def Instr.Spells (i : Instr) (w : Word) : Prop := encodeS i = some w ∧ i.sOk = true

theorem decodeAlu_spells {w : Word} {i : Instr} (hop : fld w 26 6 = 0) (h : decodeAlu w = .ok i) : i.Spells w := by
  unfold decodeAlu at h
  split at h
  case h_17 hfn | h_18 hfn | h_19 hfn | h_20 hfn | h_21 hfn | h_22 hfn | h_23 hfn | h_24 hfn | h_25 hfn | h_26 hfn | h_27 hfn | h_28 hfn =>
    obtain ⟨hb, rfl⟩ := rsvdZero_eq_ok.1 h
    exact ⟨encodes_RR_iff.2 ⟨hop, rfl, rfl, beq_iff_eq.1 hb, rfl, fld_of_toNat hfn⟩, rfl⟩
  case h_31 => cases h
  all_goals
    cases h
    exact ⟨encodes_RR_iff.2 ⟨hop, rfl, rfl, rfl, rfl, fld_of_toNat ‹_›⟩, rfl⟩

theorem decodeMulDiv_spells {w : Word} {i : Instr} (hop : fld w 26 6 = 1) (h : decodeMulDiv w = .ok i) : i.Spells w := by
  unfold decodeMulDiv at h
  split at h
  case h_9 => cases h
  all_goals
    cases h
    exact ⟨encodes_RR_iff.2 ⟨hop, rfl, rfl, rfl, rfl, fld_of_toNat ‹_›⟩, rfl⟩

theorem decodeCmp_spells {w : Word} {i : Instr} (hop : fld w 26 6 = 2) (h : decodeCmp w = .ok i) : i.Spells w := by
  unfold decodeCmp at h
  split at h
  case isTrue hz =>
    obtain ⟨hd, hfn⟩ := hz
    cases h
    exact ⟨encodes_RR_iff.2 ⟨hop, fld_eq_pField_iff.2 ⟨hd, rfl⟩, rfl, rfl, rfl,
      (fld_eq_append_iff (m := 4) (n := 3)).2 ⟨hfn, (cond_code_ofCode _).symm⟩⟩, rfl⟩
  case isFalse => cases h

theorem decodePred_spells {w : Word} {i : Instr} (hop : fld w 26 6 = 3) (h : decodePred w = .ok i) : i.Spells w := by
  unfold decodePred at h
  split at h
  case h_1 hfn | h_2 hfn | h_3 hfn | h_4 hfn =>
    obtain ⟨hz, rfl⟩ := rsvdZero_eq_ok.1 h
    simp only [Bool.and_eq_true, beq_iff_eq] at hz
    obtain ⟨⟨hd, ha⟩, hb⟩ := hz
    exact ⟨encodes_RR_iff.2 ⟨hop, fld_eq_pField_iff.2 ⟨hd, rfl⟩, fld_eq_pField_iff.2 ⟨ha, rfl⟩,
      fld_eq_pField_iff.2 ⟨hb, rfl⟩, rfl, fld_of_toNat hfn⟩, rfl⟩
  case h_5 hfn | h_6 hfn =>
    obtain ⟨hz, rfl⟩ := rsvdZero_eq_ok.1 h
    simp only [Bool.and_eq_true, beq_iff_eq] at hz
    obtain ⟨⟨hd, ha⟩, hb⟩ := hz
    exact ⟨encodes_RR_iff.2 ⟨hop, fld_eq_pField_iff.2 ⟨hd, rfl⟩, fld_eq_pField_iff.2 ⟨ha, rfl⟩, hb, rfl,
      fld_of_toNat hfn⟩, rfl⟩
  case h_7 hfn | h_8 hfn =>
    obtain ⟨hz, rfl⟩ := rsvdZero_eq_ok.1 h
    simp only [Bool.and_eq_true, beq_iff_eq] at hz
    obtain ⟨hd, hab⟩ := hz
    obtain ⟨ha, hb⟩ := fld_ab_eq_zero_iff.1 hab
    exact ⟨encodes_RR_iff.2 ⟨hop, fld_eq_pField_iff.2 ⟨hd, rfl⟩, ha, hb, rfl, fld_of_toNat hfn⟩, rfl⟩
  case h_9 => cases h

theorem decodeFence_spells {w : Word} {i : Instr} (hop : fld w 26 6 = 0x18) (h : decodeFence w = .ok i) : i.Spells w := by
  unfold decodeFence at h
  split at h
  case h_1 k sc hk hsc =>
    obtain ⟨hz, rfl⟩ := rsvdZero_eq_ok.1 h
    simp only [Bool.and_eq_true, beq_iff_eq] at hz
    obtain ⟨hda, htop⟩ := hz
    obtain ⟨hd, ha⟩ := fld_da_eq_zero_iff.1 hda
    have htop := (fld_eq_append_iff (w := w) (lo := 7) (m := 2) (n := 3)).2 ⟨htop, scope_ofCode_eq_iff.2 hsc⟩
    have hhi := (fld_eq_append_iff (w := w) (lo := 5) (m := 5) (n := 2)).2 ⟨htop, fenceKind_ofCode_eq_iff.2 hk⟩
    exact ⟨encodes_RI_iff.2 ⟨hop, hd, ha, rfl, (fld_eq_append_iff (m := 7) (n := 5)).2 ⟨hhi, rfl⟩⟩, rfl⟩
  case h_2 => cases h

/-- An atomic that decodes has its fields in its word, and is no CAS into s31. -/
theorem decodeAmo_eq_ok {w : Word} {k : AmoOp → RegNum → RegNum → Bool → BitVec 6 → Guard → Instr} {i : Instr} (h : decodeAmo w k = .ok i) :
    ∃ (op : AmoOp) (dbl : Bool), i = k op (fld w 21 5) (fld w 16 5) dbl (fld w 0 6) (guardRI w) ∧ (!(op == .cas && fld w 21 5 == 31)) = true ∧
      fld w 10 2 = (1 : BitVec 1) ++ BitVec.ofBool dbl ∧ fld w 0 10 = op.code ++ fld w 0 6 := by
  unfold decodeAmo at h
  split at h
  case h_1 => cases h
  case h_2 op hopc =>
    obtain ⟨hz, rfl⟩ := rsvdZero_eq_ok.1 h
    obtain ⟨hone, hcas⟩ := Bool.and_eq_true_iff.1 hz
    exact ⟨op, _, rfl, hcas, (fld_eq_append_iff (m := 1) (n := 1)).2 ⟨beq_iff_eq.1 hone, eq_ofBool_iff.2 rfl⟩,
      (fld_eq_append_iff (m := 4) (n := 6)).2 ⟨amoOp_ofCode_eq_iff.2 hopc, rfl⟩⟩

theorem decodeColl_spells {w : Word} {i : Instr} (hop : fld w 26 6 = 0x2D) (h : decodeColl w = .ok i) : i.Spells w := by
  unfold decodeColl at h
  split at h
  case h_1 op hco =>
    obtain ⟨hz, rfl⟩ := rsvdZero_eq_ok.1 h
    exact ⟨encodes_ENG_iff.2 ⟨hop, rfl, rfl, rfl, rfl,
      (fld_eq_append_iff (m := 6) (n := 2)).2 ⟨beq_iff_eq.1 hz, collOp_ofCode_eq_iff.2 hco⟩⟩, rfl⟩
  case h_2 => cases h

theorem decodeSigop_spells {w : Word} {i : Instr} (hop : fld w 26 6 = 0x2F) (h : decodeSigop w = .ok i) : i.Spells w := by
  unfold decodeSigop at h
  split at h
  case h_4 => cases h
  all_goals
    cases h
    exact ⟨encodes_ENG_iff.2 ⟨hop, rfl, rfl, rfl, rfl, fld_of_toNat ‹_›⟩, rfl⟩

theorem decodeMts_spells {w : Word} {i : Instr} (hop : fld w 26 6 = 0x39) (h : decodeMts w = .ok i) : i.Spells w := by
  simp only [decodeMts] at h
  split at h
  case isTrue hz =>
    obtain ⟨hd, hidx⟩ := hz
    cases h
    exact ⟨encodes_RI_iff.2 ⟨hop, hd, rfl, rfl, rfl⟩, hidx⟩
  case isFalse => cases h

/-- An S-word that decodes is the word of what it decodes to, branch by branch of the decoder. -/
theorem decodeS_spells {w : Word} {i : Instr} (h : decodeS w = .ok i) : i.Spells w := by
  unfold decodeS at h
  split at h
  -- ALU, MULDIV, CMP, PRED
  case h_1 hop => exact decodeAlu_spells (fld_of_toNat hop) h
  case h_2 hop => exact decodeMulDiv_spells (fld_of_toNat hop) h
  case h_3 hop => exact decodeCmp_spells (fld_of_toNat hop) h
  case h_4 hop => exact decodePred_spells (fld_of_toNat hop) h
  -- ADDI, ANDI, ORI, XORI, SHLI, SHRI, SRAI, MULI
  case h_5 hop | h_6 hop | h_7 hop | h_8 hop | h_9 hop | h_10 hop | h_11 hop | h_16 hop =>
    cases h
    exact ⟨encodes_RI_iff.2 ⟨fld_of_toNat hop, rfl, rfl, rfl, rfl⟩, rfl⟩
  -- CMPI
  case h_12 hop =>
    cases h
    exact ⟨encodes_RI_iff.2 ⟨fld_of_toNat hop,
      (fld_eq_append_iff (m := 2) (n := 3)).2 ⟨(condI_code_ofCode _).symm, rfl⟩, rfl, rfl, rfl⟩, rfl⟩
  -- LI, LUI, LUIH, JAL
  case h_13 hop | h_14 hop | h_15 hop | h_27 hop =>
    cases h
    exact ⟨encodes_LI_iff.2 ⟨fld_of_toNat hop, rfl, rfl⟩, rfl⟩
  -- LDL, STL, LDF, STF, LDS, STS
  case h_17 hop | h_18 hop | h_19 hop | h_20 hop | h_21 hop | h_22 hop =>
    cases h
    exact ⟨encodes_MEM_iff.2 ⟨fld_of_toNat hop, rfl, rfl, rfl, rfl, rfl⟩, rfl⟩
  -- AMOF, AMOS
  case h_23 hop | h_24 hop =>
    obtain ⟨op, dbl, rfl, hcas, hsz, hoff⟩ := decodeAmo_eq_ok h
    exact ⟨encodes_MEM_iff.2 ⟨fld_of_toNat hop, rfl, rfl, rfl, hsz, hoff⟩, hcas⟩
  case h_25 hop => exact decodeFence_spells (fld_of_toNat hop) h
  -- BR
  case h_26 hop =>
    cases h
    exact ⟨encodes_BR_iff.2 ⟨fld_of_toNat hop, rfl, rfl⟩, rfl⟩
  -- JR
  case h_28 hop =>
    obtain ⟨hz, rfl⟩ := rsvdZero_eq_ok.1 h
    obtain ⟨hb, hfn⟩ := Bool.and_eq_true_iff.1 hz
    exact ⟨encodes_RR_iff.2 ⟨fld_of_toNat hop, rfl, rfl, beq_iff_eq.1 hb, rfl, beq_iff_eq.1 hfn⟩, rfl⟩
  -- LOOPN
  case h_29 hop =>
    obtain ⟨hz, rfl⟩ := rsvdZero_eq_ok.1 h
    obtain ⟨hd, hlen⟩ := Bool.and_eq_true_iff.1 hz
    exact ⟨encodes_RI_iff.2 ⟨fld_of_toNat hop, beq_iff_eq.1 hd, rfl, rfl, rfl⟩, hlen⟩
  -- ADVP, ADVC
  case h_30 hop | h_31 hop =>
    obtain ⟨hz, rfl⟩ := rsvdZero_eq_ok.1 h
    obtain ⟨hab, hn⟩ := Bool.and_eq_true_iff.1 hz
    obtain ⟨ha, hb⟩ := fld_eaeb_eq_zero_iff.1 (beq_iff_eq.1 hab)
    exact ⟨encodes_ENG_iff.2 ⟨fld_of_toNat hop, rfl, ha, hb, rfl, rfl⟩, hn⟩
  -- CBRD, CBWR
  case h_32 hop | h_33 hop =>
    cases h
    exact ⟨encodes_MEM_iff.2 ⟨fld_of_toNat hop, rfl, rfl, rfl, rfl, (fld_eq_append_iff (m := 4) (n := 6)).2 ⟨rfl, rfl⟩⟩, rfl⟩
  -- SEND
  case h_34 hop =>
    obtain ⟨hz, rfl⟩ := rsvdZero_eq_ok.1 h
    obtain ⟨hq, hfn⟩ := Bool.and_eq_true_iff.1 hz
    exact ⟨encodes_ENG_iff.2 ⟨fld_of_toNat hop, (fld_eq_append_iff (m := 1) (n := 3)).2 ⟨beq_iff_eq.1 hq, rfl⟩, rfl, rfl, rfl,
      beq_iff_eq.1 hfn⟩, rfl⟩
  -- BIND
  case h_35 hop =>
    obtain ⟨hz, rfl⟩ := rsvdZero_eq_ok.1 h
    simp only [Bool.and_eq_true, beq_iff_eq] at hz
    obtain ⟨⟨⟨hq, ha⟩, hb⟩, hfn⟩ := hz
    exact ⟨encodes_ENG_iff.2 ⟨fld_of_toNat hop, (fld_eq_append_iff (m := 1) (n := 3)).2 ⟨hq, rfl⟩,
      (fld_eq_append_iff (m := 1) (n := 4)).2 ⟨ha, rfl⟩, hb, rfl, hfn⟩, rfl⟩
  -- HMASK, HUNMASK
  case h_36 hop | h_37 hop =>
    obtain ⟨hz, rfl⟩ := rsvdZero_eq_ok.1 h
    obtain ⟨hq, ha, hb⟩ := fld_qeaeb_eq_zero_iff.1 (beq_iff_eq.1 hz)
    exact ⟨encodes_ENG_iff.2 ⟨fld_of_toNat hop, hq, ha, hb, rfl, rfl⟩, rfl⟩
  -- TAGA, TAGF
  case h_38 hop | h_39 hop =>
    obtain ⟨hz, rfl⟩ := rsvdZero_eq_ok.1 h
    obtain ⟨ha, himm⟩ := Bool.and_eq_true_iff.1 hz
    exact ⟨encodes_RI_iff.2 ⟨fld_of_toNat hop, rfl, beq_iff_eq.1 ha, rfl,
      (fld_eq_append_iff (m := 8) (n := 4)).2 ⟨beq_iff_eq.1 himm, rfl⟩⟩, rfl⟩
  -- CPY
  case h_40 hop =>
    obtain ⟨hz, rfl⟩ := rsvdZero_eq_ok.1 h
    exact ⟨encodes_ENG_iff.2 ⟨fld_of_toNat hop, rfl, rfl, rfl, rfl,
      (fld_eq_append_iff (m := 7) (n := 1)).2 ⟨beq_iff_eq.1 hz, eq_ofBool_iff.2 rfl⟩⟩, rfl⟩
  -- GATH, SCAT, ENQ
  case h_41 hop | h_42 hop | h_50 hop =>
    obtain ⟨hz, rfl⟩ := rsvdZero_eq_ok.1 h
    exact ⟨encodes_ENG_iff.2 ⟨fld_of_toNat hop, rfl, rfl, rfl, rfl, beq_iff_eq.1 hz⟩, rfl⟩
  case h_43 hop => exact decodeColl_spells (fld_of_toNat hop) h
  -- QFENCE
  case h_44 hop =>
    obtain ⟨hz, rfl⟩ := rsvdZero_eq_ok.1 h
    obtain ⟨ha, hb⟩ := fld_eaeb_eq_zero_iff.1 (beq_iff_eq.1 hz)
    exact ⟨encodes_ENG_iff.2 ⟨fld_of_toNat hop, rfl, ha, hb, rfl, rfl⟩, rfl⟩
  case h_45 hop => exact decodeSigop_spells (fld_of_toNat hop) h
  -- TSET, TQRY
  case h_46 hop | h_47 hop =>
    obtain ⟨hz, rfl⟩ := rsvdZero_eq_ok.1 h
    obtain ⟨hq, hfn⟩ := Bool.and_eq_true_iff.1 hz
    exact ⟨encodes_ENG_iff.2 ⟨fld_of_toNat hop, beq_iff_eq.1 hq, rfl, rfl, rfl, beq_iff_eq.1 hfn⟩, rfl⟩
  -- CFGLD
  case h_48 hop =>
    obtain ⟨hz, rfl⟩ := rsvdZero_eq_ok.1 h
    exact ⟨encodes_ENG_iff.2 ⟨fld_of_toNat hop, rfl, rfl, rfl, rfl,
      (fld_eq_append_iff (m := 4) (n := 4)).2 ⟨beq_iff_eq.1 hz, rfl⟩⟩, rfl⟩
  -- SEED
  case h_49 hop =>
    obtain ⟨hz, rfl⟩ := rsvdZero_eq_ok.1 h
    obtain ⟨hb, hfn⟩ := Bool.and_eq_true_iff.1 hz
    exact ⟨encodes_ENG_iff.2 ⟨fld_of_toNat hop, rfl, rfl, beq_iff_eq.1 hb, rfl, beq_iff_eq.1 hfn⟩, rfl⟩
  -- COMMIT
  case h_51 hop =>
    obtain ⟨hz, rfl⟩ := rsvdZero_eq_ok.1 h
    simp only [Bool.and_eq_true, beq_iff_eq] at hz
    obtain ⟨⟨hq, hb⟩, hfn⟩ := hz
    exact ⟨encodes_ENG_iff.2 ⟨fld_of_toNat hop, hq, rfl, hb, rfl, hfn⟩, rfl⟩
  -- MFS
  case h_52 hop =>
    obtain ⟨hz, rfl⟩ := rsvdZero_eq_ok.1 h
    obtain ⟨ha, hidx⟩ := Bool.and_eq_true_iff.1 hz
    exact ⟨encodes_RI_iff.2 ⟨fld_of_toNat hop, rfl, beq_iff_eq.1 ha, rfl, rfl⟩, hidx⟩
  case h_53 hop => exact decodeMts_spells (fld_of_toNat hop) h
  -- SYSC, TRAP
  case h_54 hop | h_55 hop =>
    obtain ⟨hz, rfl⟩ := rsvdZero_eq_ok.1 h
    exact ⟨encodes_RI_iff.2 ⟨fld_of_toNat hop, rfl, beq_iff_eq.1 hz, rfl, rfl⟩, rfl⟩
  -- BRK
  case h_56 hop =>
    obtain ⟨hz, rfl⟩ := rsvdZero_eq_ok.1 h
    obtain ⟨hd, ha⟩ := fld_da_eq_zero_iff.1 (beq_iff_eq.1 hz)
    exact ⟨encodes_RI_iff.2 ⟨fld_of_toNat hop, hd, ha, rfl, rfl⟩, rfl⟩
  -- FIN, CKPT
  case h_57 hop | h_58 hop =>
    obtain ⟨hz, rfl⟩ := rsvdZero_eq_ok.1 h
    obtain ⟨hda, himm⟩ := Bool.and_eq_true_iff.1 hz
    obtain ⟨hd, ha⟩ := fld_da_eq_zero_iff.1 (beq_iff_eq.1 hda)
    exact ⟨encodes_RI_iff.2 ⟨fld_of_toNat hop, hd, ha, rfl, beq_iff_eq.1 himm⟩, rfl⟩
  -- HALT
  case h_59 hop =>
    dsimp only at h
    split at h
    case isTrue hz =>
      obtain ⟨hda, himm⟩ := hz
      obtain ⟨hd, ha⟩ := fld_da_eq_zero_iff.1 hda
      cases h
      exact ⟨encodes_RI_iff.2 ⟨fld_of_toNat hop, hd, ha, rfl, himm⟩, rfl⟩
    case isFalse => cases h
  case h_60 => cases h

/-- Settles O54: a word that decodes spells its instruction, and the word of an instruction decodes to it. -/
theorem scalarWordsEncodeAndDecode : Obligations.ScalarWordsEncodeAndDecode := by
  unfold Obligations.ScalarWordsEncodeAndDecode
  exact fun w i => ⟨decodeS_spells, fun ⟨h, hok⟩ => decodeS_encodeS h hok⟩

/-! ### Element words -/

theorem encodes_EW_iff {op : BitVec 7} {e : EW} {w : Word} : some (encEW op e) = some w ↔ fld w 25 7 = op ∧ ewOf w = e := by
  constructor
  · rintro ⟨⟩; exact fields_EW ..
  · rintro ⟨rfl, rfl⟩; exact congrArg some (join_EW w)

theorem encodes_Mat_iff {op : BitVec 7} {m : MatW} {w : Word} : some (encMat op m) = some w ↔ fld w 25 7 = op ∧ matOf w = m := by
  constructor
  · rintro ⟨⟩; exact fields_mat ..
  · rintro ⟨rfl, rfl⟩; exact congrArg some (join_mat w)

theorem encodes_Tile_iff {op : BitVec 7} {t : TileW} {w : Word} : some (encTile op t) = some w ↔ fld w 25 7 = op ∧ fld w 0 3 = 0 ∧ tileOf w = t := by
  constructor
  · rintro ⟨⟩; exact fields_tile ..
  · rintro ⟨rfl, hz, rfl⟩; exact congrArg some (join_tile w hz)

theorem layoutOk_eq_ok {i j : Instr} : layoutOk i = .ok j ↔ i.layout = true ∧ i = j := by
  unfold layoutOk
  split <;> simp [*]

/-- The word of an instruction whose layout is right decodes to it. -/
theorem decodeE_encodeE {i : Instr} {w : Word} (h : encodeE i = some w) (hl : i.layout = true) : decodeE w = .ok i := by
  unfold decodeE
  cases i
  case mma | mmab | mmaw =>
    obtain ⟨hop, rfl⟩ := encodes_Mat_iff.1 h
    rw [hop]
    exact layoutOk_eq_ok.2 ⟨hl, rfl⟩
  case tclr | tcvt | ttrn | tfill =>
    obtain ⟨hop, hz, rfl⟩ := encodes_Tile_iff.1 h
    rw [hop]
    exact (if_pos hz).trans (layoutOk_eq_ok.2 ⟨hl, rfl⟩)
  case vadd | vsub | vmul | vmac | vfmak | vmin | vmax | vabs | vneg | vrcp | vrsq | vsqrt | vdiv | vexp2 | vlog2 | vtanh | vsig | vcvt |
      vround | vclass | viadd | visub | vimul | vimac | vshl | vshr | vsra | vand | vor | vxor | vimin | vimax | vclz | vpopc | viabs |
      vmulh | vcmp | vsel | steer | merge | compact | expand | vmask | vany | vperm | vbcast | vrev | vextr | vins | zip | unzip |
      vlshift | vred | rsend | scan | lrec | ema | fir | segset | carry | span | split | delay | window | close | spanq | coalesce |
      bmm4 | trow | tear | muster | astr | ldn | stn | updn | ldsc | stsc | sbar | xlate | gate | cand | cor =>
    obtain ⟨hop, rfl⟩ := encodes_EW_iff.1 h
    rw [hop]
    exact layoutOk_eq_ok.2 ⟨hl, rfl⟩
  all_goals exact nomatch h

/-- An E-word that decodes is the word of what it decodes to, and its operation's fixed bits have their values. -/
theorem encodeE_decodeE {w : Word} {i : Instr} (h : decodeE w = .ok i) : encodeE i = some w ∧ i.layout = true := by
  unfold decodeE at h
  split at h
  case h_1 | h_91 => cases h
  -- MMA, MMAB, MMAW
  case h_69 hop | h_70 hop | h_71 hop =>
    obtain ⟨hl, rfl⟩ := layoutOk_eq_ok.1 h
    exact ⟨encodes_Mat_iff.2 ⟨fld_of_toNat hop, rfl⟩, hl⟩
  -- TCLR, TCVT, TTRN, TFILL
  case h_73 hop | h_74 hop | h_75 hop | h_77 hop =>
    split at h
    case isTrue hz =>
      obtain ⟨hl, rfl⟩ := layoutOk_eq_ok.1 h
      exact ⟨encodes_Tile_iff.2 ⟨fld_of_toNat hop, hz, rfl⟩, hl⟩
    case isFalse => cases h
  -- every other word has the ordinary layout
  all_goals
    obtain ⟨hl, rfl⟩ := layoutOk_eq_ok.1 h
    exact ⟨encodes_EW_iff.2 ⟨fld_of_toNat ‹_›, rfl⟩, hl⟩

/-- Settles O55: a word that decodes is rebuilt by its format's encoder, and the encoder's word decodes to its operation's format. -/
theorem elementWordsEncodeAndDecode : Obligations.ElementWordsEncodeAndDecode := by
  unfold Obligations.ElementWordsEncodeAndDecode
  exact fun w i => ⟨encodeE_decodeE, fun ⟨h, hl⟩ => decodeE_encodeE h hl⟩

/-! ### Words written out from the spec -/

/-- Settles O56: each word is evaluated. -/
theorem wordsOfTheSpecDecode : Obligations.WordsOfTheSpecDecode := by
  unfold Obligations.WordsOfTheSpecDecode
  exact ⟨rfl, rfl, rfl, rfl, rfl, rfl, rfl, rfl, rfl, rfl, rfl, rfl, rfl⟩

end Sys2Proof
end

section
/-!
PROOFS. What an S-word leaves: the frame of a register or predicate write (O4), a word whose guard does not hold (O5), the services (O19), CFGLD (O16).
-/

namespace Sys2Proof.Machine

/-! ### Registers and predicates (R43, R120, R133) -/

/-- Different names of registers, or of predicates, are different keys. -/
theorem toNat_ne {n : Nat} {x y : BitVec n} (h : x ≠ y) : x.toNat ≠ y.toNat := fun e => h (BitVec.eq_of_toNat_eq e)

theorem setReg_zero (k : CoreSt) (v : DWord) : k.setReg 0 v = k := if_pos rfl

theorem setReg_of_ne (k : CoreSt) {d : RegNum} (v : DWord) (h : d ≠ 0) :
    k.setReg d v = { k with regs := amPut k.regs d.toNat ⟨v, residue3 v.toNat⟩ } := if_neg h

theorem setPred_zero (k : CoreSt) (v : Bool) : k.setPred 0 v = k := if_pos rfl

theorem setPred_of_ne (k : CoreSt) {p : PredNum} (v : Bool) (h : p ≠ 0) :
    k.setPred p v = { k with preds := amPut k.preds p.toNat (v, v) } := if_neg h

theorem setReg_reg (k : CoreSt) (d r : RegNum) (v : DWord) : (k.setReg d v).reg r = if r = 0 then 0 else if r = d then v else k.reg r := by
  unfold CoreSt.reg
  split
  case isTrue => rfl
  case isFalse hr =>
    by_cases hd : d = 0
    · subst hd
      rw [setReg_zero, if_neg hr]
    · rw [setReg_of_ne k v hd]
      split
      case isTrue he => rw [he, amGet_amPut_same]
      case isFalse he => rw [amGet_amPut_other _ _ _ _ _ (toNat_ne he)]

/-- A write leaves the residue that the register's check wants. -/
theorem setReg_regOk_same (k : CoreSt) (d : RegNum) (v : DWord) : (k.setReg d v).regOk d = true := by
  unfold CoreSt.regOk
  split
  case isTrue => rfl
  case isFalse hd => simp only [setReg_of_ne k v hd, amGet_amPut_same, beq_self_eq_true]

theorem setReg_regOk_other (k : CoreSt) {d r : RegNum} (v : DWord) (h : r ≠ d) : (k.setReg d v).regOk r = k.regOk r := by
  unfold CoreSt.regOk
  by_cases hd : d = 0
  · rw [hd, setReg_zero]
  · rw [setReg_of_ne k v hd, amGet_amPut_other _ _ _ _ _ (toNat_ne h)]

theorem setPred_pred (k : CoreSt) (d p : PredNum) (v : Bool) :
    (k.setPred d v).pred p = if p = 0 then true else if p = d then v else k.pred p := by
  unfold CoreSt.pred
  split
  case isTrue => rfl
  case isFalse hp =>
    by_cases hd : d = 0
    · subst hd
      rw [setPred_zero, if_neg hp]
    · rw [setPred_of_ne k v hd]
      split
      case isTrue he => rw [he, amGet_amPut_same]
      case isFalse he => rw [amGet_amPut_other _ _ _ _ _ (toNat_ne he)]

/-- A write leaves both copies alike, as the predicate's check wants. -/
theorem setPred_predOk_same (k : CoreSt) (d : PredNum) (v : Bool) : (k.setPred d v).predOk d = true := by
  unfold CoreSt.predOk
  split
  case isTrue => rfl
  case isFalse hd => simp only [setPred_of_ne k v hd, amGet_amPut_same, beq_self_eq_true]

theorem setPred_predOk_other (k : CoreSt) {d p : PredNum} (v : Bool) (h : p ≠ d) : (k.setPred d v).predOk p = k.predOk p := by
  unfold CoreSt.predOk
  by_cases hd : d = 0
  · rw [hd, setPred_zero]
  · rw [setPred_of_ne k v hd, amGet_amPut_other _ _ _ _ _ (toNat_ne h)]

/-- A write of a register changes nothing of the core but its registers. -/
theorem setReg_eq (k : CoreSt) (d : RegNum) (v : DWord) : ∃ rs, k.setReg d v = { k with regs := rs } := by
  unfold CoreSt.setReg
  split
  · exact ⟨k.regs, rfl⟩
  · exact ⟨_, rfl⟩

/-- A write of a predicate changes nothing of the core but its predicates. -/
theorem setPred_eq (k : CoreSt) (p : PredNum) (v : Bool) : ∃ ps, k.setPred p v = { k with preds := ps } := by
  unfold CoreSt.setPred
  split
  · exact ⟨k.preds, rfl⟩
  · exact ⟨_, rfl⟩

/-! ### The next word (R302) -/

/-- A word that completes changes nothing of the core but the pc and the firing's loops; outside every body the pc names the next word. -/
theorem retire_eq (k : CoreSt) : ∃ pc ls, k.retire = { k with pc := pc, firing := { k.firing with loops := ls } } ∧
    (pc = k.pc + 4 ∨ k.firing.loops ≠ []) := by
  refine ⟨(loopBack (k.pc + 4) k.firing.loops).1, (loopBack (k.pc + 4) k.firing.loops).2, rfl, ?_⟩
  cases h : k.firing.loops with
  | nil => exact .inl rfl
  | cons f fs => exact .inr (List.cons_ne_nil f fs)

@[simp] theorem CoreSt.retire_reg (k : CoreSt) (r : RegNum) : k.retire.reg r = k.reg r := rfl
@[simp] theorem CoreSt.retire_regOk (k : CoreSt) (r : RegNum) : k.retire.regOk r = k.regOk r := rfl
@[simp] theorem CoreSt.retire_pred (k : CoreSt) (p : PredNum) : k.retire.pred p = k.pred p := rfl
@[simp] theorem CoreSt.retire_predOk (k : CoreSt) (p : PredNum) : k.retire.predOk p = k.predOk p := rfl

@[simp] theorem State.wrote_core (s : State) (d : RegNum) (v : DWord) : (s.wrote d v).core = (s.core.setReg d v).retire := s.setCore_core _
@[simp] theorem State.wroteP_core (s : State) (p : PredNum) (v : Bool) : (s.wroteP p v).core = (s.core.setPred p v).retire := s.setCore_core _

/-- The state of a current core that has completed a word with other registers or predicates differs from the state before in that core
alone, and there in them, the pc and the loops. -/
theorem setCore_retire_frame {s : State} {k : CoreSt} (hk : ∃ rs ps, k = { s.core with regs := rs, preds := ps }) :
    let t := s.setCore k.retire
    (∀ sp a, (t.mem sp).get a = (s.mem sp).get a) ∧ (∀ c, c ≠ s.curCore → t.coreOf c = s.coreOf c) ∧
    (∃ l, t.core.firing = { s.core.firing with loops := l }) ∧ t.core.trapCause = s.core.trapCause ∧ t.core.trapPc = s.core.trapPc ∧
    t.core.errmask = s.core.errmask ∧ t.core.hbeat = s.core.hbeat ∧ t.core.ctxSel = s.core.ctxSel ∧
    (t.core.pc = s.core.pc + 4 ∨ s.core.firing.loops ≠ []) ∧ { t with cores := s.cores } = s := by
  obtain ⟨rs, ps, rfl⟩ := hk
  obtain ⟨pc, ls, hret, hpc⟩ := retire_eq { s.core with regs := rs, preds := ps }
  intro t
  have hcore : t.core = { s.core with regs := rs, preds := ps, pc := pc, firing := { s.core.firing with loops := ls } } :=
    (s.setCore_core _).trans hret
  refine ⟨fun sp a => ?_, fun c hc => s.setCoreOf_coreOf_other _ _ _ hc, ⟨ls, ?_⟩, ?_, ?_, ?_, ?_, ?_, ?_, rfl⟩
  · rw [State.setCore_mem]
  all_goals rw [hcore]
  exact hpc

/-- Settles O4: a written register or predicate by the rules of the registers, everything else by the frame of a completed word. -/
theorem registerWritesChangeNothingElse : Obligations.RegisterWritesChangeNothingElse := by
  unfold Obligations.RegisterWritesChangeNothingElse
  refine ⟨fun s d r v => ?_, fun s d v => ?_, fun s d r v h => ?_, fun s d p v => ?_, fun s d v => ?_, fun s d p v h => ?_,
    fun s d v => ?_, fun s d v => ?_, fun s d q v b t ht => ?_⟩
  · rw [s.wrote_core, CoreSt.retire_reg, setReg_reg]
  · rw [s.wrote_core, CoreSt.retire_regOk, setReg_regOk_same]
  · rw [s.wrote_core, CoreSt.retire_regOk, setReg_regOk_other _ v h]
  · rw [s.wroteP_core, CoreSt.retire_pred, setPred_pred]
  · rw [s.wroteP_core, CoreSt.retire_predOk, setPred_predOk_same]
  · rw [s.wroteP_core, CoreSt.retire_predOk, setPred_predOk_other _ v h]
  · obtain ⟨rs, hrs⟩ := setReg_eq s.core d v
    rw [s.wrote_core, hrs]
    exact ⟨fun _ => rfl, fun _ => rfl⟩
  · obtain ⟨ps, hps⟩ := setPred_eq s.core d v
    rw [s.wroteP_core, hps]
    exact ⟨fun _ => rfl, fun _ => rfl⟩
  · obtain rfl | rfl : t = s.wrote d v ∨ t = s.wroteP q b := by simpa using ht
    · obtain ⟨rs, hrs⟩ := setReg_eq s.core d v
      exact setCore_retire_frame ⟨rs, s.core.preds, hrs⟩
    · obtain ⟨ps, hps⟩ := setPred_eq s.core q b
      exact setCore_retire_frame ⟨s.core.regs, ps, hps⟩


/-! ### Words under a guard (R37, R38) -/

/-- The instruction runs as a word under the guard, with some sources to check and some body. -/
def Guarded (i : Instr) (g : Guard) (s : State) : Prop := ∃ rs ps sc body, exec i s = .next (runWord s g rs ps sc body)

/-- Where the guard does not hold, neither the sources nor the body matter. -/
theorem Guarded.skipped {i : Instr} {g : Guard} {s : State} (h : Guarded i g s) (hg : s.core.guard g = false)
    (hp : s.core.predOk g.p = true) (h2 : s.core.errmask.getLsbD 2 = false) : exec i s = .next s.retire := by
  obtain ⟨rs, ps, sc, body, hexec⟩ := h
  rw [hexec, runWord_skipped sc body h2 hp hg]

/-- What a CFGLD does when it executes: it writes the status that the load answers. -/
def cfgldWord (e : BitVec 4) (a b : RegNum) (cell : Nat) (s : State) : WordEnd :=
  let r := s.cfgld (s.core.reg a) cell e.toNat (if isFirmware s.curCore then handleCtx (s.core.reg a) else s.core.firing.ctx)
  .done (r.1.setCore (r.1.core.setReg b r.2))

/-- A CFGLD with an entry and a row that are not reserved is a word under its guard. -/
theorem exec_cfgld_runs {s : State} {e row : BitVec 4} {a b : RegNum} {g : Guard} {cell : Nat} (he : e.toNat < 4)
    (ht : s.cfgldTarget row = some cell) : exec (.cfgld e a b row g) s = .next (runWord s g [a] [] true (cfgldWord e a b cell)) := by
  change execCfgld e a b row g s = _
  unfold execCfgld
  rw [if_neg (Nat.not_le.mpr he), ht]
  rfl

theorem sysc_guarded {s : State} {d : RegNum} {svc : BitVec 12} {g : Guard} (h1 : 1 ≤ svc.toNat) (h5 : svc.toNat ≤ 5) :
    Guarded (.sysc d svc g) g s :=
  ⟨_, _, _, _, if_neg (by simp only [Bool.or_eq_true, beq_iff_eq, decide_eq_true_eq]; omega)⟩

theorem mfs_guarded {s : State} {d : RegNum} {idx : BitVec 12} {g : Guard} (h : idx.toNat < 0x800 ∨ isFirmware s.curCore = true) :
    Guarded (.mfs d idx g) g s :=
  ⟨_, _, _, _, if_neg (by
    simp only [privIndex, Bool.and_eq_true, decide_eq_true_eq, Bool.not_eq_true']
    rintro ⟨hidx, hcell⟩
    rcases h with h | h
    · omega
    · rw [h] at hcell; cases hcell)⟩

theorem mts_guarded {s : State} {idx : BitVec 12} {a : RegNum} {g : Guard}
    (h : idx.toNat < 0x800 ∧ idx ≠ 0x00B ∨ isFirmware s.curCore = true) : Guarded (.mts idx a g) g s :=
  ⟨_, _, _, _, if_neg (by
    simp only [privIndex, Bool.and_eq_true, Bool.or_eq_true, decide_eq_true_eq, beq_iff_eq, Bool.not_eq_true']
    rintro ⟨hidx, hcell⟩
    rcases h with ⟨hlt, hne⟩ | h
    · rcases hidx with hidx | hidx
      · omega
      · exact hne hidx
    · rw [h] at hcell; cases hcell)⟩

/-- Settles O5: each of the words runs under its guard, and a guard that does not hold leaves only the move of the pc. -/
theorem unguardedWordsOnlyMoveOn : Obligations.UnguardedWordsOnlyMoveOn := by
  unfold Obligations.UnguardedWordsOnlyMoveOn
  rintro s i g hg hp h2 ⟨d, a, b, p, q, r, c, ci, imm, sz, off, br, n8, x4, y4, s6, op, dbl, fk, sc, m5, co, hi⟩
  refine Guarded.skipped (i := i) ?_ hg hp h2
  rcases hi with hi | ⟨rfl, he, ht⟩ | ⟨rfl, h1, h5⟩ | ⟨rfl, h⟩ | ⟨rfl, h⟩ | ⟨rfl, h⟩
  · revert hi i
    refine List.forall_iff_forall_mem.1 ?_
    repeat' apply And.intro
    all_goals exact ⟨_, _, _, _, rfl⟩
  · obtain ⟨cell, ht⟩ := Option.isSome_iff_exists.1 ht
    exact ⟨_, _, _, _, exec_cfgld_runs he ht⟩
  · exact sysc_guarded h1 h5
  · exact mfs_guarded h
  · exact mts_guarded h
  · exact ⟨_, _, _, _, if_pos h⟩

/-! ### Services (R322, R352) -/

/-- A word that is done with a write of a register leaves the register written and the pc moved on. -/
theorem finishWord_setReg (s : State) (d : RegNum) (v : DWord) : s.finishWord (.done (s.setCore (s.core.setReg d v))) = s.wrote d v := by
  simp [State.finishWord, State.retire, State.wrote]

/-- Settles O19: each service by the body of its word, run where the word executes. -/
theorem serviceCallsDoTheirService : Obligations.ServiceCallsDoTheirService := by
  unfold Obligations.ServiceCallsDoTheirService
  refine ⟨fun s d svc g hsvc => if_pos ?_, fun s d g h => ?_⟩
  · rcases hsvc with rfl | hsvc
    · rfl
    · simp only [Bool.or_eq_true, decide_eq_true_eq]
      exact .inr hsvc
  · have hnone : s.Executes g [] [] := by
      obtain ⟨⟨hregs, hpreds, hguard, -, -⟩, hg⟩ := h
      exact ⟨⟨hregs, hpreds, hguard, rfl, rfl⟩, hg⟩
    refine ⟨congrArg Host.Outcome.next ((runWord_executes true _ hnone).trans (finishWord_setReg ..)),
      congrArg Host.Outcome.next ((runWord_executes true _ hnone).trans (finishWord_setReg ..)),
      congrArg Host.Outcome.next ((runWord_executes true _ h).trans rfl),
      congrArg Host.Outcome.next ((runWord_executes true _ h).trans rfl), fun h8 hbar => ?_, fun hbad => ?_,
      congrArg Host.Outcome.next (runWord_executes false _ hnone)⟩
    · exact congrArg Host.Outcome.next ((runWord_executes true _ h).trans (congrArg s.finishWord (if_pos (by simp [h8, hbar]))))
    · exact congrArg Host.Outcome.next ((runWord_executes true _ h).trans (congrArg s.finishWord (if_neg (by
        rcases hbad with h8 | hbar
        · simp [Nat.not_lt.mpr h8]
        · simp [hbar]))))

/-! ### CFGLD (R318)

The parts of a load that `State.cfgld` names by `let`. -/

/-- The configuration of the handle that stands on the cell already. -/
def State.mineOn (s : State) (h : DWord) (cell : Nat) : Option (Nat × UnitSt) := (s.unitsOn cell).find? fun x => x.2.handle == h

/-- A firing of one of the configurations that a load touches is in flight. -/
def State.loadBusy (s : State) (h : DWord) (cell entry : Nat) : Bool :=
  ((s.inEntry cell entry).any fun x => s.unitBusy x.1) || ((s.mineOn h cell).any fun x => s.unitBusy x.1)

/-- The placed configuration of a handle: as its paddock holds it, or else as it was minted. -/
def State.confOf (s : State) (h : DWord) (en : Handle) : Conf := (s.pads.find? fun x => x.2.handle == h).elim en.conf fun x => x.2.conf

/-- The place of the handle's unit on the cell. -/
def State.placeOn (s : State) (h : DWord) (cell : Nat) : Loc := (s.mineOn h cell).elim (.cell cell (s.freeIndex cell)) fun x => Loc.ofKey x.1

/-- The state once the configuration that the entry held is swapped out. -/
def State.madeRoom (s : State) (h : DWord) (cell entry : Nat) : State :=
  (s.inEntry cell entry).elim s fun x => if x.1 == (s.placeOn h cell).key then s else s.swapOut x.1

section
variable {s : State} {h : DWord} {cell entry ctx : Nat} {en : Handle}

theorem cfgld_invalid (hv : s.validHandle h ctx = none) : s.cfgld h cell entry ctx = (s, cfgldStatus cell 0 2) := by
  unfold State.cfgld
  rw [hv]

theorem loadBusy_iff : s.loadBusy h cell entry = true ↔
    ∃ x, (s.inEntry cell entry = some x ∨ s.mineOn h cell = some x) ∧ s.unitBusy x.1 = true := by
  simp only [State.loadBusy, Bool.or_eq_true, Option.any_eq_true, or_and_right, exists_or]

/-- What a load of a valid handle does, as a chain of its decisions. -/
theorem cfgld_valid (hv : s.validHandle h ctx = some en) : s.cfgld h cell entry ctx =
    if s.loadBusy h cell entry = true then (s, cfgldStatus cell 0 3)
    else ((s.confOf h en).onCell cell).elim (s, cfgldStatus cell 0 1) fun x =>
      ((s.madeRoom h cell entry).loadReject (s.confOf h en) (s.placeOn h cell) x.2 ctx).elim
        (let t := (s.madeRoom h cell entry).claimCell cell ctx x.2
          let pad := ((s.pads.find? fun x => x.2.handle == h).map (·.1)).getD s.core.firing.pad
          ((t.putUnit (s.placeOn h cell) (x.2.fresh pad ctx h (some entry) (t.getPad pad).waveLeft.isEmpty)).post (.handlerSelect cell),
            cfgldStatus cell 0 0))
        fun slot => (s, cfgldStatus cell slot 1) := by
  unfold State.cfgld
  rw [hv]
  dsimp -zeta only
  extract_lets old mine busy pad conf loc s1
  have hbusy (x : Option (Nat × UnitSt)) : busy x = x.any fun x => s.unitBusy x.1 := by cases x <;> rfl
  have hconf : conf = s.confOf h en := by
    unfold State.confOf
    simp only [conf]
    cases s.pads.find? fun x => x.2.handle == h <;> rfl
  have hloc : loc = s.placeOn h cell := by
    unfold State.placeOn State.mineOn
    simp only [loc, mine]
    cases (s.unitsOn cell).find? fun x => x.2.handle == h <;> rfl
  have hroom : s1 = s.madeRoom h cell entry := by
    unfold State.madeRoom
    simp only [s1, old, hloc]
    cases s.inEntry cell entry <;> rfl
  simp only [hbusy, hconf, hloc, hroom]
  refine if_congr Iff.rfl rfl ?_
  generalize (s.confOf h en).onCell cell = at'
  rcases at' with _ | ⟨l, c⟩
  · rfl
  · dsimp only [Option.elim]
    generalize State.loadReject .. = rej
    cases rej <;> rfl

variable (hv : s.validHandle h ctx = some en)
include hv

theorem cfgld_busy (hb : s.loadBusy h cell entry = true) : s.cfgld h cell entry ctx = (s, cfgldStatus cell 0 3) := by
  rw [cfgld_valid hv, if_pos hb]

variable (hb : ¬ s.loadBusy h cell entry = true)
include hb

theorem cfgld_elsewhere (hon : (s.confOf h en).onCell cell = none) : s.cfgld h cell entry ctx = (s, cfgldStatus cell 0 1) := by
  rw [cfgld_valid hv, if_neg hb, hon, Option.elim_none]

variable {l : Loc} {c : UnitConf} (hon : (s.confOf h en).onCell cell = some (l, c))
include hon

theorem cfgld_rejected {slot : Nat} (hrej : (s.madeRoom h cell entry).loadReject (s.confOf h en) (s.placeOn h cell) c ctx = some slot) :
    s.cfgld h cell entry ctx = (s, cfgldStatus cell slot 1) := by
  rw [cfgld_valid hv, if_neg hb, hon, Option.elim_some, hrej, Option.elim_some]

/-- A load that nothing hinders puts the fresh unit at its place. -/
theorem cfgld_loads (hrej : (s.madeRoom h cell entry).loadReject (s.confOf h en) (s.placeOn h cell) c ctx = none) :
    ∃ pad waved, s.cfgld h cell entry ctx =
      ((((s.madeRoom h cell entry).claimCell cell ctx c).putUnit (s.placeOn h cell) (c.fresh pad ctx h (some entry) waved)).post
        (.handlerSelect cell), cfgldStatus cell 0 0) :=
  ⟨_, _, by rw [cfgld_valid hv, if_neg hb, hon, Option.elim_some, hrej, Option.elim_none]⟩

end

/-! ### What a load leaves of the units -/

/-- Steps that each leave the units leave them together. -/
theorem foldl_units {α : Type} {f : State → α → State} (h : ∀ s x, (f s x).units = s.units) (l : List α) (s : State) :
    (l.foldl f s).units = s.units := by
  induction l generalizing s with
  | nil => rfl
  | cons x l ih => rw [List.foldl_cons, ih, h]

theorem State.padTile_units (s : State) (cell : Nat) (t : Tile) : (s.padTile cell t).units = s.units := by
  unfold State.padTile
  split
  · exact foldl_units (fun _ _ => State.writeMem_units ..) _ s
  · rfl

theorem State.loadTiles_units (s : State) (cell : Nat) (c : UnitConf) : (s.loadTiles cell c).units = s.units := by
  refine foldl_units (fun s x => ?_) _ s
  dsimp only
  split
  · rw [State.padTile_units, State.storeMem_units]
  · rfl

theorem State.putUnit_units (s : State) (loc : Loc) (u : UnitSt) : (s.putUnit loc u).units = amPut s.units loc.key u := by
  unfold State.putUnit
  cases loc with
  | cell i e => exact State.loadTiles_units ..
  | node i => rfl

theorem State.claim_units (s : State) (key ctx : Nat) (sp : Space) (a n : Nat) : (s.claim key ctx sp a n).units = s.units := by
  unfold State.claim
  split
  · rfl
  · exact State.setMem_units ..

theorem State.clearCore_units (s : State) (cell ctx : Nat) : (s.clearCore cell ctx).units = s.units := rfl

/-- Ranges that pass to a context leave the units. -/
theorem claims_units (key addr : Nat → Nat) (ctx : Nat) (sp : Space) (n : Nat) (l : List Nat) (s : State) :
    (l.foldl (fun s k => State.claim s (key k) ctx sp (addr k) n) s).units = s.units :=
  foldl_units (fun _ _ => State.claim_units ..) l s

theorem State.claimCell_units (s : State) (cell ctx : Nat) (c : UnitConf) : (s.claimCell cell ctx c).units = s.units :=
  (claims_units (ownF (foldOf cell)) (fun k => fAddr (foldOf cell) (k * 65536)) ctx .f 65536 (windowUnits c.fwin) _).trans
    ((claims_units (ownL cell) (fun k => lAddr cell (k * 65536)) ctx .l 65536 (windowUnits c.lwin) _).trans (s.clearCore_units cell ctx))

theorem amGet?_updU_same (s : State) (key : Nat) (f : UnitSt → UnitSt) : amGet? (s.updU key f).units key = some (f (s.getU key)) :=
  amGet?_amPut_same ..

/-- A swap ends with the unit out of its entry, its tiles saved. -/
theorem State.swapOut_eq (s : State) (key : Nat) : ∃ t bs, s.swapOut key = State.updU t key fun u => { u with slotNo := none, saved := bs } :=
  ⟨_, _, rfl⟩

theorem swapOut_slotNo {s : State} {key : Nat} {v : UnitSt} (h : amGet? (s.swapOut key).units key = some v) : v.slotNo = none := by
  obtain ⟨t, bs, hout⟩ := s.swapOut_eq key
  rw [hout, amGet?_updU_same] at h
  obtain rfl := Option.some.inj h
  rfl

theorem handleCtx_eq (h : DWord) : handleCtx h = h.toNat / 2 ^ 58 := by
  have := h.isLt
  simp only [handleCtx, bitsOf]
  omega

/-- What CFGLD leaves where it executes: the load's state with the status written to b, moved on. -/
theorem exec_cfgld_executes {s : State} {e row : BitVec 4} {a b : RegNum} {g : Guard} {cell : Nat} (hx : s.Executes g [a] []) (he : e.toNat < 4)
    (ht : s.cfgldTarget row = some cell) : exec (.cfgld e a b row g) s = .next (s.finishWord (cfgldWord e a b cell s)) := by
  rw [exec_cfgld_runs he ht, runWord_executes true _ hx]

/-- A load that changes nothing leaves its status alone. -/
theorem finishWord_cfgldWord_same {s : State} {e : BitVec 4} {a b : RegNum} {cell : Nat} {v : DWord}
    (h : s.cfgld (s.core.reg a) cell e.toNat (if isFirmware s.curCore then handleCtx (s.core.reg a) else s.core.firing.ctx) = (s, v)) :
    s.finishWord (cfgldWord e a b cell s) = s.wrote b v := by
  unfold cfgldWord
  rw [h, finishWord_setReg]

/-- The units that a load leaves, once its status is written: those before it, and the new one. -/
theorem loaded_units (t : State) (cell ctx : Nat) (c : UnitConf) (loc : Loc) (u : UnitSt) (i : Instr) (k : CoreSt) :
    ((((t.claimCell cell ctx c).putUnit loc u).post i).setCore k).retire.units = amPut t.units loc.key u := by
  rw [State.retire_units, State.setCore_units, State.post_units, State.putUnit_units, State.claimCell_units]

/-- What the entry held before stands in no entry of the state that has made room for it. -/
theorem madeRoom_slotNo {s : State} {h : DWord} {cell entry : Nat} {x : Nat × UnitSt} (hold : s.inEntry cell entry = some x)
    (hne : x.1 ≠ (s.placeOn h cell).key) {v : UnitSt} (hv : amGet? (s.madeRoom h cell entry).units x.1 = some v) : v.slotNo = none := by
  rw [State.madeRoom, hold, Option.elim_some, if_neg (by simpa using hne)] at hv
  exact swapOut_slotNo hv

/-- Settles O16: the decisions of a load, one after the other. -/
theorem cfgldAnswersItsStatus : Obligations.CfgldAnswersItsStatus := by
  unfold Obligations.CfgldAnswersItsStatus
  refine ⟨fun s e a b row g hres => ?_, fun s e a b row g cell hx he ht => ?_⟩
  · change execCfgld e a b row g s = _
    unfold execCfgld
    rcases hres with he | ht
    · rw [if_pos he]
    · rw [ht, ite_self]
  intro h ctx answer here old mine busy
  have hctx : (if isFirmware s.curCore then handleCtx (s.core.reg a) else s.core.firing.ctx) = ctx := by
    rw [handleCtx_eq]
  have hbusy : busy ↔ s.loadBusy h cell e.toNat = true := loadBusy_iff.symm
  rw [exec_cfgld_executes hx he ht]
  have hsame {v : DWord} (hr : s.cfgld h cell e.toNat ctx = (s, v)) :
      Host.Outcome.next (s.finishWord (cfgldWord e a b cell s)) = (.next (s.wrote b v) : Out) :=
    congrArg _ (finishWord_cfgldWord_same (hctx ▸ hr))
  refine ⟨fun hv => hsame (cfgld_invalid hv), fun en hv => ?_⟩
  intro conf
  have hconf : conf = s.confOf h en := by
    unfold State.confOf
    simp only [conf]
    cases s.pads.find? fun x => x.2.handle == h <;> rfl
  rw [hconf]
  refine ⟨fun hb => hsame (cfgld_busy hv (hbusy.1 hb)), fun hb hnone => hsame (cfgld_elsewhere hv (hbusy.not.1 hb) hnone), fun hb l c hon => ?_⟩
  intro loc s1
  have hloc : loc = s.placeOn h cell := by
    change _ = mine.elim _ _
    simp only [loc]
    cases mine <;> rfl
  have hroom : s1 = s.madeRoom h cell e.toNat := by
    change _ = old.elim _ _
    simp only [s1, hloc, beq_iff_eq]
    cases old <;> rfl
  rw [hloc, hroom]
  refine ⟨fun slot hrej => hsame (cfgld_rejected hv (hbusy.not.1 hb) hon hrej), fun hrej => ?_⟩
  obtain ⟨pad, waved, hload⟩ := cfgld_loads hv (hbusy.not.1 hb) hon hrej
  rw [cfgldWord, hctx, hload]
  refine ⟨_, c.fresh pad ctx h (some e.toNat) waved, rfl, ?_, ?_, rfl, rfl, rfl, rfl, rfl, rfl, rfl, fun x hold hne v hv => ?_⟩
  · dsimp only [State.finishWord]
    rw [State.retire, State.setCore_core, State.setCore_core, CoreSt.retire_reg, setReg_reg, if_pos rfl]
    rfl
  · exact (congrArg (amGet? · _) (loaded_units ..)).trans (amGet?_amPut_same ..)
  · have hv' := (congrArg (amGet? · x.1) (loaded_units ..)).symm.trans hv
    rw [amGet?_amPut_other _ _ _ _ hne] at hv'
    exact madeRoom_slotNo hold hne hv'

end Sys2Proof.Machine
end

section
/-!
PROOFS. What taking a trap leaves (O20).
-/

namespace Sys2Proof.Machine

/-- The core once TRAPCAUSE and TRAPPC of its firing's context are set (R46). -/
def CoreSt.trapped (k : CoreSt) (c : Cause) (code : BitVec 12) : CoreSt :=
  { k with trapCause := amPut k.trapCause k.firing.ctx (trapCauseWord c code), trapPc := amPut k.trapPc k.firing.ctx k.pc }

/-- What the trap handler of an actor receives of a trap (R300). -/
def CoreSt.trapInfo (k : CoreSt) (c : Cause) (code : BitVec 12) : TrapInfo :=
  ⟨trapCauseWord c code, k.pc, k.firing.handler, k.firing.tag, k.firing.seq, k.firing.spanLo, k.firing.spanHi⟩

/-- The actor h of a unit has one trap more to handle. -/
def UnitSt.addTrap (h : Nat) (i : TrapInfo) (u : UnitSt) : UnitSt :=
  { u with actors := amUpd u.actors h {} fun a => { a with traps := a.traps ++ [i] } }

theorem addTrap_traps (h : Nat) (i : TrapInfo) (u : UnitSt) :
    (amGet (u.addTrap h i).actors h {}).traps = (amGet u.actors h {}).traps ++ [i] :=
  congrArg ActorSt.traps (amGet_amPut_same _ _ _ _)

theorem trapCauseWord_toNat (c : Cause) (code : BitVec 12) : (trapCauseWord c code).toNat = c.code + code.toNat * 2 ^ 16 := by
  have hc : c.code < 2 ^ 16 := by cases c <;> decide
  have := code.isLt
  rw [trapCauseWord, BitVec.toNat_ofNat]
  omega

theorem trapCauseWord_mod (c : Cause) (code : BitVec 12) : (trapCauseWord c code).toNat % 2 ^ 32 = (trapCauseWord c code).toNat := by
  have hc : c.code < 2 ^ 16 := by cases c <;> decide
  have := code.isLt
  rw [trapCauseWord_toNat]
  omega

theorem checkQuiet_posts (s : State) (pad : Nat) : ∃ l, s.checkQuiet pad = s.postAll l := by
  have none_more : s = s.postAll [] := by simp [State.postAll]
  unfold State.checkQuiet
  split
  · split
    · exact ⟨_, rfl⟩
    · exact ⟨[], none_more⟩
  · exact ⟨[], none_more⟩

section
variable {s : State} {c : Cause} {code : BitVec 12}

/-- The end of a cell's firing changes its core and posts events, and nothing else. -/
theorem endFiring_cell (hf : isFirmware s.curCore = false) : ∃ l, s.endFiring = (s.setCore s.core.endFiring).postAll l := by
  obtain ⟨l, hl⟩ := checkQuiet_posts (s.setCore s.core.endFiring) s.core.firing.pad
  have e : ∀ m, ((s.setCore s.core.endFiring).checkQuiet s.core.firing.pad).postAll m =
      (s.setCore s.core.endFiring).postAll (l ++ m) := fun m => by rw [hl]; simp [State.postAll]
  exact ⟨_, (if_neg (by simp [hf])).trans (e _)⟩

theorem not_stops (hb : c = .breakpt → s.breaksFiring s.curCore = false) : ¬ (c == .breakpt && s.breaksFiring s.curCore) = true := by
  intro h
  obtain ⟨h1, h2⟩ := Bool.and_eq_true_iff.mp h
  rw [hb (by simpa using h1)] at h2
  cases h2

theorem endFiring_updU (hf : isFirmware s.curCore = false) (k : CoreSt) (n : Nat) (f : UnitSt → UnitSt) :
    ∃ l, ((s.setCore k).updU n f).endFiring = ((s.setCore k.endFiring).updU n f).postAll l := by
  obtain ⟨l, hl⟩ := endFiring_cell (s := (s.setCore k).updU n f) hf
  have hk : ((s.setCore k).updU n f).core = k := State.setCore_core s k
  rw [hk] at hl
  exact ⟨l, hl.trans (congrArg (fun t : State => (t.updU n f).postAll l) (State.setCore_setCore s k k.endFiring))⟩

theorem endFiring_raise (hf : isFirmware s.curCore = false) (k : CoreSt) (p : Nat) (r : FaultRec) :
    ∃ l, ((s.setCore k).raise p r).endFiring = ((s.setCore k.endFiring).raise p r).postAll l := by
  obtain ⟨l, hl⟩ := endFiring_cell (s := (s.setCore k).raise p r) hf
  have hk : ((s.setCore k).raise p r).core = k := State.setCore_core s k
  rw [hk] at hl
  exact ⟨l, hl.trans (congrArg (fun t : State => (t.raise p r).postAll l) (State.setCore_setCore s k k.endFiring))⟩

/-- A trap that an actor handles: the handler has it to run, and the firing has ended. -/
theorem takeTrap_handled (hf : isFirmware s.curCore = false) (hb : c = .breakpt → s.breaksFiring s.curCore = false) {h : Nat}
    (ht : s.curUnit.trapHandler s.core.firing = some h) :
    ∃ l, s.takeTrap c code =
      ((s.setCore (s.core.trapped c code).endFiring).updU s.curUnitKey (·.addTrap h (s.core.trapInfo c code))).postAll l := by
  unfold State.takeTrap
  dsimp only
  rw [if_neg (by simp [hf]), ht, if_neg (not_stops hb)]
  exact endFiring_updU hf (s.core.trapped c code) _ _

/-- A trap that no actor handles: the paddock's fault stands among the events, and the firing has ended. -/
theorem takeTrap_unhandled (hf : isFirmware s.curCore = false) (hb : c = .breakpt → s.breaksFiring s.curCore = false)
    (ht : s.curUnit.trapHandler s.core.firing = none) :
    ∃ l, s.takeTrap c code = ((s.setCore (s.core.trapped c code).endFiring).raise s.core.firing.pad
      (trapFault s.core s.curCore (trapCauseWord c code) s.core.pc)).postAll l := by
  unfold State.takeTrap
  dsimp only
  rw [if_neg (by simp [hf]), ht]
  dsimp only
  rw [if_neg (not_stops hb), if_neg (not_stops hb)]
  exact endFiring_raise hf (s.core.trapped c code) _ _

/-- Taking a trap on a cell changes its core, the units and the events, and nothing else. -/
theorem takeTrap_cell (hf : isFirmware s.curCore = false) (hb : c = .breakpt → s.breaksFiring s.curCore = false) :
    ∃ us es, s.takeTrap c code = { s.setCore (s.core.trapped c code).endFiring with units := us, events := es } := by
  cases ht : s.curUnit.trapHandler s.core.firing with
  | some h =>
    obtain ⟨l, hl⟩ := takeTrap_handled (code := code) hf hb ht
    exact ⟨_, _, hl⟩
  | none =>
    obtain ⟨l, hl⟩ := takeTrap_unhandled (code := code) hf hb ht
    exact ⟨_, _, hl⟩

end

/-- Settles O20: on a cell a trap is a change of the core, the units and the events (`takeTrap_cell`). -/
theorem trapsSaveTheirCauseAndPc : Obligations.TrapsSaveTheirCauseAndPc := by
  unfold Obligations.TrapsSaveTheirCauseAndPc
  refine ⟨fun s d code g hx => ?words, fun s g hc => if_neg (by simp [hc]), fun s c code hf hb => ?taken⟩
  case words =>
    exact ⟨congrArg Host.Outcome.next (runWord_executes false _ hx), congrArg Host.Outcome.next (runWord_executes false _ hx)⟩
  case taken =>
    obtain ⟨us, es, he⟩ := takeTrap_cell (code := code) hf hb
    have hcore : (s.takeTrap c code).core = (s.core.trapped c code).endFiring := by
      rw [he]
      exact State.setCore_core s _
    have hcause : amGet (s.takeTrap c code).core.trapCause s.core.firing.ctx 0 = trapCauseWord c code := by
      rw [hcore]
      exact amGet_amPut_same _ _ _ _
    have hpc : amGet (s.takeTrap c code).core.trapPc s.core.firing.ctx 0 = s.core.pc := by
      rw [hcore]
      exact amGet_amPut_same _ _ _ _
    dsimp only
    rw [hcause]
    refine ⟨trapCauseWord_toNat c code, hpc, fun x hx => ?contexts, ?running, ?firing, ?regs, ?preds, ?errmask, fun sp a => ?memory,
      ?engines, ?groups, fun x hx => ?others, fun h ht => ?handled, fun ht => ?unhandled⟩
    case contexts =>
      rw [hcore]
      exact ⟨amGet_amPut_other _ _ _ _ _ hx, amGet_amPut_other _ _ _ _ _ hx⟩
    case running | firing | regs | preds | errmask =>
      rw [hcore]
      rfl
    case engines | groups =>
      rw [he]
      rfl
    case memory =>
      rw [he]
      cases sp <;> rfl
    case others =>
      rw [he]
      exact State.setCoreOf_coreOf_other s _ x _ hx
    case handled =>
      obtain ⟨l, hl⟩ := takeTrap_handled (code := code) hf hb ht
      have hu : (s.takeTrap c code).getU s.curUnitKey = s.curUnit.addTrap h (s.core.trapInfo c code) := by
        rw [hl]
        exact State.setU_getU_same _ _ _
      rw [hu]
      exact addTrap_traps _ _ _
    case unhandled =>
      obtain ⟨l, hl⟩ := takeTrap_unhandled (code := code) hf hb ht
      refine ⟨trapFault s.core s.curCore (trapCauseWord c code) s.core.pc, rfl, rfl, trapCauseWord_mod c code, rfl, rfl, rfl, ?_⟩
      rw [hl]
      simp [State.postAll, State.raise, State.post]

end Sys2Proof.Machine
end

section
/-!
PROOFS. What moves next (O57).
-/

namespace Sys2Proof.Machine

/-- What is to be done gives this. -/
def Todo.outcome : Todo → Host.Outcome State Fault Refusal
  | .exec i t => Machine.exec i t
  | .pass t => .next t

theorem step_eq_outcome (s : State) : step s = s.todo.outcome := by
  unfold step
  cases s.todo <;> rfl

theorem toNat_append_byte {n : Nat} (x : BitVec n) (b : Byte) : (x ++ b).toNat = 256 * x.toNat + b.toNat := by
  rw [BitVec.toNat_append, ← Nat.shiftLeft_add_eq_or_of_lt b.isLt, Nat.shiftLeft_eq, Nat.mul_comm]

/-- A number that four bytes make, the low byte first (R34). -/
theorem ofBytes_four (a b c d : Byte) : BitVec.ofNat 32 (ofBytes [a, b, c, d]) = d ++ c ++ b ++ a := by
  apply BitVec.eq_of_toNat_eq
  have hl : ofBytes [a, b, c, d] < 2 ^ 32 := ofBytes_lt _
  rw [BitVec.toNat_ofNat, Nat.mod_eq_of_lt hl]
  simp only [toNat_append_byte, ofBytes]
  omega

section
variable (s : State) (c : Nat)

theorem fetchWord_bytes : ({ s with curCore := c } : State).fetchWord =
    s.memC.get (c * 0x4000 + (s.coreOf c).pc.toNat + 3) ++ s.memC.get (c * 0x4000 + (s.coreOf c).pc.toNat + 2) ++
      s.memC.get (c * 0x4000 + (s.coreOf c).pc.toNat + 1) ++ s.memC.get (c * 0x4000 + (s.coreOf c).pc.toNat) :=
  ofBytes_four _ _ _ _

/-- The limit of a cell's firing, as a core's issue tests it. -/
theorem atLimit_iff (k : CoreSt) : (!isFirmware c && decide (k.firing.fmax ≤ k.firing.issued)) = true ↔
    isFirmware c = false ∧ k.firing.fmax ≤ k.firing.issued := by
  simp

end

section
variable {s : State} {c : Nat}

theorem issue_limit (h : isFirmware c = false ∧ (s.coreOf c).firing.fmax ≤ (s.coreOf c).firing.issued) :
    s.issue c = .pass (({ s with curCore := c } : State).takeTrap .firingLimit 0) :=
  if_pos ((atLimit_iff c _).mpr h)

theorem issue_bounds (hl : ¬ (isFirmware c = false ∧ (s.coreOf c).firing.fmax ≤ (s.coreOf c).firing.issued))
    (hb : 0x4000 ≤ (s.coreOf c).pc.toNat) : s.issue c = .pass (({ s with curCore := c } : State).takeTrap .spaceBounds 0) :=
  (if_neg (mt (atLimit_iff c _).mp hl)).trans (if_pos hb)

/-- What a core's issue does with the word that it has fetched. -/
def State.issueWord (s : State) : Except DecodeError Instr → Todo
  | .ok i => .exec i s.countIssue
  | .error (.reservedField true) => .pass (s.countIssue.takeTrap (if isFirmware s.curCore then .reservedField else .privilege) 0)
  | .error (.reservedField false) => .pass (s.countIssue.takeTrap .reservedField 0)
  | .error _ => .pass (s.countIssue.takeTrap .illegalOpcode 0)

theorem issue_word (hl : ¬ (isFirmware c = false ∧ (s.coreOf c).firing.fmax ≤ (s.coreOf c).firing.issued))
    (hb : (s.coreOf c).pc.toNat < 0x4000) :
    s.issue c = ({ s with curCore := c } : State).issueWord (decodeS ({ s with curCore := c } : State).fetchWord) := by
  refine ((if_neg (mt (atLimit_iff c _).mp hl)).trans (if_neg (Nat.not_le.mpr hb))).trans ?_
  cases decodeS ({ s with curCore := c } : State).fetchWord with
  | ok i => rfl
  | error e => cases e with
    | reservedField p => cases p <;> rfl
    | _ => rfl

/-- A core can issue: it runs and waits for nothing, and either what comes next traps whatever the word is, or the word waits for no permit. -/
theorem coreMoves_iff : s.coreMoves c = true ↔ (s.coreOf c).issues = true ∧
    (isFirmware c = false ∧ (s.coreOf c).firing.fmax ≤ (s.coreOf c).firing.issued ∨ 0x4000 ≤ (s.coreOf c).pc.toNat ∨
      ∀ i, decodeS ({ s with curCore := c } : State).fetchWord = .ok i → ({ s with curCore := c } : State).wordWaits i = false) := by
  have hw : (match decodeS ({ s with curCore := c } : State).fetchWord with
      | .ok i => !({ s with curCore := c } : State).wordWaits i
      | .error _ => true) = true ↔
      ∀ i, decodeS ({ s with curCore := c } : State).fetchWord = .ok i → ({ s with curCore := c } : State).wordWaits i = false := by
    cases decodeS ({ s with curCore := c } : State).fetchWord <;> simp
  have ht : ({ s with curCore := c } : State).trapsAtIssue c = true ↔
      (isFirmware c = false ∧ (s.coreOf c).firing.fmax ≤ (s.coreOf c).firing.issued) ∨ 0x4000 ≤ (s.coreOf c).pc.toNat := by
    refine Bool.or_eq_true_iff.trans (or_congr (atLimit_iff c _) decide_eq_true_iff)
  exact Bool.and_eq_true_iff.trans (and_congr_right fun _ =>
    (Bool.or_eq_true_iff.trans (or_congr ht hw)).trans or_assoc)

theorem fireSlot_decoded {u : Loc} {slot tag : Nat} {w : Word} {h : Word} {i : Instr} (hs : amGet? (s.getU u.key).conf.slots slot = some (w, h))
    (hi : decodeE w = .ok i) : s.fireSlot u slot tag = .exec i { s with curLoc := u, curSlot := slot, curTag := tag } := by
  have e : (s.getU u.key).conf.slotAt slot = some (i, Hdr.ofWord h) := by
    unfold UnitConf.slotAt
    rw [hs]
    dsimp only
    rw [hi]
  unfold State.fireSlot
  rw [e]

theorem mayTake_iff {n : Nat} {e : Event} (he : s.events[n]? = some e) :
    s.mayTake n = true ↔ (∀ x ∈ s.events.take n, Event.before x e = false) ∧ s.waits e.instr = false := by
  unfold State.mayTake
  rw [he]
  simp

theorem takeEvent_listed {n : Nat} {e : Event} (he : s.events[n]? = some e) :
    s.takeEvent n = if s.mayTake n then .exec e.instr { s with events := s.events.eraseIdx n, arg := e.arg } else .pass s := by
  unfold State.takeEvent
  rw [he]

theorem takeEvent_past {n : Nat} (hn : s.events.length ≤ n) : s.takeEvent n = .pass s := by
  unfold State.takeEvent
  rw [List.getElem?_eq_none hn]

theorem firstOfUnit_ready {r : Loc × Nat × Nat} (h : s.firstOfUnit r = true) : r ∈ s.ready :=
  (List.mem_filter.mp (List.mem_of_find?_eq_some (beq_iff_eq.mp h))).1

end

/-- What the outside has still to choose is ts. -/
def State.scheduled (s : State) (ts : List Turn) : State := { s with schedule := ts }

theorem todo_turn {s : State} {t : Turn} {ts : List Turn} (hs : s.schedule = t :: ts) : s.todo = (s.scheduled ts).turn t := by
  unfold State.todo
  rw [hs]
  rfl

section
variable {s : State} (hs : s.schedule = [])
include hs

theorem todo_slot {u : Loc} {slot tag : Nat} {l : List (Loc × Nat × Nat)} (hm : s.mayStart = (u, slot, tag) :: l) :
    s.todo = s.fireSlot u slot tag := by
  unfold State.todo
  rw [hs]
  dsimp only
  rw [hm]

theorem todo_core (hm : s.mayStart = []) {c : Nat} {k : CoreSt} (hc : s.cores.find? (fun x => s.coreMoves x.1) = some (c, k)) :
    s.todo = if isFirmware c && s.nextEvent.isSome then s.takeNext else s.issue c := by
  unfold State.todo
  rw [hs]
  dsimp only
  rw [hm]
  dsimp only
  rw [hc]

theorem todo_no_core (hm : s.mayStart = []) (hc : s.cores.find? (fun x => s.coreMoves x.1) = none) : s.todo = s.takeNext := by
  unfold State.todo
  rw [hs]
  dsimp only
  rw [hm]
  dsimp only
  rw [hc]

end

theorem takeNext_some {s : State} {n : Nat} (hn : s.nextEvent = some n) : s.takeNext = s.takeEvent n := by
  unfold State.takeNext
  rw [hn]

theorem takeNext_none {s : State} (hn : s.nextEvent = none) : s.takeNext = .pass s := by
  unfold State.takeNext
  rw [hn]

/-- Settles O57: each turn by the lemma that says what it does, with the schedule s.schedule where the outside has chosen nothing. -/
theorem stepRunsTheDecodedInstruction : Obligations.StepRunsTheDecodedInstruction := by
  unfold Obligations.StepRunsTheDecodedInstruction
  intro s coreStep slotStep eventStep moves
  have core_steps (ts : List Turn) (c : Nat) (h : step s = ((s.scheduled ts).issue c).outcome) :
      coreStep c { s.scheduled ts with curCore := c } := by
    refine ⟨fun hl => h.trans (congrArg Todo.outcome (issue_limit (s := s.scheduled ts) hl)),
      fun hl hb => h.trans (congrArg Todo.outcome (issue_bounds (s := s.scheduled ts) hl hb)), fun hl hb => ?_⟩
    rw [issue_word (s := s.scheduled ts) hl hb, fetchWord_bytes] at h
    have decoded {d} (hd : _ = d) := h.trans (congrArg (fun d => (State.issueWord { s.scheduled ts with curCore := c } d).outcome) hd)
    exact ⟨fun i hi => decoded hi, fun hi => decoded hi, fun hi => decoded hi, fun hi => decoded hi⟩
  have core_moves (ts : List Turn) (c : Nat) : (s.scheduled ts).coreMoves c = true ↔ moves c (s.scheduled ts) := by
    have e := fetchWord_bytes (s.scheduled ts) c
    refine coreMoves_iff.trans ?_
    rw [e]
    rfl
  have slot_steps (ts : List Turn) (u : Loc) (slot tag : Nat) (h : step s = ((s.scheduled ts).fireSlot u slot tag).outcome) :
      slotStep u slot tag (s.scheduled ts) := by
    intro w p i hs hi
    exact h.trans (congrArg Todo.outcome (fireSlot_decoded (s := s.scheduled ts) hs hi))
  have event_steps (ts : List Turn) (n : Nat) (h : step s = ((s.scheduled ts).takeEvent n).outcome) :
      eventStep n (s.scheduled ts) := by
    intro e he may
    have hm : (s.scheduled ts).mayTake n = true ↔ may := mayTake_iff (s := s.scheduled ts) he
    rw [takeEvent_listed (s := s.scheduled ts) he] at h
    exact ⟨fun m => h.trans (congrArg Todo.outcome (if_pos (hm.mpr m))), fun m => h.trans (congrArg Todo.outcome (if_neg (mt hm.mp m)))⟩
  refine ⟨fun ts => ?chosen, fun hs => ?unchosen⟩
  case chosen =>
    intro t
    have turn {x} (hs : s.schedule = x :: ts) : step s = ((s.scheduled ts).turn x).outcome :=
      (step_eq_outcome s).trans (congrArg Todo.outcome (todo_turn hs))
    refine ⟨fun c hs => ⟨fun hm => ?_, fun hm => ?_⟩, fun u slot tag hs => ?slot, fun n hs => ?event⟩
    · exact core_steps ts c ((turn hs).trans (congrArg Todo.outcome (if_pos ((core_moves ts c).mpr hm))))
    · exact (turn hs).trans (congrArg Todo.outcome (if_neg (mt (core_moves ts c).mp hm)))
    case slot =>
      have passes (hf : ¬ t.firstOfUnit (u, slot, tag) = true) : step s = .next t := (turn hs).trans (congrArg Todo.outcome (if_neg hf))
      exact ⟨fun hf => slot_steps ts u slot tag ((turn hs).trans (congrArg Todo.outcome (if_pos hf))),
        fun hf => passes (by simp [hf]), fun hr => passes (mt firstOfUnit_ready hr)⟩
    case event =>
      exact ⟨event_steps ts n (turn hs), fun hn => (turn hs).trans (congrArg Todo.outcome (takeEvent_past (s := t) hn))⟩
  case unchosen =>
    have outcome {d : Todo} (hd : s.todo = d) : step s = d.outcome := (step_eq_outcome s).trans (congrArg Todo.outcome hd)
    refine ⟨fun u slot tag l hm => slot_steps s.schedule u slot tag (outcome (todo_slot hs hm)),
      fun hm => ⟨fun c k hc => ?core, fun hc => ?none⟩⟩
    case core =>
      have hmoves : s.coreMoves c = true := List.find?_some (p := fun x : Nat × CoreSt => s.coreMoves x.1) hc
      refine ⟨(core_moves s.schedule c).mp hmoves, fun hf => core_steps s.schedule c (outcome ((todo_core hs hm hc).trans (if_neg ?_))),
        fun hf n hn => event_steps s.schedule n (outcome ((todo_core hs hm hc).trans ((if_pos ?_).trans (takeNext_some hn))))⟩
      · rcases hf with hf | hf <;> simp [hf]
      · simp [hf, hn]
    case none =>
      exact ⟨fun n hn => event_steps s.schedule n (outcome ((todo_no_core hs hm hc).trans (takeNext_some hn))),
        fun hn => outcome ((todo_no_core hs hm hc).trans (takeNext_none hn))⟩

end Sys2Proof.Machine
end


section
/-!
PROOFS. The next firing of a slot (O22).
-/

namespace Sys2Proof.Machine

/-! ## Choices (R72) -/

/-- The least choice is the one of the library's minimum by lo, the first of equal ones. -/
theorem leastChoice_eq_argmin (cs : List Choice) : leastChoice cs = cs.argmin Choice.lo := by
  induction cs with
  | nil => rfl
  | cons c cs ih =>
    rw [leastChoice, ih, List.argmin_cons]
    cases cs.argmin Choice.lo with
    | none => rfl
    | some d => simp only [← not_le, ite_not]

/-- A choice for one field more takes a segment of the field that overlaps a choice for the others. -/
theorem mem_choices_cons {f : Fld} {ss : List Seg} {rest : List (Fld × List Seg)} {d : Choice} :
    d ∈ choices ((f, ss) :: rest) ↔ ∃ c ∈ choices rest, ∃ g ∈ ss, max g.lo c.lo < min g.hi c.hi ∧
      { lo := max g.lo c.lo, hi := min g.hi c.hi, real := g.real || c.real, segs := (f, g) :: c.segs } = d := by
  simp only [choices, List.mem_flatMap, List.mem_filterMap, Option.ite_none_right_eq_some, Option.some.injEq]

theorem choices_lo_lt_hi {fs : List (Fld × List Seg)} {c : Choice} (hfs : fs ≠ []) (hc : c ∈ choices fs) : c.lo < c.hi := by
  cases fs with
  | nil => exact absurd rfl hfs
  | cons f rest =>
    obtain ⟨_, _, _, _, overlap, rfl⟩ := mem_choices_cons.mp hc
    exact overlap

/-- The intersection of a choice lies within each of its segments. -/
theorem choices_within_segs {fs : List (Fld × List Seg)} {c : Choice} (hc : c ∈ choices fs) :
    ∀ p ∈ c.segs, p.2.lo ≤ c.lo ∧ c.hi ≤ p.2.hi := by
  induction fs generalizing c with
  | nil =>
    obtain rfl := List.mem_singleton.mp hc
    exact List.forall_mem_nil _
  | cons f rest ih =>
    obtain ⟨d, hd, g, _, _, rfl⟩ := mem_choices_cons.mp hc
    refine List.forall_mem_cons.mpr ⟨⟨le_max_left _ _, min_le_left _ _⟩, fun p hp => ?_⟩
    obtain ⟨hlo, hhi⟩ := ih hd p hp
    exact ⟨hlo.trans (le_max_right _ _), (min_le_right _ _).trans hhi⟩

/-! ## The next firing (R73, R74) -/

/-- The choices of determined segments of a slot under a tag. -/
def SlotEnv.tagChoices (e : SlotEnv) (st : SlotSt) (tag : Nat) : List Choice :=
  choices (e.nets.map fun f => (f, (st.field f tag).segs (fillOf e.instr f (e.hdr.gap f))))

section
variable (e : SlotEnv) (st : SlotSt) (tag : Nat)

theorem SlotEnv.next_eq_argmin :
    e.next st tag = ((e.tagChoices st tag).filter fun c => c.real && decide (amGet st.doneTo tag 0 ≤ c.lo)).argmin Choice.lo :=
  leastChoice_eq_argmin _

variable {e st tag} {c d : Choice}

theorem SlotEnv.mem_untaken : (d ∈ (e.tagChoices st tag).filter fun c => c.real && decide (amGet st.doneTo tag 0 ≤ c.lo)) ↔
    d ∈ e.tagChoices st tag ∧ d.real = true ∧ amGet st.doneTo tag 0 ≤ d.lo := by
  simp only [List.mem_filter, Bool.and_eq_true, decide_eq_true_eq]

theorem SlotEnv.next_isSome (hd : d ∈ e.tagChoices st tag) (hreal : d.real = true) (hlo : amGet st.doneTo tag 0 ≤ d.lo) :
    (e.next st tag).isSome = true := by
  rw [SlotEnv.next_eq_argmin, Option.isSome_iff_ne_none, Ne, List.argmin_eq_none]
  exact List.ne_nil_of_mem (SlotEnv.mem_untaken.mpr ⟨hd, hreal, hlo⟩)

theorem SlotEnv.next_mem (h : e.next st tag = some c) : c ∈ e.tagChoices st tag ∧ c.real = true ∧ amGet st.doneTo tag 0 ≤ c.lo :=
  SlotEnv.mem_untaken.mp (List.argmin_mem (SlotEnv.next_eq_argmin e st tag ▸ h))

theorem SlotEnv.next_lo_le (h : e.next st tag = some c) (hd : d ∈ e.tagChoices st tag) (hreal : d.real = true)
    (hlo : amGet st.doneTo tag 0 ≤ d.lo) : c.lo ≤ d.lo :=
  List.le_of_mem_argmin (SlotEnv.mem_untaken.mpr ⟨hd, hreal, hlo⟩) (SlotEnv.next_eq_argmin e st tag ▸ h)

end

/-! ## The result's sideband (R75) -/

section
variable (e : SlotEnv) (ctx tag : Nat) (c : Choice)

@[simp] theorem SlotEnv.fire_out_lo : (e.fire ctx tag c).out.lo = c.lo := rfl

@[simp] theorem SlotEnv.fire_out_hi : (e.fire ctx tag c).out.hi = c.hi := rfl

@[simp] theorem SlotEnv.fire_out_tag : (e.fire ctx tag c).out.tag = tag := rfl

@[simp] theorem SlotEnv.fire_out_ctx : (e.fire ctx tag c).out.ctx = ctx := rfl

theorem SlotEnv.fire_out_exc :
    (e.fire ctx tag c).out.exc = true ↔ ∃ p ∈ c.segs, (segTok (operandTy e.instr e.hdr) c.lo c.hi p.2).exc = true := by
  simp only [SlotEnv.fire, List.any_map, List.any_eq_true, Function.comp_apply]

theorem SlotEnv.fire_out_sat :
    (e.fire ctx tag c).out.sat = true ↔ ∃ p ∈ c.segs, (segTok (operandTy e.instr e.hdr) c.lo c.hi p.2).sat = true := by
  simp only [SlotEnv.fire, List.any_map, List.any_eq_true, Function.comp_apply]

end

/-- Settles O22: the next firing is a minimum by lo of the choices not taken, each choice lies within its segments, and the firing stamps its
result with the choice. -/
theorem nextFiringIsTheLeastIntersection : Obligations.NextFiringIsTheLeastIntersection := by
  unfold Obligations.NextFiringIsTheLeastIntersection
  refine ⟨fun e st tag ⟨d, hd, hreal, hlo⟩ => SlotEnv.next_isSome hd hreal hlo, fun e st ctx tag c h => ?_⟩
  obtain ⟨hmem, hreal, hdone⟩ := SlotEnv.next_mem h
  exact ⟨hmem, hreal, hdone, fun hnets => choices_lo_lt_hi (List.map_eq_nil_iff.not.mpr hnets) hmem,
    fun d hd hr hl => SlotEnv.next_lo_le h hd hr hl, choices_within_segs hmem, e.fire_out_lo ctx tag c, e.fire_out_hi ctx tag c,
    e.fire_out_tag ctx tag c, e.fire_out_ctx ctx tag c, e.fire_out_exc ctx tag c, e.fire_out_sat ctx tag c⟩

end Sys2Proof.Machine
end

section
/-!
PROOFS. What the scalar words write: ALU words, products and quotients (O1), immediate words and constants (O2), compares and predicate
words (O3).
-/

namespace Sys2Proof.Machine

/-! ### Words that write one register (R122 to R128) -/

section
variable {s : State} {g : Guard} {d a b : RegNum} {v : DWord}

/-- A checked word leaves d written with its value, however that is spelled. -/
theorem runChecked_wrote {rs : List RegNum} {f : CoreSt → DWord} {ok : CoreSt → Bool} (h : s.Executes g rs [])
    (hok : ok s.core = true) (hv : f s.core = v) : runChecked s g rs d f ok = .next (s.wrote d v) :=
  hv ▸ runChecked_executes d f ok h hok

theorem aluBin_wrote {f : DWord → DWord → DWord} {ok : DWord → DWord → Bool} (h : s.Executes g [a, b] [])
    (hok : ∀ x y, ok x y = true) (hv : f (s.core.reg a) (s.core.reg b) = v) : aluBin s g d a b f ok = .next (s.wrote d v) :=
  runChecked_wrote h (hok ..) hv

/-- A word of two sources whose result is computed twice. -/
theorem aluBin_twice_wrote {f : DWord → DWord → DWord} (h : s.Executes g [a, b] []) (hv : f (s.core.reg a) (s.core.reg b) = v) :
    aluBin s g d a b f = .next (s.wrote d v) :=
  aluBin_wrote h (twice_true f) hv

theorem aluUn_wrote {f : DWord → DWord} {ok : DWord → Bool} (h : s.Executes g [a] []) (hok : ∀ x, ok x = true)
    (hv : f (s.core.reg a) = v) : aluUn s g d a f ok = .next (s.wrote d v) :=
  runChecked_wrote h (hok _) hv

/-- A word of one source whose result is computed twice. -/
theorem aluUn_twice_wrote {f : DWord → DWord} (h : s.Executes g [a] []) (hv : f (s.core.reg a) = v) :
    aluUn s g d a f = .next (s.wrote d v) :=
  aluUn_wrote h (fun x => twice_true _ x x) hv

theorem aluSe_wrote {imm : BitVec 12} {f : DWord → DWord → DWord} {ok : DWord → DWord → Bool} (h : s.Executes g [a] [])
    (hok : ∀ x y, ok x y = true) (hv : f (s.core.reg a) (BitVec.ofInt 64 imm.toInt) = v) :
    aluSe s g d a imm f ok = .next (s.wrote d v) :=
  runChecked_wrote h (hok ..) hv

theorem aluZe_wrote {imm : BitVec 12} {f : DWord → DWord → DWord} (h : s.Executes g [a] [])
    (hv : f (s.core.reg a) (BitVec.ofNat 64 imm.toNat) = v) : aluZe s g d a imm f = .next (s.wrote d v) :=
  runChecked_wrote h (twice_true ..) (by rwa [← BitVec.ofNat_toNat])

theorem buildConst_wrote {rs : List RegNum} {f : DWord → DWord} (h : s.Executes Guard.always rs []) (hv : f (s.core.reg d) = v) :
    buildConst s rs d f = .next (s.wrote d v) :=
  runChecked_wrote h (twice_true ..) hv

end

/-! ### Sums, differences, shifts and rotations by their numbers (R123, R124) -/

/-- A difference of words is the word of the difference of their numbers. -/
theorem ofInt_natCast_sub {w : Nat} (m n : Nat) : BitVec.ofInt w ((m : Int) - n) = BitVec.ofNat w m - BitVec.ofNat w n := by
  rw [Int.sub_eq_add_neg, BitVec.ofInt_add, BitVec.ofInt_neg, BitVec.ofInt_natCast, BitVec.ofInt_natCast, BitVec.sub_eq_add_neg]

theorem sub_eq_ofInt (x y : DWord) : x - y = BitVec.ofInt 64 ((x.toNat : Int) - y.toNat) := by
  simp [ofInt_natCast_sub]

theorem zero_sub_eq_ofInt (x : DWord) : 0 - x = BitVec.ofInt 64 (0 - (x.toNat : Int)) := by
  simpa using (ofInt_natCast_sub (w := 64) 0 x.toNat).symm

theorem mul_eq_ofNat (x y : DWord) : x * y = BitVec.ofNat 64 (x.toNat * y.toNat) := by
  simp only [BitVec.ofNat_mul, BitVec.ofNat_toNat, BitVec.setWidth_eq]

theorem shiftLeft_eq_ofNat (x : DWord) (n : Nat) : x <<< n = BitVec.ofNat 64 (x.toNat * 2 ^ n) := by
  apply BitVec.eq_of_toNat_eq
  rw [BitVec.toNat_shiftLeft, BitVec.toNat_ofNat, Nat.shiftLeft_eq]

theorem shiftRight_eq_ofNat (x : DWord) (n : Nat) : x >>> n = BitVec.ofNat 64 (x.toNat / 2 ^ n) := by
  apply BitVec.eq_of_toNat_eq
  rw [BitVec.toNat_ushiftRight, BitVec.toNat_ofNat, Nat.shiftRight_eq_div_pow, Nat.mod_eq_of_lt]
  exact (Nat.div_le_self ..).trans_lt x.isLt

theorem shlValue_eq (x y : DWord) : shlValue x y = if 64 ≤ y.toNat then 0 else BitVec.ofNat 64 (x.toNat * 2 ^ y.toNat) := by
  rw [shlValue, shiftLeft_eq_ofNat]

theorem shrValue_eq (x y : DWord) : shrValue x y = if 64 ≤ y.toNat then 0 else BitVec.ofNat 64 (x.toNat / 2 ^ y.toNat) := by
  rw [shrValue, shiftRight_eq_ofNat]

theorem sraValue_eq (x y : DWord) : sraValue x y = BitVec.ofInt 64 (x.toInt / 2 ^ (if 64 ≤ y.toNat then 63 else y.toNat)) := by
  rw [sraValue, BitVec.sshiftRight, Int.shiftRight_eq_div_pow]
  norm_cast

theorem rolValue_eq (x y : DWord) : rolValue x y =
    BitVec.ofNat 64 (x.toNat * 2 ^ (y.toNat % 64)) ||| BitVec.ofNat 64 (x.toNat / 2 ^ (64 - y.toNat % 64)) := by
  rw [rolValue, BitVec.rotateLeft_def, Nat.mod_mod, shiftLeft_eq_ofNat, shiftRight_eq_ofNat]

theorem rorValue_eq (x y : DWord) : rorValue x y =
    BitVec.ofNat 64 (x.toNat / 2 ^ (y.toNat % 64)) ||| BitVec.ofNat 64 (x.toNat * 2 ^ (64 - y.toNat % 64)) := by
  rw [rorValue, BitVec.rotateRight_def, Nat.mod_mod, shiftLeft_eq_ofNat, shiftRight_eq_ofNat]

theorem ite_sle (x y p q : DWord) : (if x.sle y then p else q) = if x.toInt ≤ y.toInt then p else q := by
  simp only [BitVec.sle_iff_toInt_le]

theorem ite_ule (x y p q : DWord) : (if x.ule y then p else q) = if x.toNat ≤ y.toNat then p else q := by
  simp only [BitVec.ule_iff_toNat_le]

theorem addwValue_eq (x y : DWord) : addwValue x y = (BitVec.ofNat 32 (x.toNat + y.toNat)).signExtend 64 := by
  simp [addwValue, BitVec.ofNat_add]

theorem subwValue_eq (x y : DWord) : subwValue x y = (BitVec.ofInt 32 ((x.toNat : Int) - y.toNat)).signExtend 64 := by
  simp [subwValue, ofInt_natCast_sub]

/-! ### Words of one source (R123) -/

theorem trailZeros_le (n x : Nat) : trailZeros n x ≤ n := by
  induction n generalizing x with
  | zero => exact le_rfl
  | succ n ih =>
    unfold trailZeros
    split
    · exact Nat.zero_le _
    · have := ih (x / 2)
      omega

theorem testBit_of_lt_trailZeros {n x i : Nat} (h : i < trailZeros n x) : x.testBit i = false := by
  induction n generalizing x i with
  | zero => cases h
  | succ n ih =>
    unfold trailZeros at h
    split at h
    case isTrue => cases h
    case isFalse hx =>
      cases i with
      | zero => simpa [Nat.testBit_zero] using hx
      | succ i =>
        rw [Nat.testBit_succ]
        exact ih (by omega)

theorem testBit_trailZeros {n x : Nat} (h : trailZeros n x < n) : x.testBit (trailZeros n x) = true := by
  induction n generalizing x with
  | zero => cases h
  | succ n ih =>
    unfold trailZeros at h ⊢
    split at h
    case isTrue hx => simp [hx, Nat.testBit_zero]
    case isFalse hx =>
      rw [if_neg hx, Nat.add_comm, Nat.testBit_succ]
      exact ih (by omega)

theorem leadZeros_toNat (x : DWord) : leadZeros 64 x.toNat = if x.toNat = 0 then 64 else 63 - x.toNat.log2 := by
  rw [leadZeros, Nat.mod_eq_of_lt x.isLt]

theorem log2_toNat_lt {x : DWord} (h : x.toNat ≠ 0) : x.toNat.log2 < 64 := (Nat.log2_lt h).2 x.isLt

theorem leadZeros_toNat_le (x : DWord) : leadZeros 64 x.toNat ≤ 64 := by
  rw [leadZeros_toNat]
  split <;> omega

theorem getLsbD_of_leadZeros_le {x : DWord} {i : Nat} (h : 64 - leadZeros 64 x.toNat ≤ i) : x.getLsbD i = false := by
  rw [leadZeros_toNat] at h
  split at h
  case isTrue hx => rw [BitVec.getLsbD, hx, Nat.zero_testBit]
  case isFalse hx =>
    have hlog := log2_toNat_lt hx
    exact Nat.testBit_lt_two_pow (Nat.lt_log2_self.trans_le (Nat.pow_le_pow_right two_pos (by omega)))

theorem getLsbD_leadZeros {x : DWord} (h : leadZeros 64 x.toNat < 64) : x.getLsbD (63 - leadZeros 64 x.toNat) = true := by
  rw [leadZeros_toNat] at h ⊢
  split at h
  case isTrue => exact absurd h (lt_irrefl 64)
  case isFalse hx =>
    have hlog := log2_toNat_lt hx
    rw [if_neg hx, show 63 - (63 - x.toNat.log2) = x.toNat.log2 by omega]
    exact Nat.testBit_log2 hx

/-- The set bits of a number, counted from bit 0 up, are those of its half and bit 0. -/
theorem popCount_eq_length_filter (n x : Nat) : popCount n x = ((List.range n).filter fun i => x.testBit i).length := by
  induction n generalizing x with
  | zero => rfl
  | succ n ih =>
    rw [popCount, ih, List.range_succ_eq_map, List.filter_cons, List.filter_map, Nat.testBit_zero]
    simp only [Function.comp_def, Nat.testBit_succ]
    by_cases hx : x % 2 = 1
    · simp [hx, Nat.add_comm]
    · simp [Nat.mod_two_ne_one.1 hx]

theorem sextFrom_eq (n : Nat) (x : DWord) : sextFrom n x = (x.extractLsb' 0 n).signExtend 64 := by
  rw [sextFrom, BitVec.extractLsb', Nat.shiftRight_zero, BitVec.ofNat_toNat]

theorem zextFrom_eq (n : Nat) (x : DWord) : zextFrom n x = BitVec.ofNat 64 (x.toNat % 2 ^ n) := by
  rw [zextFrom, ← BitVec.ofNat_toNat, BitVec.toNat_setWidth]

theorem slt_zero_iff (x : DWord) : x.slt 0 = true ↔ x.toInt < 0 := by simp [BitVec.slt]

theorem absValue_eq (x : DWord) : absValue x = BitVec.ofNat 64 x.toInt.natAbs := by
  simp only [absValue, slt_zero_iff, ← BitVec.ofInt_natCast]
  split
  case isTrue h => rw [Int.ofNat_natAbs_of_nonpos h.le, BitVec.ofInt_neg, BitVec.ofInt_toInt]; exact BitVec.zero_sub x
  case isFalse h => rw [Int.natAbs_of_nonneg (not_lt.1 h), BitVec.ofInt_toInt]

/-! ### Products and quotients (R125, R126) -/

theorem eq_zero_iff_toNat (x : DWord) : x = 0 ↔ x.toNat = 0 := BitVec.toNat_inj.symm

theorem divOverflow_iff (x y : DWord) : divOverflow x y = true ↔ x.toInt = -2 ^ 63 ∧ y.toInt = -1 := by
  simp [divOverflow, ← BitVec.toInt_inj]

theorem divValue_eq (x y : DWord) : divValue x y = if y.toNat = 0 then 0xFFFFFFFFFFFFFFFF
    else if x.toInt = -2 ^ 63 ∧ y.toInt = -1 then x else BitVec.ofInt 64 (x.toInt.tdiv y.toInt) := by
  simp only [divValue, eq_zero_iff_toNat, divOverflow_iff]
  rfl

theorem remValue_eq (x y : DWord) : remValue x y = if y.toNat = 0 then x
    else if x.toInt = -2 ^ 63 ∧ y.toInt = -1 then 0 else BitVec.ofInt 64 (x.toInt.tmod y.toInt) := by
  simp only [remValue, eq_zero_iff_toNat, divOverflow_iff, Int.tmod_def, Int.mul_comm]

theorem divnValue_eq (x y : DWord) : divnValue x y = if y.toNat = 0 then 0xFFFFFFFFFFFFFFFF
    else BitVec.ofNat 64 (x.toNat / y.toNat) := by
  simp only [divnValue, eq_zero_iff_toNat]
  rfl

theorem remnValue_eq (x y : DWord) : remnValue x y = if y.toNat = 0 then x else BitVec.ofNat 64 (x.toNat % y.toNat) := by
  simp only [remnValue, eq_zero_iff_toNat]

theorem mulwValue_eq (x y : DWord) : mulwValue x y = (BitVec.ofNat 32 (x.toNat * y.toNat)).signExtend 64 := by
  simp [mulwValue, BitVec.ofNat_mul]

/-! ### Reserved fields of words of one source (R123) -/

theorem rsvdZero_of_false {c : Bool} (i : Instr) (h : c = false) : rsvdZero c i = .error (.reservedField false) := by
  rw [h]; rfl

theorem decodeS_of_alu {w : Word} (h : fld w 26 6 = 0) : decodeS w = decodeAlu w := by
  unfold decodeS
  rw [h]
  rfl

theorem decodeAlu_unary_reserved {w : Word} (hlo : 0x10 ≤ (fld w 0 7).toNat) (hhi : (fld w 0 7).toNat ≤ 0x1B) (hb : fld w 11 5 ≠ 0) :
    decodeAlu w = .error (.reservedField false) := by
  unfold decodeAlu
  split
  case h_17 | h_18 | h_19 | h_20 | h_21 | h_22 | h_23 | h_24 | h_25 | h_26 | h_27 | h_28 =>
    exact rsvdZero_of_false _ (beq_eq_false_iff_ne.2 hb)
  case h_31 => rfl
  all_goals omega

/-- Settles O1: each word runs under a check that its value passes, and the value is the spec's by the equations above. -/
theorem aluWordsWriteTheirResult : Obligations.AluWordsWriteTheirResult := by
  unfold Obligations.AluWordsWriteTheirResult
  refine ⟨fun s d a b g h => ?_, fun s d a b g h => ?_, ⟨fun s d a g h => ?_, fun w hop hlo hhi hb => ?_⟩, fun s d a b g h => ?_⟩
  · exact ⟨aluBin_wrote h addCheck_true (BitVec.add_def ..), aluBin_wrote h subCheck_true (sub_eq_ofInt ..),
      aluBin_twice_wrote h rfl, aluBin_twice_wrote h rfl, aluBin_twice_wrote h rfl, aluBin_twice_wrote h rfl,
      aluBin_twice_wrote h (shlValue_eq ..), aluBin_twice_wrote h (shrValue_eq ..), aluBin_twice_wrote h (sraValue_eq ..),
      aluBin_twice_wrote h (rolValue_eq ..), aluBin_twice_wrote h (rorValue_eq ..),
      (aluBin_wrote h carried_true (ite_sle ..) : execMin d a b g s = _), (aluBin_wrote h carried_true (ite_sle ..) : execMax d a b g s = _),
      (aluBin_wrote h carried_true (ite_ule ..) : execMinn d a b g s = _), (aluBin_wrote h carried_true (ite_ule ..) : execMaxn d a b g s = _),
      aluBin_wrote h addwCheck_true (addwValue_eq ..), aluBin_wrote h subwCheck_true (subwValue_eq ..)⟩
  · exact (runReg_executes true _ h : execSel d a b g s = _)
  · exact ⟨⟨_, leadZeros_toNat_le _, fun _ => getLsbD_of_leadZeros_le, getLsbD_leadZeros, aluUn_twice_wrote h rfl⟩,
      ⟨_, trailZeros_le .., fun _ => testBit_of_lt_trailZeros, testBit_trailZeros, aluUn_twice_wrote h rfl⟩,
      aluUn_twice_wrote h (congrArg (BitVec.ofNat 64) (popCount_eq_length_filter ..)),
      aluUn_twice_wrote h (sextFrom_eq ..), aluUn_twice_wrote h (sextFrom_eq ..), aluUn_twice_wrote h (sextFrom_eq ..),
      aluUn_twice_wrote h (zextFrom_eq ..), aluUn_twice_wrote h (zextFrom_eq ..), aluUn_twice_wrote h (zextFrom_eq ..),
      (aluUn_wrote h (fun x => carried_true x x) rfl : execMov d a g s = _), aluUn_twice_wrote h (absValue_eq ..),
      (aluUn_wrote h (subCheck_true 0) (zero_sub_eq_ofInt _) : execNeg d a g s = _)⟩
  · rw [decodeS_of_alu hop, decodeAlu_unary_reserved hlo hhi hb]
  · exact ⟨aluBin_wrote h productCheck_true (mul_eq_ofNat ..), aluBin_wrote h mulhCheck_true rfl,
      aluBin_wrote h productCheck_true rfl, aluBin_wrote h divCheck_true (divValue_eq ..), aluBin_wrote h divCheck_true (remValue_eq ..),
      aluBin_wrote h divnCheck_true (divnValue_eq ..), aluBin_wrote h divnCheck_true (remnValue_eq ..),
      aluBin_wrote h mulwCheck_true (mulwValue_eq ..)⟩

/-! ### Constants (R128) -/

theorem luiValue_fields (x : DWord) (imm : BitVec 21) :
    (luiValue x imm).extractLsb' 21 21 = imm ∧ (luiValue x imm).extractLsb' 0 21 = x.extractLsb' 0 21 ∧
      (luiValue x imm).extractLsb' 42 22 = x.extractLsb' 42 22 := by
  refine ⟨?_, ?_, ?_⟩ <;> unfold luiValue
  · rw [fld_append_hi _ _ 21 21 (by omega), fld_append_lo _ _ _ 21 (by omega), fld_whole]
  · rw [fld_append_lo _ _ 0 21 (by omega), fld_whole]
  · rw [fld_append_hi _ _ 42 22 (by omega), fld_append_hi _ _ _ 22 (by omega), fld_whole]

theorem luihValue_fields (x : DWord) (imm : BitVec 21) :
    (luihValue x imm).extractLsb' 42 21 = imm ∧ (luihValue x imm).getLsbD 63 = imm.getLsbD 20 ∧
      (luihValue x imm).extractLsb' 0 42 = x.extractLsb' 0 42 := by
  refine ⟨?_, ?_, ?_⟩ <;> unfold luihValue
  · rw [fld_append_hi _ _ 42 21 (by omega)]
    ext i hi
    rw [BitVec.getElem_extractLsb', BitVec.getLsbD_signExtend]
    simp [hi, show i < 22 by omega]
  · rw [BitVec.getLsbD_append, if_neg (by omega), BitVec.getLsbD_signExtend]
    simp [BitVec.msb_eq_getLsbD_last]
  · rw [fld_append_lo _ _ 0 42 (by omega), fld_whole]

/-- A word that executes with a source to check executes with none. -/
theorem State.Executes.nil {s : State} {g : Guard} {rs : List RegNum} (h : s.Executes g rs []) : s.Executes g [] [] := by
  obtain ⟨⟨h1, h2, hguard, -, hpreds⟩, hg⟩ := h
  exact ⟨⟨h1, h2, hguard, rfl, hpreds⟩, hg⟩

/-- Settles O2: an immediate takes the place of the second source, and a constant has the fields of its word. -/
theorem immediateWordsWriteTheirResult : Obligations.ImmediateWordsWriteTheirResult := by
  unfold Obligations.ImmediateWordsWriteTheirResult
  refine ⟨fun s d a imm g h => ?_, fun s d imm h => ⟨?_, ?_, ?_⟩⟩
  · exact ⟨aluSe_wrote h addCheck_true (BitVec.add_def ..), aluZe_wrote h rfl, aluZe_wrote h rfl, aluZe_wrote h rfl,
      aluSe_wrote h (twice_true _) (shlValue_eq ..), aluSe_wrote h (twice_true _) (shrValue_eq ..),
      aluSe_wrote h (twice_true _) (sraValue_eq ..), aluSe_wrote h productCheck_true (mul_eq_ofNat ..)⟩
  · exact buildConst_wrote h.nil rfl
  · obtain ⟨hmid, hlo, hhi⟩ := luiValue_fields (s.core.reg d) imm
    exact ⟨_, buildConst_wrote h rfl, hmid, hlo, hhi⟩
  · obtain ⟨hmid, htop, hlo⟩ := luihValue_fields (s.core.reg d) imm
    exact ⟨_, buildConst_wrote h rfl, hmid, htop, hlo⟩

/-! ### Words that write one predicate (R129 to R131) -/

section
variable {s : State} {g : Guard} {p q r : PredNum} {a b : RegNum} {v : Bool}

/-- A compare leaves its predicate written with its condition, however that is spelled. -/
theorem exec_cmp {c : Cond} (h : s.Executes g [a, b] []) (hv : condHolds c (s.core.reg a) (s.core.reg b) = v) :
    exec (.cmp c p a b g) s = .next (s.wroteP p v) :=
  hv ▸ runReg_executes true (fun k => k.setPred p (condHolds c (k.reg a) (k.reg b))) h

theorem exec_cmpi {c : CondI} {imm : BitVec 12} (h : s.Executes g [a] []) (hv : condIHolds c (s.core.reg a) (imm.signExtend 64) = v) :
    exec (.cmpi c p a imm g) s = .next (s.wroteP p v) :=
  hv ▸ runReg_executes true (fun k => k.setPred p (condIHolds c (k.reg a) (imm.signExtend 64))) h

theorem predBin_wroteP {f : Bool → Bool → Bool} (h : s.Executes g [] [q, r]) :
    predBin s g p q r f = .next (s.wroteP p (f (s.core.pred q) (s.core.pred r))) :=
  runReg_executes false _ h

theorem predUn_wroteP {f : Bool → Bool} (h : s.Executes g [] [q]) : predUn s g p q f = .next (s.wroteP p (f (s.core.pred q))) :=
  runReg_executes false _ h

theorem predSet_wroteP (h : s.Executes g [] []) : predSet s g p v = .next (s.wroteP p v) :=
  runReg_executes false (fun k => k.setPred p v) h

end

theorem not_slt (x y : DWord) : (!x.slt y) = decide (y.toInt ≤ x.toInt) := by
  rw [BitVec.slt, ← decide_not, decide_eq_decide, not_lt]

theorem not_ult (x y : DWord) : (!x.ult y) = decide (y.toNat ≤ x.toNat) := by
  rw [BitVec.ult, ← decide_not, decide_eq_decide, not_lt]

/-- A compare with an immediate compares the signed numbers. -/
theorem condIHolds_signExtend (x : DWord) (imm : BitVec 12) :
    condIHolds .eq x (imm.signExtend 64) = decide (x.toInt = imm.toInt) ∧
      condIHolds .ne x (imm.signExtend 64) = decide (x.toInt ≠ imm.toInt) ∧
      condIHolds .lt x (imm.signExtend 64) = decide (x.toInt < imm.toInt) ∧
      condIHolds .ge x (imm.signExtend 64) = decide (imm.toInt ≤ x.toInt) := by
  have himm : (imm.signExtend 64).toInt = imm.toInt := BitVec.toInt_signExtend_of_le (by omega)
  rw [← himm]
  have heq : x = imm.signExtend 64 ↔ x.toInt = (imm.signExtend 64).toInt := BitVec.toInt_inj.symm
  exact ⟨decide_eq_decide.2 heq, by rw [decide_not, ← decide_eq_decide.2 heq]; rfl, rfl, not_slt ..⟩

/-! ### Reserved fields of compares and predicate words (R129 to R131) -/

theorem decodeS_of_cmp {w : Word} (h : fld w 26 6 = 2) : decodeS w = decodeCmp w := by
  unfold decodeS
  rw [h]
  rfl

theorem decodeS_of_pred {w : Word} (h : fld w 26 6 = 3) : decodeS w = decodePred w := by
  unfold decodeS
  rw [h]
  rfl

theorem decodeS_of_cmpi {w : Word} (h : fld w 26 6 = 0x0B) :
    decodeS w = .ok (.cmpi (CondI.ofCode (fld w 24 2)) (fld w 21 3) (fld w 16 5) (fld w 0 12) (guardRI w)) := by
  unfold decodeS
  rw [h]
  rfl

/-- A predicate word with a field that must be zero for its operation and is not. -/
theorem decodePred_reserved {w : Word} (hz : fld w 24 2 ≠ 0 ∨ ((fld w 0 7).toNat ≤ 5 ∧ fld w 19 2 ≠ 0) ∨
    ((fld w 0 7).toNat ≤ 3 ∧ fld w 14 2 ≠ 0) ∨ (4 ≤ (fld w 0 7).toNat ∧ fld w 11 5 ≠ 0) ∨ (6 ≤ (fld w 0 7).toNat ∧ fld w 16 5 ≠ 0)) :
    decodePred w = .error (.reservedField false) := by
  unfold decodePred
  split
  case h_1 hop | h_2 hop | h_3 hop | h_4 hop | h_5 hop | h_6 hop =>
    refine rsvdZero_of_false _ (Bool.eq_false_iff.2 fun hok => ?_)
    simp only [Bool.and_eq_true, beq_iff_eq] at hok
    simp [hok, hop] at hz
  case h_7 hop | h_8 hop =>
    refine rsvdZero_of_false _ (Bool.eq_false_iff.2 fun hok => ?_)
    simp only [Bool.and_eq_true, beq_iff_eq] at hok
    obtain ⟨hd, hab⟩ := hok
    simp [hd, fld_ab_eq_zero_iff.1 hab, hop] at hz
  case h_9 => rfl

/-- Settles O3: each condition and each predicate is read off the core before the write, and the decoder refuses the reserved fields. -/
theorem compareAndPredicateWordsWriteTheirCondition : Obligations.CompareAndPredicateWordsWriteTheirCondition := by
  unfold Obligations.CompareAndPredicateWordsWriteTheirCondition
  refine ⟨⟨fun s p a b g h => ?_, fun w hop hz => ?_, fun w hop => ⟨_, _, _, _, _, decodeS_of_cmpi hop⟩, fun s p a imm g h => ?_⟩,
    fun s d a b g h => ⟨predBin_wroteP h, predBin_wroteP h, predBin_wroteP h, (predBin_wroteP h : execPandn d a b g s = _)⟩,
    fun s d a g h => ⟨predUn_wroteP h, predUn_wroteP h⟩, fun s d g h => ⟨predSet_wroteP h, predSet_wroteP h⟩, fun w hop => ?_⟩
  · exact ⟨exec_cmp h rfl, exec_cmp h decide_not.symm, exec_cmp h rfl, exec_cmp h (not_slt ..), exec_cmp h rfl, exec_cmp h (not_ult ..),
      exec_cmp h decide_not.symm, exec_cmp h rfl⟩
  · rw [decodeS_of_cmp hop, decodeCmp, if_neg fun hzero => hz hzero.1]
  · obtain ⟨heq, hne, hlt, hge⟩ := condIHolds_signExtend (s.core.reg a) imm
    exact ⟨exec_cmpi h heq, exec_cmpi h hne, exec_cmpi h hlt, exec_cmpi h hge⟩
  · intro fn _ hz
    rw [decodeS_of_pred hop, decodePred_reserved hz]

end Sys2Proof.Machine
end

section
/-!
PROOFS. Handlers: which one is selected and how its firing starts, a firing that runs again, a FIN that waits, barriers (O42).
-/

namespace Sys2Proof.Machine

/-! ### The choice among the runnable handlers (R262) -/

theorem lowest_mem {l : List Cand} {c : Cand} (h : lowest l = some c) : c ∈ l := by
  induction l generalizing c with
  | nil => cases h
  | cons d l ih =>
    unfold lowest at h
    split at h
    case h_1 e he =>
      split at h
      · exact List.mem_cons_of_mem d (Option.some.inj h ▸ ih he)
      · exact Option.some.inj h ▸ List.mem_cons_self
    case h_2 => exact Option.some.inj h ▸ List.mem_cons_self

theorem best_mem {l : List Cand} {c : Cand} (h : best l = some c) : c ∈ l := by
  induction l generalizing c with
  | nil => cases h
  | cons d l ih =>
    unfold best at h
    split at h
    case h_1 e he =>
      split at h
      · exact Option.some.inj h ▸ List.mem_cons_self
      · exact List.mem_cons_of_mem d (Option.some.inj h ▸ ih he)
    case h_2 => exact Option.some.inj h ▸ List.mem_cons_self

theorem best_eq_none {l : List Cand} (h : best l = none) : l = [] := by
  cases l with
  | nil => rfl
  | cons d l =>
    unfold best at h
    split at h
    case h_1 => split at h <;> cases h
    case h_2 => cases h

theorem pick_mem {l : List Cand} {c : Cand} (h : pick l = some c) : c ∈ l := by
  simp only [pick, Option.or_eq_some_iff, Option.or_eq_none_iff] at h
  rcases h with (h | ⟨-, h⟩) | ⟨-, h⟩
  · exact List.mem_of_mem_filter (lowest_mem h)
  · exact List.mem_of_mem_filter (lowest_mem h)
  · exact best_mem h

/-- Without a trap and a handler that has been passed over too often, step 3 decides. -/
theorem pick_eq_best {l : List Cand} (h : ∀ d ∈ l, d.a.isTrap = false ∧ d.st.passes < 64) : pick l = best l := by
  have htrap : (l.filter fun c => c.a.isTrap) = [] := List.filter_eq_nil_iff.2 fun d hd => by simp [(h d hd).1]
  have hpass : (l.filter fun c => 64 ≤ c.st.passes) = [] := List.filter_eq_nil_iff.2 fun d hd => by simp [(h d hd).2]
  rw [pick, htrap, hpass]
  rfl

theorem before_prio {c d : Cand} (h : c.before d = true) : d.a.prio ≤ c.a.prio := by
  unfold Cand.before at h
  split at h
  case isTrue => exact (of_decide_eq_true h).le
  case isFalse heq => exact (by simpa using heq : c.a.prio = d.a.prio).ge

theorem not_before_prio {c d : Cand} (h : ¬ c.before d = true) : c.a.prio ≤ d.a.prio := by
  unfold Cand.before at h
  split at h
  case isTrue => exact not_lt.1 fun hlt => h (decide_eq_true hlt)
  case isFalse heq => exact (by simpa using heq : c.a.prio = d.a.prio).le

/-- Step 3 takes a handler of highest priority. -/
theorem prio_le_best {l : List Cand} {c : Cand} (h : best l = some c) : ∀ d ∈ l, d.a.prio ≤ c.a.prio := by
  induction l generalizing c with
  | nil => cases h
  | cons x l ih =>
    unfold best at h
    split at h
    case h_1 e he =>
      split at h
      case isTrue hbefore =>
        cases h
        exact List.forall_mem_cons.2 ⟨le_rfl, fun d hd => (ih he d hd).trans (before_prio hbefore)⟩
      case isFalse hbefore =>
        cases h
        exact List.forall_mem_cons.2 ⟨not_before_prio hbefore, ih he⟩
    case h_2 hnone =>
      cases h
      simp [best_eq_none hnone]

/-! ### The start of a firing (R43, R134, R299) -/

@[simp] theorem CoreSt.start_running (k : CoreSt) (f : Firing) (pc : DWord) : (k.start f pc).running = true := rfl
@[simp] theorem CoreSt.start_failed (k : CoreSt) (f : Firing) (pc : DWord) : (k.start f pc).failed = false := rfl
@[simp] theorem CoreSt.start_pc (k : CoreSt) (f : Firing) (pc : DWord) : (k.start f pc).pc = pc := rfl
@[simp] theorem CoreSt.start_firing (k : CoreSt) (f : Firing) (pc : DWord) : (k.start f pc).firing = f := rfl
@[simp] theorem CoreSt.start_reg_one (k : CoreSt) (f : Firing) (pc : DWord) : (k.start f pc).reg 1 = f.s1 := rfl
@[simp] theorem CoreSt.start_reg_two (k : CoreSt) (f : Firing) (pc : DWord) : (k.start f pc).reg 2 = f.s2 := rfl
@[simp] theorem CoreSt.start_reg_four (k : CoreSt) (f : Firing) (pc : DWord) : (k.start f pc).reg 4 = 0 := rfl

section
variable (entry fmax : Nat) (u : UnitSt) (c : Cand)

theorem startFiring_handler_prio : (startFiring entry fmax u c).1.handler = c.h ∧ (startFiring entry fmax u c).1.prio = c.a.prio := by
  unfold startFiring
  cases c.a.isTrap with
  | true => cases c.st.traps <;> exact ⟨rfl, rfl⟩
  | false => cases u.nextTrigger c.h <;> exact ⟨rfl, rfl⟩

/-- The trigger's payload, tag and span are the firing's, and it leaves the pending queue (R299, notes/assumptions/43.md). -/
theorem startFiring_trigger {u : UnitSt} {c : Cand} {k : Nat} {tr : Token} (htrap : c.a.isTrap = false)
    (hnext : u.nextTrigger c.h = some (k, tr)) : ∃ f, startFiring entry fmax u c = (f, { u with pending := u.pending.erase (k, tr) }) ∧
      f.s1 = tr.payload.setWidth 64 ∧ f.s2 = BitVec.ofNat 64 tr.tag ∧ f.tag = tr.tag ∧ f.seq = tr.seq ∧ f.spanLo = tr.lo ∧ f.spanHi = tr.hi := by
  simp only [startFiring, htrap, hnext, Bool.false_eq_true, if_false]
  exact ⟨_, rfl, rfl, rfl, rfl, rfl, rfl, rfl⟩

end

/-! ### The selection (R262) -/

/-- The unit under a key is as in s but for its actors. -/
def State.ActorsOnly (s t : State) (key : Nat) : Prop := ∃ as, t.getU key = { s.getU key with actors := as }

/-- Updates that each touch no more of a unit than its actors do so together. -/
theorem foldl_actorsOnly {α : Type} {f : State → α → State} {key : Nat} (h : ∀ (s : State) x, s.ActorsOnly (f s x) key) (l : List α) (s : State) :
    s.ActorsOnly (l.foldl f s) key := by
  induction l generalizing s with
  | nil => exact ⟨_, rfl⟩
  | cons x l ih =>
    obtain ⟨as, has⟩ := h s x
    obtain ⟨bs, hbs⟩ := ih (f s x)
    exact ⟨bs, by rw [List.foldl_cons, hbs, has]⟩

theorem updU_actorsOnly (s : State) (n key : Nat) (f : UnitSt → AMap ActorSt) :
    s.ActorsOnly (s.updU n fun u => { u with actors := f u }) key := by
  by_cases hkey : key = n
  · subst hkey
    exact ⟨_, State.setU_getU_same ..⟩
  · exact ⟨_, State.setU_getU_other _ _ _ _ hkey⟩

/-- A runnable handler other than the chosen one counts that it has been passed over. -/
def State.countPass (c : Cand) (s : State) (d : Cand) : State :=
  if d.key == c.key && d.h == c.h then s
  else s.updU d.key fun u => { u with actors := amUpd u.actors d.h {} fun a => { a with passes := a.passes + 1 } }

theorem countPass_actorsOnly (c : Cand) (s : State) (d : Cand) (key : Nat) : s.ActorsOnly (State.countPass c s d) key := by
  unfold State.countPass
  split
  · exact ⟨_, rfl⟩
  · exact updU_actorsOnly ..

/-- The entry of a cell's configuration. -/
def entryOf : Loc → Nat
  | .cell _ e => e
  | .node _ => 0

/-- The firing that the chosen handler starts, and its unit with the trigger or the trap taken. -/
def State.chosenFiring (s : State) (c : Cand) : Firing × UnitSt :=
  startFiring (entryOf (Loc.ofKey c.key)) (s.getPad (s.getU c.key).pad).conf.fmax (s.getU c.key)
    { c with st := amGet (s.getU c.key).actors c.h {} }

theorem chosenFiring_handler_prio (s : State) (c : Cand) :
    (s.chosenFiring c).1.handler = c.h ∧ (s.chosenFiring c).1.prio = c.a.prio :=
  startFiring_handler_prio ..

/-- The chosen handler's firing has started on a core that was k. -/
def State.startHandler (cell : Nat) (k : CoreSt) (c : Cand) (s : State) : State :=
  let f := (s.chosenFiring c).1
  let u := (s.chosenFiring c).2
  let s := s.setU c.key { u with actors := amUpd u.actors c.h {} fun a => { a with passes := 0, lastSel := some (k.selections + 1) } }
  ((s.loadCode cell u.conf).touch (Loc.ofKey c.key)).setCoreOf cell { k.start f c.a.entryPc with selections := k.selections + 1 }

theorem startHandler_coreOf (cell : Nat) (k : CoreSt) (c : Cand) (s : State) : (s.startHandler cell k c).coreOf cell =
    { k.start (s.chosenFiring c).1 c.a.entryPc with selections := k.selections + 1 } :=
  State.setCoreOf_coreOf_same ..

/-- Code that is loaded, a use that is noted and a core that starts leave the units. -/
theorem started_getU (s : State) (loc : Loc) (cell : Nat) (x : UnitConf) (k : CoreSt) (key : Nat) :
    (((s.loadCode cell x).touch loc).setCoreOf cell k).getU key = s.getU key := by
  cases loc <;> rfl

/-- The start of a firing leaves the unit's queue of triggers as the firing has left it. -/
theorem startHandler_pending (cell : Nat) (k : CoreSt) (c : Cand) (s : State) :
    ((s.startHandler cell k c).getU c.key).pending = (s.chosenFiring c).2.pending := by
  unfold State.startHandler
  rw [started_getU, State.setU_getU_same]

section
variable {s : State} {cell : Nat} {c : Cand}

/-- A selection passes over the runnable handlers that it does not choose, and starts the one that it chooses. -/
theorem exec_handlerSelect (hfw : isFirmware cell = false) (hrun : (s.coreOf cell).running = false) (hfail : (s.coreOf cell).failed = false)
    (hwait : (s.coreOf cell).finWait = false) (hpick : pick (s.runnable cell true) = some c) :
    exec (.handlerSelect cell) s =
      .next (((s.runnable cell true).foldl (State.countPass c) s).startHandler cell (s.coreOf cell) c) := by
  change execHandlerSelect cell s = _
  simp only [execHandlerSelect, hfw, hrun, hfail, hwait, hpick, Bool.false_eq_true, Bool.or_self, if_false]
  rfl

/-- The firing of a trigger takes it from the queue, whatever the selection has counted before (R299, notes/assumptions/43.md). -/
theorem chosenFiring_trigger {s1 : State} {k : Nat} {tr : Token} (h1 : s.ActorsOnly s1 c.key) (htrap : c.a.isTrap = false)
    (hnext : (s.getU c.key).nextTrigger c.h = some (k, tr)) :
    ∃ f u, s1.chosenFiring c = (f, u) ∧ u.pending = (s.getU c.key).pending.erase (k, tr) ∧
      f.s1 = tr.payload.setWidth 64 ∧ f.s2 = BitVec.ofNat 64 tr.tag ∧ f.tag = tr.tag ∧ f.seq = tr.seq ∧ f.spanLo = tr.lo ∧ f.spanHi = tr.hi := by
  obtain ⟨as, has⟩ := h1
  unfold State.chosenFiring
  rw [has]
  obtain ⟨f, hstart, hf⟩ := startFiring_trigger (entryOf (Loc.ofKey c.key)) (s1.getPad (s.getU c.key).pad).conf.fmax
    (u := { s.getU c.key with actors := as }) (c := { c with st := amGet as c.h {} }) htrap hnext
  exact ⟨f, _, hstart, rfl, hf⟩

end

/-! ### Firings that run again, and FINs that wait (R134, R232, R303) -/

theorem exec_firingRerun {s : State} {cell : Nat} (hfail : (s.coreOf cell).failed = true) (htest : (s.getCell cell).testing = false) :
    exec (.firingRerun cell) s =
      let f := (s.coreOf cell).firing
      let pc := if isFirmware cell then 0 else (amGet (s.getU (Loc.key (.cell cell f.entry))).conf.actors f.handler {}).entryPc
      .next (s.setCoreOf cell ((s.coreOf cell).start { f with reruns := f.reruns + 1, spanLo := f.startLo, spanHi := f.startHi } pc)) := by
  change execFiringRerun cell s = _
  simp only [execFiringRerun, hfail, htest, Bool.not_true, Bool.false_eq_true, if_false]

/-- While the output ports have room, a FIN waits for the permits of its stores alone. -/
theorem finWaits_iff {s : State} (hroom : s.curUnit.outFull = false) : s.finWaits = true ↔ isFirmware s.curCore = false ∧
    ∃ a v, Held.store .s a v ∈ s.core.firing.held ∧ s.sliceFull s.core.firing.pad s.curCore (sliceOfAddr a) = true := by
  simp only [State.finWaits, hroom, Bool.false_and, Bool.false_or, Bool.and_eq_true, Bool.not_eq_true', List.any_eq_true]
  refine and_congr_right fun _ => ⟨?_, ?_⟩
  · rintro ⟨h, hmem, hfull⟩
    split at hfull
    case h_1 a v => exact ⟨a, v, hmem, hfull⟩
    case h_2 => cases hfull
  · rintro ⟨a, v, hmem, hfull⟩
    exact ⟨_, hmem, hfull⟩

theorem fin_of_not_waits {s : State} (h : ¬ s.finWaits = true) : s.fin = s.finCommit := if_neg h

/-- A FIN that waits for permits is looked at again. -/
theorem fin_of_waits {s : State} (h : s.finWaits = true) (hroom : s.curUnit.outFull = false) :
    s.fin = (s.setCore { s.core with finWait := true }).post (.finPortRelease s.curCore) := by
  rw [State.fin, if_pos h]
  simp only [hroom, Bool.false_eq_true, if_false]

/-- The current core's unit is named by its core and the entry that its firing runs in. -/
theorem curUnit_setCore_finWait (s : State) (b : Bool) : (s.setCore { s.core with finWait := b }).curUnit = s.curUnit := by
  unfold State.curUnit State.curUnitKey
  rw [State.setCore_core]
  rfl

theorem curUnit_updU (s : State) (f : UnitSt → UnitSt) : (s.updU s.curUnitKey f).curUnit = f s.curUnit :=
  State.setU_getU_same ..

/-- The state in which a FIN looks at its output ports again: they have room. -/
def State.portsFree (s : State) (cell : Nat) : State :=
  State.updU { s with curCore := cell } ({ s with curCore := cell } : State).curUnitKey fun u => { u with outFull := false }

theorem exec_finPortRelease_idle {s : State} {cell : Nat} (h : (s.portsFree cell).core.finWait = false) :
    exec (.finPortRelease cell) s = .next (s.portsFree cell) := by
  change execFinPortRelease cell s = _
  exact if_neg (Bool.not_eq_true _ ▸ h)

/-- A FIN that waited looks at its permits (R232). -/
theorem exec_finPortRelease_waiting {s : State} {cell : Nat} (h : (s.portsFree cell).core.finWait = true) :
    let s3 := (s.portsFree cell).setCore { (s.portsFree cell).core with finWait := false }
    let waits := isFirmware cell = false ∧ ∃ a v, Held.store .s a v ∈ s3.core.firing.held ∧
      s3.sliceFull s3.core.firing.pad cell (sliceOfAddr a) = true
    (¬ waits → exec (.finPortRelease cell) s = .next s3.finCommit) ∧
      (waits → exec (.finPortRelease cell) s = .next ((s3.setCore { s3.core with finWait := true }).post (.finPortRelease cell))) := by
  intro s3 waits
  have hexec : exec (.finPortRelease cell) s = .next s3.fin := if_pos h
  have hroom : s3.curUnit.outFull = false := by
    rw [curUnit_setCore_finWait, State.portsFree]
    exact congrArg UnitSt.outFull (curUnit_updU ..)
  have hwaits : s3.finWaits = true ↔ waits := finWaits_iff hroom
  refine ⟨fun hnot => ?_, fun hw => ?_⟩
  · rw [hexec, fin_of_not_waits (hwaits.not.2 hnot)]
  · rw [hexec, fin_of_waits (hwaits.2 hw) hroom]
    rfl

/-! ### Tag demands (R267) -/

theorem exec_tagsExhausted {s : State} {u : Loc} {h : Nat} {c : Cand}
    (hfind : ((s.runnable u.idx false).find? fun c => c.key == u.key && c.h == h && !(s.getU u.key).tagsOk c.a) = some c) :
    exec (.tagsExhausted u h) s = .next (s.raise (s.getU u.key).pad
      { code := 0x0C, ctx := (s.getU u.key).ctx, cell := u.site, slot := h, fld := 3, aux := BitVec.ofNat 64 ((c.a.tagd.map (·.1)).getD 0) }) := by
  change execTagsExhausted u h s = _
  simp only [execTagsExhausted, hfind]

/-! ### Barriers (R310) -/

section
variable {s : State} {pad barrier member gen : Nat}

/-- The arrivals of a barrier with a further one (notes/assumptions/30.md). -/
def arrived (p : Pad) (barrier member gen : Nat) : List (Nat × Nat) :=
  let old := amGet p.roots barrier []
  if old.contains (member, gen) then old else old ++ [(member, gen)]

theorem exec_streamBarrierArrival (hrun : (s.getPad pad).stop = false) (hphase : (s.getPad pad).phase.stopping = false) :
    exec (.streamBarrierArrival pad barrier member gen) s =
      let p := s.getPad pad
      let held := arrived p barrier member gen
      if (amGet p.conf.members barrier []).all fun m => held.contains (m, gen) then
        .next ((s.setPad pad { p with roots := amPut p.roots barrier (held.filter fun x => x.2 != gen) }).emit
          (amGet p.conf.bars barrier {}).root (portInput barrier) (p.conf.barEnds barrier) (amGet p.conf.bars barrier {}).down
          { net := .control, kind := 3, payload := 1, tag := barrier, seq := gen, ctx := p.ctx })
      else .next (s.setPad pad { p with roots := amPut p.roots barrier held }) := by
  change execStreamBarrierArrival pad barrier member gen s = _
  rw [execStreamBarrierArrival, whileRunning_of_running _ _ hrun]
  simp only [hphase, Bool.false_eq_true, if_false]
  rfl

end

/-- Settles O42: the choice by `pick`, then each event by what it leaves. -/
theorem handlersAreSelectedAndStart : Obligations.HandlersAreSelectedAndStart := by
  unfold Obligations.HandlersAreSelectedAndStart
  refine ⟨fun s cell c hfw hrun hfail hwait hpick => ⟨pick_mem hpick, fun hall => ?_, ?_⟩, fun s cell hfail htest => ?_,
    fun s cell hfw hfail htest => ?_, fun s cell => ⟨fun hwait => ?_, fun hwait => ?_⟩, fun s pad barrier member gen => ?_,
    fun s u h c hfind => ?_⟩
  · exact prio_le_best (pick_eq_best hall ▸ hpick)
  · refine ⟨_, exec_handlerSelect hfw hrun hfail hwait hpick, ?_⟩
    have hpass := foldl_actorsOnly (fun s d => countPass_actorsOnly c s d c.key) (s.runnable cell true) s
    generalize (s.runnable cell true).foldl (State.countPass c) s = s1 at hpass ⊢
    obtain ⟨hhandler, hprio⟩ := chosenFiring_handler_prio s1 c
    rw [startHandler_coreOf, startHandler_pending]
    refine ⟨rfl, rfl, hhandler, hprio, rfl, fun k tr htrap hnext => ?_⟩
    obtain ⟨f, u, hf, hpending, h1, h2, htag, hseq, hlo, hhi⟩ := chosenFiring_trigger hpass htrap hnext
    rw [hf]
    exact ⟨h1, h2, rfl, htag, hseq, hlo, hhi, hpending⟩
  · change execFiringRerun cell s = _
    simp [execFiringRerun, hfail, htest]
  · intro f a
    refine ⟨_, exec_firingRerun hfail htest, ?_⟩
    simp only [State.setCoreOf_coreOf_same, hfw, Bool.false_eq_true, if_false, CoreSt.start_running, CoreSt.start_failed,
      CoreSt.start_pc, CoreSt.start_firing, CoreSt.start_reg_one, CoreSt.start_reg_two, CoreSt.start_reg_four, true_and]
    exact ⟨rfl, rfl, rfl, rfl, fun x hx => State.setCoreOf_coreOf_other _ _ _ _ hx, rfl, fun sp => by cases sp <;> rfl⟩
  · exact exec_finPortRelease_idle hwait
  · exact exec_finPortRelease_waiting hwait
  · intro p hrun hphase old held members
    have hexec := exec_streamBarrierArrival (barrier := barrier) (member := member) (gen := gen) hrun hphase
    refine ⟨fun ⟨m, hm, hnot⟩ => ?_, fun hall => ⟨_, rfl, ?_⟩⟩
    · exact hexec.trans (if_neg fun hall => hnot (List.contains_iff_mem.1 (List.all_eq_true.1 hall m hm)))
    · exact hexec.trans (if_pos (List.all_eq_true.2 fun m hm => List.contains_iff_mem.2 (hall m hm)))
  · refine ⟨_, ?_, ?_, exec_tagsExhausted hfind⟩
    · rfl
    · rfl

end Sys2Proof.Machine
end

section
/-!
PROOFS. The elements, lanes and masks of a formed payload (R47, R91), for the element operations.
-/

namespace Sys2Proof.Machine

/-! ### Lists read with a default -/

@[simp] theorem nthD_nil {α : Type} (i : Nat) (d : α) : nthD [] i d = d := rfl

@[simp] theorem nthD_cons_zero {α : Type} (x : α) (l : List α) (d : α) : nthD (x :: l) 0 d = x := rfl

@[simp] theorem nthD_cons_succ {α : Type} (x : α) (l : List α) (i : Nat) (d : α) : nthD (x :: l) (i + 1) d = nthD l i d := rfl

theorem nthD_map {α β : Type} (f : α → β) (l : List α) (i : Nat) (d : α) : nthD (l.map f) i (f d) = f (nthD l i d) := by
  simp [nthD, Option.getD_map]

theorem nthD_range_map {α : Type} (f : Nat → α) {n i : Nat} (h : i < n) (d : α) : nthD ((List.range n).map f) i d = f i := by
  simp [nthD, h]

theorem nthD_take {α : Type} (l : List α) {n i : Nat} (h : i < n) (d : α) : nthD (l.take n) i d = nthD l i d := by
  simp [nthD, h]

theorem nthD_drop {α : Type} (l : List α) (n i : Nat) (d : α) : nthD (l.drop n) i d = nthD l (n + i) d := by
  simp [nthD]

/-! ### Elements of a width -/

theorem elWidth_mem (ty : Ty) (alt : Bool) : elWidth ty alt ∈ [8, 16, 32, 64] := by
  cases ty <;> cases alt <;> decide

/-- An element behind the packed ones is zero. -/
theorem elAt_packEls_nthD {w : Nat} {l : List Nat} (hl : w * l.length ≤ 512) (j : Nat) : elAt w (packEls w l) j = nthD l j 0 % 2 ^ w := by
  by_cases hj : j < l.length
  · rw [elAt_packEls w l j hj hl]
    simp [nthD, hj]
  · have hlt : (packEls w l).toNat < 2 ^ (w * j) := by
      rw [packEls, BitVec.toNat_ofNat]
      calc _ ≤ _ := Nat.mod_le _ _
        _ < _ := foldr_pack_lt w l
        _ ≤ _ := Nat.pow_le_pow_right (by decide) (Nat.mul_le_mul_left w (Nat.le_of_not_lt hj))
    simp [elAt, nthD, Nat.div_eq_of_lt hlt, Nat.le_of_not_lt hj]

section
variable {w : Nat} (hw : w ∈ [8, 16, 32, 64])
include hw

/-- The elements of one lane are valid together. -/
theorem elValid_elOfLane (v : BitVec 16) (j : Nat) : elValid w v (elOfLane w (j * w / 32)) = elValid w v j := by
  simp only [List.mem_cons, List.not_mem_nil, or_false] at hw
  rcases hw with rfl | rfl | rfl | rfl
  case inr.inr.inr => simp only [elOfLane, beq_self_eq_true, if_true]; congr 1; omega
  all_goals simp only [elValid, elOfLane, Nat.reduceBEq, Bool.false_eq_true, if_false]; congr 1; omega

/-- The elements of one lane are emptied together. -/
theorem elReset_elOfLane (v : BitVec 16) (j : Nat) : elReset w v (elOfLane w (j * w / 32)) = elReset w v j := by
  simp only [List.mem_cons, List.not_mem_nil, or_false] at hw
  rcases hw with rfl | rfl | rfl | rfl
  case inr.inr.inr => simp only [elOfLane, beq_self_eq_true, if_true]; congr 1; omega
  all_goals simp only [elReset, elOfLane, Nat.reduceBEq, Bool.false_eq_true, if_false]; congr 1; omega

theorem elOfLane_le (j : Nat) : elOfLane w (j * w / 32) ≤ j := by
  simp only [List.mem_cons, List.not_mem_nil, or_false] at hw
  rcases hw with rfl | rfl | rfl | rfl <;> simp only [elOfLane, Nat.reduceBEq, Bool.false_eq_true, if_false, if_true] <;> omega

/-- A mask that follows a predicate of elements, the same for all elements of a lane, makes valid the elements where it holds. -/
theorem elValid_maskOf {p : Nat → Bool} {j : Nat} (hp : p (elOfLane w (j * w / 32)) = p j) (hj : j < elCount w) :
    elValid w (maskOf fun i => p (elOfLane w i)) j = p j := by
  simp only [List.mem_cons, List.not_mem_nil, or_false] at hw
  rcases hw with rfl | rfl | rfl | rfl <;> simp only [elCount, Nat.reduceDiv] at hj
  case inr.inr.inr =>
    simp only [elValid, beq_self_eq_true, if_true]
    rw [maskOf_getLsbD _ _ (by omega), maskOf_getLsbD _ _ (by omega)]
    have h0 : elOfLane 64 (2 * j) = j := by simp only [elOfLane, beq_self_eq_true, if_true]; omega
    have h1 : elOfLane 64 (2 * j + 1) = j := by simp only [elOfLane, beq_self_eq_true, if_true]; omega
    rw [h0, h1, Bool.and_self]
  all_goals
    simp only [elValid, Nat.reduceBEq, Bool.false_eq_true, if_false]
    rw [maskOf_getLsbD _ _ (by omega)]
    exact hp

/-- A narrow element stands in one lane. -/
theorem mem_elsOfLane (hne : w ≠ 64) {i j : Nat} : j ∈ elsOfLane w i ↔ j * w / 32 = i := by
  simp only [elsOfLane, beq_false_of_ne hne, Bool.false_eq_true, if_false, List.mem_map, List.mem_range]
  simp only [List.mem_cons, List.not_mem_nil, or_false] at hw
  constructor
  · rintro ⟨k, hk, rfl⟩
    rcases hw with rfl | rfl | rfl | rfl <;> omega
  · intro h
    refine ⟨j - i * 32 / w, ?_, ?_⟩ <;> rcases hw with rfl | rfl | rfl | rfl <;> omega

theorem lt_elCount_of_lane {i j : Nat} (hi : i < 16) (h : j * w / 32 = i) : j < elCount w := by
  simp only [List.mem_cons, List.not_mem_nil, or_false] at hw
  rcases hw with rfl | rfl | rfl | rfl <;> simp only [elCount, Nat.reduceDiv] <;> omega

theorem headD_elsOfLane (i : Nat) : (elsOfLane w i).headD 0 = i * 32 / w := by
  simp only [List.mem_cons, List.not_mem_nil, or_false] at hw
  rcases hw with rfl | rfl | rfl | rfl
  case inr.inr.inr => simp [elsOfLane]; omega
  all_goals simp [elsOfLane, List.range_succ_eq_map]

end

/-! ### Results given lane by lane -/

theorem LaneRes.Lanes.congr {r : LaneRes} {f g : Nat → Lane} (h : r.Lanes f) (hfg : ∀ i, i < 16 → f i = g i) : r.Lanes g :=
  fun i hi => hfg i hi ▸ h i hi

/-- A result of given lanes has them in order; behind them its lanes are zero and not valid. -/
theorem ofLanes_lanes {l : List Lane} (hl : l.length ≤ 16) : (ofLanes l).Lanes fun i => nthD l i {} := by
  refine fun i hi => ⟨?_, maskOf_getLsbD _ i hi, maskOf_getLsbD _ i hi⟩
  rw [ofLanes, laneAt, elAt_packEls_nthD (by simpa using Nat.mul_le_mul_left 32 hl)]
  exact congrArg (· % 2 ^ 32) (nthD_map Lane.bits l i {})

theorem ofLanes_map_lanes (f : Nat → Lane) : (ofLanes ((List.range 16).map f)).Lanes f :=
  (ofLanes_lanes (by simp)).congr fun _ hi => nthD_range_map f hi {}

theorem elAt_lt (w : Nat) (p : BitVec 512) (j : Nat) : elAt w p j < 2 ^ w := Nat.mod_lt _ (Nat.two_pow_pos w)

/-! ### Firings -/

/-- A firing whose operation is done, and has left the cores, is taken with what it puts out. -/
theorem runSlot_done {s s' : State} {e : SlotEnv} {c : Choice} {body : SlotEnv → Fire → State → Eff} {outs : List (Nat × HeldOut)}
    (h : s.Fires e c) (hbody : body e (s.firing e c) s = .done s' outs) (hcores : s'.cores = s.cores) :
    runSlot s body = .next (s'.taken e s.curTag c.hi outs) := by
  rw [runSlot_fires body h fun _ _ heq => ?_, hbody]
  rw [hbody] at heq
  cases heq
  exact hcores

/-- A firing that changes no state puts out what its operation gives. -/
theorem runSlot_outs {s : State} {e : SlotEnv} {c : Choice} (f : SlotEnv → Fire → List (Nat × HeldOut)) (h : s.Fires e c) :
    runSlot s (fun e fi s => .done s (f e fi)) = .next (s.taken e s.curTag c.hi (f e (s.firing e c))) :=
  runSlot_done h rfl rfl

/-- A firing that changes no state puts out its one token over the intersection. -/
theorem runSlot_one {s : State} {e : SlotEnv} {c : Choice} (f : SlotEnv → Fire → Token) (h : s.Fires e c) :
    runSlot s (fun e fi s => .done s (fi.one (f e fi))) = .next (s.emitsTok e c (f e (s.firing e c))) :=
  runSlot_outs (fun e fi => fi.one (f e fi)) h

/-- On the vector network a result has the whole payload and its masks. -/
theorem Fire.result_vector (fi : Fire) {h : Hdr} (r : LaneRes) (hnet : h.net ≠ 1) : (fi.result h r).net = .vector ∧ (fi.result h r).payload = r.payload ∧
    (fi.result h r).valid = r.valid ∧ (fi.result h r).reset = r.reset := by
  simp [Fire.result, Token.sealed, hnet]

end Sys2Proof.Machine
end

section
/-!
PROOFS. Error-flagged segments and closed gates (O23).
-/

namespace Sys2Proof.Machine

section
variable {s : State} {e : SlotEnv} {c : Choice} (body : SlotEnv → Fire → State → Eff) (hslot : s.slotEnv s.curLoc.key s.curSlot = some e)
  (hmay : s.mayFire s.curLoc.key = true) (hnext : e.next (s.slotSt s.curLoc.key s.curSlot) s.curTag = some c)
  (hbreak : s.fireBreak e s.curTag c.lo = false) (hfault : c.faultTok = none)
include hslot hmay hnext hbreak hfault

/-- A firing with an error-flagged segment runs the rule of R143, whatever its operation computes. -/
theorem runSlot_errSegs {t : Token} {ts : List Token} (herr : e.errSegs (operandTy e.instr e.hdr) c = t :: ts) {outs : List (Nat × HeldOut)}
    (hrule : (s.noUpdates e).errFiring e (s.firing e c) t.cause = .done s outs) :
    runSlot s body = .next (s.taken e s.curTag c.hi outs) := by
  simp only [State.firing] at hrule
  simp only [runSlot, hslot, hmay, hnext, hbreak, hfault, herr, hrule, Bool.not_true, Bool.false_eq_true, if_false]

/-- A firing whose gate is closed puts out nothing, whatever its operation computes. -/
theorem runSlot_gateClosed (herr : e.errSegs (operandTy e.instr e.hdr) c = []) (hgate : e.gateOpen (s.firing e c) = false) :
    runSlot s body = .next ((s.noUpdates e).taken e s.curTag c.hi []) := by
  simp only [State.firing] at hgate
  simp only [runSlot, hslot, hmay, hnext, hbreak, hfault, herr, hgate, Bool.not_true, Bool.not_false, Bool.false_eq_true, if_false, if_true]

end

/-- The error-tagged token of a firing that computes nothing (R143). -/
def SlotEnv.errToken (e : SlotEnv) (fi : Fire) (cause : Nat) : Token :=
  let t := { fi.out with err := true, cause := cause, payload := 0, valid := 0, reset := 0 }.sealed
  if e.hdr.net == 1 then { t with net := .scalar } else t

theorem SlotEnv.errToken_spec (e : SlotEnv) (fi : Fire) (cause : Nat) : (e.errToken fi cause).err = true ∧
    (e.errToken fi cause).cause = cause ∧ (e.errToken fi cause).valid = 0 ∧ (e.errToken fi cause).lo = fi.out.lo ∧
    (e.errToken fi cause).hi = fi.out.hi ∧ (e.errToken fi cause).tag = fi.out.tag := by
  unfold SlotEnv.errToken
  split <;> exact ⟨rfl, rfl, rfl, rfl, rfl, rfl⟩

theorem noUpdates_of_not_updn {s : State} {e : SlotEnv} (h : ∀ y, e.instr ≠ .updn y) : s.noUpdates e = s := by
  unfold State.noUpdates
  split
  case h_1 y hy => exact absurd hy (h y)
  case h_2 => rfl

/-- Without slot state, a chained tile or a rule of its own, an operation gives each of its streams the error token and changes nothing. -/
theorem errFiring_stateless (s : State) {e : SlotEnv} (fi : Fire) (cause : Nat) (hew : e.instr.ew?.isSome = true)
    (hkeeps : e.instr.keepsState = false) (hchain : e.chainTile = none) (htear : ∀ y, e.instr ≠ .tear y) (htrow : ∀ y, e.instr ≠ .trow y) :
    s.errFiring e fi cause = .done s (e.streams.map fun k => (k, { tok := e.errToken fi cause, basis := fi.out.hi })) := by
  have htcvt : ∀ y, e.instr ≠ .tcvt y := fun y hy => by rw [hy] at hew; cases hew
  have hclose : ∀ y, e.instr ≠ .close y := fun y hy => by rw [hy] at hkeeps; cases hkeeps
  obtain ⟨-, -, -, -, hhi, -⟩ := e.errToken_spec fi cause
  rw [← hhi]
  unfold State.errFiring
  simp only [hkeeps, hchain, Bool.false_eq_true, if_false]
  rfl

/-- Outside SC mode nothing is counted when an access has ended. -/
theorem ended_not_sc (out : Out) (b : Bool) (f : State → State) :
    (match out with
      | .next t => if (false && b) = true then .next (f t) else .next t
      | o => o) = out := by
  cases out <;> rfl

/-- The outcome is that of a firing of the current slot. -/
def State.RunsSlot (s : State) (o : Out) : Prop := ∃ body, o = runSlot s body

section
variable (s : State)

theorem runSlot_runsSlot (body : SlotEnv → Fire → State → Eff) : s.RunsSlot (runSlot s body) := ⟨body, rfl⟩

theorem runLanes_runsSlot (f : SlotEnv → Fire → LaneRes) : s.RunsSlot (runLanes s f) := ⟨_, rfl⟩

theorem runTwo_runsSlot (f : Fire → LaneRes × LaneRes) : s.RunsSlot (runTwo s f) := ⟨_, rfl⟩

theorem runState_runsSlot (x : EW) (needs : RecParam → Bool) (body : RecParam → SlotEnv → Fire → State → State × LaneRes) :
    s.RunsSlot (runState s x needs body) := ⟨_, rfl⟩

/-- A node access that the SC token does not govern is a firing of its slot. -/
theorem runAccess_runsSlot (x : EW) (write : Bool) (may : State → SlotEnv → Fire → Bool)
    (body : NodeAcc → State → List LaneRef → State × List (Nat × HeldOut)) : s.RunsSlot (runAccess s x write false may body) :=
  ⟨_, ended_not_sc _ _ _⟩

theorem runMove_runsSlot (f : Fire → Nat → Lane) : s.RunsSlot (runMove s f) := runLanes_runsSlot s _

theorem runRec_runsSlot (x : EW) (readsR : Bool) (f : RecParam → Fire → Nat → List Bool → List El) : s.RunsSlot (runRec s x readsR f) :=
  runState_runsSlot s _ _ _

/-- An element operation runs its slot; for those left out more is to be said. -/
theorem exec_runsSlot {i : Instr} (hew : i.ew?.isSome = true) (hi : ∀ y : EW, i ∉ [.tear y, .muster y, .updn y, .ldsc y, .stsc y]) :
    s.RunsSlot (exec i s) := by
  cases i
  case vadd | vsub | vmul | vmin | vmax | vabs | vneg | vrcp | vrsq | vsqrt | vdiv | vexp2 | vlog2 | vtanh | vsig | vcvt | vround |
      vclass | viadd | visub | vimul | vshl | vshr | vsra | vand | vor | vxor | vimin | vimax | vclz | vpopc | viabs | vmulh | vcmp |
      vsel | merge | vmask | vextr | vred | segset | spanq | bmm4 =>
    dsimp only [exec, execVadd, execVsub, execVmul, execVmin, execVmax, execVabs, execVneg, execVrcp, execVrsq, execVsqrt, execVdiv,
      execVexp2, execVlog2, execVtanh, execVsig, execVcvt, execVround, execVclass, execViadd, execVisub, execVimul, execVshl, execVshr,
      execVsra, execVand, execVor, execVxor, execVimin, execVimax, execVclz, execVpopc, execViabs, execVmulh, execVcmp, execVsel,
      execMerge, execVmask, execVextr, execVred, execSegset, execSpanq, execBmm4]
    exact runLanes_runsSlot s _
  case vperm | vbcast | vrev | vins | vlshift =>
    dsimp only [exec, execVperm, execVbcast, execVrev, execVins, execVlshift]
    exact runMove_runsSlot s _
  case steer | compact | expand | zip | unzip =>
    dsimp only [exec, execSteer, execCompact, execExpand, execZip, execUnzip]
    exact runTwo_runsSlot s _
  case scan | lrec | ema =>
    dsimp only [exec, execScan, execLrec, execEma]
    exact runRec_runsSlot s _ _ _
  case fir =>
    dsimp only [exec, execFir]
    exact runState_runsSlot s _ _ _
  case vmac | vfmak | vimac | vany | rsend | carry | span | split | delay | window | close | coalesce | trow | astr | sbar |
      xlate | gate | cand | cor =>
    dsimp only [exec, execVmac, execVfmak, execVimac, execVany, execRsend, execCarry, execSpan, execSplit, execDelay, execWindow,
      execClose, execCoalesce, execTrow, execAstr, execSbar, execXlate, execGate, execCand, execCor]
    exact runSlot_runsSlot s _
  case ldn | stn =>
    dsimp only [exec, execLdn, execStn, runLoad, runStore]
    exact runAccess_runsSlot s _ _ _ _
  case tear y | muster y | updn y | ldsc y | stsc y => exact absurd (by simp) (hi y)
  all_goals cases hew

end

/-- Settles O23: the operation runs its slot, whose firing takes the rule of R143 or finds its gate closed. -/
theorem errorSegmentsAndClosedGates : Obligations.ErrorSegmentsAndClosedGates := by
  unfold Obligations.ErrorSegmentsAndClosedGates
  intro s e c hslot hmay hnext hbreak hfault i hi hew hkeeps hchain hnot
  subst hi
  simp only [List.mem_cons, List.not_mem_nil, or_false, not_or] at hnot
  obtain ⟨body, hexec⟩ := exec_runsSlot s hew fun y => by simp [hnot y]
  have hups : s.noUpdates e = s := noUpdates_of_not_updn fun y => by simp [hnot y]
  refine ⟨fun t ts herr => ?_, fun herr hgate => ?_⟩
  · obtain ⟨h1, h2, h3, h4, h5, h6⟩ := e.errToken_spec (s.firing e c) t.cause
    refine ⟨_, h1, h2, h3, h4, h5, h6, hexec.trans (runSlot_errSegs body hslot hmay hnext hbreak hfault herr ?_)⟩
    rw [hups]
    exact errFiring_stateless s _ _ hew hkeeps hchain (fun y => by simp [hnot y]) fun y => by simp [hnot y]
  · rw [hexec, runSlot_gateClosed body hslot hmay hnext hbreak hfault herr hgate, hups]

end Sys2Proof.Machine
end

section
/-!
PROOFS. Accumulators by element and tag (O27).
-/

namespace Sys2Proof.Machine

/-! ### Slot state by element (R147) -/

/-- What the state of element j holds once the reset bits of a token have emptied it. -/
def AccSt.heldEl (a : AccSt) (w : Nat) (reset : BitVec 16) (j : Nat) : Option Nat :=
  if elValid w a.valid j && !elReset w reset j then some (elAt w a.payload j) else none

theorem AccSt.heldEl_isSome (a : AccSt) (w : Nat) (reset : BitVec 16) (j : Nat) :
    (a.heldEl w reset j).isSome = (elValid w a.valid j && !elReset w reset j) := by
  unfold AccSt.heldEl
  split <;> simp [*]

/-- State that is written as a list of elements, none where empty, has them, valid where they are not empty. -/
theorem stateEls_spec {w : Nat} (hw : w ∈ [8, 16, 32, 64]) (g : Nat → Option Nat × Bool × Bool)
    (hlane : ∀ j, (g (elOfLane w (j * w / 32))).1.isSome = (g j).1.isSome) {j : Nat} (hj : j < elCount w) :
    let es := (List.range (elCount w)).map g
    elValid w (maskOf fun i => (nthD es (elOfLane w i) (none, false, false)).1.isSome) j = (g j).1.isSome ∧
      elAt w (packEls w (es.map fun x => x.1.getD 0)) j = (g j).1.getD 0 % 2 ^ w := by
  intro es
  have hes : ∀ k, k < elCount w → nthD es k (none, false, false) = g k := fun k hk => nthD_range_map g hk _
  constructor
  · rw [elValid_maskOf hw (p := fun k => (nthD es k (none, false, false)).1.isSome) _ hj, hes j hj]
    rw [hes j hj, hes _ (Nat.lt_of_le_of_lt (elOfLane_le hw j) hj), hlane]
  · rw [elAt_packEls_nthD (by simpa [es] using mul_elCount_le w), ← hes j hj]
    exact congrArg (· % 2 ^ w) (nthD_map (fun x : Option Nat × Bool × Bool => x.1.getD 0) es j (none, false, false))

/-! ### Accumulating firings -/

/-- What an accumulating firing makes of element j, with the conditions that it raises: elements valid in l and r are added. -/
def AccSt.addEl (a : AccSt) (w : Nat) (f : Option Nat → Nat → Nat → El) (l r : Token) (j : Nat) : Option Nat × Bool × Bool :=
  if elValid w (l.valid &&& r.valid) j then
    let x := f (a.heldEl w l.reset j) (elAt w l.payload j) (elAt w r.payload j)
    (some x.bits, x.exc, x.sat)
  else (a.heldEl w l.reset j, false, false)

section
variable (a : AccSt) (w : Nat) (f : Option Nat → Nat → Nat → El) (l r : Token) (j : Nat)

theorem AccSt.addEl_isSome : (a.addEl w f l r j).1.isSome = (elValid w (l.valid &&& r.valid) j || (a.heldEl w l.reset j).isSome) := by
  unfold AccSt.addEl
  split <;> simp [*]

theorem AccSt.addEl_getD : (a.addEl w f l r j).1.getD 0 = if elValid w (l.valid &&& r.valid) j then
    (f (a.heldEl w l.reset j) (elAt w l.payload j) (elAt w r.payload j)).bits else (a.heldEl w l.reset j).getD 0 := by
  unfold AccSt.addEl
  split <;> rfl

end

/-- An accumulating firing leaves the new state of each element, and its result shows it, tainted where the state is. -/
theorem accumulate_done {w : Nat} (hw : w ∈ [8, 16, 32, 64]) (f : Option Nat → Nat → Nat → El) (e : SlotEnv) (fi : Fire) (s : State) :
    let a : AccSt := amGet (s.slotSt e.key e.slot).acc fi.tag {}
    ∃ (b : AccSt) (t : Token),
      accumulate w f e fi s = .done (s.updSlot e.key e.slot fun st => { st with acc := amPut st.acc fi.tag b }) (fi.one t) ∧
      (t.lo = fi.out.lo ∧ t.hi = fi.out.hi ∧ t.tag = fi.out.tag) ∧ (e.hdr.net ≠ 1 → t.payload = b.payload ∧ t.valid = b.valid) ∧
      (a.tainted = true → t.err = true ∧ t.cause = a.cause) ∧
      ∀ j, j < elCount w → elValid w b.valid j = (a.addEl w f fi.l fi.r j).1.isSome ∧
        elAt w b.payload j = (a.addEl w f fi.l fi.r j).1.getD 0 % 2 ^ w := by
  intro a
  refine ⟨_, _, rfl, ⟨rfl, rfl, rfl⟩, fun hnet => ?_, fun htaint => ?_, fun j hj => ?_⟩
  · obtain ⟨-, hpayload, hvalid, -⟩ := Fire.result_vector fi _ hnet
    exact ⟨hpayload, hvalid⟩
  · exact ⟨Bool.or_eq_true_iff.2 (.inr htaint), if_pos htaint⟩
  · refine stateEls_spec hw (a.addEl w f fi.l fi.r) (fun k => ?_) hj
    rw [AccSt.addEl_isSome, AccSt.addEl_isSome, AccSt.heldEl_isSome, AccSt.heldEl_isSome, elValid_elOfLane hw, elValid_elOfLane hw,
      elReset_elOfLane hw]

/-- A firing that accumulates is taken with its one result. -/
theorem runSlot_accumulate {s : State} {e : SlotEnv} {c : Choice} (h : s.Fires e c) {w : Nat} (hw : w ∈ [8, 16, 32, 64])
    (f : Option Nat → Nat → Nat → El) :
    let fi := s.firing e c
    let a : AccSt := amGet (s.slotSt e.key e.slot).acc s.curTag {}
    ∃ (b : AccSt) (t : Token),
      runSlot s (accumulate w f) =
        .next ((s.updSlot e.key e.slot fun st => { st with acc := amPut st.acc s.curTag b }).emitsTok e c t) ∧
      t.lo = c.lo ∧ t.hi = c.hi ∧ t.tag = s.curTag ∧ (e.hdr.net ≠ 1 → t.payload = b.payload ∧ t.valid = b.valid) ∧
      (a.tainted = true → t.err = true ∧ t.cause = a.cause) ∧
      ∀ j, j < elCount w →
        elValid w b.valid j = (elValid w (fi.l.valid &&& fi.r.valid) j || (a.heldEl w fi.l.reset j).isSome) ∧
        elAt w b.payload j = (if elValid w (fi.l.valid &&& fi.r.valid) j then
          (f (a.heldEl w fi.l.reset j) (elAt w fi.l.payload j) (elAt w fi.r.payload j)).bits else (a.heldEl w fi.l.reset j).getD 0) % 2 ^ w := by
  intro fi a
  obtain ⟨b, t, hdone, ⟨hlo, hhi, htag⟩, hshows, htaint, hels⟩ := accumulate_done hw f e fi s
  refine ⟨b, t, ?_, hlo, hhi, htag, hshows, htaint, fun j hj => ?_⟩
  · rw [runSlot_done h hdone rfl]
    exact congrArg _ (taken_one s _ e c t rfl)
  · obtain ⟨hvalid, hbits⟩ := hels j hj
    exact ⟨hvalid.trans (AccSt.addEl_isSome ..), hbits.trans (congrArg (· % 2 ^ w) (AccSt.addEl_getD ..))⟩

/-! ### VMAC, VFMAK, VIMAC -/

section
variable (x : EW)

/-- VMAC's new element: the product is rounded, then the sum (R151). -/
def macEl (old : Option Nat) (y z : Nat) : El :=
  let rd (v : Nat) : FV := readEl (fmtOf x.ty) (mdFtz x.md) v
  let p := roundEl (fmtOf x.ty) (mdRM x.md) (mdFtz x.md) ((rd y).mul (rd z))
  let r := roundEl (fmtOf x.ty) (mdRM x.md) (mdFtz x.md) ((rd (old.getD 0)).add (mdRM x.md) (rd p.bits))
  { r with exc := r.exc || p.exc }

/-- VFMAK's new element: one rounding (R151). -/
def fmaEl (old : Option Nat) (y z : Nat) : El :=
  let rd (v : Nat) : FV := readEl (fmtOf x.ty) (mdFtz x.md) v
  roundEl (fmtOf x.ty) (mdRM x.md) (mdFtz x.md) (FV.fma (mdRM x.md) (rd y) (rd z) (rd (old.getD 0)))

/-- VIMAC's new element: the product and the sum each go through the mode (R156). -/
def imacEl (old : Option Nat) (y z : Nat) : El :=
  let p := intMode (fun a b => a * b) (mdRm x.md) (intWidth x) y z
  let r := intMode (fun a b => a + b) (mdRm x.md) (intWidth x) (old.getD 0) p.bits
  { r with sat := r.sat || p.sat }

variable (s : State)

theorem exec_vmac : exec (.vmac x) s = runSlot s (accumulate (elWidth x.ty false) (macEl x)) := rfl

theorem exec_vfmak : exec (.vfmak x) s = runSlot s (accumulate (elWidth x.ty false) (fmaEl x)) := rfl

theorem exec_vimac : exec (.vimac x) s = runSlot s (accumulate (intWidth x) (imacEl x)) := rfl

end

/-- Settles O27: the three operations accumulate, each by its own function of the state and the two elements. -/
theorem accumulatorsAddAndEmpty : Obligations.AccumulatorsAddAndEmpty := by
  unfold Obligations.AccumulatorsAddAndEmpty
  intro s e c x h l r fm rm ftz m wi rd p hp
  simp only [List.mem_cons, List.not_mem_nil, or_false] at hp
  rcases hp with rfl | rfl | rfl
  · rw [exec_vmac]
    exact runSlot_accumulate h (elWidth_mem _ _) (macEl x)
  · rw [exec_vfmak]
    exact runSlot_accumulate h (elWidth_mem _ _) (fmaEl x)
  · rw [exec_vimac]
    exact runSlot_accumulate h (elWidth_mem _ _) (imacEl x)

end Sys2Proof.Machine
end

section
/-!
PROOFS. Compares (O29).
-/

namespace Sys2Proof.Machine

/-! ### Conditions (R157) -/

/-- An integer compare reads its elements signed under conditions 0 to 5 and unsigned under 8 to 11. -/
theorem intCmp_eq {k w a b : Nat} (hw : 0 < w) (ha : a < 2 ^ w) (hb : b < 2 ^ w) (hk : k < 16) (hnot : k ∉ [6, 7, 12, 13, 14, 15]) :
    let x : Int := if k < 8 then (BitVec.ofNat w a).toInt else (a : Nat)
    let y : Int := if k < 8 then (BitVec.ofNat w b).toInt else (b : Nat)
    intCmp k w a b = match k with
      | 0 => decide (x = y)
      | 1 => decide (x ≠ y)
      | 2 | 8 => decide (x < y)
      | 3 | 9 => decide (x ≤ y)
      | 4 | 10 => decide (y < x)
      | _ => decide (y ≤ x) := by
  have hinj : (BitVec.ofNat w a).toInt = (BitVec.ofNat w b).toInt ↔ a = b := by
    rw [BitVec.toInt_inj, ← BitVec.toNat_inj, BitVec.toNat_ofNat, BitVec.toNat_ofNat, Nat.mod_eq_of_lt ha, Nat.mod_eq_of_lt hb]
  have hcases : k = 0 ∨ k = 1 ∨ k = 2 ∨ k = 3 ∨ k = 4 ∨ k = 5 ∨ k = 8 ∨ k = 9 ∨ k = 10 ∨ k = 11 := by
    simp only [List.mem_cons, List.not_mem_nil, or_false] at hnot
    omega
  rcases hcases with rfl | rfl | rfl | rfl | rfl | rfl | rfl | rfl | rfl | rfl
  case inl => simp [intCmp, hinj, beq_eq_decide]
  case inr.inl => simp [intCmp, hinj, bne, beq_eq_decide]
  all_goals simp [intCmp, asInt_eq_toInt _ _ hw]

/-- A floating compare by the order of its elements; a NaN is in none. -/
theorem floatCmp_eq {k : Nat} (hk : k < 8) (x y : FV) : (floatCmp k x y).1 = match x.cmp y with
    | none => decide (k = 1 ∨ k = 6)
    | some .lt => decide (k = 1 ∨ k = 2 ∨ k = 3 ∨ k = 7)
    | some .eq => decide (k = 0 ∨ k = 3 ∨ k = 5 ∨ k = 7)
    | some .gt => decide (k = 1 ∨ k = 4 ∨ k = 5 ∨ k = 7) := by
  unfold floatCmp
  cases x.cmp y with
  | none => simp [beq_eq_decide]
  | some o =>
    have hcases : k = 0 ∨ k = 1 ∨ k = 2 ∨ k = 3 ∨ k = 4 ∨ k = 5 ∨ k = 6 ∨ k = 7 := by omega
    cases o <;> rcases hcases with rfl | rfl | rfl | rfl | rfl | rfl | rfl | rfl <;> rfl

theorem floatCmp_invalid {k : Nat} {x y : FV} (hnan : x.cmp y = none) (h2 : 2 ≤ k) (h5 : k ≤ 5) : (floatCmp k x y).2 = true := by
  simp [floatCmp, hnan, h2, h5]

/-! ### Masks of ones and zeros -/

/-- All ones where the condition holds, zero where it does not. -/
def onesIf (w : Nat) (t : Bool) : Nat := if t then 2 ^ w - 1 else 0

theorem onesIf_mod (w : Nat) (t : Bool) : onesIf w t % 2 ^ w = onesIf w t := by
  have := Nat.two_pow_pos w
  exact Nat.mod_eq_of_lt (by unfold onesIf; split <;> omega)

/-- VCMP's element. -/
def cmpEl (x : EW) (a b : Nat) : El :=
  let (t, inv) := if isFloatTy x.ty then floatCmp x.md.toNat ((fmtOf x.ty).decode a) ((fmtOf x.ty).decode b)
    else (intCmp x.md.toNat (elWidth x.ty false) a b, false)
  { bits := onesIf (elWidth x.ty false) t, exc := inv }

theorem cmpEl_int_bits {x : EW} (h : isFloatTy x.ty = false) (a b : Nat) : (cmpEl x a b).bits % 2 ^ elWidth x.ty false =
    onesIf (elWidth x.ty false) (intCmp x.md.toNat (elWidth x.ty false) a b) := by
  simp [cmpEl, h, onesIf_mod]

theorem cmpEl_float_bits {x : EW} (h : isFloatTy x.ty = true) (a b : Nat) : (cmpEl x a b).bits % 2 ^ elWidth x.ty false =
    onesIf (elWidth x.ty false) (floatCmp x.md.toNat ((fmtOf x.ty).decode a) ((fmtOf x.ty).decode b)).1 := by
  simp [cmpEl, h, onesIf_mod]

theorem cmpEl_float_exc {x : EW} (h : isFloatTy x.ty = true) (a b : Nat) :
    (cmpEl x a b).exc = (floatCmp x.md.toNat ((fmtOf x.ty).decode a) ((fmtOf x.ty).decode b)).2 := by
  simp [cmpEl, h]

theorem exec_vcmp (x : EW) (s : State) : exec (.vcmp x) s = runLanes s fun _ fi =>
    lanewise (elWidth x.ty false) (fi.l.valid &&& fi.r.valid) fi.l.reset fun i =>
      cmpEl x (elAt (elWidth x.ty false) fi.l.payload i) (elAt (elWidth x.ty false) fi.r.payload i) := rfl

/-- Settles O29: the result is lane-wise, its elements are those of `cmpEl`, and the conditions are compared one by one. -/
theorem vectorComparesGiveMasks : Obligations.VectorComparesGiveMasks := by
  unfold Obligations.VectorComparesGiveMasks
  intro s e c x h l r w k fa fb ia ib mask
  have hw : 0 < w := by have := elWidth_mem x.ty false; simp only [List.mem_cons, List.not_mem_nil, or_false] at this; omega
  obtain ⟨hvalid, -, hels, hexc, -⟩ :=
    lanewise_elementwise w (l.valid &&& r.valid) l.reset fun i => cmpEl x (elAt w l.payload i) (elAt w r.payload i)
  refine ⟨_, (exec_vcmp x s).trans (runLanes_fires _ h), hvalid, fun j hj hv => ?_⟩
  have hbits := (hels j hj).trans (if_pos hv)
  refine ⟨fun hint hk => ?_, fun hfl hk => ⟨?_, fun hnan h2 h5 => hexc.2 ⟨j, hj, hv, ?_⟩⟩⟩
  · exact (hbits.trans (cmpEl_int_bits hint ..)).trans (congrArg (onesIf w) (intCmp_eq hw (elAt_lt ..) (elAt_lt ..) x.md.isLt hk))
  · exact (hbits.trans (cmpEl_float_bits hfl ..)).trans (congrArg (onesIf w) (floatCmp_eq hk ..))
  · exact (cmpEl_float_exc hfl ..).trans (floatCmp_invalid hnan h2 h5)

end Sys2Proof.Machine
end

section
/-!
PROOFS. Steer operations and control-network operations (O30).
-/

namespace Sys2Proof.Machine

/-! ### VSEL (R158) -/

/-- A lane of VSEL is valid where p is, and where the fields that its elements come from are. -/
theorem selLane_iff {js : List Nat} {use : Nat → Bool} {n : Nat} {q : Nat → Prop} (hjs : ∀ j, j ∈ js ↔ j < n ∧ q j) (p l r : Bool) :
    (p && (!js.any use || l) && (js.all use || r)) = true ↔ p = true ∧ ((∃ j, j < n ∧ q j ∧ use j = true) → l = true) ∧
      ((∃ j, j < n ∧ q j ∧ ¬ use j = true) → r = true) := by
  have hany : js.any use = true ↔ ∃ j, j < n ∧ q j ∧ use j = true := by
    simp only [List.any_eq_true, hjs, and_assoc]
  have hall : js.all use = false ↔ ∃ j, j < n ∧ q j ∧ ¬ use j = true := by
    simp only [List.all_eq_false, hjs, and_assoc]
  rw [← hany, ← hall]
  cases p <;> cases l <;> cases r <;> simp

/-- Whether VSEL takes element j from l. -/
def selUse (x : EW) (fi : Fire) (j : Nat) : Bool := elAt (selWidth x) fi.p.payload j != 0

theorem selUse_iff (x : EW) (fi : Fire) (j : Nat) : selUse x fi j = true ↔ elAt (selWidth x) fi.p.payload j ≠ 0 := bne_iff_ne

/-- Whether lane k has what the elements of lane i need. -/
def selLane (x : EW) (fi : Fire) (i k : Nat) : Bool :=
  fi.p.valid.getLsbD k && (!(elsOfLane (selWidth x) i).any (selUse x fi) || fi.l.valid.getLsbD k) &&
    ((elsOfLane (selWidth x) i).all (selUse x fi) || fi.r.valid.getLsbD k)

/-- VSEL's result. -/
def selRes (x : EW) (fi : Fire) : LaneRes :=
  let w := selWidth x
  { payload := packEls w ((List.range (elCount w)).map fun j => if selUse x fi j then elAt w fi.l.payload j else elAt w fi.r.payload j)
    valid := maskOf fun i => (if w == 64 then [i / 2 * 2, i / 2 * 2 + 1] else [i]).all (selLane x fi i)
    reset := maskOf fun i => if selUse x fi ((elsOfLane w i).headD 0) then fi.l.reset.getLsbD i else fi.r.reset.getLsbD i }

theorem runLanes_execVsel (x : EW) (s : State) : execVsel x s = runLanes s fun _ fi => selRes x fi := rfl

section
variable (x : EW) (fi : Fire)

theorem selWidth_mem : selWidth x ∈ [8, 16, 32, 64] := elWidth_mem x.ty (mdAlt x.md)

theorem selRes_elAt {j : Nat} (hj : j < elCount (selWidth x)) : elAt (selWidth x) (selRes x fi).payload j =
    if elAt (selWidth x) fi.p.payload j ≠ 0 then elAt (selWidth x) fi.l.payload j else elAt (selWidth x) fi.r.payload j := by
  rw [selRes, elAt_packEls_nthD (by simpa using mul_elCount_le (selWidth x)), nthD_range_map _ hj]
  simp only [selUse_iff]
  split <;> exact Nat.mod_eq_of_lt (elAt_lt ..)

/-- The lanes of narrow elements are valid one by one. -/
theorem selRes_valid_narrow (hne : selWidth x ≠ 64) {i : Nat} (hi : i < 16) :
    (selRes x fi).valid.getLsbD i = true ↔ fi.p.valid.getLsbD i = true ∧
      ((∃ j, j < elCount (selWidth x) ∧ j * selWidth x / 32 = i ∧ elAt (selWidth x) fi.p.payload j ≠ 0) → fi.l.valid.getLsbD i = true) ∧
      ((∃ j, j < elCount (selWidth x) ∧ j * selWidth x / 32 = i ∧ ¬ elAt (selWidth x) fi.p.payload j ≠ 0) → fi.r.valid.getLsbD i = true) := by
  have hjs : ∀ j, j ∈ elsOfLane (selWidth x) i ↔ j < elCount (selWidth x) ∧ j * selWidth x / 32 = i := fun j => by
    rw [mem_elsOfLane (selWidth_mem x) hne, iff_and_self]
    exact lt_elCount_of_lane (selWidth_mem x) hi
  simp only [← selUse_iff]
  rw [← selLane_iff hjs, selRes, maskOf_getLsbD _ i hi, beq_false_of_ne hne]
  simp [selLane]

/-- The lanes of an f64 pair are valid together. -/
theorem selRes_valid_wide (heq : selWidth x = 64) {i : Nat} (hi : i < 16) :
    (selRes x fi).valid.getLsbD i = (selLane x fi i (i / 2 * 2) && selLane x fi i (i / 2 * 2 + 1)) := by
  rw [selRes, maskOf_getLsbD _ i hi, heq]
  simp

theorem selLane_wide (heq : selWidth x = 64) {i : Nat} (hi : i < 16) (k : Nat) :
    selLane x fi i k = true ↔ fi.p.valid.getLsbD k = true ∧
      ((∃ j, j < elCount (selWidth x) ∧ j = i / 2 ∧ elAt (selWidth x) fi.p.payload j ≠ 0) → fi.l.valid.getLsbD k = true) ∧
      ((∃ j, j < elCount (selWidth x) ∧ j = i / 2 ∧ ¬ elAt (selWidth x) fi.p.payload j ≠ 0) → fi.r.valid.getLsbD k = true) := by
  have hjs : ∀ j, j ∈ elsOfLane (selWidth x) i ↔ j < elCount (selWidth x) ∧ j = i / 2 := fun j => by
    rw [heq, elsOfLane, if_pos (by decide), List.mem_singleton, iff_and_self]
    rintro rfl
    simp only [elCount, Nat.reduceDiv]
    omega
  simp only [← selUse_iff]
  exact selLane_iff hjs _ _ _

theorem selRes_reset {i : Nat} (hi : i < 16) : (selRes x fi).reset.getLsbD i =
    if elAt (selWidth x) fi.p.payload (i * 32 / selWidth x) ≠ 0 then fi.l.reset.getLsbD i else fi.r.reset.getLsbD i := by
  rw [selRes, maskOf_getLsbD _ i hi, headD_elsOfLane (selWidth_mem x)]
  simp only [selUse_iff]

end

/-! ### COMPACT and EXPAND (R161, R162) -/

/-- Two results share the lanes of a list: the first 16, and those behind them. -/
theorem ofLanes_take_drop {l : List Lane} (hl : l.length ≤ 32) : (ofLanes (l.take 16)).Lanes (fun i => nthD l i {}) ∧
    (ofLanes (l.drop 16)).Lanes fun i => nthD l (i + 16) {} := by
  refine ⟨(ofLanes_lanes (by simp)).congr fun i hi => nthD_take l hi {}, (ofLanes_lanes (by simp; omega)).congr fun i _ => ?_⟩
  rw [nthD_drop, Nat.add_comm]

/-- The lanes that COMPACT moves, in order. -/
def movedLanes (x : EW) (l r : Token) : List Lane := ((unitLanes x l ++ unitLanes x r).filter allValid).flatten

theorem movedLanes_single {x : EW} (h : x.ty ≠ .f64) (l r : Token) :
    movedLanes x l r = ((List.range 16).map (laneOf l) ++ (List.range 16).map (laneOf r)).filter (·.valid) := by
  have hunit (t : Token) : unitLanes x t = ((List.range 16).map (laneOf t)).map fun y => [y] := by
    simp [unitLanes, h, Function.comp_def]
  have hvalid : (allValid ∘ fun y : Lane => [y]) = (·.valid) := by funext y; simp [allValid]
  rw [movedLanes, hunit, hunit, ← List.map_append, List.filter_map, hvalid, ← List.flatMap_def, List.flatMap_singleton']

/-- The lane pairs of a token (R161). -/
def lanePairs (t : Token) : List (Lane × Lane) := (List.range 8).map fun i => (laneOf t (2 * i), laneOf t (2 * i + 1))

/-- The lane pairs that COMPACT moves for f64, in order. -/
def movedPairs (l r : Token) : List (Lane × Lane) := (lanePairs l ++ lanePairs r).filter fun y => y.1.valid && y.2.valid

theorem movedLanes_pair {x : EW} (h : x.ty = .f64) (l r : Token) : movedLanes x l r = ((movedPairs l r).map fun y => [y.1, y.2]).flatten := by
  have hunit (t : Token) : unitLanes x t = (lanePairs t).map fun y => [y.1, y.2] := by
    simp [unitLanes, lanePairs, h, Function.comp_def]
  have hvalid : (allValid ∘ fun y : Lane × Lane => [y.1, y.2]) = fun y => y.1.valid && y.2.valid := by funext y; simp [allValid]
  rw [movedLanes, hunit, hunit, ← List.map_append, List.filter_map, hvalid]
  rfl

/-- Lane i of a list of lane pairs is one of pair i / 2. -/
theorem nthD_flatten_pairs (l : List (Lane × Lane)) (i : Nat) : nthD (l.map fun y => [y.1, y.2]).flatten i {} =
    let y := nthD l (i / 2) ({}, {}); if i % 2 = 0 then y.1 else y.2 := by
  induction l generalizing i with
  | nil => simp [nthD]
  | cons y l ih =>
    match i with
    | 0 => rfl
    | 1 => rfl
    | i + 2 =>
      have hdiv : (i + 2) / 2 = i / 2 + 1 := by omega
      have hmod : (i + 2) % 2 = i % 2 := by omega
      rw [hdiv, hmod]
      exact ih i

theorem nthD_movedLanes_pair {x : EW} (h : x.ty = .f64) (l r : Token) (i : Nat) : nthD (movedLanes x l r) i {} =
    let y := nthD (movedPairs l r) (i / 2) ({}, {}); if i % 2 = 0 then y.1 else y.2 := by
  rw [movedLanes_pair h, nthD_flatten_pairs]

theorem nthD_movedLanes_pair_add {x : EW} (h : x.ty = .f64) (l r : Token) (i : Nat) : nthD (movedLanes x l r) (i + 16) {} =
    let y := nthD (movedPairs l r) (8 + i / 2) ({}, {}); if i % 2 = 0 then y.1 else y.2 := by
  have hdiv : (i + 16) / 2 = 8 + i / 2 := by omega
  have hmod : (i + 16) % 2 = i % 2 := by omega
  rw [nthD_movedLanes_pair h, hdiv, hmod]

theorem movedLanes_length (x : EW) (l r : Token) : (movedLanes x l r).length ≤ 32 := by
  by_cases h : x.ty = .f64
  · rw [movedLanes_pair h]
    have hlen : (movedPairs l r).length ≤ 16 := (List.length_filter_le _ _).trans (by simp [lanePairs])
    rw [List.length_flatten, List.map_map]
    calc _ = 2 * (movedPairs l r).length := by simp [Function.comp_def, Nat.mul_comm]
      _ ≤ 32 := by omega
  · rw [movedLanes_single h]
    exact (List.length_filter_le _ _).trans (by simp)

/-- EXPAND deals the lanes in order to the set places, and what is left follows. -/
theorem expandFrom_spec (ms : List Bool) (rest : List Lane) : (expandFrom ms rest).1.length = ms.length ∧
    (∀ i, nthD (expandFrom ms rest).1 i {} = if nthD ms i false then nthD rest ((ms.take i).count true) {} else {}) ∧
    (expandFrom ms rest).2 = rest.drop (ms.count true) := by
  induction ms generalizing rest with
  | nil => simp [expandFrom]
  | cons m ms ih =>
    cases m with
    | false =>
      obtain ⟨hlen, hnth, hrest⟩ := ih rest
      refine ⟨by simp [expandFrom, hlen], fun i => ?_, by simp [expandFrom, hrest]⟩
      cases i with
      | zero => simp [expandFrom]
      | succ i => simpa [expandFrom] using hnth i
    | true =>
      cases rest with
      | nil =>
        obtain ⟨hlen, hnth, hrest⟩ := ih []
        refine ⟨by simp [expandFrom, hlen], fun i => ?_, by simp [expandFrom, hrest]⟩
        cases i with
        | zero => simp [expandFrom]
        | succ i => simpa [expandFrom] using hnth i
      | cons y rest =>
        obtain ⟨hlen, hnth, hrest⟩ := ih rest
        refine ⟨by simp [expandFrom, hlen], fun i => ?_, by simp [expandFrom, hrest]⟩
        cases i with
        | zero => simp [expandFrom]
        | succ i => simpa [expandFrom] using hnth i

/-- The set places below i, counted in a mask of n or more places. -/
theorem count_take_range (p : Nat → Bool) {i n : Nat} (h : i ≤ n) :
    ((((List.range n).map p).take i).count true) = ((List.range i).filter p).length := by
  rw [← List.map_take, List.take_range, Nat.min_eq_left h, List.count_eq_countP, List.countP_map, List.countP_eq_length_filter]
  congr 2
  funext j
  simp

/-- EXPAND's two results: the dealt lanes in the set places, and the lanes left. -/
theorem expandFrom_lanes (set : Nat → Bool) (dealt : List Lane) (hl : dealt.length ≤ 16) :
    let before (i : Nat) : Nat := ((List.range i).filter set).length
    let o := expandFrom ((List.range 16).map set) dealt
    ((ofLanes o.1).Lanes fun i => if set i then nthD dealt (before i) {} else {}) ∧ (ofLanes o.2).Lanes fun i => nthD dealt (before 16 + i) {} := by
  intro before o
  obtain ⟨hlen, hnth, hrest⟩ := expandFrom_spec ((List.range 16).map set) dealt
  have hcount : ((List.range 16).map set).count true = before 16 := by
    have htake := count_take_range set (le_refl 16)
    rwa [List.take_of_length_le (by simp)] at htake
  refine ⟨(ofLanes_lanes (by simp [o, hlen])).congr fun i hi => ?_, (ofLanes_lanes ?_).congr fun i _ => ?_⟩
  · rw [hnth i, nthD_range_map set hi, count_take_range set (by omega)]
  · rw [hrest, List.length_drop]
    omega
  · rw [hrest, hcount, nthD_drop]

/-! ### Predicate results (R163, R170) -/

theorem truth_eq (t : Token) :
    Token.truth t = if t.net = .control then t.payload.getLsbD 0 else t.valid.getLsbD 0 && laneAt t.payload 0 != 0 := by
  unfold Token.truth
  cases t.net <;> simp [bitOf_eq_testBit, BitVec.getLsbD]

/-- GATE's result: l over the intersection (R170). -/
def Fire.gated (fi : Fire) (h : Hdr) : Token :=
  if fi.l.net == .control then { fi.out with net := .control, kind := fi.l.kind, payload := fi.l.payload, exc := false, sat := false }
  else { fi.result h { payload := fi.l.payload, valid := fi.l.valid, reset := fi.l.reset } with net := fi.l.net, residue := fi.l.residue }

theorem gated_spec (fi : Fire) (h : Hdr) : let t := fi.gated h
    t.net = fi.l.net ∧ t.lo = fi.out.lo ∧ t.hi = fi.out.hi ∧ t.tag = fi.out.tag ∧
      (fi.l.net = .control → t.payload = fi.l.payload ∧ t.kind = fi.l.kind) ∧
      (fi.l.net ≠ .control → h.net ≠ 1 → t.payload = fi.l.payload ∧ t.valid = fi.l.valid ∧ t.reset = fi.l.reset) := by
  intro t
  by_cases hnet : fi.l.net = .control
  · have ht : t = { fi.out with net := .control, kind := fi.l.kind, payload := fi.l.payload, exc := false, sat := false } := if_pos (by simp [hnet])
    rw [ht]
    exact ⟨hnet.symm, rfl, rfl, rfl, fun _ => ⟨rfl, rfl⟩, fun hne => absurd hnet hne⟩
  · have ht : t = { fi.result h { payload := fi.l.payload, valid := fi.l.valid, reset := fi.l.reset } with
        net := fi.l.net, residue := fi.l.residue } := if_neg (by simp [hnet])
    rw [ht]
    refine ⟨rfl, rfl, rfl, rfl, fun heq => absurd heq hnet, fun _ hvec => ?_⟩
    obtain ⟨-, hshows⟩ := Fire.result_vector fi { payload := fi.l.payload, valid := fi.l.valid, reset := fi.l.reset } hvec
    exact hshows

/-! ### The operations -/

section
variable (x : EW) (s : State)

theorem exec_vsel : exec (.vsel x) s = execVsel x s := rfl
theorem exec_steer : exec (.steer x) s = execSteer x s := rfl
theorem exec_merge : exec (.merge x) s = execMerge x s := rfl
theorem exec_vmask : exec (.vmask x) s = execVmask x s := rfl
theorem exec_compact : exec (.compact x) s = execCompact x s := rfl
theorem exec_expand : exec (.expand x) s = execExpand x s := rfl
theorem exec_vany : exec (.vany x) s = execVany x s := rfl
theorem exec_gate : exec (.gate x) s = execGate x s := rfl
theorem exec_cand : exec (.cand x) s = execCand x s := rfl
theorem exec_cor : exec (.cor x) s = execCor x s := rfl

end

/-- Settles O30: each operation by the list of its lanes, or by its mask. -/
theorem steerAndControlOperations : Obligations.SteerAndControlOperations := by
  unfold Obligations.SteerAndControlOperations
  constructor
  · intro s e c x h l r p on none'
    refine ⟨?_, ?_, ?_, ?_, ?_, ?_, ?_, ?_⟩
    · refine ⟨_, ((exec_vsel x s).trans (runLanes_execVsel x s)).trans (runLanes_fires _ h), fun j hj => selRes_elAt x _ hj,
        fun i hi => ⟨fun hne => selRes_valid_narrow x _ hne hi, fun heq => ?_, selRes_reset x _ hi⟩⟩
      rw [selRes_valid_wide x _ heq hi, Bool.and_eq_true]
      exact and_congr (selLane_wide x _ heq hi _) (selLane_wide x _ heq hi _)
    · refine ⟨_, _, (exec_steer x s).trans (runTwo_fires _ h), rfl, rfl, rfl, rfl, fun i hi => ?_⟩
      simp only [BitVec.getLsbD_and, BitVec.getLsbD_not, maskOf_getLsbD _ i hi, hi, decide_true, Bool.true_and]
      exact ⟨rfl, rfl⟩
    · exact ⟨_, (exec_merge x s).trans (runLanes_fires _ h), ofLanes_map_lanes _⟩
    · exact ⟨_, (exec_vmask x s).trans (runLanes_fires _ h), rfl, rfl, fun i hi => maskOf_getLsbD _ i hi⟩
    · intro hty
      obtain ⟨hfirst, hsecond⟩ := ofLanes_take_drop (movedLanes_length x l r)
      exact ⟨_, _, (exec_compact x s).trans (runTwo_fires _ h), hfirst.congr fun i _ => congrArg (nthD · i {}) (movedLanes_single hty l r),
        hsecond.congr fun i _ => congrArg (nthD · (i + 16) {}) (movedLanes_single hty l r)⟩
    · intro hty
      obtain ⟨hfirst, hsecond⟩ := ofLanes_take_drop (movedLanes_length x l r)
      exact ⟨_, _, (exec_compact x s).trans (runTwo_fires _ h), hfirst.congr fun i _ => nthD_movedLanes_pair hty l r i,
        hsecond.congr fun i _ => nthD_movedLanes_pair_add hty l r i⟩
    · obtain ⟨hfirst, hsecond⟩ := expandFrom_lanes (fun i => r.valid.getLsbD i && on i)
        (((List.range 16).map (laneOf l)).filter (·.valid)) ((List.length_filter_le _ _).trans (by simp))
      exact ⟨_, _, (exec_expand x s).trans (runTwo_fires _ h), hfirst, hsecond⟩
    · exact ⟨_, (exec_vany x s).trans (runSlot_one _ h), rfl, rfl, rfl, rfl⟩
  · intro s e c x h l r
    refine ⟨?_, ?_⟩
    · exact ⟨_, (exec_gate x s).trans (runSlot_one (fun e fi => fi.gated e.hdr) h), gated_spec ..⟩
    · intro holds p hp
      simp only [List.mem_cons, List.not_mem_nil, or_false] at hp
      rcases hp with rfl | rfl
      · refine ⟨_, (exec_cand x s).trans (runSlot_one _ h), rfl, rfl, rfl, rfl, ?_⟩
        simp only [Fire.pred, truth_eq]
        rfl
      · refine ⟨_, (exec_cor x s).trans (runSlot_one _ h), rfl, rfl, rfl, rfl, ?_⟩
        simp only [Fire.pred, truth_eq]
        rfl

end Sys2Proof.Machine
end

section
/-!
PROOFS. Lane operations and SEGSET (O31).
-/

namespace Sys2Proof.Machine

section
variable (x : EW) (s : State)

theorem exec_vperm : exec (.vperm x) s = execVperm x s := rfl
theorem exec_vbcast : exec (.vbcast x) s = execVbcast x s := rfl
theorem exec_vrev : exec (.vrev x) s = execVrev x s := rfl
theorem exec_vlshift : exec (.vlshift x) s = execVlshift x s := rfl
theorem exec_vins : exec (.vins x) s = execVins x s := rfl
theorem exec_zip : exec (.zip x) s = execZip x s := rfl
theorem exec_unzip : exec (.unzip x) s = execUnzip x s := rfl
theorem exec_vextr : exec (.vextr x) s = execVextr x s := rfl
theorem exec_segset : exec (.segset x) s = execSegset x s := rfl

end

/-- An operation that moves lanes puts out a result whose lane i is given. -/
theorem runMove_fires {s : State} {e : SlotEnv} {c : Choice} (f : Fire → Nat → Lane) (h : s.Fires e c) :
    ∃ o : LaneRes, runMove s f = .next (s.emits e c o) ∧ o.Lanes (f (s.firing e c)) :=
  ⟨_, runLanes_fires (fun _ fi => ofLanes ((List.range 16).map (f fi))) h, ofLanes_map_lanes _⟩

/-- A lane, or a pair of lanes, fits into a payload. -/
theorem lanePair_toNat (p : BitVec 512) (n : Nat) (wide : Bool) :
    (BitVec.ofNat 512 (if wide then laneAt p n + laneAt p (n + 1) * 2 ^ 32 else laneAt p n)).toNat =
      if wide then laneAt p n + laneAt p (n + 1) * 2 ^ 32 else laneAt p n := by
  have h0 : laneAt p n < 2 ^ 32 := elAt_lt ..
  have h1 : laneAt p (n + 1) < 2 ^ 32 := elAt_lt ..
  rw [BitVec.toNat_ofNat]
  apply Nat.mod_eq_of_lt
  calc _ < 2 ^ 64 := by split <;> omega
    _ ≤ 2 ^ 512 := Nat.pow_le_pow_right (by decide) (by decide)

/-- Settles O31: each operation by the lane that it puts in place i. -/
theorem laneOperationsMoveLanes : Obligations.LaneOperationsMoveLanes := by
  unfold Obligations.LaneOperationsMoveLanes
  intro s e c x h l r n
  refine ⟨fun p hp => ?_, ?_, ?_, ?_, ?_⟩
  · simp only [List.mem_cons, List.not_mem_nil, or_false] at hp
    rcases hp with rfl | rfl | rfl | rfl | rfl
    · rw [exec_vperm]
      exact runMove_fires _ h
    · rw [exec_vbcast]
      exact runMove_fires _ h
    · rw [exec_vrev]
      exact runMove_fires _ h
    · rw [exec_vlshift]
      obtain ⟨o, hexec, hlanes⟩ := runMove_fires (fun fi i => if i + mdN x ≤ 15 then laneOf fi.l (i + mdN x) else laneOf fi.r (i + mdN x - 16)) h
      exact ⟨o, hexec, hlanes.congr fun i _ => if_congr Nat.lt_succ_iff.symm rfl rfl⟩
    · rw [exec_vins]
      exact runMove_fires _ h
  · refine ⟨_, _, (exec_zip x s).trans (runTwo_fires _ h), (ofLanes_map_lanes _).congr fun i _ => ?_, ofLanes_map_lanes _⟩
    rw [Nat.mul_zero, Nat.zero_add]
  · exact ⟨_, _, (exec_unzip x s).trans (runTwo_fires _ h), ofLanes_map_lanes _, ofLanes_map_lanes _⟩
  · exact ⟨_, (exec_vextr x s).trans (runLanes_fires _ h), rfl, (lanePair_toNat l.payload n (x.ty == .f64)).trans (if_congr beq_iff_eq rfl rfl)⟩
  · refine ⟨_, (exec_segset x s).trans (runLanes_fires _ h), rfl, rfl, fun i hi => ?_⟩
    rw [maskOf_getLsbD _ i hi]
    simp only [beq_iff_eq]
    rfl

end Sys2Proof.Machine
end

section
/-!
PROOFS. Span operations (O32).
-/

namespace Sys2Proof.Machine

/-! ### What a span operation puts out -/

/-- A token of l over another span: l's payload and masks, the firing's tag and context, no error. -/
theorem moved_spec (s : State) (e : SlotEnv) (c : Choice) (lo hi : Nat) :
    let fi := s.firing e c
    let t := fi.moved e.hdr lo hi
    t.lo = lo ∧ t.hi = hi ∧ t.tag = s.curTag ∧ t.ctx = (s.getU s.curLoc.key).ctx ∧ t.err = false ∧
      (e.hdr.net ≠ 1 → t.net = .vector ∧ t.payload = fi.l.payload ∧ t.valid = fi.l.valid ∧ t.reset = fi.l.reset) :=
  ⟨rfl, rfl, rfl, rfl, rfl, fun hnet => (s.firing e c).result_vector _ hnet⟩

/-- SPANQ's word. -/
theorem exec_spanq (x : EW) (s : State) : exec (.spanq x) s = execSpanq x s := rfl

/-- The outcome is that of a firing that raises a fault at a field of its slot and puts out nothing. -/
def State.FaultsAt (s : State) (e : SlotEnv) (c : Choice) (code : Nat) (f : Fld) (o : Out) : Prop :=
  ∃ q : FaultRec, q.code = code ∧ q.slot = e.slot ∧ q.fld = f.code ∧ q.tag = s.curTag ∧
    o = .next ((s.raise (s.getU e.key).pad q).taken e s.curTag c.hi [])

/-! ### What each operation asks of a span -/

/-- What SPAN asks of r. -/
def spanOk (r : Token) : Prop := (∀ i, i < 4 → r.valid.getLsbD i = true) ∧ laneAt r.payload 1 < 256 ∧ laneAt r.payload 3 < 256 ∧
  q40 r.payload 0 < q40 r.payload 2 ∧ q40 r.payload 0 ≤ 2 ^ 40 - 2

theorem span_check (r : Token) :
    (!(List.range 4).all (fun i => r.valid.getLsbD i) || laneAt r.payload 1 / 256 != 0 || laneAt r.payload 3 / 256 != 0 ||
      decide (q40 r.payload 2 ≤ q40 r.payload 0) || decide (maxBound < q40 r.payload 0)) = true ↔ ¬ spanOk r := by
  rw [← Bool.not_eq_false, not_iff_not]
  simp only [Bool.or_eq_false_iff, Bool.not_eq_false', List.all_eq_true, List.mem_range, bne_eq_false_iff_eq, decide_eq_false_iff_not,
    Nat.not_le, Nat.not_lt, and_assoc, Nat.div_eq_zero_iff_lt (by decide : 0 < 256)]
  rfl

/-- The end that DELAY gives a span: an open one stays open. -/
def delayedHi (hi d : Nat) : Nat := if hi = openHi then openHi else hi + d

theorem delay_check (lo hi d : Nat) : (decide (maxBound < lo + d) || (hi != openHi && decide (maxBound < delayedHi hi d))) = true ↔
    ¬ (lo + d ≤ 2 ^ 40 - 2 ∧ (hi = openHi ∨ delayedHi hi d ≤ 2 ^ 40 - 2)) := by
  simp only [Bool.or_eq_true, Bool.and_eq_true, decide_eq_true_eq, bne_iff_ne, not_and_or, not_or, Nat.not_le]
  rfl

/-- The number of pieces of width w that SPLIT cuts a span into. -/
def pieceCount (lo hi w : Nat) : Nat := (hi - lo + w - 1) / w

/-- The pieces of a firing. -/
def Fire.pieces (fi : Fire) (h : Hdr) (w : Nat) : List (Nat × HeldOut) :=
  (List.range (pieceCount fi.lo fi.hi w)).map fun i =>
    (0, { tok := fi.moved h (fi.lo + i * w) (min (fi.lo + (i + 1) * w) fi.hi), basis := min (fi.lo + (i + 1) * w) fi.hi })

theorem pieces_length (fi : Fire) (hd : Hdr) (w : Nat) : (fi.pieces hd w).length = pieceCount fi.lo fi.hi w := by
  rw [Fire.pieces, List.length_map, List.length_range]

theorem pieces_getElem {fi : Fire} {hd : Hdr} {w i : Nat} {o : Nat × HeldOut} (ho : (fi.pieces hd w)[i]? = some o) :
    o.1 = 0 ∧ o.2.tok = fi.moved hd (fi.lo + i * w) (min (fi.lo + (i + 1) * w) fi.hi) := by
  rw [Fire.pieces, List.getElem?_map, Option.map_eq_some_iff] at ho
  obtain ⟨j, hj, rfl⟩ := ho
  obtain ⟨_, rfl⟩ := List.getElem?_eq_some_iff.1 hj
  rw [List.getElem_range]
  exact ⟨rfl, rfl⟩

theorem split_check (hi n : Nat) : (hi == openHi || decide (64 < n)) = true ↔ hi = openHi ∨ 64 < n := by
  rw [Bool.or_eq_true, beq_iff_eq, decide_eq_true_eq]

theorem close_check (shut : Bool) (k lo : Nat) : (shut || decide (k ≤ lo)) = true ↔ shut = true ∨ k ≤ lo := by
  rw [Bool.or_eq_true, decide_eq_true_eq]

theorem close_check_open {shut : Bool} {k lo : Nat} (hopen : shut = false) (hlo : lo < k) : ¬ (shut || decide (k ≤ lo)) = true := by
  rw [close_check, hopen]
  simpa using hlo

/-! ### The firings -/

section
variable {s : State} {e : SlotEnv} {c : Choice} (h : s.Fires e c) (x : EW)
include h

theorem runSlot_spanFault {body : SlotEnv → Fire → State → Eff} {code : Nat} {f : Fld} {t : Token}
    (hbody : body e (s.firing e c) s = .done (s.spanFault e code f { t with tag := s.curTag }) []) : s.FaultsAt e c code f (runSlot s body) :=
  ⟨_, rfl, rfl, rfl, rfl, runSlot_done h hbody rfl⟩

/-! ### SPAN (R165) -/

theorem execSpan_good (hok : spanOk (s.firing e c).r) : execSpan x s = .next (s.taken e s.curTag c.hi
    [(0, { tok := (s.firing e c).moved e.hdr (q40 (s.firing e c).r.payload 0) (q40 (s.firing e c).r.payload 2), basis := openHi })]) :=
  runSlot_done h (if_neg fun hbad => (span_check _).1 hbad hok) rfl

theorem execSpan_bad (hbad : ¬ spanOk (s.firing e c).r) : s.FaultsAt e c 2 .r (execSpan x s) :=
  runSlot_spanFault h (if_pos ((span_check _).2 hbad))

/-! ### DELAY, SPLIT (R166, R169) -/

theorem execDelay_good (hok : c.lo + q40 e.constR 0 ≤ 2 ^ 40 - 2 ∧ (c.hi = openHi ∨ delayedHi c.hi (q40 e.constR 0) ≤ 2 ^ 40 - 2)) :
    execDelay x s = .next (s.emitsTok e c
      ((s.firing e c).moved e.hdr (c.lo + q40 e.constR 0) (delayedHi c.hi (q40 e.constR 0)))) := by
  refine runSlot_done h ?_ rfl
  simp only [beq_iff_eq]
  exact if_neg fun hbad => (delay_check ..).1 hbad hok

theorem execDelay_bad (hbad : ¬ (c.lo + q40 e.constR 0 ≤ 2 ^ 40 - 2 ∧ (c.hi = openHi ∨ delayedHi c.hi (q40 e.constR 0) ≤ 2 ^ 40 - 2))) :
    s.FaultsAt e c 4 .l (execDelay x s) := by
  refine runSlot_spanFault h (t := (s.firing e c).l) ?_
  simp only [beq_iff_eq]
  exact if_pos ((delay_check ..).2 hbad)

theorem execSplit_good (hopen : c.hi ≠ openHi) (hn : pieceCount c.lo c.hi (q40 e.constR 0) ≤ 64) :
    execSplit x s = .next (s.taken e s.curTag c.hi ((s.firing e c).pieces e.hdr (q40 e.constR 0))) :=
  runSlot_done h (if_neg fun hbad => ((split_check ..).1 hbad).elim hopen (Nat.not_lt.2 hn)) rfl

theorem execSplit_bad (hbad : c.hi = openHi ∨ 64 < pieceCount c.lo c.hi (q40 e.constR 0)) : s.FaultsAt e c 4 .l (execSplit x s) :=
  runSlot_spanFault h (t := (s.firing e c).l) (if_pos ((split_check ..).2 hbad))

/-! ### CLOSE (R168) -/

theorem execClose_shut (hshut : (amGet (s.slotSt e.key e.slot).acc s.curTag {}).closedBit = true ∨ q40 e.constR 0 ≤ c.lo) :
    execClose x s = .next (s.taken e s.curTag c.hi []) :=
  runSlot_done h (if_pos ((close_check ..).2 hshut)) rfl

theorem execClose_passes (hopen : (amGet (s.slotSt e.key e.slot).acc s.curTag {}).closedBit = false) (hlo : c.lo < q40 e.constR 0)
    (hhi : c.hi < q40 e.constR 0) : execClose x s = .next (s.emitsTok e c ((s.firing e c).moved e.hdr c.lo c.hi)) := by
  have hnot : ¬ q40 e.constR 0 ≤ (s.firing e c).hi := Nat.not_le.2 hhi
  refine runSlot_done h ((if_neg (close_check_open hopen hlo)).trans ?_) rfl
  simp only [if_neg hnot, Nat.min_eq_left (Nat.le_of_not_le hnot)]
  rfl

theorem execClose_cuts (hopen : (amGet (s.slotSt e.key e.slot).acc s.curTag {}).closedBit = false) (hlo : c.lo < q40 e.constR 0)
    (hhi : q40 e.constR 0 ≤ c.hi) :
    let st := s.slotSt e.key e.slot
    let a : AccSt := amGet st.acc s.curTag {}
    execClose x s = .next ((s.setSlot e.key e.slot { st with acc := amPut st.acc s.curTag { a with closedBit := true } }).taken e s.curTag c.hi
      [(0, { tok := (s.firing e c).moved e.hdr c.lo (q40 e.constR 0), basis := openHi })]) := by
  have hle : q40 e.constR 0 ≤ (s.firing e c).hi := hhi
  refine runSlot_done h ((if_neg (close_check_open hopen hlo)).trans ?_) rfl
  simp only [if_pos hle, Nat.min_eq_right hle]
  rfl

end

/-! ### SPANQ (R169) -/

theorem spanq_lanes (lo hi seq i : Nat) :
    laneAt (packEls 32 [lo % 2 ^ 32, lo / 2 ^ 32, hi % 2 ^ 32, hi / 2 ^ 32, seq]) i =
      nthD [lo % 2 ^ 32, lo / 2 ^ 32 % 2 ^ 32, hi % 2 ^ 32, hi / 2 ^ 32 % 2 ^ 32, seq % 2 ^ 32] i 0 := by
  have hmod := nthD_map (· % 2 ^ 32) [lo % 2 ^ 32, lo / 2 ^ 32, hi % 2 ^ 32, hi / 2 ^ 32, seq] i 0
  simp only [List.map_cons, List.map_nil, Nat.mod_mod, Nat.zero_mod] at hmod
  rw [hmod]
  exact elAt_packEls_nthD (by simp) i

/-- Settles O32: each operation by its check of the span, and what it does on either side. -/
theorem spanOperationsMoveTheSpan : Obligations.SpanOperationsMoveTheSpan := by
  unfold Obligations.SpanOperationsMoveTheSpan
  intro s e c x h fi l r k top st a piece faults
  refine ⟨?_, ?_, ?_, ?_, ?_⟩
  · exact ⟨fun hok => ⟨_, moved_spec s e c _ _, execSpan_good h x hok⟩, fun hbad => execSpan_bad h x hbad⟩
  · exact ⟨fun hok => ⟨_, moved_spec s e c _ _, execDelay_good h x hok⟩, fun hbad => execDelay_bad h x hbad⟩
  · refine ⟨fun hopen hn => ⟨_, execSplit_good h x hopen hn, pieces_length .., fun i o ho => ?_⟩, fun hbad => execSplit_bad h x hbad⟩
    obtain ⟨hstream, htok⟩ := pieces_getElem ho
    rw [htok]
    exact ⟨hstream, moved_spec s e c _ _⟩
  · exact ⟨fun hopen hlo hhi => ⟨_, moved_spec s e c _ _, execClose_passes h x hopen hlo hhi⟩,
      fun hopen hlo hhi => ⟨_, moved_spec s e c _ _, execClose_cuts h x hopen hlo hhi⟩, execClose_shut h x⟩
  · exact ⟨_, (exec_spanq x s).trans (runLanes_fires _ h), rfl, rfl, fun i _ => spanq_lanes ..⟩

end Sys2Proof.Machine
end

section
/-!
PROOFS. WINDOW and COALESCE (O33).
-/

namespace Sys2Proof.Machine

/-! ### The sum of a window (R147, R167) -/

/-- Width of WINDOW's elements. -/
def windowWidth (x : EW) : Nat := if isFloatTy x.ty then elWidth x.ty false else intWidth x

theorem windowWidth_eq (x : EW) : windowWidth x = elWidth x.ty (mdAlt x.md && !isFloatTy x.ty) := by
  unfold windowWidth intWidth
  cases isFloatTy x.ty <;> simp

theorem windowWidth_mem (x : EW) : windowWidth x ∈ [8, 16, 32, 64] := windowWidth_eq x ▸ elWidth_mem _ _

/-- What WINDOW makes of element j, with the conditions that it raises. -/
def AccSt.sumEl (a : AccSt) (x : EW) (t : Token) (j : Nat) : Option Nat × Bool × Bool :=
  let w := windowWidth x
  let fm := fmtOf x.ty
  let ftz := mdFtz x.md
  if !elValid w t.valid j then (a.heldEl w t.reset j, false, false)
  else
    let z := elAt w t.payload j
    match a.heldEl w t.reset j with
    | none => (some (if isFloatTy x.ty then fm.flush ftz z else z), false, false)
    | some y =>
      let r := if isFloatTy x.ty then roundEl fm (mdRM x.md) ftz ((readEl fm ftz y).add (mdRM x.md) (readEl fm ftz z))
        else intMode (fun a b => a + b) (mdRm x.md) w y z
      (some r.bits, r.exc, r.sat)

section
variable (a : AccSt) (x : EW) (t : Token) (j : Nat)

theorem AccSt.sumEl_isSome : (a.sumEl x t j).1.isSome =
    (elValid (windowWidth x) t.valid j || (a.heldEl (windowWidth x) t.reset j).isSome) := by
  dsimp only [AccSt.sumEl]
  cases elValid (windowWidth x) t.valid j <;> cases a.heldEl (windowWidth x) t.reset j <;> rfl

theorem AccSt.sumEl_getD : (a.sumEl x t j).1.getD 0 =
    let w := windowWidth x
    let fm := fmtOf x.ty
    let ftz := mdFtz x.md
    let z := elAt w t.payload j
    match elValid w t.valid j, a.heldEl w t.reset j with
    | false, y => y.getD 0
    | true, none => if isFloatTy x.ty then fm.flush ftz z else z
    | true, some y =>
      if isFloatTy x.ty then (roundEl fm (mdRM x.md) ftz ((readEl fm ftz y).add (mdRM x.md) (readEl fm ftz z))).bits
      else (modeEl (mdRm x.md) w (readInt (mdRm x.md) w y + readInt (mdRm x.md) w z)).bits := by
  dsimp only [AccSt.sumEl]
  cases elValid (windowWidth x) t.valid j <;> cases a.heldEl (windowWidth x) t.reset j
  case true.some y => cases isFloatTy x.ty <;> rfl
  all_goals rfl

end

/-- The sum of a window after one more token: the window stays, its flags take in the token's, and each valid element is added. -/
theorem windowAdd_spec (x : EW) (a : AccSt) (t : Token) :
    let b := windowAdd x a t
    (b.flags.1 = (a.flags.1 || t.err) ∧ (a.flags.2.1 = true ∨ t.exc = true → b.flags.2.1 = true) ∧
      (a.flags.2.2 = true ∨ t.sat = true → b.flags.2.2 = true)) ∧
    ∀ j, j < elCount (windowWidth x) → elValid (windowWidth x) b.valid j = (a.sumEl x t j).1.isSome ∧
      elAt (windowWidth x) b.payload j = (a.sumEl x t j).1.getD 0 % 2 ^ windowWidth x := by
  intro b
  refine ⟨⟨rfl, fun h => ?_, fun h => ?_⟩, fun j hj => stateEls_spec (windowWidth_mem x) (a.sumEl x t) (fun k => ?_) hj⟩
  · exact Bool.or_eq_true_iff.2 (.inl (Bool.or_eq_true_iff.2 h))
  · exact Bool.or_eq_true_iff.2 (.inl (Bool.or_eq_true_iff.2 h))
  · rw [AccSt.sumEl_isSome, AccSt.sumEl_isSome, AccSt.heldEl_isSome, AccSt.heldEl_isSome, elValid_elOfLane (windowWidth_mem x),
      elValid_elOfLane (windowWidth_mem x), elReset_elOfLane (windowWidth_mem x)]

/-- The token of l as WINDOW adds it: with the conditions of the firing. -/
def Fire.windowed (fi : Fire) : Token := { fi.l with exc := fi.out.exc, sat := fi.out.sat, err := fi.out.err, cause := fi.out.cause }

/-- The state that WINDOW begins a window with. -/
def AccSt.fresh (a : AccSt) (q : Nat) : AccSt := { window := some q, tainted := a.tainted, cause := a.cause, errWins := a.errWins }

/-! ### A window that is put out (R166) -/

theorem windowTok_span {a : AccSt} {q : Nat} (w tag ctx : Nat) (hq : a.window = some q) :
    (windowTok a w tag ctx).lo = q * w ∧ (windowTok a w tag ctx).hi = q * w + w := by
  have hgetD : a.window.getD 0 = q := by rw [hq, Option.getD_some]
  exact ⟨congrArg (· * w) hgetD, congrArg (· * w + w) hgetD⟩

/-- A window whose end can be written is put out over its span, with its sum and flags and no reset bits. -/
theorem pushWindow_fits (s : State) (e : SlotEnv) (tag basis : Nat) (via : Option Token) {a : AccSt} {q : Nat} (hq : a.window = some q)
    (hend : q * q40 e.constR 0 + q40 e.constR 0 ≤ 2 ^ 40 - 2) : ∃ t : Token,
    (t.lo = q * q40 e.constR 0 ∧ t.hi = q * q40 e.constR 0 + q40 e.constR 0 ∧ t.tag = tag ∧ t.payload = a.payload ∧ t.valid = a.valid ∧
      t.reset = 0 ∧ (a.flags.1 = true → t.err = true) ∧ t.exc = a.flags.2.1 ∧ t.sat = a.flags.2.2) ∧
    s.pushWindow e tag basis via a = s.pushOut e 0 { tok := t, basis := basis } := by
  obtain ⟨hlo, hhi⟩ := windowTok_span (q40 e.constR 0) tag (s.getU e.key).ctx hq
  exact ⟨windowTok a (q40 e.constR 0) tag (s.getU e.key).ctx,
    ⟨hlo, hhi, rfl, rfl, rfl, rfl, fun herr => Bool.or_eq_true_iff.2 (.inl herr), rfl, rfl⟩, if_neg (Nat.not_lt.2 (hhi.trans_le hend))⟩

/-- A window whose end cannot be written raises SPAN_LIMIT at l. -/
theorem pushWindow_late (s : State) (e : SlotEnv) (tag basis : Nat) (via : Option Token) {a : AccSt} {q : Nat} (hq : a.window = some q)
    (hend : 2 ^ 40 - 2 < q * q40 e.constR 0 + q40 e.constR 0) : ∃ f : FaultRec,
    (f.code = 4 ∧ f.slot = e.slot ∧ f.fld = Fld.l.code ∧ f.tag = tag) ∧
    s.pushWindow e tag basis via a = s.raise (s.getU e.key).pad f := by
  obtain ⟨-, hhi⟩ := windowTok_span (q40 e.constR 0) tag (s.getU e.key).ctx hq
  exact ⟨_, ⟨rfl, rfl, rfl, rfl⟩, if_pos (hend.trans_eq hhi.symm)⟩

/-! ### WINDOW's firing (R167) -/

/-- A state with the slot state of a tag replaced. -/
def State.keepAcc (s : State) (e : SlotEnv) (tag : Nat) (b : AccSt) : State :=
  s.updSlot e.key e.slot fun st => { st with acc := amPut st.acc tag b }

section
variable {s : State} {e : SlotEnv} {c : Choice} (h : s.Fires e c) (x : EW)
include h

/-- A token of the open window is added to it. -/
theorem execWindow_adds {q : Nat} (hq : (amGet (s.slotSt e.key e.slot).acc s.curTag {} : AccSt).window = some q)
    (hin : c.lo / q40 e.constR 0 ≤ q) : execWindow x s = .next ((s.keepAcc e s.curTag
      (windowAdd x (amGet (s.slotSt e.key e.slot).acc s.curTag {}) (s.firing e c).windowed)).taken e s.curTag c.hi []) := by
  have hpast : decide (q < (s.firing e c).lo / q40 e.constR 0) = false := decide_eq_false (Nat.not_lt.2 hin)
  have hq' : (amGet (s.slotSt e.key e.slot).acc (s.firing e c).tag {} : AccSt).window = some q := hq
  refine runSlot_done h ?_ rfl
  simp only [hq', hpast, Option.isNone_some, Bool.or_self, Bool.false_eq_true, if_false]
  rfl

/-- Where no window is open the token begins one. -/
theorem execWindow_begins (hnone : (amGet (s.slotSt e.key e.slot).acc s.curTag {} : AccSt).window = none) :
    execWindow x s = .next ((s.keepAcc e s.curTag (windowAdd x
      ((amGet (s.slotSt e.key e.slot).acc s.curTag {} : AccSt).fresh (c.lo / q40 e.constR 0)) (s.firing e c).windowed)).taken e s.curTag c.hi []) := by
  have hnone' : (amGet (s.slotSt e.key e.slot).acc (s.firing e c).tag {} : AccSt).window = none := hnone
  refine runSlot_done h ?_ rfl
  simp only [hnone', Option.isNone_none, Bool.or_true, Bool.false_eq_true, if_false, if_true]
  rfl

/-- A token of a later window puts the open one out first and begins its own. -/
theorem execWindow_passes {q : Nat} {u : State} (hq : (amGet (s.slotSt e.key e.slot).acc s.curTag {} : AccSt).window = some q)
    (hpast : q < c.lo / q40 e.constR 0)
    (hu : s.pushWindow e s.curTag 0 (some (s.firing e c).l) (amGet (s.slotSt e.key e.slot).acc s.curTag {}) = u) (hcores : u.cores = s.cores) :
    execWindow x s = .next ((u.keepAcc e s.curTag (windowAdd x
      ((amGet (s.slotSt e.key e.slot).acc s.curTag {} : AccSt).fresh (c.lo / q40 e.constR 0)) (s.firing e c).windowed)).taken e s.curTag c.hi []) := by
  have hpast' : decide (q < (s.firing e c).lo / q40 e.constR 0) = true := decide_eq_true hpast
  have hq' : (amGet (s.slotSt e.key e.slot).acc (s.firing e c).tag {} : AccSt).window = some q := hq
  refine runSlot_done h ?_ hcores
  simp only [hq', hpast', Option.isNone_some, Bool.or_false, if_true]
  rw [← hu]
  rfl

end

/-! ### COALESCE (R168) -/

/-- COALESCE's check: t continues p with the same masks, flags and valid lanes. -/
theorem coalesce_check (p t : Token) : (t.lo == p.hi && sameValues p t) = true ↔
    t.lo = p.hi ∧ p.valid = t.valid ∧ p.reset = t.reset ∧ p.err = t.err ∧ p.exc = t.exc ∧ p.sat = t.sat ∧
      ∀ i, i < 16 → p.valid.getLsbD i = true → laneAt p.payload i = laneAt t.payload i := by
  simp only [sameValues, Bool.and_eq_true, beq_iff_eq, List.all_eq_true, List.mem_range, Bool.or_eq_true, Bool.not_eq_true',
    ← Bool.not_eq_true, ← imp_iff_not_or, and_assoc]

/-- A state with a token pending. -/
def State.keepPending (s : State) (e : SlotEnv) (tag : Nat) (p : Token) : State :=
  s.setSlot e.key e.slot { s.slotSt e.key e.slot with
    acc := amPut (s.slotSt e.key e.slot).acc tag { (amGet (s.slotSt e.key e.slot).acc tag {} : AccSt) with pending := some p } }

section
variable {s : State} {e : SlotEnv} {c : Choice} (h : s.Fires e c) (x : EW)
include h

theorem execCoalesce_begins (hnone : (amGet (s.slotSt e.key e.slot).acc s.curTag {} : AccSt).pending = none) :
    execCoalesce x s = .next ((s.keepPending e s.curTag ((s.firing e c).moved e.hdr c.lo c.hi)).taken e s.curTag c.hi []) := by
  have hnone' : (amGet (s.slotSt e.key e.slot).acc (s.firing e c).tag {} : AccSt).pending = none := hnone
  refine runSlot_done h ?_ rfl
  simp only [hnone']
  rfl

theorem execCoalesce_joins {p : Token} (hp : (amGet (s.slotSt e.key e.slot).acc s.curTag {} : AccSt).pending = some p)
    (hsame : (((s.firing e c).moved e.hdr c.lo c.hi).lo == p.hi && sameValues p ((s.firing e c).moved e.hdr c.lo c.hi)) = true) :
    execCoalesce x s = .next ((s.keepPending e s.curTag { p with hi := c.hi }).taken e s.curTag c.hi []) := by
  have hp' : (amGet (s.slotSt e.key e.slot).acc (s.firing e c).tag {} : AccSt).pending = some p := hp
  refine runSlot_done h ?_ rfl
  simp only [hp']
  exact if_pos hsame

theorem execCoalesce_passes {p : Token} (hp : (amGet (s.slotSt e.key e.slot).acc s.curTag {} : AccSt).pending = some p)
    (hother : ¬ (((s.firing e c).moved e.hdr c.lo c.hi).lo == p.hi && sameValues p ((s.firing e c).moved e.hdr c.lo c.hi)) = true) :
    execCoalesce x s = .next ((s.keepPending e s.curTag ((s.firing e c).moved e.hdr c.lo c.hi)).taken e s.curTag c.hi
      [(0, { tok := p, basis := 0 })]) := by
  have hp' : (amGet (s.slotSt e.key e.slot).acc (s.firing e c).tag {} : AccSt).pending = some p := hp
  refine runSlot_done h ?_ rfl
  simp only [hp']
  exact if_neg hother

end

/-! ### Closes (R167, R168) -/

section
variable {s : State} {e : SlotEnv} {tag cp : Nat} {x : EW} (hclose : e.closePoint (s.slotSt e.key e.slot) tag = some cp)
include hclose

theorem flush_window (hi : e.instr = .window x) {q : Nat} (hq : (amGet (s.slotSt e.key e.slot).acc tag {} : AccSt).window = some q) :
    s.flush e tag = (s.setSlot e.key e.slot { s.slotSt e.key e.slot with acc := amPut (s.slotSt e.key e.slot).acc tag {} }).pushWindow e tag
      openHi none (amGet (s.slotSt e.key e.slot).acc tag {}) := by
  unfold State.flush
  simp only [hclose, hi, hq, Option.isSome_some, if_true]

theorem flush_coalesce (hi : e.instr = .coalesce x) {p : Token} (hp : (amGet (s.slotSt e.key e.slot).acc tag {} : AccSt).pending = some p) :
    s.flush e tag = (s.setSlot e.key e.slot { s.slotSt e.key e.slot with
      acc := amPut (s.slotSt e.key e.slot).acc tag { (amGet (s.slotSt e.key e.slot).acc tag {} : AccSt) with pending := none } }).pushOut e 0
        { tok := p, basis := openHi } := by
  unfold State.flush
  simp only [hclose, hi, hp]

end

/-- Settles O33: the sum by its elements, each firing by what it finds open or pending, and a close by what it puts out. -/
theorem windowsAndJoinedTokensWait : Obligations.WindowsAndJoinedTokensWait := by
  unfold Obligations.WindowsAndJoinedTokensWait
  refine ⟨?_, ?_⟩
  · intro s e c x h fi l st a fl w fm ftz m width here keep sums fresh
    have hsums (old : AccSt) : sums old (windowAdd x old fi.windowed) := by
      obtain ⟨⟨herr, hexc, hsat⟩, hels⟩ := windowAdd_spec x old fi.windowed
      refine ⟨⟨herr.trans (Bool.or_false _), hexc, hsat⟩, fun j hj => ?_⟩
      rw [show w = windowWidth x from (windowWidth_eq x).symm] at hj ⊢
      obtain ⟨hvalid, hbits⟩ := hels j hj
      exact ⟨hvalid.trans (AccSt.sumEl_isSome ..), hbits.trans (congrArg (· % 2 ^ windowWidth x) (AccSt.sumEl_getD ..))⟩
    refine ⟨fun q hq hin => ⟨windowAdd x a fi.windowed, hq, hsums a, execWindow_adds h x hq hin⟩,
      fun hnone => ⟨_, rfl, hsums (a.fresh here), execWindow_begins h x hnone⟩, fun q hq hpast hend => ?_, ?_⟩
    · obtain ⟨t, ⟨hlo, hhi, htag, hpayload, hvalid, hreset, herr, hexc, hsat⟩, hpush⟩ := pushWindow_fits s e s.curTag 0 (some l) hq hend
      exact ⟨_, _, rfl, hsums (a.fresh here), execWindow_passes h x hq hpast hpush rfl, t, rfl, hlo, hhi, htag, hpayload, hvalid, hreset, herr,
        hexc, hsat⟩
    · intro t keeps
      refine ⟨fun hnet => ?_, fun hnone => execCoalesce_begins h x hnone, fun p hp => ⟨fun hsame => ?_, fun hother => ?_⟩⟩
      · obtain ⟨-, hshows⟩ := fi.result_vector { payload := l.payload, valid := l.valid, reset := l.reset } hnet
        exact hshows
      · exact execCoalesce_joins h x hp ((coalesce_check p t).2 hsame)
      · exact execCoalesce_passes h x hp (hother ∘ (coalesce_check p t).1)
  · intro s e tag cp x hclose st a put
    refine ⟨fun q hi hq => ⟨fun hend => ?_, fun hend => ?_⟩, fun p hi hp => flush_coalesce hclose hi hp⟩
    · obtain ⟨t, ⟨hlo, hhi, htag, hpayload, hvalid, hreset, -⟩, hpush⟩ := pushWindow_fits (put {}) e tag openHi none hq hend
      exact ⟨t, hlo, hhi, htag, hpayload, hvalid, hreset, (flush_window hclose hi hq).trans hpush⟩
    · obtain ⟨f, ⟨hcode, hslot, hfld, htag⟩, hpush⟩ := pushWindow_late (put {}) e tag openHi none hq hend
      exact ⟨f, hcode, hslot, hfld, htag, (flush_window hclose hi hq).trans hpush⟩

end Sys2Proof.Machine
end

section
/-!
PROOFS. The words of a tile's entry (O15).
-/

namespace Sys2Proof.Machine

theorem tyNat_lt (t : Ty) : tyNat t < 8 := by cases t <;> decide

theorem TileRole.code_lt (r : TileRole) : r.code < 4 := by cases r <;> decide

theorem b2n_le (b : Bool) : b2n b ≤ 1 := by cases b <;> decide

theorem consumerNat_lt (c : Consumer) : consumerNat c < 2 ^ 9 := by
  have hslot := c.slot.isLt
  have hfld := c.fld.isLt
  unfold consumerNat
  omega

/-- What W0 holds below its sticky flags: role, type, layout, place and counts (R173). -/
def Tile.place (t : Tile) : Nat :=
  t.role.code * 2 ^ 57 + tyNat t.ty * 2 ^ 54 + b2n t.alt * 2 ^ 53 + b2n t.tb * 2 ^ 52 + t.ring % 8 * 2 ^ 49 + t.pos % 16 * 2 ^ 44 +
    t.base % 2 ^ 11 * 2 ^ 33 + t.kcount % 2 ^ 12 * 2 ^ 21 + t.kdone % 2 ^ 12 * 2 ^ 9

theorem Tile.place_lt (t : Tile) : t.place < 2 ^ 59 := by
  have hrole := t.role.code_lt
  have hty := tyNat_lt t.ty
  have halt := b2n_le t.alt
  have htb := b2n_le t.tb
  unfold Tile.place
  omega

theorem Tile.word_zero (t : Tile) : t.word 0 = t.st.code * 2 ^ 62 + b2n t.err * 2 ^ 61 + b2n t.exc * 2 ^ 60 + b2n t.sat * 2 ^ 59 + t.place := by
  simp only [Tile.word, Tile.place]
  omega

/-- A bit of a number whose part above that bit and whose part below it are known. -/
theorem testBit_of_parts {h lo i : Nat} (b : Bool) (hlo : lo < 2 ^ i) : (h * 2 ^ (i + 1) + b2n b * 2 ^ i + lo).testBit i = b := by
  have hdiv : (h * 2 ^ (i + 1) + b2n b * 2 ^ i + lo) / 2 ^ i = 2 * h + b2n b := by
    rw [show h * 2 ^ (i + 1) + b2n b * 2 ^ i + lo = 2 ^ i * (2 * h + b2n b) + lo by rw [Nat.pow_succ]; ring, Nat.mul_add_div (Nat.two_pow_pos i),
      Nat.div_eq_of_lt hlo, Nat.add_zero]
  rw [Nat.testBit_eq_decide_div_mod_eq, hdiv]
  cases b <;> simp [b2n]

/-- W0 shows the state and the stickies of its tile. -/
theorem Tile.word_zero_fields (t : Tile) : t.word 0 < 2 ^ 64 ∧ t.word 0 / 2 ^ 62 = t.st.code ∧ (t.word 0).testBit 61 = t.err ∧
    (t.word 0).testBit 60 = t.exc ∧ (t.word 0).testBit 59 = t.sat := by
  have hplace := t.place_lt
  have hst : t.st.code < 4 := by cases t.st <;> decide
  have herr := b2n_le t.err
  have hexc := b2n_le t.exc
  have hsat := b2n_le t.sat
  rw [t.word_zero]
  refine ⟨by omega, by omega, ?_, ?_, ?_⟩
  · have hparts : t.st.code * 2 ^ 62 + b2n t.err * 2 ^ 61 + b2n t.exc * 2 ^ 60 + b2n t.sat * 2 ^ 59 + t.place =
        t.st.code * 2 ^ (61 + 1) + b2n t.err * 2 ^ 61 + (b2n t.exc * 2 ^ 60 + b2n t.sat * 2 ^ 59 + t.place) := by omega
    rw [hparts, testBit_of_parts t.err (by omega)]
  · have hparts : t.st.code * 2 ^ 62 + b2n t.err * 2 ^ 61 + b2n t.exc * 2 ^ 60 + b2n t.sat * 2 ^ 59 + t.place =
        (t.st.code * 2 + b2n t.err) * 2 ^ (60 + 1) + b2n t.exc * 2 ^ 60 + (b2n t.sat * 2 ^ 59 + t.place) := by omega
    rw [hparts, testBit_of_parts t.exc (by omega)]
  · have hparts : t.st.code * 2 ^ 62 + b2n t.err * 2 ^ 61 + b2n t.exc * 2 ^ 60 + b2n t.sat * 2 ^ 59 + t.place =
        (t.st.code * 4 + b2n t.err * 2 + b2n t.exc) * 2 ^ (59 + 1) + b2n t.sat * 2 ^ 59 + t.place := by omega
    rw [hparts, testBit_of_parts t.sat hplace]

theorem Tile.word_one {t : Tile} (hlo : t.lo < 2 ^ 40) (hseq : t.seq < 2 ^ 24) : t.word 1 = t.lo * 2 ^ 24 + t.seq := by
  simp only [Tile.word, Nat.mod_eq_of_lt hlo, Nat.mod_eq_of_lt hseq]

theorem Tile.word_two {t : Tile} (hhi : t.hi < 2 ^ 40) : t.word 2 < 2 ^ 64 ∧ t.word 2 / 2 ^ 24 = t.hi := by
  have h0 := consumerNat_lt t.c0
  have h1 := consumerNat_lt t.c1
  simp only [Tile.word, Nat.mod_eq_of_lt hhi]
  omega

/-- A selector with no other bit than those of a tile and of a word below 3 (R317). -/
theorem tileSel_word {v : DWord} {w : Nat} (hw : w < 3) (hv : v.toNat = 256 * w + v.toNat % 64) : tileSel v = some (v.toNat % 64, w) := by
  have hword : bitsOf v.toNat 9 8 = w := by simp only [bitsOf]; omega
  have hzero : bitsOf v.toNat 7 6 = 0 := by simp only [bitsOf]; omega
  have htile : bitsOf v.toNat 5 0 = v.toNat % 64 := by simp only [bitsOf]; omega
  have hlt : v.toNat < 1024 := by omega
  simp [tileSel, hword, hzero, htile, hlt, hw]

theorem tileSel_reserved {v : DWord} (hv : 768 ≤ v.toNat ∨ v.toNat / 64 % 4 ≠ 0) : tileSel v = none := by
  have hbad : ¬ (v.toNat < 2 ^ 10 ∧ bitsOf v.toNat 7 6 = 0 ∧ bitsOf v.toNat 9 8 < 3) := by simp only [bitsOf]; omega
  simp only [tileSel, Bool.and_eq_true, decide_eq_true_eq, beq_iff_eq, and_assoc, if_neg hbad]

section
variable {s : State} {a b : RegNum} {g : Guard} {n w : Nat}

theorem exec_tqry (h : s.Executes g [a] []) (hsel : tileSel (s.core.reg a) = some (n, w)) :
    exec (.tqry a b g) s = .next (s.wrote b (BitVec.ofNat 64 ((amGet s.curUnit.tiles n {}).word w))) := by
  show (.next _ : Out) = _
  simp [runWord_executes true _ h, hsel, State.finishWord, State.retire, State.wrote]

theorem exec_tqry_reserved (h : s.Executes g [a] []) (hsel : tileSel (s.core.reg a) = none) :
    exec (.tqry a b g) s = .next (s.takeTrap .reservedField 0) := by
  show (.next _ : Out) = _
  simp only [runWord_executes true _ h, hsel, State.finishWord]

theorem exec_tset (h : s.Executes g [a, b] []) (hsel : tileSel (s.core.reg a) = some (n, w)) :
    exec (.tset a b g) s = .next (if tsetOk (amGet s.curUnit.tiles n {}) w (s.core.reg b).toNat then s.holds (.tset n w (s.core.reg b))
      else s.takeTrap .reservedField 0) := by
  show (.next _ : Out) = _
  simp only [runWord_executes true _ h, hsel]
  split <;> rfl

theorem exec_tset_reserved (h : s.Executes g [a, b] []) (hsel : tileSel (s.core.reg a) = none) :
    exec (.tset a b g) s = .next (s.takeTrap .reservedField 0) := by
  show (.next _ : Out) = _
  simp only [runWord_executes true _ h, hsel, State.finishWord]

end

/-- Settles O15: the selector names a tile and a word of it, or is reserved; the fields of each word read back. -/
theorem tileEntryWordsReadAndHold : Obligations.TileEntryWordsReadAndHold := by
  unfold Obligations.TileEntryWordsReadAndHold
  intro s a b g x n t
  refine ⟨fun h => ⟨fun w hw hx => ?_, fun hbad => ?_⟩, fun h => ⟨fun w hw hx => ?_, fun hbad => ?_⟩⟩
  · refine ⟨BitVec.ofNat 64 (t.word w), ?_, ?_, ?_, ?_⟩
    · exact exec_tqry h (tileSel_word hw hx)
    · rintro rfl
      obtain ⟨hlt, hst, herr, hexc, hsat⟩ := t.word_zero_fields
      rw [BitVec.toNat_ofNat, Nat.mod_eq_of_lt hlt]
      simp only [BitVec.getLsbD_ofNat]
      exact ⟨hst, by simpa using herr, by simpa using hexc, by simpa using hsat⟩
    · rintro rfl hlo hseq
      rw [BitVec.toNat_ofNat, Tile.word_one hlo hseq]
      omega
    · rintro rfl hhi
      obtain ⟨hlt, hread⟩ := Tile.word_two hhi
      rw [BitVec.toNat_ofNat, Nat.mod_eq_of_lt hlt, hread]
  · exact exec_tqry_reserved h (tileSel_reserved hbad)
  · exact exec_tset h (tileSel_word hw hx)
  · exact exec_tset_reserved h (tileSel_reserved hbad)

end Sys2Proof.Machine
end

section
/-!
PROOFS. What the updates of a unit leave of its configuration and of its tiles.
-/

namespace Sys2Proof.Machine

section
variable {s t : State} {k key n m : Nat} {f : UnitSt → UnitSt}

theorem getU_congr (h : t.units = s.units) : t.getU key = s.getU key := by unfold State.getU; rw [h]

theorem tile_congr (h : t.units = s.units) : t.tile key n = s.tile key n := congrArg (UnitSt.tile · n) (getU_congr h)

@[simp] theorem updU_getU_same (s : State) (k : Nat) (f : UnitSt → UnitSt) : (s.updU k f).getU k = f (s.getU k) := State.setU_getU_same ..

theorem updU_getU_other (s : State) (f : UnitSt → UnitSt) (h : key ≠ k) : (s.updU k f).getU key = s.getU key := State.setU_getU_other _ _ _ _ h

/-- What an update keeps of its unit is kept of every unit. -/
theorem updU_keeps {α : Type} (g : UnitSt → α) (hf : g (f (s.getU k)) = g (s.getU k)) : g ((s.updU k f).getU key) = g (s.getU key) := by
  by_cases h : key = k
  · subst h; rw [updU_getU_same, hf]
  · rw [updU_getU_other _ _ h]

theorem updU_tile (hf : (f (s.getU k)).tiles = (s.getU k).tiles) : (s.updU k f).tile key n = s.tile key n :=
  updU_keeps (UnitSt.tile · n) (by rw [UnitSt.tile, hf]; rfl)

@[simp] theorem wake_tile (s : State) (k key n : Nat) : (s.wake k).tile key n = s.tile key n := updU_tile rfl

@[simp] theorem wake_conf (s : State) (k key : Nat) : ((s.wake k).getU key).conf = (s.getU key).conf := updU_keeps UnitSt.conf rfl

@[simp] theorem setTile_conf (s : State) (k m : Nat) (x : Tile) (key : Nat) : ((s.setTile k m x).getU key).conf = (s.getU key).conf :=
  (wake_conf ..).trans (updU_keeps UnitSt.conf rfl)

@[simp] theorem setTile_tile_same (s : State) (k m : Nat) (x : Tile) : (s.setTile k m x).tile k m = x := by
  rw [State.setTile, wake_tile, State.tile, updU_getU_same]
  exact amGet_amPut_same _ _ _ _

theorem setTile_tile_other (s : State) (x : Tile) (h : ¬ (key = k ∧ n = m)) : (s.setTile k m x).tile key n = s.tile key n := by
  rw [State.setTile, wake_tile]
  by_cases hkey : key = k
  · subst hkey
    rw [State.tile, updU_getU_same]
    exact amGet_amPut_other _ _ _ _ _ fun hn => h ⟨rfl, hn⟩
  · rw [State.tile, updU_getU_other _ _ hkey]; rfl

/-- What the new value of a tile keeps is kept of every tile. -/
theorem setTile_keeps {α : Type} (g : Tile → α) {x : Tile} (hx : g x = g (s.tile k m)) : g ((s.setTile k m x).tile key n) = g (s.tile key n) := by
  by_cases h : key = k ∧ n = m
  · obtain ⟨rfl, rfl⟩ := h; rw [setTile_tile_same, hx]
  · rw [setTile_tile_other _ _ h]

@[simp] theorem updRing_tile (s : State) (k r : Nat) (g : RingSt → RingSt) (key n : Nat) : (s.updRing k r g).tile key n = s.tile key n := updU_tile rfl
@[simp] theorem updRing_conf (s : State) (k r : Nat) (g : RingSt → RingSt) (key : Nat) : ((s.updRing k r g).getU key).conf = (s.getU key).conf :=
  updU_keeps UnitSt.conf rfl

@[simp] theorem setSlot_tile (s : State) (k slot : Nat) (st : SlotSt) (key n : Nat) : (s.setSlot k slot st).tile key n = s.tile key n := updU_tile rfl
@[simp] theorem setSlot_conf (s : State) (k slot : Nat) (st : SlotSt) (key : Nat) : ((s.setSlot k slot st).getU key).conf = (s.getU key).conf :=
  updU_keeps UnitSt.conf rfl

@[simp] theorem updSlot_tile (s : State) (k slot : Nat) (g : SlotSt → SlotSt) (key n : Nat) : (s.updSlot k slot g).tile key n = s.tile key n := updU_tile rfl
@[simp] theorem updSlot_conf (s : State) (k slot : Nat) (g : SlotSt → SlotSt) (key : Nat) :
    ((s.updSlot k slot g).getU key).conf = (s.getU key).conf := updU_keeps UnitSt.conf rfl

/-- The state that a completed tail leaves: the tile alone is changed, and the ring has its token. -/
theorem completeTail_keeps {α : Type} (g : Tile → α) (hg : ∀ x hi seq, g { x with st := .ready, hi := hi, seq := seq } = g x) (s : State) (k r hi : Nat) :
    g ((s.completeTail k r hi).tile key n) = g (s.tile key n) := by
  unfold State.completeTail
  dsimp only
  rw [updRing_tile]
  exact setTile_keeps g (hg _ _ _)

@[simp] theorem completeTail_conf (s : State) (k r hi key : Nat) : ((s.completeTail k r hi).getU key).conf = (s.getU key).conf := by
  unfold State.completeTail
  dsimp only
  rw [updRing_conf, setTile_conf]

theorem Tile.setWord_err (t : Tile) (sel : Nat) (v : DWord) : (t.setWord sel v).err = t.err := by
  unfold Tile.setWord
  split <;> rfl

theorem Tile.emptied_err (t : Tile) : t.emptied.err = t.err := by
  unfold Tile.emptied
  suffices h : ∀ (l : List (Nat × DWord)) (x : Tile), (l.foldl (fun t y => t.setWord y.1 y.2) x).err = x.err from h _ _
  intro l
  induction l with
  | nil => exact fun _ => rfl
  | cons y l ih => exact fun x => (ih _).trans (Tile.setWord_err ..)

end

end Sys2Proof.Machine
end

section
/-!
PROOFS. Tile operations (O37): a TTRN marks the tile that it writes, where its source is marked.
-/

namespace Sys2Proof.Machine

/-! ### Settling a TTRN slot keeps the marks of its unit's tiles -/

/-- The tiles of a state and those of another agree in their error marks, and their units in their configurations. -/
structure State.SameMarks (s t : State) : Prop where
  conf : ∀ key, (t.getU key).conf = (s.getU key).conf
  err : ∀ key n, (t.tile key n).err = (s.tile key n).err

theorem State.SameMarks.refl (s : State) : s.SameMarks s := ⟨fun _ => rfl, fun _ _ => rfl⟩

theorem State.SameMarks.trans {s t u : State} (hst : s.SameMarks t) (htu : t.SameMarks u) : s.SameMarks u :=
  ⟨fun key => (htu.conf key).trans (hst.conf key), fun key n => (htu.err key n).trans (hst.err key n)⟩

theorem sameMarks_of_units {s t : State} (h : t.units = s.units) : s.SameMarks t :=
  ⟨fun _ => congrArg UnitSt.conf (getU_congr h), fun _ _ => congrArg Tile.err (tile_congr h)⟩

theorem sameMarks_updU (s : State) (k : Nat) {f : UnitSt → UnitSt} (htiles : ∀ u, (f u).tiles = u.tiles) (hconf : ∀ u, (f u).conf = u.conf) :
    s.SameMarks (s.updU k f) :=
  ⟨fun _ => updU_keeps UnitSt.conf (hconf _), fun _ _ => congrArg Tile.err (updU_tile (htiles _))⟩

theorem sameMarks_setTile {s : State} {k n : Nat} {x : Tile} (h : x.err = (s.tile k n).err) : s.SameMarks (s.setTile k n x) :=
  ⟨fun _ => setTile_conf .., fun _ _ => setTile_keeps Tile.err h⟩

theorem sameMarks_completeTail (s : State) (k r hi : Nat) : s.SameMarks (s.completeTail k r hi) :=
  ⟨fun _ => completeTail_conf .., fun _ _ => completeTail_keeps Tile.err (fun _ _ _ => rfl) ..⟩

theorem sameMarks_foldl {α : Type} (f : State → α → State) (hf : ∀ (s : State) x, s.SameMarks (f s x)) (l : List α) (s : State) : s.SameMarks (l.foldl f s) := by
  induction l generalizing s with
  | nil => exact .refl s
  | cons x l ih => exact (hf s x).trans (ih _)

theorem sameMarks_updSlot (s : State) (k slot : Nat) (f : SlotSt → SlotSt) : s.SameMarks (s.updSlot k slot f) :=
  sameMarks_updU s k (fun _ => rfl) fun _ => rfl

theorem sameMarks_setSlot (s : State) (k slot : Nat) (st : SlotSt) : s.SameMarks (s.setSlot k slot st) := sameMarks_updU s k (fun _ => rfl) fun _ => rfl

theorem sameMarks_updRing (s : State) (k r : Nat) (f : RingSt → RingSt) : s.SameMarks (s.updRing k r f) :=
  sameMarks_updU s k (fun _ => rfl) fun _ => rfl

theorem sameMarks_updPad (s : State) (p : Nat) (f : Pad → Pad) : s.SameMarks (s.updPad p f) := sameMarks_of_units (State.updPad_units ..)

theorem sameMarks_parked (s : State) (k : Nat) (f : UnitSt → List (Nat × Nat)) : s.SameMarks (s.updU k fun u => { u with parked := f u }) :=
  sameMarks_updU s k (fun _ => rfl) fun _ => rfl

theorem sameMarks_unready (s : State) (loc : Loc) (slot tag : Nat) : s.SameMarks (s.unready loc slot tag) := by
  unfold State.unready
  dsimp only
  split
  · refine .trans ?_ (sameMarks_parked ..)
    exact sameMarks_of_units rfl
  · exact sameMarks_of_units rfl

theorem sameMarks_noteExc (s : State) (e : SlotEnv) (t : Token) : s.SameMarks (s.noteExc e t) := by
  unfold State.noteExc
  split
  · exact .refl s
  · exact sameMarks_of_units rfl

theorem sameMarks_askReinject (s : State) (e : SlotEnv) : s.SameMarks (s.askReinject e) := by
  unfold State.askReinject
  dsimp only
  split
  · exact .refl s
  · exact sameMarks_of_units rfl

theorem sameMarks_askCommit (s : State) (pad : Nat) : s.SameMarks (s.askCommit pad) := by
  unfold State.askCommit
  dsimp only
  split
  · exact sameMarks_of_units rfl
  · exact .refl s

section
variable {e : SlotEnv} {x : TileW} (hinstr : e.instr = .ttrn x)
include hinstr

theorem ttrn_rings : e.rings = [] := by unfold SlotEnv.rings; rw [hinstr]

theorem ttrn_acc : e.acc = none := by unfold SlotEnv.acc; rw [hinstr]

theorem ttrn_streams : e.streams = [0] := by unfold SlotEnv.streams; rw [hinstr]; rfl

/-- What a TTRN writes stands in its ring: it puts out no result. -/
theorem ttrn_sinks (u : UnitSt) : e.sinks u 0 = [] := by
  have hcons : e.consumers u = (⟨0, 3⟩, ⟨0, 3⟩) := by unfold SlotEnv.consumers; rw [hinstr]
  unfold SlotEnv.sinks
  rw [hcons, hinstr]
  rfl

theorem sameMarks_discards (s : State) (tag : Nat) : s.SameMarks (s.discards e tag) := by
  unfold State.discards
  rw [ttrn_rings hinstr]
  exact sameMarks_foldl _ (fun s f => sameMarks_setSlot ..) _ _

theorem sameMarks_settleRows (s : State) (tag n : Nat) : s.SameMarks (s.settleRows e tag (n + 1)) := by
  unfold State.settleRows
  rw [hinstr]
  dsimp only
  split
  · exact sameMarks_of_units rfl
  · have hfeed (u : State) : u.feed e = u := by unfold State.feed; rw [ttrn_rings hinstr]; rfl
    rw [ttrn_rings hinstr, hfeed]
    exact (sameMarks_unready ..).trans (sameMarks_discards hinstr ..)

theorem sameMarks_flush (s : State) (tag : Nat) : s.SameMarks (s.flush e tag) := by
  unfold State.flush
  dsimp only
  rw [hinstr, ttrn_acc hinstr]
  cases e.closePoint (s.slotSt e.key e.slot) tag with
  | none => exact .refl s
  | some c =>
    dsimp only
    cases e.writes with
    | none => exact .refl s
    | some r =>
      dsimp only
      split
      · exact .refl s
      · have hmark {t u : State} (ht : s.SameMarks t) {n : Nat} (hu : u = if (t.tile e.key n).st == .ready && (t.tile e.key n).hi == c then
            t.setTile e.key n { t.tile e.key n with close := true } else t) : s.SameMarks u := by
          subst hu
          split
          · exact ht.trans (sameMarks_setTile rfl)
          · exact ht
        refine hmark (.trans ?_ (sameMarks_updRing ..)) rfl
        split
        · exact sameMarks_completeTail ..
        · exact .refl s

theorem sameMarks_release (tag : Nat) (known : Option Nat) (front n : Nat) (s : State) : s.SameMarks (s.release e tag 0 known front n) := by
  induction n generalizing s with
  | zero => exact .refl s
  | succ n ih =>
    unfold State.release
    dsimp only
    simp only [ttrn_sinks hinstr, List.foldl_nil]
    split
    · exact .refl s
    · split
      · exact .refl s
      · refine .trans ?_ (ih _)
        have hexc {t u : State} (ht : s.SameMarks t) (b : Bool) {tok : Token} (hu : u = if b then t.noteExc e tok else t) : s.SameMarks u := by
          subst hu
          split
          · exact ht.trans (sameMarks_noteExc ..)
          · exact ht
        split
        · exact (hexc (sameMarks_setSlot ..) _ rfl).trans (sameMarks_setTile (Tile.emptied_err _))
        · exact hexc (sameMarks_setSlot ..) _ rfl

theorem sameMarks_closeOut (s : State) (tag d : Nat) : s.SameMarks (s.closeOut e tag 0 d) := by
  unfold State.closeOut
  dsimp only
  split
  · exact .refl s
  · rw [ttrn_sinks hinstr]
    exact sameMarks_setSlot ..

theorem sameMarks_settleOut (s : State) (tag : Nat) : s.SameMarks (s.settleOut e tag) := by
  unfold State.settleOut
  rw [ttrn_streams hinstr, hinstr]
  dsimp only [Instr.keepsState, List.foldl_cons, List.foldl_nil]
  simp only [Bool.false_and, Bool.false_eq_true, if_false]
  have hflush : s.SameMarks (if (!s.determined e tag) = true then s.flush e tag else s) := by
    split
    · exact sameMarks_flush hinstr ..
    · exact .refl s
  split
  · exact .trans (hflush.trans (sameMarks_release hinstr ..)) (sameMarks_closeOut hinstr ..)
  · exact hflush.trans (sameMarks_release hinstr ..)

theorem sameMarks_align (s : State) : s.SameMarks (s.align e) := by
  unfold State.align
  rw [ttrn_streams hinstr]
  simp only [List.flatMap_cons, List.flatMap_nil, ttrn_sinks hinstr, List.append_nil, List.foldl_nil]
  refine .trans ?_ (sameMarks_askCommit ..)
  split
  · exact .trans (.trans (sameMarks_updSlot ..) (sameMarks_updPad ..)) (sameMarks_updRing ..)
  · exact .trans (sameMarks_updSlot ..) (sameMarks_updPad ..)

theorem sameMarks_settleSlot (n : Nat) (s : State) : s.SameMarks (s.settleSlot e n) := by
  induction n generalizing s with
  | zero => exact .refl s
  | succ n ih =>
    unfold State.settleSlot
    have hfeed : s.feed e = s := by unfold State.feed; rw [ttrn_rings hinstr]; rfl
    rw [hfeed]
    have htags := (sameMarks_foldl (fun u tag => (u.settleRows e tag 20).settleOut e tag)
      (fun u tag => (sameMarks_settleRows hinstr u tag 19).trans (sameMarks_settleOut hinstr ..)) (s.slotSt e.key e.slot).tagsSeen s).trans
      (sameMarks_askReinject _ e)
    dsimp only
    split
    · exact (htags.trans (sameMarks_align hinstr _)).trans (ih _)
    · exact htags

end

/-- A TTRN slot, in a unit without a matrix slot. -/
structure UnitConf.Transposes (c : UnitConf) (slot : Nat) (x : TileW) (h : Hdr) : Prop where
  instr : c.slotAt slot = some (.ttrn x, h)
  unread : ∀ r, c.ringReader r = none

theorem sameMarks_settle {s : State} {key slot : Nat} {x : TileW} {h : Hdr} (hc : (s.getU key).conf.Transposes slot x h) :
    s.SameMarks (s.settle key slot) := by
  have henv : s.slotEnv key slot = some ⟨key, Loc.ofKey key, slot, (s.getU key).conf, .ttrn x, h, netFields (s.getU key).conf slot (.ttrn x) h⟩ := by
    unfold State.slotEnv
    dsimp only
    rw [hc.instr]
  unfold State.settle
  rw [henv]
  have hslot := sameMarks_settleSlot (e := ⟨key, Loc.ofKey key, slot, (s.getU key).conf, .ttrn x, h, netFields (s.getU key).conf slot (.ttrn x) h⟩)
    rfl 64 s
  dsimp only
  split
  · rw [hc.unread]
    exact hslot
  · exact hslot

/-- Taking a firing of a TTRN slot without results keeps every mark. -/
theorem sameMarks_taken {s : State} {e : SlotEnv} {x : TileW} {h : Hdr} (tag hi : Nat) (hc : (s.getU e.key).conf.Transposes e.slot x h) :
    s.SameMarks (s.taken e tag hi []) := by
  have hready : s.SameMarks ((s.takeReady e.loc e.slot tag).touch e.loc) := by
    have htake : s.SameMarks (s.takeReady e.loc e.slot tag) := by
      refine .trans ?_ (sameMarks_parked ..)
      exact sameMarks_of_units rfl
    unfold State.touch
    split
    · exact htake.trans (sameMarks_of_units rfl)
    · exact htake
  have hwake := (hready.trans (sameMarks_updSlot _ e.key e.slot fun st => { st with doneTo := amPut st.doneTo tag hi })).trans
    (sameMarks_parked _ e.key fun _ => [])
  have hsettle := hwake.trans (sameMarks_settle (x := x) (h := h) (by rw [hwake.conf]; exact hc))
  exact (hsettle.trans (sameMarks_updPad ..)).trans (sameMarks_updPad ..)

/-! ### TTRN of a marked tile -/

@[simp] theorem putPay_units (s : State) (key : Nat) (t : Tile) (p : Nat) (bs : List Byte) : (s.putPay key t p bs).units = s.units :=
  State.setTileBytes_units ..

@[simp] theorem putPay_cores (s : State) (key : Nat) (t : Tile) (p : Nat) (bs : List Byte) : (s.putPay key t p bs).cores = s.cores :=
  State.setTileBytes_cores ..

theorem foldl_keeps {α β : Type} (g : State → β) (f : State → α → State) (hf : ∀ s x, g (f s x) = g s) (l : List α) (s : State) :
    g (l.foldl f s) = g s := by
  induction l generalizing s with
  | nil => rfl
  | cons x l ih => exact (ih _).trans (hf s x)

/-- The bytes that a TTRN writes. -/
def State.transpose (s : State) (key : Nat) (x : TileW) (d : Nat) : State :=
  let w := elWidth x.ty (mdAlt x.md) / 8
  let bs := s.tileBytes key (s.tile key x.src.toNat) 0 1024
  (List.range 16).foldl (fun u n => (List.range (48 / w)).foldl (fun u k =>
    u.putPay key (s.tile key d) (bOff (s.tile key d).tb w k n) (toBytes w (elemIn bs w (aOff w n k)))) u) s

theorem transpose_units (s : State) (key : Nat) (x : TileW) (d : Nat) : (s.transpose key x d).units = s.units :=
  foldl_keeps State.units _ (fun u _ => foldl_keeps State.units _ (fun _ _ => putPay_units ..) _ u) _ s

theorem transpose_cores (s : State) (key : Nat) (x : TileW) (d : Nat) : (s.transpose key x d).cores = s.cores :=
  foldl_keeps State.cores _ (fun u _ => foldl_keeps State.cores _ (fun _ _ => putPay_cores ..) _ u) _ s

theorem setTile_cores (s : State) (key n : Nat) (t : Tile) : (s.setTile key n t).cores = s.cores := rfl

theorem completeTail_cores (s : State) (key r hi : Nat) : (s.completeTail key r hi).cores = s.cores := rfl

theorem stick_cores (s : State) (key d : Nat) (exc sat : Bool) : (s.stick key d exc sat).cores = s.cores := rfl

theorem taintTile_cores (s : State) (key n cause : Nat) : (s.taintTile key n cause).cores = s.cores := rfl

theorem openOpTile_cores (s : State) (key n lo tag : Nat) : (s.openOpTile key n lo tag).cores = s.cores := by
  unfold State.openOpTile
  dsimp only
  rw [setTile_cores, State.setTileBytes_cores]

theorem ringTail_cores {s s1 : State} {e : SlotEnv} {lo tag d : Nat} (h : s.ringTail e lo tag = some (s1, d)) : s1.cores = s.cores := by
  unfold State.ringTail at h
  split at h
  · exact nomatch h
  · dsimp only at h
    split at h
    · injection h with h; injection h with h _; subst h; exact openOpTile_cores ..
    · injection h with h; injection h with h _; subst h; rfl
    · exact nomatch h

/-- TTRN of a source whose data are marked leaves the destination's tile marked before it completes it. -/
theorem exec_ttrn_marked {s s1 : State} {e : SlotEnv} {c : Choice} {x : TileW} {r d : Nat} (h : s.Fires e c) (hw : e.writes = some r)
    (ht : s.ringTail e c.lo s.curTag = some (s1, d)) (hsrc : (s1.tile e.key x.src.toNat).err = true) :
    ∃ u : State, exec (.ttrn x) s = .next ((u.completeTail e.key r c.hi).taken e s.curTag c.hi []) ∧ (u.tile e.key d).err = true ∧
      (u.getU e.key).conf = (s1.getU e.key).conf := by
  refine ⟨((s1.transpose e.key x d).stick e.key d ((s.firing e c).out.exc || (s1.tile e.key x.src.toNat).exc)
    ((s.firing e c).out.sat || (s1.tile e.key x.src.toNat).sat)).taintTile e.key d (s1.tile e.key x.src.toNat).cause, ?_, ?_, ?_⟩
  · show execTtrn x s = _
    unfold execTtrn
    refine runSlot_done h ?_ ?_
    · have htail : s.ringTail e (s.firing e c).lo (s.firing e c).tag = some (s1, d) := ht
      dsimp only
      rw [hw, htail]
      dsimp only
      rw [if_pos hsrc]
      rfl
    · rw [completeTail_cores, taintTile_cores, stick_cores, transpose_cores, ringTail_cores ht]
  · unfold State.taintTile
    dsimp only
    rw [setTile_tile_same]
  · unfold State.taintTile State.stick
    dsimp only
    rw [setTile_conf, setTile_conf, getU_congr (transpose_units ..)]

/-- A write into an EMPTY tail opens it (R177). -/
theorem ringTail_empty {s : State} {e : SlotEnv} {lo tag r : Nat} (hw : e.writes = some r) (hst : (s.tile e.key (s.tailTile e.key r)).st = .empty) :
    s.ringTail e lo tag = some (s.openOpTile e.key (s.tailTile e.key r) lo tag, s.tailTile e.key r) := by
  simp only [State.ringTail, hw, hst]

theorem setTile_mems (s : State) (key n : Nat) (t : Tile) : (s.setTile key n t).mems = s.mems := rfl

theorem openOpTile_memWf {s : State} (key n lo tag : Nat) (h : s.memWf = true) : (s.openOpTile key n lo tag).memWf = true := by
  unfold State.openOpTile
  exact memWf_of_mems (setTile_mems ..) (memWf_storeMem .l _ _ h)

theorem openOpTile_conf (s : State) (key n lo tag : Nat) : ((s.openOpTile key n lo tag).getU key).conf = (s.getU key).conf := by
  unfold State.openOpTile
  dsimp only
  rw [setTile_conf, State.setTileBytes_getU]

theorem openOpTile_tile_same (s : State) (key n lo tag : Nat) : ((s.openOpTile key n lo tag).tile key n).err = false := by
  unfold State.openOpTile
  dsimp only
  rw [setTile_tile_same]

theorem openOpTile_tile_other (s : State) {key n m : Nat} (lo tag : Nat) (h : m ≠ n) : (s.openOpTile key n lo tag).tile key m = s.tile key m := by
  unfold State.openOpTile
  dsimp only
  rw [setTile_tile_other _ _ fun hm => h hm.2, State.setTileBytes_tile]

/-- Cell 0 with a TTRN of plain tile 12 into ring 0, whose tail, tile 8, is EMPTY; tile 12 holds data of an error-tagged source. -/
def markedSource : State :=
  Tests.slot0 (.ttrn (Tests.tileOp 12 8)) 0 Tests.plain [] fun c =>
    { Tests.tiles0 c with tiles := (Tests.tiles0 c).tiles ++ [(12, { role := .plain, base := 80, st := .ready, err := true, cause := 1 })] }

theorem markedSource_transposes : ∃ h, (markedSource.getU 0).conf.Transposes 0 (Tests.tileOp 12 8) h :=
  ⟨Hdr.ofWord 0, by decide +kernel, fun _ => rfl⟩

/-- Refutes O37: its clause on TTRN leaves the error mark of the tile that is written as it was, and TTRN marks the tile where its source is marked
(R173), as the source of `markedSource` is. -/
theorem not_tileOperationsWriteTheirTile : ¬ Obligations.TileOperationsWriteTheirTile := by
  unfold Obligations.TileOperationsWriteTheirTile
  intro h
  let e := Tests.envOf markedSource
  let c := Tests.choiceOf markedSource
  have hfires : markedSource.Fires e c := by decide +kernel
  have hw : e.writes = some 0 := by decide +kernel
  have hst : (markedSource.tile e.key (markedSource.tailTile e.key 0)).st = .empty := by decide +kernel
  have hd : markedSource.tailTile e.key 0 = 8 := by decide +kernel
  have htail := ringTail_empty (lo := c.lo) (tag := markedSource.curTag) hw hst
  rw [hd] at htail
  have hwf : (markedSource.openOpTile e.key 8 c.lo markedSource.curTag).memWf = true := openOpTile_memWf _ _ _ _ (by decide +kernel)
  obtain ⟨-, -, -, hring⟩ := h markedSource e c hfires
  obtain ⟨hops, -⟩ := hring 0 _ 8 hw htail hwf
  obtain ⟨-, hdone⟩ := hops (Tests.tileOp 12 8)
  obtain ⟨s2, hexec, -, -, -, -, -, -, hunits⟩ := hdone
  have hsrc : ((markedSource.openOpTile e.key 8 c.lo markedSource.curTag).tile e.key 12).err = true := by
    rw [openOpTile_tile_other _ _ _ (by decide)]
    decide +kernel
  obtain ⟨u, hexec', hmarked, hconf⟩ := exec_ttrn_marked (x := Tests.tileOp 12 8) hfires hw htail hsrc
  obtain ⟨hdr, hslot⟩ := markedSource_transposes
  have hkept {v : State} (hv : (v.getU e.key).conf = (markedSource.getU e.key).conf) :
      (((v.completeTail e.key 0 c.hi).taken e markedSource.curTag c.hi []).tile e.key 8).err = (v.tile e.key 8).err := by
    have hdone := sameMarks_completeTail v e.key 0 c.hi
    refine (hdone.trans (sameMarks_taken (x := Tests.tileOp 12 8) (h := hdr) _ _ ?_)).err e.key 8
    rw [hdone.conf, hv]
    exact hslot
  rw [hexec'] at hexec
  injection hexec with hsame
  have hclear : (s2.tile e.key 8).err = false := by
    rw [tile_congr hunits, setTile_tile_same]
    exact openOpTile_tile_same ..
  have hs2 : (s2.getU e.key).conf = (markedSource.getU e.key).conf := by
    rw [getU_congr hunits, setTile_conf, openOpTile_conf]
  have hu := hkept (v := u) (hconf.trans (openOpTile_conf ..))
  rw [hsame, hkept hs2, hclear, hmarked] at hu
  exact Bool.noConfusion hu

end Sys2Proof.Machine
end

section
/-!
PROOFS. The configuration cache and tile swaps (O43).
-/

namespace Sys2Proof.Machine

/-! ### Misses and fetches -/

section
variable {s : State} {cell : Nat}

/-- Past its timeout CFG_MISS names the configuration that the oldest token waits for. -/
theorem exec_cfgMiss {t : Token} {u : Loc} {slot : Nat} {f : Fld} {rest : List (Token × Dest)}
    (hmiss : (s.getCell cell).miss = (t, .field u slot f) :: rest) (hrun : (s.getPad (s.getU u.key).pad).stop = false) :
    ∃ q : FaultRec, q.code = 0x0D ∧ q.aux = (s.getU u.key).handle ∧ exec (.cfgMiss cell) s = .next (s.raise (s.getU u.key).pad q) := by
  refine ⟨{ code := 0x0D, ctx := (s.getU u.key).ctx, cell := cellSite cell, slot := 0, fld := 3, aux := (s.getU u.key).handle }, rfl, rfl, ?_⟩
  show execCfgMiss cell s = _
  unfold execCfgMiss
  rw [hmiss]
  dsimp only
  exact whileRunning_of_running _ _ hrun

theorem wanted_field {t : Token} {u : Loc} {slot : Nat} {f : Fld} {rest : List (Token × Dest)}
    (hmiss : (s.getCell cell).miss = (t, .field u slot f) :: rest) (hrun : (s.getPad (s.getU u.key).pad).stop = false) :
    s.wanted cell = some u := by
  have hstop : (s.getPad (s.padOfUnit u)).stop = false := hrun
  have hhead : (s.missed cell).head? = some u := by
    unfold State.missed
    rw [hmiss, List.filterMap_cons]
    simp only [hstop, Bool.false_eq_true, if_false, List.head?_cons]
  rw [State.wanted, hhead, Option.some_or]

theorem missed_stopped (h : ∀ x ∈ (s.getCell cell).miss, ∀ u, (∃ slot f, x.2 = .field u slot f) ∨ (∃ k, x.2 = .trigger u k) →
    (s.getPad (s.getU u.key).pad).stop = true) : s.missed cell = [] := by
  unfold State.missed
  rw [List.filterMap_eq_nil_iff]
  intro x hx
  have hstop {u : Loc} (hu : (∃ slot f, x.2 = .field u slot f) ∨ (∃ k, x.2 = .trigger u k)) : (s.getPad (s.padOfUnit u)).stop = true := h x hx u hu
  obtain ⟨t, d⟩ := x
  cases d with
  | field u slot f => simp only [hstop (.inl ⟨slot, f, rfl⟩), if_true]
  | trigger u k => simp only [hstop (.inr ⟨k, rfl⟩), if_true]
  | _ => rfl

theorem exec_configFetchDone_idle (hw : s.wanted cell = none) : exec (.configFetchDone cell) s = .next s := by
  show execConfigFetchDone cell s = _
  unfold execConfigFetchDone
  rw [hw]

theorem exec_configFetchDone_waits {u : Loc} (hw : s.wanted cell = some u) (hroom : State.fetchRoom cell u.key 5 s = none) :
    exec (.configFetchDone cell) s = .next (s.post (.configFetchDone cell)) := by
  show execConfigFetchDone cell s = _
  unfold execConfigFetchDone
  rw [hw]
  dsimp only
  rw [hroom]

/-- Whether a token of a miss buffer waits for a configuration. -/
def waitsFor (u : Loc) (x : Token × Dest) : Bool := match x.2 with
  | .field y _ _ | .trigger y _ => y == u
  | _ => false

/-- The configuration stands in its entry, and its tokens have left the miss buffer, in order, ahead of all other events. -/
def State.fetched (s : State) (cell : Nat) (u : Loc) : State :=
  let s := (s.swapIn u.key ((s.freeEntry cell).getD 0)).touch u
  let go := ((s.getCell cell).miss.filter (waitsFor u)).filterMap fun x => arrivalAt x.2 x.1
  { s.setCell cell { s.getCell cell with miss := (s.getCell cell).miss.filter fun x => !waitsFor u x } with
    events := (go.map fun i => Event.mk i {}) ++ s.events }

theorem exec_configFetchDone {u : Loc} {s1 : State} (hw : s.wanted cell = some u) (hroom : State.fetchRoom cell u.key 5 s = some s1) :
    let s4 := (((s1.fetched cell u).wake u.key).settleUnit u.key).post (.handlerSelect cell)
    exec (.configFetchDone cell) s = .next (if s4.missed cell = [] then s4 else s4.post (.configFetchDone cell)) := by
  intro s4
  show execConfigFetchDone cell s = _
  unfold execConfigFetchDone
  rw [hw]
  dsimp only
  rw [hroom]
  simp only [← List.isEmpty_iff]
  rfl

end

/-! ### Tile swaps -/

section
variable {s : State} {i n tile : Nat}

theorem ofKey_key_cell (hi : i < 384) (n : Nat) : Loc.ofKey (Loc.cell i n).key = .cell i n := by
  unfold Loc.ofKey Loc.key
  rw [if_pos (Nat.mul_mod_right 2 _), Nat.mul_div_cancel_left _ (by decide)]
  congr 1 <;> omega

theorem idxOf_key_cell (hi : i < 384) (n : Nat) : idxOf (Loc.cell i n).key = i := congrArg Loc.idx (ofKey_key_cell hi n)

theorem wake_wake (s : State) (k : Nat) : (s.wake k).wake k = s.wake k := by
  unfold State.wake State.updU State.setU
  simp only [amPut_amPut]
  congr 2
  exact congrArg (fun u : UnitSt => { u with parked := [] }) (State.setU_getU_same ..)

/-- A tile that is on its way out goes EMPTY, with its bytes kept. -/
def State.sentOut (s : State) (key tile : Nat) (bs : List Byte) : State :=
  s.setTile key tile { s.tile key tile with st := .empty, swapped := some bs }

theorem exec_tileSwapDone_in {bs : List Byte} (hst : (s.tile (Loc.cell i n).key tile).st = .filling)
    (hsw : (s.tile (Loc.cell i n).key tile).swapped = some bs) (hrun : (s.getPad (s.getU (Loc.cell i n).key).pad).stop = false) :
    exec (.tileSwapDone (.cell i n) tile) s =
      let t := s.tile (Loc.cell i n).key tile
      let s1 := match (s.getU (Loc.cell i n).key).slotNo with
        | some _ => s.storeMem .l (tileAddr i t) bs
        | none => s.updU (Loc.cell i n).key fun x => { x with saved := x.saved.filter (fun (y : Nat × List Byte) => y.1 != tile) ++ [(tile, bs)] }
      .next ((s1.setTile (Loc.cell i n).key tile { t with st := .ready, swapped := none }).wake (Loc.cell i n).key) := by
  show execTileSwapDone (.cell i n) tile s = _
  unfold execTileSwapDone
  dsimp only
  rw [hst, hsw]
  dsimp only
  rw [whileRunning_of_running _ _ hrun]
  cases (s.getU (Loc.cell i n).key).slotNo <;> rfl

/-- The bytes and the state of a read of a tile's lines: the tile is tainted where a line cannot be read (R372). -/
def State.copied (s : State) (key n : Nat) : State × List Byte × Option Nat → State × List Byte
  | (s1, bs, some k) =>
    let t := s.tile key n
    ((s1.updU key fun u => { u with tiles := amPut u.tiles n { t with err := true, cause := if t.err then t.cause else k } }).report
      { cause := k, pad := (s1.getU key).pad, cell := some (idxOf key), site := some (cellSite (idxOf key)), commitScope := true }, bs)
  | (s1, bs, none) => (s1, bs)

/-- The kernel must not evaluate the read, so the definition is opened as a function, ahead of its arguments. -/
theorem copyTileOut_of_read {key : Nat} {q : State × List Byte × Option Nat}
    (hread : s.checkedRead .l (tileAddr (idxOf key) (s.tile key tile)) (s.tile key tile).size = q) : s.copyTileOut key tile = s.copied key tile q := by
  obtain ⟨copy, hcopy⟩ : ∃ copy, copy = @State.copyTileOut := ⟨_, rfl⟩
  rw [← hcopy]
  delta State.copyTileOut at hcopy
  rw [hcopy]
  beta_reduce
  extract_lets t
  generalize s.checkedRead .l (tileAddr (idxOf key) t) t.size = q' at hread
  subst hread
  obtain ⟨s1, bs, _ | k⟩ := q' <;> rfl

theorem copied_fails_tile (s : State) (key : Nat) (s1 : State) (bs : List Byte) (k : Nat) :
    ((s.copied key tile (s1, bs, some k)).1.tile key tile).err = true := by
  unfold State.copied
  refine .trans (congrArg Tile.err (tile_congr (State.report_units ..))) ?_
  simp only [State.tile, UnitSt.tile, updU_getU_same, amGet_amPut_same]

theorem exec_tileSwapDone_out {q : State × List Byte} (hst : (s.tile (Loc.cell i n).key tile).st = .draining)
    (hsw : (s.tile (Loc.cell i n).key tile).swapped = none) (hslot : (s.getU (Loc.cell i n).key).slotNo ≠ none)
    (hcopy : s.copyTileOut (Loc.cell i n).key tile = q) :
    exec (.tileSwapDone (.cell i n) tile) s = .next ((q.1.sentOut (Loc.cell i n).key tile q.2).wake (Loc.cell i n).key) := by
  have hslot : (s.getU (Loc.cell i n).key).slotNo.isNone = false := by simpa [Option.isSome_iff_ne_none] using hslot
  show execTileSwapDone (.cell i n) tile s = _
  unfold execTileSwapDone
  dsimp only
  rw [hst, hsw, hslot]
  simp only [Bool.false_eq_true, if_false, hcopy, State.sentOut, State.setTile, wake_wake]

theorem askSwapIn_asks {key slot : Nat} {bs : List Byte} (hneeds : (s.getU key).conf.needsTile slot = some tile) (hst : (s.tile key tile).st = .empty)
    (hsw : (s.tile key tile).swapped = some bs) : s.askSwapIn key slot = if (s.getPad (s.getU key).pad).stop then s else
      (s.updU key fun x => { x with tiles := amPut x.tiles tile { s.tile key tile with st := .filling } }).post (.tileSwapDone (Loc.ofKey key) tile) := by
  have hasks : ((s.tile key tile).swapped.isSome && (s.tile key tile).st == .empty && !(s.getPad (s.getU key).pad).stop) =
      !(s.getPad (s.getU key).pad).stop := by rw [hst, hsw]; rfl
  unfold State.askSwapIn
  rw [hneeds]
  refine .trans (if_congr (Bool.eq_iff_iff.1 hasks) rfl rfl) ?_
  cases (s.getPad (s.getU key).pad).stop <;> rfl

end

/-- Settles O43: the fetch by what its cell waits for and whether there is room, a swap by the state of its tile. -/
theorem configurationsAndTilesAreSwapped : Obligations.ConfigurationsAndTilesAreSwapped := by
  unfold Obligations.ConfigurationsAndTilesAreSwapped
  refine ⟨?_, ?_, ?_⟩
  · intro s cell t u slot f rest hmiss hrun
    have hw := wanted_field hmiss hrun
    refine ⟨exec_cfgMiss hmiss hrun, exec_configFetchDone_waits hw, fun s1 hroom => ?_⟩
    exact ⟨s1.fetched cell u, rfl, State.setCell_getCell_same .. ▸ rfl, rfl, exec_configFetchDone hw hroom⟩
  · intro s cell hstop hwants
    refine exec_configFetchDone_idle ?_
    rw [State.wanted, missed_stopped hstop, hwants]
    rfl
  · intro s i n tile u t
    refine ⟨fun hst hsw hi s1 bs c hread ⟨_, hslot⟩ => ?_, fun slot bs hi hneeds hst hsw hstop => ?_, fun slot bs hi hneeds hst hsw hrun => ?_,
      fun bs hst hsw hrun => exec_tileSwapDone_in hst hsw hrun⟩
    · have hread' : s.checkedRead .l (tileAddr (idxOf u.key) t) t.size = (s1, bs, c) := by rw [idxOf_key_cell hi]; exact hread
      have hout := exec_tileSwapDone_out hst hsw hslot (copyTileOut_of_read hread')
      refine ⟨?_, fun hc => ?_⟩
      · rintro rfl
        exact hout
      · obtain ⟨k, rfl⟩ := Option.ne_none_iff_exists'.1 hc
        refine ⟨_, hout, ?_⟩
        rw [wake_tile, State.sentOut, setTile_tile_same]
        exact ⟨rfl, rfl, copied_fails_tile ..⟩
    · rw [askSwapIn_asks hneeds hst hsw, if_pos hstop]
    · rw [askSwapIn_asks hneeds hst hsw, if_neg (by rw [hrun]; decide), ofKey_key_cell hi]

end Sys2Proof.Machine
end

section
/-!
PROOFS. TEAR's placement: batches, copies, records (O38).
-/

namespace Sys2Proof.Machine

/-! ### Placed copies -/

section
variable (x : TearSt) (id k j rank : Nat) (row : Token) (w : Word)

/-- What a copy puts out in slot i of batch b at destination j. -/
def copyOut (j b i : Nat) (row : Token) : Nat × HeldOut :=
  (2 + j, { tok := { row with lo := 16 * b + i, hi := 16 * b + i + 1, close := false, commit := false }, basis := 16 * b + i + 1 })

theorem TearSt.place_outs : (x.place id k j rank row w).2 = [copyOut j (x.batch.getD 0) (x.usedAt j) row] := rfl

@[simp] theorem TearSt.place_held : (x.place id k j rank row w).1.held = x.held := rfl

@[simp] theorem TearSt.place_batch : (x.place id k j rank row w).1.batch = x.batch := rfl

theorem TearSt.place_recs : (x.place id k j rank row w).1.recs =
    (x.note id k (.placed j (16 * x.batch.getD 0 + x.usedAt j) rank w)).recs := rfl

theorem TearSt.place_usedAt (d : Nat) : (x.place id k j rank row w).1.usedAt d = x.usedAt d + if d = j then 1 else 0 := by
  show amGet (amUpd x.used j 0 (· + 1)) d 0 = amGet x.used d 0 + _
  unfold amUpd
  by_cases h : d = j
  · subst h; rw [amGet_amPut_same, if_pos rfl]
  · rw [amGet_amPut_other _ _ _ _ _ h, if_neg h, Nat.add_zero]

end

/-- One held copy takes its slot in the batch that opens. -/
def placeHeld (j : Nat) (acc : TearSt × TearOuts) (c : HeldCopy) : TearSt × TearOuts :=
  ((acc.1.place c.id c.k j c.k c.tok c.weight).1, acc.2 ++ (acc.1.place c.id c.k j c.k c.tok c.weight).2)

theorem placeHeld_foldl (j : Nat) (l : List HeldCopy) : ∀ (x : TearSt) (outs : TearOuts),
    let t := l.foldl (placeHeld j) (x, outs)
    t.1.held = x.held ∧ t.1.usedAt j = x.usedAt j + l.length ∧
      t.2 = outs ++ l.mapIdx fun i c => copyOut j (x.batch.getD 0) (x.usedAt j + i) c.tok := by
  induction l with
  | nil => intro x outs; simp
  | cons c l ih =>
    intro x outs
    obtain ⟨hheld, hused, houts⟩ := ih (x.place c.id c.k j c.k c.tok c.weight).1 (outs ++ (x.place c.id c.k j c.k c.tok c.weight).2)
    refine ⟨hheld, ?_, ?_⟩
    · rw [List.foldl_cons, placeHeld, hused, TearSt.place_usedAt, if_pos rfl, List.length_cons]; omega
    · rw [List.foldl_cons, placeHeld, houts, TearSt.place_usedAt, if_pos rfl, TearSt.place_batch, List.mapIdx_cons, List.append_assoc, TearSt.place_outs]
      simp only [Nat.add_assoc, Nat.add_comm 1, List.singleton_append, Nat.add_zero]

/-! ### The end of a batch at one destination -/

/-- The pad rows of a destination (R249). -/
def tearPads (p : TearParam) (tag ctx j : Nat) (x : TearSt) : TearOuts :=
  if p.pad then
    (List.range (nthD p.cap j 0 - x.usedAt j)).map fun i =>
      let lo := 16 * x.batch.getD 0 + x.usedAt j + i
      (2 + j, { tok := Token.sealed { lo := lo, hi := lo + 1, tag := tag, ctx := ctx }, basis := lo + 1 })
  else []

/-- The next batch at a destination, before its held copies are placed. -/
def TearSt.nextBatchAt (x : TearSt) (p : TearParam) (j : Nat) : TearSt :=
  { x with used := amPut x.used j 0, held := amPut x.held j ((x.heldAt j).drop (nthD p.cap j 0)), batch := some (x.batch.getD 0 + 1) }

theorem tearEndAt_eq (p : TearParam) (tag ctx : Nat) (x : TearSt) (outs : TearOuts) (j : Nat) : tearEndAt p tag ctx (x, outs) j =
    let t := ((x.heldAt j).take (nthD p.cap j 0)).foldl (placeHeld j) (x.nextBatchAt p j, [])
    ({ t.1 with batch := some (x.batch.getD 0) }, outs ++ tearPads p tag ctx j x ++ t.2) := rfl

theorem tearPads_length (p : TearParam) (tag ctx j : Nat) (x : TearSt) :
    (tearPads p tag ctx j x).length = if p.pad = true then nthD p.cap j 0 - x.usedAt j else 0 := by
  unfold tearPads
  split <;> simp

theorem tearPads_getElem? {p : TearParam} {tag ctx j : Nat} {x : TearSt} {i : Nat} {o : Nat × HeldOut} (h : (tearPads p tag ctx j x)[i]? = some o) :
    o.1 = 2 + j ∧ o.2.tok.lo = 16 * x.batch.getD 0 + x.usedAt j + i ∧ o.2.tok.hi = o.2.tok.lo + 1 ∧ o.2.tok.valid = 0 ∧ o.2.tok.payload = 0 ∧
      o.2.tok.tag = tag ∧ o.2.tok.close = false := by
  unfold tearPads at h
  split at h
  next =>
    rw [List.getElem?_map, Option.map_eq_some_iff] at h
    obtain ⟨a, ha, rfl⟩ := h
    obtain ⟨-, rfl⟩ := List.getElem?_eq_some_iff.1 ha
    rw [List.getElem_range]
    exact ⟨rfl, rfl, rfl, rfl, rfl, rfl, rfl⟩
  next => simp at h

theorem tearEndAt_spec (p : TearParam) (tag ctx : Nat) (x : TearSt) (outs : TearOuts) (j : Nat) :
    let cap := nthD p.cap j 0
    let t := tearEndAt p tag ctx (x, outs) j
    t.1.heldAt j = (x.heldAt j).drop cap ∧ t.1.usedAt j = min cap (x.heldAt j).length ∧
      t.2 = outs ++ tearPads p tag ctx j x ++ ((x.heldAt j).take cap).mapIdx (fun i c => copyOut j (x.batch.getD 0 + 1) i c.tok) := by
  intro cap t
  obtain ⟨hheld, hused, houts⟩ := placeHeld_foldl j ((x.heldAt j).take cap) (x.nextBatchAt p j) []
  have hfresh : (x.nextBatchAt p j).usedAt j = 0 := amGet_amPut_same ..
  rw [hfresh, Nat.zero_add] at hused
  rw [hfresh] at houts
  simp only [Nat.zero_add, List.nil_append] at houts
  refine ⟨?_, ?_, ?_⟩
  · exact .trans (congrArg (amGet · j []) hheld) (amGet_amPut_same ..)
  · exact hused.trans (List.length_take ..)
  · exact congrArg (outs ++ tearPads p tag ctx j x ++ ·) houts

/-! ### Copies of a row span one -/

/-- Every copy among the outputs spans one and keeps its stream open (R246); stream 0 is of the records. -/
def SpanOne (outs : TearOuts) : Prop := ∀ o ∈ outs, o.1 ≠ 0 → o.2.tok.hi = o.2.tok.lo + 1 ∧ o.2.tok.close = false

theorem spanOne_nil : SpanOne [] := fun _ h => nomatch h

theorem SpanOne.append {a b : TearOuts} (ha : SpanOne a) (hb : SpanOne b) : SpanOne (a ++ b) :=
  fun o ho => (List.mem_append.1 ho).elim (ha o) (hb o)

theorem TearSt.place_spanOne (x : TearSt) (id k j rank : Nat) (row : Token) (w : Word) : SpanOne (x.place id k j rank row w).2 := by
  rw [TearSt.place_outs]
  rintro o ho -
  rw [List.mem_singleton.1 ho]
  exact ⟨rfl, rfl⟩

theorem tearPads_spanOne (p : TearParam) (tag ctx j : Nat) (x : TearSt) : SpanOne (tearPads p tag ctx j x) := by
  rintro o ho -
  obtain ⟨i, hi⟩ := List.mem_iff_getElem?.1 ho
  obtain ⟨-, -, hhi, -, -, -, hclose⟩ := tearPads_getElem? hi
  exact ⟨hhi, hclose⟩

theorem tearEndAt_spanOne {p : TearParam} {tag ctx : Nat} {acc : TearSt × TearOuts} (j : Nat) (h : SpanOne acc.2) :
    SpanOne (tearEndAt p tag ctx acc j).2 := by
  obtain ⟨x, outs⟩ := acc
  obtain ⟨-, -, houts⟩ := tearEndAt_spec p tag ctx x outs j
  rw [houts]
  refine (h.append (tearPads_spanOne _ _ _ _ _)).append ?_
  rintro o ho -
  obtain ⟨i, hi, rfl⟩ := List.mem_mapIdx.1 ho
  exact ⟨rfl, rfl⟩

theorem tearEnd_spanOne (p : TearParam) (tag ctx : Nat) (x : TearSt) : SpanOne (tearEnd p tag ctx x).2 :=
  List.foldlRecOn (motive := fun acc => SpanOne acc.2) (List.range p.d) (tearEndAt p tag ctx) spanOne_nil fun _ h j _ => tearEndAt_spanOne j h

theorem tearUntil_spanOne (p : TearParam) (tag ctx b : Nat) : ∀ (n : Nat) (x : TearSt), SpanOne (tearUntil p tag ctx b n x).2 := by
  intro n
  induction n with
  | zero => exact fun _ => spanOne_nil
  | succ n ih =>
    intro x
    unfold tearUntil
    split
    next => exact spanOne_nil
    next cur _ =>
      by_cases hcur : b ≤ cur
      · rw [if_pos hcur]; exact spanOne_nil
      · rw [if_neg hcur]
        cases x.begun
        · exact spanOne_nil
        · exact (tearEnd_spanOne _ _ _ _).append (ih _)

/-! ### One copy of a row -/

/-- A copy goes to its slot at the destination of rank m. -/
def tearGo (row r : Token) (id k : Nat) (x : TearSt) (outs : TearOuts) (drops m : Nat) : TearSt × TearOuts × Nat :=
  let y := x.place id k (laneAt r.payload m) m row (BitVec.ofNat 32 (laneAt r.payload (4 + m)))
  (y.1, outs ++ y.2, drops)

/-- A further rank that may take a copy under the policy SUBSTITUTE (R248). -/
def tearMayTake (p : TearParam) (r : Token) (copies : List CopySt) (x : TearSt) (m : Nat) : Bool :=
  p.k ≤ m && tearUsable p r copies m && decide (x.usedAt (laneAt r.payload m) < nthD p.cap (laneAt r.payload m) 0)

theorem tearUsable_iff (p : TearParam) (r : Token) (copies : List CopySt) (m : Nat) : tearUsable p r copies m = true ↔
    r.valid.getLsbD m = true ∧ r.valid.getLsbD (4 + m) = true ∧ laneAt r.payload m < p.d ∧
      ∀ c ∈ copies, c ≠ .held (laneAt r.payload m) ∧ ∀ lo n w, c ≠ .placed (laneAt r.payload m) lo n w := by
  simp only [tearUsable, Bool.and_eq_true, decide_eq_true_eq, List.all_eq_true, and_assoc]
  refine and_congr_right fun _ => and_congr_right fun _ => and_congr_right fun _ => forall₂_congr fun c _ => ?_
  cases c with
  | placed d lo n w => simpa using ⟨fun h _ _ _ hd => absurd hd h, fun h hd => h _ _ _ hd rfl rfl rfl⟩
  | _ => simp

section
variable {p : TearParam} {row r : Token} {id k : Nat} {x : TearSt} {outs : TearOuts} {drops : Nat} {y : TearRec}
  (hrec : (x.recs.find? fun z => z.id == id) = some y)
include hrec

theorem tearCopy_unusable (h : tearUsable p r y.copies k = false) : tearCopy p row r id (x, outs, drops) k = (x, outs, drops) := by
  simp only [tearCopy, hrec, h, Bool.not_false, if_true]

variable (husable : tearUsable p r y.copies k = true)
include husable

theorem tearCopy_room (hroom : x.usedAt (laneAt r.payload k) < nthD p.cap (laneAt r.payload k) 0) :
    tearCopy p row r id (x, outs, drops) k = tearGo row r id k x outs drops k := by
  simp only [tearCopy, hrec, husable, hroom, Bool.not_true, Bool.false_eq_true, if_false, decide_true, if_true, tearGo]

variable (hfull : ¬ x.usedAt (laneAt r.payload k) < nthD p.cap (laneAt r.payload k) 0)
include hfull

theorem tearCopy_holds (hpol : p.policy = 1) (hheld : (x.heldAt (laneAt r.payload k)).length < 16) :
    tearCopy p row r id (x, outs, drops) k =
      (({ x with held := amUpd x.held (laneAt r.payload k) [] (· ++ [HeldCopy.mk id k row (BitVec.ofNat 32 (laneAt r.payload (4 + k)))]) } : TearSt).note
        id k (.held (laneAt r.payload k)), outs, drops) := by
  simp [tearCopy, hrec, husable, hfull, hpol, hheld]

theorem tearCopy_other (hholds : ¬ (p.policy = 1 ∧ (x.heldAt (laneAt r.payload k)).length < 16)) :
    tearCopy p row r id (x, outs, drops) k =
      match if p.policy = 2 then (List.range 4).find? (tearMayTake p r y.copies x) else none with
      | some m => tearGo row r id k x outs drops m
      | none => (x.note id k .dropped, outs, drops + 1) := by
  have hholds : ((p.policy == 1) && decide ((x.heldAt (laneAt r.payload k)).length < 16)) = false := by simpa using hholds
  simp only [tearCopy, hrec, husable, hfull, hholds, Bool.not_true, Bool.false_eq_true, if_false, decide_false, beq_iff_eq]
  rfl

end

theorem tearGo_spanOne {row r : Token} {id k m drops : Nat} {x : TearSt} {outs : TearOuts} (h : SpanOne outs) :
    SpanOne (tearGo row r id k x outs drops m).2.1 := h.append (TearSt.place_spanOne _ _ _ _ _ _ _)

theorem tearCopy_spanOne (p : TearParam) (row r : Token) (id k : Nat) {acc : TearSt × TearOuts × Nat} (h : SpanOne acc.2.1) :
    SpanOne (tearCopy p row r id acc k).2.1 := by
  obtain ⟨x, outs, drops⟩ := acc
  unfold tearCopy
  dsimp only
  split
  all_goals
    split
    · exact h
    · split
      · exact tearGo_spanOne h
      · split
        · exact h
        · split
          · exact tearGo_spanOne h
          · exact h

/-! ### Rows -/

/-- The row's record waits in the open batch, with no copy placed yet. -/
def TearSt.opened (x : TearSt) (out : Token) : TearSt :=
  { x with got := true, nextId := x.nextId + 1, recs := x.recs ++ [TearRec.mk x.nextId out (List.replicate 4 .none)] }

/-- A row of the open batch: its copies are placed, and the records that are complete leave. -/
def tearOpenRow (p : TearParam) (row r out : Token) (x : TearSt) : TearSt × TearOuts × Nat :=
  let y := (List.range p.k).foldl (tearCopy p row r x.nextId) (x.opened out, [], 0)
  ((tearRecords y.1).1, y.2.1 ++ (tearRecords y.1).2, y.2.2)

theorem tearRow_eq (p : TearParam) (ctx : Nat) (x : TearSt) (row r out : Token) : tearRow p ctx x row r out =
    let u := tearUntil p out.tag ctx (out.lo / p.w) (out.lo / p.w - x.batch.getD 0 + 1) x
    let t := tearOpenRow p row r out u.1
    (t.1, u.2 ++ t.2.1, t.2.2) := by
  simp only [tearRow, tearPlaced, tearOpenRow, TearSt.opened, List.append_assoc]

theorem tearRow_spanOne (p : TearParam) (ctx : Nat) (x : TearSt) (row r out : Token) : SpanOne (tearRow p ctx x row r out).2.1 := by
  rw [tearRow_eq]
  refine (tearUntil_spanOne _ _ _ _ _ _).append (.append ?_ ?_)
  · exact List.foldlRecOn (motive := fun acc : TearSt × TearOuts × Nat => SpanOne acc.2.1) _ _ spanOne_nil fun _ h k _ => tearCopy_spanOne _ _ _ _ k h
  · intro o ho hstream
    obtain ⟨z, -, rfl⟩ := List.mem_map.1 ho
    exact absurd rfl hstream

section
variable {p : TearParam} {tag ctx b cur n : Nat} {x : TearSt}

theorem tearUntil_open (h : x.batch = none ∨ x.batch = some b) : tearUntil p tag ctx b (n + 1) x = ({ x with batch := some b }, []) := by
  unfold tearUntil
  rcases h with h | h
  · rw [h]
  · obtain ⟨⟩ := x
    cases h
    exact if_pos (Nat.le_refl b)

theorem tearUntil_skips (h : x.batch = some cur) (hlt : cur < b) (hbegun : x.begun = false) :
    tearUntil p tag ctx b (n + 1) x = ({ x with batch := some b }, []) := by
  unfold tearUntil
  rw [h]
  dsimp only
  rw [if_neg (Nat.not_le.2 hlt), hbegun]
  rfl

theorem tearUntil_ends (h : x.batch = some cur) (hlt : cur < b) (hbegun : x.begun = true) : tearUntil p tag ctx b (n + 1) x =
    let u := tearUntil p tag ctx b n (tearEnd p tag ctx x).1
    (u.1, (tearEnd p tag ctx x).2 ++ u.2) := by
  conv_lhs => unfold tearUntil
  rw [h]
  dsimp only
  rw [if_neg (Nat.not_le.2 hlt), hbegun]
  rfl

end

section
variable (p : TearParam) (ctx : Nat) {x : TearSt} (row r : Token) {out : Token}

/-- A row of the open batch, or the first one. -/
theorem tearRow_open (h : x.batch = none ∨ x.batch = some (out.lo / p.w)) :
    tearRow p ctx x row r out = tearOpenRow p row r out { x with batch := some (out.lo / p.w) } := by
  rw [tearRow_eq, tearUntil_open h]
  rfl

theorem tearRow_skips {b : Nat} (h : x.batch = some b) (hlt : b < out.lo / p.w) (hbegun : x.begun = false) :
    tearRow p ctx x row r out = tearRow p ctx { x with batch := some (out.lo / p.w) } row r out := by
  rw [tearRow_eq, tearUntil_skips h hlt hbegun, tearRow_open p ctx row r (x := { x with batch := _ }) (.inr rfl)]
  rfl

theorem tearRow_ends {b : Nat} (h : x.batch = some b) (hlt : b < out.lo / p.w) (hbegun : x.begun = true) :
    tearRow p ctx x row r out =
      let t := tearRow p ctx (tearEnd p out.tag ctx x).1 row r out
      (t.1, (tearEnd p out.tag ctx x).2 ++ t.2.1, t.2.2) := by
  have hfuel : out.lo / p.w - (tearEnd p out.tag ctx x).1.batch.getD 0 + 1 = out.lo / p.w - x.batch.getD 0 := by
    show out.lo / p.w - (x.batch.getD 0 + 1) + 1 = _
    rw [h, Option.getD_some]
    omega
  rw [tearRow_eq, tearUntil_ends h hlt hbegun, tearRow_eq, hfuel]
  dsimp only
  rw [List.append_assoc]

end

theorem waits_eq : CopySt.waits = fun c => match c with
    | .held _ => true
    | _ => false := by
  funext c
  cases c <;> rfl

/-! ### Records -/

/-- What the record of a row names of a copy in lane i (R250): destination, weight, and the two halves of its place. -/
def CopySt.recordLane (i : Nat) : CopySt → Option Nat
  | .placed d lo _ w => some (if i < 4 then d else if i < 8 then w.toNat else if i % 2 = 0 then lo % 2 ^ 32 else lo / 2 ^ 32)
  | _ => Option.none

/-- The copy that lane i of a record is of. -/
def copyOfLane (i : Nat) : Nat := if i < 4 then i else if i < 8 then i - 4 else (i - 8) / 2

theorem tearRecord_eq (z : TearRec) : tearRecord z =
    Token.sealed
      { z.tok with
        payload := packEls 32 (((List.range 16).map fun i => (nthD z.copies (copyOfLane i) .none).recordLane i).map fun l => l.getD 0)
        valid := maskOf fun i => (nthD ((List.range 16).map fun i => (nthD z.copies (copyOfLane i) .none).recordLane i) i none).isSome
        reset := 0 } := by
  unfold tearRecord
  extract_lets lanes
  have hlanes : lanes = (List.range 16).map fun i => (nthD z.copies (copyOfLane i) .none).recordLane i := by
    refine List.map_congr_left fun i _ => ?_
    unfold copyOfLane
    by_cases h4 : i < 4
    · simp only [h4, if_true]
      cases nthD z.copies i .none <;> simp [CopySt.recordLane, h4]
    · by_cases h8 : i < 8
      · simp only [h4, h8, if_true, if_false]
        cases nthD z.copies (i - 4) .none <;> simp [CopySt.recordLane, h4, h8]
      · simp only [h4, h8, if_false]
        cases nthD z.copies ((i - 8) / 2) .none <;> simp [CopySt.recordLane, h4, h8]
  rw [hlanes]

theorem tearRecord_valid (z : TearRec) {i : Nat} (hi : i < 16) :
    (tearRecord z).valid.getLsbD i = ((nthD z.copies (copyOfLane i) .none).recordLane i).isSome := by
  rw [tearRecord_eq]
  refine .trans (maskOf_getLsbD _ _ hi) ?_
  rw [nthD_range_map _ hi]

theorem tearRecord_lane (z : TearRec) {i : Nat} (hi : i < 16) :
    laneAt (tearRecord z).payload i = ((nthD z.copies (copyOfLane i) .none).recordLane i).getD 0 % 2 ^ 32 := by
  rw [tearRecord_eq]
  refine .trans (elAt_packEls_nthD (by simp) i) ?_
  rw [List.map_map, nthD_range_map _ hi]
  rfl

/-- The lanes of copy k, and nothing else, speak of it. -/
theorem copyOfLane_of_mem {k i : Nat} (hk : k < 4) (hi : i ∈ [k, 4 + k, 8 + 2 * k, 9 + 2 * k]) : i < 16 ∧ copyOfLane i = k := by
  simp only [List.mem_cons, List.not_mem_nil, or_false] at hi
  unfold copyOfLane
  split_ifs <;> omega

theorem recordLane_isSome {c : CopySt} (i : Nat) : (c.recordLane i).isSome = true ↔ ∃ d lo n w, c = .placed d lo n w := by
  cases c <;> simp [CopySt.recordLane]

theorem tearRecord_placed {z : TearRec} {k d lo n : Nat} {w : Word} (hk : k < 4) (h : nthD z.copies k .none = .placed d lo n w) :
    (∀ i ∈ [k, 4 + k, 8 + 2 * k, 9 + 2 * k], (tearRecord z).valid.getLsbD i = true) ∧ laneAt (tearRecord z).payload k = d % 2 ^ 32 ∧
      laneAt (tearRecord z).payload (4 + k) = w.toNat ∧ (lo < 2 ^ 40 → q40 (tearRecord z).payload (8 + 2 * k) = lo) := by
  have hlane {i : Nat} (hi : i ∈ [k, 4 + k, 8 + 2 * k, 9 + 2 * k]) :
      laneAt (tearRecord z).payload i = ((CopySt.placed d lo n w).recordLane i).getD 0 % 2 ^ 32 := by
    obtain ⟨h16, hcopy⟩ := copyOfLane_of_mem hk hi
    rw [tearRecord_lane z h16, hcopy, h]
  refine ⟨fun i hi => ?_, ?_, ?_, fun hlo => ?_⟩
  · obtain ⟨h16, hcopy⟩ := copyOfLane_of_mem hk hi
    rw [tearRecord_valid z h16, hcopy, h]
    rfl
  · rw [hlane (by simp)]
    simp [CopySt.recordLane, hk]
  · rw [hlane (by simp)]
    simpa [CopySt.recordLane, show 4 + k < 8 by omega] using w.isLt
  · have hodd : 8 + 2 * k + 1 = 9 + 2 * k := by omega
    rw [q40, hodd, hlane (by simp), hlane (by simp)]
    simp only [CopySt.recordLane, Option.getD_some, show ¬ 8 + 2 * k < 4 by omega, show ¬ 8 + 2 * k < 8 by omega, show ¬ 9 + 2 * k < 4 by omega,
      show ¬ 9 + 2 * k < 8 by omega, show (8 + 2 * k) % 2 = 0 by omega, show ¬ (9 + 2 * k) % 2 = 0 by omega, if_true, if_false]
    omega

theorem tearRecord_unplaced {z : TearRec} {k : Nat} (hk : k < 4) (h : ∀ d lo n w, nthD z.copies k .none ≠ .placed d lo n w) :
    ∀ i ∈ [k, 4 + k, 8 + 2 * k, 9 + 2 * k], (tearRecord z).valid.getLsbD i = false := by
  intro i hi
  obtain ⟨h16, hcopy⟩ := copyOfLane_of_mem hk hi
  rw [tearRecord_valid z h16, hcopy, ← Bool.not_eq_true, recordLane_isSome]
  rintro ⟨d, lo, n, w, hplaced⟩
  exact h d lo n w hplaced

end Sys2Proof.Machine
end

section
/-!
PROOFS. CARRY, and TEAR's and MUSTER's firings (O38).
-/

namespace Sys2Proof.Machine

/-! ### CARRY (R198) -/

section
variable {s : State} {e : SlotEnv} {c : Choice}

/-- What GET puts out of a carry, if the tag has one. -/
def carryRes (w : Nat) (v : Option Nat) : LaneRes :=
  { payload := packEls w [v.getD 0], valid := if v.isSome then (if w == 64 then 3 else 1) else 0 }

theorem carryRes_payload (v : Option Nat) {w : Nat} (hw : w ≤ 512) : elAt w (carryRes w v).payload 0 = v.getD 0 % 2 ^ w :=
  elAt_packEls w [v.getD 0] 0 Nat.one_pos (by simpa using hw)

theorem carryRes_valid (w : Nat) (v : Option Nat) : (carryRes w v).valid.getLsbD 0 = true ↔ v.isSome = true := by
  unfold carryRes
  cases v
  · simp
  · by_cases hw : w = 64 <;> simp [hw]

/-- The tile that CARRY works on. -/
def SlotEnv.carryTile (e : SlotEnv) : Nat := laneAt (e.conf.constTok e.hdr.kreg).payload 0 % 64

/-- What a CARRY does that need not wait. -/
def carryDone (x : EW) (e : SlotEnv) (fi : Fire) (s : State) : Eff :=
  let n := e.carryTile
  let w := elWidth x.ty false
  let t := s.tile e.key n
  match x.md.toNat % 4 with
  | 0 => .done s (fi.one (tagTainted t (fi.result e.hdr (carryRes w (s.carryOf e.key n fi.tag w)))))
  | 1 => .done (if elValid w fi.l.valid 0 then s.setCarry e.key n fi.tag w (elAt w fi.l.payload 0) else s.setCarryValid e.key n fi.tag false)
      (fi.one (fi.moved e.hdr fi.lo fi.hi))
  | _ => .done ((s.setCarryValid e.key n fi.tag false).setTile e.key n { t with err := false, cause := 0 }) (fi.one (fi.moved e.hdr fi.lo fi.hi))

theorem execCarry_eq (x : EW) (s : State) : execCarry x s = runSlot s fun e fi s =>
    if !s.sideMayGo e fi e.carryTile || (s.tile e.key e.carryTile).st != .ready then .park s else carryDone x e fi s := rfl

theorem execCarry_waits (h : s.Fires e c) (x : EW)
    (hwaits : s.sideMayGo e (s.firing e c) e.carryTile = false ∨ (s.tile e.key e.carryTile).st ≠ .ready) :
    execCarry x s = .next (s.park s.curLoc.key s.curSlot s.curTag) := by
  have hcond : (!s.sideMayGo e (s.firing e c) e.carryTile || (s.tile e.key e.carryTile).st != .ready) = true := by simpa using hwaits
  rw [execCarry_eq, runSlot_fires _ h (by rw [if_pos hcond]; exact fun _ _ h => nomatch h), if_pos hcond]

theorem execCarry_done {s' : State} {outs : List (Nat × HeldOut)} (h : s.Fires e c) {x : EW} (hgo : s.sideMayGo e (s.firing e c) e.carryTile = true)
    (hready : (s.tile e.key e.carryTile).st = .ready) (hdone : carryDone x e (s.firing e c) s = .done s' outs) (hcores : s'.cores = s.cores) :
    execCarry x s = .next (s'.taken e s.curTag c.hi outs) := by
  rw [execCarry_eq]
  refine runSlot_done h ?_ hcores
  rw [hgo, hready]
  exact hdone

end

/-! ### TEAR (R246, R248) -/

section
variable {s : State} {e : SlotEnv} {c : Choice}

/-- An intersection that is open, or that reaches into a later batch. -/
def tearCrosses (p : TearParam) (c : Choice) : Prop := c.hi = openHi ∨ c.lo / p.w ≠ (c.hi - 1) / p.w

theorem tear_check (p : TearParam) (c : Choice) : (c.hi == openHi || c.lo / p.w != (c.hi - 1) / p.w) = true ↔ tearCrosses p c := by
  simp [tearCrosses]

theorem execTear_crosses (h : s.Fires e c) (x : EW) (hcross : tearCrosses e.tearParam c) : s.FaultsAt e c 4 .l (execTear x s) :=
  runSlot_spanFault h (if_pos ((tear_check _ _).2 hcross))

theorem execTear_places (h : s.Fires e c) (x : EW) (hcross : ¬ tearCrosses e.tearParam c) {a : TearSt} {outs : TearOuts} {drops : Nat}
    (hrow : tearRow e.tearParam (s.getU e.key).ctx (amGet (s.getU e.key).tear s.curTag {}) (s.firing e c).l (s.firing e c).r
      (s.firing e c).out.sealed = (a, outs, drops)) :
    execTear x s = .next (((s.setU e.key { s.getU e.key with
        tear := amPut (s.getU e.key).tear s.curTag a
        tearSteps := amPut (s.getU e.key).tearSteps e.slot (e.tearStep e.tearParam s (amGet (s.getU e.key).tear s.curTag {}) (s.firing e c)) }).updSlot
          e.key e.slot
      fun st => { st with drops := st.drops + drops }).taken e s.curTag c.hi outs) := by
  unfold execTear
  -- the kernel must not evaluate the placement
  obtain ⟨place, hplace⟩ : ∃ place, place = tearRow := ⟨_, rfl⟩
  rw [← hplace] at hrow ⊢
  refine runSlot_done h ((if_neg fun hc => hcross ((tear_check _ _).1 hc)).trans ?_) rfl
  extract_lets u before
  rw [show place e.tearParam u.ctx before _ _ _ = (a, outs, drops) from hrow]
  rfl

end

/-! ### MUSTER (R251 to R253) -/

/-- A met copy with element j, weighted. -/
def musterSum (x : EW) (r : MusterRec) (j : Nat) : Nat :=
  (r.copies.filter fun p => elValid (elWidth x.ty false) p.2.valid j).foldl (fun acc p =>
    (fmaCodes .f32 .rne false (laneAt r.tok.payload (4 + p.1)) (musterVal (fmtOf x.ty) (elAt (elWidth x.ty false) p.2.payload j)) acc).bits) 0

theorem musterEl_bits (x : EW) (r : MusterRec) (j : Nat) : (musterEl x r.tok r.copies j).bits =
    if (r.copies.any fun p => elValid (elWidth x.ty false) p.2.valid j) = true then
      (roundEl (fmtOf x.ty) (mdRM x.md) (mdFtz x.md) (Fmt.f32.decode (musterSum x r j), false)).bits
    else 0 := by
  have hseen : (r.copies.filter fun p => elValid (elWidth x.ty false) p.2.valid j).isEmpty =
      !(r.copies.any fun p => elValid (elWidth x.ty false) p.2.valid j) := by
    rw [Bool.eq_iff_iff]
    simp
  unfold musterEl
  dsimp only
  rw [hseen]
  cases r.copies.any fun p => elValid (elWidth x.ty false) p.2.valid j <;> rfl

section
variable {x : EW} {h : Hdr} {r : MusterRec} {c : Choice}

/-- The tokens that a record's result is computed of. -/
def musterToks (r : MusterRec) (c : Choice) : List Token := c.segs.flatMap (·.2.tokens) ++ r.tok :: r.copies.map (·.2)

/-- Of good tokens, the result is that of the operation (R251). -/
theorem musterResult_good (hgood : ∀ t ∈ musterToks r c, t.err = false ∧ t.isFault = false ∧ residueBad t = false) (hnet : h.net ≠ 1) :
    let w := elWidth x.ty false
    let t := musterResult x h r c
    t.err = false ∧ t.lo = c.lo ∧ t.hi = c.hi ∧ t.tag = r.tok.tag ∧
      t.payload = packEls w (((List.range (elCount w)).map (musterEl x r.tok r.copies)).map (·.bits)) ∧
      t.valid = maskOf fun i => r.copies.any fun p => p.2.valid.getLsbD i := by
  have hin {t : Token} (ht : t ∈ (c.segs.flatMap fun y => y.2.tokens) ++ r.copies.map (·.2)) : t ∈ musterToks r c := by
    rcases List.mem_append.1 ht with ht | ht
    · exact List.mem_append_left _ ht
    · exact List.mem_append_right _ (List.mem_cons_of_mem _ ht)
  have herr : ((c.segs.flatMap fun y => y.2.tokens) ++ r.copies.map (·.2)).find? (·.err) = none :=
    List.find?_eq_none.2 fun t ht => by simp [(hgood t (hin ht)).1]
  have hres : ((c.segs.flatMap fun y => y.2.tokens) ++ r.copies.map (·.2)).any residueBad = false :=
    List.any_eq_false.2 fun t ht => by simp [(hgood t (hin ht)).2.2]
  unfold musterResult
  dsimp only
  rw [herr]
  dsimp only
  rw [hres]
  simp only [Bool.false_eq_true, if_false]
  obtain ⟨-, hpayload, hvalid, -⟩ := Fire.result_vector { tag := r.tok.tag, lo := c.lo, hi := c.hi, l := {}, r := {}, p := {}, out := _ } _ hnet
  exact ⟨rfl, rfl, rfl, rfl, hpayload, hvalid⟩

theorem faultTok_good (hgood : ∀ t ∈ musterToks r c, t.err = false ∧ t.isFault = false ∧ residueBad t = false) : r.faultTok = none := by
  have hrec : r.tok.isFault = false := (hgood r.tok (List.mem_append_right _ List.mem_cons_self)).2.1
  have hcopies : (r.copies.find? fun p => p.2.isFault) = none := by
    refine List.find?_eq_none.2 fun p hp => ?_
    have hmem : p.2 ∈ musterToks r c := List.mem_append_right _ (List.mem_cons_of_mem _ (List.mem_map_of_mem hp))
    simp [(hgood p.2 hmem).2.1]
  simp only [MusterRec.faultTok, hrec, Bool.false_eq_true, if_false, hcopies, Option.map_none]

theorem segs_noErr (hgood : ∀ t ∈ musterToks r c, t.err = false ∧ t.isFault = false ∧ residueBad t = false) :
    (c.segs.any fun y => y.2.tokens.any (·.err)) = false := by
  refine List.any_eq_false.2 fun y hy => ?_
  rw [Bool.not_eq_true, List.any_eq_false]
  intro t ht
  have hmem : t ∈ musterToks r c := List.mem_append_left _ (List.mem_flatMap.2 ⟨y, hy, ht⟩)
  simp [(hgood t hmem).1]

end

section
variable {s : State} {e : SlotEnv} {r : MusterRec} {c : Choice}

/-- Without a predicate, the firing is over the record's span, and the record is used up. -/
theorem musterFire_ungated {st : SlotSt} (hfire : e.musterFire (s.getU s.curLoc.key) s.curTag = some (r, c)) (hnets : e.nets.contains .p = false) : c.lo = r.tok.lo ∧ c.hi = r.tok.hi ∧ e.musterOver st r c.hi = true := by
  have hover : e.musterOver st r c.hi = true := by simp only [SlotEnv.musterOver, hnets, Bool.not_false, Bool.true_or]
  simp only [SlotEnv.musterFire, SlotEnv.musterChoice, hnets, Bool.false_eq_true, if_false, Option.map_some, Option.bind_eq_some_iff,
    Option.some.injEq, Prod.mk.injEq] at hfire
  obtain ⟨r', -, rfl, rfl⟩ := hfire
  exact ⟨rfl, rfl, hover⟩

/-- A record that no further firing can use leaves its table. -/
def State.mustered (s : State) (e : SlotEnv) (r : MusterRec) (c : Choice) : State :=
  if e.musterOver (s.slotSt s.curLoc.key s.curSlot) r c.hi then s.updU s.curLoc.key fun u => { u with muster := u.muster.filter (· != r) } else s

theorem mustered_cores : (s.mustered e r c).cores = s.cores := by
  unfold State.mustered
  split <;> rfl

theorem injections_unarmed (h : s.unarmed e = true) (t : State) (hcores : t.cores = s.cores) :
    ((t.injection e 5 0x06 false).1.injection e 3 0x01 false).1 = t := by
  have hbits (i : Nat) (hi : Loc.cell? e.loc = some i) : (t.coreOf i).errmask.getLsbD 3 = false ∧ (t.coreOf i).errmask.getLsbD 5 = false := by
    simp only [State.unarmed, hi, Bool.and_eq_true, Bool.not_eq_true'] at h
    obtain ⟨⟨h3, -⟩, h5⟩ := h
    rw [show t.coreOf i = s.coreOf i by rw [State.coreOf, hcores]; rfl]
    exact ⟨h3, h5⟩
  rw [injection_none 5 6 false fun i hi => (hbits i hi).2, injection_none 3 1 false fun i hi => (hbits i hi).1]

section
variable (hslot : s.slotEnv s.curLoc.key s.curSlot = some e) (hmay : s.mayFire s.curLoc.key = true)
  (hfire : e.musterFire (s.getU s.curLoc.key) s.curTag = some (r, c)) (hbreak : s.fireBreak e s.curTag c.lo = false)
  (hgood : ∀ t ∈ musterToks r c, t.err = false ∧ t.isFault = false ∧ residueBad t = false) (x : EW)
include hslot hmay hfire hbreak hgood

theorem execMuster_eq : execMuster x s =
    if e.gateOpen (s.firing e c) = false then .next ((s.mustered e r c).taken e s.curTag c.hi [])
    else
      let t := musterResult x e.hdr r c
      let s1 := if t.err && t.cause == 0x01 && !r.tok.err then (s.mustered e r c).reportAt e 0x01 false else s.mustered e r c
      .next (((s1.injection e 5 0x06 false).1.injection e 3 0x01 false).1.taken e s.curTag c.hi [(0, { tok := t, basis := c.hi })]) := by
  unfold execMuster
  simp only [hslot, hmay, hfire, hbreak, faultTok_good hgood, segs_noErr hgood, Bool.not_true, Bool.not_false, Bool.false_eq_true, if_false,
    Bool.true_and, Bool.not_eq_true']
  rfl

end

end

/-! ### The parts of the obligation -/

section
variable {s : State} {e : SlotEnv} {c : Choice}

theorem execCarry_emits {s' : State} {t : Token} (h : s.Fires e c) {x : EW} (hgo : s.sideMayGo e (s.firing e c) e.carryTile = true)
    (hready : (s.tile e.key e.carryTile).st = .ready) (hdone : carryDone x e (s.firing e c) s = .done s' ((s.firing e c).one t))
    (hcores : s'.cores = s.cores) (htag : s'.curTag = s.curTag) : execCarry x s = .next (s'.emitsTok e c t) := by
  rw [execCarry_done h hgo hready hdone hcores, State.emitsTok, htag]
  rfl

section
variable (h : s.Fires e c) {x : EW} (hgo : s.sideMayGo e (s.firing e c) e.carryTile = true) (hready : (s.tile e.key e.carryTile).st = .ready)
include h hgo hready

theorem execCarry_gets (hmd : x.md.toNat % 4 = 0) : execCarry x s = .next (s.emitsTok e c
      (tagTainted (s.tile e.key e.carryTile)
        ((s.firing e c).result e.hdr (carryRes (elWidth x.ty false) (s.carryOf e.key e.carryTile s.curTag (elWidth x.ty false)))))) :=
  execCarry_emits h hgo hready (by rw [carryDone, hmd]; rfl) rfl rfl

theorem execCarry_puts (hmd : x.md.toNat % 4 = 1) (hv : elValid (elWidth x.ty false) (s.firing e c).l.valid 0 = true) : execCarry x s = .next
    ((s.setCarry e.key e.carryTile s.curTag (elWidth x.ty false) (elAt (elWidth x.ty false) (s.firing e c).l.payload 0)).emitsTok e c
      ((s.firing e c).moved e.hdr c.lo c.hi)) :=
  execCarry_emits h hgo hready (by rw [carryDone, hmd, if_pos hv]; rfl) (State.setCarry_cores ..) (State.setCarry_curTag ..)

theorem execCarry_empties (hmd : x.md.toNat % 4 = 1) (hv : elValid (elWidth x.ty false) (s.firing e c).l.valid 0 = false) : execCarry x s = .next
    ((s.setCarryValid e.key e.carryTile s.curTag false).emitsTok e c ((s.firing e c).moved e.hdr c.lo c.hi)) :=
  execCarry_emits h hgo hready (by rw [carryDone, hmd, if_neg (by rw [hv]; decide)]; rfl) (State.setCarryValid_cores ..) (State.setCarryValid_curTag ..)

theorem execCarry_drops (hmd : 2 ≤ x.md.toNat % 4) : execCarry x s = .next
    (((s.setCarryValid e.key e.carryTile s.curTag false).setTile e.key e.carryTile { s.tile e.key e.carryTile with err := false, cause := 0 }).emitsTok e c
      ((s.firing e c).moved e.hdr c.lo c.hi)) := by
  refine execCarry_emits h hgo hready ?_ (State.setCarryValid_cores ..) (State.setCarryValid_curTag ..)
  unfold carryDone
  split
  case h_1 h0 => omega
  case h_2 h1 => omega
  case h_3 => rfl

end

end

section
variable {p : TearParam} {row r : Token} {id k : Nat} {x : TearSt} {outs : TearOuts} {drops : Nat} {y : TearRec}

/-- What a placed copy leaves, by the rank that it went to. -/
theorem tearGo_spec (m : Nat) :
    let t := tearGo row r id k x outs drops m
    let j := laneAt r.payload m
    let lo := 16 * x.batch.getD 0 + x.usedAt j
    t.2.1 = outs ++ [(2 + j, { tok := { row with lo := lo, hi := lo + 1, close := false, commit := false }, basis := lo + 1 })] ∧
      t.2.2 = drops ∧ t.1.held = x.held ∧ t.1.batch = x.batch ∧
      (t.1.recs = x.recs.map fun z => if z.id == id then
        { z with copies := z.copies.set k (.placed j lo m (BitVec.ofNat 32 (laneAt r.payload (4 + m)))) } else z) ∧
      ∀ d, t.1.usedAt d = x.usedAt d + if d = j then 1 else 0 :=
  ⟨rfl, rfl, rfl, rfl, rfl, TearSt.place_usedAt x id k _ m row _⟩

theorem tearMayTake_iff (copies : List CopySt) (m : Nat) : tearMayTake p r copies x m = true ↔
    p.k ≤ m ∧ tearUsable p r copies m = true ∧ x.usedAt (laneAt r.payload m) < nthD p.cap (laneAt r.payload m) 0 := by
  simp only [tearMayTake, Bool.and_eq_true, decide_eq_true_eq, and_assoc]

theorem find?_range_least {q : Nat → Bool} {m n : Nat} (hm : m < n) (hq : q m = true) (hleast : ∀ i, i < n → q i = true → m ≤ i) :
    (List.range n).find? q = some m := by
  rw [List.find?_range_eq_some]
  refine ⟨hq, List.mem_range.2 hm, fun i hi => ?_⟩
  by_contra hqi
  have := hleast i (by omega) (by simpa using hqi)
  omega

end

theorem elWidth_le (ty : Ty) : elWidth ty false ≤ 512 := by
  have hw := elWidth_mem ty false
  simp only [List.mem_cons, List.not_mem_nil, or_false] at hw
  omega

theorem tearRow_open_records (p : TearParam) (ctx : Nat) {x : TearSt} (row r : Token) {out : Token}
    (hbatch : x.batch = none ∨ x.batch = some (out.lo / p.w)) :
    let x1 : TearSt := { x with
      batch := some (out.lo / p.w), got := true, nextId := x.nextId + 1, recs := x.recs ++ [TearRec.mk x.nextId out (List.replicate 4 .none)] }
    let y : TearSt × TearOuts × Nat := (List.range p.k).foldl (tearCopy p row r x.nextId) (x1, [], 0)
    let done := y.1.recs.takeWhile fun z => !z.copies.any CopySt.waits
    tearRow p ctx x row r out =
      ({ y.1 with recs := y.1.recs.drop done.length }, y.2.1 ++ done.map (fun z => (0, HeldOut.mk (tearRecord z) z.tok.hi none)), y.2.2) := by
  rw [tearRow_open p ctx row r hbatch]
  rfl

/-- What becomes of one copy of a row, case by case (R248). -/
theorem tearCopy_cases (p : TearParam) (row r : Token) (id k : Nat) (x : TearSt) (outs : TearOuts) (drops : Nat) {y : TearRec}
    (hrec : (x.recs.find? fun z => z.id == id) = some y) :
    let full := ¬ x.usedAt (laneAt r.payload k) < nthD p.cap (laneAt r.payload k) 0
    let holds := p.policy = 1 ∧ (x.heldAt (laneAt r.payload k)).length < 16
    let other (m : Nat) : Prop := p.policy = 2 ∧ p.k ≤ m ∧ m < 4 ∧ tearUsable p r y.copies m = true ∧
      x.usedAt (laneAt r.payload m) < nthD p.cap (laneAt r.payload m) 0
    let t := tearCopy p row r id (x, outs, drops) k
    tearUsable p r y.copies k = true → full →
      (∀ m, other m → (∀ n, other n → m ≤ n) → t = tearGo row r id k x outs drops m) ∧
      (¬ holds → (∀ m, ¬ other m) → t = (x.note id k .dropped, outs, drops + 1)) := by
  intro full holds other t husable hfull
  have hother (m : Nat) (hm : m < 4) (hpol : p.policy = 2) : tearMayTake p r y.copies x m = true ↔ other m := by
    rw [tearMayTake_iff]
    exact ⟨fun ⟨hk, hu, hr⟩ => ⟨hpol, hk, hm, hu, hr⟩, fun ⟨_, hk, _, hu, hr⟩ => ⟨hk, hu, hr⟩⟩
  refine ⟨fun m hm hleast => ?_, fun hholds hnone => ?_⟩
  · have hpol : p.policy = 2 := hm.1
    have hm4 : m < 4 := hm.2.2.1
    have hfind : (List.range 4).find? (tearMayTake p r y.copies x) = some m :=
      find?_range_least hm4 ((hother m hm4 hpol).2 hm) fun i hi htake => hleast i ((hother i hi hpol).1 htake)
    exact (tearCopy_other hrec husable hfull fun hholds => by rw [hpol] at hholds; exact absurd hholds.1 (by decide)).trans
      (by rw [if_pos hpol, hfind])
  · refine (tearCopy_other hrec husable hfull hholds).trans ?_
    split_ifs with hpol
    · have hfind : (List.range 4).find? (tearMayTake p r y.copies x) = none :=
        List.find?_eq_none.2 fun m hm htake => hnone m ((hother m (List.mem_range.1 hm) hpol).1 htake)
      rw [hfind]
    · rfl

/-- The clauses of a record that MUSTER fires on. -/
theorem execMuster_sums {s : State} {e : SlotEnv} {r : MusterRec} {c : Choice} (hslot : s.slotEnv s.curLoc.key s.curSlot = some e)
    (hmay : s.mayFire s.curLoc.key = true) (hfire : e.musterFire (s.getU s.curLoc.key) s.curTag = some (r, c))
    (hbreak : s.fireBreak e s.curTag c.lo = false) (hgood : ∀ t ∈ musterToks r c, t.err = false ∧ t.isFault = false ∧ residueBad t = false)
    (hnet : e.hdr.net ≠ 1) (hunarmed : s.unarmed e = true) (x : EW) (hgate : e.gateOpen (s.firing e c) = true) :
    execMuster x s = .next ((s.mustered e r c).taken e s.curTag c.hi [(0, { tok := musterResult x e.hdr r c, basis := c.hi })]) := by
  obtain ⟨herr, -⟩ := musterResult_good (x := x) hgood hnet
  rw [execMuster_eq hslot hmay hfire hbreak hgood x, if_neg (by rw [hgate]; decide)]
  dsimp only
  rw [herr, Bool.false_and, Bool.false_and, if_neg (by decide), injections_unarmed hunarmed _ mustered_cores]

theorem tearRecord_keeps (z : TearRec) : let t := tearRecord z
    t.lo = z.tok.lo ∧ t.hi = z.tok.hi ∧ t.tag = z.tok.tag ∧ t.exc = z.tok.exc ∧ t.sat = z.tok.sat := by
  obtain ⟨payload, valid, hz⟩ : ∃ payload valid, tearRecord z = Token.sealed { z.tok with payload := payload, valid := valid, reset := 0 } :=
    ⟨_, _, tearRecord_eq z⟩
  rw [hz]
  exact ⟨rfl, rfl, rfl, rfl, rfl⟩

theorem tearEnd_eq (p : TearParam) (tag ctx : Nat) {x : TearSt} {b : Nat} (hb : x.batch = some b) : tearEnd p tag ctx x =
    let y := (List.range p.d).foldl (tearEndAt p tag ctx) (x, [])
    ({ y.1 with batch := some (b + 1), ended := b + 1, got := false }, y.2) := by
  unfold tearEnd
  rw [hb]
  rfl

/-- Settles O38: CARRY by its three moves, TEAR by its batches and copies, MUSTER by the record that it fires on. -/
theorem carriesTearsAndMusters : Obligations.CarriesTearsAndMusters := by
  unfold Obligations.CarriesTearsAndMusters
  refine ⟨?_, ?_, ?_, ?_, ?_, ?_, ?_, ?_⟩
  · intro s e c x h
    refine ⟨fun hgo hready => ⟨fun hmd => ?_, fun hmd hv => ?_, fun hmd hv => ?_, fun hmd => ?_⟩, execCarry_waits h x, fun hcross => ?_, fun hcross => ?_⟩
    · exact ⟨_, execCarry_gets h hgo hready hmd, carryRes_payload _ (elWidth_le _), carryRes_valid _ _⟩
    · exact execCarry_puts h hgo hready hmd hv
    · exact execCarry_empties h hgo hready hmd hv
    · exact execCarry_drops h hgo hready hmd
    · obtain ⟨q, hcode, -, -, -, hq⟩ := execTear_crosses h x hcross
      exact ⟨q, hcode, hq⟩
    · have hspan := tearRow_spanOne e.tearParam (s.getU e.key).ctx (amGet (s.getU e.key).tear s.curTag {}) (s.firing e c).l (s.firing e c).r
        (s.firing e c).out.sealed
      rcases hrow : tearRow e.tearParam (s.getU e.key).ctx (amGet (s.getU e.key).tear s.curTag {}) (s.firing e c).l (s.firing e c).r
        (s.firing e c).out.sealed with ⟨a, outs, drops⟩
      rw [hrow] at hspan
      exact ⟨a, outs, drops, rfl, execTear_places h x hcross hrow, hspan⟩
  · intro p ctx x row r out hbatch
    have hrow := tearRow_open_records p ctx row r hbatch
    rw [waits_eq] at hrow
    exact hrow
  · intro p ctx x row r out b hb hlt
    refine ⟨tearRow_skips p ctx row r hb hlt, fun hbegun => ?_⟩
    have hends := tearRow_ends p ctx row r hb hlt hbegun
    rw [tearEnd_eq p out.tag ctx hb] at hends
    exact hends
  · intro p row r id k x outs drops y hrec j weight usable room t noted places holds other
    have husable (m : Nat) : tearUsable p r y.copies m = true ↔ usable m := tearUsable_iff p r y.copies m
    have hplaces (m : Nat) (ht : t = tearGo row r id k x outs drops m) : places m := by
      show _ ∧ _
      dsimp only [noted]
      rw [ht]
      exact tearGo_spec m
    have hcases := tearCopy_cases p row r id k x outs drops hrec
    have hother (m : Nat) : other m ↔ _ := and_congr_right fun _ => and_congr_right fun _ => and_congr_right fun _ => and_congr_left' (husable m).symm
    refine ⟨fun hu => ?_, fun hu hroom => ?_, fun hu hroom hholds => ?_, fun hu hroom m hm hleast => ?_, fun hu hroom hholds hnone => ?_⟩
    · exact tearCopy_unusable hrec (Bool.not_eq_true _ ▸ mt (husable k).1 hu)
    · exact hplaces k (tearCopy_room hrec ((husable k).2 hu) hroom)
    · have ht : t = _ := tearCopy_holds hrec ((husable k).2 hu) hroom hholds.1 hholds.2
      dsimp only [noted]
      rw [ht]
      exact ⟨rfl, rfl, rfl, amGet_amPut_same .., fun d hd => amGet_amPut_other _ _ _ _ _ hd⟩
    · exact hplaces m ((hcases ((husable k).2 hu) hroom).1 m ((hother m).1 hm) fun n hn => hleast n ((hother n).2 hn))
    · have ht : t = _ := (hcases ((husable k).2 hu) hroom).2 hholds fun m hm => hnone m ((hother m).2 hm)
      dsimp only [noted]
      rw [ht]
      exact ⟨rfl, rfl, rfl, rfl⟩
  · intro p tag ctx x outs j b cap t
    obtain ⟨hheld, hused, houts⟩ := tearEndAt_spec p tag ctx x outs j
    refine ⟨hheld, hused, _, _, houts, tearPads_length .., by simp [cap], fun i o ho => ?_, fun i o c hplaced hheld => ?_⟩
    · obtain ⟨hstream, hlo, hhi, hvalid, hpayload, htag, -⟩ := tearPads_getElem? ho
      exact ⟨hstream, hlo, hhi, hvalid, hpayload, htag⟩
    · rw [List.getElem?_mapIdx, Option.map_eq_some_iff] at hplaced
      obtain ⟨c', hc', rfl⟩ := hplaced
      obtain ⟨hi, -⟩ := List.getElem?_eq_some_iff.1 hc'
      rw [List.getElem?_take_of_lt (by rw [List.length_take] at hi; omega), hheld] at hc'
      cases hc'
      exact ⟨rfl, rfl⟩
  · intro z k hk t
    exact ⟨fun d lo n w => tearRecord_placed hk, tearRecord_unplaced hk, tearRecord_keeps z⟩
  · intro s e r c x hslot hmay hfire hbreak hgood hnet hunarmed s1
    have hover := musterFire_ungated (st := s.slotSt s.curLoc.key s.curSlot) hfire
    refine ⟨hover, fun hgate => ?_, fun hgate => ?_⟩
    · exact (execMuster_eq hslot hmay hfire hbreak hgood x).trans (if_pos hgate)
    · obtain ⟨herr, hlo, hhi, htag, hpayload, hvalid⟩ := musterResult_good (x := x) hgood hnet
      refine ⟨_, execMuster_sums hslot hmay hfire hbreak hgood hnet hunarmed x hgate, herr, hlo, hhi, htag, fun i hi => ?_, fun j hj => ?_⟩
      · rw [hvalid]
        exact maskOf_getLsbD _ i hi
      · rw [hpayload, elAt_packEls _ _ j (by simpa using hj) (by simpa using mul_elCount_le _)]
        rw [List.getElem_map, List.getElem_map, List.getElem_range, musterEl_bits, apply_ite (· % 2 ^ elWidth x.ty false), Nat.zero_mod]
        rfl
  · intro s u slot r p hhead hrun hclaim
    refine ⟨{ fieldFault s u.key slot .l 0x0A r.tok (s.lastOn u.key slot .l r.tok.tag p.2.1) with aux := BitVec.ofNat 64 (p.2.1 * 2 ^ 40 + p.2.2) },
      rfl, rfl, rfl, ?_⟩
    show execMusterTimeout u slot s = _
    unfold execMusterTimeout
    refine (whileRunning_of_running _ _ hrun).trans ?_
    rw [hhead]
    dsimp only
    rw [hclaim]

end Sys2Proof.Machine
end

section
/-!
PROOFS. Units of bytes that an engine moves, and what a move leaves of a state (O45).
-/

namespace Sys2Proof.Machine

/-! ### What a move keeps -/

/-- A move changes memories, signals and what waits for them: units and paddocks stay, and no line gets a mark. -/
structure State.Steady (s t : State) : Prop where
  units : t.units = s.units
  pads : t.pads = s.pads
  unmarked : ∀ sp l, s.markOf sp l = none → t.markOf sp l = none

namespace State.Steady

theorem refl (s : State) : s.Steady s := ⟨rfl, rfl, fun _ _ h => h⟩

theorem trans {s t u : State} (hst : s.Steady t) (htu : t.Steady u) : s.Steady u :=
  ⟨htu.units.trans hst.units, htu.pads.trans hst.pads, fun sp l h => htu.unmarked sp l (hst.unmarked sp l h)⟩

theorem of_marks {s t : State} (hunits : t.units = s.units) (hpads : t.pads = s.pads) (hmarks : t.marks = s.marks) : s.Steady t :=
  ⟨hunits, hpads, fun sp l h => by rw [State.markOf, hmarks]; exact h⟩

end State.Steady

/-- No line of n bytes at a place has a mark. -/
def State.Clean (s : State) (x : Space × Nat) (n : Nat) : Prop := ((linesOf x.2 n).all fun l => s.markOf x.1 l == none) = true

theorem clean_iff {s : State} {x : Space × Nat} {n : Nat} : s.Clean x n ↔ ∀ l ∈ linesOf x.2 n, s.markOf x.1 l = none := by
  simp [State.Clean]

theorem State.Steady.clean {s t : State} (h : s.Steady t) {x : Space × Nat} {n : Nat} (hx : s.Clean x n) : t.Clean x n :=
  clean_iff.2 fun l hl => h.unmarked _ l (clean_iff.1 hx l hl)

theorem mem_linesOf {a n l : Nat} : l ∈ linesOf a n ↔ a / 64 ≤ l ∧ l < (a + n - 1) / 64 + 1 := by
  simp only [linesOf, List.mem_map, List.mem_range]
  constructor
  · rintro ⟨i, hi, rfl⟩; omega
  · intro h; exact ⟨l - a / 64, by omega, by omega⟩

/-- A part of clean bytes is clean. -/
theorem State.Clean.sub {s : State} {sp : Space} {a n b m : Nat} (h : s.Clean (sp, a) n) (hm : 0 < m) (hb : a ≤ b) (hbm : b + m ≤ a + n) :
    s.Clean (sp, b) m := by
  refine clean_iff.2 fun l hl => clean_iff.1 h l ?_
  rw [mem_linesOf] at hl ⊢
  omega

theorem markOf_clearMark {s : State} {sp : Space} {l : Nat} (h : s.markOf sp l = none) (sp' : Space) (l' : Nat) :
    (s.clearMark sp' l').markOf sp l = none := by
  simp only [State.markOf, State.clearMark, Option.map_eq_none_iff, List.find?_eq_none] at h ⊢
  exact fun x hx => h x (List.mem_filter.1 hx).1

theorem setMem_marks (s : State) (sp : Space) (m : Memory) : (s.setMem sp m).marks = s.marks := by cases sp <;> rfl

theorem markOf_storeMem {s : State} {sp : Space} {l : Nat} (h : s.markOf sp l = none) (sp' : Space) (a : Nat) (bs : List Byte) :
    (s.storeMem sp' a bs).markOf sp l = none := by
  unfold State.storeMem State.writeMem
  dsimp only
  rw [State.markOf, setMem_marks]
  exact List.foldlRecOn (motive := fun t : State => t.markOf sp l = none) _ _ h fun t ht l' _ => markOf_clearMark ht sp' l'

theorem storeMem_steady (s : State) (sp : Space) (a : Nat) (bs : List Byte) : s.Steady (s.storeMem sp a bs) :=
  ⟨State.storeMem_units .., State.storeMem_pads .., fun _ _ h => markOf_storeMem h ..⟩

theorem storeMem_mem_same (s : State) (sp : Space) (a : Nat) (bs : List Byte) : (s.storeMem sp a bs).mem sp = (s.mem sp).write a bs := by
  rw [State.storeMem_mem, if_pos rfl]

theorem storeMem_mem_other (s : State) {sp sp' : Space} (a : Nat) (bs : List Byte) (h : sp' ≠ sp) : (s.storeMem sp a bs).mem sp' = s.mem sp' := by
  rw [State.storeMem_mem, if_neg h]

/-! ### Reads of clean lines -/

theorem spendLine_marks (s : State) (sp : Space) (line : Nat) : (s.spendLine sp line).marks = s.marks := by
  unfold State.spendLine
  extract_lets fail
  have hfail (s : State) (unit bit cause site : Nat) : (fail s unit bit cause site).marks = s.marks := by
    simp only [fail, State.takeMask]
    cases (amGet s.masks unit 0).getLsbD bit <;> rfl
  cases sp with
  | s => exact hfail ..
  | m => exact (hfail ..).trans (hfail ..)
  | l | f | h | c => rfl

theorem spendMasks_steady (s : State) (sp : Space) (a n : Nat) :
    s.Steady (s.spendMasks sp a n) ∧ (s.spendMasks sp a n).mem = s.mem := by
  have hread := spendMasks_readOf s sp a n
  have hmem : (s.spendMasks sp a n).mem = s.mem := by rw [← hread]; funext q; cases q <;> rfl
  refine ⟨.of_marks hread.units hread.pads ?_, hmem⟩
  unfold State.spendMasks
  split
  · rfl
  · exact List.foldlRecOn (motive := fun t : State => t.marks = s.marks) _ _ rfl fun t ht l _ => (spendLine_marks t sp l).trans ht

/-- Only slices and memory links have injections that a read spends. -/
theorem spendMasks_near (s : State) {sp : Space} (h : sp = .l ∨ sp = .f) (a n : Nat) : s.spendMasks sp a n = s := by
  unfold State.spendMasks
  split
  · rfl
  · refine List.foldlRecOn (motive := fun t => t = s) _ _ rfl fun t ht l _ => ?_
    rw [ht]
    rcases h with rfl | rfl <;> rfl

theorem checkedRead_clean {s : State} {sp : Space} {a n : Nat} (h : s.Clean (sp, a) n) :
    s.checkedRead sp a n = (s.spendMasks sp a n, s.readMem sp a n, none) := by
  obtain ⟨hsteady, hmem⟩ := spendMasks_steady s sp a n
  have hlines := checkLines_unmarked sp _ (s.spendMasks sp a n) (hsteady.clean h)
  unfold State.checkedRead
  dsimp only at hlines ⊢
  rw [hlines, State.readMem, hmem]
  rfl

/-! ### One unit -/

/-- The bytes of p stand at q. -/
def State.moveUnit (s : State) (x : Part × Part) : State :=
  (s.spendMasks x.1.sp x.1.addr x.1.len).storeMem x.2.sp x.2.addr (s.readMem x.1.sp x.1.addr x.1.len)

theorem moveUnit_steady (s : State) (x : Part × Part) : s.Steady (s.moveUnit x) := (spendMasks_steady ..).1.trans (storeMem_steady ..)

theorem moveUnit_mem_other (s : State) (x : Part × Part) {sp : Space} (h : sp ≠ x.2.sp) : (s.moveUnit x).mem sp = s.mem sp := by
  rw [State.moveUnit, storeMem_mem_other _ _ _ h, (spendMasks_steady ..).2]

theorem readMem_length (s : State) (sp : Space) (a n : Nat) : (s.readMem sp a n).length = n := Memory.read_length ..

theorem readMem_getD {s : State} {sp : Space} {a n i : Nat} (h : i < n) : (s.readMem sp a n).getD i 0 = (s.mem sp).get (a + i) := by
  rw [List.getD_eq_getElem?_getD, State.readMem, Memory.read_getElem _ _ _ _ h, Option.getD_some]

theorem moveUnit_get (s : State) (x : Part × Part) (b : Nat) : ((s.moveUnit x).mem x.2.sp).get b =
    if x.2.addr ≤ b ∧ b < x.2.addr + x.1.len then (s.mem x.1.sp).get (x.1.addr + (b - x.2.addr)) else (s.mem x.2.sp).get b := by
  rw [State.moveUnit, storeMem_mem_same, Memory.get_write, readMem_length, (spendMasks_steady ..).2]
  split
  next h => exact readMem_getD (by omega)
  next => rfl

theorem readUnit_clean {s : State} {p : Part} (hbad : p.bad = false) (hlen : 0 < p.len) (h : s.Clean (p.sp, p.addr) p.len) :
    s.readUnit p = (s.spendMasks p.sp p.addr p.len, s.readMem p.sp p.addr p.len, none) := by
  have hline : s.markOf p.sp (p.addr / 64) = none := clean_iff.1 h _ (mem_linesOf.2 (by omega))
  simp [State.readUnit, hline, checkedRead_clean h, hbad]

theorem copy_clean {m : Moved} {x : Part × Part} (hsrc : x.1.bad = false) (hdst : x.2.bad = false) (hlen : 0 < x.1.len)
    (h : m.s.Clean (x.1.sp, x.1.addr) x.1.len) : m.copy x = { m with s := m.s.moveUnit x } := by
  simp [Moved.copy, Moved.put, readUnit_clean hsrc hlen h, hdst, State.moveUnit]

/-- Units that can be read move one after another, and nothing fails. -/
theorem foldl_copy_clean {us : List (Part × Part)} : ∀ {m : Moved}, (∀ x ∈ us, x.1.bad = false ∧ x.2.bad = false ∧ 0 < x.1.len ∧
    m.s.Clean (x.1.sp, x.1.addr) x.1.len) → us.foldl Moved.copy m = { m with s := us.foldl State.moveUnit m.s } := by
  induction us with
  | nil => exact fun _ => rfl
  | cons x us ih =>
    intro m h
    obtain ⟨hsrc, hdst, hlen, hclean⟩ := h x List.mem_cons_self
    rw [List.foldl_cons, copy_clean hsrc hdst hlen hclean, ih fun y hy => ?_]
    · rfl
    · obtain ⟨hsrc, hdst, hlen, hclean⟩ := h y (List.mem_cons_of_mem _ hy)
      exact ⟨hsrc, hdst, hlen, (moveUnit_steady ..).clean hclean⟩

/-! ### A range, unit by unit -/

/-- The unit of 8 bytes of a range behind i others. -/
def Part.unit (p : Part) (i : Nat) : Part := { p with addr := p.addr + 8 * i, len := 8 }

theorem unitsOf_single (p : Part) : unitsOf [p] = (List.range (p.len / 8)).map p.unit := by
  rw [unitsOf, List.flatMap_cons, List.flatMap_nil, List.append_nil]
  rfl

/-- The first k units of a range have moved. -/
def State.moveRange (s : State) (a b : Part) (k : Nat) : State := ((List.range k).map fun i => (a.unit i, b.unit i)).foldl State.moveUnit s

theorem moveRange_succ (s : State) (a b : Part) (k : Nat) : s.moveRange a b (k + 1) = (s.moveRange a b k).moveUnit (a.unit k, b.unit k) := by
  simp only [State.moveRange, List.range_succ, List.map_append, List.map_cons, List.map_nil, List.foldl_append, List.foldl_cons, List.foldl_nil]

section
variable (s : State) (a b : Part)

theorem moveRange_steady (k : Nat) : s.Steady (s.moveRange a b k) := by
  induction k with
  | zero => exact .refl s
  | succ k ih => rw [moveRange_succ]; exact ih.trans (moveUnit_steady ..)

theorem moveRange_mem_other {sp : Space} (h : sp ≠ b.sp) (k : Nat) : (s.moveRange a b k).mem sp = s.mem sp := by
  induction k with
  | zero => rfl
  | succ k ih => rw [moveRange_succ, moveUnit_mem_other _ _ (show sp ≠ (b.unit k).sp from h), ih]

/-- Where the next unit of a range goes. -/
theorem moveRange_get_succ (k x : Nat) : ((s.moveRange a b (k + 1)).mem b.sp).get x =
    if b.addr + 8 * k ≤ x ∧ x < b.addr + 8 * k + 8 then ((s.moveRange a b k).mem a.sp).get (a.addr + 8 * k + (x - (b.addr + 8 * k)))
    else ((s.moveRange a b k).mem b.sp).get x := by
  rw [moveRange_succ]
  exact moveUnit_get _ (a.unit k, b.unit k) x

theorem moveRange_get_frame {k x : Nat} (h : x < b.addr ∨ b.addr + 8 * k ≤ x) : ((s.moveRange a b k).mem b.sp).get x = (s.mem b.sp).get x := by
  induction k with
  | zero => rfl
  | succ k ih => rw [moveRange_get_succ, if_neg (by omega), ih (by omega)]

/-- A range whose source is not overwritten ahead of its reading has arrived as it was. -/
theorem moveRange_get_copied {k : Nat} (hapart : a.sp ≠ b.sp ∨ b.addr ≤ a.addr ∨ a.addr + 8 * k ≤ b.addr) :
    ∀ j ≤ k, ∀ x < 8 * j, ((s.moveRange a b j).mem b.sp).get (b.addr + x) = (s.mem a.sp).get (a.addr + x) := by
  intro j
  induction j with
  | zero => exact fun _ x hx => absurd hx (by omega)
  | succ j ih =>
    intro hj x hx
    rw [moveRange_get_succ]
    split
    next h =>
      have hx' : a.addr + 8 * j + (b.addr + x - (b.addr + 8 * j)) = a.addr + x := by omega
      rw [hx']
      by_cases hsp : a.sp = b.sp
      · have hapart := hapart.resolve_left (not_not.2 hsp)
        rw [hsp, moveRange_get_frame s a b (by omega)]
      · rw [moveRange_mem_other s a b hsp]
    next h => exact ih (by omega) x (by omega)

/-- One whose destination overlaps its source from above repeats what it has written. -/
theorem moveRange_get_repeats (hsp : a.sp = b.sp) (hlt : a.addr + 8 ≤ b.addr) (k : Nat) :
    ∀ x < 8 * k, ((s.moveRange a b k).mem b.sp).get (b.addr + x) = ((s.moveRange a b k).mem b.sp).get (a.addr + x) := by
  induction k with
  | zero => exact fun x hx => absurd hx (by omega)
  | succ k ih =>
    intro x hx
    rw [moveRange_get_succ, moveRange_get_succ, if_neg (c := b.addr + 8 * k ≤ a.addr + x ∧ _) (by omega)]
    split
    next h =>
      have hx' : a.addr + 8 * k + (b.addr + x - (b.addr + 8 * k)) = a.addr + x := by omega
      rw [hx', hsp]
    next h => exact ih x (by omega)

end

/-! ### The end of a move -/

/-- t is s but for the queues' packets and the events: a reading has been taken to each BARRIER that waits. -/
structure State.Told (s t : State) : Prop where
  units : t.units = s.units
  pads : t.pads = s.pads
  marks : t.marks = s.marks
  mem : t.mem = s.mem
  sigWriters : t.sigWriters = s.sigWriters
  droverStop : t.droverStop = s.droverStop
  events : ∀ e ∈ s.events, e ∈ t.events

theorem State.Told.refl (s : State) : s.Told s := ⟨rfl, rfl, rfl, rfl, rfl, rfl, fun _ h => h⟩

theorem State.Told.trans {s t u : State} (hst : s.Told t) (htu : t.Told u) : s.Told u :=
  ⟨htu.units.trans hst.units, htu.pads.trans hst.pads, htu.marks.trans hst.marks, htu.mem.trans hst.mem, htu.sigWriters.trans hst.sigWriters,
    htu.droverStop.trans hst.droverStop, fun e h => htu.events e (hst.events e h)⟩

theorem State.Told.steady {s t : State} (h : s.Told t) : s.Steady t := .of_marks h.units h.pads h.marks

/-- One BARRIER hears of an update. -/
def State.tell (w : SigWriter) (s : State) (x : Nat × Nat × Nat) : State :=
  let s := s.updPkt x.1 x.2.1 fun p => { p with pending := p.pending ++ [some (x.2.2, w)] }
  if s.droverStop then s else s.post (.barrierReading x.1 x.2.1)

theorem signalUpdated_eq (s : State) (hit : Space × Nat → Bool) (w : SigWriter) : s.signalUpdated hit w = (s.waitersOn hit).foldl (State.tell w) s := rfl

theorem tell_told (w : SigWriter) (s : State) (x : Nat × Nat × Nat) : s.Told (s.tell w x) := by
  unfold State.tell
  dsimp only
  split
  · exact ⟨rfl, rfl, rfl, rfl, rfl, rfl, fun _ h => h⟩
  · exact ⟨rfl, rfl, rfl, rfl, rfl, rfl, fun _ h => List.mem_append_left _ h⟩

theorem foldl_tell_told (w : SigWriter) (l : List (Nat × Nat × Nat)) (s : State) : s.Told (l.foldl (State.tell w) s) :=
  List.foldlRecOn (motive := fun t => s.Told t) l _ (.refl s) fun t ht x _ => ht.trans (tell_told w t x)

/-- While the drover runs, each BARRIER that waits takes a reading (R282). -/
theorem foldl_tell_events {w : SigWriter} {x : Nat × Nat × Nat} : ∀ {l : List (Nat × Nat × Nat)} {s : State}, s.droverStop = false → x ∈ l →
    Event.mk (.barrierReading x.1 x.2.1) {} ∈ (l.foldl (State.tell w) s).events := by
  intro l
  induction l with
  | nil => exact fun _ h => nomatch h
  | cons y l ih =>
    intro s hstop hx
    rw [List.foldl_cons]
    rcases List.mem_cons.1 hx with rfl | hx
    · refine (foldl_tell_told w l _).events _ ?_
      unfold State.tell
      dsimp only
      rw [if_neg (by rw [show (s.updPkt x.1 x.2.1 _).droverStop = s.droverStop from rfl, hstop]; decide)]
      exact List.mem_append_right _ List.mem_cons_self
    · exact ih ((tell_told w s y).droverStop.trans hstop) hx

theorem sigWriters_steady (s : State) (l : List ((Space × Nat) × SigWriter)) : s.Steady { s with sigWriters := l } := .of_marks rfl rfl rfl

theorem wroteBy_steady (s : State) (l : List Part) (w : SigWriter) : s.Steady (s.wroteBy l w) ∧ (s.wroteBy l w).mem = s.mem := by
  unfold State.wroteBy
  dsimp only
  rw [signalUpdated_eq]
  have htold := foldl_tell_told w
  exact ⟨(sigWriters_steady s _).trans (htold _ _).steady, (htold _ _).mem⟩

/-- A move whose units all could be read, to pages that are not described, ends with the word to those that wait (R282, R329). -/
theorem finish_clean {m : Moved} {c : EngCmd} {dst : List Part} (hfailed : m.failed = []) (hcause : m.cause = none) (hdesc : ∀ p ∈ dst, p.desc = false) :
    m.finish c dst = m.s.wroteBy (dst.filter fun p => !p.bad) (m.s.writerOf c) := by
  have hmarks : dst.foldl (fun s p => if p.desc && !p.bad then
      ((linesOf p.addr p.len).filter fun l => decide (p.addr ≤ 64 * l ∧ 64 * l + 64 ≤ p.addr + p.len)).foldl (fun s l => s.clearMark p.sp l) s
    else s) m.s = m.s :=
    List.foldlRecOn (motive := fun t => t = m.s) _ _ rfl fun t ht p hp => by rw [ht, hdesc p hp]; rfl
  unfold Moved.finish
  rw [hmarks, hfailed, hcause]
  rfl

/-- The units of a clean range move one after another. -/
theorem foldl_copy_range {s : State} {a b : Part} (hlen : a.len = b.len) (habad : a.bad = false) (hbbad : b.bad = false)
    (hclean : s.Clean (a.sp, a.addr) a.len) :
    ((unitsOf [a]).zip (unitsOf [b])).foldl Moved.copy { s := s } = { s := s.moveRange a b (a.len / 8) } := by
  have hunits : (unitsOf [a]).zip (unitsOf [b]) = (List.range (a.len / 8)).map fun i => (a.unit i, b.unit i) := by
    rw [unitsOf_single, unitsOf_single, ← hlen, List.zip_map']
  rw [hunits, foldl_copy_clean]
  · rfl
  · intro x hx
    obtain ⟨i, hi, rfl⟩ := List.mem_map.1 hx
    have hi := List.mem_range.1 hi
    exact ⟨habad, hbbad, Nat.succ_pos 7, hclean.sub (Nat.succ_pos 7) (Nat.le_add_right ..) (by simp only [Part.unit]; omega)⟩

/-- What a copy of one range leaves: the bytes that have moved, and nothing else of a state but what waits for signals. -/
theorem engCopy_single {s : State} (c : EngCmd) {a b : Part} (hlen : a.len = b.len) (habad : a.bad = false) (hbbad : b.bad = false)
    (hdesc : b.desc = false) (hclean : s.Clean (a.sp, a.addr) a.len) :
    s.Steady (s.engCopy c [a] [b]) ∧ (s.engCopy c [a] [b]).mem = (s.moveRange a b (a.len / 8)).mem := by
  unfold State.engCopy
  rw [foldl_copy_range hlen habad hbbad hclean, finish_clean rfl rfl (by simpa using hdesc)]
  obtain ⟨hsteady, hmem⟩ := wroteBy_steady (s.moveRange a b (a.len / 8)) ([b].filter fun p => !p.bad) ((s.moveRange a b (a.len / 8)).writerOf c)
  exact ⟨(moveRange_steady ..).trans hsteady, hmem⟩

/-! ### Bytes of ranges -/

/-- Two ranges have no byte in common. -/
def Apart (x y : Space × Nat) (n m : Nat) : Prop := x.1 ≠ y.1 ∨ x.2 + n ≤ y.2 ∨ y.2 + m ≤ x.2

theorem readMem_congr {s t : State} {sp sp' : Space} {a b n : Nat} (h : ∀ x < n, (t.mem sp).get (a + x) = (s.mem sp').get (b + x)) :
    t.readMem sp a n = s.readMem sp' b n := by
  refine List.ext_getElem? fun i => ?_
  by_cases hi : i < n
  · rw [State.readMem, State.readMem, Memory.read_getElem _ _ _ _ hi, Memory.read_getElem _ _ _ _ hi, h i hi]
  · rw [List.getElem?_eq_none (by rw [readMem_length]; omega), List.getElem?_eq_none (by rw [readMem_length]; omega)]

/-- t is s with n bytes of x standing at y: all other bytes are those of s. -/
structure State.Copied (s t : State) (x y : Space × Nat) (n : Nat) : Prop where
  steady : s.Steady t
  bytes : ∀ i < n, (t.mem y.1).get (y.2 + i) = (s.mem x.1).get (x.2 + i)
  frame : ∀ a, a < y.2 ∨ y.2 + n ≤ a → (t.mem y.1).get a = (s.mem y.1).get a
  spaces : ∀ sp, sp ≠ y.1 → t.mem sp = s.mem sp

/-- A byte that a copy does not reach. -/
theorem State.Copied.get {s t : State} {x y : Space × Nat} {n : Nat} (h : s.Copied t x y n) {sp : Space} {a : Nat}
    (ha : sp ≠ y.1 ∨ a < y.2 ∨ y.2 + n ≤ a) : (t.mem sp).get a = (s.mem sp).get a := by
  by_cases hsp : sp = y.1
  · subst hsp; exact h.frame a (ha.resolve_left (not_not.2 rfl))
  · rw [h.spaces sp hsp]

/-- A range that a copy does not reach. -/
theorem State.Copied.readMem {s t : State} {x y : Space × Nat} {n : Nat} (h : s.Copied t x y n) {z : Space × Nat} {m : Nat} (hz : Apart z y m n) :
    t.readMem z.1 z.2 m = s.readMem z.1 z.2 m :=
  readMem_congr fun i hi => h.get (by rcases hz with hz | hz | hz; exacts [.inl hz, .inr (.inl (by omega)), .inr (.inr (by omega))])

theorem State.Copied.reads {s t : State} {x y : Space × Nat} {n : Nat} (h : s.Copied t x y n) : t.readMem y.1 y.2 n = s.readMem x.1 x.2 n :=
  readMem_congr h.bytes

theorem moveRange_copied (s : State) {a b : Part} (h8 : a.len % 8 = 0) (hapart : a.sp ≠ b.sp ∨ b.addr ≤ a.addr ∨ a.addr + a.len ≤ b.addr) :
    s.Copied (s.moveRange a b (a.len / 8)) (a.sp, a.addr) (b.sp, b.addr) a.len := by
  have hwhole : 8 * (a.len / 8) = a.len := by omega
  refine ⟨moveRange_steady .., fun i hi => ?_, fun x hx => ?_, fun sp hsp => moveRange_mem_other s a b hsp _⟩
  · exact moveRange_get_copied s a b (by rw [hwhole]; exact hapart) _ (Nat.le_refl _) i (by omega)
  · exact moveRange_get_frame s a b (by omega)

theorem engCopy_copied {s : State} (c : EngCmd) {a b : Part} (hlen : a.len = b.len) (h8 : a.len % 8 = 0) (habad : a.bad = false) (hbbad : b.bad = false)
    (hdesc : b.desc = false) (hclean : s.Clean (a.sp, a.addr) a.len)
    (hapart : a.sp ≠ b.sp ∨ b.addr ≤ a.addr ∨ a.addr + a.len ≤ b.addr) : s.Copied (s.engCopy c [a] [b]) (a.sp, a.addr) (b.sp, b.addr) a.len := by
  obtain ⟨hsteady, hmem⟩ := engCopy_single c hlen habad hbbad hdesc hclean
  obtain ⟨-, hbytes, hframe, hspaces⟩ := moveRange_copied s h8 hapart
  rw [← hmem] at hbytes hframe hspaces
  exact ⟨hsteady, hbytes, hframe, hspaces⟩

/-- The clauses on one copy. -/
theorem engCopy_clauses {s : State} (c : EngCmd) {a b : Part} (hlen : a.len = b.len) (h8 : a.len % 8 = 0) (ha : a.addr % 8 = 0) (hb : b.addr % 8 = 0)
    (habad : a.bad = false) (hbbad : b.bad = false) (hdesc : b.desc = false) (hclean : s.Clean (a.sp, a.addr) a.len) :
    let t := s.engCopy c [a] [b]
    (a.sp ≠ b.sp ∨ b.addr ≤ a.addr ∨ a.addr + a.len ≤ b.addr → t.readMem b.sp b.addr b.len = s.readMem a.sp a.addr a.len) ∧
    (a.sp = b.sp → a.addr < b.addr → ∀ x, x < a.len → (t.mem b.sp).get (b.addr + x) = (t.mem b.sp).get (a.addr + x)) ∧
    (∀ x, x < b.addr ∨ b.addr + b.len ≤ x → (t.mem b.sp).get x = (s.mem b.sp).get x) ∧ ∀ sp, sp ≠ b.sp → t.mem sp = s.mem sp := by
  intro t
  obtain ⟨-, hmem⟩ := engCopy_single c hlen habad hbbad hdesc hclean
  have hwhole : 8 * (a.len / 8) = a.len := by omega
  refine ⟨fun hapart => ?_, fun hsp hlt x hx => ?_, fun x hx => ?_, fun sp hsp => ?_⟩
  · rw [← hlen]
    exact (engCopy_copied c hlen h8 habad hbbad hdesc hclean hapart).reads
  · rw [hmem]
    exact moveRange_get_repeats s a b hsp (by omega) _ x (by omega)
  · rw [hmem]
    exact moveRange_get_frame s a b (by omega)
  · rw [hmem]
    exact moveRange_mem_other s a b hsp _

end Sys2Proof.Machine
end

section
/-!
PROOFS. Engine commands: ranges of engine addresses, the start of a command, signals, completions, appends and groups (O45).
-/

namespace Sys2Proof.Machine

/-! ### Ranges of engine addresses -/

/-- Where an address of L, F or S stands, for a command of a fold's queue. -/
def engPlace (fold : Nat) (e : EngAddr) : Space × Nat := match e.space with
  | 0 => (.l, lAddr (fold * 12 + e.row) e.addr)
  | 1 => (.f, fAddr fold e.addr)
  | _ => (.s, e.addr)

/-- n bytes there. -/
def nearPart (fold : Nat) (e : EngAddr) (n : Nat) : Part := { sp := (engPlace fold e).1, addr := (engPlace fold e).2, len := n }

theorem engRange_near (s : State) (fold : Nat) {c : EngCmd} (write : Bool) {e : EngAddr} (n : Nat) (hpkt : c.pkt = none) (he : e.space ≤ 2) :
    s.engRange fold c write e n = (s, .parts [nearPart fold e n]) := by
  unfold State.engRange nearPart engPlace
  rw [hpkt]
  obtain h | h | h : e.space = 0 ∨ e.space = 1 ∨ e.space = 2 := by omega
  all_goals rw [h]; rfl

theorem withRange_near (s0 s : State) (fold : Nat) {c : EngCmd} (write : Bool) {e : EngAddr} (n : Nat) (k : State → List Part → EngRes)
    (hpkt : c.pkt = none) (he : e.space ≤ 2) : withRange s0 s fold c write e n k = k s [nearPart fold e n] := by
  unfold withRange
  rw [engRange_near s fold write n hpkt he]
  cases write <;> rfl

theorem withRange_parts {s0 s s1 : State} {fold : Nat} {c : EngCmd} {write : Bool} {e : EngAddr} {n : Nat} {l : List Part}
    (hrange : s.engRange fold c write e n = (s1, .parts l)) (hgate : write = true → (l.any (·.ext)) = true → s1.gated c = false)
    (k : State → List Part → EngRes) : withRange s0 s fold c write e n k = k s1 l := by
  have hopen : (write && (l.any (·.ext)) && s1.gated c) = false := by
    cases write
    · rfl
    · cases hext : l.any (·.ext)
      · rfl
      · rw [hgate rfl hext]; rfl
  unfold withRange
  rw [hrange]
  dsimp only
  rw [hopen]
  rfl

/-- A range within one page is one piece. -/
theorem splitPages_single {page a n : Nat} (hpage : 0 < page) (hn : 0 < n) (hone : a / page = (a + n - 1) / page) : splitPages page a n = [(a, n)] := by
  have hlo : a / page * page ≤ a := Nat.div_mul_le_self a page
  have hhi : a + n - 1 < (a / page + 1) * page := by rw [hone, Nat.mul_comm]; exact Nat.lt_mul_div_succ _ hpage
  have hcount : (a + n - 1) / page + 1 - a / page = 1 := by omega
  unfold splitPages
  rw [if_neg (by simpa using hn.ne'), hcount]
  simp only [List.range_one, List.map_cons, List.map_nil, Nat.add_zero, Nat.max_eq_left hlo]
  rw [Nat.min_eq_left (by omega), Nat.add_sub_cancel_left]

theorem engRange_page {s s2 : State} (fold : Nat) {c : EngCmd} {write : Bool} {e : EngAddr} {n pa en : Nat} (he : e.space = 3) (hn : 0 < n)
    (hone : e.addr / 65536 = (e.addr + n - 1) / 65536) (htop : e.addr + n ≤ 2 ^ 56) (hphys : s.translateAny c.ctx e.addr write = (s2, .phys pa en)) :
    s.engRange fold c write e n = (s2, .parts
      [{ sp := .m, addr := pa, len := n, ext := pteExternal en, bad := ptePoisoned en, desc := pteDescribed en }]) := by
  unfold State.engRange
  rw [he]
  refine (if_neg (Nat.not_lt.2 htop)).trans ?_
  rw [splitPages_single (by decide) hn hone]
  unfold State.rangeAny
  rw [hphys]
  rfl

/-! ### The start of a command -/

section
variable {s : State} {fold q : Nat} {c : EngCmd}

/-- What a command that is open waits for (R217, R264, R268). -/
def State.engWaits (s : State) (fold : Nat) (c : EngCmd) : Bool :=
  (c.deps.any fun d => s.openIds.contains d) || decide (128 ≤ s.copiesInFlight fold) || s.engFull fold c

/-- The state in which a command performs: its page has come, its cell's stores have arrived. -/
def State.engReady (s : State) (fold : Nat) (c : EngCmd) : State := (s.pageCame c.pad (engWait c.id)).engRequest fold c

/-- A command that ends with its own try: neither a collective nor an append. -/
def EngOp.alone : EngOp → Bool
  | .coll .. | .enq .. => false
  | _ => true

theorem exec_engineOpStart_waits (hopen : firstOpen (amGet s.engines (queueKey fold q) []) = some c) (hstart : c.started = false)
    (hwaits : s.engWaits fold c = true) : exec (.engineOpStart fold q) s = .next (s.postOnce (.engineOpStart fold q)) := by
  show execEngineOpStart fold q s = _
  unfold execEngineOpStart
  extract_lets k
  rw [show firstOpen (amGet s.engines k []) = some c from hopen]
  dsimp only
  exact if_pos (by rw [hstart]; exact hwaits)

theorem exec_engineOpStart_goes (hopen : firstOpen (amGet s.engines (queueKey fold q) []) = some c)
    (hgo : c.started = true ∨ s.engWaits fold c = false) (hpkt : c.pkt = none) : exec (.engineOpStart fold q) s =
      match c.op with
      | .enq .. => .next (((s.engReady fold c).updCmd (queueKey fold q) c.id fun c => { c with started := true }).postOnce (.enqAppend fold q))
      | .coll .. =>
        let s := (s.engReady fold c).updCmd (queueKey fold q) c.id fun c => { c with started := true }
        .next (s.cmdEnd fold q c (s.runOp fold q c))
      | _ => .next ((s.engReady fold c).cmdEnd fold q c ((s.engReady fold c).runOp fold q c)) := by
  show execEngineOpStart fold q s = _
  unfold execEngineOpStart
  extract_lets k
  rw [show firstOpen (amGet s.engines k []) = some c from hopen]
  dsimp only
  have hcond : (!c.started && s.engWaits fold c) = false := by rcases hgo with h | h <;> simp [h]
  refine (if_neg (by rw [Bool.not_eq_true]; exact hcond)).trans ?_
  rw [hpkt]
  rfl

section
variable (hopen : firstOpen (amGet s.engines (queueKey fold q) []) = some c) (hgo : c.started = true ∨ s.engWaits fold c = false) (hpkt : c.pkt = none)
include hopen hgo hpkt

theorem exec_engineOpStart_alone (hop : c.op.alone = true) :
    exec (.engineOpStart fold q) s = .next ((s.engReady fold c).cmdEnd fold q c ((s.engReady fold c).runOp fold q c)) := by
  rw [exec_engineOpStart_goes hopen hgo hpkt]
  cases h : c.op with
  | coll => rw [h] at hop; cases hop
  | enq => rw [h] at hop; cases hop
  | _ => rfl

theorem exec_engineOpStart_done (hop : c.op.alone = true) {t : State} (hrun : (s.engReady fold c).runOp fold q c = .done t) :
    exec (.engineOpStart fold q) s = .next (t.cmdDone fold q c.id false) := by
  rw [exec_engineOpStart_alone hopen hgo hpkt hop, hrun, State.cmdEnd]
  cases h : c.op with
  | coll => rw [h] at hop; cases hop
  | _ => rfl

theorem exec_engineOpStart_enq {src : EngAddr} {lq : Nat} (hop : c.op = .enq src lq) : exec (.engineOpStart fold q) s =
    .next (((s.engReady fold c).updCmd (queueKey fold q) c.id fun c => { c with started := true }).postOnce (.enqAppend fold q)) := by
  rw [exec_engineOpStart_goes hopen hgo hpkt, hop]

end

/-- A try that waits for what its paddock's firings do not bring comes again. -/
theorem cmdEnd_wait (s1 u : State) (hpkt : c.pkt = none) : s1.cmdEnd fold q c (.wait u false) = u.postOnce (.engineOpStart fold q) := by
  unfold State.cmdEnd
  rw [hpkt]
  rfl

end

/-! ### Signals -/

/-- A value of a map that differs from the default stands in it. -/
theorem mem_of_amGet {α β : Type} {m : AMap α} {i : Nat} {d : α} (g : α → β) (h : g (amGet m i d) ≠ g d) : (i, amGet m i d) ∈ m := by
  induction m with
  | nil => exact absurd rfl h
  | cons x m ih =>
    obtain ⟨k, v⟩ := x
    by_cases hk : k = i
    · subst hk; simp [amGet, amGet?]
    · have hrest : amGet ((k, v) :: m) i d = amGet m i d := by simp [amGet, amGet?, hk]
      rw [hrest] at h ⊢
      exact List.mem_cons_of_mem _ (ih h)

/-- A BARRIER that lists a signal at a place that has been hit waits on it. -/
theorem mem_waitersOn {s : State} {hit : Space × Nat → Bool} {lq i : Nat} {e : EngAddr} (he : e ∈ (s.pkt lq i).signals)
    (hstatus : (s.pkt lq i).status = none) (hdecided : (s.pkt lq i).decided = false)
    (hhit : (s.signalPlace ((s.getQ lq).owner.getD 0) e).any hit = true) : ∃ k, (lq, i, k) ∈ s.waitersOn hit := by
  have hsignals : (s.pkt lq i).signals ≠ ({} : Pkt).signals := fun h => by rw [h] at he; cases he
  have hp : (i, s.pkt lq i) ∈ (s.getQ lq).pkts := mem_of_amGet Pkt.signals hsignals
  have hpkts : (s.getQ lq).pkts ≠ ({} : Queue).pkts := fun h => by rw [h] at hp; cases hp
  have hx : (lq, s.getQ lq) ∈ s.queues := mem_of_amGet Queue.pkts hpkts
  obtain ⟨k, hk, hek⟩ := List.mem_iff_getElem.1 he
  have hnth : nthD (s.pkt lq i).signals k {} = e := by rw [nthD, List.getElem?_eq_getElem hk, hek]; rfl
  refine ⟨k, List.mem_flatMap.2 ⟨_, hx, List.mem_flatMap.2 ⟨_, hp, ?_⟩⟩⟩
  dsimp only
  rw [hstatus, hdecided]
  refine List.mem_filterMap.2 ⟨k, List.mem_range.2 hk, ?_⟩
  rw [hnth, if_pos hhit]

/-- A clean signal of F is counted as its operation says. -/
theorem updateSignal_clean {s : State} (op v : Nat) {p : Part} (w : SigWriter) (hsp : p.sp = .f) (hbad : p.bad = false) (hlen : p.len = 8)
    (h : s.Clean (p.sp, p.addr) 8) :
    s.updateSignal op v [p] w = (s.putSignal p (signalValue op (ofBytes (s.readMem p.sp p.addr 8)) v) w, none) := by
  unfold State.updateSignal
  dsimp only
  rw [readUnit_clean hbad (by omega) (by rw [hlen]; exact h), spendMasks_near s (.inr hsp), hlen]

/-- What an update of a signal of F leaves. -/
theorem putSignal_clauses (s : State) {p : Part} (v : Nat) (w : SigWriter) (hsp : p.sp = .f) :
    let t := s.putSignal p v w
    ofBytes (t.readMem .f p.addr 8) = v % 2 ^ 64 ∧ (∀ x, x < p.addr ∨ p.addr + 8 ≤ x → t.memF.get x = s.memF.get x) ∧
      t.memL = s.memL ∧ t.memS = s.memS ∧ t.memM = s.memM ∧ t.sigWriters.head? = some ((.f, p.addr), w) ∧
      (s.droverStop = false → ∀ lq i e, e ∈ (s.pkt lq i).signals → (s.pkt lq i).status = none → (s.pkt lq i).decided = false → e.space = 1 →
        fAddr e.fold e.addr = p.addr → Event.mk (.barrierReading lq i) {} ∈ t.events) := by
  obtain ⟨sp, addr, len, ext, bad, desc⟩ := p
  subst hsp
  intro t
  let u : State := { s.storeMem .f addr (toBytes 8 v) with
    sigWriters := ((.f, addr), w) :: (s.storeMem .f addr (toBytes 8 v)).sigWriters.filter fun x => x.1 != (Space.f, addr) }
  have ht : t = (u.waitersOn (· == (.f, addr))).foldl (State.tell w) u := rfl
  have htold : u.Told t := foldl_tell_told w _ u
  have hmem (sp : Space) : t.mem sp = (s.storeMem .f addr (toBytes 8 v)).mem sp := congrFun htold.mem sp
  have hkept (sp : Space) (h : sp ≠ .f) : t.mem sp = s.mem sp := (hmem sp).trans (storeMem_mem_other _ _ _ h)
  have hwrite : t.mem .f = (s.mem .f).write addr (toBytes 8 v) := (hmem .f).trans (storeMem_mem_same ..)
  refine ⟨?_, fun x hx => ?_, hkept .l (by decide), hkept .s (by decide), hkept .m (by decide), ?_, fun hstop lq i e he hstatus hdecided hspace hplace => ?_⟩
  · have hread := Memory.read_write_same (s.mem .f) addr (toBytes 8 v)
    rw [toBytes_length] at hread
    rw [State.readMem, hwrite, hread, ofBytes_toBytes]
    rfl
  · have hx : x < addr ∨ addr + 8 ≤ x := hx
    refine (congrArg (Memory.get · x) hwrite).trans ?_
    rw [Memory.get_write, toBytes_length, if_neg (by omega)]
    rfl
  · rw [htold.sigWriters]
    rfl
  · have hqueues : u.queues = s.queues := State.storeMem_queues ..
    have hpkt : u.pkt lq i = s.pkt lq i := by unfold State.pkt State.getQ; rw [hqueues]
    obtain ⟨k, hk⟩ := mem_waitersOn (s := u) (hit := (· == (.f, addr))) (by rw [hpkt]; exact he) (by rw [hpkt]; exact hstatus)
      (by rw [hpkt]; exact hdecided) (by rw [State.signalPlace, if_pos (by rw [hspace]; rfl), hplace]; simp)
    rw [ht]
    exact foldl_tell_events (x := (lq, i, k)) ((State.storeMem_droverStop ..).trans hstop) hk

section
variable {s : State} {fold q : Nat} {c : EngCmd} (hopen : firstOpen (amGet s.engines (queueKey fold q) []) = some c)
  (hgo : c.started = true ∨ s.engWaits fold c = false) (hpkt : c.pkt = none)
include hopen hgo hpkt

theorem engineOpStart_sig {op : Nat} {a : EngAddr} {v : DWord} (hop : c.op = .sig op a v) (hspace : a.space = 1)
    (hclean : (s.engReady fold c).Clean (.f, fAddr fold a.addr) 8) : exec (.engineOpStart fold q) s =
      .next (((s.engReady fold c).putSignal (nearPart fold a 8) (signalValue op (ofBytes ((s.engReady fold c).readMem .f (fAddr fold a.addr) 8)) v.toNat)
        (.engine fold q c.id)).cmdDone fold q c.id false) := by
  have hplace : engPlace fold a = (.f, fAddr fold a.addr) := by rw [engPlace, hspace]; rfl
  refine exec_engineOpStart_done hopen hgo hpkt (by rw [hop]; rfl) ?_
  unfold State.runOp
  rw [hop]
  dsimp only
  have hsp : (nearPart fold a 8).sp = .f := congrArg Prod.fst hplace
  have haddr : (nearPart fold a 8).addr = fAddr fold a.addr := congrArg Prod.snd hplace
  rw [withRange_near _ _ fold true 8 _ hpkt (by omega), updateSignal_clean op v.toNat _ hsp rfl rfl (by rw [hsp, haddr]; exact hclean), hsp, haddr]

end

/-! ### Completions, appends, groups -/

section
variable {s : State} {fold q : Nat} {c : EngCmd}

theorem exec_engineOpComplete_open {rest : List EngCmd} (h : amGet s.engines (queueKey fold q) [] = c :: rest) (hdone : c.done = false) :
    exec (.engineOpComplete fold q) s = .next s := by
  show execEngineOpComplete fold q s = _
  unfold execEngineOpComplete
  extract_lets k
  rw [show amGet s.engines k [] = c :: rest from h]
  exact if_pos (by rw [hdone]; rfl)

theorem exec_engineOpComplete_done {rest : List EngCmd} (h : amGet s.engines (queueKey fold q) [] = c :: rest) (hdone : c.done = true) :
    let s1 := ({ s with engines := amUpd s.engines (queueKey fold q) [] fun _ => rest } : State).postOnce (.engineOpStart fold q)
    exec (.engineOpComplete fold q) s = match c.pkt with
      | some (lq, i) => .next (s1.post (.packetComplete lq i (if c.failed then .faulted else .complete)))
      | none => .next (((s1.postAll ((List.range 12).map fun r => Event.mk (.handlerSelect (fold * 12 + r)) {})).checkQuiet c.pad).checkDone c.pad) := by
  intro s1
  show execEngineOpComplete fold q s = _
  unfold execEngineOpComplete
  extract_lets k
  rw [show amGet s.engines k [] = c :: rest from h]
  dsimp only
  rw [hdone]
  rfl

section
variable {src : EngAddr} {lq : Nat} (hopen : firstOpen (amGet s.engines (queueKey fold q) []) = some c) (hop : c.op = .enq src lq)
  (hstart : c.started = true)
include hopen hop hstart

theorem exec_enqAppend : exec (.enqAppend fold q) s = if s.engFull fold c = true then .next (s.postOnce (.enqAppend fold q)) else
    .next (s.cmdEnd fold q c ((s.pageCame c.pad (engWait c.id)).runEnq fold c src lq)) := by
  show execEnqAppend fold q s = _
  unfold execEnqAppend
  rw [hopen]
  dsimp only
  rw [hop]
  dsimp only
  rw [hstart]
  rfl

end

/-- The append of a command to a queue of its own context that is not full. -/
theorem runEnq_appends {s0 s1 : State} {src : EngAddr} {lq : Nat} {l : List Part} (howner : (s0.getQ lq).owner = some c.ctx)
    (hroom : (s0.getQ lq).wr - (s0.getQ lq).rd ≠ 2 ^ (s0.getQ lq).lg) (hspace : src.space = 1) (hpkt : c.pkt = none)
    (hrange : s0.engRange fold { c with pkt := none } true ⟨3, 0, 0, s0.pktAddr lq (s0.getQ lq).wr⟩ 64 = (s1, .parts l))
    (hgate : (l.any (·.ext)) = true → s1.gated { c with pkt := none } = false) : s0.runEnq fold c src lq =
      .done ((s1.engCopy c [{ sp := .f, addr := fAddr fold src.addr, len := 64 }] l).doorbell lq ((s0.getQ lq).wr + 1)) := by
  have hplace : engPlace fold src = (.f, fAddr fold src.addr) := by rw [engPlace, hspace]; rfl
  unfold State.runEnq
  extract_lets x
  rw [if_neg (by simp [x, howner]), if_neg (by simpa [x] using hroom), withRange_near _ _ fold false 64 _ hpkt (by omega),
    withRange_parts hrange fun _ => hgate, nearPart, hplace]

theorem exec_sliceReply_some {cell slice : Nat} {g : SGroup} (h : (s.groups.find? fun g => g.cell == cell && g.slice == slice) = some g) :
    exec (.sliceReply cell slice) s = .next (({ s with groups := s.groups.erase g }.deliverGroup g).checkDone g.pad) := by
  show execSliceReply cell slice s = _
  unfold execSliceReply
  rw [h]

theorem exec_sliceReply_none {cell slice : Nat} (h : (s.groups.find? fun g => g.cell == cell && g.slice == slice) = none) :
    exec (.sliceReply cell slice) s = .next ((s.pads.map (·.1)).foldl (fun s p => s.checkDone p) s) := by
  show execSliceReply cell slice s = _
  unfold execSliceReply
  rw [h]

end

end Sys2Proof.Machine
end

section
/-!
PROOFS. Copies between ranges and tiles (O45).
-/

namespace Sys2Proof.Machine

/-! ### Copies between ranges -/

section
variable {s0 s sa sb : State} {fold n lo width : Nat} {c : EngCmd} {src dst : EngAddr} {clr : Bool} {ls ld : List Part}

theorem copyTo_range (hdst : dst.space ≠ 5) (hrange : s.engRange fold c true dst n = (sb, .parts ld))
    (hgate : (ld.any (·.ext)) = true → sb.gated c = false) (tile : Option Tile) :
    State.copyTo s0 s fold c dst n lo width ls tile = .done (sb.engCopy c ls ld) := by
  unfold State.copyTo
  rw [if_neg (by simpa using hdst), withRange_parts hrange fun _ => hgate]

theorem runCpy_ranges (hsrc : src.space ≠ 5) (hdst : dst.space ≠ 5) (ha : s.engRange fold c false src n = (sa, .parts ls))
    (hb : sa.engRange fold c true dst n = (sb, .parts ld)) (hgate : (ld.any (·.ext)) = true → sb.gated c = false) :
    s.runCpy fold c src dst n lo width clr = .done (sb.engCopy c ls ld) := by
  unfold State.runCpy
  rw [if_neg (by simpa using hsrc), withRange_parts ha (fun h => nomatch h), copyTo_range hdst hb hgate]

theorem awaitConfig_cached {key : Nat} (h : (s.getU key).slotNo.isSome = true) : s.awaitConfig key = none := by
  unfold State.awaitConfig
  exact if_neg (by rw [Option.isNone_eq_false_iff.2 h]; decide)

/-! ### Copies out of a tile -/

section
variable {key : Nat} (hsrc : src.space = 5) (hunit : s.engUnit c.cell c.entry c.ctx src = some key) (hslot : (s.getU key).slotNo.isSome = true)
include hsrc hunit hslot

theorem runCpy_tileBusy (hst : (s.tile key src.addr).st ≠ .ready) : s.runCpy fold c src dst n lo width clr = .wait s true := by
  unfold State.runCpy
  rw [if_pos (by rw [hsrc]; rfl), hunit]
  dsimp only
  rw [awaitConfig_cached hslot]
  exact if_pos (by simpa using hst)

theorem runCpy_tileReady (hst : (s.tile key src.addr).st = .ready) (hdst : dst.space ≠ 5) (hb : s.engRange fold c true dst n = (sb, .parts ld))
    (hgate : (ld.any (·.ext)) = true → sb.gated c = false) :
    let t := sb.engCopy c [tilePart key (s.tile key src.addr)] ld
    s.runCpy fold c src dst n lo width clr =
      .done (if clr = true then (t.setTile key src.addr { (t.tile key src.addr).emptied with kdone := 0 }).settleUnit key else t) := by
  intro t
  unfold State.runCpy
  rw [if_pos (by rw [hsrc]; rfl), hunit]
  dsimp only
  rw [awaitConfig_cached hslot]
  dsimp only
  rw [if_neg (by rw [hst]; decide), copyTo_range hdst hb hgate]

end

end

/-! ### Copies into a tile -/

theorem writeMem_mem_l (s : State) (a : Nat) (bs : List Byte) : (s.writeMem .l a bs).memL = s.memL.write a bs := rfl

theorem padTile_get {s : State} {cell : Nat} {t : Tile} {x : Nat}
    (h : (t.role = .op ∨ t.role = .plain) → ¬ (t.alt = true ∧ t.ty = .f32) → ∀ i < 16, x < tileAddr cell t + 64 * i + 48 ∨ tileAddr cell t + 64 * i + 64 ≤ x) :
    (s.padTile cell t).memL.get x = s.memL.get x := by
  unfold State.padTile
  split
  next hpads =>
    have hrole : (t.role = .op ∨ t.role = .plain) ∧ ¬ (t.alt = true ∧ t.ty = .f32) := by
      simpa [Decidable.imp_iff_not_or] using hpads
    refine List.foldlRecOn (motive := fun u : State => u.memL.get x = s.memL.get x) _ _ rfl fun u hu i hi => ?_
    rw [writeMem_mem_l, Memory.get_write, if_neg ?_, hu]
    have := h hrole.1 hrole.2 i (List.mem_range.1 hi)
    simp only [zeroBytes, List.length_replicate]
    omega
  next => rfl

theorem Tile.size_le (t : Tile) : 1024 ≤ t.size := by
  unfold Tile.size
  split <;> decide

theorem Tile.size_mod (t : Tile) : t.size % 8 = 0 := by
  unfold Tile.size
  split <;> decide

/-- The bytes of a tile that a copy has filled: those of the range, and zero in the pads of its rows (R171). -/
theorem filled_bytes {s s0 s1 : State} {key d : Nat} {td : Tile} (t' : Tile) {x : Space × Nat}
    (hcopied : s0.Copied s1 x (.l, tileAddr (idxOf key) td) td.size) (hsame : ∀ i < td.size, (s0.mem x.1).get (x.2 + i) = (s.mem x.1).get (x.2 + i))
    (hout : ∀ a, a < tileAddr (idxOf key) td ∨ tileAddr (idxOf key) td + td.size ≤ a → s0.memL.get a = s.memL.get a) :
    let s2 := (s1.setTile key d t').padTile (idxOf key) td
    (∀ i, i < td.size → ((td.role = .op ∨ td.role = .plain) → ¬ (td.alt = true ∧ td.ty = .f32) → i % 64 < 48) →
      s2.memL.get (tileAddr (idxOf key) td + i) = (s.mem x.1).get (x.2 + i)) ∧
    ∀ a, a < tileAddr (idxOf key) td ∨ tileAddr (idxOf key) td + td.size ≤ a → s2.memL.get a = s.memL.get a := by
  intro s2
  have hsize := td.size_le
  refine ⟨fun i hi hrow => ?_, fun a ha => ?_⟩
  · rw [padTile_get fun hrole halt j hj => by have := hrow hrole halt; omega]
    exact (hcopied.bytes i hi).trans (hsame i hi)
  · rw [padTile_get fun _ _ j hj => by omega]
    exact (hcopied.frame a ha).trans (hout a ha)

/-- The bytes of a tile as a destination. -/
theorem tilePart_len (key : Nat) (t : Tile) : (tilePart key t).len = t.size := rfl

section
variable {s : State} {fold n lo width : Nat} {c : EngCmd} {src dst : EngAddr} {clr : Bool} {key : Nat} (hpkt : c.pkt = none) (hsrc : src.space ≤ 2)
  (hdst : dst.space = 5) (hunit : s.engUnit c.cell c.entry c.ctx dst = some key) (hslot : (s.getU key).slotNo.isSome = true)
include hpkt hsrc hdst hunit hslot

theorem runCpy_toTile : s.runCpy fold c src dst n lo width clr =
    if (s.tile key dst.addr).role == .op then State.copyToRing s s c key dst.addr lo width [nearPart fold src n] none
    else
      let t := s.tile key dst.addr
      let m := ((unitsOf [nearPart fold src n]).zip (unitsOf [tilePart key t])).foldl Moved.copy { s := s }
      let u := m.finish c [tilePart key t]
      let u := u.setTile key dst.addr ((u.tile key dst.addr).filledFrom none m.cause)
      .done ((u.padTile (idxOf key) t).settleUnit key) := by
  have hnot : (src.space == 5) = false := by simpa using (by omega : src.space ≠ 5)
  unfold State.runCpy
  rw [hnot, withRange_near _ _ fold false n _ hpkt hsrc]
  unfold State.copyTo
  rw [hdst, hunit]
  dsimp only
  rw [awaitConfig_cached hslot]
  rfl

/-- A copy to a tile that is not of a ring. -/
theorem runCpy_fills (hrole : (s.tile key dst.addr).role ≠ .op) (hn : n = (s.tile key dst.addr).size) (hclean : s.Clean (engPlace fold src) n) :
    let t := s.tile key dst.addr
    let u := s.engCopy c [nearPart fold src n] [tilePart key t]
    s.runCpy fold c src dst n lo width clr =
      .done (((u.setTile key dst.addr ((u.tile key dst.addr).filledFrom none none)).padTile (idxOf key) t).settleUnit key) := by
  have hmoved := foldl_copy_range (s := s) (a := nearPart fold src n) (b := tilePart key (s.tile key dst.addr)) hn rfl rfl hclean
  rw [runCpy_toTile hpkt hsrc hdst hunit hslot, if_neg (by simpa using hrole)]
  simp only [State.engCopy, hmoved]

/-- A copy to the tail of a ring waits until it is EMPTY. -/
theorem runCpy_ringBusy (hrole : (s.tile key dst.addr).role = .op)
    (hbusy : (s.tile key (s.tailTile key (s.tile key dst.addr).ring)).st ≠ .empty ∨
      (s.tile key (s.tailTile key (s.tile key dst.addr).ring)).swapped.isSome = true) : s.runCpy fold c src dst n lo width clr = .wait s true := by
  rw [runCpy_toTile hpkt hsrc hdst hunit hslot, if_pos (by rw [hrole]; rfl)]
  unfold State.copyToRing
  exact if_pos (by simpa using hbusy)

end

/-- The tag of a tile that a copy puts into a ring: tag 0 of the reading slot's space. -/
def State.ringTag (s : State) (key r : Nat) : Nat :=
  (((((s.getU key).conf.ringReader r).map (·.1)).bind fun slot => s.slotEnv key slot).map fun (e : SlotEnv) => e.hdr.tsp).getD 0 * 64

theorem ringTag_reader {s : State} {key r slot : Nat} {f : Fld} {e : SlotEnv} (hreader : (s.getU key).conf.ringReader r = some (slot, f))
    (henv : s.slotEnv key slot = some e) : s.ringTag key r = e.hdr.tsp * 64 := by
  simp only [State.ringTag, hreader, Option.map_some, Option.bind_some, henv, Option.getD_some]

/-- The tail of a ring while a copy fills it. -/
def State.ringFilled (s : State) (key d lo : Nat) (td : Tile) (tag : Nat) (src : Part) : State :=
  let u := (s.openOpTile key d lo tag).moveRange src (tilePart key td) (src.len / 8)
  (u.setTile key d ((u.tile key d).filledFrom none none)).padTile (idxOf key) td

theorem openOpTile_tile (s : State) (key d lo tag : Nat) : (s.openOpTile key d lo tag).tile key d =
    { s.tile key d with st := .filling, lo := lo, tag := tag, rows := 0, err := false, exc := false, sat := false, close := false, cause := 0 } := by
  unfold State.openOpTile
  dsimp only
  rw [setTile_tile_same]

theorem setTile_mem (s : State) (key n : Nat) (t : Tile) : (s.setTile key n t).mem = s.mem := by
  funext sp
  cases sp <;> rfl

theorem openOpTile_mem (s : State) (key d lo tag : Nat) : (s.openOpTile key d lo tag).mem =
    (s.storeMem .l (tileAddr (idxOf key) (s.tile key d) + 0) (zeroBytes 1024)).mem := by
  unfold State.openOpTile State.setTileBytes
  dsimp only
  rw [setTile_mem]

theorem setTile_clean (s : State) (key n : Nat) (t : Tile) (x : Space × Nat) (m : Nat) : (s.setTile key n t).Clean x m = s.Clean x m := rfl

theorem openOpTile_clean {s : State} {x : Space × Nat} {n : Nat} (h : s.Clean x n) (key d lo tag : Nat) : (s.openOpTile key d lo tag).Clean x n := by
  unfold State.openOpTile State.setTileBytes
  dsimp only
  rw [setTile_clean]
  exact (storeMem_steady s .l (tileAddr (idxOf key) (s.tile key d) + 0) (zeroBytes 1024)).clean h

section
variable {s : State} {fold n lo width : Nat} {c : EngCmd} {src dst : EngAddr} {clr : Bool} {key : Nat} (hpkt : c.pkt = none) (hsrc : src.space ≤ 2)
  (hdst : dst.space = 5) (hunit : s.engUnit c.cell c.entry c.ctx dst = some key) (hslot : (s.getU key).slotNo.isSome = true)
  (hrole : (s.tile key dst.addr).role = .op)
include hpkt hsrc hdst hunit hslot hrole

/-- A copy to the tail of a ring. -/
theorem runCpy_fillsRing {d : Nat} {td : Tile} (hd : s.tailTile key (s.tile key dst.addr).ring = d) (htd : s.tile key d = td) (hst : td.st = .empty)
    (hsw : td.swapped = none) (hn : n = td.size) (hclean : s.Clean (engPlace fold src) n) :
    s.runCpy fold c src dst n lo width clr =
      .done (((s.ringFilled key d lo td (s.ringTag key (s.tile key dst.addr).ring) (nearPart fold src n)).completeTail key (s.tile key dst.addr).ring
        (lo + width)).settleUnit key) := by
  have hmoved := foldl_copy_range (s := s.openOpTile key d lo (s.ringTag key (s.tile key dst.addr).ring)) (a := nearPart fold src n)
    (b := tilePart key td) hn rfl rfl (openOpTile_clean hclean ..)
  rw [runCpy_toTile hpkt hsrc hdst hunit hslot, if_pos (by rw [hrole]; rfl)]
  unfold State.copyToRing
  dsimp only
  rw [hd, htd, if_neg (by simp [hst, hsw])]
  unfold State.ringTag at hmoved ⊢
  rw [hmoved]
  rfl

end

theorem ringFilled_tile (s : State) (key d lo : Nat) (td : Tile) (tag : Nat) (src : Part) :
    let t := (s.ringFilled key d lo td tag src).tile key d
    t.st = .filling ∧ t.lo = lo ∧ t.tag = tag ∧ t.err = false ∧ t.exc = false ∧ t.sat = false := by
  have htile : (s.ringFilled key d lo td tag src).tile key d = ((s.openOpTile key d lo tag).tile key d).filledFrom none none := by
    unfold State.ringFilled
    dsimp only
    rw [tile_congr (State.padTile_units ..), setTile_tile_same, tile_congr (moveRange_steady ..).units]
  intro t
  rw [show t = _ from htile, openOpTile_tile]
  exact ⟨rfl, rfl, rfl, rfl, rfl, rfl⟩

/-- The bytes of the tail of a ring that a copy has filled. -/
theorem ringFilled_bytes (s : State) {key d : Nat} (lo : Nat) {td : Tile} (tag : Nat) {src : Part} (htd : s.tile key d = td) (hlen : src.len = td.size)
    (hapart : Apart (src.sp, src.addr) (.l, tileAddr (idxOf key) td) td.size td.size) :
    let s2 := s.ringFilled key d lo td tag src
    (∀ i, i < td.size → ((td.role = .op ∨ td.role = .plain) → ¬ (td.alt = true ∧ td.ty = .f32) → i % 64 < 48) →
      s2.memL.get (tileAddr (idxOf key) td + i) = (s.mem src.sp).get (src.addr + i)) ∧
    ∀ a, a < tileAddr (idxOf key) td ∨ tileAddr (idxOf key) td + td.size ≤ a → s2.memL.get a = s.memL.get a := by
  have hsize := td.size_le
  unfold State.ringFilled
  have hopen (sp : Space) (a : Nat) (ha : sp ≠ .l ∨ a < tileAddr (idxOf key) td ∨ tileAddr (idxOf key) td + td.size ≤ a) :
      ((s.openOpTile key d lo tag).mem sp).get a = (s.mem sp).get a := by
    rw [openOpTile_mem, htd, State.storeMem_mem]
    split
    next h =>
      subst h
      have ha := ha.resolve_left (not_not.2 rfl)
      rw [Memory.get_write, if_neg]
      simp only [zeroBytes, List.length_replicate]
      omega
    next => rfl
  obtain ⟨s0, hs0⟩ : ∃ s0, s0 = s.openOpTile key d lo tag := ⟨_, rfl⟩
  rw [← hs0] at hopen ⊢
  refine filled_bytes (s0 := s0) _ (x := (src.sp, src.addr)) ?_ (fun i hi => hopen _ _ ?_) (fun a ha => hopen .l a (.inr ha))
  · have hcopied := moveRange_copied s0 (a := src) (b := tilePart key td) (by rw [hlen]; exact td.size_mod)
      (by rcases hapart with h | h | h
          · exact .inl h
          · exact .inr (.inr (by rw [hlen]; exact h))
          · exact .inr (.inl (by simp only [tilePart]; omega)))
    rw [hlen] at hcopied ⊢
    exact hcopied
  · rcases hapart with h | h | h
    · exact .inl h
    · exact .inr (.inl (by omega))
    · exact .inr (.inr (by omega))

end Sys2Proof.Machine
end

section
/-!
PROOFS. Indexed copies, GATH and SCAT (O45).
-/

namespace Sys2Proof.Machine

theorem elementOk_congr {s t : State} (hunits : t.units = s.units) (hpads : t.pads = s.pads) (c : EngCmd) (e : EngAddr) (off n : Nat) :
    t.elementOk c e off n = s.elementOk c e off n := by
  have hentries : t.entriesOf = s.entriesOf := by unfold State.entriesOf; rw [hunits]
  have hentry : t.ctxEntry = s.ctxEntry := by unfold State.ctxEntry; rw [hentries]
  have htiles : t.tilesClear = s.tilesClear := by unfold State.tilesClear; rw [hentries]
  have hgetU : t.getU = s.getU := by unfold State.getU; rw [hunits]
  have hgetPad : t.getPad = s.getPad := by unfold State.getPad; rw [hpads]
  unfold State.elementOk State.engInBounds
  rw [hentry, htiles, hgetU, hgetPad]

theorem plus_space (e : EngAddr) (n : Nat) : (e.plus n).space = e.space := rfl

theorem engPlace_plus (fold : Nat) {e : EngAddr} (n : Nat) (h : e.space ≤ 2) :
    engPlace fold (e.plus n) = ((engPlace fold e).1, (engPlace fold e).2 + n) := by
  obtain ⟨space, f, row, addr⟩ := e
  obtain h | h | h : space = 0 ∨ space = 1 ∨ space = 2 := by simp only at h; omega
  all_goals
    subst h
    simp [engPlace, EngAddr.plus, lAddr, fAddr, Nat.add_assoc]

theorem readParts_near {s : State} {fold : Nat} {e : EngAddr} {n : Nat} (he : e.space ≤ 1) (hclean : s.Clean (engPlace fold e) n) :
    s.readParts [nearPart fold e n] = (s, s.readMem (engPlace fold e).1 (engPlace fold e).2 n, none) := by
  have hsp : (engPlace fold e).1 = .l ∨ (engPlace fold e).1 = .f := by
    obtain h | h : e.space = 0 ∨ e.space = 1 := by omega
    · exact .inl (by rw [engPlace, h]; rfl)
    · exact .inr (by rw [engPlace, h]; rfl)
  have hread := checkedRead_clean (sp := (engPlace fold e).1) (a := (engPlace fold e).2) hclean
  rw [spendMasks_near s hsp] at hread
  unfold State.readParts
  rw [List.foldl_cons, List.foldl_nil]
  dsimp only [nearPart]
  rw [hread]
  rfl

/-! ### One element -/

/-- The place n bytes behind another. -/
def placeAt (x : Space × Nat) (n : Nat) : Space × Nat := (x.1, x.2 + n)

theorem State.Clean.placeAt {s : State} {x : Space × Nat} {n k m : Nat} (h : s.Clean x n) (hm : 0 < m) (hk : k + m ≤ n) :
    s.Clean (placeAt x k) m := by
  obtain ⟨sp, a⟩ := x
  exact h.sub hm (Nat.le_add_right ..) (by omega)

theorem mul_succ_le_mul {i n : Nat} (k : Nat) (h : i < n) : k * i + k ≤ k * n := Nat.mul_succ k i ▸ Nat.mul_le_mul_left k h

section
variable {s0 s : State} {fold : Nat} {c : EngCmd} {sparse list dense : EngAddr} {esize : Nat} {gather : Bool} (hpkt : c.pkt = none)
  (hsparse : sparse.space ≤ 2) (hlist : list.space ≤ 1) (hdense : dense.space ≤ 2)
include hpkt hsparse hlist hdense

/-- Where element i stands at the indexed side, by the list as it stands. -/
def State.offsetAt (s : State) (fold : Nat) (list : EngAddr) (esize i : Nat) : Nat :=
  ofBytes (s.readMem (engPlace fold list).1 ((engPlace fold list).2 + 4 * i) 4) * esize

theorem elements_cons {i : Nat} {rest : List Nat} (hclean : s.Clean (placeAt (engPlace fold list) (4 * i)) 4) :
    State.elements s0 fold c sparse list dense esize gather (i :: rest) s =
      let off := s.offsetAt fold list esize i
      if s.elementOk c sparse off esize = false then .fault s (c.fault 0x17 (EngAddr.word (sparse.plus off)).toNat) true
      else State.elements s0 fold c sparse list dense esize gather rest
        (if gather then s.engCopy c [nearPart fold (sparse.plus off) esize] [nearPart fold (dense.plus (esize * i)) esize]
          else s.engCopy c [nearPart fold (dense.plus (esize * i)) esize] [nearPart fold (sparse.plus off) esize]) := by
  have hplace := engPlace_plus fold (4 * i) (show list.space ≤ 2 by omega)
  have hread := readParts_near (s := s) (fold := fold) (e := list.plus (4 * i)) (n := 4) hlist (by rw [hplace]; exact hclean)
  rw [hplace] at hread
  rw [State.elements, withRange_near _ _ fold false 4 _ hpkt (show (list.plus (4 * i)).space ≤ 2 by rw [plus_space]; omega), hread]
  dsimp only
  refine if_congr (by rw [Bool.not_eq_true']; rfl) rfl ?_
  rw [withRange_near _ _ fold _ esize _ hpkt (e := sparse.plus _) hsparse, withRange_near _ _ fold _ esize _ hpkt (e := dense.plus _) hdense]
  rfl

/-- Where element i is read and where it goes. -/
def elementFrom (fold : Nat) (sparse dense : EngAddr) (esize : Nat) (gather : Bool) (index : Nat → Nat) (i : Nat) : Space × Nat :=
  if gather then placeAt (engPlace fold sparse) (index i) else placeAt (engPlace fold dense) (esize * i)

def elementTo (fold : Nat) (sparse dense : EngAddr) (esize : Nat) (gather : Bool) (index : Nat → Nat) (i : Nat) : Space × Nat :=
  if gather then placeAt (engPlace fold dense) (esize * i) else placeAt (engPlace fold sparse) (index i)

/-- One element in bounds moves, and the others follow. -/
theorem elements_cons_ok {index : Nat → Nat} {i : Nat} {rest : List Nat} (h8 : esize % 8 = 0) (hclean : s.Clean (placeAt (engPlace fold list) (4 * i)) 4)
    (hindex : s.offsetAt fold list esize i = index i) (hok : s.elementOk c sparse (index i) esize = true)
    (hfrom : s.Clean (elementFrom fold sparse dense esize gather index i) esize)
    (hapart : Apart (elementFrom fold sparse dense esize gather index i) (elementTo fold sparse dense esize gather index i) esize esize) :
    ∃ t, State.elements s0 fold c sparse list dense esize gather (i :: rest) s = State.elements s0 fold c sparse list dense esize gather rest t ∧
      s.Copied t (elementFrom fold sparse dense esize gather index i) (elementTo fold sparse dense esize gather index i) esize := by
  have hcopied {x y : EngAddr} (hx : s.Clean (engPlace fold x) esize) (hxy : Apart (engPlace fold x) (engPlace fold y) esize esize) :
      s.Copied (s.engCopy c [nearPart fold x esize] [nearPart fold y esize]) (engPlace fold x) (engPlace fold y) esize :=
    engCopy_copied c (a := nearPart fold x esize) (b := nearPart fold y esize) rfl h8 rfl rfl rfl hx
      (by rcases hxy with h | h | h
          · exact .inl h
          · exact .inr (.inr h)
          · exact .inr (.inl (by simp only [nearPart]; omega)))
  have hs := engPlace_plus fold (index i) hsparse
  have hd := engPlace_plus fold (esize * i) hdense
  rw [elements_cons hpkt hsparse hlist hdense hclean, hindex]
  dsimp only
  rw [if_neg (by rw [hok]; decide)]
  refine ⟨_, rfl, ?_⟩
  cases gather
  · rw [elementFrom, elementTo, placeAt, placeAt] at *
    simp only [Bool.false_eq_true, if_false] at *
    rw [← hs, ← hd] at *
    exact hcopied hfrom hapart
  · rw [elementFrom, elementTo, placeAt, placeAt] at *
    simp only [if_true] at *
    rw [← hs, ← hd] at *
    exact hcopied hfrom hapart

/-- Elements whose list and sources no element overwrites arrive: the last of those that go to one place stays. -/
theorem elements_copied {index : Nat → Nat} (h8 : esize % 8 = 0) : ∀ {is : List Nat} {s : State}, is.Pairwise (· < ·) →
    (∀ i ∈ is, s.Clean (placeAt (engPlace fold list) (4 * i)) 4 ∧ s.offsetAt fold list esize i = index i ∧ s.elementOk c sparse (index i) esize = true ∧
      s.Clean (elementFrom fold sparse dense esize gather index i) esize) →
    (∀ i ∈ is, ∀ j ∈ is, Apart (placeAt (engPlace fold list) (4 * i)) (elementTo fold sparse dense esize gather index j) 4 esize ∧
      Apart (elementFrom fold sparse dense esize gather index i) (elementTo fold sparse dense esize gather index j) esize esize) →
    ∃ t, State.elements s0 fold c sparse list dense esize gather is s = .done t ∧
      (∀ i ∈ is, (∀ j ∈ is, i < j → Apart (elementTo fold sparse dense esize gather index i) (elementTo fold sparse dense esize gather index j) esize esize) →
        t.readMem (elementTo fold sparse dense esize gather index i).1 (elementTo fold sparse dense esize gather index i).2 esize =
          s.readMem (elementFrom fold sparse dense esize gather index i).1 (elementFrom fold sparse dense esize gather index i).2 esize) ∧
      (∀ sp a, (∀ i ∈ is, sp ≠ (elementTo fold sparse dense esize gather index i).1 ∨ a < (elementTo fold sparse dense esize gather index i).2 ∨
        (elementTo fold sparse dense esize gather index i).2 + esize ≤ a) → (t.mem sp).get a = (s.mem sp).get a) ∧
      ∀ sp, (∀ i ∈ is, sp ≠ (elementTo fold sparse dense esize gather index i).1) → t.mem sp = s.mem sp := by
  intro is
  induction is with
  | nil => exact fun _ _ _ => ⟨_, State.elements.eq_1 .., fun _ h => absurd h List.not_mem_nil, fun _ _ _ => rfl, fun _ _ => rfl⟩
  | cons i rest ih =>
    intro s hsorted hready hapart
    obtain ⟨hfirst, hsorted⟩ := List.pairwise_cons.1 hsorted
    obtain ⟨hclean, hindex, hok, hfrom⟩ := hready i List.mem_cons_self
    have hmem {j : Nat} (hj : j ∈ rest) : j ∈ i :: rest := List.mem_cons_of_mem _ hj
    obtain ⟨u, hstep, hcopied⟩ := elements_cons_ok (s0 := s0) (rest := rest) hpkt hsparse hlist hdense h8 hclean hindex hok hfrom
      (hapart i List.mem_cons_self i List.mem_cons_self).2
    have hready' (j : Nat) (hj : j ∈ rest) : u.Clean (placeAt (engPlace fold list) (4 * j)) 4 ∧ u.offsetAt fold list esize j = index j ∧
        u.elementOk c sparse (index j) esize = true ∧ u.Clean (elementFrom fold sparse dense esize gather index j) esize := by
      obtain ⟨hclean, hindex, hok, hfrom⟩ := hready j (hmem hj)
      have hlist := hcopied.readMem (hapart j (hmem hj) i List.mem_cons_self).1
      refine ⟨hcopied.steady.clean hclean, ?_, ?_, hcopied.steady.clean hfrom⟩
      · rw [← hindex]
        exact congrArg (fun bs => ofBytes bs * esize) hlist
      · rw [elementOk_congr hcopied.steady.units hcopied.steady.pads, hok]
    obtain ⟨t, hrun, hreads, hframe, hspaces⟩ := ih hsorted hready' fun j hj k hk => hapart j (hmem hj) k (hmem hk)
    refine ⟨t, hstep.trans hrun, fun j hj hlater => ?_, fun sp a ha => ?_, fun sp hsp => ?_⟩
    · rcases List.mem_cons.1 hj with rfl | hj
      · refine .trans (readMem_congr fun x hx => hframe _ _ fun k hk => ?_) hcopied.reads
        rcases hlater k (hmem hk) (hfirst k hk) with h | h | h
        · exact .inl h
        · exact .inr (.inl (by omega))
        · exact .inr (.inr (by omega))
      · rw [hreads j hj fun k hk => hlater k (hmem hk)]
        exact hcopied.readMem (hapart j (hmem hj) i List.mem_cons_self).2
    · rw [hframe sp a fun k hk => ha k (hmem hk)]
      exact hcopied.get (ha i List.mem_cons_self)
    · rw [hspaces sp fun k hk => hsp k (hmem hk)]
      exact hcopied.spaces sp (hsp i List.mem_cons_self)

/-- The first element out of its bounds ends the command (R313). -/
theorem elements_outOfBounds {count : Nat} (hcount : 0 < count) (hclean : s.Clean (engPlace fold list) (4 * count))
    (hout : s.elementOk c sparse (s.offsetAt fold list esize 0) esize = false) :
    ∃ f : FaultRec, f.code = 0x17 ∧ State.elements s0 fold c sparse list dense esize gather (List.range count) s = .fault s f true := by
  obtain ⟨n, rfl⟩ := Nat.exists_eq_add_of_lt hcount
  rw [Nat.zero_add, List.range_succ_eq_map, elements_cons hpkt hsparse hlist hdense (hclean.placeAt (by decide) (by omega))]
  exact ⟨_, rfl, if_pos hout⟩

end

section
variable {s : State} {fold q : Nat} {c : EngCmd} {sparse list dense : EngAddr} {count esize : Nat} (hpkt : c.pkt = none)
  (hsparse : sparse.space ≤ 2) (hlist : list.space ≤ 1) (hdense : dense.space ≤ 2) (h8 : esize % 8 = 0)
  (hclean : s.Clean (engPlace fold list) (4 * count))
  (hok : ∀ i, i < count → s.elementOk c sparse (s.offsetAt fold list esize i) esize = true)
include hpkt hsparse hlist hdense h8 hclean hok

/-- GATH, where its elements do not overlap what it writes (R313). -/
theorem gath_performs (hdl : Apart (engPlace fold dense) (engPlace fold list) (esize * count) (4 * count))
    (hfrom : ∀ i, i < count → s.Clean (placeAt (engPlace fold sparse) (s.offsetAt fold list esize i)) esize ∧
      Apart (engPlace fold dense) (placeAt (engPlace fold sparse) (s.offsetAt fold list esize i)) (esize * count) esize) :
    ∃ t, State.elements s fold c sparse list dense esize true (List.range count) s = .done t ∧
      (∀ i, i < count → t.readMem (engPlace fold dense).1 ((engPlace fold dense).2 + esize * i) esize =
        s.readMem (engPlace fold sparse).1 ((engPlace fold sparse).2 + s.offsetAt fold list esize i) esize) ∧
      (∀ a, a < (engPlace fold dense).2 ∨ (engPlace fold dense).2 + esize * count ≤ a →
        (t.mem (engPlace fold dense).1).get a = (s.mem (engPlace fold dense).1).get a) ∧ ∀ sp, sp ≠ (engPlace fold dense).1 → t.mem sp = s.mem sp := by
  obtain ⟨t, hrun, hreads, hframe, hspaces⟩ := elements_copied (s0 := s) (gather := true) (index := s.offsetAt fold list esize) hpkt hsparse hlist
    hdense h8 (is := List.range count) (s := s) List.pairwise_lt_range
    (fun i hi => by
      have hi := List.mem_range.1 hi
      exact ⟨hclean.placeAt (by decide) (mul_succ_le_mul 4 hi), rfl, hok i hi, (hfrom i hi).1⟩)
    (fun i hi j hj => by
      have hi := List.mem_range.1 hi
      have hj := List.mem_range.1 hj
      have h4 := mul_succ_le_mul 4 hi
      have he := mul_succ_le_mul esize hj
      refine ⟨?_, ?_⟩
      · rcases hdl with h | h | h
        · exact .inl h.symm
        · exact .inr (.inr (by simp only [elementTo, placeAt, if_true]; omega))
        · exact .inr (.inl (by simp only [elementTo, placeAt, if_true]; omega))
      · rcases (hfrom i hi).2 with h | h | h
        · exact .inl h.symm
        · exact .inr (.inr (by simp only [elementTo, elementFrom, placeAt, if_true] at h ⊢; omega))
        · exact .inr (.inl (by simp only [elementTo, elementFrom, placeAt, if_true] at h ⊢; omega)))
  refine ⟨t, hrun, fun i hi => hreads i (List.mem_range.2 hi) fun j hj hij => ?_, fun a ha => hframe _ a fun i hi => ?_, fun sp hsp => hspaces sp fun _ _ => hsp⟩
  · have := mul_succ_le_mul esize hij
    exact .inr (.inl (by simp only [elementTo, placeAt, if_true]; omega))
  · have := mul_succ_le_mul esize (List.mem_range.1 hi)
    simp only [elementTo, placeAt, if_true]
    omega

/-- SCAT, where what it writes overlaps neither its list nor its source (R313). -/
theorem scat_performs (hdense' : s.Clean (engPlace fold dense) (esize * count))
    (hto : ∀ i, i < count → Apart (placeAt (engPlace fold sparse) (s.offsetAt fold list esize i)) (engPlace fold list) esize (4 * count) ∧
      Apart (placeAt (engPlace fold sparse) (s.offsetAt fold list esize i)) (engPlace fold dense) esize (esize * count)) :
    ∃ t, State.elements s fold c sparse list dense esize false (List.range count) s = .done t ∧
      (∀ i, i < count → (∀ j, i < j → j < count → s.offsetAt fold list esize i + esize ≤ s.offsetAt fold list esize j ∨
          s.offsetAt fold list esize j + esize ≤ s.offsetAt fold list esize i) →
        t.readMem (engPlace fold sparse).1 ((engPlace fold sparse).2 + s.offsetAt fold list esize i) esize =
          s.readMem (engPlace fold dense).1 ((engPlace fold dense).2 + esize * i) esize) ∧
      (∀ a, (∀ i, i < count → a < (engPlace fold sparse).2 + s.offsetAt fold list esize i ∨
          (engPlace fold sparse).2 + s.offsetAt fold list esize i + esize ≤ a) →
        (t.mem (engPlace fold sparse).1).get a = (s.mem (engPlace fold sparse).1).get a) ∧ ∀ sp, sp ≠ (engPlace fold sparse).1 → t.mem sp = s.mem sp := by
  have hsource (i : Nat) (hi : i < count) : s.Clean (placeAt (engPlace fold dense) (esize * i)) esize := by
    rcases Nat.eq_zero_or_pos esize with rfl | hpos
    · simpa [placeAt] using hdense'
    · exact hdense'.placeAt hpos (mul_succ_le_mul esize hi)
  obtain ⟨t, hrun, hreads, hframe, hspaces⟩ := elements_copied (s0 := s) (gather := false) (index := s.offsetAt fold list esize) hpkt hsparse hlist
    hdense h8 (is := List.range count) (s := s) List.pairwise_lt_range
    (fun i hi => by
      have hi := List.mem_range.1 hi
      exact ⟨hclean.placeAt (by decide) (mul_succ_le_mul 4 hi), rfl, hok i hi, hsource i hi⟩)
    (fun i hi j hj => by
      have hi := List.mem_range.1 hi
      have hj := List.mem_range.1 hj
      have h4 := mul_succ_le_mul 4 hi
      have he := mul_succ_le_mul esize hi
      obtain ⟨hlist, hsrc⟩ := hto j hj
      refine ⟨?_, ?_⟩
      · rcases hlist with h | h | h
        · exact .inl h.symm
        · exact .inr (.inr (by simp only [elementTo, placeAt, Bool.false_eq_true, if_false] at h ⊢; omega))
        · exact .inr (.inl (by simp only [elementTo, placeAt, Bool.false_eq_true, if_false] at h ⊢; omega))
      · rcases hsrc with h | h | h
        · exact .inl h.symm
        · exact .inr (.inr (by simp only [elementTo, elementFrom, placeAt, Bool.false_eq_true, if_false] at h ⊢; omega))
        · exact .inr (.inl (by simp only [elementTo, elementFrom, placeAt, Bool.false_eq_true, if_false] at h ⊢; omega)))
  refine ⟨t, hrun, fun i hi hlater => hreads i (List.mem_range.2 hi) fun j hj hij => ?_, fun a ha => hframe _ a fun i hi => ?_,
    fun sp hsp => hspaces sp fun _ _ => hsp⟩
  · have := hlater j hij (List.mem_range.1 hj)
    refine .inr ?_
    simp only [elementTo, placeAt, Bool.false_eq_true, if_false]
    omega
  · exact .inr (ha i (List.mem_range.1 hi))

end

end Sys2Proof.Machine
end

section
/-!
PROOFS. Collectives (O45).
-/

namespace Sys2Proof.Machine

/-! ### Reading the sources -/

/-- Units that can be read give their bytes and no cause. -/
def goodUnits (us : List (List Byte × Option Nat)) : Prop := ∀ u ∈ us, u.1.length = 8 ∧ u.2 = none

/-- The units of a range as they stand. -/
def State.unitBytes (s : State) (x : Space × Nat) (len : Nat) : List (List Byte × Option Nat) :=
  (List.range (len / 8)).map fun i => (s.readMem x.1 (x.2 + 8 * i) 8, none)

theorem unitBytes_good (s : State) (x : Space × Nat) (len : Nat) : goodUnits (s.unitBytes x len) := by
  intro u hu
  obtain ⟨i, -, rfl⟩ := List.mem_map.1 hu
  exact ⟨readMem_length .., rfl⟩

/-- One unit of a source is read. -/
def readNext (acc : State × List (List Byte × Option Nat)) (p : Part) : State × List (List Byte × Option Nat) :=
  ((acc.1.readUnit p).1, acc.2 ++ [(acc.1.readUnit p).2])

theorem foldl_readNext_clean {l : List Part} : ∀ {s : State} {acc : List (List Byte × Option Nat)},
    (∀ p ∈ l, p.bad = false ∧ 0 < p.len ∧ s.Clean (p.sp, p.addr) p.len) →
    ∃ t, l.foldl readNext (s, acc) = (t, acc ++ l.map fun p => (s.readMem p.sp p.addr p.len, none)) ∧ s.Steady t ∧ t.mem = s.mem := by
  induction l with
  | nil => exact fun _ => ⟨_, by simp, .refl _, rfl⟩
  | cons p l ih =>
    intro s acc h
    obtain ⟨hbad, hlen, hclean⟩ := h p List.mem_cons_self
    obtain ⟨hsteady, hmem⟩ := spendMasks_steady s p.sp p.addr p.len
    obtain ⟨t, ht, htsteady, htmem⟩ := ih (s := s.spendMasks p.sp p.addr p.len) (acc := acc ++ [(s.readMem p.sp p.addr p.len, none)]) fun y hy => by
      obtain ⟨hbad, hlen, hclean⟩ := h y (List.mem_cons_of_mem _ hy)
      exact ⟨hbad, hlen, hsteady.clean hclean⟩
    refine ⟨t, ?_, hsteady.trans htsteady, htmem.trans hmem⟩
    have hread (y : Part) : (s.spendMasks p.sp p.addr p.len).readMem y.sp y.addr y.len = s.readMem y.sp y.addr y.len := by
      rw [State.readMem, State.readMem, hmem]
    simp only [hread] at ht
    rw [List.foldl_cons, readNext, readUnit_clean hbad hlen hclean, ht, List.map_cons, List.append_assoc]
    rfl

theorem readUnits_near {s : State} {fold : Nat} {e : EngAddr} {len : Nat} (hclean : s.Clean (engPlace fold e) len) :
    ∃ t, s.readUnits [nearPart fold e len] = (t, s.unitBytes (engPlace fold e) len) ∧ s.Steady t ∧ t.mem = s.mem := by
  obtain ⟨t, ht, hsteady, hmem⟩ := foldl_readNext_clean (l := unitsOf [nearPart fold e len]) (s := s) (acc := []) fun p hp => by
    rw [unitsOf_single] at hp
    obtain ⟨i, hi, rfl⟩ := List.mem_map.1 hp
    have hi : i < len / 8 := List.mem_range.1 hi
    exact ⟨rfl, Nat.succ_pos 7, hclean.placeAt (k := 8 * i) (m := 8) (Nat.succ_pos 7) (by omega)⟩
  refine ⟨t, ht.trans ?_, hsteady, hmem⟩
  rw [unitsOf_single, List.map_map, List.nil_append]
  rfl

/-- The range that a member reads, the range that it writes. -/
def Member.from (m : Member) : Space × Nat := engPlace m.1 m.2.collSrc
def Member.goal (m : Member) : Space × Nat := engPlace m.1 m.2.collDst

theorem readSources_near {s0 : State} {len : Nat} (k : State → List (List (List Byte × Option Nat)) → EngRes) {ms : List Member} :
    ∀ {s : State} {acc : List (List (List Byte × Option Nat))}, (∀ m ∈ ms, m.2.pkt = none ∧ m.2.collSrc.space ≤ 2 ∧ s.Clean m.from len) →
    ∃ t, State.readSources s0 len k ms s acc = k t (acc ++ ms.map fun m => s.unitBytes m.from len) ∧ s.Steady t ∧ t.mem = s.mem := by
  induction ms with
  | nil => exact fun _ => ⟨_, by rw [State.readSources, List.map_nil, List.append_nil], .refl _, rfl⟩
  | cons m ms ih =>
    intro s acc h
    obtain ⟨hpkt, hspace, hclean⟩ := h m List.mem_cons_self
    obtain ⟨u, hu, husteady, humem⟩ := readUnits_near (fold := m.1) (e := m.2.collSrc) hclean
    obtain ⟨t, ht, htsteady, htmem⟩ := ih (s := u) (acc := acc ++ [s.unitBytes m.from len]) fun n hn => by
      obtain ⟨hpkt, hspace, hclean⟩ := h n (List.mem_cons_of_mem _ hn)
      exact ⟨hpkt, hspace, husteady.clean hclean⟩
    refine ⟨t, ?_, husteady.trans htsteady, htmem.trans humem⟩
    have hbytes (n : Member) : u.unitBytes n.from len = s.unitBytes n.from len := by simp only [State.unitBytes, State.readMem, humem]
    simp only [hbytes] at ht
    obtain ⟨f, c⟩ := m
    rw [State.readSources, withRange_near _ _ f false len _ hpkt hspace]
    dsimp only
    rw [hu]
    refine ht.trans ?_
    rw [List.map_cons, List.append_assoc]
    rfl

/-! ### The sum along the tree -/

theorem addUnits_good {a b : List (List Byte × Option Nat)} (ha : goodUnits a) (hb : goodUnits b) : goodUnits (addUnits a b) := by
  intro u hu
  obtain ⟨⟨⟨x, c⟩, y, d⟩, hxy, rfl⟩ := List.mem_map.1 hu
  obtain ⟨-, hc⟩ := ha _ (List.of_mem_zip hxy).1
  obtain ⟨-, hd⟩ := hb _ (List.of_mem_zip hxy).2
  dsimp only at hc hd ⊢
  refine ⟨?_, by rw [hc, hd]; rfl⟩
  rw [List.length_append, toBytes_length, toBytes_length]

theorem treeSum_good {l : List (List (List Byte × Option Nat))} (hl : ∀ us ∈ l, goodUnits us) : ∀ t : FoldTree, goodUnits (treeSum l t)
  | .leaf i => by
    rw [treeSum, nthD]
    cases h : l[i]? with
    | none => exact fun _ h => absurd h List.not_mem_nil
    | some us => exact hl us (List.mem_of_getElem? h)
  | .node a b => addUnits_good (treeSum_good hl a) (treeSum_good hl b)

/-! ### Writing the destinations -/

/-- t is s with bytes standing at a place: all other bytes are those of s. -/
structure State.Written (s t : State) (y : Space × Nat) (bs : List Byte) : Prop where
  steady : s.Steady t
  bytes : ∀ i < bs.length, (t.mem y.1).get (y.2 + i) = bs.getD i 0
  frame : ∀ sp a, sp ≠ y.1 ∨ a < y.2 ∨ y.2 + bs.length ≤ a → (t.mem sp).get a = (s.mem sp).get a

theorem State.Written.nil (s : State) (y : Space × Nat) : s.Written s y [] := ⟨.refl s, fun _ h => absurd h (Nat.not_lt_zero _), fun _ _ _ => rfl⟩

/-- Bytes, and those behind them. -/
theorem State.Written.append {s t u : State} {y : Space × Nat} {a b : List Byte} (ha : s.Written t y a) (hb : t.Written u (placeAt y a.length) b) :
    s.Written u y (a ++ b) := by
  refine ⟨ha.steady.trans hb.steady, fun i hi => ?_, fun sp x hx => ?_⟩
  · by_cases h : i < a.length
    · rw [List.getD_append _ _ _ _ h, ← ha.bytes i h]
      exact hb.frame _ _ (.inr (.inl (by simp only [placeAt]; omega)))
    · rw [List.length_append] at hi
      rw [List.getD_append_right _ _ _ _ (by omega), ← hb.bytes _ (by omega)]
      simp only [placeAt]
      rw [show y.2 + a.length + (i - a.length) = y.2 + i by omega]
  · rw [List.length_append] at hx
    rw [hb.frame sp x (hx.imp_right fun h => by simp only [placeAt]; omega), ha.frame sp x (hx.imp_right fun h => by omega)]

theorem storeMem_written (s : State) (y : Space × Nat) (bs : List Byte) : s.Written (s.storeMem y.1 y.2 bs) y bs := by
  refine ⟨storeMem_steady .., fun i hi => ?_, fun sp a ha => ?_⟩
  · rw [storeMem_mem_same, Memory.get_write, if_pos (by omega), Nat.add_sub_cancel_left]
  · rw [State.storeMem_mem]
    split
    next h =>
      subst h
      have ha := ha.resolve_left (not_not.2 rfl)
      rw [Memory.get_write, if_neg (by omega)]
    next => rfl

theorem State.Written.readMem {s t : State} {y : Space × Nat} {bs : List Byte} (h : s.Written t y bs) : t.readMem y.1 y.2 bs.length = bs := by
  refine List.ext_getElem? fun i => ?_
  by_cases hi : i < bs.length
  · rw [State.readMem, Memory.read_getElem _ _ _ _ hi, h.bytes i hi, List.getElem?_eq_getElem hi, List.getD_eq_getElem _ _ hi]
  · rw [List.getElem?_eq_none (by rw [readMem_length]; omega), List.getElem?_eq_none (by omega)]

/-- One unit of a result is written. -/
def putNext (m : Moved) (x : Part × List Byte × Option Nat) : Moved := m.put x.1 x.2.1 x.2.2

theorem unit_succ (p : Part) (i : Nat) : p.unit (i + 1) = ({ p with addr := p.addr + 8 } : Part).unit i := by
  unfold Part.unit
  congr 1
  simp only
  omega

theorem foldl_putNext_good {us : List (List Byte × Option Nat)} : ∀ {p : Part} {m : Moved}, p.bad = false → goodUnits us →
    ∃ t, (((List.range us.length).map p.unit).zip us).foldl putNext m = { m with s := t } ∧ m.s.Written t (p.sp, p.addr) (us.flatMap (·.1)) := by
  induction us with
  | nil => exact fun _ _ => ⟨_, rfl, .nil ..⟩
  | cons x us ih =>
    intro p m hbad hgood
    obtain ⟨bs, k⟩ := x
    obtain ⟨hlen, rfl⟩ : bs.length = 8 ∧ k = none := hgood _ List.mem_cons_self
    have hput : putNext m (p.unit 0, bs, none) = { m with s := m.s.storeMem p.sp p.addr bs } := by
      simp [putNext, Moved.put, Part.unit, hbad]
    obtain ⟨t, ht, hwritten⟩ := ih (p := { p with addr := p.addr + 8 }) (m := { m with s := m.s.storeMem p.sp p.addr bs }) hbad
      fun u hu => hgood u (List.mem_cons_of_mem _ hu)
    refine ⟨t, ?_, ?_⟩
    · rw [List.length_cons, List.range_succ_eq_map, List.map_cons, List.map_map, List.zip_cons_cons, List.foldl_cons, hput,
        List.map_congr_left (f := p.unit ∘ Nat.succ) (g := ({ p with addr := p.addr + 8 } : Part).unit) fun i _ => unit_succ p i, ht]
    · rw [List.flatMap_cons]
      refine (storeMem_written m.s (p.sp, p.addr) bs).append ?_
      rw [hlen]
      exact hwritten

section
variable {s0 : State} {len : Nat} {us : List (List Byte × Option Nat)} (h8 : len % 8 = 0) (hgood : goodUnits us) (hus : us.length = len / 8)
include h8 hgood hus

omit h8 in
theorem putUnits_near (s : State) (fold : Nat) (e : EngAddr) (c : EngCmd) :
    s.Written ((((unitsOf [nearPart fold e len]).zip us).foldl (fun (m : Moved) (p, bs, k) => m.put p bs k) { s := s }).finish c [nearPart fold e len])
      (engPlace fold e) (us.flatMap (·.1)) := by
  obtain ⟨t, ht, hsteady, hbytes, hframe⟩ := foldl_putNext_good (p := nearPart fold e len) (m := { s := s }) rfl hgood
  have hfold : ((unitsOf [nearPart fold e len]).zip us).foldl (fun (m : Moved) (p, bs, k) => m.put p bs k) { s := s } = { s := t } := by
    rw [unitsOf_single]
    rw [hus] at ht
    exact ht
  rw [hfold, finish_clean rfl rfl (fun p hp => by rw [List.mem_singleton.1 hp]; rfl)]
  obtain ⟨hword, hmem⟩ := wroteBy_steady t ([nearPart fold e len].filter fun p => !p.bad) (t.writerOf c)
  refine ⟨hsteady.trans hword, fun i hi => ?_, fun sp a ha => ?_⟩
  · rw [hmem]; exact hbytes i hi
  · rw [hmem]; exact hframe sp a ha

omit h8 hgood in
theorem flatMap_length (hgood : goodUnits us) (h8 : len % 8 = 0) : (us.flatMap (·.1)).length = len := by
  have hsum : (us.flatMap (·.1)).length = 8 * us.length := by
    clear hus
    induction us with
    | nil => rfl
    | cons x us ih =>
      rw [List.flatMap_cons, List.length_append, (hgood x List.mem_cons_self).1, ih fun u hu => hgood u (List.mem_cons_of_mem _ hu), List.length_cons]
      omega
  omega

/-- The members' destinations, none of which overlaps another, have the result. -/
theorem writeDests_near {ms : List Member} : ∀ {s : State}, (∀ m ∈ ms, m.2.pkt = none ∧ m.2.collDst.space ≤ 2) →
    ms.Pairwise (fun m k => Apart m.goal k.goal len len) →
    ∃ t, State.writeDests s0 len us ms s = .done t ∧ (∀ m ∈ ms, t.readMem m.goal.1 m.goal.2 len = us.flatMap (·.1)) ∧
      ∀ sp x, (∀ m ∈ ms, sp ≠ m.goal.1 ∨ x < m.goal.2 ∨ m.goal.2 + len ≤ x) → (t.mem sp).get x = (s.mem sp).get x := by
  have hlen := flatMap_length hus hgood h8
  induction ms with
  | nil => exact fun _ _ => ⟨_, rfl, fun _ h => absurd h List.not_mem_nil, fun _ _ _ => rfl⟩
  | cons m ms ih =>
    intro s hnear hapart
    obtain ⟨hfirst, hrest⟩ := List.pairwise_cons.1 hapart
    obtain ⟨hpkt, hspace⟩ := hnear m List.mem_cons_self
    obtain ⟨f, c⟩ := m
    have hwritten := putUnits_near hgood hus s f c.collDst c
    obtain ⟨t, ht, hreads, hframe⟩ := ih (fun k hk => hnear k (List.mem_cons_of_mem _ hk)) hrest
    refine ⟨t, ?_, fun k hk => ?_, fun sp x hx => ?_⟩
    · rw [State.writeDests, withRange_near _ _ f true len _ hpkt hspace]
      exact ht
    · rcases List.mem_cons.1 hk with rfl | hk
      · have hread := hwritten.readMem
        rw [hlen] at hread
        refine .trans (readMem_congr fun x hx => hframe _ _ fun k hk => ?_) hread
        rcases hfirst k hk with h | h | h
        · exact .inl h
        · exact .inr (.inl (by simp only [Member.goal] at h ⊢; omega))
        · exact .inr (.inr (by simp only [Member.goal] at h ⊢; omega))
      · exact hreads k hk
    · rw [hframe sp x fun k hk => hx k (List.mem_cons_of_mem _ hk)]
      exact hwritten.frame sp x (by rw [hlen]; exact hx _ List.mem_cons_self)

end

/-! ### A collective -/

/-- The number of an operation in what the members must agree in. -/
def collNum : CollOp → Nat
  | .bcast => 0
  | .reduce => 1
  | .allreduce => 2

/-- The member that a broadcast reads, or a reduction writes. -/
def rootMember (ms : List Member) (root : Nat) : List Member := (ms.drop root).take 1

/-- What a collective gives every destination: the root's units, or the sum along the tree (R314). -/
def State.collSum (s : State) (op : CollOp) (len root pad : Nat) (ms : List Member) : List (List Byte × Option Nat) :=
  if op = .bcast then ((rootMember ms root).map fun m => s.unitBytes m.from len).headD []
  else treeSum (ms.map fun m => s.unitBytes m.from len) (s.getPad pad).conf.collTree

def collTargets (op : CollOp) (root : Nat) (ms : List Member) : List Member := if op = .reduce then rootMember ms root else ms

theorem rootMember_subset {ms : List Member} {root : Nat} {m : Member} (h : m ∈ rootMember ms root) : m ∈ ms := List.mem_of_mem_drop (List.mem_of_mem_take h)

theorem collTargets_subset {op : CollOp} {root : Nat} {ms : List Member} {m : Member} (h : m ∈ collTargets op root ms) : m ∈ ms := by
  unfold collTargets at h
  split at h
  · exact rootMember_subset h
  · exact h

theorem collSum_good (s : State) (op : CollOp) (len root pad : Nat) (ms : List Member) : goodUnits (s.collSum op len root pad ms) := by
  unfold State.collSum
  split
  · cases rootMember ms root with
    | nil => exact fun _ h => absurd h List.not_mem_nil
    | cons m l => exact unitBytes_good _ _ _
  · refine treeSum_good (fun us hus => ?_) _
    obtain ⟨m, -, rfl⟩ := List.mem_map.1 hus
    exact unitBytes_good _ _ _

section
variable {s : State} {fold q : Nat} {c : EngCmd} {ms : List Member} {op : CollOp} {src dst : EngAddr} {len root : Nat}

/-- The members' pages have come. -/
def State.collReady (s : State) (pad : Nat) (ms : List Member) : State := ms.foldl (fun u m => u.pageCame pad (engWait m.2.id)) s

theorem runColl_mismatch (h : ∃ m ∈ ms, m.2.collKey ≠ c.collKey) :
    ∃ f : FaultRec, f.code = 6 ∧ s.runColl fold c q ms = .fault (s.collReady c.pad ms) f false := by
  have hany : (ms.any fun m => m.2.collKey != c.collKey) = true := by simpa using h
  unfold State.runColl
  exact ⟨_, rfl, if_pos hany⟩

theorem runColl_matched (hop : c.op = .coll op src dst len root) (h : ∀ m ∈ ms, m.2.collKey = c.collKey) : s.runColl fold c q ms =
    let u := s.collReady c.pad ms
    if op = .bcast then State.readSources u len (fun s' l => State.writeDests u len (l.headD []) ms s') (rootMember ms root) u []
    else State.readSources u len (fun s' l => State.writeDests u len (treeSum l (u.getPad c.pad).conf.collTree) (collTargets op root ms) s') ms u [] := by
  have hkey : c.collKey = (collNum op, len, root) := by rw [EngCmd.collKey, hop]; cases op <;> rfl
  rw [hkey] at h
  have hnone : ¬ (ms.any fun m => m.2.collKey != (collNum op, len, root)) = true := by
    rw [Bool.not_eq_true, List.any_eq_false]
    exact fun m hm => by simp [h m hm]
  unfold State.runColl
  extract_lets u
  rw [hkey]
  refine (if_neg hnone).trans ?_
  cases op <;> rfl

/-- A matched collective gives every destination the root's bytes or the sum. -/
theorem runColl_performs {u : State} (hu : s.collReady c.pad ms = u) (hop : c.op = .coll op src dst len root)
    (hkey : ∀ m ∈ ms, m.2.collKey = c.collKey)
    (hnear : ∀ m ∈ ms, m.2.pkt = none ∧ m.2.collSrc.space ≤ 2 ∧ m.2.collDst.space ≤ 2 ∧ u.Clean m.from len) (h8 : len % 8 = 0)
    (hlen : (u.collSum op len root c.pad ms).length = len / 8)
    (hapart : (collTargets op root ms).Pairwise fun m k => Apart m.goal k.goal len len) :
    ∃ t, s.runColl fold c q ms = .done t ∧
      (∀ m ∈ collTargets op root ms, t.readMem m.goal.1 m.goal.2 len = (u.collSum op len root c.pad ms).flatMap (·.1)) ∧
      ∀ sp x, (∀ m ∈ collTargets op root ms, sp ≠ m.goal.1 ∨ x < m.goal.2 ∨ m.goal.2 + len ≤ x) → (t.mem sp).get x = (u.mem sp).get x := by
  rw [runColl_matched hop hkey, hu]
  have hsources {l : List Member} (hl : ∀ m ∈ l, m ∈ ms) (m : Member) (hm : m ∈ l) : m.2.pkt = none ∧ m.2.collSrc.space ≤ 2 ∧ u.Clean m.from len := by
    obtain ⟨hpkt, hsrc, -, hclean⟩ := hnear m (hl m hm)
    exact ⟨hpkt, hsrc, hclean⟩
  have hdests (m : Member) (hm : m ∈ collTargets op root ms) : m.2.pkt = none ∧ m.2.collDst.space ≤ 2 := by
    obtain ⟨hpkt, -, hdst, -⟩ := hnear m (collTargets_subset hm)
    exact ⟨hpkt, hdst⟩
  have hgood := collSum_good u op len root c.pad ms
  have hwrites {v : State} (hv : v.mem = u.mem) := writeDests_near (s0 := u) h8 hgood hlen (s := v) hdests hapart
  dsimp only
  unfold State.collSum at *
  split
  next hb =>
    subst hb
    obtain ⟨v, hread, -, hv⟩ := readSources_near (s0 := u) (fun s' l => State.writeDests u len (l.headD []) ms s') (acc := [])
      (hsources (l := rootMember ms root) fun _ => rootMember_subset)
    obtain ⟨t, ht, hreads, hframe⟩ := hwrites hv
    rw [hv] at hframe
    exact ⟨t, hread.trans ht, hreads, hframe⟩
  next hb =>
    obtain ⟨v, hread, -, hv⟩ := readSources_near (s0 := u) (fun s' l =>
      State.writeDests u len (treeSum l (u.getPad c.pad).conf.collTree) (collTargets op root ms) s') (acc := []) (hsources (l := ms) fun _ h => h)
    obtain ⟨t, ht, hreads, hframe⟩ := hwrites hv
    rw [hv] at hframe
    rw [if_neg hb] at ht hreads
    exact ⟨t, hread.trans ht, hreads, hframe⟩

end

end Sys2Proof.Machine
end

section
/-!
PROOFS. Engine commands perform (O45).
-/

namespace Sys2Proof.Machine

section
variable {s : State} {fold q : Nat} {c : EngCmd} {op : CollOp} {src dst : EngAddr} {len root : Nat} (hop : c.op = .coll op src dst len root)
include hop

/-- A collective that its own fold has started. -/
def State.collStarted (s : State) (fold q : Nat) (c : EngCmd) : State :=
  (s.engReady fold c).updCmd (queueKey fold q) c.id fun c => { c with started := true }

theorem exec_engineOpStart_coll (hopen : firstOpen (amGet s.engines (queueKey fold q) []) = some c) (hgo : c.started = true ∨ s.engWaits fold c = false)
    (hpkt : c.pkt = none) : exec (.engineOpStart fold q) s =
      .next ((s.collStarted fold q c).cmdEnd fold q c ((s.collStarted fold q c).runOp fold q c)) := by
  rw [exec_engineOpStart_goes hopen hgo hpkt, hop]
  rfl

theorem runOp_coll : s.runOp fold q c = match s.members c.pad q with
    | some ms => if ms.any fun m => s.engFull m.1 m.2 then .wait s false else (ms.foldl (fun s m => s.engRequest m.1 m.2) s).runColl fold c q ms
    | none => .wait s (s.noMember c.pad q) := by
  unfold State.runOp
  rw [hop] <;> rfl

theorem runOp_coll_noMember (hms : s.members c.pad q = none) : s.runOp fold q c = .wait s (s.noMember c.pad q) := by rw [runOp_coll hop, hms]

section
variable {ms : List Member} (hms : s.members c.pad q = some ms)
include hms

theorem runOp_coll_full (h : ∃ m ∈ ms, s.engFull m.1 m.2 = true) : s.runOp fold q c = .wait s false := by
  rw [runOp_coll hop, hms]
  exact if_pos (by simpa using h)

theorem runOp_coll_goes (h : ∀ m ∈ ms, s.engFull m.1 m.2 = false) :
    s.runOp fold q c = (ms.foldl (fun s m => s.engRequest m.1 m.2) s).runColl fold c q ms := by
  rw [runOp_coll hop, hms]
  refine if_neg ?_
  rw [Bool.not_eq_true, List.any_eq_false]
  exact fun m hm => by rw [h m hm]; decide

end

/-- The members' commands have been performed. -/
def membersDone (q : Nat) (ms : List Member) (s : State) : State := ms.foldl (fun u m => u.cmdDone m.1 q m.2.id false) s

theorem cmdEnd_coll_done {ms : List Member} (hms : s.members c.pad q = some ms) (t : State) : s.cmdEnd fold q c (.done t) = membersDone q ms t := by
  unfold State.cmdEnd
  dsimp only
  rw [hop, hms]
  rfl

theorem cmdEnd_coll_fault {ms : List Member} (hms : s.members c.pad q = some ms) (t : State) (f : FaultRec) (b : Bool) :
    s.cmdEnd fold q c (.fault t f b) = (membersDone q ms t).raise c.pad f := by
  unfold State.cmdEnd
  dsimp only
  rw [hop, hms]
  rfl

end

section
variable {s : State} {fold q : Nat} {c : EngCmd} {sparse list dense : EngAddr} {count esize : Nat}

theorem runOp_gath (hop : c.op = .gath sparse list dense count esize) :
    s.runOp fold q c = State.elements s fold c sparse list dense esize true (List.range count) s := by rw [State.runOp, hop]

theorem runOp_scat (hop : c.op = .scat dense sparse list count esize) :
    s.runOp fold q c = State.elements s fold c sparse list dense esize false (List.range count) s := by rw [State.runOp, hop]

theorem runOp_cpy {src dst : EngAddr} {n lo width : Nat} {clr : Bool} (hop : c.op = .cpy src dst n lo width clr) :
    s.runOp fold q c = s.runCpy fold c src dst n lo width clr := by rw [State.runOp, hop]

end

section
variable {s0 : State} {fold : Nat} {c : EngCmd} {src : EngAddr} {lq : Nat}

theorem pageCame_getQ (s : State) (pad w q : Nat) : (s.pageCame pad w).getQ q = s.getQ q := by
  unfold State.pageCame State.updPad
  split <;> rfl

theorem runEnq_foreign (h : (s0.getQ lq).owner ≠ some c.ctx) : ∃ f : FaultRec, f.code = 0x0F ∧ s0.runEnq fold c src lq = .fault s0 f false := by
  unfold State.runEnq
  exact ⟨c.fault 0x0F (2 ^ 63 + lq), rfl, if_pos (by simpa using h)⟩

theorem runEnq_full (h : (s0.getQ lq).owner = some c.ctx) (hfull : (s0.getQ lq).wr - (s0.getQ lq).rd = 2 ^ (s0.getQ lq).lg) :
    s0.runEnq fold c src lq = .wait s0 ((s0.getPad c.pad).queue == lq) := by
  unfold State.runEnq
  extract_lets x
  rw [if_neg (by simp [x, h])]
  exact if_pos (by simpa using hfull)

end

/-! ### Copies into tiles, with their bytes and flags -/

/-- A copy has filled tile d: its flags are clear, its bytes are those of the range, zero in the pads of its rows. -/
structure State.Filled (s t : State) (key d : Nat) (td : Tile) (x : Space × Nat) : Prop where
  err : (t.tile key d).err = false
  exc : (t.tile key d).exc = false
  sat : (t.tile key d).sat = false
  bytes : ∀ i, i < td.size → ((td.role = .op ∨ td.role = .plain) → ¬ (td.alt = true ∧ td.ty = .f32) → i % 64 < 48) →
    t.memL.get (tileAddr (idxOf key) td + i) = (s.mem x.1).get (x.2 + i)
  frame : ∀ a, a < tileAddr (idxOf key) td ∨ tileAddr (idxOf key) td + td.size ≤ a → t.memL.get a = s.memL.get a

theorem ringFilled_filled (s : State) {key d : Nat} (lo : Nat) {td : Tile} (tag : Nat) {fold n : Nat} {src : EngAddr} (htd : s.tile key d = td)
    (hn : n = td.size) (hapart : Apart (engPlace fold src) (.l, tileAddr (idxOf key) td) td.size td.size) :
    s.Filled (s.ringFilled key d lo td tag (nearPart fold src n)) key d td (engPlace fold src) := by
  obtain ⟨-, -, -, herr, hexc, hsat⟩ := ringFilled_tile s key d lo td tag (nearPart fold src n)
  obtain ⟨hbytes, hframe⟩ := ringFilled_bytes s lo tag (src := nearPart fold src n) htd hn hapart
  exact ⟨herr, hexc, hsat, hbytes, hframe⟩

/-- The state in which a copy has filled a tile that is not of a ring. -/
def State.tileFilled (s : State) (c : EngCmd) (key n : Nat) (src : Part) : State :=
  let u := s.engCopy c [src] [tilePart key (s.tile key n)]
  (u.setTile key n ((u.tile key n).filledFrom none none)).padTile (idxOf key) (s.tile key n)

theorem tileFilled_filled (s : State) (c : EngCmd) (key d : Nat) {fold n : Nat} {src : EngAddr} (hn : n = (s.tile key d).size)
    (hclean : s.Clean (engPlace fold src) n)
    (hapart : Apart (engPlace fold src) (.l, tileAddr (idxOf key) (s.tile key d)) (s.tile key d).size (s.tile key d).size) :
    s.Filled (s.tileFilled c key d (nearPart fold src n)) key d (s.tile key d) (engPlace fold src) := by
  have hcopied : s.Copied (s.engCopy c [nearPart fold src n] [tilePart key (s.tile key d)]) (engPlace fold src)
      (.l, tileAddr (idxOf key) (s.tile key d)) n :=
    engCopy_copied c (a := nearPart fold src n) (b := tilePart key (s.tile key d)) hn (by rw [nearPart, hn]; exact Tile.size_mod _) rfl rfl rfl hclean
      (by rcases hapart with h | h | h
          · exact .inl h
          · exact .inr (.inr (by rw [nearPart, hn]; exact h))
          · exact .inr (.inl (by simp only [nearPart, tilePart]; omega)))
  rw [hn] at hcopied
  obtain ⟨hbytes, hframe⟩ := filled_bytes (s := s) (key := key) (d := d)
    (((s.engCopy c [nearPart fold src (s.tile key d).size] [tilePart key (s.tile key d)]).tile key d).filledFrom none none) hcopied
    (fun _ _ => rfl) fun _ _ => rfl
  have htile : (s.tileFilled c key d (nearPart fold src n)).tile key d =
      ((s.engCopy c [nearPart fold src n] [tilePart key (s.tile key d)]).tile key d).filledFrom none none := by
    unfold State.tileFilled
    dsimp only
    rw [tile_congr (State.padTile_units ..), setTile_tile_same]
  subst hn
  exact ⟨by rw [htile]; rfl, by rw [htile]; rfl, by rw [htile]; rfl, hbytes, hframe⟩

section
variable {s s1 : State} {fold q : Nat} {c : EngCmd} (hopen : firstOpen (amGet s.engines (queueKey fold q) []) = some c)
  (hgo : c.started = true ∨ s.engWaits fold c = false) (hpkt : c.pkt = none)
include hopen hgo hpkt

/-- The clauses on a copy to a tile. -/
theorem engineOpStart_toTile {src dst : EngAddr} {n lo width key d : Nat} {clr : Bool} {td : Tile} (hop : c.op = .cpy src dst n lo width clr)
    (hsrc : src.space ≤ 2) (hdst : dst.space = 5) (hs1 : s.engReady fold c = s1) (hunit : s1.engUnit c.cell c.entry c.ctx dst = some key)
    (hslot : (s1.getU key).slotNo.isSome = true)
    (hd : (if (s1.tile key dst.addr).role = .op then s1.tailTile key (s1.tile key dst.addr).ring else dst.addr) = d) (htd : s1.tile key d = td) :
    ((s1.tile key dst.addr).role = .op → td.st ≠ .empty ∨ td.swapped.isSome = true →
      exec (.engineOpStart fold q) s = .next (s1.cmdEnd fold q c (.wait s1 true))) ∧
    (n = td.size → s1.Clean (engPlace fold src) n → (engPlace fold src).2 % 8 = 0 →
      Apart (engPlace fold src) (.l, tileAddr (idxOf key) td) n n → s1.memWf = true →
      ((s1.tile key dst.addr).role = .op → td.st = .empty ∧ td.swapped = none) →
      ∃ s2 : State, ((s1.tile key dst.addr).role ≠ .op → exec (.engineOpStart fold q) s = .next ((s2.settleUnit key).cmdDone fold q c.id false)) ∧
        ((s1.tile key dst.addr).role = .op → exec (.engineOpStart fold q) s =
            .next (((s2.completeTail key (s1.tile key dst.addr).ring (lo + width)).settleUnit key).cmdDone fold q c.id false) ∧
          (s2.tile key d).st = .filling ∧ (s2.tile key d).lo = lo ∧
          ∀ slot f e, (s1.getU key).conf.ringReader (s1.tile key dst.addr).ring = some (slot, f) → s1.slotEnv key slot = some e →
            (s2.tile key d).tag = e.hdr.tsp * 64) ∧
        (s2.tile key d).err = false ∧ (s2.tile key d).exc = false ∧ (s2.tile key d).sat = false ∧
        (∀ x, x < n → ((td.role = .op ∨ td.role = .plain) → ¬ (td.alt = true ∧ td.ty = .f32) → x % 64 < 48) →
          s2.memL.get (tileAddr (idxOf key) td + x) = (s1.mem (engPlace fold src).1).get ((engPlace fold src).2 + x)) ∧
        ∀ x, x < tileAddr (idxOf key) td ∨ tileAddr (idxOf key) td + n ≤ x → s2.memL.get x = s1.memL.get x) := by
  have halone : c.op.alone = true := by rw [hop]; rfl
  have hdone {t : State} (hrun : s1.runCpy fold c src dst n lo width clr = .done t) :
      exec (.engineOpStart fold q) s = .next (t.cmdDone fold q c.id false) :=
    exec_engineOpStart_done hopen hgo hpkt halone (by rw [hs1, runOp_cpy hop, hrun])
  refine ⟨fun hrole hbusy => ?_, fun hn hclean _ hapart _ htail => ?_⟩
  · rw [if_pos hrole] at hd
    rw [exec_engineOpStart_alone hopen hgo hpkt halone, hs1, runOp_cpy hop,
      runCpy_ringBusy hpkt hsrc hdst hunit hslot hrole (by rw [hd, htd]; exact hbusy)]
  · subst hn
    by_cases hrole : (s1.tile key dst.addr).role = .op
    · rw [if_pos hrole] at hd
      obtain ⟨hst, hsw⟩ := htail hrole
      have hrun := runCpy_fillsRing (lo := lo) (width := width) (clr := clr) hpkt hsrc hdst hunit hslot hrole hd htd hst hsw rfl hclean
      obtain ⟨herr, hexc, hsat, hbytes, hframe⟩ := ringFilled_filled s1 lo (s1.ringTag key (s1.tile key dst.addr).ring) htd rfl hapart
      obtain ⟨hfill, hlo, htag, -⟩ := ringFilled_tile s1 key d lo td (s1.ringTag key (s1.tile key dst.addr).ring) (nearPart fold src td.size)
      exact ⟨_, fun h => absurd hrole h, fun _ => ⟨hdone hrun, hfill, hlo, fun slot f e hreader henv => htag.trans (ringTag_reader hreader henv)⟩,
        herr, hexc, hsat, hbytes, hframe⟩
    · rw [if_neg hrole] at hd
      subst hd htd
      obtain ⟨herr, hexc, hsat, hbytes, hframe⟩ := tileFilled_filled s1 c key dst.addr rfl hclean hapart
      exact ⟨_, fun _ => hdone (runCpy_fills hpkt hsrc hdst hunit hslot hrole rfl hclean), fun h => absurd h hrole,
        herr, hexc, hsat, hbytes, hframe⟩

end

/-- Settles O45: one command by its operation, from the bytes of one unit up; completions, appends and groups by their conditions. -/
theorem engineCommandsPerform : Obligations.EngineCommandsPerform := by
  unfold Obligations.EngineCommandsPerform
  intro place clear apart
  have hplace : place = engPlace := by funext fold e; rfl
  clear_value place
  subst hplace
  refine ⟨?_, ?_, ?_, ?_, ?_, ?_, ?_⟩
  · intro s c a b hlen h8 ha hb habad hbbad hdesc hclean hwf
    exact engCopy_clauses c hlen h8 ha hb habad hbbad hdesc hclean
  · intro s fold c e n write
    exact ⟨fun hpkt he => engRange_near s fold write n hpkt he, fun s2 pa en he hn hone htop hphys => engRange_page fold he hn hone htop hphys⟩
  · intro s fold q c hopen waits
    refine ⟨exec_engineOpStart_waits hopen, fun hgo hpkt => ?_⟩
    intro s1
    refine ⟨fun u => cmdEnd_wait s1 u hpkt, ?_, ?_, ?_, ?_, ?_, ?_, ?_⟩
    · intro op a v hop hspace p hclean hwf
      have hexec := engineOpStart_sig hopen hgo hpkt hop hspace hclean
      have hpart : (nearPart fold a 8).sp = .f ∧ (nearPart fold a 8).addr = p := by
        have hp : engPlace fold a = (.f, fAddr fold a.addr) := by rw [engPlace, hspace]; rfl
        exact ⟨congrArg Prod.fst hp, congrArg Prod.snd hp⟩
      obtain ⟨hval, hframe, hL, hS, hM, hwriter, hevents⟩ := putSignal_clauses s1 (p := nearPart fold a 8)
        (signalValue op (ofBytes (s1.readMem .f p 8)) v.toNat) (.engine fold q c.id) hpart.1
      rw [hpart.2] at hval hframe hwriter hevents
      exact ⟨_, hexec, hval, hframe, hL, hS, hM, hwriter, hevents⟩
    · intro src dst n lo width clr hop hsrc hdst sa ls sb ld ha hb hgate
      exact exec_engineOpStart_done hopen hgo hpkt (by rw [hop]; rfl) ((runOp_cpy hop).trans (runCpy_ranges hsrc hdst ha hb hgate))
    · intro src dst n lo width clr key hop hsrc hdst hunit hslot t
      refine ⟨fun hst => ?_, fun sb ld hst hb hgate => ?_⟩
      · rw [exec_engineOpStart_alone hopen hgo hpkt (by rw [hop]; rfl), runOp_cpy hop]
        exact congrArg (fun r => Host.Outcome.next (s1.cmdEnd fold q c r)) (runCpy_tileBusy hsrc hunit hslot hst)
      · exact exec_engineOpStart_done hopen hgo hpkt (by rw [hop]; rfl)
          ((runOp_cpy hop).trans (runCpy_tileReady hsrc hunit hslot hst hdst hb hgate))
    · intro src dst n lo width clr key hop hsrc hdst hunit hslot t d td from' row48
      exact engineOpStart_toTile hopen hgo hpkt hop hsrc hdst rfl hunit hslot rfl rfl
    · intro sparse list dense count esize index x d ok gathers scatters
      refine ⟨fun hmoves hok hcount hout => ?_, fun hok hin => ⟨fun hop hdl hfrom => ?_, fun hop hclean hto => ?_⟩⟩
      · obtain ⟨hsparse, hdense, hlist, h8, -, -, -, hclean, -⟩ := hok
        have hrun : ∃ f : FaultRec, f.code = 0x17 ∧ s1.runOp fold q c = .fault s1 f true := by
          rcases hmoves with hop | hop
          · rw [runOp_gath hop]; exact elements_outOfBounds hpkt hsparse hlist hdense hcount hclean hout
          · rw [runOp_scat hop]; exact elements_outOfBounds hpkt hsparse hlist hdense hcount hclean hout
        obtain ⟨f, hf, hrun⟩ := hrun
        have halone : c.op.alone = true := by rcases hmoves with hop | hop <;> rw [hop] <;> rfl
        exact ⟨f, hf, (exec_engineOpStart_alone hopen hgo hpkt halone).trans (congrArg (fun r => Host.Outcome.next (s1.cmdEnd fold q c r)) hrun)⟩
      · obtain ⟨hsparse, hdense, hlist, h8, -, -, -, hclean, -⟩ := hok
        obtain ⟨t, hrun, hkept⟩ := gath_performs hpkt hsparse hlist hdense h8 hclean hin hdl hfrom
        exact ⟨t, exec_engineOpStart_done hopen hgo hpkt (by rw [hop]; rfl) ((runOp_gath hop).trans hrun), hkept⟩
      · obtain ⟨hsparse, hdense, hlist, h8, -, -, -, hlistClean, -⟩ := hok
        obtain ⟨t, hrun, hkept⟩ := scat_performs hpkt hsparse hlist hdense h8 hlistClean hin hclean hto
        exact ⟨t, exec_engineOpStart_done hopen hgo hpkt (by rw [hop]; rfl) ((runOp_scat hop).trans hrun), hkept⟩
    · intro op src dst len root hop s2
      have hexec := exec_engineOpStart_coll hop hopen hgo hpkt
      refine ⟨fun hms => ?_, fun ms hms => ⟨fun hfull => ?_, fun hroom => ?_⟩⟩
      · exact hexec.trans (congrArg (fun r => Host.Outcome.next (s2.cmdEnd fold q c r)) (runOp_coll_noMember hop hms))
      · exact hexec.trans (congrArg (fun r => Host.Outcome.next (s2.cmdEnd fold q c r)) (runOp_coll_full hop hms hfull))
      · have hrun : exec (.engineOpStart fold q) s =
            .next (s2.cmdEnd fold q c ((ms.foldl (fun u m => u.engRequest m.1 m.2) s2).runColl fold c q ms)) :=
          hexec.trans (congrArg (fun r => Host.Outcome.next (s2.cmdEnd fold q c r)) (runOp_coll_goes hop hms hroom))
        intro u done
        have hu : (ms.foldl (fun u m => u.engRequest m.1 m.2) s2).collReady c.pad ms = u := rfl
        clear_value u
        refine ⟨fun hdiff => ?_, ?_⟩
        · obtain ⟨f, hf, hfault⟩ := runColl_mismatch (s := ms.foldl (fun u m => u.engRequest m.1 m.2) s2) (fold := fold) (q := q) hdiff
          exact ⟨f, hf, hrun.trans (by rw [hfault, hu, cmdEnd_coll_fault hop hms]; rfl)⟩
        · intro from' goal value rootMember sum targets hmembers h8 hwf hlen hapart
          obtain ⟨t, hdone, hreads, hframe⟩ := runColl_performs (fold := fold) (q := q) hu hop
            (fun m hm => (hmembers m hm).1)
            (fun m hm => by
              obtain ⟨-, hpkt, hsrc, hdst, -, -, hclean⟩ := hmembers m hm
              exact ⟨hpkt, hsrc, hdst, hclean⟩) h8 hlen hapart
          exact ⟨t, hrun.trans (by rw [hdone, cmdEnd_coll_done hop hms]; rfl), hreads, hframe⟩
    · intro src lq hop
      exact exec_engineOpStart_enq hopen hgo hpkt hop
  · intro s fold q c rest hqueue
    refine ⟨exec_engineOpComplete_open hqueue, fun hdone => ⟨fun lq i hpkt => ?_, fun hpkt => ?_⟩⟩
    · have hexec := exec_engineOpComplete_done hqueue hdone
      rw [hpkt] at hexec
      exact hexec
    · have hexec := exec_engineOpComplete_done hqueue hdone
      rw [hpkt] at hexec
      exact hexec
  · intro s fold q c src lq hopen hop hstart x s0
    have hexec := exec_enqAppend hopen hop hstart
    have hx : s0.getQ lq = x := pageCame_getQ ..
    refine ⟨fun hfull => hexec.trans (if_pos hfull), fun hroom => ?_⟩
    rw [if_neg (by rw [hroom]; decide)] at hexec
    refine ⟨fun howner => ?_, fun howner hwr => ?_, fun howner hwr hspace hpkt s1 l hrange hgate => ?_⟩
    · obtain ⟨f, hf, hrun⟩ := runEnq_foreign (s0 := s0) (fold := fold) (c := c) (src := src) (lq := lq) (by rw [hx]; exact howner)
      exact ⟨f, hf, hexec.trans (congrArg (fun r => Host.Outcome.next (s.cmdEnd fold q c r)) hrun)⟩
    · exact hexec.trans (congrArg (fun r => Host.Outcome.next (s.cmdEnd fold q c r)) (runEnq_full (by rw [hx]; exact howner) (by rw [hx]; exact hwr)))
    · have hrun := runEnq_appends (s0 := s0) (fold := fold) (c := c) (src := src) (lq := lq) (s1 := s1) (l := l) (by rw [hx]; exact howner)
        (by rw [hx]; exact hwr) hspace hpkt (by rw [hx]; exact hrange) hgate
      rw [hx] at hrun
      exact hexec.trans (congrArg (fun r => Host.Outcome.next (s.cmdEnd fold q c r)) hrun)
  · intro s cell slice g h
    exact exec_sliceReply_some h
  · intro s cell slice h
    exact exec_sliceReply_none h

end Sys2Proof.Machine
end
